-- ==== Sys2Proof/Word.lean ====
section
/-! DEFINITION. The plain words of the model: units (R1), the names of antennas, axes, zones and
group slots, and the fixed-size collections indexed by them. -/

namespace Sys2Proof

/-- One byte on a link. -/
abbrev Byte := BitVec 8

/-- An epoch of the station clock in milliseconds (R1). An `Int`, because a TIME_SET moves held
epochs by an offset that may take them below zero (R194). -/
abbrev Epoch := Int

/-- A position in millidegrees, or a velocity in mdeg/s (R1). -/
abbrev Mdeg := Int

/-- A timer: stopped, or running since an epoch (R5). -/
abbrev Timer := Option Epoch

/-- The 40-bit change flag word (R210). -/
abbrev FlagWord := BitVec 40

/-- The six antennas, numbered 0 to 5. -/
inductive Ant where
  | n0 | n1 | n2 | n3 | n4 | n5
deriving DecidableEq, Repr

/-- Every antenna in number order. -/
def Ant.all : List Ant := [.n0, .n1, .n2, .n3, .n4, .n5]

/-- The number of an antenna. -/
def Ant.num : Ant → Nat
  | .n0 => 0 | .n1 => 1 | .n2 => 2 | .n3 => 3 | .n4 => 4 | .n5 => 5

/-- The antenna of a number, if the number is 0..5. -/
def Ant.ofNat? : Nat → Option Ant
  | 0 => some .n0 | 1 => some .n1 | 2 => some .n2
  | 3 => some .n3 | 4 => some .n4 | 5 => some .n5
  | _ => none

/-- The two axes of an antenna. -/
inductive AxisName where
  | az | el
deriving DecidableEq, Repr

/-- The other axis of the same antenna. -/
def AxisName.other : AxisName → AxisName
  | .az => .el | .el => .az

/-- An axis, named by antenna and axis. -/
structure AxisId where
  ant : Ant
  ax : AxisName
deriving DecidableEq, Repr

/-- Both axes of an antenna, AZ first. -/
def Ant.axes (a : Ant) : List AxisId := [⟨a, .az⟩, ⟨a, .el⟩]

/-- The twelve axes in count order. -/
def AxisId.all : List AxisId := Ant.all.flatMap Ant.axes

/-- The other axis of the same antenna. -/
def AxisId.other (i : AxisId) : AxisId := ⟨i.ant, i.ax.other⟩

/-- The three heater zones of an antenna. -/
inductive ZoneClass where
  | pin | gear | surface
deriving DecidableEq, Repr

/-- A heater zone, named by antenna and class. -/
structure ZoneId where
  ant : Ant
  cls : ZoneClass
deriving DecidableEq, Repr

/-- The three zones of an antenna: PIN, GEAR, SURFACE. -/
def Ant.zones (a : Ant) : List ZoneId := [⟨a, .pin⟩, ⟨a, .gear⟩, ⟨a, .surface⟩]

/-- The eighteen zones in count order. -/
def ZoneId.all : List ZoneId := Ant.all.flatMap Ant.zones

/-- The four joint slew group slots. -/
inductive GroupId where
  | g0 | g1 | g2 | g3
deriving DecidableEq, Repr

/-- Every group slot in number order. -/
def GroupId.all : List GroupId := [.g0, .g1, .g2, .g3]

/-- The number of a group slot. -/
def GroupId.num : GroupId → Nat
  | .g0 => 0 | .g1 => 1 | .g2 => 2 | .g3 => 3

/-- The group slot of a number, if the number is 0..3. -/
def GroupId.ofNat? : Nat → Option GroupId
  | 0 => some .g0 | 1 => some .g1 | 2 => some .g2 | 3 => some .g3
  | _ => none

/-- One item per antenna. -/
structure Six (α : Type) where
  (a0 a1 a2 a3 a4 a5 : α)
deriving DecidableEq, Repr

/-- The item of an antenna. -/
def Six.get {α : Type} (x : Six α) : Ant → α
  | .n0 => x.a0 | .n1 => x.a1 | .n2 => x.a2 | .n3 => x.a3 | .n4 => x.a4 | .n5 => x.a5

/-- Replace the item of an antenna. -/
def Six.set {α : Type} (x : Six α) (a : Ant) (v : α) : Six α :=
  match a with
  | .n0 => ⟨v, x.a1, x.a2, x.a3, x.a4, x.a5⟩
  | .n1 => ⟨x.a0, v, x.a2, x.a3, x.a4, x.a5⟩
  | .n2 => ⟨x.a0, x.a1, v, x.a3, x.a4, x.a5⟩
  | .n3 => ⟨x.a0, x.a1, x.a2, v, x.a4, x.a5⟩
  | .n4 => ⟨x.a0, x.a1, x.a2, x.a3, v, x.a5⟩
  | .n5 => ⟨x.a0, x.a1, x.a2, x.a3, x.a4, v⟩

/-- The same item for every antenna. -/
def Six.const {α : Type} (v : α) : Six α := ⟨v, v, v, v, v, v⟩

/-- Build the six items from a rule. -/
def Six.of {α : Type} (f : Ant → α) : Six α := ⟨f .n0, f .n1, f .n2, f .n3, f .n4, f .n5⟩

/-- Apply a rule to every item. -/
def Six.map {α β : Type} (f : Ant → α → β) (x : Six α) : Six β :=
  ⟨f .n0 x.a0, f .n1 x.a1, f .n2 x.a2, f .n3 x.a3, f .n4 x.a4, f .n5 x.a5⟩

@[simp] theorem Six.get_set {α : Type} (x : Six α) (a b : Ant) (v : α) :
    (x.set a v).get b = if b = a then v else x.get b := by
  cases a <;> cases b <;> rfl

@[simp] theorem Six.get_map {α β : Type} (f : Ant → α → β) (x : Six α) (a : Ant) :
    (x.map f).get a = f a (x.get a) := by
  cases a <;> rfl

@[simp] theorem Six.get_const {α : Type} (v : α) (a : Ant) : (Six.const v).get a = v := by
  cases a <;> rfl

@[simp] theorem Six.get_of {α : Type} (f : Ant → α) (a : Ant) : (Six.of f).get a = f a := by
  cases a <;> rfl

theorem Six.ext_get {α : Type} {x y : Six α} (h : ∀ a, x.get a = y.get a) : x = y := by
  cases x; cases y
  have h0 := h .n0; have h1 := h .n1; have h2 := h .n2
  have h3 := h .n3; have h4 := h .n4; have h5 := h .n5
  simp_all [Six.get]

/-- One item per axis of an antenna. -/
structure PerAxis (α : Type) where
  (az el : α)
deriving DecidableEq, Repr

/-- The item of an axis. -/
def PerAxis.get {α : Type} (x : PerAxis α) : AxisName → α
  | .az => x.az | .el => x.el

/-- Replace the item of an axis. -/
def PerAxis.set {α : Type} (x : PerAxis α) (i : AxisName) (v : α) : PerAxis α :=
  match i with
  | .az => ⟨v, x.el⟩
  | .el => ⟨x.az, v⟩

/-- Apply a rule to both items. -/
def PerAxis.map {α β : Type} (f : AxisName → α → β) (x : PerAxis α) : PerAxis β :=
  ⟨f .az x.az, f .el x.el⟩

@[simp] theorem PerAxis.get_set {α : Type} (x : PerAxis α) (i j : AxisName) (v : α) :
    (x.set i v).get j = if j = i then v else x.get j := by
  cases i <;> cases j <;> rfl

@[simp] theorem PerAxis.get_map {α β : Type} (f : AxisName → α → β) (x : PerAxis α)
    (i : AxisName) : (x.map f).get i = f i (x.get i) := by
  cases i <;> rfl

/-- One item per heater zone of an antenna. -/
structure Trio (α : Type) where
  (pin gear surface : α)
deriving DecidableEq, Repr

/-- The item of a zone class. -/
def Trio.get {α : Type} (x : Trio α) : ZoneClass → α
  | .pin => x.pin | .gear => x.gear | .surface => x.surface

/-- Replace the item of a zone class. -/
def Trio.set {α : Type} (x : Trio α) (z : ZoneClass) (v : α) : Trio α :=
  match z with
  | .pin => ⟨v, x.gear, x.surface⟩
  | .gear => ⟨x.pin, v, x.surface⟩
  | .surface => ⟨x.pin, x.gear, v⟩

/-- Apply a rule to the three items. -/
def Trio.map {α β : Type} (f : ZoneClass → α → β) (x : Trio α) : Trio β :=
  ⟨f .pin x.pin, f .gear x.gear, f .surface x.surface⟩

@[simp] theorem Trio.get_set {α : Type} (x : Trio α) (i j : ZoneClass) (v : α) :
    (x.set i v).get j = if j = i then v else x.get j := by
  cases i <;> cases j <;> rfl

@[simp] theorem Trio.get_map {α β : Type} (f : ZoneClass → α → β) (x : Trio α)
    (i : ZoneClass) : (x.map f).get i = f i (x.get i) := by
  cases i <;> rfl

/-- One item per group slot. -/
structure Four (α : Type) where
  (g0 g1 g2 g3 : α)
deriving DecidableEq, Repr

/-- The item of a group slot. -/
def Four.get {α : Type} (x : Four α) : GroupId → α
  | .g0 => x.g0 | .g1 => x.g1 | .g2 => x.g2 | .g3 => x.g3

/-- Replace the item of a group slot. -/
def Four.set {α : Type} (x : Four α) (g : GroupId) (v : α) : Four α :=
  match g with
  | .g0 => ⟨v, x.g1, x.g2, x.g3⟩
  | .g1 => ⟨x.g0, v, x.g2, x.g3⟩
  | .g2 => ⟨x.g0, x.g1, v, x.g3⟩
  | .g3 => ⟨x.g0, x.g1, x.g2, v⟩

/-- Apply a rule to the four items. -/
def Four.map {α β : Type} (f : GroupId → α → β) (x : Four α) : Four β :=
  ⟨f .g0 x.g0, f .g1 x.g1, f .g2 x.g2, f .g3 x.g3⟩

@[simp] theorem Four.get_set {α : Type} (x : Four α) (i j : GroupId) (v : α) :
    (x.set i v).get j = if j = i then v else x.get j := by
  cases i <;> cases j <;> rfl

@[simp] theorem Four.get_map {α β : Type} (f : GroupId → α → β) (x : Four α) (i : GroupId) :
    (x.map f).get i = f i (x.get i) := by
  cases i <;> rfl

end Sys2Proof
end

