-- ==== Sys2Proof/Syntax.lean ====
section
/-! DEFINITION. The commands: one constructor of `Instr` per row of the table of operations and
events, with the row's operands, and the types those operands are made of. -/

namespace Sys2Proof

/-- The eight serial links (R186). -/
inductive Link where
  | operations | safety
  | pendant (n : Ant)
deriving DecidableEq, Repr

/-- The eight links in order. -/
def Link.all : List Link := [.operations, .safety] ++ Ant.all.map Link.pendant

/-- An encoder of an axis (R5). -/
inductive Enc where
  | a | b
deriving DecidableEq, Repr

/-- The encoder that is not this one. -/
def Enc.other : Enc → Enc
  | .a => .b | .b => .a

/-- An anemometer channel (R114). -/
inductive ChannelId where
  | one | two
deriving DecidableEq, Repr

/-- The ice class of an antenna (R152). -/
inductive IceClass where
  | none | light | heavy
deriving DecidableEq, Repr

/-- The mode of a heater zone (R139). -/
inductive HeatMode where
  | off | manual | auto
deriving DecidableEq, Repr

/-- A permit verdict (R175). -/
inductive Verdict where
  | allow | refuse
deriving DecidableEq, Repr

/-- A jog direction (R108). -/
inductive Direction where
  | plus | minus
deriving DecidableEq, Repr

/-- The cover set of a lockout entry (R92). -/
structure CoverSet where
  (az el heat : Bool)
deriving DecidableEq, Repr

/-- What a SAFETY lockout request names: an antenna by number, or STATION (R92, R93). -/
inductive LockTarget where
  | antenna (n : Nat)
  | station
deriving DecidableEq, Repr

/-- Who sends a LOCK_PLACE, with the argument only that sender gives (R93). -/
inductive LockSender where
  | pendant (n : Ant) (badge : Nat)
  | safety (target : LockTarget)
deriving DecidableEq, Repr

/-- Who sends a LOCK_REMOVE, with the argument only that sender gives (R98). -/
inductive UnlockSender where
  | pendant (n : Ant) (badge : Nat)
  | safety (target : LockTarget)
deriving DecidableEq, Repr

/-- Who sends a HEAT_SET: Operations names the antenna, a pendant's is its own (R150). -/
inductive HeatSender where
  | operations (ant : Nat)
  | pendant (n : Ant)
deriving DecidableEq, Repr

/-- The figures a CONFIG_WRITE of an AXIS record carries (R8, R30). -/
structure AxisFigures where
  (vmax amax softLow softHigh hold coeff followLimit idle : Int)
deriving DecidableEq, Repr

/-- The figures a CONFIG_WRITE of the STATION record carries (R157, R159). -/
structure StationFigures where
  (limit base period allowance : Int)
deriving DecidableEq, Repr

/-- The figures a CONFIG_WRITE of a ZONE record carries (R140). -/
structure ZoneFigures where
  (rated : Int) (frame : Nat) (idle melt band : Int) (retain : Bool)
deriving DecidableEq, Repr

/-- A (mean, gust) threshold pair (R118). -/
structure Pair where
  (mean gust : Int)
deriving DecidableEq, Repr

/-- The figures a CONFIG_WRITE of the WIND record carries (R122). -/
structure WindFigures where
  (breezy strong stow : Pair) (filter : Nat) (holdDown silence : Int)
  (order : List Nat) (elevation : Int)
deriving DecidableEq, Repr

/-- One member of a GROUP_PLAN: an antenna by number and its optional targets (R73). -/
structure MemberArg where
  (ant : Nat) (azTarget elTarget : Option Mdeg)
deriving DecidableEq, Repr

/-- The entry a PERMIT_WRITE carries: its codes as on the wire (R183, R209). -/
structure PermitArg where
  (index : Nat) (inUse andFlag refuse : Bool) (property compare : Nat) (value : BitVec 32)
deriving DecidableEq, Repr

/-- The field inputs of one axis (R5, the items marked "live"). -/
structure AxisInputs where
  (encA encB : Mdeg) (reportA reportB : Bool)
  /-- holding-current-reached sense -/
  (current : Bool)
  /-- amplifier fault report -/
  (ampFault : Bool)
  (setSwitch releasedSwitch : Bool)
  (limitLow limitHigh : Bool)
deriving DecidableEq, Repr

/-- The field inputs of one antenna: its axes, bus reading in tenths of a percent, pin switches and
zone temperature sensors (00_scope, field I/O table; R5). -/
structure AntInputs where
  (axes : PerAxis AxisInputs) (bus : Nat) (pinIn pinOut : Bool) (temps : Trio Int)
deriving DecidableEq, Repr

/-- Every field input of the part, with the two anemometers and the store-supply-good line. -/
structure FieldInputs where
  (ants : Six AntInputs) (anem1 anem2 : Int) (supplyGood : Bool)
deriving DecidableEq, Repr

/-- The commands: requests as a link takes them, field events, paced steps and timer expiries.
An enumerated argument that a frame can carry with a code outside its list is an `Option`: `none`
stands for such a code. -/
inductive Instr where
  /-- POWER_ON (R204) -/
  | powerOn
  /-- POWER_LOSS (R201) -/
  | powerLoss
  /-- FRAME_RECEIVED (R187): bytes arrive at a link receiver -/
  | frameReceived (link : Link) (bytes : List Byte)
  /-- BAD_KIND (R189): the link takes a frame that fails the Link Front's own checks -/
  | badKind (link : Link) (kind tag : Byte) (body : List Byte)
  /-- REPLY_SENT (R188) -/
  | replySent (link : Link)
  /-- NOTICE_SENT (R196) -/
  | noticeSent (link : Link)
  /-- STATUS_READ(ANTENNA) (R29, R191) -/
  | statusReadAntenna (link : Link) (tag : Byte) (ant part : Nat)
  /-- STATUS_READ(TRACK) (R70, R191) -/
  | statusReadTrack (link : Link) (tag : Byte) (ant part : Nat)
  /-- STATUS_READ(GROUP) (R90, R191) -/
  | statusReadGroup (link : Link) (tag : Byte) (part : Nat)
  /-- STATUS_READ(LOCKOUTS) (R101, R191) -/
  | statusReadLockouts (link : Link) (tag : Byte) (part : Nat)
  /-- STATUS_READ(WIND) (R138, R191) -/
  | statusReadWind (link : Link) (tag : Byte) (part : Nat)
  /-- STATUS_READ(HEAT) (R156, R191) -/
  | statusReadHeat (link : Link) (tag : Byte) (part : Nat)
  /-- STATUS_READ(BUDGET) (R174, R191) -/
  | statusReadBudget (link : Link) (tag : Byte) (part : Nat)
  /-- STATUS_READ(STORE) (R206, R191) -/
  | statusReadStore (link : Link) (tag : Byte) (part : Nat)
  /-- STATUS_READ(PERMIT) (R185, R191) -/
  | statusReadPermit (link : Link) (tag : Byte) (part : Nat)
  /-- CHANGES_ACK(values, mask) (R197) -/
  | changesAck (link : Link) (tag : Byte) (values mask : FlagWord)
  /-- NOTICE_ENABLE(ON) (R198) -/
  | noticeEnableOn (link : Link) (tag : Byte)
  /-- NOTICE_ENABLE(OFF) (R198) -/
  | noticeEnableOff (link : Link) (tag : Byte)
  /-- TIME_SET(epoch) (R193) -/
  | timeSet (tag : Byte) (epoch : Nat)
  /-- AXIS_ENABLE(antenna, ON) (R11) -/
  | axisEnableOn (tag : Byte) (ant : Nat)
  /-- AXIS_ENABLE(antenna, HOLD) (R11) -/
  | axisEnableHold (tag : Byte) (ant : Nat)
  /-- AXIS_ENABLE(antenna, OFF) (R11, R12) -/
  | axisEnableOff (tag : Byte) (ant : Nat)
  /-- DRIVE_RESET(antenna) (R27) -/
  | driveReset (tag : Byte) (ant : Nat)
  /-- ENCODER_SELECT(antenna, axis, encoder) (R22) -/
  | encoderSelect (tag : Byte) (ant : Nat) (axis : Option AxisName) (enc : Option Enc)
  /-- ENCODER_DISABLE(antenna, axis, encoder, DISABLE) (R23) -/
  | encoderDisable (tag : Byte) (ant : Nat) (axis : Option AxisName) (enc : Option Enc)
  /-- ENCODER_DISABLE(antenna, axis, encoder, RESTORE) (R23) -/
  | encoderRestore (tag : Byte) (ant : Nat) (axis : Option AxisName) (enc : Option Enc)
  /-- CONFIG_WRITE(AXIS) (R8, R30) -/
  | configWriteAxis (tag : Byte) (ant : Nat) (axis : Option AxisName) (figures : AxisFigures)
  /-- CONFIG_WRITE(STATION) (R159) -/
  | configWriteStation (tag : Byte) (figures : StationFigures)
  /-- CONFIG_WRITE(ZONE) (R140) -/
  | configWriteZone (tag : Byte) (ant : Nat) (zone : Option ZoneClass) (figures : ZoneFigures)
  /-- CONFIG_WRITE(WIND) (R122) -/
  | configWriteWind (tag : Byte) (figures : WindFigures)
  /-- BURST_OPEN(antenna, anchor) (R51) -/
  | burstOpen (tag : Byte) (ant : Nat) (anchor : Option (PerAxis Mdeg))
  /-- BURST_DATA (R52): the body as received, a count and that many 16-byte records (R208) -/
  | burstData (tag : Byte) (body : List Byte)
  /-- BURST_CLOSE(count, CRC) (R57) -/
  | burstClose (tag : Byte) (count : Nat) (crc : BitVec 32)
  /-- BURST_ABORT (R58) -/
  | burstAbort (tag : Byte)
  /-- TRACK_CLEAR(antenna) (R68) -/
  | trackClear (tag : Byte) (ant : Nat)
  /-- BURST_TIMEOUT (R59) -/
  | burstTimeout
  /-- QUEUE_PREPARE (R60) -/
  | queuePrepare (a : Ant)
  /-- QUEUE_STARTING (R61) -/
  | queueStarting (a : Ant)
  /-- QUEUE_RUN_START (R61) -/
  | queueRunStart (a : Ant)
  /-- QUEUE_LATE (R61) -/
  | queueLate (a : Ant)
  /-- SEGMENT_COMPLETE (R63) -/
  | segmentComplete (a : Ant)
  /-- GROUP_PLAN(id, members) (R73 to R75) -/
  | groupPlan (tag : Byte) (id : Nat) (members : List MemberArg)
  /-- GROUP_ARM(id, start epoch) (R77, R78) -/
  | groupArm (tag : Byte) (id start : Nat)
  /-- GROUP_CANCEL(id) (R89) -/
  | groupCancel (tag : Byte) (id : Nat)
  /-- GROUP_READ(id, part) (R90, R208) -/
  | groupRead (tag : Byte) (id part : Nat)
  /-- GROUP_START (R80) -/
  | groupStart (g : GroupId)
  /-- GROUP_START_GRACE_EXPIRY (R81) -/
  | groupStartGraceExpiry (g : GroupId)
  /-- GROUP_DONE (R83) -/
  | groupDone (g : GroupId)
  /-- GROUP_SETTLE_LIMIT (R84) -/
  | groupSettleLimit (g : GroupId)
  /-- HOLD_PLACE(antenna, cover set, reason code) (R93) -/
  | holdPlace (tag : Byte) (ant : Nat) (cover : CoverSet) (reason : Option Nat)
  /-- HOLD_REMOVE(slot, antenna) (R98) -/
  | holdRemove (tag : Byte) (slot ant : Nat)
  /-- LOCK_PLACE (R93, R94) -/
  | lockPlace (tag : Byte) (sender : LockSender) (cover : CoverSet) (reason : Option Nat)
  /-- LOCK_REMOVE (R98) -/
  | lockRemove (tag : Byte) (sender : UnlockSender) (slot : Nat)
  /-- FORCE_REMOVE(slot, antenna) (R99) -/
  | forceRemove (tag : Byte) (slot : Nat) (target : LockTarget)
  /-- LOCAL_CLAIM from Pendant n (R103) -/
  | localClaim (tag : Byte) (n : Ant)
  /-- LOCAL_RELEASE from Pendant n (R105) -/
  | localRelease (tag : Byte) (n : Ant)
  /-- PENDANT_SILENCE_EXPIRY (R105) -/
  | pendantSilenceExpiry (n : Ant)
  /-- JOG(axis, direction, speed) from Pendant n (R109) -/
  | jog (tag : Byte) (n : Ant) (axis : Option AxisName) (dir : Option Direction) (speed : Int)
  /-- JOG_DEADMAN (R112) -/
  | jogDeadman (n : Ant)
  /-- FORCE_REMOVAL_TIMER_EXPIRY (R107) -/
  | forceRemovalTimerExpiry (n : Ant)
  /-- WARNING_TIMER_EXPIRY (R107) -/
  | warningTimerExpiry (n : Ant)
  /-- HEAT_SET(zone, mode, manual level) (R150) -/
  | heatSet (tag : Byte) (sender : HeatSender) (zone : Option ZoneClass) (mode : Option HeatMode)
      (level : Option Nat)
  /-- ICE_FLOOR(antenna, class) (R154) -/
  | iceFloor (tag : Byte) (ant : Nat) (cls : Option IceClass)
  /-- WEATHER(air temperature, precipitation) (R151) -/
  | weather (tag : Byte) (temp : Int) (precip : Bool)
  /-- STOW_DEMAND(ON) (R133) -/
  | stowDemandOn (tag : Byte)
  /-- STOW_DEMAND(OFF) (R133) -/
  | stowDemandOff (tag : Byte)
  /-- STOW_RELEASE (R134) -/
  | stowRelease (tag : Byte)
  /-- ALL_STOP (R136) -/
  | allStop (tag : Byte)
  /-- PERMIT_WRITE(index, entry) (R183) -/
  | permitWrite (tag : Byte) (entry : PermitArg)
  /-- PERMIT_WRITE(DEFAULT, verdict) (R184) -/
  | permitWriteDefault (tag : Byte) (verdict : Option Verdict)
  /-- RESTART from Safety (R205) -/
  | restart (tag : Byte)
  /-- SERVO_STEP (R7), with the field inputs as they stand at the step -/
  | servoStep (io : FieldInputs)
  /-- PROFILE_END (R45) -/
  | profileEnd (axis : AxisId)
  /-- STOP_END (R17) -/
  | stopEnd (axis : AxisId)
  /-- BUS_UP (R9) -/
  | busUp (a : Ant)
  /-- PRECHARGE_TIMEOUT (R9) -/
  | prechargeTimeout (a : Ant)
  /-- BUS_OUT_OF_BAND (R10) -/
  | busOutOfBand (a : Ant)
  /-- BUS_BACK_IN_BAND (R10) -/
  | busBackInBand (a : Ant)
  /-- HOLDING_CURRENT_REACHED (R14) -/
  | holdingCurrentReached (axis : AxisId)
  /-- TORQUE_UP_TIMEOUT (R14) -/
  | torqueUpTimeout (axis : AxisId)
  /-- BRAKE_RELEASE_CONFIRMED (R14) -/
  | brakeReleaseConfirmed (axis : AxisId)
  /-- RELEASE_CHECK_TIMEOUT (R14) -/
  | releaseCheckTimeout (axis : AxisId)
  /-- BRAKE_SET_CONFIRMED (R15) -/
  | brakeSetConfirmed (axis : AxisId)
  /-- BRAKE_SET_TIMEOUT (R15) -/
  | brakeSetTimeout (axis : AxisId)
  /-- IDLE_BRAKE_EXPIRY (R19) -/
  | idleBrakeExpiry (axis : AxisId)
  /-- ENCODER_DISAGREEMENT_FAULT (R20) -/
  | encoderDisagreementFault (axis : AxisId)
  /-- ENCODER_FAULT_REPORT (R21) -/
  | encoderFaultReport (axis : AxisId) (enc : Enc)
  /-- ENCODER_REPORT_CLEARED (R21) -/
  | encoderReportCleared (axis : AxisId) (enc : Enc)
  /-- FOLLOWING_FAULT (R24) -/
  | followingFault (axis : AxisId)
  /-- LIMIT_SWITCH_TRIPPED (R25), at the high end or the low end -/
  | limitSwitchTripped (axis : AxisId) (highEnd : Bool)
  /-- AMPLIFIER_FAULT (R25) -/
  | amplifierFault (axis : AxisId)
  /-- WIND_SAMPLE (R115 to R120), with both channels' readings -/
  | windSample (r1 r2 : Int)
  /-- ANEMOMETER_STUCK (R115): the sample at which the channel becomes STUCK -/
  | anemometerStuck (ch : ChannelId) (r1 r2 : Int)
  /-- WIND_DISAGREEMENT_MARK (R116): the sample at which the mark is set -/
  | windDisagreementMark (r1 r2 : Int)
  /-- WIND_CLASS_RISE (R119): the sample at which the class rises -/
  | windClassRise (r1 r2 : Int)
  /-- WIND_CLASS_FALL (R120): the sample at which the class falls -/
  | windClassFall (r1 r2 : Int)
  /-- SAFETY_SILENCE (R121) -/
  | safetySilence
  /-- WAVE_START (R129) -/
  | waveStart
  /-- PIN_WARMING_TIMEOUT (R131) -/
  | pinWarmingTimeout (a : Ant)
  /-- PIN_IN_SWITCH_MADE (R132) -/
  | pinInSwitchMade (a : Ant)
  /-- PIN_INSERT_TIMEOUT (R132) -/
  | pinInsertTimeout (a : Ant)
  /-- PIN_IN_SWITCH_OPENED (R132) -/
  | pinInSwitchOpened (a : Ant)
  /-- PIN_OUT_SWITCH_MADE (R135) -/
  | pinOutSwitchMade (a : Ant)
  /-- PIN_WITHDRAW_TIMEOUT (R135) -/
  | pinWithdrawTimeout (a : Ant)
  /-- HEATER_STEP (R141) of a zone, with its sensor's reading -/
  | heaterStep (zone : ZoneId) (reading : Int)
  /-- HEATER_FRAME_START (R143): the heater step at which the zone's step index wraps to 0 -/
  | heaterFrameStart (zone : ZoneId) (reading : Int)
  /-- WEATHER_STALE (R151) -/
  | weatherStale
  /-- WET_TIMER_EXPIRY (R152) -/
  | wetTimerExpiry (a : Ant)
  /-- FREEZE_TIMER_EXPIRY (R152) -/
  | freezeTimerExpiry (a : Ant)
  /-- THAW_TIMER_EXPIRY (R153) -/
  | thawTimerExpiry (a : Ant)
  /-- GRANT_QUEUE_TIMEOUT (R166) of an axis's entry -/
  | grantQueueTimeout (axis : AxisId)
  /-- SHED_HALF_CHECK (R171) -/
  | shedHalfCheck
  /-- SHED_EXPIRY (R172) -/
  | shedExpiry
  /-- RESTORATION_STEP (R172) -/
  | restorationStep
  /-- STORE_SUPPLY_LOW (R201) -/
  | storeSupplyLow
  /-- STORE_WRITE_START (R201) -/
  | storeWriteStart
  /-- STORE_WRITE_COMPLETE (R201) -/
  | storeWriteComplete
  /-- STORE_HEAD_WAIT_EXPIRY (R201) -/
  | storeHeadWaitExpiry
deriving DecidableEq, Repr

end Sys2Proof
end

