-- ==== Sys2Proof/Decode.lean ====
section
/-! DEFINITION. Decoding of table words. The opcode table gives none of its 118 rows any bits (every row's
`fields` is empty), so no word spells a command by the table. -/

namespace Sys2Proof

/-- The command that a word spells by the opcode table's bits: none, since no row has bits. What the links
themselves decode, frames from bytes, is `Machine.receive` (R187). -/
def decodeTableWord (_nbits _w : Nat) : Option Instr := none

end Sys2Proof
end

