-- ==== Sys2Proof/Machine/Arith.lean ====
section
/-! DEFINITION. Exact arithmetic with stated roundings (R3), and timers (R4). -/

namespace Sys2Proof.Machine

/-- Division rounded up. -/
def ceilDiv (n d : Nat) : Nat := (n + d - 1) / d

/-- Round up to a multiple of 100 (R35, R39). -/
def roundUp100 (n : Nat) : Nat := 100 * ceilDiv n 100

/-- Halving search for the integer square root: `lo * lo ≤ n < hi * hi` is kept. -/
def isqrtSearch (n : Nat) : Nat → Nat → Nat → Nat
  | 0, lo, _ => lo
  | fuel + 1, lo, hi =>
    if hi ≤ lo + 1 then lo
    else if ((lo + hi) / 2) * ((lo + hi) / 2) ≤ n then isqrtSearch n fuel ((lo + hi) / 2) hi
    else isqrtSearch n fuel lo ((lo + hi) / 2)

/-- The floor of the square root (R33). -/
def isqrt (n : Nat) : Nat := isqrtSearch n (n + 1) 0 (n + 1)

/-- A figure set into a range (R30, R190). -/
def clampInt (lo hi x : Int) : Int := if x < lo then lo else if hi < x then hi else x

/-- A signed figure set into a range of whole numbers. -/
def clampNat (lo hi : Nat) (x : Int) : Nat := (clampInt lo hi x).toNat

/-- A position set into the soft limits (R7). -/
def clampSoft (lo hi : Mdeg) (x : Mdeg) : Mdeg := clampInt lo hi x

/-- A count that stays at its greatest value (R49, R186). -/
def satAdd (top n k : Nat) : Nat := min top (n + k)

/-- The greatest value of the counts of a track status record (R49). -/
def countTop : Nat := 4294967295

/-- The sign of a direction times a distance. -/
def signed (up : Bool) (n : Nat) : Int := if up then n else -n

/-- The time a timer has run at an epoch; a stopped timer has run no time. -/
def ranFor (now : Epoch) (t : Timer) : Option Int := t.map (now - ·)

/-- A timer has passed an interval of `ms` (R4): its interval has fully passed. -/
def passed (now : Epoch) (t : Timer) (ms : Int) : Bool :=
  match t with
  | none => false
  | some e => decide (e + ms ≤ now)

/-- A timer that runs while a condition holds: it goes on if it runs, starts if it does not, and stops
when the condition fails (R4). -/
def runWhile (now : Epoch) (cond : Bool) (t : Timer) : Timer :=
  if cond then some (t.getD now) else none

/-- A pace falls at an epoch: a whole number of periods after the epoch it is counted from (R2). -/
def fallsAt (phase : Epoch) (period : Int) (now : Epoch) : Bool := decide ((now - phase) % period = 0)

/-- Move a held epoch by an offset (R194). -/
def shiftTimer (off : Int) (t : Timer) : Timer := t.map (· + off)

end Sys2Proof.Machine
end

