-- ==== Sys2Proof/Machine/State.lean ====
section
/-! DEFINITION. The state of the part, block by block, and its value right after power-on. -/

namespace Sys2Proof.Machine

/-- Why the machine stops with a fault. The spec gives every command an effect, so NO meaning raises
a fault: the type has no constructor (safe: nothing is cut short). -/
inductive Fault where
deriving DecidableEq, Repr

/-- Why a command has no meaning. -/
inductive Refusal where
  /-- Raised by `exec` for a row with no meaning yet. No arm raises it (safe). -/
  | notModelled (mnemonic : String)
deriving DecidableEq, Repr

/-! ### Axis Drive Units (R5, R6, R8) -/

/-- The causes a fault of an axis can have (R5), in the row order of R25. -/
inductive FaultCause where
  | following | encoder | limit | amplifier | precharge | brakeRelease | brakeSet
deriving DecidableEq, Repr

/-- The axis states of R6. FAULTED holds the fault cause; the cause is absent in every other state. -/
inductive AxisState where
  | off | precharge | braked | torqueUp | holding | slewing | tracking | jogging | stopping | braking
  | faulted (cause : FaultCause)
deriving DecidableEq, Repr

/-- The reasons of stop requests (R18). -/
inductive StopReason where
  | lockout | blocked | stow | allStop | group | track | underrun | jogEnd | fault | idle | disable
  | restart
deriving DecidableEq, Repr

/-- The targets of stop requests, shallow to deep (R18). -/
inductive StopTarget where
  | holding | braked | off
deriving DecidableEq, Repr

/-- The stop record of an axis in STOPPING (R5, R17). -/
structure StopRecord where
  (reason : StopReason) (target : StopTarget) (accel : Nat) (velocity : Mdeg) (position : Mdeg)
  (start : Epoch)
deriving DecidableEq, Repr

/-- A stop target an axis still has to carry out: waiting for a handover (R14) or under way in
BRAKING (R15). The reason is absent where no stop request gave one. -/
structure PendingStop where
  (reason : Option StopReason) (target : StopTarget)
deriving DecidableEq, Repr

/-- Who wants an axis torqued (R13). -/
inductive ClaimSource where
  | operations | queue | group | stow | jog
deriving DecidableEq, Repr

/-- The hold claims set of an axis (R13): each source is in it at most once. -/
structure Claims where
  (operations queue group stow jog : Bool)
deriving DecidableEq, Repr

/-- Under whose grant an axis draws (R5, R6). -/
inductive GrantCover where
  | none | standing
  | group (g : GroupId)
  | wave
deriving DecidableEq, Repr

/-- The active profile record of an axis (R42). -/
structure Profile where
  (start : Epoch) (position target : Mdeg) (peak accel : Nat) (up : Bool) (duration : Nat)
deriving DecidableEq, Repr

/-- The AXIS record in force (R8, R30); the idle time is in seconds. -/
structure AxisRecord where
  (vmax amax : Nat) (softLow softHigh : Mdeg) (hold coeff followLimit idle : Nat)
deriving DecidableEq, Repr

/-- One Axis Drive Unit (R5) with its active profile record (R42) and AXIS record (R8).
The live items are in `FieldInputs`. -/
structure Axis where
  state : AxisState
  position : Mdeg
  velocity : Mdeg
  enabledA : Bool
  enabledB : Bool
  active : Enc
  amplifier : Bool
  /-- brake command: RELEASED or SET -/
  released : Bool
  releaseCheck : Option Epoch
  followingError : Nat
  claims : Claims
  stop : Option StopRecord
  /-- the stop held for the end of a handover (R14), or under way in BRAKING (R15, R29) -/
  pendingStop : Option PendingStop
  cover : GrantCover
  recordWritten : Bool
  idleTimer : Timer
  disagreeTimer : Timer
  /-- the MODEL's own: encoder A's standing own-fault report has been acted on (R21, log 34) -/
  actedA : Bool
  /-- the MODEL's own: the same for encoder B -/
  actedB : Bool
  followTimer : Timer
  /-- when the amplifier was enabled in TORQUE_UP (R14) -/
  torqueTimer : Timer
  /-- when BRAKING was entered (R15) -/
  brakeTimer : Timer
  profile : Option Profile
  record : AxisRecord
deriving DecidableEq, Repr

/-- The drive bus of an antenna (R5). -/
inductive BusState where
  | off | precharge | up
deriving DecidableEq, Repr

/-- One antenna's drive items (R5). READY is computed from them (`Antenna.ready`, R10). -/
structure Antenna where
  bus : BusState
  enable : Bool
  prechargeStart : Option Epoch
  inBandTimer : Timer
  outBandTimer : Timer
  /-- the reading counts as out of band (R10) -/
  outOfBand : Bool
  configInvalid : Bool
  axes : PerAxis Axis
deriving DecidableEq, Repr

/-! ### Segment queues and the burst channel (R47 to R50) -/

/-- The state of a segment (R47). -/
inductive SegState where
  | staged | queued | active
deriving DecidableEq, Repr

/-- A segment in its queue (R47), with the start positions it was checked from (R53). -/
structure Segment where
  (start : Epoch) (duration : Nat) (startPos endPos : PerAxis Mdeg) (last : Bool) (state : SegState)
deriving DecidableEq, Repr

/-- The run state of a queue (R49). -/
inductive RunState where
  | idle | waiting | preparing | starting | running
deriving DecidableEq, Repr

/-- Why a queue halted (R49). -/
inductive HaltReason where
  | fault (axis : AxisName) (cause : FaultCause)
  | lockout | stow | local_ | allStop | late | capture | config
deriving DecidableEq, Repr

/-- Where the raise of an axis's standing grant for a run stands (R61). -/
inductive RaiseState where
  | none | asked | granted
deriving DecidableEq, Repr

/-- One segment queue and its track status record (R48, R49). -/
structure Track where
  segments : List Segment
  run : RunState
  halted : Bool
  haltReason : Option HaltReason
  firstAbandoned : Option Epoch
  abandoned : Nat
  underruns : Nat
  done : Nat
  pauseReported : Bool
  raises : PerAxis RaiseState
deriving DecidableEq, Repr

/-- The segment the next arriving segment must follow (R50, R51); `end_` is absent in anchor mode.
`prev` holds the (Δ, duration) pair per axis. -/
structure ChainTail where
  (end_ : Option Epoch) (pos : PerAxis Mdeg) (prev : PerAxis (Int × Nat)) (last : Bool)
deriving DecidableEq, Repr

/-- The cause a segment failed its checks for (R50). -/
inductive SegCause where
  | limit | speed | accel | contiguity | full
deriving DecidableEq, Repr

/-- Why a burst was terminated (R59). -/
inductive TermReason where
  | stow | lockout | fault | local_ | allStop | halted | restart | timeout
deriving DecidableEq, Repr

/-- The burst channel (R50). `ant` is present while the channel is open. -/
structure Burst where
  ant : Option Ant
  tail : Option ChainTail
  received : Nat
  crc : BitVec 32
  staged : Nat
  firstError : Option (Nat × SegCause)
  lastFrame : Option Epoch
  termination : Option (Ant × TermReason)
deriving DecidableEq, Repr

/-! ### Group table (R71) -/

/-- The state of a group (R71). -/
inductive GroupState where
  | empty | planned | armed | running | done | halted
deriving DecidableEq, Repr

/-- Why a group halted (R71). -/
inductive GroupHalt where
  | fault (cause : FaultCause)
  | lockout | stow | allStop | cancel | notReady | settle
deriving DecidableEq, Repr

/-- The plan figures of one member axis (R40, R71). `tmin`, `vstar` and `peak` are absent for D = 0. -/
structure AxisPlan where
  (start target : Mdeg) (distance : Nat) (up : Bool) (v a : Nat)
  (tmin vstar peak : Option Nat) (time demand : Nat)
deriving DecidableEq, Repr

/-- One member antenna of a group: its given targets and both axes' plan figures (R71). -/
structure Member where
  (ant : Ant) (targets : PerAxis (Option Mdeg)) (plans : PerAxis AxisPlan)
deriving DecidableEq, Repr

/-- One group record (R71). The plan figures are 0 while absent (`members` empty). -/
structure Group where
  state : GroupState
  members : List Member
  tg0 : Nat
  step : Nat
  tg : Nat
  demand : Nat
  held : Bool
  start : Option Epoch
  settleTimer : Timer
  haltReason : Option GroupHalt
  causing : Option (Ant × Option AxisName)
  completion : Option Epoch
deriving DecidableEq, Repr

/-! ### Lockout table and authority (R92, R102, R107, R108) -/

/-- The class of a lockout entry (R92). -/
inductive LockClass where
  | personnel | safety | operations
deriving DecidableEq, Repr

/-- The holder of a lockout entry (R92). -/
inductive Holder where
  | pendant (n : Ant)
  | safety | operations
deriving DecidableEq, Repr

/-- One lockout entry (R92). `scope` is `none` for STATION. Its PENDING or EFFECTIVE state is computed
(`State.entryEffective`, R96) and its persisted flag is the store's mark (R199). -/
structure LockEntry where
  (scope : Option Ant) (cover : CoverSet) (cls : LockClass) (holder : Holder) (badge : Option Nat)
  (reason : Option Nat) (placed : Nat) (creation : Nat)
deriving DecidableEq, Repr

/-- The phase of a jog (R108). -/
inductive JogPhase where
  | preparing | raising | running
deriving DecidableEq, Repr

/-- Why a jog can no longer go on (R108). -/
inductive JogFailure where
  | budget | faulted
deriving DecidableEq, Repr

/-- The ramp of a RUNNING jog (R108, R110). -/
structure JogRamp where
  (start : Epoch) (position : Mdeg) (accel : Nat) (atLimit : Bool)
deriving DecidableEq, Repr

/-- A jog record (R108). -/
structure Jog where
  (axis : AxisName) (dir : Direction) (speed : Nat) (phase : JogPhase) (lastFrame : Epoch)
  (failure : Option JogFailure) (ramp : Option JogRamp)
deriving DecidableEq, Repr

/-- The authority record of an antenna (R102). LOCAL is LOCAL(n) with the antenna's own number. -/
structure Authority where
  (isLocal : Bool) (claimed : Option Epoch) (jog : Option Jog)
deriving DecidableEq, Repr

/-- What a pad horn plays (R107). -/
inductive HornPattern where
  | silent | warning | forceRemoval
deriving DecidableEq, Repr

/-- A pad horn: its force-removal timer, and the pattern it plays since when (R107). -/
structure Horn where
  (forceTimer : Timer) (pattern : HornPattern) (since : Epoch)
deriving DecidableEq, Repr

/-- The Lockout Table block: 24 slots, the occupied slots oldest first, and per antenna the
authority record and the pad horn. -/
structure Locks where
  (slots : List (Option LockEntry)) (order : List Nat) (authority : Six Authority) (horns : Six Horn)
deriving DecidableEq, Repr

/-! ### Permit engine (R175) -/

/-- The properties a permit entry tests (R177). -/
inductive Property where
  | setMask | source | kind | antenna | windClass | iceClass | targetEl | targetAz | hour | lockCount
deriving DecidableEq, Repr

/-- The compares of a permit entry (R178). -/
inductive Compare where
  | eq | ne | ge | lt
deriving DecidableEq, Repr

/-- One permit entry with its refusal count (R175). -/
structure PermitEntry where
  (inUse : Bool) (property : Property) (compare : Compare) (value : BitVec 32) (andFlag : Bool)
  (verdict : Verdict) (refusals : Nat)
deriving DecidableEq, Repr

/-- The Permit Engine (R175): 32 entries by index, the configured default verdict, the lost set as a
rising list of indexes, and the default refusal count. -/
structure Permits where
  (entries : List PermitEntry) (default_ : Verdict) (lost : List Nat) (defaultRefusals : Nat)
deriving DecidableEq, Repr

/-! ### Wind monitor (R114) -/

/-- The health of an anemometer channel (R114). -/
inductive Health where
  | healthy | range | stuck
deriving DecidableEq, Repr

/-- An anemometer channel (R114). -/
structure Channel where
  (reading : Option Int) (health : Health) (run : Nat)
deriving DecidableEq, Repr

/-- The wind class (R114). -/
inductive WindClass where
  | calm | breezy | strong | stow
deriving DecidableEq, Repr

/-- The WIND record in force (R122); hold-down and silence timeout in seconds. -/
structure WindRecord where
  (breezy strong stow : Pair) (filter holdDown silence : Nat) (order : List Ant) (elevation : Mdeg)
deriving DecidableEq, Repr

/-- The (mean, gust) thresholds in force, and the station ice class they were lowered by (R118). -/
structure Thresholds where
  (breezy strong stow : Pair) (ice : IceClass)
deriving DecidableEq, Repr

/-- The Wind Monitor (R114). The gust and the mean are computed from the window; the WIND source is
present while the class is STOW (R121). -/
structure Wind where
  ch1 : Channel
  ch2 : Channel
  disagreeCount : Nat
  disagreeMark : Bool
  degraded : Bool
  window : List Int
  cls : WindClass
  riseBreezy : Nat
  riseStrong : Nat
  riseStow : Nat
  fall : Nat
  /-- the SAFETY source -/
  safety : Bool
  /-- the SILENCE source -/
  silence : Bool
  /-- the thresholds formed at the last sample (R118) -/
  inForce : Thresholds
  record : WindRecord
deriving DecidableEq, Repr

/-! ### Stow controller (R123, R128) -/

/-- The stow state of an antenna (R123). -/
inductive StowState where
  | unstowed | stopping | blocked | waiting | driving | pinWarming | pinInserting | stowed
  | pinFailed | driveFailed | pinWithdrawing
deriving DecidableEq, Repr

/-- The stow record of an antenna (R123). -/
structure StowRecord where
  (state : StowState) (member pinIn : Bool) (warmingTimer pinTimer warningTimer : Timer)
deriving DecidableEq, Repr

/-- One line of the wave record (R128). -/
structure WaveMember where
  (ant : Ant) (start target : Mdeg) (distance : Nat) (up : Bool) (accel : Nat)
  (vstar peak : Option Nat) (time : Nat)
deriving DecidableEq, Repr

/-- The wave in preparation (R128). -/
structure Wave where
  (members : List WaveMember) (tg0 : Nat)
deriving DecidableEq, Repr

/-- The Stow Controller. -/
structure Stow where
  (records : Six StowRecord) (wave : Option Wave)
deriving DecidableEq, Repr

/-! ### Heater controller (R139, R151, R152) -/

/-- One zone record (R139). The lockout cap is computed from the lockout table (R149). -/
structure Zone where
  rated : Nat
  frame : Nat
  mode : HeatMode
  manual : Nat
  idle : Int
  melt : Int
  band : Nat
  retain : Bool
  /-- the mode a ZONE record write carries: the last mode set other than by a restart (R155, R199) -/
  storedMode : HeatMode
  reading : Option Int
  healthy : Bool
  forced : Bool
  requested : Nat
  shedCap : Option Nat
  effective : Nat
  step : Nat
  contactor : Bool
deriving DecidableEq, Repr

/-- The ice figures of an antenna (R152, R153). -/
structure Ice where
  (tracked floor : IceClass) (wetTimer freezeTimer thawTimer : Timer)
deriving DecidableEq, Repr

/-- The last weather report (R151). -/
structure Weather where
  (temp : Int) (precip : Bool) (epoch : Epoch)
deriving DecidableEq, Repr

/-- The Heater Controller. -/
structure Heat where
  (zones : Six (Trio Zone)) (ice : Six Ice) (weather : Option Weather)
deriving DecidableEq, Repr

/-! ### Feed arbiter (R157, R162, R164) -/

/-- A standing grant in W with the hold figure it was made on (R157). -/
structure Standing where
  (watts hold : Nat)
deriving DecidableEq, Repr

/-- A group grant with the hold figures of its member axes (R157, R167). -/
structure GroupGrant where
  (watts : Nat) (holds : List (AxisId × Nat))
deriving DecidableEq, Repr

/-- A wave grant: form HOLD or STOW, W, and the antenna's hold figures (R157). -/
structure WaveGrant where
  (isHold : Bool) (watts : Nat) (holds : PerAxis Nat)
deriving DecidableEq, Repr

/-- The kind of a waiting axis need (R164). -/
inductive NeedKind where
  | hold | track | jog
deriving DecidableEq, Repr

/-- One grant queue entry (R164). -/
structure Need where
  (axis : AxisId) (kind : NeedKind) (watts : Nat) (joined : Epoch)
deriving DecidableEq, Repr

/-- The shed record (R162). `classes` is absent with no shed and no restoration; `some false` is
SURFACE, `some true` SURFACE and GEAR. -/
structure Shed where
  (active : Bool) (classes : Option Bool) (deep : Bool) (expiry half : Option Epoch)
deriving DecidableEq, Repr

/-- The Feed Arbiter (R157). The heater committed power is computed from the zones (R139). -/
structure Feed where
  limit : Nat
  base : Nat
  /-- shed period in seconds -/
  period : Nat
  allowance : Nat
  standing : Six (PerAxis Standing)
  groups : Four (Option GroupGrant)
  waves : Six (Option WaveGrant)
  queue : List Need
  shed : Shed
  cursor : Option ZoneId
  /-- the epoch of the last restoration step (R172) -/
  lastStep : Option Epoch
deriving DecidableEq, Repr

/-! ### Settings store (R199 to R203) -/

/-- The contents of the STATION record (R199). -/
structure StationRecord where
  (limit base period allowance : Nat) (default_ : Verdict)
deriving DecidableEq, Repr

/-- The contents of a ZONE record (R199). -/
structure ZoneRecord where
  (rated frame : Nat) (mode : HeatMode) (idle melt : Int) (band : Nat) (retain : Bool)
deriving DecidableEq, Repr

/-- The contents of a PERMIT record (R199). -/
structure PermitRecord where
  (inUse : Bool) (property : Property) (compare : Compare) (value : BitVec 32) (andFlag : Bool)
  (verdict : Verdict)
deriving DecidableEq, Repr

/-- A record of the Settings Store, by kind and index (R199). -/
inductive RecordId where
  | station | wind
  | axis (i : AxisId)
  | zone (z : ZoneId)
  | lockout (slot : Nat)
  | permit (index : Nat)
deriving DecidableEq, Repr

/-- The contents a write carries (R200). -/
inductive RecordValue where
  | station (r : StationRecord)
  | wind (r : WindRecord)
  | axis (i : AxisId) (r : AxisRecord)
  | zone (z : ZoneId) (r : ZoneRecord)
  | lockout (slot : Nat) (r : Option LockEntry)
  | permit (index : Nat) (r : PermitRecord)
deriving DecidableEq, Repr

/-- A record as it stands in the store: its contents, whether its CRC is good, and its persisted mark
(R199). -/
structure Stored (α : Type) where
  (contents : α) (good mark : Bool)
deriving DecidableEq, Repr

/-- The write in progress (R200): its record, the contents it carries, whether the record has changed
since it started, and when it started. -/
structure Writing where
  (record : RecordId) (value : RecordValue) (changed : Bool) (start : Epoch)
deriving DecidableEq, Repr

/-- The Settings Store (R199 to R203). -/
structure Store where
  station : Stored StationRecord
  wind : Stored WindRecord
  axes : Six (PerAxis (Stored AxisRecord))
  zones : Six (Trio (Stored ZoneRecord))
  lockouts : List (Stored (Option LockEntry))
  permits : List (Stored PermitRecord)
  /-- the write queue, oldest first, at most 32 entries -/
  queue : List RecordId
  /-- the overflow list of slots, oldest first -/
  overflow : List Nat
  writing : Option Writing
  headWait : Timer
  /-- this head wait's passing of 10 s has been reported -/
  waitReported : Bool
  /-- a head wait has passed 10 s since the queue was last empty -/
  longWait : Bool
  bad : List RecordId
  nextCreation : Nat
deriving DecidableEq, Repr

/-! ### Link front (R186) -/

/-- A received frame (R187). -/
structure Frame where
  (kind tag : Byte) (body : List Byte)
deriving DecidableEq, Repr

/-- The reply status codes (R190). -/
inductive Status where
  | ok | clamped | accepted | paused | terminated | count | crc | busy | range | lockout | permit
  | local_ | group | stowing | halted | noTime | budget | tooLong | full | notHolder | notFound
  | badState | encoder | active | wind | demand | anchor | config | badKind
deriving DecidableEq, Repr

/-- The link's own figures that open every STATUS_READ reply (R191). -/
structure LinkFigures where
  (flags : FlagWord) (enable : Bool) (sequence : Byte) (taken discarded dropped : Nat)
deriving DecidableEq, Repr

/-- One axis as STATUS_READ(ANTENNA) shows it (R29). -/
structure AxisView where
  (state : AxisState) (position velocity : Mdeg) (encA encB : Mdeg) (reportA reportB : Bool)
  (enabledA enabledB : Bool) (active : Enc) (followingError : Nat) (amplifier released : Bool)
  (setSwitch releasedSwitch : Bool) (releaseCheck : Bool) (claims : Claims)
  (stopReason : Option StopReason) (stopTarget : Option StopTarget) (cover : GrantCover)
deriving DecidableEq, Repr

/-- STATUS_READ(ANTENNA) (R29). -/
structure AntennaView where
  (bus : BusState) (reading : Nat) (enable ready configInvalid : Bool) (axes : PerAxis AxisView)
deriving DecidableEq, Repr

/-- The burst channel as STATUS_READ(TRACK) shows it (R70). -/
structure BurstView where
  (ant : Option Ant) (received staged : Nat) (firstError : Option (Nat × SegCause))
  (timeLeft : Option Int) (termination : Option (Ant × TermReason))
deriving DecidableEq, Repr

/-- A track status record as a reply carries it (R49, R68, R70). -/
structure TrackRecord where
  (run : RunState) (halted : Bool) (haltReason : Option HaltReason) (firstAbandoned : Option Epoch)
  (abandoned underruns done : Nat) (pauseReported : Bool)
deriving DecidableEq, Repr

/-- STATUS_READ(TRACK) (R70). -/
structure TrackView where
  (record : TrackRecord) (staged queued active free : Nat) (activeSegment : Option (Segment × Int))
  (firstQueued lastQueuedEnd : Option Epoch) (burst : BurstView)
deriving DecidableEq, Repr

/-- One slot of STATUS_READ(GROUP) (R90). -/
structure GroupView where
  (state : GroupState) (members : List Ant) (held : Bool) (demand : Nat)
deriving DecidableEq, Repr

/-- A lockout entry as read (R92, R209). -/
structure EntryView where
  (slot : Nat) (entry : LockEntry) (effective persisted : Bool)
deriving DecidableEq, Repr

/-- Authority, jog record and pendant silence time of an antenna (R101). -/
structure AuthorityView where
  (ant : Ant) (authority : Authority) (silence : Option Int)
deriving DecidableEq, Repr

/-- STATUS_READ(LOCKOUTS) (R101). The number of empty slots is absent from a pendant's read. -/
structure LockView where
  (entries : List EntryView) (emptySlots : Option Nat) (authorities : List AuthorityView)
deriving DecidableEq, Repr

/-- STATUS_READ(WIND) (R138). -/
structure WindView where
  (wind : Wind) (mean gust : Option Int) (thresholds : Thresholds) (active windSource : Bool) (safetySilence : Option Int)
  (stow : List (Ant × StowRecord)) (wave : Option Wave)
  (derated : List (AxisId × Nat × Nat))
deriving DecidableEq, Repr

/-- One zone of STATUS_READ(HEAT) (R156). -/
structure ZoneView where
  (id : ZoneId) (zone : Zone) (lockCap : Option Nat) (ceiling committed : Nat)
deriving DecidableEq, Repr

/-- The ice figures of an antenna in STATUS_READ(HEAT) (R156); timers as time run. -/
structure IceView where
  (ant : Ant) (cls tracked floor : IceClass) (wet freeze thaw : Option Int)
deriving DecidableEq, Repr

/-- The station's figures of STATUS_READ(HEAT) (R156). The air temperature in use is `none` where it is taken
as +10 or less. -/
structure HeatStation where
  (ice : IceClass) (age : Option Int) (tempInUse : Option Int) (precipInUse : Bool) (committed : Nat)
deriving DecidableEq, Repr

/-- STATUS_READ(HEAT) (R156). The station's figures are absent from a pendant's read. -/
structure HeatView where
  (zones : List ZoneView) (ice : List IceView) (weather : Option Weather) (station : Option HeatStation)
deriving DecidableEq, Repr

/-- STATUS_READ(BUDGET) (R174). Each queue entry stands with the time left before its timeout. -/
structure BudgetView where
  (limit base period allowance : Nat) (load : Nat) (free : Int) (reserved : Nat)
  (axes : List (AxisId × GrantCover × Standing)) (groups : Four (Option GroupGrant))
  (waves : Six (Option WaveGrant)) (committed : Nat) (queue : List (Need × Int)) (shed : Shed)
  (cursor : Option ZoneId) (needed : Bool)
deriving DecidableEq, Repr

/-- STATUS_READ(STORE) (R206). -/
structure StoreView where
  (supplyGood : Bool) (writing : Option RecordId) (queue : List RecordId) (overflow : List Nat)
  (headWait : Option Int) (bad : List RecordId) (marks : List (RecordId × Bool)) (nextCreation : Nat)
deriving DecidableEq, Repr

/-- STATUS_READ(PERMIT) (R185). -/
structure PermitView where
  (permits : Permits) (persisted : List Bool) (defaultInUse : Verdict)
deriving DecidableEq, Repr

/-- The content a STATUS_READ selects (R191). -/
inductive Content where
  | antenna (v : AntennaView)
  | track (v : TrackView)
  | group (v : Four GroupView)
  | lockouts (v : LockView)
  | wind (v : WindView)
  | heat (v : HeatView)
  | budget (v : BudgetView)
  | store (v : StoreView)
  | permit (v : PermitView)
deriving DecidableEq, Repr

/-- What a reply's body carries after its status (R190 and the owning chapters). -/
inductive ReplyBody where
  | empty
  /-- STATUS_READ: the part, the part count and the bytes of the part (R208), with the link's own figures and
  the content they were cut from (R191) -/
  | status (part count : Nat) (data : List Byte) (link : LinkFigures) (content : Content)
  /-- a part at or above the part count (R208) -/
  | partCount (part count : Nat)
  /-- GROUP_READ: part, part count and the bytes of the part (R208, R209) -/
  | bytes (part count : Nat) (data : List Byte)
  /-- the flag word before and after (R197) -/
  | words (before after : FlagWord)
  /-- NOTICE_ENABLE: the enable and the flag word (R198) -/
  | notice (enable : Bool) (word : FlagWord)
  /-- TIME_SET: the epoch before and after (R193) -/
  | epochs (before after : Epoch)
  /-- DRIVE_RESET: each axis that stays FAULTED, with its cause (R27) -/
  | faults (left : List (AxisId × FaultCause))
  /-- the AXIS figures in force (R190) -/
  | axisRecord (r : AxisRecord)
  /-- the STATION figures in force (R190) -/
  | stationRecord (r : StationRecord)
  /-- the ZONE figures in force, with the mode stored (R190, log 56) -/
  | zoneRecord (r : ZoneRecord)
  /-- the WIND figures in force (R190) -/
  | windRecord (r : WindRecord)
  /-- a refused STATION write: the load and the new limit (R159) -/
  | load (load limit : Nat)
  /-- BURST_OPEN: the free slots (R51) -/
  | free (slots : Nat)
  /-- BURST_DATA (R52) -/
  | burst (stagedNow staged received : Nat) (firstError : Option (Nat × SegCause)) (free : Nat)
  /-- BURST_CLOSE with a first error (R57) -/
  | segError (index : Nat) (cause : SegCause)
  /-- a count: segments committed, received, or antennas changed (R57, R58, R134) -/
  | count (n : Nat)
  /-- the burst was terminated (R59) -/
  | terminated (reason : TermReason)
  /-- TRACK_CLEAR: the record before the clear (R68) -/
  | track (record : TrackRecord)
  /-- a refusal that names a member and, where it is per axis, the axis (R74, R77) -/
  | member (ant : Nat) (axis : Option AxisName)
  /-- a permit refusal: the member for PLAN, the index or DEFAULT, and the LOST mark (R181, R182) -/
  | permitRefusal (member : Option Ant) (index : Option Nat) (lost : Bool)
  /-- a planned group's figures (R40) -/
  | plan (tg0 step tg demand : Nat) (members : List Member)
  /-- TOO_LONG: Tg0 and the member axis that set it (R40) -/
  | tooLong (tg0 : Nat) (axis : Option AxisId)
  /-- BUDGET at a plan: Tg0, the best demand and the potential (R40) -/
  | planBudget (tg0 best : Nat) (potential : Int)
  /-- GROUP_ARM: the start epoch and the grant (R78) -/
  | armed (start : Epoch) (grant : Nat)
  /-- BUDGET at ARM: the group demand and the room found (R161) -/
  | armBudget (demand : Nat) (room : Int)
  /-- a placement: slot, cover set, state and the mark "merged" (R94) -/
  | placed (slot : Nat) (cover : CoverSet) (effective merged : Bool)
  /-- the removed entry (R98, R99) -/
  | removed (entry : EntryView)
  /-- a JOG: phase, speed in use, commanded position and the clamp mark (R109, R190) -/
  | jog (phase : JogPhase) (speed : Nat) (position : Mdeg) (clamped : Bool)
  /-- HEAT_SET (R150) -/
  | zone (mode : HeatMode) (manual requested effective : Nat)
  /-- ICE_FLOOR (R154) -/
  | ice (tracked floor cls : IceClass)
  /-- STOW_DEMAND: the source set, WIND, SAFETY, SILENCE (R133) -/
  | sources (wind safety silence : Bool)
  /-- PERMIT_WRITE: the entry as written and the lost set (R183) -/
  | permitEntry (index : Nat) (entry : PermitEntry) (lost : List Nat)
  /-- PERMIT_WRITE(DEFAULT): the configured and the used default verdict (R184) -/
  | permitDefault (configured inUse : Verdict)
deriving DecidableEq, Repr

/-- A reply frame being sent (R188): the request's kind with the reply bit, its tag, status and body. -/
structure Reply where
  (kind tag : Byte) (status : Status) (body : ReplyBody)
deriving DecidableEq, Repr

/-- A notice frame not yet sent (R196): the sequence its tag carries and the flag word. -/
structure Notice where
  (sequence : Byte) (word : FlagWord)
deriving DecidableEq, Repr

/-- One link record (R186). -/
structure LinkRecord where
  /-- bytes received that no complete or discarded frame has used yet (R187) -/
  rx : List Byte
  waiting : Option Frame
  reply : Option Reply
  notice : Option Notice
  /-- the waiting notice was built before the outgoing reply (R196) -/
  noticeFirst : Bool
  taken : Nat
  discarded : Nat
  dropped : Nat
  enable : Bool
  sequence : Byte
  flags : FlagWord
  /-- silence timer; absent on Operations -/
  silence : Timer
deriving DecidableEq, Repr

/-- The eight link records. -/
structure Links where
  (operations safety : LinkRecord) (pendants : Six LinkRecord)
deriving DecidableEq, Repr

/-! ### The whole part -/

/-- The Station Clock (R193). -/
structure Clock where
  (epoch : Epoch) (synced : Bool)
deriving DecidableEq, Repr

/-- Where the paced steps fall (R2): an epoch at which one of each pace falls. -/
structure Pace where
  (servo wind heater : Epoch)
deriving DecidableEq, Repr

/-- The MODEL's own marks inside one event: room was freed (R165), a formation is to be tried (R128),
the change flags the event sets by name (R195), and those already set by the taking of its frame (R121). All
are clear between events. -/
structure Scratch where
  (freed form : Bool) (raised early : FlagWord)
deriving DecidableEq, Repr

/-- The state of the part. -/
structure State where
  /-- the part has power -/
  powered : Bool
  clock : Clock
  field : FieldInputs
  ants : Six Antenna
  tracks : Six Track
  burst : Burst
  groups : Four Group
  locks : Locks
  permits : Permits
  wind : Wind
  stow : Stow
  heat : Heat
  feed : Feed
  store : Store
  links : Links
  pace : Pace
  /-- the MODEL's own: how many free values have been read -/
  freeCount : Nat
  scratch : Scratch
  /-- the MODEL's own: the commands waiting, first in first out -/
  pending : List Instr
deriving DecidableEq, Repr

/-! ### Factory records (R30, R122, R139, R157, R175) -/

/-- The factory AXIS record (R30; following limit and idle time of R8). -/
def AxisRecord.factory : AxisName → AxisRecord
  | .az => ⟨3000, 2000, -270000, 270000, 400, 1200, 500, 60⟩
  | .el => ⟨1500, 1000, 2000, 90500, 300, 1600, 500, 60⟩

/-- The factory ZONE record (R139). -/
def ZoneRecord.factory : ZoneClass → ZoneRecord
  | .pin => ⟨200, 16, .auto, -50, 40, 30, false⟩
  | .gear => ⟨600, 16, .auto, -50, 40, 30, false⟩
  | .surface => ⟨3000, 16, .auto, -50, 40, 30, false⟩

/-- The factory STATION record (R157, R203). -/
def StationRecord.factory : StationRecord := ⟨30000, 1500, 40, 200, .allow⟩

/-- The factory WIND record (R118, R119, R120, R122). -/
def WindRecord.factory : WindRecord :=
  ⟨⟨60, 100⟩, ⟨120, 180⟩, ⟨180, 250⟩, 2, 1200, 30, Ant.all, 90000⟩

/-- A PERMIT record that is not in use (DESIGN CHOICE, log 3: the spec gives a factory part no permit
entries; every code is 0). -/
def PermitRecord.unused : PermitRecord := ⟨false, .setMask, .eq, 0, false, .allow⟩

/-- A store holding `v` with a good CRC and its persisted mark set. -/
def Stored.fresh {α : Type} (v : α) : Stored α := ⟨v, true, true⟩

/-- The Settings Store of a part as it leaves the factory (DESIGN CHOICE, log 3). -/
def Store.factory : Store where
  station := .fresh .factory
  wind := .fresh .factory
  axes := .const ⟨.fresh (.factory .az), .fresh (.factory .el)⟩
  zones := .const ⟨.fresh (.factory .pin), .fresh (.factory .gear), .fresh (.factory .surface)⟩
  lockouts := List.replicate 24 (.fresh none)
  permits := List.replicate 32 (.fresh .unused)
  queue := []
  overflow := []
  writing := none
  headWait := none
  waitReported := false
  longWait := false
  bad := []
  nextCreation := 0

/-! ### Power-on values -/

/-- An Axis Drive Unit at power-on (R5), at a commanded position. -/
def Axis.initial (record : AxisRecord) (position : Mdeg) : Axis where
  state := .off
  position := position
  velocity := 0
  enabledA := true
  enabledB := true
  active := .a
  amplifier := false
  released := false
  releaseCheck := none
  followingError := 0
  claims := ⟨false, false, false, false, false⟩
  stop := none
  pendingStop := none
  cover := .none
  recordWritten := false
  idleTimer := none
  disagreeTimer := none
  actedA := false
  actedB := false
  followTimer := none
  torqueTimer := none
  brakeTimer := none
  profile := none
  record := record

/-- An antenna's drive items at power-on (R5). -/
def Antenna.initial (axes : PerAxis Axis) (configInvalid : Bool) : Antenna where
  bus := .off
  enable := false
  prechargeStart := none
  inBandTimer := none
  outBandTimer := none
  outOfBand := false
  configInvalid := configInvalid
  axes := axes

/-- A segment queue at power-on (R49, R69). -/
def Track.initial : Track where
  segments := []
  run := .idle
  halted := false
  haltReason := none
  firstAbandoned := none
  abandoned := 0
  underruns := 0
  done := 0
  pauseReported := false
  raises := ⟨.none, .none⟩

/-- The burst channel at power-on (R50): closed, the running CRC at its initial value (R208). -/
def Burst.initial : Burst where
  ant := none
  tail := none
  received := 0
  crc := 0xFFFFFFFF
  staged := 0
  firstError := none
  lastFrame := none
  termination := none

/-- An EMPTY group record (R71). -/
def Group.initial : Group where
  state := .empty
  members := []
  tg0 := 0
  step := 0
  tg := 0
  demand := 0
  held := false
  start := none
  settleTimer := none
  haltReason := none
  causing := none
  completion := none

/-- An authority record at power-on (R102). -/
def Authority.initial : Authority := ⟨false, none, none⟩

/-- A pad horn at power-on (R107). -/
def Horn.initial : Horn := ⟨none, .silent, 0⟩

/-- The Permit Engine of a factory part (R175). -/
def Permits.initial : Permits :=
  ⟨List.replicate 32 ⟨false, .setMask, .eq, 0, false, .allow, 0⟩, .allow, [], 0⟩

/-- An anemometer channel at power-on (R114). -/
def Channel.initial : Channel := ⟨none, .healthy, 0⟩

/-- The Wind Monitor at power-on (R114). Until the first sample forms thresholds, the configured ones stand,
lowered by no ice (DESIGN CHOICE, log 37). -/
def Wind.initial (record : WindRecord) : Wind where
  ch1 := .initial
  ch2 := .initial
  disagreeCount := 0
  disagreeMark := false
  degraded := false
  window := []
  cls := .calm
  riseBreezy := 0
  riseStrong := 0
  riseStow := 0
  fall := 0
  safety := false
  silence := false
  inForce := ⟨record.breezy, record.strong, record.stow, .none⟩
  record := record

/-- A stow record at power-on (R123): STOWED with the pin command IN where the pin in switch is made. -/
def StowRecord.initial (pinIn : Bool) : StowRecord :=
  ⟨if pinIn then .stowed else .unstowed, false, pinIn, none, none, none⟩

/-- A zone at power-on (R139). -/
def Zone.initial (r : ZoneRecord) : Zone where
  rated := r.rated
  frame := r.frame
  mode := r.mode
  manual := 0
  idle := r.idle
  melt := r.melt
  band := r.band
  retain := r.retain
  storedMode := r.mode
  reading := none
  healthy := false
  forced := false
  requested := 0
  shedCap := none
  effective := 0
  step := r.frame - 1
  contactor := false

/-- The ice figures at power-on (R155). The cold-wet condition holds from start-up, so the wet timer
runs from epoch 0 (log 4). -/
def Ice.initial : Ice := ⟨.none, .none, some 0, none, none⟩

/-- The Feed Arbiter at power-on (R157, R173). -/
def Feed.initial (r : StationRecord) : Feed where
  limit := r.limit
  base := r.base
  period := r.period
  allowance := r.allowance
  standing := .const ⟨⟨0, 0⟩, ⟨0, 0⟩⟩
  groups := ⟨none, none, none, none⟩
  waves := .const none
  queue := []
  shed := ⟨false, none, false, none, none⟩
  cursor := none
  lastStep := none

/-- A link record at power-on (R186). -/
def LinkRecord.initial (enable : Bool) (silence : Timer) : LinkRecord where
  rx := []
  waiting := none
  reply := none
  notice := none
  noticeFirst := false
  taken := 0
  discarded := 0
  dropped := 0
  enable := enable
  sequence := 0
  flags := 0
  silence := silence

/-- The links at power-on (R186): notices off on Operations and Safety, always on for pendants, the
silence timers started. -/
def Links.initial : Links :=
  ⟨.initial false none, .initial false (some 0), .const (.initial true (some 0))⟩

/-- The field inputs of one axis at reset (DESIGN CHOICE, log 2): encoders agree at a position inside
the soft limits, brake set, nothing reported. -/
def restAxis (position : Mdeg) : AxisInputs :=
  ⟨position, position, false, false, false, false, true, false, false, false⟩

/-- The field inputs at reset (DESIGN CHOICE, log 2): a pad at rest, the pin out, the bus down, sensors
at 0.0 °C, still air and the store supply good. -/
def restInputs : FieldInputs where
  ants := .const ⟨⟨restAxis 0, restAxis 45000⟩, 0, false, true, ⟨0, 0, 0⟩⟩
  anem1 := 0
  anem2 := 0
  supplyGood := true

/-- The part right after power-on of a factory store (R204). -/
def State.reset : State where
  powered := true
  clock := ⟨0, false⟩
  field := restInputs
  ants := .const (.initial ⟨.initial (.factory .az) 0, .initial (.factory .el) 45000⟩ false)
  tracks := .const .initial
  burst := .initial
  groups := ⟨.initial, .initial, .initial, .initial⟩
  locks := ⟨List.replicate 24 none, [], .const .initial, .const .initial⟩
  permits := .initial
  wind := .initial .factory
  stow := ⟨.const (.initial false), none⟩
  heat := ⟨.const ⟨.initial (.factory .pin), .initial (.factory .gear), .initial (.factory .surface)⟩,
    .const .initial, none⟩
  feed := .initial .factory
  store := .factory
  links := .initial
  pace := ⟨0, 0, 0⟩
  freeCount := 0
  scratch := ⟨false, false, 0, 0⟩
  pending := []

end Sys2Proof.Machine
end

