-- ==== Sys2Proof/Machine/Access.lean ====
section
/-! DEFINITION. Reading and replacing one item of the state, and the views the spec computes from the
items: READY, cover, binding, ice class, the books. -/

namespace Sys2Proof.Machine

/-! ### One item -/

/-- The station clock's epoch. -/
def State.now (s : State) : Epoch := s.clock.epoch

/-- The epoch is one of a servo step (R2). -/
def State.atServo (s : State) : Bool := fallsAt s.pace.servo 10 s.now

/-- An Axis Drive Unit. -/
def State.axis (s : State) (i : AxisId) : Axis := (s.ants.get i.ant).axes.get i.ax

/-- Replace an antenna's drive items. -/
def State.setAnt (s : State) (a : Ant) (v : Antenna) : State := { s with ants := s.ants.set a v }

/-- Replace an Axis Drive Unit. -/
def State.setAxis (s : State) (i : AxisId) (x : Axis) : State :=
  s.setAnt i.ant { s.ants.get i.ant with axes := (s.ants.get i.ant).axes.set i.ax x }

/-- Change an Axis Drive Unit. -/
def State.modAxis (s : State) (i : AxisId) (f : Axis → Axis) : State := s.setAxis i (f (s.axis i))

/-- Change an antenna's drive items. -/
def State.modAnt (s : State) (a : Ant) (f : Antenna → Antenna) : State :=
  s.setAnt a (f (s.ants.get a))

/-- The field inputs of an axis. -/
def State.axisIn (s : State) (i : AxisId) : AxisInputs := (s.field.ants.get i.ant).axes.get i.ax

/-- Change the field inputs of an antenna. -/
def State.modAntIn (s : State) (a : Ant) (f : AntInputs → AntInputs) : State :=
  { s with field := { s.field with ants := s.field.ants.set a (f (s.field.ants.get a)) } }

/-- Change the field inputs of an axis. -/
def State.modAxisIn (s : State) (i : AxisId) (f : AxisInputs → AxisInputs) : State :=
  s.modAntIn i.ant fun v => { v with axes := v.axes.set i.ax (f (v.axes.get i.ax)) }

/-- A segment queue. -/
def State.track (s : State) (a : Ant) : Track := s.tracks.get a

/-- Change a segment queue. -/
def State.modTrack (s : State) (a : Ant) (f : Track → Track) : State :=
  { s with tracks := s.tracks.set a (f (s.tracks.get a)) }

/-- Change a group record. -/
def State.modGroup (s : State) (g : GroupId) (f : Group → Group) : State :=
  { s with groups := s.groups.set g (f (s.groups.get g)) }

/-- Change an authority record. -/
def State.modAuthority (s : State) (a : Ant) (f : Authority → Authority) : State :=
  { s with locks := { s.locks with authority := s.locks.authority.set a (f (s.locks.authority.get a)) } }

/-- Change a pad horn. -/
def State.modHorn (s : State) (a : Ant) (f : Horn → Horn) : State :=
  { s with locks := { s.locks with horns := s.locks.horns.set a (f (s.locks.horns.get a)) } }

/-- A stow record. -/
def State.stowOf (s : State) (a : Ant) : StowRecord := s.stow.records.get a

/-- Change a stow record. -/
def State.modStow (s : State) (a : Ant) (f : StowRecord → StowRecord) : State :=
  { s with stow := { s.stow with records := s.stow.records.set a (f (s.stow.records.get a)) } }

/-- Replace the wave in preparation. -/
def State.setWave (s : State) (w : Option Wave) : State := { s with stow := { s.stow with wave := w } }

/-- A zone record. -/
def State.zone (s : State) (z : ZoneId) : Zone := (s.heat.zones.get z.ant).get z.cls

/-- Replace a zone record. -/
def State.setZone (s : State) (z : ZoneId) (v : Zone) : State :=
  { s with heat :=
      { s.heat with zones := s.heat.zones.set z.ant ((s.heat.zones.get z.ant).set z.cls v) } }

/-- Change a zone record. -/
def State.modZone (s : State) (z : ZoneId) (f : Zone → Zone) : State := s.setZone z (f (s.zone z))

/-- The ice figures of an antenna. -/
def State.ice (s : State) (a : Ant) : Ice := s.heat.ice.get a

/-- Change the ice figures of an antenna. -/
def State.modIce (s : State) (a : Ant) (f : Ice → Ice) : State :=
  { s with heat := { s.heat with ice := s.heat.ice.set a (f (s.heat.ice.get a)) } }

/-- The standing grant of an axis. -/
def State.standing (s : State) (i : AxisId) : Standing := (s.feed.standing.get i.ant).get i.ax

/-- Replace the standing grant of an axis. -/
def State.setStanding (s : State) (i : AxisId) (g : Standing) : State :=
  { s with feed :=
      { s.feed with standing := s.feed.standing.set i.ant ((s.feed.standing.get i.ant).set i.ax g) } }

/-- Change the Feed Arbiter's items. -/
def State.modFeed (s : State) (f : Feed → Feed) : State := { s with feed := f s.feed }

/-- Change the Settings Store. -/
def State.modStore (s : State) (f : Store → Store) : State := { s with store := f s.store }

/-- A link record. -/
def Links.get (l : Links) : Link → LinkRecord
  | .operations => l.operations
  | .safety => l.safety
  | .pendant n => l.pendants.get n

/-- Replace a link record. -/
def Links.set (l : Links) (k : Link) (v : LinkRecord) : Links :=
  match k with
  | .operations => { l with operations := v }
  | .safety => { l with safety := v }
  | .pendant n => { l with pendants := l.pendants.set n v }

/-- A link record of the state. -/
def State.link (s : State) (k : Link) : LinkRecord := s.links.get k

/-- Change a link record. -/
def State.modLink (s : State) (k : Link) (f : LinkRecord → LinkRecord) : State :=
  { s with links := s.links.set k (f (s.links.get k)) }

/-- Mark that room was freed in this event (R165). -/
def State.markFreed (s : State) : State := { s with scratch := { s.scratch with freed := true } }

/-- Mark that room was freed, if it was. -/
def State.markFreedIf (s : State) (b : Bool) : State := if b then s.markFreed else s

/-- Mark that a wave formation is to be tried in this event (R128). -/
def State.markForm (s : State) : State := { s with scratch := { s.scratch with form := true } }

/-- Do something for each of a list, in order. -/
def forEach {α : Type} (xs : List α) (f : State → α → State) (s : State) : State := xs.foldl f s

/-! ### Axis states -/

/-- The axis is FAULTED. -/
def AxisState.isFaulted : AxisState → Bool
  | .faulted _ => true
  | _ => false

/-- The amplifier output of a state (R6). -/
def AxisState.amplifierOn : AxisState → Bool
  | .torqueUp => true | .holding => true | .slewing => true | .tracking => true | .jogging => true
  | .stopping => true | .braking => true | .faulted .brakeSet => true
  | _ => false

/-- The brake command of a state: RELEASED (R6). -/
def AxisState.brakeReleased : AxisState → Bool
  | .holding => true | .slewing => true | .tracking => true | .jogging => true | .stopping => true
  | _ => false

/-- The axis is SLEWING, TRACKING, JOGGING or STOPPING (R123: not at rest). -/
def AxisState.moving : AxisState → Bool
  | .slewing => true | .tracking => true | .jogging => true | .stopping => true
  | _ => false

/-- Torque is on, as listed for a grant release (R87). -/
def AxisState.torqueOn : AxisState → Bool
  | .torqueUp => true | .holding => true | .stopping => true | .braking => true
  | .faulted .brakeSet => true
  | _ => false

/-- The axis is OFF, BRAKED or FAULTED: at rest for a lockout (R96). -/
def AxisState.locked : AxisState → Bool
  | .off => true | .braked => true | .faulted _ => true
  | _ => false

/-- The axis is BRAKED, OFF, or FAULTED with a cause other than BRAKE_SET (R8, R12). -/
def AxisState.down : AxisState → Bool
  | .off => true | .braked => true | .faulted c => decide (c ≠ .brakeSet)
  | _ => false

/-- The fault cause of an axis: absent unless it is FAULTED (R5). -/
def AxisState.cause : AxisState → Option FaultCause
  | .faulted c => some c
  | _ => none

/-- The axis is HOLDING for another block: its release is confirmed (R14). -/
def Axis.ready (x : Axis) : Bool := decide (x.state = .holding) && x.releaseCheck.isNone

/-- The hold claims set holds a source. -/
def Claims.has (c : Claims) : ClaimSource → Bool
  | .operations => c.operations | .queue => c.queue | .group => c.group | .stow => c.stow
  | .jog => c.jog

/-- Put a source into the set, or take it out. -/
def Claims.put (c : Claims) (src : ClaimSource) (b : Bool) : Claims :=
  match src with
  | .operations => { c with operations := b }
  | .queue => { c with queue := b }
  | .group => { c with group := b }
  | .stow => { c with stow := b }
  | .jog => { c with jog := b }

/-- The empty set of hold claims. -/
def Claims.none : Claims := ⟨false, false, false, false, false⟩

/-- The set is not empty. -/
def Claims.any (c : Claims) : Bool := c.operations || c.queue || c.group || c.stow || c.jog

/-- The set holds a source that keeps the idle-brake timer stopped (R19). -/
def Claims.motion (c : Claims) : Bool := c.queue || c.group || c.stow || c.jog

/-- An encoder's own-fault report (R5). -/
def AxisInputs.report (io : AxisInputs) : Enc → Bool
  | .a => io.reportA
  | .b => io.reportB

/-- An encoder's standing own-fault report has been acted on (log 34). -/
def Axis.acted (x : Axis) : Enc → Bool
  | .a => x.actedA
  | .b => x.actedB

/-- Mark an encoder's own-fault report acted on. -/
def Axis.markActed (x : Axis) : Enc → Axis
  | .a => { x with actedA := true }
  | .b => { x with actedB := true }

/-- An encoder is healthy: enabled, and no own-fault report (R5). -/
def Axis.healthy (x : Axis) (io : AxisInputs) : Enc → Bool
  | .a => x.enabledA && !io.reportA
  | .b => x.enabledB && !io.reportB

/-- The active reading (R5). -/
def Axis.reading (x : Axis) (io : AxisInputs) : Mdeg :=
  match x.active with
  | .a => io.encA
  | .b => io.encB

/-- The two encoders are compared and differ by more than 50 mdeg (R20). -/
def Axis.disagree (x : Axis) (io : AxisInputs) : Bool :=
  x.healthy io .a && x.healthy io .b && decide (50 < (io.encA - io.encB).natAbs)

/-- The bus reading is in band, 950..1050 (R5). -/
def inBand (reading : Nat) : Bool := decide (950 ≤ reading) && decide (reading ≤ 1050)

/-- An axis of the antenna is FAULTED. -/
def Antenna.anyFaulted (v : Antenna) : Bool := v.axes.az.state.isFaulted || v.axes.el.state.isFaulted

/-- READY (R10). -/
def Antenna.ready (v : Antenna) : Bool :=
  decide (v.bus = .up) && !v.outOfBand && !v.anyFaulted

/-- READY of an antenna. -/
def State.ready (s : State) (a : Ant) : Bool := (s.ants.get a).ready

/-- The disable sequence is under way: the bus is UP and the enable flag clear (R12). -/
def Antenna.disabling (v : Antenna) : Bool := decide (v.bus = .up) && !v.enable

/-- Either axis of the antenna moves (R123, R130). -/
def State.moving (s : State) (a : Ant) : Bool :=
  (s.axis ⟨a, .az⟩).state.moving || (s.axis ⟨a, .el⟩).state.moving

/-! ### Lockouts (R92, R96) -/

/-- The entries of the table, slot by slot. -/
def Locks.entries (l : Locks) : List LockEntry := l.slots.filterMap id

/-- The entry's antenna is this antenna or STATION. -/
def LockEntry.reaches (e : LockEntry) (a : Ant) : Bool :=
  match e.scope with
  | none => true
  | some b => decide (b = a)

/-- The cover set holds an axis. -/
def coverHas (c : CoverSet) : AxisName → Bool
  | .az => c.az | .el => c.el

/-- The entry covers an axis (R92). -/
def LockEntry.coversAxis (e : LockEntry) (i : AxisId) : Bool := coverHas e.cover i.ax && e.reaches i.ant

/-- Some entry covers the axis. Entries are PENDING or EFFECTIVE, so any entry counts. -/
def State.axisCovered (s : State) (i : AxisId) : Bool := s.locks.entries.any fun e => e.coversAxis i

/-- Some entry covers AZ or EL of the antenna. -/
def State.covered (s : State) (a : Ant) : Bool :=
  s.axisCovered ⟨a, .az⟩ || s.axisCovered ⟨a, .el⟩

/-- Some entry covers the heater zones of the antenna. -/
def State.heatCovered (s : State) (a : Ant) : Bool :=
  s.locks.entries.any fun e => e.cover.heat && e.reaches a

/-- The axes an entry covers. -/
def LockEntry.axes (e : LockEntry) : List AxisId := AxisId.all.filter fun i => e.coversAxis i

/-- An entry is EFFECTIVE while every axis it covers is OFF, BRAKED or FAULTED (R96). -/
def State.entryEffective (s : State) (e : LockEntry) : Bool :=
  e.axes.all fun i => (s.axis i).state.locked

/-- The authority of an antenna is REMOTE. -/
def State.remote (s : State) (a : Ant) : Bool := !(s.locks.authority.get a).isLocal

/-! ### Groups (R72) -/

/-- The antennas of a group, in member order. -/
def Group.ants (g : Group) : List Ant := g.members.map Member.ant

/-- An antenna is a member of the group. -/
def Group.has (g : Group) (a : Ant) : Bool := g.ants.any fun b => decide (b = a)

/-- The group binds its members (R72). -/
def Group.binds (g : Group) : Bool :=
  match g.state with
  | .planned => true | .armed => true | .running => true
  | _ => false

/-- The group is releasing: HALTED with its grant held (R72). -/
def Group.releasing (g : Group) : Bool := decide (g.state = .halted) && g.held

/-- The group that binds an antenna (R72). -/
def State.boundGroup (s : State) (a : Ant) : Option GroupId :=
  GroupId.all.find? fun g => (s.groups.get g).binds && (s.groups.get g).has a

/-- The antenna is bound to a group. -/
def State.bound (s : State) (a : Ant) : Bool := (s.boundGroup a).isSome

/-- The antenna is a member of a releasing group (R72). -/
def State.inReleasing (s : State) (a : Ant) : Bool :=
  GroupId.all.any fun g => (s.groups.get g).releasing && (s.groups.get g).has a

/-- The member axes of a group, in member order, AZ before EL. -/
def Group.axes (g : Group) : List AxisId := g.ants.flatMap Ant.axes

/-! ### Queues (R48) -/

/-- The QUEUED and ACTIVE segments. -/
def Track.live (t : Track) : List Segment := t.segments.filter fun g => decide (g.state ≠ .staged)

/-- The STAGED segments. -/
def Track.stagedSegments (t : Track) : List Segment :=
  t.segments.filter fun g => decide (g.state = .staged)

/-- The queue is empty: no QUEUED and no ACTIVE segment (R48). -/
def Track.empty (t : Track) : Bool := t.live.isEmpty

/-- The free slots of the 64 (R48). -/
def Track.free (t : Track) : Nat := 64 - t.segments.length

/-- The end epoch of a segment (R47). -/
def Segment.finish (g : Segment) : Epoch := g.start + g.duration

/-- The start epoch of the first QUEUED or ACTIVE segment. -/
def Track.firstStart (t : Track) : Option Epoch := t.live.head?.map Segment.start

/-! ### Wind and ice -/

/-- The stow demand is active: some source is present (R121). -/
def Wind.active (w : Wind) : Bool := decide (w.cls = .stow) || w.safety || w.silence

/-- The number of steps an ice class counts for: 0, 1, 2 (R118). -/
def iceSteps : IceClass → Nat
  | .none => 0 | .light => 1 | .heavy => 2

/-- The greater of two ice classes. -/
def iceMax (x y : IceClass) : IceClass := if iceSteps x < iceSteps y then y else x

/-- The ice class of an antenna: the greater of its tracked class and its floor (R152). -/
def State.iceClass (s : State) (a : Ant) : IceClass := iceMax (s.ice a).tracked (s.ice a).floor

/-- The station ice class: the greatest of the six (R118). -/
def State.stationIce (s : State) : IceClass :=
  Ant.all.foldl (fun acc a => iceMax acc (s.iceClass a)) .none

/-- The number of a wind class (R177). -/
def WindClass.num : WindClass → Nat
  | .calm => 0 | .breezy => 1 | .strong => 2 | .stow => 3

/-- The gust: the greatest of the last three samples of the window (R117). -/
def Wind.gust (w : Wind) : Option Int :=
  match w.window.reverse with
  | [] => none
  | x :: rest => some ((rest.take 2).foldl max x)

/-- The mean of the window, rounded down (R117). -/
def Wind.mean (w : Wind) : Option Int :=
  match w.window with
  | [] => none
  | xs => some (xs.foldl (· + ·) 0 / (xs.length : Int))

/-- A configured threshold pair lowered by ice: 20 per step, kept at 50 or more (R118). -/
def lowered (ice : IceClass) (p : Pair) : Pair :=
  ⟨max 50 (p.mean - 20 * iceSteps ice), max 50 (p.gust - 20 * iceSteps ice)⟩

/-- The thresholds a record gives under a station ice class (R118). -/
def WindRecord.thresholds (r : WindRecord) (ice : IceClass) : Thresholds :=
  ⟨lowered ice r.breezy, lowered ice r.strong, lowered ice r.stow, ice⟩

/-! ### The books (R139, R157) -/

/-- The committed power of a zone at a level (R139). -/
def Zone.wattsAt (z : Zone) (level : Nat) : Nat := ceilDiv (z.rated * level) z.frame

/-- The committed power of a zone (R139). -/
def Zone.committed (z : Zone) : Nat := z.wattsAt z.effective

/-- The sum of a figure over a list. -/
def sumOf {α : Type} (xs : List α) (f : α → Nat) : Nat := xs.foldl (fun acc x => acc + f x) 0

/-- The heater committed power (R157). -/
def State.committed (s : State) : Nat := sumOf ZoneId.all fun z => (s.zone z).committed

/-- The drive grants: all standing, group and wave grants together (R157). -/
def State.driveGrants (s : State) : Nat :=
  sumOf AxisId.all (fun i => (s.standing i).watts)
  + sumOf GroupId.all (fun g => ((s.feed.groups.get g).map GroupGrant.watts).getD 0)
  + sumOf Ant.all (fun a => ((s.feed.waves.get a).map WaveGrant.watts).getD 0)

/-- The load (R157). -/
def State.load (s : State) : Nat := s.feed.base + s.driveGrants + s.committed

/-- The free room (R157). -/
def State.freeRoom (s : State) : Int := (s.feed.limit : Int) - s.load

/-- The reserved: the sum of the amounts in the grant queue (R157). -/
def State.reserved (s : State) : Nat := sumOf s.feed.queue Need.watts

/-- The lockout cap of a zone: 0 while an entry covers it (R149). -/
def State.lockCap (s : State) (z : ZoneId) : Option Nat := if s.heatCovered z.ant then some 0 else none

/-- The least of a level and a cap, if present. -/
def capped (level : Nat) (cap : Option Nat) : Nat :=
  match cap with
  | none => level
  | some c => min level c

/-- The ceiling of a zone (R139). -/
def State.ceiling (s : State) (z : ZoneId) : Nat :=
  capped (capped (s.zone z).requested (s.lockCap z)) (s.zone z).shedCap

end Sys2Proof.Machine
end

