-- ==== Sys2Proof/Machine/Flags.lean ====
section
/-! DEFINITION. Change flags (R195, R210), the events that set them by a change of state, and the
notices an event builds (R196). -/

namespace Sys2Proof.Machine

/-- The change flags of an antenna, in word order (R210). -/
inductive AntFlag where
  | axis | track | group | stow | lock | heat
deriving DecidableEq, Repr

/-- The change flags of the station, in word order (R210). -/
inductive StationFlag where
  | wind | ice | budget | store
deriving DecidableEq, Repr

/-- The place of an antenna's flag among its six bits (R210). -/
def AntFlag.place : AntFlag → Nat
  | .axis => 0 | .track => 1 | .group => 2 | .stow => 3 | .lock => 4 | .heat => 5

/-- The bit of a station flag (R210). -/
def StationFlag.bit : StationFlag → Nat
  | .wind => 36 | .ice => 37 | .budget => 38 | .store => 39

/-- The flag word with one antenna flag set: bit 6n and its place (R210). -/
def antFlag (f : AntFlag) (a : Ant) : FlagWord := BitVec.twoPow 40 (6 * a.num + f.place)

/-- The flag word with one station flag set (R210). -/
def stationFlag (f : StationFlag) : FlagWord := BitVec.twoPow 40 f.bit

/-- The flags a link carries (R195): all forty, or the six of a pendant's antenna. -/
def Link.mask : Link → FlagWord
  | .operations => 0xFFFFFFFFFF
  | .safety => 0xFFFFFFFFFF
  | .pendant n => 0x3F <<< (6 * n.num)

/-- The word where a condition holds, else the empty word. -/
def wordIf (b : Bool) (w : FlagWord) : FlagWord := if b then w else 0

/-- Mark a flag that this event sets. -/
def State.raise (s : State) (w : FlagWord) : State :=
  { s with scratch := { s.scratch with raised := s.scratch.raised ||| w } }

/-- Mark a flag that this event sets, if it does. -/
def State.raiseIf (s : State) (b : Bool) (w : FlagWord) : State := if b then s.raise w else s

/-! ### Flags an event sets by what it changed -/

/-- One axis has changed as the AXIS flag tells (R20, R23, R29): state or cause, health or enabled item of an
encoder, or the selection. -/
def axisChanged (x y : Axis) (io io' : AxisInputs) : Bool :=
  decide (x.state ≠ y.state) || decide (x.active ≠ y.active)
  || decide (x.healthy io .a ≠ y.healthy io' .a) || decide (x.healthy io .b ≠ y.healthy io' .b)
  || decide (x.enabledA ≠ y.enabledA) || decide (x.enabledB ≠ y.enabledB)

/-- The AXIS flag of an antenna (R10, R29). -/
def axisFlagSet (s t : State) (a : Ant) : Bool :=
  axisChanged (s.axis ⟨a, .az⟩) (t.axis ⟨a, .az⟩) (s.axisIn ⟨a, .az⟩) (t.axisIn ⟨a, .az⟩)
  || axisChanged (s.axis ⟨a, .el⟩) (t.axis ⟨a, .el⟩) (s.axisIn ⟨a, .el⟩) (t.axisIn ⟨a, .el⟩)
  || decide (s.ready a ≠ t.ready a) || decide ((s.ants.get a).bus ≠ (t.ants.get a).bus)

/-- The antennas an entry concerns: its own, or all six for STATION (R101). -/
def entryTouches (e : Option LockEntry) (a : Ant) : Bool :=
  match e with
  | none => false
  | some e => e.reaches a

/-- An entry's state in two tables, where it stands in both. -/
def entryStateChanged (s t : State) (e f : Option LockEntry) : Bool :=
  match e, f with
  | some e, some f => decide (s.entryEffective e ≠ t.entryEffective f)
  | _, _ => false

/-- One slot sets the LOCK flag of an antenna: its entry changed, or the entry's state did (R101). -/
def slotSetsLock (s t : State) (a : Ant) (e f : Option LockEntry) : Bool :=
  (decide (e ≠ f) || entryStateChanged s t e f) && (entryTouches e a || entryTouches f a)

/-- The LOCK flag of an antenna (R101). -/
def lockFlagSet (s t : State) (a : Ant) : Bool :=
  decide ((s.locks.authority.get a).isLocal ≠ (t.locks.authority.get a).isLocal)
  || (s.locks.slots.zip t.locks.slots).any fun p => slotSetsLock s t a p.1 p.2

/-- One slot sets the GROUP flag of an antenna (R90): a change of state, or the end of releasing.
Emptying sets it only from PLANNED or ARMED (R89). -/
def groupSets (g h : Group) (a : Ant) : Bool :=
  if g.state ≠ h.state then
    (if h.state = .empty then
      (decide (g.state = .planned) || decide (g.state = .armed)) && g.has a
    else h.has a)
  else decide (h.state = .halted) && g.held && !h.held && h.has a

/-- The GROUP flag of an antenna (R90). -/
def groupFlagSet (s t : State) (a : Ant) : Bool :=
  GroupId.all.any fun g => groupSets (s.groups.get g) (t.groups.get g) a

/-- The HEAT flag of an antenna: sensor health, or a PIN force's start or end (R156). -/
def heatFlagSet (s t : State) (a : Ant) : Bool :=
  a.zones.any fun z => decide ((s.zone z).healthy ≠ (t.zone z).healthy)
    || decide ((s.zone z).forced ≠ (t.zone z).forced)

/-- The WIND flag (R138): channel health, marks, class, or the source set. -/
def windFlagSet (w v : Wind) : Bool :=
  decide (w.ch1.health ≠ v.ch1.health) || decide (w.ch2.health ≠ v.ch2.health)
  || decide (w.disagreeMark ≠ v.disagreeMark) || decide (w.degraded ≠ v.degraded)
  || decide (w.cls ≠ v.cls) || decide (w.safety ≠ v.safety) || decide (w.silence ≠ v.silence)

/-- The ICE flag: any antenna's ice class changed (R154). -/
def iceFlagSet (s t : State) : Bool := Ant.all.any fun a => decide (s.iceClass a ≠ t.iceClass a)

/-- The flags of one antenna that an event set by what it changed. -/
def antChanges (s t : State) (a : Ant) : FlagWord :=
  wordIf (axisFlagSet s t a) (antFlag .axis a)
  ||| wordIf (groupFlagSet s t a) (antFlag .group a)
  ||| wordIf (decide ((s.stowOf a).state ≠ (t.stowOf a).state)) (antFlag .stow a)
  ||| wordIf (lockFlagSet s t a) (antFlag .lock a)
  ||| wordIf (heatFlagSet s t a) (antFlag .heat a)

/-- All flags an event set by what it changed. -/
def changesBetween (s t : State) : FlagWord :=
  Ant.all.foldl (fun w a => w ||| antChanges s t a)
    (wordIf (windFlagSet s.wind t.wind) (stationFlag .wind)
      ||| wordIf (iceFlagSet s t) (stationFlag .ice))

/-! ### Setting flags and building notices (R195, R196) -/

/-- Set flags on a link, as far as it carries them (R195). -/
def LinkRecord.setFlags (l : LinkRecord) (carried : FlagWord) (w : FlagWord) : LinkRecord :=
  { l with flags := l.flags ||| (w &&& carried) }

/-- Build one notice with the flag word as it stands; it replaces a waiting one (R196). -/
def LinkRecord.notify (l : LinkRecord) : LinkRecord :=
  { l with sequence := l.sequence + 1, notice := some ⟨l.sequence + 1, l.flags⟩
           noticeFirst := l.reply.isNone }

/-- The end of an event on one link (R195, R196): `early` flags were set as its frame was taken, `late` ones are
set now, and where one of them was clear before the event and notices are enabled, one notice is built. DESIGN
CHOICE (log 46): an event that turns the enable off builds none and leaves the sequence, also for a flag that the
taking of its frame set. -/
def LinkRecord.conclude (before l : LinkRecord) (carried early late : FlagWord) : LinkRecord :=
  let t := l.setFlags carried (late &&& ~~~early)
  if before.enable = true ∧ l.enable = true
      ∧ before.flags ||| ((early ||| late) &&& carried) ≠ before.flags then t.notify
  else t

/-- Change every link record. -/
def Links.map (f : Link → LinkRecord → LinkRecord) (l : Links) : Links :=
  ⟨f .operations l.operations, f .safety l.safety, l.pendants.map fun n => f (.pendant n)⟩

/-- Set flags on every link that carries them (R195). -/
def State.setFlags (s : State) (w : FlagWord) : State :=
  { s with links := s.links.map fun k l => l.setFlags (Link.mask k) w }

/-- The event's marks are done with. -/
def State.clearScratch (s : State) : State := { s with scratch := ⟨false, false, 0, 0⟩ }

/-- Set a flag on its links at once, before the event's other effects (R121). -/
def State.setEarly (s : State) (w : FlagWord) : State :=
  let t := s.setFlags w
  { t with scratch := { t.scratch with early := t.scratch.early ||| w } }

/-- The end of an event: set the flags it raised by name and those its changes set, build the notices
they call for, and clear the event's marks. -/
def announce (before after : State) : State :=
  let late := after.scratch.raised ||| changesBetween before after
  let links := after.links.map fun k l =>
    (before.links.get k).conclude l (Link.mask k) after.scratch.early late
  ({ after with links := links }).clearScratch

end Sys2Proof.Machine
end

