-- ==== Sys2Proof/Machine/HeatOps.lean ====
section
/-! DEFINITION. The Heater Controller's operations: requested levels (R145 to R148), lowering (R142),
the ice class and its timers (R151 to R154), and the shed floors (R149). -/

namespace Sys2Proof.Machine

/-! ### Requested levels -/

/-- The sensor reading is in range (R144). -/
def sensorGood (t : Int) : Bool := decide (-600 ≤ t) && decide (t ≤ 800)

/-- The thermostat's level (R146). -/
def thermostat (frame : Nat) (setpoint : Int) (band : Nat) (t : Int) : Nat :=
  if t ≤ setpoint - band then frame
  else if setpoint ≤ t then 0
  else ceilDiv (frame * (setpoint - t).toNat) band

/-- The level mode AUTO asks for (R146, R147). -/
def Zone.autoLevel (z : Zone) (ice : IceClass) : Nat :=
  match z.healthy, z.reading with
  | true, some t => thermostat z.frame (if ice = .none then z.idle else z.melt) z.band t
  | _, _ => if ice = .none then 0 else z.frame / 4

/-- The requested level of a zone (R145 to R148). -/
def Zone.wanted (z : Zone) (ice : IceClass) : Nat :=
  if z.forced then z.frame
  else
    match z.mode with
    | .off => 0
    | .manual => min z.manual z.frame
    | .auto => z.autoLevel ice

/-- Form a zone's requested level. -/
def State.formLevel (s : State) (z : ZoneId) : State :=
  s.modZone z fun v => { v with requested := v.wanted (s.iceClass z.ant) }

/-! ### Lowering (R142) -/

/-- A zone lowered to a level: the contactor goes off where the step index is at or above it. -/
def Zone.lowerTo (z : Zone) (c : Nat) : Zone :=
  if c < z.effective then
    { z with effective := c, contactor := z.contactor && decide (z.step < c) }
  else z

/-- Lower a zone to its ceiling; `offer` says whether freed power is a freed-room event (R165). -/
def State.lowerZone (s : State) (offer : Bool) (z : ZoneId) : State :=
  let t := s.modZone z fun v => v.lowerTo (s.ceiling z)
  t.markFreedIf (offer && decide ((t.zone z).committed < (s.zone z).committed))

/-- Form a zone's requested level and apply a fall at once (R142, R146). -/
def State.refreshZone (s : State) (z : ZoneId) : State := (s.formLevel z).lowerZone true z

/-- Refresh an antenna's three zones. -/
def State.refreshZones (s : State) (a : Ant) : State :=
  forEach a.zones (fun s z => s.refreshZone z) s

/-! ### Shed floors (R149) -/

/-- The class is shed: SURFACE always, GEAR with it, PIN never (R149, R162). -/
def classShed (gearToo : Bool) : ZoneClass → Bool
  | .pin => false
  | .gear => gearToo
  | .surface => true

/-- The shed floor of a zone (R149). PIN is not shed. -/
def State.shedFloor (s : State) (deep : Bool) (z : ZoneId) : Nat :=
  if deep then 0
  else
    match z.cls with
    | .gear => (s.zone z).frame / 4
    | .surface => if s.iceClass z.ant = .heavy then (s.zone z).frame / 4 else 0
    | .pin => 0

/-- The shed cap of a capped zone follows its floor: that of a SURFACE zone the ice class (R149). DESIGN CHOICE
(log 44): so does a cap that still stands in restoration, after the shed has expired (R172). -/
def State.followFloor (s : State) (z : ZoneId) : State :=
  if (s.zone z).shedCap.isSome then
    s.modZone z fun v => { v with shedCap := some (s.shedFloor s.feed.shed.deep z) }
  else s

/-! ### Weather and ice (R151 to R154) -/

/-- The report is stale: its age is above 120 s (R151). -/
def Weather.stale (w : Weather) (now : Epoch) : Bool := decide (120000 < now - w.epoch)

/-- The precipitation in use (R151). -/
def State.precipInUse (s : State) : Bool :=
  match s.heat.weather with
  | none => true
  | some w => w.stale s.now || w.precip

/-- The cold-wet condition (R151). -/
def State.coldWet (s : State) : Bool :=
  match s.heat.weather with
  | none => true
  | some w => decide (w.temp ≤ 10) && s.precipInUse

/-- The SURFACE zone reads 0 or below, an UNHEALTHY sensor counting so (R152). -/
def Zone.frozen (z : Zone) : Bool :=
  match z.healthy, z.reading with
  | true, some t => decide (t ≤ 0)
  | _, _ => true

/-- The SURFACE zone reads +30 or above with a HEALTHY sensor (R153). -/
def Zone.thawed (z : Zone) : Bool :=
  match z.healthy, z.reading with
  | true, some t => decide (30 ≤ t)
  | _, _ => false

/-- The wet timer's conditions (R152). -/
def State.wetHolds (s : State) (a : Ant) : Bool := decide ((s.ice a).tracked = .none) && s.coldWet

/-- The freeze timer's conditions (R152). -/
def State.freezeHolds (s : State) (a : Ant) : Bool :=
  decide ((s.ice a).tracked = .light) && s.coldWet && (s.zone ⟨a, .surface⟩).frozen

/-- The thaw timer's conditions (R153). -/
def State.thawHolds (s : State) (a : Ant) : Bool :=
  decide ((s.ice a).tracked ≠ .none) && !s.precipInUse && (s.zone ⟨a, .surface⟩).thawed

/-- Run and stop an antenna's ice timers by their conditions (R152, R153). -/
def State.runIceTimers (s : State) (a : Ant) : State :=
  s.modIce a fun i =>
    { i with wetTimer := runWhile s.now (s.wetHolds a) i.wetTimer
             freezeTimer := runWhile s.now (s.freezeHolds a) i.freezeTimer
             thawTimer := runWhile s.now (s.thawHolds a) i.thawTimer }

/-- Run and stop every antenna's ice timers. -/
def State.runAllIceTimers (s : State) : State := forEach Ant.all (fun s a => s.runIceTimers a) s

/-- What an ice class change does in its event (R154): the SURFACE floor moves and the zones' levels are
formed afresh. -/
def State.afterIceChange (s : State) (a : Ant) : State :=
  (s.followFloor ⟨a, .surface⟩).refreshZones a

/-- Give an antenna a tracked class: its timers start from zero where their conditions hold (R152,
R153). -/
def State.setTracked (s : State) (a : Ant) (c : IceClass) : State :=
  let s := s.modIce a fun i =>
    { i with tracked := c, wetTimer := none, freezeTimer := none, thawTimer := none }
  (s.runIceTimers a).afterIceChange a

/-- One class up. -/
def iceUp : IceClass → IceClass
  | .none => .light
  | _ => .heavy

/-- One class down. -/
def iceDown : IceClass → IceClass
  | .heavy => .light
  | _ => .none

/-! ### PIN force (R148) -/

/-- The Stow Controller forces a PIN zone. -/
def State.startForce (s : State) (a : Ant) : State :=
  (s.modZone ⟨a, .pin⟩ fun z => { z with forced := true }).refreshZone ⟨a, .pin⟩

/-- The Stow Controller ends the force; a fall is applied at once. -/
def State.endForce (s : State) (a : Ant) : State :=
  (s.modZone ⟨a, .pin⟩ fun z => { z with forced := false }).refreshZone ⟨a, .pin⟩

end Sys2Proof.Machine
end

