-- ==== Sys2Proof/Machine/Profiles.lean ====
section
/-! DEFINITION. The Profile Engine's arithmetic: derated limits (R31), profile times (R33 to R36),
power demands (R37), the plan and its derating (R38 to R40), and the evaluation of profiles, stops,
segments and jog ramps at an epoch (R17, R43, R44, R63, R111). -/

namespace Sys2Proof.Machine

/-! ### Derated limits (R31) -/

/-- The wind derate of speed. -/
def windDerated (cls : WindClass) (vmax : Nat) : Nat :=
  match cls with
  | .calm => vmax
  | .breezy => vmax
  | .strong => max 1 (vmax / 2)
  | .stow => max 1 (vmax / 2)

/-- The ice derate of acceleration, on EL alone. -/
def iceDerated (ax : AxisName) (ice : IceClass) (amax : Nat) : Nat :=
  match ax, ice with
  | .el, .light => max 1 (3 * amax / 4)
  | .el, .heavy => max 1 (amax / 2)
  | _, _ => amax

/-- The wind-derated V of an axis. -/
def State.limitV (s : State) (i : AxisId) : Nat := windDerated s.wind.cls (s.axis i).record.vmax

/-- The ice-derated A of an axis. -/
def State.limitA (s : State) (i : AxisId) : Nat :=
  iceDerated i.ax (s.iceClass i.ant) (s.axis i).record.amax

/-- The acceleration of a jog: the smaller of the derated A and 200 mdeg/s² (R110). -/
def State.jogA (s : State) (i : AxisId) : Nat := min (s.limitA i) 200

/-! ### One distance (R33 to R37) -/

/-- The reachable peak c(D) (R33). -/
def reach (a d : Nat) : Nat := isqrt (a * d)

/-- The peak used, w(v) = min(v, c(D)) (R33). -/
def peakAt (a d v : Nat) : Nat := min v (reach a d)

/-- The profile time T(v) in ms (R34); 0 where D is 0 (R33). -/
def profileTime (a d v : Nat) : Nat :=
  if d = 0 then 0
  else ceilDiv (1000 * (d * a + peakAt a d v * peakAt a d v)) (peakAt a d v * a)

/-- Halving of the interval 1..V: T at `hi` is no greater than the group time and T at `lo`, where
`lo` is not 0, is above it (R36). -/
def slowestSearch (time : Nat → Nat) (tg : Nat) : Nat → Nat → Nat → Nat
  | 0, _, hi => hi
  | fuel + 1, lo, hi =>
    if hi ≤ lo + 1 then hi
    else if time ((lo + hi) / 2) ≤ tg then slowestSearch time tg fuel lo ((lo + hi) / 2)
    else slowestSearch time tg fuel ((lo + hi) / 2) hi

/-- The synchronized speed v*: the smallest whole v in 1..V with T(v) no greater than Tg (R36). -/
def slowest (a d v tg : Nat) : Nat := slowestSearch (profileTime a d) tg v 0 v

/-- The power of an axis of hold figure h and coefficient k at a speed in mdeg/s (R37, R160). -/
def powerAt (hold coeff speed : Nat) : Nat := hold + ceilDiv (coeff * speed) 1000

/-- The axis has a profile to run. -/
def AxisPlan.moves (p : AxisPlan) : Bool := decide (0 < p.distance)

/-- An axis's course before a group time is known: D, sign, V, A and Tmin (R38 step 1). -/
def AxisPlan.course (start target : Mdeg) (v a hold : Nat) : AxisPlan :=
  let d := (target - start).natAbs
  { start := start, target := target, distance := d, up := decide (start < target), v := v, a := a
    tmin := if d = 0 then none else some (profileTime a d v)
    vstar := none, peak := none, time := 0, demand := hold }

/-- The figures of an axis against a group time: v*, w*, T(v*) and the demand (R36, R37). -/
def AxisPlan.against (p : AxisPlan) (record : AxisRecord) (tg : Nat) : AxisPlan :=
  if p.distance = 0 then
    { p with vstar := none, peak := none, time := 0, demand := record.hold }
  else
    let v := slowest p.a p.distance p.v tg
    { p with vstar := some v, peak := some (peakAt p.a p.distance v)
             time := profileTime p.a p.distance v
             demand := powerAt record.hold record.coeff (peakAt p.a p.distance v) }

/-! ### Group plans (R38 to R40) -/

/-- Replace both axes' plans of a member. -/
def Member.mapPlans (f : AxisId → AxisPlan → AxisPlan) (m : Member) : Member :=
  { m with plans := m.plans.map fun ax p => f ⟨m.ant, ax⟩ p }

/-- A member's demand: both its axes (R37). -/
def Member.demand (m : Member) : Nat := m.plans.az.demand + m.plans.el.demand

/-- The member axis plans in axis count order. -/
def countOrder (ms : List Member) : List (AxisId × AxisPlan) :=
  AxisId.all.filterMap fun i =>
    (ms.find? fun m => decide (m.ant = i.ant)).map fun m => (i, m.plans.get i.ax)

/-- The greatest Tmin of the moving member axes (R35). -/
def greatestTmin (ms : List Member) : Nat :=
  ms.foldl (fun acc m => max acc (max (m.plans.az.tmin.getD 0) (m.plans.el.tmin.getD 0))) 0

/-- The member axis whose Tmin set Tg0, the first in axis count order (R40). -/
def slowestAxis (ms : List Member) : Option AxisId :=
  ((countOrder ms).find? fun p => decide (p.2.tmin = some (greatestTmin ms))).map Prod.fst

/-- The group demand of member figures (R37). -/
def demandOf (ms : List Member) : Nat := sumOf ms Member.demand

/-- Every member's figures against a group time (R38 step 3). -/
def planAgainst (record : AxisId → AxisRecord) (ms : List Member) (tg : Nat) : List Member :=
  ms.map (Member.mapPlans fun i p => p.against (record i) tg)

/-- The engine's answer to a plan (R40). -/
inductive PlanOutcome where
  | success (tg0 step tg demand : Nat) (members : List Member)
  | tooLong (tg0 : Nat) (axis : Option AxisId)
  | budget (tg0 best : Nat) (potential : Int)
deriving DecidableEq, Repr

/-- The group time of derate step k (R39). -/
def stepTime (tg0 k : Nat) : Nat := roundUp100 (tg0 * (10 + k) / 10)

/-- Budget derating from step k on (R39): `best` is the demand at the last step computed. -/
def derate (record : AxisId → AxisRecord) (ms : List Member) (tg0 : Nat) (potential : Int) :
    Nat → Nat → Nat → PlanOutcome
  | 0, _, best => .budget tg0 best potential
  | fuel + 1, k, best =>
    if 600000 < stepTime tg0 k then .budget tg0 best potential
    else
      let planned := planAgainst record ms (stepTime tg0 k)
      if (demandOf planned : Int) ≤ potential then
        .success tg0 k (stepTime tg0 k) (demandOf planned) planned
      else derate record ms tg0 potential fuel (k + 1) (demandOf planned)

/-- The plan (R38): `ms` holds each member axis's course. -/
def planGroup (record : AxisId → AxisRecord) (ms : List Member) (potential : Int) : PlanOutcome :=
  let tg0 := roundUp100 (greatestTmin ms)
  let planned := planAgainst record ms tg0
  if 600000 < tg0 then .tooLong tg0 (slowestAxis ms)
  else if (demandOf planned : Int) ≤ potential then .success tg0 0 tg0 (demandOf planned) planned
  else if tg0 = 0 then .budget tg0 (demandOf planned) potential
  else derate record ms tg0 potential 30 1 (demandOf planned)

/-! ### Stow waves (R41) -/

/-- The stow target of an antenna: the stow elevation within the EL soft limits (R41). -/
def State.stowTarget (s : State) (a : Ant) : Mdeg :=
  clampSoft (s.axis ⟨a, .el⟩).record.softLow (s.axis ⟨a, .el⟩).record.softHigh s.wind.record.elevation

/-- The distance of an antenna's EL to its stow target. -/
def State.stowDistance (s : State) (a : Ant) : Nat :=
  (s.stowTarget a - (s.axis ⟨a, .el⟩).position).natAbs

/-- The stow demand of an antenna (R41). -/
def State.stowDemand (s : State) (a : Ant) : Nat :=
  let el := s.axis ⟨a, .el⟩
  let d := s.stowDistance a
  (s.axis ⟨a, .az⟩).record.hold
    + (if d = 0 then el.record.hold
       else powerAt el.record.hold el.record.coeff (peakAt (s.limitA ⟨a, .el⟩) d el.record.vmax))

/-- The wave Tg0 of a set of antennas (R35, R41: uncapped). -/
def State.waveTime (s : State) (ants : List Ant) : Nat :=
  roundUp100 (ants.foldl (fun acc a =>
    max acc (profileTime (s.limitA ⟨a, .el⟩) (s.stowDistance a) (s.axis ⟨a, .el⟩).record.vmax)) 0)

/-- One line of the wave record against the wave's Tg0 (R41, R128). -/
def State.waveLine (s : State) (tg0 : Nat) (a : Ant) : WaveMember :=
  let el := s.axis ⟨a, .el⟩
  let d := s.stowDistance a
  let accel := s.limitA ⟨a, .el⟩
  let v := slowest accel d el.record.vmax tg0
  { ant := a, start := el.position, target := s.stowTarget a, distance := d
    up := decide (el.position < s.stowTarget a), accel := accel
    vstar := if d = 0 then none else some v
    peak := if d = 0 then none else some (peakAt accel d v)
    time := profileTime accel d v }

/-- The wave record of admitted antennas (R128). -/
def State.waveOf (s : State) (ants : List Ant) : Wave :=
  ⟨ants.map (s.waveLine (s.waveTime ants)), s.waveTime ants⟩

/-! ### Evaluation at a servo step -/

/-- The distance travelled and the speed after t ms of a profile (R43, R44). -/
def trapezoid (d w a t : Nat) : Nat × Nat :=
  if 1000 * (d * a + w * w) ≤ w * a * t then (d, 0)
  else if 1000 * d < w * t then
    let q := 1000 * (d * a + w * w) - w * a * t
    (d - ceilDiv (q * q) (2000000 * (w * w) * a), q / (1000 * w))
  else if 1000 * w < a * t then ((2 * a * w * t - 1000 * (w * w)) / (2000 * a), w)
  else (a * (t * t) / 2000000, a * t / 1000)

/-- The distance of a profile record. -/
def Profile.distance (p : Profile) : Nat := (p.target - p.position).natAbs

/-- The time of a profile run to an epoch. -/
def Profile.elapsed (p : Profile) (now : Epoch) : Nat := (now - p.start).toNat

/-- The commanded position and velocity of a profile (R43, R44). -/
def Profile.eval (p : Profile) (now : Epoch) : Mdeg × Mdeg :=
  let m := trapezoid p.distance p.peak p.accel (p.elapsed now)
  (p.position + signed p.up m.1, signed p.up m.2)

/-- The profile has reached its duration (R45). -/
def Profile.over (p : Profile) (now : Epoch) : Bool := decide ((p.duration : Int) ≤ now - p.start)

/-- Ts of a controlled stop (R17). -/
def StopRecord.duration (r : StopRecord) : Nat := ceilDiv (1000 * r.velocity.natAbs) r.accel

/-- The distance and speed of a controlled stop after t ms (R17). -/
def StopRecord.motion (r : StopRecord) (t : Nat) : Nat × Nat :=
  let v := r.velocity.natAbs
  if r.duration ≤ t then (v * v / (2 * r.accel), 0)
  else ((2000 * v * t - r.accel * (t * t)) / 2000000, v - r.accel * t / 1000)

/-- The position a controlled stop gives before the soft limits (R17). -/
def StopRecord.rawPosition (r : StopRecord) (now : Epoch) : Mdeg :=
  r.position + signed (decide (0 ≤ r.velocity)) (r.motion (now - r.start).toNat).1

/-- The stop would pass a soft limit (R17). -/
def StopRecord.beyond (r : StopRecord) (record : AxisRecord) (now : Epoch) : Bool :=
  decide (r.rawPosition now < record.softLow) || decide (record.softHigh < r.rawPosition now)

/-- The commanded position and velocity of a controlled stop (R17). -/
def StopRecord.eval (r : StopRecord) (record : AxisRecord) (now : Epoch) : Mdeg × Mdeg :=
  if r.beyond record now then (clampSoft record.softLow record.softHigh (r.rawPosition now), 0)
  else (r.rawPosition now,
    signed (decide (0 ≤ r.velocity)) (r.motion (now - r.start).toNat).2)

/-- The stop has ended: at Ts, or at a soft limit (R17). -/
def StopRecord.over (r : StopRecord) (record : AxisRecord) (now : Epoch) : Bool :=
  decide (r.duration ≤ (now - r.start).toNat) || r.beyond record now

/-- Δ of an axis of a segment (R47). -/
def Segment.delta (g : Segment) (ax : AxisName) : Int := g.endPos.get ax - g.startPos.get ax

/-- The commanded position and velocity within a segment (R63); t is kept at the duration or less. -/
def Segment.eval (g : Segment) (ax : AxisName) (now : Epoch) : Mdeg × Mdeg :=
  let n := (g.delta ax).natAbs
  let t := min (now - g.start).toNat g.duration
  (g.startPos.get ax + signed (decide (0 ≤ g.delta ax)) (n * t / g.duration),
   signed (decide (0 ≤ g.delta ax)) (1000 * n / g.duration))

/-- The distance and speed of a jog ramp after t ms (R111). -/
def rampMotion (a speed t : Nat) : Nat × Nat :=
  if a * t < 1000 * speed then (a * (t * t) / 2000000, a * t / 1000)
  else ((2 * a * speed * t - 1000 * (speed * speed)) / (2000 * a), speed)

/-- The soft limit a jog runs toward. -/
def jogLimit (record : AxisRecord) : Direction → Mdeg
  | .plus => record.softHigh
  | .minus => record.softLow

/-- The soft limit a position lies beyond, if it lies beyond one. -/
def AxisRecord.limitPassed (r : AxisRecord) (p : Mdeg) : Option Mdeg :=
  if r.softHigh < p then some r.softHigh else if p < r.softLow then some r.softLow else none

/-- The commanded position, velocity and at-limit mark of a running jog (R111), from the commanded position
`here`. A position beyond a soft limit becomes that limit, and the axis then stays there; a jog that starts at
the limit in its own direction is held there from its first step. -/
def jogEval (record : AxisRecord) (dir : Direction) (speed : Nat) (r : JogRamp) (here : Mdeg)
    (now : Epoch) : Mdeg × Mdeg × Bool :=
  let m := rampMotion r.accel speed (now - r.start).toNat
  let up := decide (dir = .plus)
  let raw := r.position + signed up m.1
  if r.atLimit then (here, 0, true)
  else if r.position = jogLimit record dir then (jogLimit record dir, 0, true)
  else
    match record.limitPassed raw with
    | some l => (l, 0, true)
    | none => (raw, signed up m.2, false)

end Sys2Proof.Machine
end

