-- ==== Sys2Proof/Machine/Ops.lean ====
section
/-! DEFINITION. The Axis Drive Unit's operations: entering a state with its outputs and its draw (R6,
R160), hold claims and ENABLE (R9, R13), and stop requests (R17, R18). -/

namespace Sys2Proof.Machine

/-! ### Field-driven timers (R9, R10, R20) -/

/-- The reading is outside the band. -/
def State.offBand (s : State) (a : Ant) : Bool := !inBand (s.field.ants.get a).bus

/-- The disagreement timer of an axis (R20), and the marks of reports that no longer stand (R21). -/
def Axis.runDisagree (x : Axis) (io : AxisInputs) (now : Epoch) : Axis :=
  { x with
    disagreeTimer := runWhile now (x.disagree io) x.disagreeTimer
    actedA := x.actedA && io.reportA
    actedB := x.actedB && io.reportB }

/-- The in-band and out-of-band timers of an antenna (R9, R10). -/
def Antenna.runBand (v : Antenna) (off : Bool) (now : Epoch) : Antenna :=
  { v with
    inBandTimer :=
      runWhile now (!off && (decide (v.bus = .precharge) || v.outOfBand)) v.inBandTimer
    outBandTimer := runWhile now (off && decide (v.bus = .up)) v.outBandTimer }

/-- Run and stop the timers of an antenna that follow field inputs. -/
def State.runFieldTimers (s : State) (a : Ant) : State :=
  s.modAnt a fun v =>
    let v := v.runBand (s.offBand a) s.now
    { v with axes := v.axes.map fun ax x => x.runDisagree (s.axisIn ⟨a, ax⟩) s.now }

/-! ### Entering a state (R6, R7, R19) -/

/-- The grant cover ends on entry to the state (R6). -/
def AxisState.dropsCover : AxisState → Bool
  | .off => true | .braked => true | .faulted c => decide (c ≠ .brakeSet)
  | _ => false

/-- The following error is checked in the state (R24). -/
def AxisState.followChecked : AxisState → Bool
  | .holding => true | .slewing => true | .tracking => true | .jogging => true | .stopping => true
  | .braking => true
  | _ => false

/-- The state may still have a stop to carry out (R14, R15). -/
def AxisState.keepsPendingStop : AxisState → Bool
  | .torqueUp => true | .holding => true | .braking => true
  | _ => false

/-- Enter a state: the new row's outputs apply in the same event (R6); the idle-brake timer starts at
each entry to HOLDING unless a motion claim is held (R19); what belongs to the old state ends. DESIGN CHOICE
(log 35): a state that does not move has commanded velocity 0 from the event that enters it, not only from the
next servo step (R7); R26 does not list it. -/
def Axis.enter (x : Axis) (now : Epoch) (st : AxisState) : Axis :=
  { x with
    state := st
    amplifier := st.amplifierOn
    released := st.brakeReleased
    velocity := if st.moving then x.velocity else 0
    releaseCheck := if st = .holding then x.releaseCheck else none
    stop := if st = .stopping then x.stop else none
    profile := if st = .slewing then x.profile else none
    pendingStop := if st.keepsPendingStop then x.pendingStop else none
    cover := if st.dropsCover then .none else x.cover
    idleTimer := if st = .holding ∧ x.claims.motion = false then some now else none
    followTimer := if st.followChecked then x.followTimer else none
    torqueTimer := if st = .torqueUp then some now else none
    brakeTimer := if st = .braking then some now else none }

/-- The standing grant a state allows of one that stands (R160): only ever a fall. -/
def standingIn (st : AxisState) (g : Standing) : Standing :=
  match st with
  | .tracking => g
  | .jogging => g
  | .torqueUp => { g with watts := min g.watts g.hold }
  | .holding => { g with watts := min g.watts g.hold }
  | .slewing => { g with watts := min g.watts g.hold }
  | .stopping => { g with watts := min g.watts g.hold }
  | .braking => { g with watts := min g.watts g.hold }
  | .faulted .brakeSet => { g with watts := min g.watts g.hold }
  | _ => ⟨0, 0⟩

/-- Replace a standing grant; a fall is a freed-room event (R165). -/
def State.changeStanding (s : State) (i : AxisId) (g : Standing) : State :=
  (s.setStanding i g).markFreedIf (decide (g.watts < (s.standing i).watts))

/-- Take an axis into a state, with its outputs and its draw on the feed. -/
def State.enterAxis (s : State) (i : AxisId) (st : AxisState) : State :=
  let s := s.modAxis i fun x => x.enter s.now st
  s.changeStanding i (standingIn st (s.standing i))

/-! ### Stops (R17, R18) -/

/-- The depth of a stop target. -/
def StopTarget.depth : StopTarget → Nat
  | .holding => 0 | .braked => 1 | .off => 2

/-- The deeper of two stop targets (R18). -/
def deeper (x y : StopTarget) : StopTarget := if x.depth < y.depth then y else x

/-- Drop every hold claim of an axis. -/
def State.clearClaims (s : State) (i : AxisId) : State :=
  s.modAxis i fun x =>
    { x with
      claims := .none
      idleTimer :=
        if x.state = .holding ∧ x.claims.motion = true then some s.now else x.idleTimer }

/-- Keep a stop for the end of a handover, or deepen the one kept (R14, R15). -/
def Axis.holdStop (x : Axis) (reason : StopReason) (target : StopTarget) : Axis :=
  { x with pendingStop :=
      match x.pendingStop with
      | none => some ⟨some reason, target⟩
      | some p => some { p with target := deeper p.target target } }

/-- Go down to the brake: BRAKING with a stop target (R15). -/
def State.goBraking (s : State) (i : AxisId) (p : PendingStop) : State :=
  (s.enterAxis i .braking).modAxis i fun x => { x with pendingStop := some p }

/-- A stop has ended: its target decides the next state (R17). -/
def State.endStop (s : State) (i : AxisId) (reason : StopReason) (target : StopTarget) : State :=
  match target with
  | .holding => s.enterAxis i .holding
  | t => s.goBraking i ⟨some reason, t⟩

/-- Start a controlled stop (R17). A stop from velocity 0 ends at its start epoch. -/
def State.startStop (s : State) (i : AxisId) (reason : StopReason) (target : StopTarget) : State :=
  let x := s.axis i
  let r : StopRecord := ⟨reason, target, s.limitA i, x.velocity, x.position, s.now⟩
  let s := (s.modAxis i fun x => { x with stop := some r }).enterAxis i .stopping
  if x.velocity = 0 then s.endStop i reason target else s

/-- What a stop request does by the axis's state (R18). -/
def State.takeStop (s : State) (i : AxisId) (reason : StopReason) (target : StopTarget) : State :=
  match (s.axis i).state with
  | .off => s
  | .precharge => s
  | .braked => s
  | .faulted _ => s
  | .torqueUp =>
    if target = .holding then s else s.modAxis i fun x => x.holdStop reason target
  | .holding =>
    if target = .holding then s
    else if (s.axis i).releaseCheck.isSome then s.modAxis i fun x => x.holdStop reason target
    else s.goBraking i ⟨some reason, target⟩
  | .slewing => s.startStop i reason target
  | .tracking => s.startStop i reason target
  | .jogging => s.startStop i reason target
  | .stopping =>
    s.modAxis i fun x =>
      { x with stop := x.stop.map fun r => { r with target := deeper r.target target } }
  | .braking => s.modAxis i fun x => x.holdStop reason target

/-- A stop request; a target deeper than HOLDING clears every hold claim of the axis (R18). -/
def State.stopAxis (s : State) (i : AxisId) (reason : StopReason) (target : StopTarget) : State :=
  (if target = .holding then s else s.clearClaims i).takeStop i reason target

/-- A stop request to both axes of an antenna. -/
def State.stopBoth (s : State) (a : Ant) (reason : StopReason) (target : StopTarget) : State :=
  forEach a.axes (fun s i => s.stopAxis i reason target) s

/-! ### ENABLE and the bus (R9, R12) -/

/-- An ENABLE (R9): the enable flag, and precharge where the bus is OFF. -/
def State.enableBus (s : State) (a : Ant) : State :=
  let s := s.modAnt a fun v => { v with enable := true }
  if (s.ants.get a).bus = .off then
    let s := s.modAnt a fun v => { v with bus := .precharge, prechargeStart := some s.now }
    (forEach a.axes (fun s i =>
      if (s.axis i).state = .off then s.enterAxis i .precharge else s) s).runFieldTimers a
  else s

/-- The bus goes OFF with nothing timed on it (R9, R12). DESIGN CHOICE (log 52): the precharge start epoch becomes
absent here, and the out-of-band mark and timer are cleared. -/
def Antenna.busOff (v : Antenna) : Antenna :=
  { v with bus := .off, enable := false, prechargeStart := none, inBandTimer := none
           outBandTimer := none, outOfBand := false }

/-! ### Hold claims (R13) -/

/-- The axis may take a claim: it is not FAULTED (R13). -/
def State.takesClaim (s : State) (i : AxisId) : Bool := !(s.axis i).state.isFaulted

/-- Add a claim; on a HOLDING axis the idle-brake timer restarts, or stops for a motion claim (R19). -/
def Axis.addClaim (x : Axis) (now : Epoch) (src : ClaimSource) : Axis :=
  let c := x.claims.put src true
  { x with
    claims := c
    idleTimer :=
      if x.state = .holding then (if c.motion = true then none else some now) else x.idleTimer }

/-- Drop a claim; when the last motion claim leaves a HOLDING axis, the timer starts afresh (R19). -/
def Axis.dropClaim (x : Axis) (now : Epoch) (src : ClaimSource) : Axis :=
  let c := x.claims.put src false
  { x with
    claims := c
    idleTimer :=
      if x.state = .holding ∧ x.claims.motion = true ∧ c.motion = false then some now
      else x.idleTimer }

/-- A claim added by a source; every source but QUEUE is also an ENABLE (R9, R13). A FAULTED axis takes
none. -/
def State.addClaim (s : State) (i : AxisId) (src : ClaimSource) : State :=
  if s.takesClaim i then
    let s := s.modAxis i fun x => x.addClaim s.now src
    if src = .queue then s else s.enableBus i.ant
  else s

/-- A claim dropped by its source. -/
def State.dropClaim (s : State) (i : AxisId) (src : ClaimSource) : State :=
  s.modAxis i fun x => x.dropClaim s.now src

/-- A claim dropped from both axes of an antenna. -/
def State.dropClaims (s : State) (a : Ant) (src : ClaimSource) : State :=
  forEach a.axes (fun s i => s.dropClaim i src) s

end Sys2Proof.Machine
end

