-- ==== Sys2Proof/Machine/FeedOps.lean ====
section
/-! DEFINITION. The Feed Arbiter's operations: room and shed (R161 to R163), the grant queue (R164 to
R166), grants and their release (R160, R167, R168). -/

namespace Sys2Proof.Machine

/-! ### Shed (R162, R163) -/

/-- The zones a shed of SURFACE, or of SURFACE and GEAR, covers. -/
def shedZones (gearToo : Bool) : List ZoneId := ZoneId.all.filter fun z => classShed gearToo z.cls

/-- What a shed frees of one zone at a depth (R162). -/
def State.zoneFrees (s : State) (deep : Bool) (z : ZoneId) : Nat :=
  (s.zone z).committed - (s.zone z).wattsAt (min (s.zone z).effective (s.shedFloor deep z))

/-- What shedding SURFACE, or SURFACE and GEAR, would free at a depth (R162). -/
def State.shedFrees (s : State) (gearToo deep : Bool) : Nat :=
  sumOf (shedZones gearToo) (s.zoneFrees deep)

/-- Cap a zone at its floor and lower it at once. -/
def State.capZone (s : State) (offer deep : Bool) (z : ZoneId) : State :=
  (s.modZone z fun v => { v with shedCap := some (s.shedFloor deep z) }).lowerZone offer z

/-- The shed record after an imposition (R162). -/
def Shed.imposed (r : Shed) (gearToo deep : Bool) (now : Epoch) (period : Nat) : Shed :=
  { active := true, classes := some (r.classes.getD false || gearToo), deep := r.deep || deep
    expiry := some (now + period * 1000), half := some (now + period * 500) }

/-- The imposition activates, widens or deepens the shed, and so sets BUDGET (R162). -/
def Shed.widens (r t : Shed) : Bool :=
  !r.active || decide (r.classes ≠ t.classes) || decide (r.deep ≠ t.deep)

/-- Impose a shed (R162). `offer` says whether its lowerings are freed-room events of their own. -/
def State.imposeShed (s : State) (offer gearToo deep : Bool) : State :=
  let r := s.feed.shed.imposed gearToo deep s.now s.feed.period
  let t := s.modFeed fun f => { f with shed := r, cursor := none, lastStep := none }
  (forEach (shedZones (r.classes.getD false)) (fun s z => s.capZone offer r.deep z) t).raiseIf
    (s.feed.shed.widens r) (stationFlag .budget)

/-- A zone of the record's classes. -/
def Shed.covers (r : Shed) (z : ZoneId) : Bool :=
  match r.classes with
  | none => false
  | some gearToo => classShed gearToo z.cls

/-- The power of a zone counted by the need test (R163). -/
def State.ownPower (s : State) (z : ZoneId) : Nat :=
  if s.feed.shed.covers z then (s.zone z).wattsAt (capped (s.zone z).requested (s.lockCap z))
  else (s.zone z).committed

/-- The need test (R163). -/
def State.shedNeeded (s : State) : Bool :=
  decide (s.feed.limit < s.feed.base + s.driveGrants + sumOf ZoneId.all s.ownPower)

/-- After a grant made at step 1 the need test may re-impose the shed (R163). -/
def State.needTest (s : State) : State :=
  match s.feed.shed.classes with
  | none => s
  | some gearToo => if s.shedNeeded then s.imposeShed true gearToo s.feed.shed.deep else s

/-! ### Admission (R161) -/

/-- How a drive request fits: at step 1, 2 or 3, or short. -/
inductive Fit where
  | direct | surface | both | short
deriving DecidableEq, Repr

/-- Decide a drive request by admission (R161). -/
def State.fit (s : State) (amount folded : Nat) (deep : Bool) : Fit :=
  if (amount : Int) ≤ s.freeRoom + folded then .direct
  else if (amount : Int) ≤ s.freeRoom + folded + s.shedFrees false deep then .surface
  else if (amount : Int) ≤ s.freeRoom + folded + s.shedFrees true deep then .both
  else .short

/-- Make the shed an admission needs, before its grant is entered (R161). -/
def State.makeRoom (s : State) (f : Fit) (deep : Bool) : State :=
  match f with
  | .surface => s.imposeShed false false deep
  | .both => s.imposeShed false true deep
  | _ => s

/-- What follows a grant in its event: the need test after step 1, and one offer of what a shed, or the grants
that ended with it, left (R161, R163, R165). -/
def State.afterGrant (s : State) (f : Fit) (ended : Nat) : State :=
  match f with
  | .direct => s.needTest.markFreedIf (decide (0 < ended))
  | _ => s.markFreed

/-! ### Converting a grant to standing grants (R87, R168) -/

/-- The torque is on for a release (R87). -/
def Axis.convertible (x : Axis) (cover : GrantCover) : Bool :=
  decide (x.cover = cover) && x.state.torqueOn

/-- A member axis takes a standing grant of the recorded hold figure at a release (R87, R168). -/
def State.convertAxis (s : State) (cover : GrantCover) (i : AxisId) (hold : Nat) : State :=
  if (s.axis i).convertible cover then
    (s.setStanding i ⟨hold, hold⟩).modAxis i fun x => { x with cover := .standing }
  else s

/-- What each of a list takes of an amount, in its order: its figure, or what is left (R158, log 32). -/
def shares {α : Type} : Nat → List (α × Nat) → List (α × Nat)
  | _, [] => []
  | left, (i, h) :: rest => (i, min h left) :: shares (left - min h left) rest

/-- The hold figure a group grant records for an axis (R157). -/
def GroupGrant.hold (v : GroupGrant) (i : AxisId) : Nat :=
  ((v.holds.find? fun p => decide (p.1 = i)).map Prod.snd).getD 0

/-- A group grant without what it holds for an axis. -/
def GroupGrant.without (v : GroupGrant) (i : AxisId) : GroupGrant :=
  ⟨v.watts - min (v.hold i) v.watts, v.holds.filter fun p => decide (p.1 ≠ i)⟩

/-- A wave grant without what it holds for an axis. -/
def WaveGrant.without (v : WaveGrant) (ax : AxisName) : WaveGrant :=
  { v with watts := v.watts - min (v.holds.get ax) v.watts, holds := v.holds.set ax 0 }

/-- An axis that holds under a group or wave grant takes its share of it as its own standing grant, before a
raise is added to it (R111, R160; DESIGN CHOICE, log 33): the rest of the grant stays. -/
def State.ownGrant (s : State) (i : AxisId) : State :=
  match (s.axis i).cover with
  | .group g =>
    match s.feed.groups.get g with
    | none => s
    | some v =>
      if (s.axis i).convertible (.group g) then
        (s.convertAxis (.group g) i (min (v.hold i) v.watts)).modFeed fun f =>
          { f with groups := f.groups.set g (some (v.without i)) }
      else s
  | .wave =>
    match s.feed.waves.get i.ant with
    | none => s
    | some v =>
      if (s.axis i).convertible .wave then
        (s.convertAxis .wave i (min (v.holds.get i.ax) v.watts)).modFeed fun f =>
          { f with waves := f.waves.set i.ant (some (v.without i.ax)) }
      else s
  | _ => s

/-! ### Standing grants and raises (R160) -/

/-- The tracking figure of an axis (R160). -/
def State.trackingFigure (s : State) (i : AxisId) : Nat :=
  powerAt (s.axis i).record.hold (s.axis i).record.coeff s.feed.allowance

/-- The jog figure of an axis (R160). -/
def State.jogFigure (s : State) (i : AxisId) : Nat :=
  powerAt (s.axis i).record.hold (s.axis i).record.coeff 500

/-- A raise falls back to the hold figure it was made on (R160). -/
def State.fallToHold (s : State) (i : AxisId) : State :=
  s.changeStanding i (standingIn .holding (s.standing i))

/-- The jog record names the axis. -/
def Authority.jogs (v : Authority) (ax : AxisName) : Bool :=
  match v.jog with
  | none => false
  | some j => decide (j.axis = ax)

/-- Change the jog record of an antenna. -/
def State.modJog (s : State) (a : Ant) (f : Jog → Jog) : State :=
  s.modAuthority a fun v => { v with jog := v.jog.map f }

/-- A granted jog raise starts the jog: the axis enters JOGGING with its ramp (R110). An axis that is not
ready is not taken (R16), and the raise falls back. -/
def State.startJog (s : State) (i : AxisId) : State :=
  if (s.axis i).ready && s.ready i.ant && (s.locks.authority.get i.ant).jogs i.ax then
    let r : JogRamp := ⟨s.now, (s.axis i).position, s.jogA i, false⟩
    (s.enterAxis i .jogging).modJog i.ant fun j => { j with phase := .running, ramp := some r }
  else s.fallToHold i

/-- A granted tracking raise is noted for the run that asked (R61). -/
def State.noteRaise (s : State) (i : AxisId) (r : RaiseState) : State :=
  s.modTrack i.ant fun t => { t with raises := t.raises.set i.ax r }

/-- Add a granted raise to the axis's standing grant (R160). -/
def State.addStanding (s : State) (i : AxisId) (watts : Nat) : State :=
  s.setStanding i { s.standing i with watts := (s.standing i).watts + watts }

/-- Enter the grant of an axis need (R160, R165). A raise stands on the axis's own standing grant. -/
def State.grantNeed (s : State) (n : Need) : State :=
  match n.kind with
  | .hold =>
    ((s.setStanding n.axis ⟨n.watts, n.watts⟩).modAxis n.axis fun x =>
      { x with cover := .standing }).enterAxis n.axis .torqueUp
  | .track => ((s.ownGrant n.axis).addStanding n.axis n.watts).noteRaise n.axis .granted
  | .jog => ((s.ownGrant n.axis).addStanding n.axis n.watts).startJog n.axis

/-! ### The grant queue (R164 to R166) -/

/-- An axis's entry is taken off the queue. -/
def State.withdraw (s : State) (i : AxisId) : State :=
  s.modFeed fun f => { f with queue := f.queue.filter fun n => decide (n.axis ≠ i) }

/-- An axis has an entry. -/
def State.waits (s : State) (i : AxisId) : Bool := s.feed.queue.any fun n => decide (n.axis = i)

/-- A jog of the axis can no longer go on for want of power (R110). -/
def State.failJogBudget (s : State) (i : AxisId) : State :=
  if (s.locks.authority.get i.ant).jogs i.ax then
    s.modJog i.ant fun j => { j with failure := some (j.failure.getD .budget) }
  else s

/-- The effects of a timeout, or of a drop at a full queue, on the entry's axis (R13, R164, R166). The loss of
its claims sets AXIS (R29). -/
def State.needLost (s : State) (n : Need) : State :=
  match n.kind with
  | .hold =>
    (((((s.dropClaim n.axis .operations).dropClaim n.axis .queue).dropClaim n.axis .jog).failJogBudget
      n.axis).raise (antFlag .axis n.axis.ant)).raise (stationFlag .budget)
  | .track => (s.noteRaise n.axis .none).raise (stationFlag .budget)
  | .jog =>
    (((s.dropClaim n.axis .jog).failJogBudget n.axis).raise (antFlag .axis n.axis.ant)).raise
      (stationFlag .budget)

/-- Grant a need that fits, with the shed it takes (R161). -/
def State.admitNeed (s : State) (n : Need) (f : Fit) : State :=
  ((s.makeRoom f false).grantNeed n).afterGrant f 0

/-- A need that did not fit joins the queue's tail; at 16 entries it is dropped (R164). -/
def State.joinQueue (s : State) (n : Need) : State :=
  if s.feed.queue.length < 16 then s.modFeed fun f => { f with queue := f.queue ++ [n] }
  else s.needLost n

/-- An axis need is asked: tried at once only while the queue is empty (R161). -/
def State.askNeed (s : State) (i : AxisId) (kind : NeedKind) (watts : Nat) : State :=
  let n : Need := ⟨i, kind, watts, s.now⟩
  if s.feed.queue.isEmpty ∧ s.fit watts 0 false ≠ .short then s.admitNeed n (s.fit watts 0 false)
  else s.joinQueue n

/-- Offer room to the queue: heads are granted until one is short (R165). -/
def State.offerQueue (s : State) : Nat → State
  | 0 => s
  | fuel + 1 =>
    match s.feed.queue with
    | [] => s
    | n :: rest =>
      if s.fit n.watts 0 false = .short then s
      else
        State.offerQueue
          ((s.modFeed fun f => { f with queue := rest }).admitNeed n (s.fit n.watts 0 false)) fuel

/-- A case of R166 takes the entry off the queue: no claims left, a fault, READY false for a HOLD entry,
or HOLDING left for a raise. -/
def State.needVoid (s : State) (n : Need) : Bool :=
  let x := s.axis n.axis
  !x.claims.any || x.state.isFaulted
  || (match n.kind with
      | .hold => !s.ready n.axis.ant
      | .track => decide (x.state ≠ .holding)
      | .jog => decide (x.state ≠ .holding))

/-- A withdrawn tracking raise is no longer asked. -/
def State.forgetRaise (s : State) (n : Need) : State :=
  if n.kind = .track then s.noteRaise n.axis .none else s

/-- Withdraw every entry a case of R166 voids. -/
def State.withdrawVoid (s : State) : State :=
  let t := s.modFeed fun f => { f with queue := f.queue.filter fun n => !s.needVoid n }
  forEach (s.feed.queue.filter s.needVoid) (fun t n => t.forgetRaise n) t

/-! ### Group and wave grants (R167, R168) -/

/-- The standing grant of an axis as folded room: it counts with cover STANDING (R161). -/
def State.foldable (s : State) (i : AxisId) : Nat :=
  if (s.axis i).cover = .standing then (s.standing i).watts else 0

/-- Fold an axis: its standing grant ends, its entry is withdrawn, and with torque on it takes the
cover (R78, R167). -/
def State.foldAxis (s : State) (cover : GrantCover) (i : AxisId) : State :=
  let s := (s.setStanding i ⟨0, 0⟩).withdraw i
  if (s.axis i).state.amplifierOn then s.modAxis i fun x => { x with cover := cover } else s

/-- Convert a grant (R87, R168): each axis in turn whose torque is on under the cover takes its recorded hold
figure, and together they take no more than the grant held (R158, log 32). -/
def State.convertGrant (s : State) (cover : GrantCover) (watts : Nat) (holds : List (AxisId × Nat)) :
    State :=
  forEach (shares watts (holds.filter fun p => (s.axis p.1).convertible cover))
    (fun s p => s.convertAxis cover p.1 p.2) s

/-- Release a group grant: convert it and free the rest (R87, R168). -/
def State.releaseGroupGrant (s : State) (g : GroupId) : State :=
  match s.feed.groups.get g with
  | none => s
  | some grant =>
    ((s.convertGrant (.group g) grant.watts grant.holds).modFeed fun f =>
      { f with groups := f.groups.set g none }).markFreed

/-- Release a wave grant: convert it and free the rest (R130, R168). -/
def State.releaseWaveGrant (s : State) (a : Ant) : State :=
  match s.feed.waves.get a with
  | none => s
  | some grant =>
    ((s.convertGrant .wave grant.watts [(⟨a, .az⟩, grant.holds.az), (⟨a, .el⟩, grant.holds.el)]).modFeed
      fun f => { f with waves := f.waves.set a none }).markFreed

/-- Arrival lowers a wave grant to the hold grant (R130, R167). -/
def State.lowerWaveGrant (s : State) (a : Ant) : State :=
  match s.feed.waves.get a with
  | none => s
  | some grant =>
    let lowered :=
      { grant with isHold := true, watts := min grant.watts (grant.holds.az + grant.holds.el) }
    (s.modFeed fun f => { f with waves := f.waves.set a (some lowered) }).markFreed

/-- The amount a group ARM can reach: Rm and what step 3 would free (R161). -/
def State.roomFound (s : State) (folded : Nat) : Int :=
  s.freeRoom + folded + s.shedFrees true false

/-- The potential given to a plan over proposed member axes (R169). -/
def State.potential (s : State) (axes : List AxisId) : Int := s.roomFound (sumOf axes s.foldable)

/-- Enter a group grant (R78, R167). -/
def State.grantGroup (s : State) (g : GroupId) (demand : Nat) (axes : List AxisId) : State :=
  let holds := axes.map fun i => (i, (s.axis i).record.hold)
  (forEach axes (fun s i => s.foldAxis (.group g) i) s).modFeed fun f =>
    { f with groups := f.groups.set g (some ⟨demand, holds⟩) }

/-- What an earlier wave grant of the antenna holds, if one still stands. -/
def State.earlierWave (s : State) (a : Ant) : Nat := ((s.feed.waves.get a).map WaveGrant.watts).getD 0

/-- Enter a wave grant in form STOW (R167). DESIGN CHOICE (log 42): an earlier wave grant that the antenna still
holds counts in the load while the demand is decided; this grant then takes its place, and none of it is
converted. -/
def State.grantWave (s : State) (a : Ant) (demand : Nat) : State :=
  let holds : PerAxis Nat := ⟨(s.axis ⟨a, .az⟩).record.hold, (s.axis ⟨a, .el⟩).record.hold⟩
  (forEach a.axes (fun s i => s.foldAxis .wave i) s).modFeed fun f =>
    { f with waves := f.waves.set a (some ⟨false, demand, holds⟩) }

end Sys2Proof.Machine
end

