-- ==== Sys2Proof/Machine/GroupOps.lean ====
section
/-! DEFINITION. The Group Table's operations: readiness and the start checks (R42, R79, R80), halts (R76,
R85, R86), release (R87) and emptying (R89). -/

namespace Sys2Proof.Machine

/-- A member axis is ready: HOLDING with its release confirmed, READY true (R79). -/
def State.axisReady (s : State) (i : AxisId) : Bool := (s.axis i).ready && s.ready i.ant

/-- A planned move passes the last two checks of R42 against the AXIS record in force. -/
def AxisRecord.passes (r : AxisRecord) (target : Mdeg) (peak accel : Nat) : Bool :=
  decide (r.softLow ≤ target) && decide (target ≤ r.softHigh) && decide (peak ≤ r.vmax)
    && decide (accel ≤ r.amax)

/-- A member axis passes R42, or has no distance to go. -/
def State.planPasses (s : State) (i : AxisId) (p : AxisPlan) : Bool :=
  !p.moves || (s.axis i).record.passes p.target (p.peak.getD 0) p.a

/-- The member axes of a group with their plans, in member order, AZ before EL. -/
def Group.plans (g : Group) : List (AxisId × AxisPlan) :=
  g.members.flatMap fun m => [(⟨m.ant, .az⟩, m.plans.az), (⟨m.ant, .el⟩, m.plans.el)]

/-- Every member axis can start (R80). -/
def State.groupCanStart (s : State) (g : Group) : Bool :=
  g.plans.all fun p => s.axisReady p.1 && s.planPasses p.1 p.2

/-- The first member axis, in member order, that is not ready or fails R42 (R81). -/
def State.firstNotReady (s : State) (g : Group) : Option AxisId :=
  (g.plans.find? fun p => !(s.axisReady p.1 && s.planPasses p.1 p.2)).map Prod.fst

/-- The active profile record of a planned axis (R42). -/
def AxisPlan.profile (p : AxisPlan) (start : Epoch) : Profile :=
  ⟨start, p.start, p.target, p.peak.getD 0, p.a, p.up, p.time⟩

/-- Begin a profile: its record is written and the axis enters SLEWING (R42). -/
def State.beginProfile (s : State) (i : AxisId) (p : Profile) : State :=
  (s.modAxis i fun x => { x with profile := some p }).enterAxis i .slewing

/-- An axis is within its settle window, HOLDING within 20 mdeg of its target (R83). -/
def State.axisSettled (s : State) (i : AxisId) (p : AxisPlan) : Bool :=
  decide ((s.axis i).state = .holding)
    && decide (((s.axis i).reading (s.axisIn i) - p.target).natAbs ≤ 20)

/-- The settle condition of a group (R83). -/
def State.groupSettled (s : State) (g : Group) : Bool :=
  g.plans.all fun p => s.axisSettled p.1 p.2

/-- The first member antenna with an axis outside its settle window or not HOLDING (R84). -/
def State.firstUnsettled (s : State) (g : Group) : Option Ant :=
  (g.plans.find? fun p => !s.axisSettled p.1 p.2).map fun p => p.1.ant

/-- Release a group's grant and drop its GROUP claims (R81, R83, R85 to R87). -/
def State.releaseGroup (s : State) (g : GroupId) : State :=
  let axes := (s.groups.get g).axes
  let t := (s.releaseGroupGrant g).modGroup g fun r => { r with held := false }
  forEach axes (fun s i => s.dropClaim i .group) t

/-- A group record that halts (R76, R85, R86). -/
def Group.halt (g : Group) (now : Epoch) (r : GroupHalt) (causing : Option (Ant × Option AxisName)) :
    Group :=
  { g with state := .halted, haltReason := some r, causing := causing, completion := some now
           settleTimer := none }

/-- Halt a group by its state: PLANNED holds nothing (R76), ARMED releases at once (R86), RUNNING stops
its member axes and is releasing (R85). A group that is not bound takes no halt (R88). -/
def State.haltGroup (s : State) (g : GroupId) (r : GroupHalt)
    (causing : Option (Ant × Option AxisName)) : State :=
  let t := s.modGroup g fun v => v.halt s.now r causing
  match (s.groups.get g).state with
  | .planned => t
  | .armed => t.releaseGroup g
  | .running =>
    forEach (s.groups.get g).axes (fun s i => s.stopAxis i .group .holding) t
  | _ => s

/-- Halt the group that binds an antenna, if there is one. -/
def State.haltGroupOf (s : State) (a : Ant) (r : GroupHalt) (ax : Option AxisName) : State :=
  match s.boundGroup a with
  | none => s
  | some g => s.haltGroup g r (some (a, ax))

/-- Empty a slot: every field at its power-on value (R89). -/
def State.emptyGroup (s : State) (g : GroupId) : State := s.modGroup g fun _ => Group.initial

/-- No member axis is SLEWING or STOPPING (R85). -/
def State.groupStill (s : State) (g : Group) : Bool :=
  g.axes.all fun i =>
    decide ((s.axis i).state ≠ .slewing) && decide ((s.axis i).state ≠ .stopping)

/-- A releasing group whose members are still is released (R85). -/
def State.releaseIfStill (s : State) (g : GroupId) : State :=
  if (s.groups.get g).releasing && s.groupStill (s.groups.get g) then s.releaseGroup g else s

end Sys2Proof.Machine
end

