-- ==== Sys2Proof/Machine/LocalOps.lean ====
section
/-! DEFINITION. Local control's operations: ending a jog (R112), giving up authority (R105, R106), and the
pad horn (R107). -/

namespace Sys2Proof.Machine

/-! ### The pad horn (R107) -/

/-- The pattern a horn plays: WARNING over FORCE_REMOVAL over silence (R107). -/
def hornPattern (warning force : Timer) : HornPattern :=
  if warning.isSome then .warning else if force.isSome then .forceRemoval else .silent

/-- A horn switches to a pattern, which begins at its start of cycle. -/
def Horn.play (h : Horn) (p : HornPattern) (now : Epoch) : Horn :=
  if h.pattern = p then h else { h with pattern := p, since := now }

/-- Drive an antenna's horn from its two timers. -/
def State.refreshHorn (s : State) (a : Ant) : State :=
  s.modHorn a fun h => h.play (hornPattern (s.stowOf a).warningTimer h.forceTimer) s.now

/-- Set an antenna's warning timer (R106, R128). -/
def State.setWarning (s : State) (a : Ant) (t : Timer) : State :=
  (s.modStow a fun r => { r with warningTimer := t }).refreshHorn a

/-- Start or restart a horn's force-removal timer (R99). -/
def State.startForceTimer (s : State) (a : Ant) : State :=
  (s.modHorn a fun h => { h with forceTimer := some s.now }).refreshHorn a

/-- Whether the horn sounds t ms into a pattern (R107): 1 s on and 1 s off; three 200 ms blasts with
200 ms gaps and then 800 ms quiet. -/
def hornSounds (p : HornPattern) (t : Nat) : Bool :=
  match p with
  | .silent => false
  | .warning => decide (t % 2000 < 1000)
  | .forceRemoval =>
    decide (t % 1800 < 200) || (decide (400 ≤ t % 1800) && decide (t % 1800 < 600))
      || (decide (800 ≤ t % 1800) && decide (t % 1800 < 1000))

/-- The pad horn output of an antenna (R107). -/
def State.hornOutput (s : State) (a : Ant) : Bool :=
  let h := s.locks.horns.get a
  hornSounds h.pattern (s.now - h.since).toNat

/-! ### Jogs (R112) -/

/-- The jog of an antenna, if there is one. -/
def State.jog (s : State) (a : Ant) : Option Jog := (s.locks.authority.get a).jog

/-- A jog's claim is dropped and its pending raise withdrawn; a raise granted to an axis that stays
HOLDING falls back (R112, R160). -/
def State.leaveJog (s : State) (i : AxisId) : State :=
  let t := (s.dropClaim i .jog).modFeed fun f =>
    { f with queue := f.queue.filter fun n => !(decide (n.axis = i) && decide (n.kind = .jog)) }
  if (t.axis i).state = .holding then t.fallToHold i else t

/-- A jog ends: the record is cleared, its claim dropped, and a JOGGING axis takes the stop the cause
gives, if it gives one here (R112). -/
def State.endJog (s : State) (a : Ant) (stop : Option (StopReason × StopTarget)) : State :=
  match s.jog a with
  | none => s
  | some j =>
    let i : AxisId := ⟨a, j.axis⟩
    let t := (s.modAuthority a fun v => { v with jog := none }).leaveJog i
    match stop with
    | none => t
    | some (r, d) => if (t.axis i).state = .jogging then t.stopAxis i r d else t

/-- A fault of either axis ends the jog, whose record is kept with failure FAULTED (R110, R112). -/
def State.failJogFault (s : State) (a : Ant) : State :=
  match s.jog a with
  | none => s
  | some j => (s.modJog a fun j => { j with failure := some .faulted }).leaveJog ⟨a, j.axis⟩

/-! ### Authority (R105, R106) -/

/-- The authority becomes REMOTE. -/
def State.toRemote (s : State) (a : Ant) : State :=
  s.modAuthority a fun v => { v with isLocal := false, claimed := none }

/-- Local control ends: the authority is REMOTE and a jog ends with JOG_END (R105). -/
def State.endLocal (s : State) (a : Ant) : State :=
  (s.toRemote a).endJog a (some (.jogEnd, .holding))

/-- A stow takes local control away, and the pad is warned (R106). A stow demand on a LOCAL antenna matches two
rows of R112; DESIGN CHOICE (log 39): a JOGGING axis takes the Stow Controller's own stop alone, no JOG_END. -/
def State.giveUpLocal (s : State) (a : Ant) : State :=
  if (s.locks.authority.get a).isLocal then
    ((s.toRemote a).endJog a none).setWarning a (some s.now)
  else s.endJog a none

end Sys2Proof.Machine
end

