-- ==== Sys2Proof/Machine/QueueOps.lean ====
section
/-! DEFINITION. The Segment Queues' operations: the burst channel (R50, R57 to R59), preparing and
entering a run (R60, R61), completing segments (R62 to R65) and halts (R66). -/

namespace Sys2Proof.Machine

/-! ### Slots (R56) -/

/-- Slots were freed: at 24 or more the pause report is cleared and TRACK is set (R56). -/
def State.slotsFreed (s : State) (a : Ant) : State :=
  if (s.track a).pauseReported = true ∧ 24 ≤ (s.track a).free then
    (s.modTrack a fun t => { t with pauseReported := false }).raise (antFlag .track a)
  else s

/-- Discard the STAGED segments of a queue. -/
def State.discardStaged (s : State) (a : Ant) : State :=
  (s.modTrack a fun t =>
    { t with segments := t.segments.filter fun g => decide (g.state ≠ .staged) }).slotsFreed a

/-! ### The burst channel (R50, R59) -/

/-- The channel closes: no antenna, no chain tail, no staged count and no inactivity timing. R57 says that the
staged count is reset; DESIGN CHOICE (log 36): so it is at BURST_ABORT (R58) and at a termination (R59), and the
received count, the running CRC and the first error stand until the next BURST_OPEN. -/
def Burst.closed (b : Burst) : Burst :=
  { b with ant := none, tail := none, staged := 0, lastFrame := none }

/-- Close the channel, discarding what is STAGED. -/
def State.discardBurst (s : State) (a : Ant) : State :=
  ({ s with burst := s.burst.closed }).discardStaged a

/-- Terminate an open burst of the antenna (R59); TRACK is set but for RESTART. -/
def State.terminateBurst (s : State) (a : Ant) (r : TermReason) : State :=
  if s.burst.ant = some a then
    let t := s.discardBurst a
    ({ t with burst := { t.burst with termination := some (a, r) } }).raiseIf
      (decide (r ≠ TermReason.restart)) (antFlag .track a)
  else s

/-- The termination reason of a queue halt (R59). -/
def HaltReason.termination : HaltReason → TermReason
  | .fault _ _ => .fault | .lockout => .lockout | .stow => .stow | .local_ => .local_
  | .allStop => .allStop | .late => .halted | .capture => .halted | .config => .halted

/-! ### Leaving a run -/

/-- The raise requests of a run end: a waiting one is withdrawn, a granted one returns to h (R61). -/
def State.dropRaise (s : State) (i : AxisId) : State :=
  let t := s.modFeed fun f =>
    { f with queue := f.queue.filter fun n => !(decide (n.axis = i) && decide (n.kind = .track)) }
  let t := t.noteRaise i .none
  if (t.axis i).state = .holding then t.fallToHold i else t

/-- A TRACKING axis takes a TRACK stop (R66, R68). -/
def State.stopTracking (s : State) (i : AxisId) : State :=
  if (s.axis i).state = .tracking then s.stopAxis i .track .holding else s

/-- The queue lets go of both axes: its claims and raises end, and TRACKING axes stop (R66, R68). -/
def State.releaseRun (s : State) (a : Ant) : State :=
  forEach a.axes (fun s i => ((s.dropClaim i .queue).dropRaise i).stopTracking i) s

/-- The record of a halted queue (R66). -/
def Track.halt (t : Track) (r : HaltReason) : Track :=
  { t with
    segments := t.stagedSegments
    run := .idle
    halted := true
    haltReason := some r
    firstAbandoned := t.firstStart
    abandoned := satAdd countTop t.abandoned t.live.length }

/-- Halt a queue that holds QUEUED or ACTIVE segments (R66). -/
def State.haltQueue (s : State) (a : Ant) (r : HaltReason) : State :=
  if (s.track a).empty then s
  else
    (((((s.modTrack a fun t => t.halt r).releaseRun a).terminateBurst a r.termination).slotsFreed a)).raise
      (antFlag .track a)

/-! ### Preparing and checking (R57, R60 to R63) -/

/-- The first FAULTED axis of an antenna with its cause. -/
def State.faultedAxis (s : State) (a : Ant) : Option (AxisName × FaultCause) :=
  match (s.axis ⟨a, .az⟩).state.cause with
  | some c => some (.az, c)
  | none => (s.axis ⟨a, .el⟩).state.cause.map fun c => (.el, c)

/-- A queue goes PREPARING: it adds QUEUE to both axes, or halts where one is FAULTED (R60). -/
def State.prepareQueue (s : State) (a : Ant) : State :=
  let t := s.modTrack a fun t => { t with run := .preparing }
  match s.faultedAxis a with
  | some (ax, c) => t.haltQueue a (.fault ax c)
  | none => forEach a.axes (fun s i => s.addClaim i .queue) t

/-- A queue goes STARTING (R61). -/
def State.startingQueue (s : State) (a : Ant) : State :=
  s.modTrack a fun t => { t with run := .starting }

/-- What follows a commit on an IDLE queue: by the first start epoch it is WAITING, or PREPARING at
once, then STARTING, and LATE where S + 100 has passed (R57, R61). -/
def State.beginQueue (s : State) (a : Ant) (first : Epoch) : State :=
  if s.now + 2000 < first then s.modTrack a fun t => { t with run := .waiting }
  else
    let t := s.prepareQueue a
    if (t.track a).run = .preparing ∧ first ≤ s.now then
      let t := t.startingQueue a
      if first + 100 < s.now then t.haltQueue a .late else t
    else t

/-- A segment passes the activation check (R62). -/
def State.activates (s : State) (a : Ant) (g : Segment) : Bool :=
  a.axes.all fun i =>
    let r := (s.axis i).record
    decide (r.softLow ≤ g.endPos.get i.ax) && decide (g.endPos.get i.ax ≤ r.softHigh)
      && decide ((g.delta i.ax).natAbs * 1000 ≤ r.vmax * g.duration)

/-- The capture check (R61). -/
def State.captures (s : State) (a : Ant) (g : Segment) : Bool :=
  a.axes.all fun i => decide (((s.axis i).position - g.startPos.get i.ax).natAbs ≤ 200)

/-- Both axes are HOLDING with the release confirmed and READY is true (R61). -/
def State.bothReady (s : State) (a : Ant) : Bool :=
  (s.axis ⟨a, .az⟩).ready && (s.axis ⟨a, .el⟩).ready && s.ready a

/-- An axis follows the ACTIVE segment (R63). -/
def State.followSegment (s : State) (g : Segment) (i : AxisId) : State :=
  if (s.axis i).state = .tracking then
    s.modAxis i fun x =>
      { x with position := (g.eval i.ax s.now).1, velocity := (g.eval i.ax s.now).2 }
  else s

/-- Both axes follow the ACTIVE segment of their queue, if there is one (R63). -/
def State.interpolate (s : State) (a : Ant) : State :=
  match (s.track a).segments with
  | [] => s
  | g :: _ => if g.state = .active then forEach a.axes (fun s i => s.followSegment g i) s else s

/-- The head segment becomes ACTIVE. -/
def Track.activateHead (t : Track) : Track :=
  match t.segments with
  | [] => t
  | g :: rest => { t with segments := { g with state := .active } :: rest }

/-! ### Completing segments (R63 to R65) -/

/-- Set an axis on a segment's end. -/
def State.landOn (s : State) (g : Segment) (velocity : AxisName → Mdeg) (i : AxisId) : State :=
  s.modAxis i fun x => { x with position := g.endPos.get i.ax, velocity := velocity i.ax }

/-- The run ends at LAST (R64): both axes go HOLDING on the end and the queue lets them go. -/
def State.endRun (s : State) (a : Ant) (g : Segment) : State :=
  let t := s.modTrack a fun t => { t with run := .idle }
  (forEach a.axes (fun s i =>
    if (s.axis i).state = .tracking then
      ((s.landOn g (fun _ => 0) i).enterAxis i .holding).dropClaim i .queue
    else s.dropClaim i .queue) t).raise (antFlag .track a)

/-- The run underruns (R65): each axis stops from the segment's end at its velocity. -/
def State.underrun (s : State) (a : Ant) (g : Segment) : State :=
  let t := s.modTrack a fun t =>
    { t with run := .idle, underruns := satAdd countTop t.underruns 1 }
  let speed := fun ax => (g.eval ax g.finish).2
  (forEach a.axes (fun s i =>
    if (s.axis i).state = .tracking then
      ((s.landOn g speed i).dropClaim i .queue).stopAxis i .underrun .holding
    else s.dropClaim i .queue) t).raise (antFlag .track a)

/-- Take the completed head off the queue and count it (R63). -/
def State.popSegment (s : State) (a : Ant) : State :=
  (s.modTrack a fun t =>
    { t with segments := t.segments.tail, done := satAdd countTop t.done 1 }).slotsFreed a

/-- The head is ACTIVE and its end epoch has come (R63). -/
def State.segmentDue (s : State) (a : Ant) : Option Segment :=
  match (s.track a).segments with
  | [] => none
  | g :: _ => if g.state = .active ∧ g.finish ≤ s.now then some g else none

/-- What follows a completed segment: the run's end, the next segment, or an underrun (R63). -/
def State.afterSegment (s : State) (a : Ant) (g : Segment) : State :=
  if g.last then s.endRun a g
  else
    match (s.track a).live with
    | [] => s.underrun a g
    | n :: _ =>
      if s.activates a n then s.modTrack a Track.activateHead else s.haltQueue a .config

/-- Complete segments while the ACTIVE one's end has come (R63). -/
def State.completeSegments (s : State) (a : Ant) : Nat → State
  | 0 => s
  | fuel + 1 =>
    match s.segmentDue a with
    | none => s
    | some g => State.completeSegments ((s.popSegment a).afterSegment a g) a fuel

/-! ### Entering a run (R61) -/

/-- Both raises are granted: the run starts (R61). Segments that a late start has passed complete at the same
servo step, and the axes join the one that stands (R63). -/
def State.enterRun (s : State) (a : Ant) : State :=
  let t := forEach a.axes (fun s i => s.enterAxis i .tracking) s
  let t := t.modTrack a fun q => { q.activateHead with run := .running, raises := ⟨.none, .none⟩ }
  ((t.completeSegments a 65).interpolate a).raise (antFlag .track a)

/-- Both raises of a run are granted. -/
def Track.raised (t : Track) : Bool :=
  decide (t.raises.az = .granted) && decide (t.raises.el = .granted)

end Sys2Proof.Machine
end

