-- ==== Sys2Proof/Machine/StowOps.lean ====
section
/-! DEFINITION. The Stow Controller's operations: put-down (R123), taking (R124), at rest (R125), cover
(R126), faults (R127), waves (R128, R129), grants (R130), arrival (R131) and the pin (R132, R135). -/

namespace Sys2Proof.Machine

/-- Put a stow record into a state. -/
def State.setStow (s : State) (a : Ant) (st : StowState) : State :=
  s.modStow a fun r => { r with state := st }

/-- Put an antenna down: STOW stops to BRAKED on both axes (R123). -/
def State.putDown (s : State) (a : Ant) : State := s.stopBoth a .stow .braked

/-- BLOCKED stops on both axes (R125, R126). -/
def State.blockedStops (s : State) (a : Ant) : State := s.stopBoth a .blocked .braked

/-- Go BLOCKED: both axes are given BLOCKED stops (R125, R126). -/
def State.goBlocked (s : State) (a : Ant) : State := (s.setStow a .blocked).blockedStops a

/-- Go WAITING, and try a formation (R125, R128). -/
def State.goWaiting (s : State) (a : Ant) : State := (s.setStow a .waiting).markForm

/-- Either axis of the antenna is FAULTED. -/
def State.anyFaulted (s : State) (a : Ant) : Bool := (s.ants.get a).anyFaulted

/-! ### The pin (R131, R132, R135) -/

/-- The pin is in: STOWED and put down (R132). -/
def State.goStowed (s : State) (a : Ant) : State :=
  (s.modStow a fun r => { r with state := .stowed, pinTimer := none }).putDown a

/-- Enter PIN_INSERTING (R132): where the in switch is already made, STOWED in the same event. -/
def State.goInserting (s : State) (a : Ant) : State :=
  let t := s.modStow a fun r =>
    { r with state := .pinInserting, pinIn := true, pinTimer := some s.now, warmingTimer := none }
  if (s.field.ants.get a).pinIn then t.goStowed a else t

/-- The pin could not be warmed or inserted: PIN_FAILED and put down (R131, R132). DESIGN CHOICE (log 55): the warming
timer and the pin timer stop at these timeouts too, where R131 and R132 name the Warm end and the made switch alone. -/
def State.goPinFailed (s : State) (a : Ant) : State :=
  (s.modStow a fun r =>
    { r with state := .pinFailed, pinTimer := none, warmingTimer := none }).putDown a

/-- Enter PIN_WARMING with the PIN zone forced (R131). -/
def State.goWarming (s : State) (a : Ant) : State :=
  (s.modStow a fun r =>
    { r with state := .pinWarming, warmingTimer := some s.now }).startForce a

/-- Enter PIN_WITHDRAWING (R135): where the out switch is already made, UNSTOWED in the same event. -/
def State.goWithdrawing (s : State) (a : Ant) : State :=
  if (s.field.ants.get a).pinOut then
    s.modStow a fun r => { r with state := .unstowed, pinIn := false, pinTimer := none }
  else
    s.modStow a fun r =>
      { r with state := .pinWithdrawing, pinIn := false, pinTimer := some s.now }

/-- The PIN zone reads healthy and at or above a temperature (R131). -/
def Zone.readsAtLeast (z : Zone) (t : Int) : Bool :=
  match z.healthy, z.reading with
  | true, some x => decide (t ≤ x)
  | _, _ => false

/-- A member arrives (R131): its grant lowers to the hold grant, and the pin is inserted or warmed. -/
def State.arrive (s : State) (a : Ant) : State :=
  let t := s.lowerWaveGrant a
  if (t.zone ⟨a, .pin⟩).readsAtLeast 0 then t.goInserting a else t.goWarming a

/-- The warm reading ends the warming (R131). -/
def State.warmed (s : State) (a : Ant) : State :=
  if (s.stowOf a).state = .pinWarming ∧ (s.zone ⟨a, .pin⟩).readsAtLeast 20 = true then
    (s.endForce a).goInserting a
  else s

/-! ### Waves (R128, R129) -/

/-- A member leaves the wave in preparation; the last one clears it and a formation is tried (R129). -/
def State.leaveWave (s : State) (a : Ant) : State :=
  let t := s.modStow a fun r => { r with member := false }
  match s.stow.wave with
  | none => t
  | some w =>
    let rest := w.members.filter fun m => decide (m.ant ≠ a)
    if rest.isEmpty then (t.setWave none).markForm else t.setWave (some { w with members := rest })

/-- Admit an antenna to a wave (R128): its grant, its mark, its warning and its STOW claims. The folded grants and
an earlier wave grant end with it, and what they leave is offered (R165). -/
def State.admitToWave (s : State) (a : Ant) (f : Fit) : State :=
  let ended := (s.foldable ⟨a, .az⟩) + (s.foldable ⟨a, .el⟩) + s.earlierWave a
  let t := ((s.makeRoom f true).grantWave a (s.stowDemand a)).afterGrant f ended
  let t := t.modStow a fun r => { r with member := true }
  let t := if (t.stowOf a).warningTimer.isSome then t else t.setWarning a (some s.now)
  forEach a.axes (fun s i => s.addClaim i .stow) t

/-- The antenna waits for a wave and is in none. -/
def State.waitsForWave (s : State) (a : Ant) : Bool :=
  decide ((s.stowOf a).state = .waiting) && !(s.stowOf a).member

/-- How an antenna's stow demand fits (R128, R161). -/
def State.stowFit (s : State) (a : Ant) : Fit :=
  s.fit (s.stowDemand a) ((s.foldable ⟨a, .az⟩) + (s.foldable ⟨a, .el⟩)) true

/-- Walk the stow order, admitting until the first refusal (R128). Answers the admitted, in order. -/
def State.walkWave (s : State) : List Ant → List Ant × State
  | [] => ([], s)
  | a :: rest =>
    if !s.waitsForWave a then s.walkWave rest
    else if s.stowFit a = .short then ([], s)
    else
      let r := (s.admitToWave a (s.stowFit a)).walkWave rest
      (a :: r.1, r.2)

/-- A formation is tried while no wave is held (R128). -/
def State.formWave (s : State) : State :=
  if s.stow.wave.isSome then s
  else
    let r := s.walkWave s.wind.record.order
    if r.1.isEmpty then r.2 else r.2.setWave (some (r.2.waveOf r.1))

/-- Every member of the wave is ready to start: axes, READY and warning timer (R129). -/
def State.memberReady (s : State) (a : Ant) : Bool :=
  s.bothReady a && (s.stowOf a).warningTimer.isNone

/-- A member's EL passes R42, or has no distance to go (R129). -/
def State.linePasses (s : State) (m : WaveMember) : Bool :=
  decide (m.distance = 0)
    || (s.axis ⟨m.ant, .el⟩).record.passes m.target (m.peak.getD 0) m.accel

/-- The active profile record of a wave member's EL (R42). -/
def WaveMember.profile (m : WaveMember) (start : Epoch) : Profile :=
  ⟨start, m.start, m.target, m.peak.getD 0, m.accel, m.up, m.time⟩

/-- A member starts (R129): DRIVING on its EL profile, or arrived where EL has no distance to go. -/
def State.startMember (s : State) (m : WaveMember) : State :=
  let t := s.modStow m.ant fun r => { r with state := .driving, member := false }
  if m.distance = 0 then t.arrive m.ant
  else t.beginProfile ⟨m.ant, .el⟩ (m.profile s.now)

/-- A member that fails R42 goes back to WAITING as a non-member (R129). -/
def State.sendBack (s : State) (a : Ant) : State := (s.leaveWave a).dropClaims a .stow

/-- The wave starts, or sends back the members whose EL fails R42 (R129). -/
def State.startWave (s : State) (w : Wave) : State :=
  let failing := w.members.filter fun m => !s.linePasses m
  if failing.isEmpty then
    (forEach w.members (fun s m => s.startMember m) (s.setWave none)).markForm
  else forEach failing (fun s m => s.sendBack m.ant) s

/-- The axes hold no STOW claim and neither is SLEWING or STOPPING (R130). -/
def State.waveGrantOver (s : State) (a : Ant) : Bool :=
  a.axes.all fun i =>
    !(s.axis i).claims.stow && decide ((s.axis i).state ≠ .slewing)
      && decide ((s.axis i).state ≠ .stopping)

/-- Release a wave grant that is over (R130). -/
def State.releaseIfOver (s : State) (a : Ant) : State :=
  if (s.feed.waves.get a).isSome && s.waveGrantOver a then s.releaseWaveGrant a else s

/-! ### At rest, cover and faults (R125 to R127) -/

/-- A STOPPING antenna at rest is decided: BLOCKED, DRIVE_FAILED or WAITING (R125). -/
def State.stowAtRest (s : State) (a : Ant) : State :=
  if (s.stowOf a).state = .stopping ∧ s.moving a = false then
    if s.covered a then s.goBlocked a
    else if s.anyFaulted a then s.setStow a .driveFailed
    else s.goWaiting a
  else s

/-- New cover on AZ or EL of an antenna reaches the Stow Controller (R126). -/
def State.stowCovered (s : State) (a : Ant) : State :=
  match (s.stowOf a).state with
  | .waiting => (if (s.stowOf a).member then s.leaveWave a else s).goBlocked a
  | .driving => s.goBlocked a
  | .pinWarming => s.blockedStops a
  | .pinInserting => s.blockedStops a
  | _ => s

/-- A BLOCKED antenna that no entry covers any more, while the demand is active (R124, R125). -/
def State.unblock (s : State) (a : Ant) : State :=
  if (s.stowOf a).state = .blocked ∧ s.covered a = false then
    if s.anyFaulted a then s.setStow a .driveFailed else s.goWaiting a
  else s

/-- The Stow Controller is told of a removal (R98, R125). -/
def State.coverRemoved (s : State) (a : Ant) : State :=
  if s.wind.active then s.unblock a else s

/-- A fault handed on from an axis reaches the Stow Controller (R127). -/
def State.stowFaulted (s : State) (a : Ant) : State :=
  match (s.stowOf a).state with
  | .stopping => s.setStow a .driveFailed
  | .waiting =>
    ((if (s.stowOf a).member then s.leaveWave a else s).setStow a .driveFailed).dropClaims a .stow
  | .driving => (s.setStow a .driveFailed).dropClaims a .stow
  | .pinWarming => s.putDown a
  | .pinInserting => s.putDown a
  | _ => s

/-- A DRIVE_FAILED antenna with neither axis FAULTED, while the demand is active (R124, R127). -/
def State.redrive (s : State) (a : Ant) : State :=
  if (s.stowOf a).state = .driveFailed ∧ s.anyFaulted a = false then
    if s.covered a then s.goBlocked a else s.goWaiting a
  else s

/-! ### Taking (R124, R135) -/

/-- Take an UNSTOWED antenna: halts, terminations, authority and stops in one event (R124). -/
def State.takeAntenna (s : State) (a : Ant) : State :=
  let t := (s.setStow a .stopping).haltGroupOf a .stow none
  let t := (t.haltQueue a .stow).terminateBurst a .stow
  let t := t.giveUpLocal a
  if t.covered a then t.stopBoth a .blocked .braked else t.stopBoth a .stow .holding

/-- The demand has become active: act on an antenna by its stow state (R124). -/
def State.takeByState (s : State) (a : Ant) : State :=
  match (s.stowOf a).state with
  | .unstowed => s.takeAntenna a
  | .pinWithdrawing => s.goInserting a
  | .blocked => s.unblock a
  | .driveFailed => s.redrive a
  | _ => s

/-- The demand has become active (R124): every antenna is acted on and a formation follows. -/
def State.takeAll (s : State) : State := (forEach Ant.all (fun s a => s.takeByState a) s).markForm

/-- Change the Wind Monitor's items; where the demand becomes active, the antennas are taken (R121). -/
def State.changeWind (s : State) (f : Wind → Wind) : State :=
  let t := { s with wind := f s.wind }
  if s.wind.active = false ∧ t.wind.active = true then t.takeAll else t

end Sys2Proof.Machine
end

