-- ==== Sys2Proof/Machine/FaultOps.lean ====
section
/-! DEFINITION. The fault stop and its handing on (R25, R26). -/

namespace Sys2Proof.Machine

/-- A detection of a cause takes the axis: it is not FAULTED, or it is FAULTED(BRAKE_SET) and the cause is
one that removes its torque (R25). -/
def faultTakes (st : AxisState) (c : FaultCause) : Bool :=
  match st with
  | .faulted .brakeSet => decide (c = .amplifier) || decide (c = .precharge)
  | .faulted _ => false
  | _ => true

/-- The fault stop on the faulted axis itself (R26): claims, stop record, release check and profile end,
and the state's outputs apply. -/
def State.faultStop (s : State) (i : AxisId) (c : FaultCause) : State :=
  (s.clearClaims i).enterAxis i (.faulted c)

/-- Hand a fault on (R26): the other axis's FAULT stop, the queue, the burst, the group, the jog and the
Stow Controller. -/
def State.handOnFault (s : State) (i : AxisId) (c : FaultCause) : State :=
  let t := s.stopAxis i.other .fault .holding
  let t := (t.haltQueue i.ant (.fault i.ax c)).terminateBurst i.ant .fault
  let t := t.haltGroupOf i.ant (.fault c) (some i.ax)
  (t.failJogFault i.ant).stowFaulted i.ant

/-- A fault is detected on an axis (R25, R26). -/
def State.faultAxis (s : State) (i : AxisId) (c : FaultCause) : State :=
  if faultTakes (s.axis i).state c then (s.faultStop i c).handOnFault i c else s

end Sys2Proof.Machine
end

