-- ==== Sys2Proof/Config.lean ====
section
/-! DEFINITION. What an implementation fixes and the spec does not state. Every constant here is a
FREE VALUE: it has no body, so nothing can be proved of it. -/

namespace Sys2Proof

/-- The nine STATUS_READ selectors (R191). -/
inductive Selector where
  | antenna | track | group | lockouts | wind | heat | budget | store | permit
deriving DecidableEq, Repr

/-- The four record kinds CONFIG_WRITE names (R189). -/
inductive ConfigKind where
  | axis | station | zone | wind
deriving DecidableEq, Repr

/-- FREE VALUE (log 5): the bytes of the selected content of a STATUS_READ beyond those whose layout R208 and
R209 give. The first argument is the selector's place in R191's table, the second the model's free-value
counter. -/
opaque Config.statusRestBytes : Nat → Nat → List Byte

/-- FREE VALUE (log 17): the bytes of what a reply carries beyond the fields whose layout R207 to R210 give. -/
opaque Config.unstatedBytes {α : Type} : α → List Byte

/-- FREE VALUE (log 6): whether a body length fits the layout of a kind whose request layout the
spec does not give (R189, check 2). Arguments: the kind's code and the body length. -/
opaque Config.bodyFits : Nat → Nat → Bool

/-- FREE VALUE (log 6): the selector a STATUS_READ selector byte names, if any. The spec names the
selectors and gives no codes. -/
opaque Config.selectorOf : Byte → Option Selector

/-- FREE VALUE (log 6): the record kind a CONFIG_WRITE body names, if any. The spec names the
kinds and gives no codes and no layout. -/
opaque Config.recordKindOf : List Byte → Option ConfigKind

end Sys2Proof
end

