-- ==== Sys2Proof/Machine/Layouts.lean ====
section
/-! DEFINITION. The wire: byte order (R207), the frame and its checks (R187, R208), kind and status
codes (R208), the records that cross a link (R209) and CRC-16 and CRC-32. -/

namespace Sys2Proof.Machine

/-! ### Bytes -/

/-- The low byte of a number. -/
def byteOf (n : Nat) : Byte := BitVec.ofNat 8 n

/-- `count` bytes of a number, least significant first (R207). -/
def leBytes : Nat → Nat → List Byte
  | 0, _ => []
  | count + 1, n => byteOf n :: leBytes count (n / 256)

/-- The number that bytes spell, least significant first (R207). -/
def leNat : List Byte → Nat
  | [] => 0
  | b :: rest => b.toNat + 256 * leNat rest

/-- A position as 32-bit two's complement (R207). -/
def positionBytes (p : Mdeg) : List Byte := leBytes 4 (BitVec.ofInt 32 p).toNat

/-- The position that 4 bytes spell (R207). -/
def positionOf (bytes : List Byte) : Mdeg := (BitVec.ofNat 32 (leNat bytes)).toInt

/-- An epoch as a 6-byte unsigned count (R207). -/
def epochBytes (e : Epoch) : List Byte := leBytes 6 e.toNat

/-! ### CRCs (R208) -/

/-- One bit step of CRC-16: polynomial 0x1021, most significant bit first. -/
def crc16Bit (r : BitVec 16) : BitVec 16 :=
  if r.msb then (r <<< 1) ^^^ 0x1021 else r <<< 1

/-- CRC-16 over one byte. -/
def crc16Byte (r : BitVec 16) (b : Byte) : BitVec 16 :=
  let x := r ^^^ (b.setWidth 16 <<< 8)
  crc16Bit (crc16Bit (crc16Bit (crc16Bit (crc16Bit (crc16Bit (crc16Bit (crc16Bit x)))))))

/-- The CRC-16 of a byte string (R208). -/
def crc16 (bytes : List Byte) : BitVec 16 := bytes.foldl crc16Byte 0xFFFF

/-- One bit step of the reflected CRC-32. -/
def crc32Bit (r : BitVec 32) : BitVec 32 :=
  if r.getLsbD 0 then (r >>> 1) ^^^ 0xEDB88320 else r >>> 1

/-- The CRC-32 register after one byte (R208: reflected input and output). -/
def crc32Byte (r : BitVec 32) (b : Byte) : BitVec 32 :=
  let x := r ^^^ b.setWidth 32
  crc32Bit (crc32Bit (crc32Bit (crc32Bit (crc32Bit (crc32Bit (crc32Bit (crc32Bit x)))))))

/-- The CRC-32 register after more bytes. -/
def crc32Run (r : BitVec 32) (bytes : List Byte) : BitVec 32 := bytes.foldl crc32Byte r

/-- The CRC-32 value of a register: the final XOR (R208). -/
def crc32Value (r : BitVec 32) : BitVec 32 := r ^^^ 0xFFFFFFFF

/-! ### Request kinds (R189, R208) -/

/-- The request kinds. -/
inductive Kind where
  | statusRead | changesAck | noticeEnable | timeSet | axisEnable | driveReset | encoderSelect
  | encoderDisable | configWrite | burstOpen | burstData | burstClose | burstAbort | trackClear
  | groupPlan | groupArm | groupCancel | groupRead | holdPlace | holdRemove | lockPlace | lockRemove
  | forceRemove | localClaim | localRelease | jog | heatSet | iceFloor | weather | stowDemand
  | stowRelease | allStop | permitWrite | restart
deriving DecidableEq, Repr

/-- Every request kind. -/
def Kind.all : List Kind :=
  [.statusRead, .changesAck, .noticeEnable, .timeSet, .axisEnable, .driveReset, .encoderSelect,
   .encoderDisable, .configWrite, .burstOpen, .burstData, .burstClose, .burstAbort, .trackClear,
   .groupPlan, .groupArm, .groupCancel, .groupRead, .holdPlace, .holdRemove, .lockPlace, .lockRemove,
   .forceRemove, .localClaim, .localRelease, .jog, .heatSet, .iceFloor, .weather, .stowDemand,
   .stowRelease, .allStop, .permitWrite, .restart]

/-- The code of a kind (R208). -/
def Kind.code : Kind → Byte
  | .statusRead => 0x01 | .changesAck => 0x02 | .noticeEnable => 0x03 | .timeSet => 0x04
  | .axisEnable => 0x10 | .driveReset => 0x11 | .encoderSelect => 0x12 | .encoderDisable => 0x13
  | .configWrite => 0x14
  | .burstOpen => 0x20 | .burstData => 0x21 | .burstClose => 0x22 | .burstAbort => 0x23
  | .trackClear => 0x24
  | .groupPlan => 0x28 | .groupArm => 0x29 | .groupCancel => 0x2A | .groupRead => 0x2B
  | .holdPlace => 0x30 | .holdRemove => 0x31 | .lockPlace => 0x32 | .lockRemove => 0x33
  | .forceRemove => 0x34
  | .localClaim => 0x38 | .localRelease => 0x39 | .jog => 0x3A
  | .heatSet => 0x40 | .iceFloor => 0x41
  | .weather => 0x48 | .stowDemand => 0x49 | .stowRelease => 0x4A | .allStop => 0x4B
  | .permitWrite => 0x50 | .restart => 0x58

/-- The kind of a code; none for an unknown code (R208). -/
def Kind.ofCode (c : Byte) : Option Kind := Kind.all.find? fun k => decide (k.code = c)

/-- Whether a link may send a kind (R189, the table of requests per link). -/
def Kind.openTo (k : Kind) (l : Link) : Bool :=
  match k, l with
  | .statusRead, _ => true
  | .changesAck, _ => true
  | .noticeEnable, .pendant _ => false
  | .noticeEnable, _ => true
  | .configWrite, .pendant _ => false
  | .configWrite, _ => true
  | .lockPlace, .operations => false
  | .lockPlace, _ => true
  | .lockRemove, .operations => false
  | .lockRemove, _ => true
  | .heatSet, .safety => false
  | .heatSet, _ => true
  | .localClaim, .pendant _ => true
  | .localClaim, _ => false
  | .localRelease, .pendant _ => true
  | .localRelease, _ => false
  | .jog, .pendant _ => true
  | .jog, _ => false
  | .forceRemove, l => decide (l = .safety)
  | .weather, l => decide (l = .safety)
  | .stowDemand, l => decide (l = .safety)
  | .stowRelease, l => decide (l = .safety)
  | .allStop, l => decide (l = .safety)
  | .permitWrite, l => decide (l = .safety)
  | .restart, l => decide (l = .safety)
  | _, l => decide (l = .operations)

/-- Whether a STATUS_READ selector is open to a link (R189). -/
def selectorOpenTo (sel : Selector) (l : Link) : Bool :=
  match l, sel with
  | .pendant _, .antenna => true
  | .pendant _, .track => true
  | .pendant _, .lockouts => true
  | .pendant _, .wind => true
  | .pendant _, .heat => true
  | .pendant _, _ => false
  | _, _ => true

/-- Whether a CONFIG_WRITE record kind is in a link's column (R189). -/
def configOpenTo (k : ConfigKind) (l : Link) : Bool :=
  match l, k with
  | .operations, .wind => false
  | .operations, _ => true
  | .safety, k => decide (k = .wind)
  | .pendant _, _ => false

/-- Whether a body length fits a kind's request layout (R189, check 2). R197, R208 and R209 give the
lengths of five kinds; the other layouts are not stated (`Config.bodyFits`). -/
def bodyLengthFits (k : Kind) (body : List Byte) : Bool :=
  match k with
  | .statusRead => decide (body.length = 3)
  | .changesAck => decide (body.length = 10)
  | .groupRead => decide (body.length = 2)
  | .permitWrite => decide (body.length = 8)
  | .burstData =>
    match body with
    | [] => false
    | n :: rest => decide (rest.length = 16 * n.toNat)
  | k => Config.bodyFits k.code.toNat body.length

/-! ### Request bodies of known layout (R208 to R210) -/

/-- The body of a STATUS_READ: selector, antenna, part (R208). The antenna is read only where `ant` gives one. -/
def statusReadFits (sel : Selector) (ant : Option Nat) (part : Nat) (body : List Byte) : Bool :=
  match body with
  | [c, n, p] =>
    decide (Config.selectorOf c = some sel) && decide (ant.getD n.toNat = n.toNat)
      && decide (p.toNat = part)
  | _ => false

/-- The body of a GROUP_READ: id, part (R208). -/
def groupReadFits (id part : Nat) (body : List Byte) : Bool :=
  match body with
  | [g, p] => decide (g.toNat = id) && decide (p.toNat = part)
  | _ => false

/-- The body of a CONFIG_WRITE of a record kind, as far as the spec gives it (R189, log 6). -/
def configFits (k : ConfigKind) (body : List Byte) : Bool :=
  bodyLengthFits .configWrite body && decide (Config.recordKindOf body = some k)

/-- The entry that the 8 bytes of a PERMIT_WRITE spell (R209): index, flags, property, compare, value. DESIGN
CHOICE (log 45): bits 3 to 7 of the flags are ignored, where R209 names bits 0 to 2 and a read-only bit 3. -/
def permitArgOf (body : List Byte) : Option PermitArg :=
  match body with
  | [n, f, q, c, v0, v1, v2, v3] =>
    some ⟨n.toNat, f.getLsbD 0, f.getLsbD 1, f.getLsbD 2, q.toNat, c.toNat,
      BitVec.ofNat 32 (leNat [v0, v1, v2, v3])⟩
  | _ => none

/-- The index of a PERMIT_WRITE(DEFAULT) (R209). -/
def defaultIndex : Nat := 0xFF

/-- The verdict of a permit entry's verdict bit (R209). -/
def verdictOf (refuses : Bool) : Verdict := if refuses then .refuse else .allow

/-- The body of a PERMIT_WRITE of an entry (R209). -/
def permitFits (p : PermitArg) (body : List Byte) : Bool := decide (permitArgOf body = some p)

/-- The body of a PERMIT_WRITE(DEFAULT) of a verdict: only the verdict bit is read (R209). -/
def defaultFits (v : Option Verdict) (body : List Byte) : Bool :=
  match permitArgOf body with
  | none => false
  | some p => decide (p.index = defaultIndex) && decide (v = some (verdictOf p.refuse))

/-! ### Status codes (R208) -/

/-- The code of a reply status (R208). -/
def Status.code : Status → Byte
  | .ok => 0x00 | .clamped => 0x01 | .accepted => 0x02 | .paused => 0x03
  | .terminated => 0x08 | .count => 0x09 | .crc => 0x0A
  | .busy => 0x10 | .range => 0x11 | .lockout => 0x12 | .permit => 0x13 | .local_ => 0x14
  | .group => 0x15 | .stowing => 0x16 | .halted => 0x17 | .noTime => 0x18 | .budget => 0x19
  | .tooLong => 0x1A | .full => 0x1B | .notHolder => 0x1C | .notFound => 0x1D | .badState => 0x1E
  | .encoder => 0x1F | .active => 0x20 | .wind => 0x21 | .demand => 0x22 | .anchor => 0x23
  | .config => 0x24 | .badKind => 0x25

/-! ### The frame (R187, R208) -/

/-- The frame marker. -/
def marker : Byte := 0x5A

/-- A frame as bytes: marker, body length, kind, tag, body and CRC-16 (R208). -/
def frameBytes (kind tag : Byte) (body : List Byte) : List Byte :=
  let covered := byteOf body.length :: kind :: tag :: body
  marker :: covered ++ leBytes 2 (crc16 covered).toNat

/-- A notice frame as bytes: kind 0x7F, the sequence as tag, the 5-byte flag word (R208). -/
def Notice.bytes (n : Notice) : List Byte := frameBytes 0x7F n.sequence (leBytes 5 n.word.toNat)

/-- What a receiver finds at the front of its bytes (R187). -/
inductive Reception where
  /-- no complete frame yet -/
  | incomplete
  /-- not a marker: the receiver hunts on -/
  | hunt
  /-- a frame that fails length or CRC -/
  | discard
  /-- a complete frame and the bytes after it -/
  | frame (f : Frame) (rest : List Byte)
deriving DecidableEq, Repr

/-- Judge the bytes at the front of a receiver (R187). -/
def receive : List Byte → Reception
  | [] => .incomplete
  | m :: rest =>
    if m ≠ marker then .hunt
    else
      match rest with
      | [] => .incomplete
      | len :: after =>
        if 240 < len.toNat then .discard
        else if after.length < len.toNat + 4 then .incomplete
        else
          let covered := len :: after.take (len.toNat + 2)
          let sent := (after.drop (len.toNat + 2)).take 2
          if leNat sent = (crc16 covered).toNat then
            match after with
            | kind :: tag :: more =>
              .frame ⟨kind, tag, more.take len.toNat⟩ (more.drop (len.toNat + 2))
            | _ => .discard
          else .discard

/-- Take bytes off a receiver one reception at a time (R187): after a discard the receiver hunts again
from the byte after the discarded frame's marker; a complete frame becomes the waiting frame, or is
dropped where one is waiting. -/
def receiveAll : Nat → LinkRecord → LinkRecord
  | 0, l => l
  | fuel + 1, l =>
    match receive l.rx with
    | .incomplete => l
    | .hunt => receiveAll fuel { l with rx := l.rx.tail }
    | .discard =>
      receiveAll fuel { l with rx := l.rx.tail, discarded := satAdd 65535 l.discarded 1 }
    | .frame f rest =>
      match l.waiting with
      | none => receiveAll fuel { l with rx := rest, waiting := some f }
      | some _ => receiveAll fuel { l with rx := rest, dropped := satAdd 65535 l.dropped 1 }

/-! ### Segment records (R209) -/

/-- A segment record as BURST_DATA carries it. -/
structure SegmentRecord where
  (start : Nat) (duration : Nat) (reserved last : Bool) (azEnd elEnd : Mdeg)
deriving DecidableEq, Repr

/-- The segment record that 16 bytes spell (R209): start epoch, duration in bits 0 to 13, bit 14, LAST
in bit 15, AZ end, EL end. -/
def segmentOf (bytes : List Byte) : SegmentRecord :=
  let word := leNat ((bytes.drop 6).take 2)
  { start := leNat (bytes.take 6)
    duration := word % 16384
    reserved := decide ((word / 16384) % 2 = 1)
    last := decide ((word / 32768) % 2 = 1)
    azEnd := positionOf ((bytes.drop 8).take 4)
    elEnd := positionOf ((bytes.drop 12).take 4) }

/-- The bytes of a segment record (R209). -/
def SegmentRecord.bytes (r : SegmentRecord) : List Byte :=
  leBytes 6 r.start
    ++ leBytes 2 (r.duration % 16384 + (if r.reserved then 16384 else 0)
        + (if r.last then 32768 else 0))
    ++ positionBytes r.azEnd ++ positionBytes r.elEnd

/-- Cut a byte string into 16-byte records. -/
def chunk16 : Nat → List Byte → List (List Byte)
  | 0, _ => []
  | n + 1, bytes => bytes.take 16 :: chunk16 n (bytes.drop 16)

/-! ### Codes of the records as read (R209) -/

/-- Axis state codes (R209). -/
def AxisState.code : AxisState → Nat
  | .off => 0 | .precharge => 1 | .braked => 2 | .torqueUp => 3 | .holding => 4 | .slewing => 5
  | .tracking => 6 | .jogging => 7 | .stopping => 8 | .braking => 9 | .faulted _ => 10

/-- Fault cause codes (R209); absent is 0. -/
def FaultCause.code : FaultCause → Nat
  | .following => 1 | .encoder => 2 | .limit => 3 | .amplifier => 4 | .precharge => 5
  | .brakeRelease => 6 | .brakeSet => 7

/-- Group state codes (R209). -/
def GroupState.code : GroupState → Nat
  | .empty => 0 | .planned => 1 | .armed => 2 | .running => 3 | .done => 4 | .halted => 5

/-- Group halt reason codes (R209); none is 0. -/
def GroupHalt.code : GroupHalt → Nat
  | .fault _ => 1 | .lockout => 2 | .stow => 3 | .allStop => 4 | .cancel => 5 | .notReady => 6
  | .settle => 7

/-- The axis code of a group record: AZ 0, EL 1 (R209). -/
def axisCode : AxisName → Nat
  | .az => 0 | .el => 1

/-- The property of a code (R209). -/
def Property.ofCode : Nat → Option Property
  | 0 => some .setMask | 1 => some .source | 2 => some .kind | 3 => some .antenna
  | 4 => some .windClass | 5 => some .iceClass | 6 => some .targetEl | 7 => some .targetAz
  | 8 => some .hour | 9 => some .lockCount
  | _ => none

/-- The compare of a code (R209). -/
def Compare.ofCode : Nat → Option Compare
  | 0 => some .eq | 1 => some .ne | 2 => some .ge | 3 => some .lt
  | _ => none

/-- The cover set byte of a lockout entry (R209). -/
def coverCode (c : CoverSet) : Nat :=
  (if c.az then 1 else 0) + (if c.el then 2 else 0) + (if c.heat then 4 else 0)

/-- The class byte of a lockout entry (R209). -/
def LockClass.code : LockClass → Nat
  | .personnel => 0 | .safety => 1 | .operations => 2

/-- The holder byte of a lockout entry (R209). -/
def Holder.code : Holder → Nat
  | .pendant n => n.num | .safety => 0x10 | .operations => 0x11

/-- A lockout entry as read, 15 bytes (R209). DESIGN CHOICE (log 51): the reason code of an entry without a reason
is 0. -/
def EntryView.bytes (v : EntryView) : List Byte :=
  [byteOf v.slot, byteOf (match v.entry.scope with | none => 0xFF | some a => a.num),
   byteOf (coverCode v.entry.cover), byteOf v.entry.cls.code, byteOf v.entry.holder.code,
   byteOf ((if v.effective then 1 else 0) + (if v.persisted then 2 else 0)
     + (if v.entry.reason.isSome then 4 else 0))]
  ++ leBytes 2 (v.entry.badge.getD 0) ++ [byteOf (v.entry.reason.getD 0)] ++ leBytes 6 v.entry.placed

/-- The property code of a permit entry (R209). -/
def Property.code : Property → Nat
  | .setMask => 0 | .source => 1 | .kind => 2 | .antenna => 3 | .windClass => 4 | .iceClass => 5
  | .targetEl => 6 | .targetAz => 7 | .hour => 8 | .lockCount => 9

/-- The compare code of a permit entry (R209). -/
def Compare.code : Compare → Nat
  | .eq => 0 | .ne => 1 | .ge => 2 | .lt => 3

/-- A permit entry as read, 10 bytes (R209). -/
def PermitEntry.bytes (e : PermitEntry) (index : Nat) (persisted : Bool) : List Byte :=
  [byteOf index,
   byteOf ((if e.inUse then 1 else 0) + (if e.andFlag then 2 else 0)
     + (if e.verdict = .refuse then 4 else 0) + (if persisted then 8 else 0)),
   byteOf e.property.code, byteOf e.compare.code]
  ++ leBytes 4 e.value.toNat ++ leBytes 2 e.refusals

/-- The 35-byte header of a group record (R209). DESIGN CHOICE (log 51): in a record that is not EMPTY an absent start or
completion epoch is 0, as is the run of a settle timer that does not run. -/
def Group.headerBytes (g : Group) (id : GroupId) (now : Epoch) : List Byte :=
  let fault := match g.haltReason with
    | some (.fault c) => c.code
    | _ => 0
  [byteOf id.num, byteOf g.state.code, byteOf g.members.length, byteOf g.step,
   byteOf ((if g.held then 1 else 0) + (if g.start.isSome then 2 else 0)
     + (if g.completion.isSome then 4 else 0)),
   byteOf (match g.haltReason with | none => 0 | some r => r.code),
   byteOf (match g.causing with | none => 0xFF | some c => c.1.num),
   byteOf (match g.causing with | some (_, some x) => axisCode x | _ => 0xFF),
   byteOf fault]
  ++ leBytes 4 g.tg0 ++ leBytes 4 g.tg ++ leBytes 4 g.demand
  ++ epochBytes (g.start.getD 0) ++ epochBytes (g.completion.getD 0)
  ++ leBytes 2 (((ranFor now g.settleTimer).getD 0).toNat)

/-- The 36 bytes of one member axis of a group record (R209). -/
def AxisPlan.bytes (p : AxisPlan) (i : AxisId) (x : Axis) : List Byte :=
  [byteOf (i.ant.num + (if i.ax = .el then 128 else 0)), byteOf x.state.code]
  ++ positionBytes p.target ++ positionBytes p.start ++ positionBytes x.position
  ++ leBytes 4 p.distance ++ leBytes 2 p.v ++ leBytes 2 p.a
  ++ leBytes 4 (p.tmin.getD 0) ++ leBytes 2 (p.vstar.getD 0) ++ leBytes 2 (p.peak.getD 0)
  ++ leBytes 4 p.time ++ leBytes 2 p.demand

/-- A group record as read: the header, then each member axis, AZ before EL (R209). -/
def Group.bytes (g : Group) (id : GroupId) (now : Epoch) (axisOf : AxisId → Axis) : List Byte :=
  g.headerBytes id now
    ++ g.members.flatMap fun m => m.ant.axes.flatMap fun i => (m.plans.get i.ax).bytes i (axisOf i)

/-! ### Parts (R208) -/

/-- The number of 237-byte parts of a content (R208). An empty content counts as one part. -/
def partCount (len : Nat) : Nat := max 1 (ceilDiv len 237)

/-- One part of a content (R208). -/
def partOf (bytes : List Byte) (part : Nat) : List Byte := (bytes.drop (237 * part)).take 237

/-! ### Replies (R208) -/

/-- What a reply carries after its status, as bytes: part, part count and the part's bytes (R208); two flag words
or epochs in the order their rule names them, and an entry as read (R207, R209, R210); else a FREE VALUE (log 17).
DESIGN CHOICE (log 17): a PERMIT_WRITE's reply carries its entry in the ten bytes as read, not persisted, and then
the lost set, whose bytes are free. -/
def ReplyBody.wire : ReplyBody → List Byte
  | .empty => []
  | .status part parts data _ _ => byteOf part :: byteOf parts :: data
  | .partCount part parts => [byteOf part, byteOf parts]
  | .bytes part parts data => byteOf part :: byteOf parts :: data
  | .words before after => leBytes 5 before.toNat ++ leBytes 5 after.toNat
  | .epochs before after => epochBytes before ++ epochBytes after
  | .removed v => v.bytes
  | .permitEntry index e lost => e.bytes index false ++ Config.unstatedBytes lost
  | b => Config.unstatedBytes b

/-- The body of a reply frame: the status code, then what the reply carries; 240 bytes at most (R208). -/
def Reply.payload (r : Reply) : List Byte := (r.status.code :: r.body.wire).take 240

/-- A reply as the frame that is sent: its kind byte with the reply bit, the request's tag, its body (R208). -/
def Reply.bytes (r : Reply) : List Byte := frameBytes r.kind r.tag r.payload

end Sys2Proof.Machine
end

