-- ==== Sys2Proof/Machine/LinkOps.lean ====
section
/-! DEFINITION. The Link Front's operations: taking a frame (R188), the reply (R188, R190), the part of
a long content (R208), and finishing transmissions (R188, R196). -/

namespace Sys2Proof.Machine

/-- What an owner answers to a request: the reply's status and body, and the state after the request's
effect (R190). -/
structure Answer where
  (status : Status) (body : ReplyBody) (state : State)
deriving DecidableEq, Repr

/-- Refused: the reply carries the code and the request had no effect (R190). -/
def refuse (s : State) (c : Status) : Answer := ⟨c, .empty, s⟩

/-- Refused, with figures in the reply's body. -/
def refuseWith (s : State) (c : Status) (b : ReplyBody) : Answer := ⟨c, b, s⟩

/-- Taken with OK. -/
def okWith (b : ReplyBody) (s : State) : Answer := ⟨.ok, b, s⟩

/-- Taken with CLAMPED where a value was clamped, else OK (R190). -/
def okOrClamped (clamped : Bool) (b : ReplyBody) (s : State) : Answer :=
  ⟨if clamped then .clamped else .ok, b, s⟩

/-- The waiting frame, if any, is the request: it has its kind and tag, and its body fits (R189, log 8). -/
def LinkRecord.matches_ (l : LinkRecord) (kind tag : Byte) (fits : List Byte → Bool) : Bool :=
  match l.waiting with
  | none => true
  | some f => decide (f.kind = kind) && decide (f.tag = tag) && fits f.body

/-- The link may take the request's frame now: no reply is outgoing on it (R188). -/
def State.mayTake (s : State) (l : Link) (kind tag : Byte) (fits : List Byte → Bool) : Bool :=
  (s.link l).reply.isNone && (s.link l).matches_ kind tag fits

/-- A silence timer restarts; Operations has none (R186, R192). -/
def restartSilence (now : Epoch) (t : Timer) : Timer := t.map fun _ => now

/-- The link record after taking a frame (R188). -/
def LinkRecord.take (l : LinkRecord) (now : Epoch) : LinkRecord :=
  { l with waiting := none, taken := satAdd 65535 l.taken 1, silence := restartSilence now l.silence }

/-- A frame taken on Safety ends the SILENCE source (R121, R192). -/
def Wind.heard (w : Wind) (l : Link) : Wind :=
  if l = .safety then { w with silence := false } else w

/-- The flag that the taking of a frame sets: WIND, where it ends the SILENCE source (R121). -/
def State.heardFlags (s : State) (l : Link) : FlagWord :=
  wordIf (decide (l = .safety) && s.wind.silence) (stationFlag .wind)

/-- Take a frame on a link (R188, R192). A SILENCE source ends, and its change sets WIND, before the frame's
request is handled (R121). -/
def State.takeFrame (s : State) (l : Link) : State :=
  let t := s.modLink l fun r => r.take s.now
  ({ t with wind := s.wind.heard l }).setEarly (s.heardFlags l)

/-- The reply becomes the reply outgoing, behind a notice already waiting (R188, R196). -/
def LinkRecord.answer (l : LinkRecord) (r : Reply) : LinkRecord :=
  { l with reply := some r, noticeFirst := l.notice.isSome }

/-- The kind byte of a reply: the request's with the reply bit set (R188, R208). -/
def replyKind (kind : Byte) : Byte := kind ||| 0x80

/-- Put the reply to a request on its link. -/
def State.answer (s : State) (l : Link) (kind tag : Byte) (status : Status) (body : ReplyBody) : State :=
  s.modLink l fun r => r.answer ⟨replyKind kind, tag, status, body⟩

/-- Take a frame and answer it: the owner decides on the state after the taking (R188). -/
def takeAndAnswer (l : Link) (kind tag : Byte) (s : State) (owner : State → Answer) : State :=
  let a := owner (s.takeFrame l)
  a.state.answer l kind tag a.status a.body

/-- A request of a kind: its link's column is checked first, then its owner decides (R189). -/
def dispatch (l : Link) (k : Kind) (owner : State → Answer) (s : State) : Answer :=
  if k.openTo l then owner s else refuse s .badKind

/-- The link's own figures, as every STATUS_READ reply opens (R191). -/
def LinkRecord.figures (l : LinkRecord) : LinkFigures :=
  ⟨l.flags, l.enable, l.sequence, l.taken, l.discarded, l.dropped⟩

/-- The bytes of the link's own figures (R208): flag word, enable, sequence, three counts. DESIGN CHOICE (log 51): the
notice enable is sent as 1 for on and 0 for off; R208 gives its size alone. -/
def LinkFigures.bytes (f : LinkFigures) : List Byte :=
  leBytes 5 f.flags.toNat ++ [if f.enable then 1 else 0, f.sequence]
    ++ leBytes 2 f.taken ++ leBytes 2 f.discarded ++ leBytes 2 f.dropped

/-- The reply outgoing may have its last byte sent: nothing built before it still waits (R196). -/
def LinkRecord.replyLeaves (l : LinkRecord) : Bool :=
  l.reply.isSome && !(l.notice.isSome && l.noticeFirst)

/-- The waiting notice may be sent: nothing built before it still waits (R196). -/
def LinkRecord.noticeLeaves (l : LinkRecord) : Bool :=
  l.notice.isSome && (l.reply.isNone || l.noticeFirst)

/-- The part has power, or the command does nothing (log 7). -/
def onPower (s : State) (f : State → State) : State := if s.powered then f s else s

/-- Apply a change where a condition holds. -/
def whenever (b : Bool) (f : State → State) (s : State) : State := if b then f s else s

end Sys2Proof.Machine
end

