-- ==== Sys2Proof/Machine/StoreOps.lean ====
section
/-! DEFINITION. The Settings Store's operations: queueing writes (R200, R202), starting and completing
them (R201), and reading records at power-on (R203). -/

namespace Sys2Proof.Machine

/-! ### Persisted marks (R199) -/

/-- Change one element of a list, if the list has it. -/
def modAt {α : Type} : List α → Nat → (α → α) → List α
  | [], _, _ => []
  | x :: xs, 0, f => f x :: xs
  | x :: xs, n + 1, f => x :: modAt xs n f

/-- Set a record's persisted mark. -/
def Store.setMark (st : Store) (id : RecordId) (b : Bool) : Store :=
  match id with
  | .station => { st with station := { st.station with mark := b } }
  | .wind => { st with wind := { st.wind with mark := b } }
  | .axis i =>
    let r := (st.axes.get i.ant).get i.ax
    { st with axes := st.axes.set i.ant ((st.axes.get i.ant).set i.ax { r with mark := b }) }
  | .zone z =>
    let r := (st.zones.get z.ant).get z.cls
    { st with zones := st.zones.set z.ant ((st.zones.get z.ant).set z.cls { r with mark := b }) }
  | .lockout n => { st with lockouts := modAt st.lockouts n fun r => { r with mark := b } }
  | .permit n => { st with permits := modAt st.permits n fun r => { r with mark := b } }

/-- A record's persisted mark. -/
def Store.mark (st : Store) : RecordId → Bool
  | .station => st.station.mark
  | .wind => st.wind.mark
  | .axis i => ((st.axes.get i.ant).get i.ax).mark
  | .zone z => ((st.zones.get z.ant).get z.cls).mark
  | .lockout n => ((st.lockouts[n]?).map Stored.mark).getD false
  | .permit n => ((st.permits[n]?).map Stored.mark).getD false

/-- Put contents into the store with a good CRC or a bad one. -/
def Store.put (st : Store) (v : RecordValue) (good : Bool) : Store :=
  match v with
  | .station r => { st with station := ⟨r, good, st.station.mark⟩ }
  | .wind r => { st with wind := ⟨r, good, st.wind.mark⟩ }
  | .axis i r =>
    let m := ((st.axes.get i.ant).get i.ax).mark
    { st with axes := st.axes.set i.ant ((st.axes.get i.ant).set i.ax ⟨r, good, m⟩) }
  | .zone z r =>
    let m := ((st.zones.get z.ant).get z.cls).mark
    { st with zones := st.zones.set z.ant ((st.zones.get z.ant).set z.cls ⟨r, good, m⟩) }
  | .lockout n r => { st with lockouts := modAt st.lockouts n fun x => ⟨r, good, x.mark⟩ }
  | .permit n r => { st with permits := modAt st.permits n fun x => ⟨r, good, x.mark⟩ }

/-! ### Queueing a write (R200, R202) -/

/-- The write queue holds a write of the record. -/
def Store.queued (st : Store) (id : RecordId) : Bool := st.queue.any fun r => decide (r = id)

/-- The slot is in the overflow list. -/
def Store.overflows (st : Store) (id : RecordId) : Bool :=
  st.overflow.any fun n => decide (RecordId.lockout n = id)

/-- A request that needs a write of the record is refused FULL (R200, R202). -/
def Store.refuses (st : Store) (id : RecordId) : Bool :=
  decide (32 ≤ st.queue.length) && !st.queued id && !st.overflows id

/-- A record changed while its write is in progress. -/
def Store.noteChange (st : Store) (id : RecordId) : Store :=
  match st.writing with
  | none => st
  | some w => if w.record = id then { st with writing := some { w with changed := true } } else st

/-- A queue that was empty has a head from now on: its head wait runs while the line is low (R201). -/
def headWaitFrom (now : Epoch) (supplyGood wasEmpty : Bool) (t : Timer) : Timer :=
  if supplyGood then none else if wasEmpty then some now else t

/-- Join the queue's tail. -/
def Store.join (st : Store) (id : RecordId) (now : Epoch) (supplyGood : Bool) : Store :=
  { st with
    queue := st.queue ++ [id]
    headWait := headWaitFrom now supplyGood st.queue.isEmpty st.headWait }

/-- A lockout slot that finds the queue full joins the overflow list (R202). -/
def Store.joinOverflow (st : Store) (id : RecordId) : Store :=
  match id with
  | .lockout n => { st with overflow := st.overflow ++ [n] }
  | _ => st

/-- Queue a write of a changed record (R199, R200, R202). -/
def Store.queueWrite (st : Store) (id : RecordId) (now : Epoch) (supplyGood : Bool) : Store :=
  let st := (st.setMark id false).noteChange id
  if st.queued id || st.overflows id then st
  else if st.queue.length < 32 then st.join id now supplyGood
  else st.joinOverflow id

/-- Queue a write of a record. -/
def State.queueWrite (s : State) (id : RecordId) : State :=
  s.modStore fun st => st.queueWrite id s.now s.field.supplyGood

/-- The head wait follows the store-supply-good line: it stops while the line is asserted, and starts
where the line goes low on a queue that holds a head (R201). DESIGN CHOICE (log 47): each fall of the line starts
it from zero and lets it be reported afresh, also while a write is still in progress. -/
def Store.followSupply (st : Store) (now : Epoch) (supplyGood : Bool) : Store :=
  if supplyGood then { st with headWait := none, waitReported := false }
  else if st.queue.isEmpty then st
  else { st with headWait := some (st.headWait.getD now) }

/-! ### What a write carries (R199, R200) -/

/-- The STATION record as it stands. -/
def State.stationRecord (s : State) : StationRecord :=
  ⟨s.feed.limit, s.feed.base, s.feed.period, s.feed.allowance, s.permits.default_⟩

/-- The ZONE record of a zone as it stands. A mode set by a restart is not stored (R155). -/
def Zone.record (z : Zone) : ZoneRecord :=
  ⟨z.rated, z.frame, z.storedMode, z.idle, z.melt, z.band, z.retain⟩

/-- The contents of a permit entry's record. -/
def PermitEntry.record (e : PermitEntry) : PermitRecord :=
  ⟨e.inUse, e.property, e.compare, e.value, e.andFlag, e.verdict⟩

/-- The entry a lockout slot holds. -/
def Locks.slot (l : Locks) (n : Nat) : Option LockEntry := (l.slots[n]?).getD none

/-- The contents a record has now. -/
def State.contentsOf (s : State) : RecordId → RecordValue
  | .station => .station s.stationRecord
  | .wind => .wind s.wind.record
  | .axis i => .axis i (s.axis i).record
  | .zone z => .zone z (s.zone z).record
  | .lockout n => .lockout n (s.locks.slot n)
  | .permit n =>
    .permit n (((s.permits.entries[n]?).map PermitEntry.record).getD PermitRecord.unused)

/-! ### Starting and completing (R201, R202) -/

/-- A write may start (R201). -/
def State.mayStartWrite (s : State) : Bool :=
  s.field.supplyGood && s.store.writing.isNone && !s.store.queue.isEmpty

/-- The head of the overflow list joins the queue's tail where a place is free (R202). -/
def Store.drainOverflow (st : Store) : Store :=
  match st.overflow with
  | [] => st
  | n :: rest =>
    if st.queue.length < 32 then { st with queue := st.queue ++ [.lockout n], overflow := rest } else st

/-- Start the head's write (R200 to R202). -/
def State.startWrite (s : State) : State :=
  match s.store.queue with
  | [] => s
  | id :: rest =>
    s.modStore fun st =>
      Store.drainOverflow
        { st with
          queue := rest
          writing := some ⟨id, s.contentsOf id, false, s.now⟩
          headWait := none
          waitReported := false }

/-- A long head wait has been seen, and the queue is empty now (R201). -/
def Store.emptiedAfterWait (st : Store) : Bool := st.longWait && st.queue.isEmpty

/-- Complete the write in progress (R201, R203). -/
def Store.complete (st : Store) (w : Writing) : Store :=
  let st := st.put w.value true
  let st := if w.changed then st else st.setMark w.record true
  { st with writing := none, bad := st.bad.filter fun r => decide (r ≠ w.record) }

/-! ### Losing power (R201) -/

/-- The contents stay, and the CRC of the record being written is bad. -/
def Store.lose (st : Store) : Store :=
  let st := match st.writing with
    | none => st
    | some w => st.put w.value false
  { st with queue := [], overflow := [], writing := none, headWait := none, waitReported := false
            longWait := false }

/-! ### Reading at power-on (R203) -/

/-- The contents of a good record, or the factory's. -/
def Stored.orElse {α : Type} (r : Stored α) (d : α) : α := if r.good then r.contents else d

/-- Every record of the store, by kind and index. -/
def RecordId.all : List RecordId :=
  [.station, .wind] ++ AxisId.all.map .axis ++ ZoneId.all.map .zone
    ++ (List.range 24).map .lockout ++ (List.range 32).map .permit

/-- A record's CRC is good. -/
def Store.goodOf (st : Store) : RecordId → Bool
  | .station => st.station.good
  | .wind => st.wind.good
  | .axis i => ((st.axes.get i.ant).get i.ax).good
  | .zone z => ((st.zones.get z.ant).get z.cls).good
  | .lockout n => ((st.lockouts[n]?).map Stored.good).getD true
  | .permit n => ((st.permits[n]?).map Stored.good).getD true

/-- The bad list (R203). -/
def Store.badList (st : Store) : List RecordId := RecordId.all.filter fun id => !st.goodOf id

/-- The entries of the good LOCKOUT records, slot by slot (R203). DEDUCED (log 48): two good records with one key
are both loaded as they were written, R203's words, though a table has one entry to a key (R92). -/
def Store.restoredSlots (st : Store) : List (Option LockEntry) :=
  st.lockouts.map fun r => r.orElse none

/-- One above the greatest creation number found (R199). -/
def nextCreationOf (slots : List (Option LockEntry)) : Nat :=
  (slots.filterMap id).foldl (fun acc e => max acc (e.creation + 1)) 0

/-- Insert a slot into a list rising by creation number. -/
def insertByCreation (key : Nat → Nat) (n : Nat) : List Nat → List Nat
  | [] => [n]
  | m :: rest => if key n < key m then n :: m :: rest else m :: insertByCreation key n rest

/-- The occupied slots, oldest first (R203). -/
def orderOf (slots : List (Option LockEntry)) : List Nat :=
  let key := fun n => (((slots[n]?).getD none).map LockEntry.creation).getD 0
  (List.range slots.length).foldl (fun acc n =>
    if ((slots[n]?).getD none).isSome then insertByCreation key n acc else acc) []

end Sys2Proof.Machine
end

