-- ==== Sys2Proof/Machine/LockOps.lean ====
section
/-! DEFINITION. The Lockout Table's operations: keys, merging and placing (R92, R94), what new cover hands
on (R95), and removal (R98, R99). -/

namespace Sys2Proof.Machine

/-- The reason code RESTORE_LOST (R92). -/
def restoreLost : Nat := 255

/-- What a placement asks for (R93): a key, a cover set and an optional reason code. -/
structure Placement where
  (scope : Option Ant) (cover : CoverSet) (cls : LockClass) (holder : Holder) (badge : Option Nat)
  (reason : Option Nat)
deriving DecidableEq, Repr

/-- The cover set is empty. -/
def coverEmpty (c : CoverSet) : Bool := !c.az && !c.el && !c.heat

/-- The union of two cover sets. -/
def coverUnion (c d : CoverSet) : CoverSet := ⟨c.az || d.az, c.el || d.el, c.heat || d.heat⟩

/-- The entry has the placement's key (R92, R94). -/
def Placement.keyOf (p : Placement) (e : LockEntry) : Bool :=
  decide (e.scope = p.scope) && decide (e.cls = p.cls) && decide (e.holder = p.holder)
    && decide (e.badge = p.badge)

/-- The slot of the entry with the placement's key. -/
def Locks.findKey (l : Locks) (p : Placement) : Option Nat :=
  l.slots.findIdx? fun e =>
    match e with
    | none => false
    | some e => p.keyOf e

/-- The lowest-numbered empty slot. -/
def Locks.emptySlot (l : Locks) : Option Nat := l.slots.findIdx? fun e => e.isNone

/-- The entry a merge gives (R94). -/
def LockEntry.merge (e : LockEntry) (p : Placement) : LockEntry :=
  { e with cover := coverUnion e.cover p.cover
           reason := match p.reason with
             | none => e.reason
             | some r => some r }

/-- The entry a new placement gives (R94). -/
def Placement.entry (p : Placement) (now : Epoch) (creation : Nat) : LockEntry :=
  { scope := p.scope, cover := p.cover, cls := p.cls, holder := p.holder, badge := p.badge
    reason := p.reason, placed := (now / 1000).toNat, creation := creation }

/-- Put an entry into a slot, or empty it. -/
def Locks.setSlot (l : Locks) (n : Nat) (e : Option LockEntry) : Locks :=
  { l with slots := modAt l.slots n fun _ => e }

/-- A new entry goes into a slot and to the end of the list, and takes the next creation number (R94,
R199). -/
def State.createEntry (s : State) (n : Nat) (p : Placement) : State :=
  let l := s.locks.setSlot n (some (p.entry s.now s.store.nextCreation))
  ({ s with locks := { l with order := l.order ++ [n] } }).modStore fun st =>
    { st with nextCreation := st.nextCreation + 1 }

/-! ### New cover (R95) -/

/-- The entry in a slot covers an axis. -/
def State.slotCovers (s : State) (n : Nat) (i : AxisId) : Bool :=
  match s.locks.slot n with
  | none => false
  | some e => e.coversAxis i

/-- New cover (R95): an axis that the placed entry covers now and did not cover before, whatever other entries
cover. Every axis of a new entry is new cover. -/
def newCover (before s : State) (slot : Option Nat) (i : AxisId) : Bool :=
  match slot with
  | none => false
  | some n => s.slotCovers n i && !before.slotCovers n i

/-- The antennas of a scope. -/
def scopeAnts : Option Ant → List Ant
  | none => Ant.all
  | some a => [a]

/-- The axes of an antenna with new cover. -/
def newAxes (fresh : AxisId → Bool) (a : Ant) : List AxisId := a.axes.filter fresh

/-- A placement's new cover on AZ or EL of an antenna is handed on (R95): LOCKOUT stops, the queue, the
burst, the group, a jog on a covered axis, and the Stow Controller. DESIGN CHOICE (log 53): the jog ends, and its
record is cleared, also where the record has already failed. -/
def State.handOnCover (s : State) (fresh : AxisId → Bool) (a : Ant) : State :=
  if (newAxes fresh a).isEmpty then s
  else
    let t := forEach (newAxes fresh a) (fun s i => s.stopAxis i .lockout .braked) s
    let t := (t.haltQueue a .lockout).terminateBurst a .lockout
    let t := t.haltGroupOf a .lockout none
    let t := match t.jog a with
      | none => t
      | some j => if fresh ⟨a, j.axis⟩ then t.endJog a none else t
    t.stowCovered a

/-- The zones of an antenna are lowered under a HEAT entry (R95, R149). -/
def State.lowerZones (s : State) (a : Ant) : State :=
  forEach a.zones (fun s z => s.lowerZone true z) s

/-- Everything a placement in a slot hands on, given the state before it (R95). -/
def State.applyCover (s before : State) (slot : Option Nat) (scope : Option Ant) : State :=
  let fresh := newCover before s slot
  forEach (scopeAnts scope) (fun s a => (s.handOnCover fresh a).lowerZones a) s

/-! ### Placing and removing (R94, R98) -/

/-- How a placement request ends: refused FULL, or taken in a slot, merged or not, changed or not. -/
inductive Placed where
  | full
  | merged (slot : Nat) (changed : Bool)
  | created (slot : Nat)
deriving DecidableEq, Repr

/-- The slot a placement took. -/
def Placed.slot : Placed → Option Nat
  | .full => none
  | .merged n _ => some n
  | .created n => some n

/-- Where a placement goes (R94). -/
def Locks.judge (l : Locks) (p : Placement) : Placed :=
  match l.findKey p with
  | some n => .merged n (decide ((l.slot n).map (fun e => e.merge p) ≠ l.slot n))
  | none =>
    match l.emptySlot with
    | some n => .created n
    | none => .full

/-- Merge a placement into a slot's entry (R94). -/
def State.mergeEntry (s : State) (n : Nat) (p : Placement) : State :=
  { s with locks := s.locks.setSlot n ((s.locks.slot n).map fun e => e.merge p) }

/-- The table change of a placement, with the store write it queues (R94, R100). -/
def State.placeEntry (s : State) (p : Placement) : State :=
  match s.locks.judge p with
  | .full => s
  | .merged n changed => if changed then (s.mergeEntry n p).queueWrite (.lockout n) else s
  | .created n => (s.createEntry n p).queueWrite (.lockout n)

/-- A removal: the slot is emptied and leaves the list, its empty record is queued, zones whose cap is
lifted wait for their frame start, and the Stow Controller is told (R98). -/
def State.removeEntry (s : State) (n : Nat) (e : LockEntry) : State :=
  let l := s.locks.setSlot n none
  let t := { s with locks := { l with order := l.order.filter fun m => decide (m ≠ n) } }
  forEach (scopeAnts e.scope) (fun s a => s.coverRemoved a) (t.queueWrite (.lockout n))

end Sys2Proof.Machine
end

