-- ==== Sys2Proof/Machine/Settle.lean ====
section
/-! DEFINITION. What follows in the same event once its causes have been taken: withdrawals (R166), the end
of the disable sequence (R12), antennas at rest (R125), releases (R85, R130), the offer of freed room (R165),
and work toward torque (R13) on room that has been offered. -/

namespace Sys2Proof.Machine

/-- The disable sequence has run its course: both axes are down (R12). -/
def Antenna.disabled (v : Antenna) : Bool :=
  v.disabling && v.axes.az.state.down && v.axes.el.state.down

/-- The bus goes OFF at the end of the disable sequence: BRAKED axes go OFF (R12). -/
def State.endDisable (s : State) (a : Ant) : State :=
  if (s.ants.get a).disabled then
    forEach a.axes (fun s i =>
      if (s.axis i).state = .braked then s.enterAxis i .off else s) (s.modAnt a Antenna.busOff)
  else s

/-- The group under whose grant an axis with claim GROUP draws (R13). -/
def State.grantingGroup (s : State) (a : Ant) : Option GroupId :=
  GroupId.all.find? fun g =>
    (s.groups.get g).held && (s.groups.get g).has a && (s.feed.groups.get g).isSome

/-- Take torque under a cover the Arbiter has granted (R13). -/
def State.torqueUnder (s : State) (i : AxisId) (c : GrantCover) : State :=
  (s.modAxis i fun x => { x with cover := c }).enterAxis i .torqueUp

/-- An axis that works toward torque (R13): BRAKED with claims, READY true, no disable under way. -/
def State.wantsTorque (s : State) (i : AxisId) : Bool :=
  decide ((s.axis i).state = .braked) && (s.axis i).claims.any && s.ready i.ant
    && !(s.ants.get i.ant).disabling

/-- Work toward torque (R13): under the group or wave grant, or by asking for h. -/
def State.seekTorque (s : State) (i : AxisId) : State :=
  if s.wantsTorque i then
    if (s.axis i).claims.group then
      match s.grantingGroup i.ant with
      | some g => s.torqueUnder i (.group g)
      | none => s
    else if (s.axis i).claims.stow then
      if (s.feed.waves.get i.ant).isSome then s.torqueUnder i .wave else s
    else if s.waits i then s
    else s.askNeed i .hold (s.axis i).record.hold
  else s

/-- Take the mark of freed room, or of a formation to try, off the event. -/
def State.clearMarks (s : State) : State :=
  { s with scratch := { s.scratch with freed := false, form := false } }

/-- The offer of free room: stow first, then the queue (R165); a formation alone where only that is due
(R128). -/
def State.offer (s : State) : State :=
  if s.scratch.freed then (s.clearMarks.formWave).offerQueue 16
  else if s.scratch.form then s.clearMarks.formWave
  else s

/-- Offers while room is freed that has not been offered: the shed that a grant takes in an offer frees room
anew (R161, R165). -/
def State.offerFreed (s : State) : Nat → State
  | 0 => s
  | n + 1 => if s.scratch.freed then State.offerFreed s.offer n else s

/-- Room freed so far in the event is offered before an axis need is asked: a stow admission takes freed room
before any axis need does (R165). -/
def State.offerFirst (s : State) : State := s.offerFreed 4

/-- An axis works toward torque in its turn (R13), once freed room has been offered (R165). -/
def State.seekInTurn (s : State) (i : AxisId) : State :=
  if s.wantsTorque i then s.offerFirst.seekTorque i else s

/-- One round of what follows, without work toward torque and without the offer. -/
def State.followUp (s : State) : State :=
  let s := s.withdrawVoid
  let s := forEach Ant.all (fun s a => s.endDisable a) s
  let s := forEach Ant.all (fun s a => s.stowAtRest a) s
  let s := forEach GroupId.all (fun s g => s.releaseIfStill g) s
  forEach Ant.all (fun s a => s.releaseIfOver a) s

/-- Work toward torque, axis by axis, each on room that has been offered (R13, R165). -/
def State.seekAll (s : State) : State := forEach AxisId.all (fun s i => s.seekInTurn i) s

/-- Rounds of what follows, each with its work toward torque and its offer. -/
def State.settleRounds (s : State) : Nat → State
  | 0 => s
  | n + 1 => State.settleRounds s.followUp.seekAll.offer n

/-- What follows in the same event. -/
def State.settle (s : State) : State := s.settleRounds 4

/-- A part with power runs an event: its causes, what follows, and the flags and notices (R195, R196). -/
def event (s : State) (body : State → State) : State := announce s (body s).settle

/-- A field event, paced step or timer expiry: it acts where its condition holds (log 9). -/
def occur (s : State) (due : Bool) (body : State → State) : Host.Outcome State Fault Refusal :=
  .next (onPower s fun s => if due then event s body else s)

/-- A field event, paced step or timer expiry that reaches one block alone: nothing follows from it in
other blocks. -/
def occurAlone (s : State) (due : Bool) (body : State → State) : Host.Outcome State Fault Refusal :=
  .next (onPower s fun s => if due then announce s (body s) else s)

/-- A request a link takes (R188, R189): checked and decided by its owner, with what follows. `fits` tells the
bodies that a waiting frame of this request can have: at the least, its length fits the kind's layout. -/
def request (l : Link) (k : Kind) (tag : Byte) (s : State) (owner : State → Answer)
    (fits : List Byte → Bool := bodyLengthFits k) : Host.Outcome State Fault Refusal :=
  .next (onPower s fun s =>
    if s.mayTake l k.code tag fits then
      event s fun s => takeAndAnswer l k.code tag s (dispatch l k owner)
    else s)

/-- A request whose effect stays within its owner: nothing follows from it in other blocks. -/
def serve (l : Link) (k : Kind) (tag : Byte) (s : State) (owner : State → Answer)
    (fits : List Byte → Bool := bodyLengthFits k) : Host.Outcome State Fault Refusal :=
  .next (onPower s fun s =>
    if s.mayTake l k.code tag fits then
      announce s (takeAndAnswer l k.code tag s (dispatch l k owner))
    else s)

end Sys2Proof.Machine
end

