-- ==== Sys2Proof/Machine/AxisEvents.lean ====
section
/-! DEFINITION. The meanings of the Axis Drive Units' events and timer expiries (R9 to R26, R45). -/

namespace Sys2Proof.Machine

/-! ### Profiles and stops ending (R17, R45) -/

/-- A profile's last step has come (R45). -/
def State.profileOver (s : State) (i : AxisId) : Option Profile :=
  match (s.axis i).state, (s.axis i).profile with
  | .slewing, some p => if p.over s.now then some p else none
  | _, _ => none

/-- The profile ends: on its target, at rest, HOLDING (R45). -/
def State.endProfile (s : State) (i : AxisId) (p : Profile) : State :=
  (s.modAxis i fun x => { x with position := p.target, velocity := 0 }).enterAxis i .holding

/-- A DRIVING antenna whose EL has gone HOLDING on its target has arrived (R131). -/
def State.arriveIfDriving (s : State) (i : AxisId) : State :=
  if i.ax = .el ∧ (s.stowOf i.ant).state = .driving then s.arrive i.ant else s

/-- PROFILE_END (R45, R131), at a servo step. -/
def execProfileEnd (i : AxisId) (s : State) : Host.Outcome State Fault Refusal :=
  occur s (s.atServo && (s.profileOver i).isSome) fun s =>
    match s.profileOver i with
    | none => s
    | some p => (s.endProfile i p).arriveIfDriving i

/-- A controlled stop's end has come (R17). -/
def State.stopOver (s : State) (i : AxisId) : Option StopRecord :=
  match (s.axis i).state, (s.axis i).stop with
  | .stopping, some r => if r.over (s.axis i).record s.now then some r else none
  | _, _ => none

/-- The stop ends where it comes to rest, and its target decides the next state (R17). -/
def State.finishStop (s : State) (i : AxisId) (r : StopRecord) : State :=
  (s.modAxis i fun x =>
    { x with position := (r.eval x.record s.now).1, velocity := 0 }).endStop i r.reason r.target

/-- STOP_END (R17), at a servo step. -/
def execStopEnd (i : AxisId) (s : State) : Host.Outcome State Fault Refusal :=
  occur s (s.atServo && (s.stopOver i).isSome) fun s =>
    match s.stopOver i with
    | none => s
    | some r => s.finishStop i r

/-! ### The bus (R9, R10) -/

/-- The precharging bus has been in band for 2 s (R9). -/
def State.busUpDue (s : State) (a : Ant) : Bool :=
  decide ((s.ants.get a).bus = .precharge) && passed s.now (s.ants.get a).inBandTimer 2000

/-- The bus goes UP, and every PRECHARGE axis BRAKED (R9). DESIGN CHOICE (log 52): the precharge start epoch becomes
absent here. -/
def State.bringUp (s : State) (a : Ant) : State :=
  (forEach a.axes (fun s i =>
    if (s.axis i).state = .precharge then s.enterAxis i .braked else s)
    (s.modAnt a fun v =>
      { v with bus := .up, prechargeStart := none, inBandTimer := none })).runFieldTimers a

/-- BUS_UP (R9). -/
def execBusUp (a : Ant) (s : State) : Host.Outcome State Fault Refusal :=
  occur s (s.busUpDue a) fun s => s.bringUp a

/-- 15 s have passed since the precharge start epoch (R9). -/
def State.prechargeDue (s : State) (a : Ant) : Bool :=
  decide ((s.ants.get a).bus = .precharge) && passed s.now (s.ants.get a).prechargeStart 15000

/-- The precharge times out: the bus goes OFF, and every PRECHARGE axis FAULTED(PRECHARGE) (R9). An axis
already FAULTED keeps its cause. -/
def State.failPrecharge (s : State) (a : Ant) : State :=
  forEach a.axes (fun s i =>
    if (s.axis i).state = .precharge then s.faultAxis i .precharge else s) (s.modAnt a Antenna.busOff)

/-- PRECHARGE_TIMEOUT (R9). -/
def execPrechargeTimeout (a : Ant) (s : State) : Host.Outcome State Fault Refusal :=
  occur s (s.prechargeDue a) fun s => s.failPrecharge a

/-- The reading of an UP bus has been outside the band for 200 ms (R10). -/
def State.outOfBandDue (s : State) (a : Ant) : Bool :=
  decide ((s.ants.get a).bus = .up) && !(s.ants.get a).outOfBand
    && passed s.now (s.ants.get a).outBandTimer 200

/-- The reading counts as out of band: READY is false, and every axis with its amplifier enabled goes
FAULTED(PRECHARGE) (R10). -/
def State.loseBand (s : State) (a : Ant) : State :=
  forEach a.axes (fun s i => if (s.axis i).amplifier then s.faultAxis i .precharge else s)
    ((s.modAnt a fun v => { v with outOfBand := true }).runFieldTimers a)

/-- BUS_OUT_OF_BAND (R10). -/
def execBusOutOfBand (a : Ant) (s : State) : Host.Outcome State Fault Refusal :=
  occur s (s.outOfBandDue a) fun s => s.loseBand a

/-- The reading of an out-of-band bus has been back in band for 2 s (R10). -/
def State.backInBandDue (s : State) (a : Ant) : Bool :=
  decide ((s.ants.get a).bus = .up) && (s.ants.get a).outOfBand
    && passed s.now (s.ants.get a).inBandTimer 2000

/-- BUS_BACK_IN_BAND (R10). -/
def execBusBackInBand (a : Ant) (s : State) : Host.Outcome State Fault Refusal :=
  occur s (s.backInBandDue a) fun s =>
    (s.modAnt a fun v => { v with outOfBand := false, inBandTimer := none }).runFieldTimers a

/-! ### Torque and brake (R14, R15) -/

/-- The holding-current-reached sense shows on an axis. -/
def AxisInputs.reachCurrent (io : AxisInputs) : AxisInputs := { io with current := true }

/-- The axis enters HOLDING with its brake commanded released and the release check started (R14). -/
def State.startHolding (s : State) (i : AxisId) : State :=
  (s.enterAxis i .holding).modAxis i fun x => { x with releaseCheck := some s.now }

/-- HOLDING_CURRENT_REACHED (R14). -/
def execHoldingCurrentReached (i : AxisId) (s : State) : Host.Outcome State Fault Refusal :=
  occur s true fun s =>
    let t := s.modAxisIn i AxisInputs.reachCurrent
    if (t.axis i).state = .torqueUp then t.startHolding i else t

/-- 500 ms have passed in TORQUE_UP without the sense (R14). -/
def State.torqueUpDue (s : State) (i : AxisId) : Bool :=
  decide ((s.axis i).state = .torqueUp) && !(s.axisIn i).current
    && passed s.now (s.axis i).torqueTimer 500

/-- TORQUE_UP_TIMEOUT (R14). -/
def execTorqueUpTimeout (i : AxisId) (s : State) : Host.Outcome State Fault Refusal :=
  occur s (s.torqueUpDue i) fun s => s.faultAxis i .brakeRelease

/-- The stop a confirmed handover carries out (R14, R18): the one held for it, or, where no claim is
left, a stop to BRAKED (log 21). -/
def Axis.stopAfterHandover (x : Axis) : Option PendingStop :=
  match x.pendingStop with
  | some p => some p
  | none => if x.claims.any then none else some ⟨none, .braked⟩

/-- The release is confirmed: the check is cleared, and a stop held for the end of the handover, or an
empty claim set, takes the axis down (R14). -/
def State.confirmRelease (s : State) (i : AxisId) : State :=
  let t := s.modAxis i fun x => { x with releaseCheck := none, pendingStop := none }
  match (s.axis i).stopAfterHandover with
  | none => t
  | some p => t.goBraking i p

/-- The brake released switch is made. -/
def AxisInputs.makeReleased (io : AxisInputs) : AxisInputs := { io with releasedSwitch := true }

/-- BRAKE_RELEASE_CONFIRMED (R14). -/
def execBrakeReleaseConfirmed (i : AxisId) (s : State) : Host.Outcome State Fault Refusal :=
  occur s true fun s =>
    let t := s.modAxisIn i AxisInputs.makeReleased
    if (t.axis i).state = .holding ∧ (t.axis i).releaseCheck.isSome = true then t.confirmRelease i
    else t

/-- 800 ms have passed in a release check without the switch (R14). -/
def State.releaseDue (s : State) (i : AxisId) : Bool :=
  decide ((s.axis i).state = .holding) && !(s.axisIn i).releasedSwitch
    && passed s.now (s.axis i).releaseCheck 800

/-- RELEASE_CHECK_TIMEOUT (R14). -/
def execReleaseCheckTimeout (i : AxisId) (s : State) : Host.Outcome State Fault Refusal :=
  occur s (s.releaseDue i) fun s => s.faultAxis i .brakeRelease

/-- The brake set switch is made. -/
def AxisInputs.makeSet (io : AxisInputs) : AxisInputs := { io with setSwitch := true }

/-- BRAKE_SET_CONFIRMED (R15): the amplifier is disabled and the axis is BRAKED. -/
def execBrakeSetConfirmed (i : AxisId) (s : State) : Host.Outcome State Fault Refusal :=
  occur s true fun s =>
    let t := s.modAxisIn i AxisInputs.makeSet
    if (t.axis i).state = .braking then t.enterAxis i .braked else t

/-- 800 ms have passed in BRAKING without the set switch (R15). -/
def State.brakeSetDue (s : State) (i : AxisId) : Bool :=
  decide ((s.axis i).state = .braking) && !(s.axisIn i).setSwitch
    && passed s.now (s.axis i).brakeTimer 800

/-- BRAKE_SET_TIMEOUT (R15). -/
def execBrakeSetTimeout (i : AxisId) (s : State) : Host.Outcome State Fault Refusal :=
  occur s (s.brakeSetDue i) fun s => s.faultAxis i .brakeSet

/-- The idle-brake timer has passed the axis's idle time (R19). -/
def State.idleDue (s : State) (i : AxisId) : Bool :=
  decide ((s.axis i).state = .holding)
    && passed s.now (s.axis i).idleTimer ((s.axis i).record.idle * 1000)

/-- IDLE_BRAKE_EXPIRY (R19). -/
def execIdleBrakeExpiry (i : AxisId) (s : State) : Host.Outcome State Fault Refusal :=
  occur s (s.idleDue i) fun s => s.stopAxis i .idle .braked

/-! ### Encoders (R20, R21) -/

/-- The disagreement timer has passed 1 s (R20). -/
def State.disagreementDue (s : State) (i : AxisId) : Bool :=
  (s.axis i).disagree (s.axisIn i) && passed s.now (s.axis i).disagreeTimer 1000
    && faultTakes (s.axis i).state .encoder

/-- ENCODER_DISAGREEMENT_FAULT (R20). -/
def execEncoderDisagreementFault (i : AxisId) (s : State) : Host.Outcome State Fault Refusal :=
  occur s (s.disagreementDue i) fun s => s.faultAxis i .encoder

/-- Set or clear an encoder's own-fault report. -/
def AxisInputs.setReport (io : AxisInputs) (e : Enc) (b : Bool) : AxisInputs :=
  match e with
  | .a => { io with reportA := b }
  | .b => { io with reportB := b }

/-- The active encoder has reported its own fault (R21): the other one takes over, or the axis faults. -/
def State.activeReported (s : State) (i : AxisId) : State :=
  if (s.axis i).healthy (s.axisIn i) (s.axis i).active.other then
    s.modAxis i fun x => { x with active := x.active.other }
  else s.faultAxis i .encoder

/-- ENCODER_FAULT_REPORT (R20, R21). -/
def execEncoderFaultReport (i : AxisId) (e : Enc) (s : State) : Host.Outcome State Fault Refusal :=
  occur s true fun s =>
    let t := (s.modAxisIn i fun io => AxisInputs.setReport io e true).runFieldTimers i.ant
    let t := t.modAxis i fun x => x.markActed e
    if (t.axis i).active = e then t.activeReported i else t

/-- ENCODER_REPORT_CLEARED (R20, R21). -/
def execEncoderReportCleared (i : AxisId) (e : Enc) (s : State) : Host.Outcome State Fault Refusal :=
  occur s true fun s => (s.modAxisIn i fun io => AxisInputs.setReport io e false).runFieldTimers i.ant

/-! ### Following, limits and amplifiers (R24, R25) -/

/-- The following timer has passed 2 s (R24). -/
def State.followingDue (s : State) (i : AxisId) : Bool :=
  (s.axis i).state.followChecked && passed s.now (s.axis i).followTimer 2000

/-- FOLLOWING_FAULT (R24). -/
def execFollowingFault (i : AxisId) (s : State) : Host.Outcome State Fault Refusal :=
  occur s (s.followingDue i) fun s => s.faultAxis i .following

/-- Trip a hard limit switch. -/
def AxisInputs.tripLimit (io : AxisInputs) (highEnd : Bool) : AxisInputs :=
  if highEnd then { io with limitHigh := true } else { io with limitLow := true }

/-- LIMIT_SWITCH_TRIPPED (R25): a fault in any state. -/
def execLimitSwitchTripped (i : AxisId) (highEnd : Bool) (s : State) :
    Host.Outcome State Fault Refusal :=
  occur s true fun s => (s.modAxisIn i fun io => AxisInputs.tripLimit io highEnd).faultAxis i .limit

/-- The amplifier reports a fault. -/
def AxisInputs.failAmplifier (io : AxisInputs) : AxisInputs := { io with ampFault := true }

/-- AMPLIFIER_FAULT (R25): a fault while the amplifier is enabled. -/
def execAmplifierFault (i : AxisId) (s : State) : Host.Outcome State Fault Refusal :=
  occur s true fun s =>
    let t := s.modAxisIn i AxisInputs.failAmplifier
    if (t.axis i).amplifier then t.faultAxis i .amplifier else t

end Sys2Proof.Machine
end

