-- ==== Sys2Proof/Machine/Operands.lean ====
section
/-! DEFINITION. The operand forms of the requests: the arguments a request names, checked against their
ranges, and the clamping of figures (R8, R30, R122, R140, R159, R190). -/

namespace Sys2Proof.Machine

/-- An antenna argument outside 0..5 is refused RANGE (log 12). -/
def withAnt (s : State) (n : Nat) (go : Ant → Answer) : Answer :=
  match Ant.ofNat? n with
  | some a => go a
  | none => refuse s .range

/-- A coded argument outside its list is refused RANGE (R209, log 12). -/
def withCode {α : Type} (s : State) (c : Option α) (go : α → Answer) : Answer :=
  match c with
  | some v => go v
  | none => refuse s .range

/-- An axis argument: antenna and axis. -/
def withAxis (s : State) (n : Nat) (ax : Option AxisName) (go : AxisId → Answer) : Answer :=
  withAnt s n fun a => withCode s ax fun x => go ⟨a, x⟩

/-- A group id outside 0..3 is refused RANGE (R73, R77, R89, R90). -/
def withGroup (s : State) (n : Nat) (go : GroupId → Answer) : Answer :=
  match GroupId.ofNat? n with
  | some g => go g
  | none => refuse s .range

/-- A slot outside 0..23 is refused RANGE (R98). -/
def withSlot (s : State) (n : Nat) (go : Nat → Answer) : Answer :=
  if n < 24 then go n else refuse s .range

/-- A check: where it fails the request is refused with the code. -/
def check (s : State) (pass : Bool) (c : Status) (go : Answer) : Answer :=
  if pass then go else refuse s c

/-! ### Clamping (R190) -/

/-- The hardware ranges of an axis: greatest Vmax and Amax, and the soft limit range (R30). -/
def hardware : AxisName → Nat × Nat × Mdeg × Mdeg
  | .az => (3000, 2000, -270000, 270000)
  | .el => (1500, 1000, 2000, 90500)

/-- The AXIS figures set into their ranges (R8, R30). -/
def AxisFigures.clamp (f : AxisFigures) (ax : AxisName) : AxisRecord :=
  { vmax := clampNat 1 (hardware ax).1 f.vmax
    amax := clampNat 1 (hardware ax).2.1 f.amax
    softLow := clampInt (hardware ax).2.2.1 (hardware ax).2.2.2 f.softLow
    softHigh := clampInt (hardware ax).2.2.1 (hardware ax).2.2.2 f.softHigh
    hold := clampNat 0 3000 f.hold
    coeff := clampNat 0 5000 f.coeff
    followLimit := clampNat 50 5000 f.followLimit
    idle := clampNat 10 600 f.idle }

/-- The figures of an AXIS record as a request would carry them. -/
def AxisRecord.figures (r : AxisRecord) : AxisFigures :=
  ⟨r.vmax, r.amax, r.softLow, r.softHigh, r.hold, r.coeff, r.followLimit, r.idle⟩

/-- The STATION figures set into their ranges (R157, R159); the default verdict is not carried (R184). -/
def StationFigures.clamp (f : StationFigures) (v : Verdict) : StationRecord :=
  ⟨clampNat 5000 120000 f.limit, clampNat 0 10000 f.base, clampNat 10 120 f.period,
    clampNat 0 1500 f.allowance, v⟩

/-- The STATION figures as a request would carry them. -/
def StationRecord.figures (r : StationRecord) : StationFigures :=
  ⟨r.limit, r.base, r.period, r.allowance⟩

/-- The greatest rated power of a zone class (R139). -/
def ratedMax : ZoneClass → Nat
  | .pin => 300 | .gear => 1500 | .surface => 6000

/-- The four frame lengths (R139). -/
def frameAllowed (n : Nat) : Bool :=
  decide (n = 16) || decide (n = 32) || decide (n = 64) || decide (n = 256)

/-- The ZONE figures set into their ranges (R140); the frame length is not clamped. -/
def ZoneFigures.clamp (f : ZoneFigures) (cls : ZoneClass) : ZoneFigures :=
  { f with rated := clampInt 0 (ratedMax cls) f.rated
           idle := clampInt (-400) 400 f.idle
           melt := clampInt (-400) 400 f.melt
           band := clampInt 10 400 f.band }

/-- A threshold pair set into its range (R122). -/
def Pair.clamp (p : Pair) : Pair := ⟨clampInt 50 800 p.mean, clampInt 50 800 p.gust⟩

/-- The WIND figures set into their ranges (R122). -/
def WindFigures.clamp (f : WindFigures) : WindFigures :=
  { f with breezy := Pair.clamp f.breezy, strong := Pair.clamp f.strong, stow := Pair.clamp f.stow
           holdDown := clampInt 300 3600 f.holdDown, silence := clampInt 10 120 f.silence
           elevation := clampInt 85000 90000 f.elevation }

/-- The four rise filters (R122). -/
def filterAllowed (n : Nat) : Bool :=
  decide (n = 1) || decide (n = 2) || decide (n = 4) || decide (n = 8)

/-- A threshold pair does not decrease to the next (R122). -/
def pairRises (p q : Pair) : Bool := decide (p.mean ≤ q.mean) && decide (p.gust ≤ q.gust)

/-- The stow order an argument spells, if it is a permutation of the antennas (R122). -/
def stowOrder (ns : List Nat) : Option (List Ant) :=
  let order := ns.filterMap Ant.ofNat?
  if ns.length = 6 ∧ Ant.all.all (fun a => order.contains a) = true then some order else none

/-- The WIND record of clamped figures with an order (R122). -/
def WindFigures.record (f : WindFigures) (order : List Ant) : WindRecord :=
  ⟨f.breezy, f.strong, f.stow, f.filter, f.holdDown.toNat, f.silence.toNat, order, f.elevation⟩

/-- The WIND record a write gives, if no check refuses it RANGE (R122). -/
def WindFigures.accepted (f : WindFigures) : Option WindRecord :=
  let g := WindFigures.clamp f
  if filterAllowed g.filter && pairRises g.breezy g.strong && pairRises g.strong g.stow then
    (stowOrder g.order).map (WindFigures.record g)
  else none

end Sys2Proof.Machine
end

