-- ==== Sys2Proof/Machine/PermitOps.lean ====
section
/-! DEFINITION. The Permit Engine: properties (R177), one test (R178, R179), the scan over chains (R180) and
the verdict with its counts (R181). -/

namespace Sys2Proof.Machine

/-- The kinds put to the table (R176). -/
inductive PermitKind where
  | plan | burst | jog | localClaim | heatSet
deriving DecidableEq, Repr

/-- The number of a kind (R177). -/
def PermitKind.num : PermitKind → Nat
  | .plan => 0 | .burst => 1 | .jog => 2 | .localClaim => 3 | .heatSet => 4

/-- What an evaluation sees of a request (R177). -/
structure Subject where
  (pendant : Bool) (kind : PermitKind) (ant : Ant) (az el : Option Mdeg)
deriving DecidableEq, Repr

/-- The number of lockout entries whose antenna is this one or STATION (R177). -/
def State.lockCount (s : State) (a : Ant) : Nat :=
  (s.locks.entries.filter fun e => e.reaches a).length

/-- The value of a property, absent as R177 says. -/
def State.property (s : State) (q : Subject) : Property → Option Int
  | .setMask => some 0
  | .source => some (if q.pendant then 1 else 0)
  | .kind => some q.kind.num
  | .antenna => some q.ant.num
  | .windClass => some s.wind.cls.num
  | .iceClass => some (iceSteps (s.iceClass q.ant))
  | .targetAz => q.az
  | .targetEl => q.el
  | .hour => if s.clock.synced then some (s.now / 3600000 % 24) else none
  | .lockCount => some (s.lockCount q.ant)

/-- The signed properties (R177). -/
def Property.isSigned : Property → Bool
  | .targetAz => true
  | .targetEl => true
  | _ => false

/-- A value against a property that is at or above it, or not (R178). -/
def atOrAbove (signedProperty : Bool) (p v : BitVec 32) : Bool :=
  if signedProperty then decide (v.toInt ≤ p.toInt) else decide (v.toNat ≤ p.toNat)

/-- One compare under a mask (R178). -/
def Compare.holds (c : Compare) (signedProperty : Bool) (p v mask : BitVec 32) : Bool :=
  match c with
  | .eq => decide (p &&& mask = v &&& mask)
  | .ne => decide (p &&& mask ≠ v &&& mask)
  | .ge => atOrAbove signedProperty p v
  | .lt => !atOrAbove signedProperty p v

/-- Test an in-use entry: the mask after it where it matches (R178, R179). -/
def State.testEntry (s : State) (q : Subject) (e : PermitEntry) (mask : BitVec 32) :
    Option (BitVec 32) :=
  if e.property = .setMask then some e.value
  else
    match s.property q e.property with
    | none => none
    | some p =>
      if e.compare.holds e.property.isSigned (BitVec.ofInt 32 p) e.value mask then some mask
      else none

/-- The mask at the start of every chain (R180). -/
def fullMask : BitVec 32 := BitVec.allOnes 32

/-- An in-use entry goes on to a next entry of its chain (R180). -/
def chained (e : PermitEntry) (rest : List PermitEntry) : Bool :=
  e.andFlag && rest.any PermitEntry.inUse

/-- Scan the entries from an index (R180). `skip` holds within a chain that has failed. Answers the index
of the last entry of the first chain that matches, with its verdict. -/
def State.scan (s : State) (q : Subject) : List PermitEntry → Nat → BitVec 32 → Bool →
    Option (Nat × Verdict)
  | [], _, _, _ => none
  | e :: rest, n, mask, skip =>
    if e.inUse = false then s.scan q rest (n + 1) mask skip
    else if skip then s.scan q rest (n + 1) fullMask e.andFlag
    else
      match s.testEntry q e mask with
      | none => s.scan q rest (n + 1) fullMask e.andFlag
      | some m => if chained e rest then s.scan q rest (n + 1) m false else some (n, e.verdict)

/-- The default verdict in use (R175). -/
def Permits.defaultInUse (p : Permits) : Verdict :=
  if p.lost.isEmpty then p.default_ else .refuse

/-- The verdict on a request, with the index of the chain's last entry, or none for the default
(R181). -/
def State.verdict (s : State) (q : Subject) : Verdict × Option Nat :=
  match s.scan q s.permits.entries 0 fullMask false with
  | some (n, v) => (v, some n)
  | none => (s.permits.defaultInUse, none)

/-- Count a refusal at an entry, or at the default (R181). -/
def State.countRefusal (s : State) (n : Option Nat) : State :=
  match n with
  | some k =>
    { s with permits := { s.permits with entries := modAt s.permits.entries k fun e =>
        { e with refusals := satAdd 65535 e.refusals 1 } } }
  | none =>
    { s with permits :=
        { s.permits with defaultRefusals := satAdd 65535 s.permits.defaultRefusals 1 } }

/-- The answer to a request the table refuses (R181, R182). -/
def State.permitRefused (s : State) (member : Option Ant) (n : Option Nat) : Answer :=
  ⟨.permit, .permitRefusal member n (n.isNone && !s.permits.lost.isEmpty), s.countRefusal n⟩

/-- Put a request to the table; it goes on where it is allowed (R176, R181). -/
def State.permitted (s : State) (q : Subject) (member : Option Ant) (go : State → Answer) : Answer :=
  match s.verdict q with
  | (.allow, _) => go s
  | (.refuse, n) => s.permitRefused member n

end Sys2Proof.Machine
end

