-- ==== Sys2Proof/Machine/Views.lean ====
section
/-! DEFINITION. What STATUS_READ and GROUP_READ show (R29, R70, R90, R101, R138, R156, R174, R185, R191,
R206), and the parts of a long content (R208). -/

namespace Sys2Proof.Machine

/-- One axis as STATUS_READ(ANTENNA) shows it (R29). -/
def State.axisView (s : State) (i : AxisId) : AxisView :=
  let x := s.axis i
  let io := s.axisIn i
  { state := x.state, position := x.position, velocity := x.velocity
    encA := io.encA, encB := io.encB, reportA := io.reportA, reportB := io.reportB
    enabledA := x.enabledA, enabledB := x.enabledB, active := x.active
    followingError := x.followingError, amplifier := x.amplifier, released := x.released
    setSwitch := io.setSwitch, releasedSwitch := io.releasedSwitch
    releaseCheck := x.releaseCheck.isSome, claims := x.claims
    stopReason :=
      match x.stop with
      | some r => some r.reason
      | none => if x.state = .braking then x.pendingStop.bind PendingStop.reason else none
    stopTarget :=
      match x.stop with
      | some r => some r.target
      | none => if x.state = .braking then x.pendingStop.map PendingStop.target else none
    cover := x.cover }

/-- STATUS_READ(ANTENNA) (R29). -/
def State.antennaView (s : State) (a : Ant) : AntennaView :=
  let v := s.ants.get a
  { bus := v.bus, reading := (s.field.ants.get a).bus, enable := v.enable, ready := v.ready
    configInvalid := v.configInvalid, axes := ⟨s.axisView ⟨a, .az⟩, s.axisView ⟨a, .el⟩⟩ }

/-- A track status record as a reply carries it (R49). -/
def Track.record (t : Track) : TrackRecord :=
  ⟨t.run, t.halted, t.haltReason, t.firstAbandoned, t.abandoned, t.underruns, t.done,
    t.pauseReported⟩

/-- The segments of a queue in a state. -/
def Track.inState (t : Track) (st : SegState) : List Segment :=
  t.segments.filter fun g => decide (g.state = st)

/-- The burst channel as STATUS_READ(TRACK) shows it (R70). -/
def State.burstView (s : State) : BurstView :=
  { ant := s.burst.ant, received := s.burst.received, staged := s.burst.staged
    firstError := s.burst.firstError
    timeLeft := s.burst.lastFrame.map fun e => e + 5000 - s.now
    termination := s.burst.termination }

/-- STATUS_READ(TRACK) (R70). -/
def State.trackView (s : State) (a : Ant) : TrackView :=
  let t := s.track a
  { record := t.record
    staged := (t.inState .staged).length
    queued := (t.inState .queued).length
    active := (t.inState .active).length
    free := t.free
    activeSegment := (t.inState .active).head?.map fun g => (g, s.now - g.start)
    firstQueued := (t.inState .queued).head?.map Segment.start
    lastQueuedEnd := (t.inState .queued).getLast?.map Segment.finish
    burst := s.burstView }

/-- One slot of STATUS_READ(GROUP) (R90). -/
def Group.view (g : Group) : GroupView := ⟨g.state, g.ants, g.held, g.demand⟩

/-- STATUS_READ(GROUP) (R90). -/
def State.groupsView (s : State) : Four GroupView := s.groups.map fun _ g => g.view

/-- A lockout entry as read (R92, R209). -/
def State.entryView (s : State) (n : Nat) (e : LockEntry) : EntryView :=
  ⟨n, e, s.entryEffective e, s.store.mark (.lockout n)⟩

/-- The entries in list order, oldest first (R92). -/
def State.listedEntries (s : State) : List EntryView :=
  s.locks.order.filterMap fun n => (s.locks.slot n).map (s.entryView n)

/-- The silence time of a link (R192). -/
def State.silenceTime (s : State) (l : Link) : Option Int := ranFor s.now (s.link l).silence

/-- Authority, jog record and pendant silence time of an antenna (R101). -/
def State.authorityView (s : State) (a : Ant) : AuthorityView :=
  ⟨a, s.locks.authority.get a, s.silenceTime (.pendant a)⟩

/-- STATUS_READ(LOCKOUTS): whole from Operations and Safety, an antenna's part from its pendant (R101). -/
def State.lockView (s : State) (l : Link) : LockView :=
  match l with
  | .pendant n =>
    { entries := s.listedEntries.filter fun v => v.entry.reaches n
      emptySlots := none, authorities := [s.authorityView n] }
  | _ =>
    { entries := s.listedEntries
      emptySlots := some (s.locks.slots.filter Option.isNone).length
      authorities := Ant.all.map s.authorityView }

/-- STATUS_READ(WIND): from a pendant, the station figures and its antenna's stow record only (R138). DESIGN CHOICE
(log 49): neither the wave record nor the derated figures of the axes are among the station figures. -/
def State.windView (s : State) (l : Link) : WindView :=
  let whole := match l with
    | .pendant _ => false
    | _ => true
  { wind := s.wind, mean := s.wind.mean, gust := s.wind.gust, thresholds := s.wind.inForce
    active := s.wind.active, windSource := decide (s.wind.cls = .stow)
    safetySilence := s.silenceTime .safety
    stow := match l with
      | .pendant n => [(n, s.stowOf n)]
      | _ => Ant.all.map fun a => (a, s.stowOf a)
    wave := if whole then s.stow.wave else none
    derated := if whole then AxisId.all.map fun i => (i, s.limitV i, s.limitA i) else [] }

/-- One zone of STATUS_READ(HEAT) (R156). -/
def State.zoneView (s : State) (z : ZoneId) : ZoneView :=
  ⟨z, s.zone z, s.lockCap z, s.ceiling z, (s.zone z).committed⟩

/-- The ice figures of an antenna in STATUS_READ(HEAT) (R156). -/
def State.iceView (s : State) (a : Ant) : IceView :=
  let i := s.ice a
  ⟨a, s.iceClass a, i.tracked, i.floor, ranFor s.now i.wetTimer, ranFor s.now i.freezeTimer,
    ranFor s.now i.thawTimer⟩

/-- The station's figures of STATUS_READ(HEAT) (R156). -/
def State.heatStation (s : State) : HeatStation :=
  { ice := s.stationIce
    age := s.heat.weather.map fun w => s.now - w.epoch
    tempInUse := s.heat.weather.map Weather.temp
    precipInUse := s.precipInUse
    committed := s.committed }

/-- STATUS_READ(HEAT): whole from Operations and Safety; from a pendant its antenna's zones and ice figures,
with the weather record (R156). -/
def State.heatView (s : State) : Link → HeatView
  | .pendant n => ⟨n.zones.map s.zoneView, [s.iceView n], s.heat.weather, none⟩
  | _ => ⟨ZoneId.all.map s.zoneView, Ant.all.map s.iceView, s.heat.weather, some s.heatStation⟩

/-- STATUS_READ(BUDGET) (R174). -/
def State.budgetView (s : State) : BudgetView :=
  { limit := s.feed.limit, base := s.feed.base, period := s.feed.period
    allowance := s.feed.allowance, load := s.load, free := s.freeRoom, reserved := s.reserved
    axes := AxisId.all.map fun i => (i, (s.axis i).cover, s.standing i)
    groups := s.feed.groups, waves := s.feed.waves, committed := s.committed
    queue := s.feed.queue.map fun n => (n, n.joined + 10000 - s.now)
    shed := s.feed.shed, cursor := s.feed.cursor, needed := s.shedNeeded }

/-- STATUS_READ(STORE) (R206). -/
def State.storeView (s : State) : StoreView :=
  { supplyGood := s.field.supplyGood, writing := s.store.writing.map Writing.record
    queue := s.store.queue, overflow := s.store.overflow
    headWait := ranFor s.now s.store.headWait, bad := s.store.bad
    marks := RecordId.all.map fun r => (r, s.store.mark r), nextCreation := s.store.nextCreation }

/-- The persisted flags of the permit entries (R199). -/
def State.permitMarks (s : State) : List Bool := s.store.permits.map Stored.mark

/-- STATUS_READ(PERMIT) (R185). -/
def State.permitView (s : State) : PermitView := ⟨s.permits, s.permitMarks, s.permits.defaultInUse⟩

/-! ### Parts (R191, R208) -/

/-- The place of a selector in R191's table. -/
def selectorPlace : Selector → Nat
  | .antenna => 0 | .track => 1 | .group => 2 | .lockouts => 3 | .wind => 4 | .heat => 5
  | .budget => 6 | .store => 7 | .permit => 8

/-- The permit entries as read, from an index on, with their persisted flags (R209). -/
def permitBytes : Nat → List PermitEntry → List Bool → List Byte
  | n, e :: rest, marks => e.bytes n (marks.headD false) ++ permitBytes (n + 1) rest marks.tail
  | _, [], _ => []

/-- The bytes of a content whose layout R209 gives: entries as read. -/
def Content.bytes : Content → List Byte
  | .lockouts v => v.entries.flatMap EntryView.bytes
  | .permit v => permitBytes 0 v.permits.entries v.persisted
  | _ => []

/-- The bytes of a STATUS_READ content (R208): the link's own figures, the records of known layout, and a FREE
VALUE for the rest, whose layout the spec does not give (log 5). -/
def State.contentBytes (s : State) (l : Link) (sel : Selector) (c : Content) : List Byte :=
  (s.link l).figures.bytes ++ c.bytes ++ Config.statusRestBytes (selectorPlace sel) s.freeCount

/-- The free-value counter moves on. -/
def State.useFree (s : State) : State := { s with freeCount := s.freeCount + 1 }

/-- The answer to a STATUS_READ (R191, R208): a part at or above the part count is refused RANGE with the
part count. -/
def State.show (s : State) (l : Link) (sel : Selector) (part : Nat) (c : Content) : Answer :=
  let data := s.contentBytes l sel c
  let count := partCount data.length
  if count ≤ part then refuseWith s.useFree .range (.partCount part count)
  else okWith (.status part count (partOf data part) (s.link l).figures c) s.useFree

/-- A STATUS_READ with a selector open to its link (R189, R191). -/
def statusRead (l : Link) (tag : Byte) (sel : Selector) (part : Nat) (s : State)
    (content : State → Content) : Host.Outcome State Fault Refusal :=
  serve l .statusRead tag s (fun s =>
    if selectorOpenTo sel l then s.show l sel part (content s) else refuse s .badKind)
    (fits := statusReadFits sel none part)

/-- The antenna that the body of a STATUS_READ names: a pendant's argument is ignored (R191). -/
def readAnt (l : Link) (ant : Nat) : Option Nat :=
  match l with
  | .pendant _ => none
  | _ => some ant

/-- A STATUS_READ of one antenna: named by Operations and Safety, a pendant's own (R191). -/
def statusReadOf (l : Link) (tag : Byte) (sel : Selector) (ant part : Nat) (s : State)
    (content : State → Ant → Content) : Host.Outcome State Fault Refusal :=
  serve l .statusRead tag s (fun s =>
    if selectorOpenTo sel l then
      match l with
      | .pendant n => s.show l sel part (content s n)
      | _ => withAnt s ant fun a => s.show l sel part (content s a)
    else refuse s .badKind)
    (fits := statusReadFits sel (readAnt l ant) part)

end Sys2Proof.Machine
end

