-- ==== Sys2Proof/Machine/AxisRequests.lean ====
section
/-! DEFINITION. The meanings of the axis requests: AXIS_ENABLE, DRIVE_RESET, the encoder requests and
CONFIG_WRITE(AXIS) (chapter 1). -/

namespace Sys2Proof.Machine

/-! ### AXIS_ENABLE (R11) -/

/-- AXIS_ENABLE(antenna, ON) (R11): an ENABLE. -/
def execAxisEnableOn (tag : Byte) (ant : Nat) (s : State) : Host.Outcome State Fault Refusal :=
  request .operations .axisEnable tag s fun s =>
    withAnt s ant fun a =>
      check s (s.remote a) .local_
      (check s (!(s.ants.get a).configInvalid) .config
      (check s (!s.covered a || decide ((s.ants.get a).bus = .up)) .lockout
      (check s (!s.anyFaulted a) .badState
      (okWith .empty (s.enableBus a)))))

/-- AXIS_ENABLE(antenna, HOLD) (R11): the claim OPERATIONS on both axes. -/
def execAxisEnableHold (tag : Byte) (ant : Nat) (s : State) : Host.Outcome State Fault Refusal :=
  request .operations .axisEnable tag s fun s =>
    withAnt s ant fun a =>
      check s (s.remote a) .local_
      (check s (!(s.ants.get a).configInvalid) .config
      (check s (!s.covered a) .lockout
      (check s (!s.anyFaulted a) .badState
      (okWith .empty (forEach a.axes (fun s i => s.addClaim i .operations) s)))))

/-- What a taken AXIS_ENABLE(OFF) does by the bus: the disable of R9 in precharge, the disable sequence of
R12 with the bus UP. -/
def State.disable (s : State) (a : Ant) : State :=
  match (s.ants.get a).bus with
  | .off => s
  | .precharge =>
    forEach a.axes (fun s i =>
      if (s.axis i).state = .precharge then (s.clearClaims i).enterAxis i .off else s)
      (s.modAnt a Antenna.busOff)
  | .up => (s.modAnt a fun v => { v with enable := false }).stopBoth a .disable .off

/-- The queue holds no QUEUED or ACTIVE segment and no burst is open for the antenna. -/
def State.trackIdle (s : State) (a : Ant) : Bool :=
  (s.track a).empty && decide (s.burst.ant ≠ some a)

/-- AXIS_ENABLE(antenna, OFF) (R11, R12). -/
def execAxisEnableOff (tag : Byte) (ant : Nat) (s : State) : Host.Outcome State Fault Refusal :=
  request .operations .axisEnable tag s fun s =>
    withAnt s ant fun a =>
      check s (s.remote a) .local_
      (check s (decide ((s.stowOf a).state = .unstowed)) .stowing
      (check s (!s.bound a) .group
      (check s (s.trackIdle a) .busy
      (okWith .empty (s.disable a)))))

/-! ### DRIVE_RESET (R27) -/

/-- A cause is present (R25, last column). -/
def State.causePresent (s : State) (i : AxisId) (c : FaultCause) : Bool :=
  let x := s.axis i
  let io := s.axisIn i
  let v := s.ants.get i.ant
  match c with
  | .following => false
  | .encoder => (!x.healthy io x.active && !x.healthy io x.active.other) || x.disagree io
  | .limit => io.limitLow || io.limitHigh
  | .amplifier => io.ampFault
  | .precharge => decide (v.bus = .up) && v.outOfBand
  | .brakeRelease => !io.setSwitch
  | .brakeSet => !io.setSwitch

/-- The causes in the row order of R25. -/
def FaultCause.rows : List FaultCause :=
  [.following, .encoder, .limit, .amplifier, .precharge, .brakeRelease, .brakeSet]

/-- The present cause that comes first in the table's row order (R27). -/
def State.firstCause (s : State) (i : AxisId) : Option FaultCause :=
  FaultCause.rows.find? (s.causePresent i)

/-- An axis that leaves FAULTED on an unhealthy active encoder takes the other, if that is healthy
(R27). -/
def Axis.pickEncoder (x : Axis) (io : AxisInputs) : Axis :=
  if !x.healthy io x.active && x.healthy io x.active.other then
    { x with active := x.active.other }
  else x

/-- The reset of one axis (R27). -/
def State.resetAxis (s : State) (i : AxisId) : State :=
  if (s.axis i).state.isFaulted then
    match s.firstCause i with
    | some c => s.enterAxis i (.faulted c)
    | none =>
      (s.enterAxis i (if (s.ants.get i.ant).bus = .up then .braked else .off)).modAxis i fun x =>
        x.pickEncoder (s.axisIn i)
  else s

/-- The axes of an antenna that are FAULTED, each with its cause. -/
def State.faultList (s : State) (a : Ant) : List (AxisId × FaultCause) :=
  a.axes.filterMap fun i => (s.axis i).state.cause.map fun c => (i, c)

/-- The DRIVE_RESET of an antenna, with what it means to a DRIVE_FAILED stow (R27, R127). -/
def State.resetDrives (s : State) (a : Ant) : State :=
  let t := forEach a.axes (fun s i => s.resetAxis i) s
  if t.wind.active then t.redrive a else t

/-- DRIVE_RESET(antenna) (R27): BAD_STATE, with effect, where an axis stays FAULTED (R190). -/
def execDriveReset (tag : Byte) (ant : Nat) (s : State) : Host.Outcome State Fault Refusal :=
  request .operations .driveReset tag s fun s =>
    withAnt s ant fun a =>
      let t := s.resetDrives a
      ⟨if (t.faultList a).isEmpty then .ok else .badState, .faults (t.faultList a), t⟩

/-! ### Encoders (R22, R23) -/

/-- ENCODER_SELECT(antenna, axis, encoder) (R22). -/
def execEncoderSelect (tag : Byte) (ant : Nat) (ax : Option AxisName) (enc : Option Enc) (s : State) :
    Host.Outcome State Fault Refusal :=
  serve .operations .encoderSelect tag s fun s =>
    withAxis s ant ax fun i => withCode s enc fun e =>
      check s (decide ((s.axis i).state = .braked) || (s.axis i).ready) .badState
      (check s ((s.axis i).healthy (s.axisIn i) e) .encoder
      (okWith .empty (s.modAxis i fun x => { x with active := e })))

/-- Set an encoder's enabled item. -/
def Axis.setEnabled (x : Axis) (e : Enc) (b : Bool) : Axis :=
  match e with
  | .a => { x with enabledA := b }
  | .b => { x with enabledB := b }

/-- ENCODER_DISABLE(antenna, axis, encoder, DISABLE) (R23). -/
def execEncoderDisable (tag : Byte) (ant : Nat) (ax : Option AxisName) (enc : Option Enc) (s : State) :
    Host.Outcome State Fault Refusal :=
  serve .operations .encoderDisable tag s fun s =>
    withAxis s ant ax fun i => withCode s enc fun e =>
      check s (decide ((s.axis i).active ≠ e)) .active
      (okWith .empty ((s.modAxis i fun x => x.setEnabled e false).runFieldTimers i.ant))

/-- ENCODER_DISABLE(antenna, axis, encoder, RESTORE) (R23). -/
def execEncoderRestore (tag : Byte) (ant : Nat) (ax : Option AxisName) (enc : Option Enc) (s : State) :
    Host.Outcome State Fault Refusal :=
  serve .operations .encoderDisable tag s fun s =>
    withAxis s ant ax fun i => withCode s enc fun e =>
      okWith .empty ((s.modAxis i fun x => x.setEnabled e true).runFieldTimers i.ant)

/-! ### CONFIG_WRITE(AXIS) (R8, R30) -/

/-- Both AXIS records written since power-on clear the configuration-invalid mark (R8). -/
def Antenna.validate (v : Antenna) : Antenna :=
  if v.axes.az.recordWritten && v.axes.el.recordWritten then { v with configInvalid := false } else v

/-- Take an AXIS record (R8). -/
def State.writeAxis (s : State) (i : AxisId) (r : AxisRecord) : State :=
  ((s.modAxis i fun x => { x with record := r, recordWritten := true }).modAnt i.ant
    Antenna.validate).queueWrite (.axis i)

/-- CONFIG_WRITE(AXIS) (R8, R30). -/
def execConfigWriteAxis (tag : Byte) (ant : Nat) (ax : Option AxisName) (f : AxisFigures) (s : State) :
    Host.Outcome State Fault Refusal :=
  serve .operations .configWrite tag s (fun s =>
    withAxis s ant ax fun i =>
      let r := AxisFigures.clamp f i.ax
      check s (s.axis i).state.down .badState
      (check s (decide (r.softLow < r.softHigh)) .range
      (check s (!s.store.refuses (.axis i)) .full
      (okOrClamped (decide (r.figures ≠ f)) (.axisRecord r) (s.writeAxis i r)))))
    (fits := configFits .axis)

end Sys2Proof.Machine
end

