-- ==== Sys2Proof/Machine/Budget.lean ====
section
/-! DEFINITION. The meanings of the Feed Arbiter's rows: CONFIG_WRITE(STATION) (R159), the grant queue
timeout (R166), and the shed's checks, expiry and restoration (R171, R172). -/

namespace Sys2Proof.Machine

/-! ### CONFIG_WRITE(STATION) (R159) -/

/-- The books fit new figures: the new Bs, the drive grants and the heaters within the new F (R159). -/
def State.booksFit (s : State) (r : StationRecord) : Bool :=
  decide (r.base + s.driveGrants + s.committed ≤ r.limit)

/-- The four feed figures of a STATION record (R157). -/
def Feed.configure (f : Feed) (r : StationRecord) : Feed :=
  { f with limit := r.limit, base := r.base, period := r.period, allowance := r.allowance }

/-- Take a STATION record (R159). -/
def State.writeStation (s : State) (r : StationRecord) : State :=
  let t := (s.modFeed fun f => f.configure r).queueWrite .station
  (t.markFreedIf (decide (s.freeRoom < t.freeRoom))).raise (stationFlag .budget)

/-- CONFIG_WRITE(STATION) (R159, R184). -/
def execConfigWriteStation (tag : Byte) (f : StationFigures) (s : State) :
    Host.Outcome State Fault Refusal :=
  request .operations .configWrite tag s (fun s =>
    let r := StationFigures.clamp f s.permits.default_
    if s.booksFit r then
      check s (!s.store.refuses .station) .full
        (okOrClamped (decide (r.figures ≠ f)) (.stationRecord r) (s.writeStation r))
    else refuseWith s .budget (.load s.load r.limit))
    (fits := configFits .station)

/-! ### The grant queue (R166) -/

/-- The entry of an axis whose 10 s have passed (R166). -/
def State.needOver (s : State) (i : AxisId) : Option Need :=
  s.feed.queue.find? fun n => decide (n.axis = i) && decide (n.joined + 10000 ≤ s.now)

/-- GRANT_QUEUE_TIMEOUT (R166). -/
def execGrantQueueTimeout (i : AxisId) (s : State) : Host.Outcome State Fault Refusal :=
  occur s (s.needOver i).isSome fun s =>
    match s.needOver i with
    | none => s
    | some n => (s.withdraw i).needLost n

/-! ### The shed period (R171, R172) -/

/-- The half-check epoch of an active shed has come (R171). -/
def State.halfDue (s : State) : Bool := s.feed.shed.active && passed s.now s.feed.shed.half 0

/-- A shed still needed is renewed; else the half-check epoch becomes absent (R171). -/
def Shed.halfChecked (r : Shed) (needed : Bool) (now : Epoch) (period : Nat) : Shed :=
  if needed then
    { r with expiry := some (now + period * 1000), half := some (now + period * 500) }
  else { r with half := none }

/-- SHED_HALF_CHECK (R171). -/
def execShedHalfCheck (s : State) : Host.Outcome State Fault Refusal :=
  occurAlone s s.halfDue fun s =>
    s.modFeed fun f => { f with shed := f.shed.halfChecked s.shedNeeded s.now f.period }

/-- The zones of a restoration in walk order: each antenna's GEAR, then its SURFACE (R172). -/
def restorationOrder : List ZoneId := Ant.all.flatMap fun a => [⟨a, .gear⟩, ⟨a, .surface⟩]

/-- The zones after the cursor, or all of them where it is absent. -/
def afterCursor (cursor : Option ZoneId) : List ZoneId :=
  match cursor with
  | none => restorationOrder
  | some z => (restorationOrder.dropWhile fun y => decide (y ≠ z)).tail

/-- The next zone that holds a shed cap (R172). -/
def State.nextCapped (s : State) : Option ZoneId :=
  (afterCursor s.feed.cursor).find? fun z => (s.zone z).shedCap.isSome

/-- One step clears the next cap, or restoration ends (R172). -/
def State.restore (s : State) : State :=
  match s.nextCapped with
  | some z =>
    (s.modZone z fun v => { v with shedCap := none }).modFeed fun f =>
      { f with cursor := some z, lastStep := some s.now }
  | none =>
    (s.modFeed fun f =>
      { f with shed := { f.shed with classes := none, deep := false }, cursor := none
               lastStep := none }).raise (stationFlag .budget)

/-- The expiry epoch of an active shed has come (R172). -/
def State.shedOver (s : State) : Bool := s.feed.shed.active && passed s.now s.feed.shed.expiry 0

/-- SHED_EXPIRY (R172): the record becomes inactive, and the first restoration step is made. -/
def execShedExpiry (s : State) : Host.Outcome State Fault Refusal :=
  occurAlone s s.shedOver fun s =>
    ((s.modFeed fun f => { f with shed := { f.shed with active := false, expiry := none } }).raise
      (stationFlag .budget)).restore

/-- 5 s have passed after the last step of a restoration (R172). -/
def State.stepDue (s : State) : Bool :=
  !s.feed.shed.active && s.feed.shed.classes.isSome && passed s.now s.feed.lastStep 5000

/-- RESTORATION_STEP (R172). -/
def execRestorationStep (s : State) : Host.Outcome State Fault Refusal :=
  occurAlone s s.stepDue fun s => s.restore

end Sys2Proof.Machine
end

