-- ==== Sys2Proof/Machine/Groups.lean ====
section
/-! DEFINITION. The meanings of the joint slew group rows (chapter 4). -/

namespace Sys2Proof.Machine

/-! ### GROUP_PLAN (R73 to R75) -/

/-- A member of a plan: its antenna and its given targets (R73). -/
structure Proposed where
  (ant : Ant) (targets : PerAxis (Option Mdeg))
deriving DecidableEq, Repr

/-- A member argument whose antenna is 0..5. -/
def proposedOf (m : MemberArg) : Option Proposed :=
  (Ant.ofNat? m.ant).map fun a => ⟨a, ⟨m.azTarget, m.elTarget⟩⟩

/-- No antenna stands twice. -/
def distinctAnts : List Proposed → Bool
  | [] => true
  | m :: rest => (rest.all fun n => decide (n.ant ≠ m.ant)) && distinctAnts rest

/-- The member list of a plan (R73): 1..6 entries, each antenna 0..5, no antenna twice. -/
def proposedMembers (ms : List MemberArg) : Option (List Proposed) :=
  let ps := ms.filterMap proposedOf
  if ms ≠ [] ∧ ms.length ≤ 6 ∧ ps.length = ms.length ∧ distinctAnts ps = true then some ps else none

/-- The slot takes a plan: EMPTY, DONE, or HALTED with its grant not held (R73). -/
def Group.takesPlan (g : Group) : Bool :=
  match g.state with
  | .empty => true
  | .done => true
  | .halted => !g.held
  | _ => false

/-- The target of a member axis: its start position where none is given (R71). -/
def State.targetOf (s : State) (m : Proposed) (ax : AxisName) : Mdeg :=
  (m.targets.get ax).getD (s.axis ⟨m.ant, ax⟩).position

/-- A member axis has a distance to go (R71). -/
def State.movesIn (s : State) (m : Proposed) (ax : AxisName) : Bool :=
  decide (s.targetOf m ax ≠ (s.axis ⟨m.ant, ax⟩).position)

/-- The first axis of a member, AZ before EL, for which a per-axis check fails. -/
def firstAxis (fails : AxisName → Bool) : Option AxisName :=
  if fails .az then some .az else if fails .el then some .el else none

/-- A per-axis row: refused with the axis it names. -/
def axisRow (fails : AxisName → Bool) (c : Status) : Option (Status × Option AxisName) :=
  (firstAxis fails).map fun ax => (c, some ax)

/-- A row of the antenna: refused with no axis named. -/
def antRow (fails : Bool) (c : Status) : Option (Status × Option AxisName) :=
  if fails then some (c, none) else none

/-- A given target lies outside the soft limits in force (R74). -/
def State.targetOutside (s : State) (m : Proposed) (ax : AxisName) : Bool :=
  match m.targets.get ax with
  | none => false
  | some p =>
    let r := (s.axis ⟨m.ant, ax⟩).record
    decide (p < r.softLow) || decide (r.softHigh < p)

/-- The rows of R74 in order, for one member: each is the refusal it gives, or none. DESIGN CHOICE (log 54): the
LOCKOUT, rest-state and target rows are per axis and name the first axis that fails; the FAULTED row, like the rest,
names none. R74 does not say which rows are per axis. -/
def State.memberRows (s : State) (m : Proposed) : List (Option (Status × Option AxisName)) :=
  [antRow (!s.remote m.ant) .local_,
   antRow (decide ((s.stowOf m.ant).state ≠ .unstowed)) .stowing,
   antRow (s.bound m.ant || s.inReleasing m.ant) .group,
   antRow (!(s.track m.ant).empty || decide (s.burst.ant = some m.ant)) .busy,
   axisRow (fun ax => s.movesIn m ax && s.axisCovered ⟨m.ant, ax⟩) .lockout,
   antRow (s.anyFaulted m.ant) .badState,
   antRow (s.ants.get m.ant).configInvalid .config,
   axisRow (fun ax => !(decide ((s.axis ⟨m.ant, ax⟩).state = .braked) || (s.axis ⟨m.ant, ax⟩).ready))
     .badState,
   axisRow (s.targetOutside m) .range]

/-- The first failure of a plan's members, in member order and row order (R74). -/
def State.planFails (s : State) (ms : List Proposed) : Option (Ant × Status × Option AxisName) :=
  ms.findSome? fun m => ((s.memberRows m).findSome? id).map fun f => (m.ant, f)

/-- What the Permit Engine sees of a member (R177, R182). -/
def planSubject (m : Proposed) : Subject := ⟨false, .plan, m.ant, m.targets.az, m.targets.el⟩

/-- Put each member to the table in member order; the first refusal refuses the plan (R182). -/
def State.planPermitted (s : State) (ms : List Proposed) (go : State → Answer) : Answer :=
  match ms with
  | [] => go s
  | m :: rest => s.permitted (planSubject m) (some m.ant) fun s => s.planPermitted rest go

/-- A member axis's course (R38 step 1, R75). -/
def State.courseOf (s : State) (m : Proposed) (ax : AxisName) : AxisPlan :=
  let i : AxisId := ⟨m.ant, ax⟩
  AxisPlan.course (s.axis i).position (s.targetOf m ax) (s.limitV i) (s.limitA i) (s.axis i).record.hold

/-- The members with their courses (R38). -/
def State.courses (s : State) (ms : List Proposed) : List Member :=
  ms.map fun m => ⟨m.ant, m.targets, ⟨s.courseOf m .az, s.courseOf m .el⟩⟩

/-- The record a successful plan writes (R75). -/
def plannedGroup (tg0 step tg demand : Nat) (members : List Member) : Group :=
  { Group.initial with state := .planned, members := members, tg0 := tg0, step := step, tg := tg
                       demand := demand }

/-- The Profile Engine's answer decides the plan (R40, R75). -/
def State.planInto (s : State) (g : GroupId) (ms : List Proposed) : Answer :=
  match planGroup (fun i => (s.axis i).record) (s.courses ms)
      (s.potential (ms.flatMap fun m => m.ant.axes)) with
  | .success tg0 step tg demand members =>
    okWith (.plan tg0 step tg demand members)
      (s.modGroup g fun _ => plannedGroup tg0 step tg demand members)
  | .tooLong tg0 ax => refuseWith s .tooLong (.tooLong tg0 ax)
  | .budget tg0 best potential => refuseWith s .budget (.planBudget tg0 best potential)

/-- The checks of R74, then the permits, then the plan (R74, R75). -/
def State.planChecked (s : State) (g : GroupId) (ms : List Proposed) : Answer :=
  match s.planFails ms with
  | some (a, c, ax) => refuseWith s c (.member a.num ax)
  | none => s.planPermitted ms fun s => s.planInto g ms

/-- GROUP_PLAN(id, members) (R73 to R75). -/
def execGroupPlan (tag : Byte) (id : Nat) (members : List MemberArg) (s : State) :
    Host.Outcome State Fault Refusal :=
  serve .operations .groupPlan tag s fun s =>
    withGroup s id fun g => withCode s (proposedMembers members) fun ms =>
      check s (s.groups.get g).takesPlan .busy (s.planChecked g ms)

/-! ### GROUP_ARM (R77, R78) -/

/-- The first member axis, in member order, that an entry covers (R77). -/
def State.coveredMember (s : State) (g : Group) : Option AxisId := g.axes.find? s.axisCovered

/-- The start epoch lies in now + 1000 .. now + 600000 (R77). -/
def State.startAllowed (s : State) (e : Epoch) : Bool :=
  decide (s.now + 1000 ≤ e) && decide (e ≤ s.now + 600000)

/-- The group is armed under its grant, and each member axis is given the claim GROUP (R78). -/
def State.armGroup (s : State) (g : GroupId) (e : Epoch) (f : Fit) (folded : Nat) : State :=
  let r := s.groups.get g
  let t := ((s.makeRoom f false).grantGroup g r.demand r.axes).afterGrant f folded
  let t := t.modGroup g fun v => { v with state := .armed, held := true, start := some e }
  forEach r.axes (fun s i => s.addClaim i .group) t

/-- The last check of R77: the Feed Arbiter grants the group demand, or refuses it (R78, R161). -/
def State.armGranted (s : State) (g : GroupId) (e : Epoch) : Answer :=
  let r := s.groups.get g
  let folded := sumOf r.axes s.foldable
  match s.fit r.demand folded false with
  | .short => refuseWith s .budget (.armBudget r.demand (s.roomFound folded))
  | f => okWith (.armed e r.demand) (s.armGroup g e f folded)

/-- The lockout check of R77 names the member and axis. -/
def State.armUncovered (s : State) (g : GroupId) (e : Epoch) : Answer :=
  match s.coveredMember (s.groups.get g) with
  | some i => refuseWith s .lockout (.member i.ant.num (some i.ax))
  | none => s.armGranted g e

/-- GROUP_ARM(id, start epoch) (R77, R78). -/
def execGroupArm (tag : Byte) (id start : Nat) (s : State) : Host.Outcome State Fault Refusal :=
  request .operations .groupArm tag s fun s =>
    withGroup s id fun g =>
      check s (decide ((s.groups.get g).state = .planned)) .badState
      (check s s.clock.synced .noTime
      (check s (s.startAllowed start) .range
      (s.armUncovered g start)))

/-! ### GROUP_CANCEL and GROUP_READ (R89, R90) -/

/-- GROUP_CANCEL by the group's state (R89). -/
def State.cancelGroup (s : State) (g : GroupId) : Answer :=
  match (s.groups.get g).state with
  | .empty => refuse s .notFound
  | .planned => okWith .empty (s.emptyGroup g)
  | .armed => okWith .empty ((s.releaseGroup g).emptyGroup g)
  | .running => okWith .empty (s.haltGroup g .cancel none)
  | .done => okWith .empty (s.emptyGroup g)
  | .halted => if (s.groups.get g).held then refuse s .busy else okWith .empty (s.emptyGroup g)

/-- GROUP_CANCEL(id) (R89). -/
def execGroupCancel (tag : Byte) (id : Nat) (s : State) : Host.Outcome State Fault Refusal :=
  request .operations .groupCancel tag s fun s => withGroup s id fun g => s.cancelGroup g

/-- GROUP_READ(id, part) (R90, R208, R209). -/
def execGroupRead (tag : Byte) (id part : Nat) (s : State) : Host.Outcome State Fault Refusal :=
  serve .operations .groupRead tag s (fun s =>
    withGroup s id fun g =>
      let data := (s.groups.get g).bytes g s.now s.axis
      if part < partCount data.length then
        okWith (.bytes part (partCount data.length) (partOf data part)) s
      else refuseWith s .range (.partCount part (partCount data.length)))
    (fits := groupReadFits id part)

/-! ### Start, completion and limits (R80 to R84) -/

/-- The start can be made at this servo step (R80). -/
def State.groupStarts (s : State) (g : GroupId) : Bool :=
  let r := s.groups.get g
  match r.start with
  | none => false
  | some e =>
    decide (r.state = .armed) && decide (e ≤ s.now) && decide (s.now ≤ e + 2000) && s.groupCanStart r

/-- The start: every moving member axis begins its profile at this step's epoch (R80). -/
def State.startGroup (s : State) (g : GroupId) : State :=
  let t := s.modGroup g fun v => { v with state := .running, start := some s.now }
  forEach (s.groups.get g).plans (fun t p =>
    if p.2.moves then t.beginProfile p.1 (p.2.profile s.now) else t) t

/-- GROUP_START (R80), at a servo step. -/
def execGroupStart (g : GroupId) (s : State) : Host.Outcome State Fault Refusal :=
  occur s (s.atServo && s.groupStarts g) fun s => s.startGroup g

/-- The start grace has run out (R81). -/
def State.graceOver (s : State) (g : GroupId) : Bool :=
  decide ((s.groups.get g).state = .armed) && passed s.now (s.groups.get g).start 2000

/-- GROUP_START_GRACE_EXPIRY (R81). Where every member axis is ready by then, since the last servo step, the
causing member is absent (DESIGN CHOICE, log 40). -/
def execGroupStartGraceExpiry (g : GroupId) (s : State) : Host.Outcome State Fault Refusal :=
  occur s (s.graceOver g) fun s =>
    s.haltGroup g .notReady
      ((s.firstNotReady (s.groups.get g)).map fun (i : AxisId) => (i.ant, some i.ax))

/-- The settle timer of a RUNNING group has passed 1000 ms (R83). -/
def State.groupDone (s : State) (g : GroupId) : Bool :=
  decide ((s.groups.get g).state = .running) && passed s.now (s.groups.get g).settleTimer 1000

/-- The group is DONE and its grant released (R83). -/
def State.finishGroup (s : State) (g : GroupId) : State :=
  (s.releaseGroup g).modGroup g fun v =>
    { v with state := .done, completion := some s.now, settleTimer := none }

/-- GROUP_DONE (R83). -/
def execGroupDone (g : GroupId) (s : State) : Host.Outcome State Fault Refusal :=
  occur s (s.groupDone g) fun s => s.finishGroup g

/-- 10000 ms have passed after start epoch + Tg on a RUNNING group (R84). -/
def State.settleLimit (s : State) (g : GroupId) : Bool :=
  decide ((s.groups.get g).state = .running)
    && passed s.now (s.groups.get g).start ((s.groups.get g).tg + 10000)

/-- GROUP_SETTLE_LIMIT (R84). Where every axis is HOLDING in its window by then, its timer below 1000 ms, the
causing member is absent (DESIGN CHOICE, log 40). -/
def execGroupSettleLimit (g : GroupId) (s : State) : Host.Outcome State Fault Refusal :=
  occur s (s.settleLimit g) fun s =>
    s.haltGroup g .settle ((s.firstUnsettled (s.groups.get g)).map fun (a : Ant) => (a, none))

end Sys2Proof.Machine
end

