-- ==== Sys2Proof/Machine/Heaters.lean ====
section
/-! DEFINITION. The meanings of the Heater Controller's rows: heater steps (R141 to R144), the zone requests
(R140, R150), weather and ice (R151 to R154). -/

namespace Sys2Proof.Machine

/-! ### Heater steps (R141 to R144) -/

/-- The reading and health of a zone's sensor (R144). -/
def Zone.read (z : Zone) (t : Int) : Zone := { z with reading := some t, healthy := sensorGood t }

/-- The zone reads its sensor (R144). -/
def State.readSensor (s : State) (z : ZoneId) (t : Int) : State :=
  (s.modAntIn z.ant fun v => { v with temps := v.temps.set z.cls t }).modZone z fun v => v.read t

/-- The step index after a heater step (R141). -/
def Zone.nextStep (z : Zone) : Nat := if z.frame ≤ z.step + 1 then 0 else z.step + 1

/-- The zone's next heater step begins a frame (R141, R143). -/
def Zone.wraps (z : Zone) : Bool := decide (z.nextStep = 0)

/-- The increase of committed power a raise to a level asks for (R143). -/
def Zone.increase (z : Zone) (level : Nat) : Nat := z.wattsAt level - z.committed

/-- The Feed Arbiter admits a heater raise: it fits free room less reserved (R170). -/
def State.admitsRaise (s : State) (watts : Nat) : Bool := decide ((watts : Int) ≤ s.freeRoom - s.reserved)

/-- A frame start: the effective level rises to the ceiling, whole or not at all (R143, R170). -/
def State.frameStart (s : State) (z : ZoneId) : State :=
  if (s.zone z).effective < s.ceiling z
      ∧ s.admitsRaise ((s.zone z).increase (s.ceiling z)) = true then
    s.modZone z fun v => { v with effective := s.ceiling z }
  else s

/-- The step index advances, and an index that wraps begins a frame (R141). -/
def State.advanceZone (s : State) (z : ZoneId) : State :=
  let t := s.modZone z fun v => { v with step := v.nextStep }
  if (s.zone z).wraps then t.frameStart z else t

/-- The contactor output: on while the step index is below the effective level (R141). -/
def Zone.drive (z : Zone) : Zone := { z with contactor := decide (z.step < z.effective) }

/-- What other blocks make of a zone's reading: the antenna's ice timers follow its SURFACE zone (R152,
R153), and the PIN zone's reading may end a warming (R131). -/
def State.afterReading (s : State) (z : ZoneId) : State :=
  match z.cls with
  | .surface => s.runIceTimers z.ant
  | .pin => s.warmed z.ant
  | .gear => s

/-- A zone's heater step in the order of R141. DESIGN CHOICE (log 50): a PIN reading that ends the force (R131, R148)
does so after the five steps of R141, which are taken under the force. -/
def State.heaterStep (s : State) (z : ZoneId) (t : Int) : State :=
  ((((s.readSensor z t).refreshZone z).advanceZone z).modZone z Zone.drive).afterReading z

/-- HEATER_STEP (R2, R141). -/
def execHeaterStep (z : ZoneId) (t : Int) (s : State) : Host.Outcome State Fault Refusal :=
  occur s true fun s => s.heaterStep z t

/-- HEATER_FRAME_START (R143, R170): the heater step that begins a frame. -/
def execHeaterFrameStart (z : ZoneId) (t : Int) (s : State) : Host.Outcome State Fault Refusal :=
  occur s (s.zone z).wraps fun s => s.heaterStep z t

/-! ### CONFIG_WRITE(ZONE) (R140) -/

/-- The zone after a taken write of its figures (R140): at level 0, one step before a new frame. -/
def Zone.rewrite (z : Zone) (f : ZoneFigures) : Zone :=
  { z with
    rated := f.rated.toNat, frame := f.frame, idle := f.idle, melt := f.melt, band := f.band.toNat
    retain := f.retain, manual := min z.manual f.frame, effective := 0, contactor := false
    step := f.frame - 1 }

/-- Take a ZONE record (R140, R149). -/
def State.writeZone (s : State) (z : ZoneId) (f : ZoneFigures) : State :=
  let t := s.modZone z fun v => v.rewrite f
  let t := ((t.followFloor z).formLevel z).queueWrite (.zone z)
  (t.markFreedIf (decide (0 < (s.zone z).committed))).raise (antFlag .heat z.ant)

/-- CONFIG_WRITE(ZONE) (R140). DESIGN CHOICE (log 56): the reply carries the record as stored, with the stored mode,
which after a RESTART can differ from the mode in force (R155). -/
def execConfigWriteZone (tag : Byte) (ant : Nat) (cls : Option ZoneClass) (f : ZoneFigures)
    (s : State) : Host.Outcome State Fault Refusal :=
  request .operations .configWrite tag s (fun s =>
    withAnt s ant fun a => withCode s cls fun c =>
      let g := ZoneFigures.clamp f c
      let t := s.writeZone ⟨a, c⟩ g
      check s (frameAllowed f.frame) .range
      (check s (!s.store.refuses (.zone ⟨a, c⟩)) .full
      (okOrClamped (decide (g ≠ f)) (.zoneRecord (t.zone ⟨a, c⟩).record) t)))
    (fits := configFits .zone)

/-! ### HEAT_SET (R150) -/

/-- The link of a HEAT_SET. -/
def heatLink : HeatSender → Link
  | .operations _ => .operations
  | .pendant n => .pendant n

/-- The request comes from a pendant. -/
def heatFromPendant : HeatSender → Bool
  | .operations _ => false
  | .pendant _ => true

/-- The antenna of a HEAT_SET: named by Operations, a pendant's own. -/
def withHeatAnt (s : State) (sender : HeatSender) (go : Ant → Answer) : Answer :=
  match sender with
  | .operations n => withAnt s n go
  | .pendant n => go n

/-- The authority check of HEAT_SET (R150). -/
def State.heatAuthority (s : State) (fromPendant : Bool) (a : Ant) (go : Answer) : Answer :=
  if fromPendant then check s (!s.remote a) .badState go else check s (s.remote a) .local_ go

/-- The zone after a taken HEAT_SET: mode and manual level (R150). DESIGN CHOICE (log 41): the mode a later ZONE
write stores is the one named here, also where it is the mode already in force and no write is queued. -/
def Zone.setMode (z : Zone) (m : HeatMode) (level : Option Nat) : Zone :=
  { z with mode := m, storedMode := m, manual := min (level.getD z.manual) z.frame }

/-- Take a HEAT_SET (R150): the requested level is formed at once, and a change of mode is stored. -/
def State.setHeat (s : State) (z : ZoneId) (m : HeatMode) (level : Option Nat) : State :=
  let t := (s.modZone z fun v => v.setMode m level).refreshZone z
  (if m = (s.zone z).mode then t else t.queueWrite (.zone z)).raise (antFlag .heat z.ant)

/-- The reply of a taken HEAT_SET (R150). DESIGN CHOICE (log 41): the effective level is read before the offer of
room that the same event may free (R165). -/
def State.heatReply (s : State) (z : ZoneId) : ReplyBody :=
  .zone (s.zone z).mode (s.zone z).manual (s.zone z).requested (s.zone z).effective

/-- HEAT_SET once its zone and mode are valid (R150). -/
def State.askHeat (s : State) (fromPendant : Bool) (z : ZoneId) (m : HeatMode) (level : Option Nat) :
    Answer :=
  s.heatAuthority fromPendant z.ant
    (s.permitted ⟨fromPendant, .heatSet, z.ant, none, none⟩ none fun s =>
      check s (decide (m = (s.zone z).mode) || !s.store.refuses (.zone z)) .full
        (okOrClamped (decide ((s.zone z).frame < level.getD 0)) ((s.setHeat z m level).heatReply z)
          (s.setHeat z m level)))

/-- HEAT_SET(zone, mode, manual level) (R150). -/
def execHeatSet (tag : Byte) (sender : HeatSender) (cls : Option ZoneClass) (mode : Option HeatMode)
    (level : Option Nat) (s : State) : Host.Outcome State Fault Refusal :=
  request (heatLink sender) .heatSet tag s fun s =>
    withHeatAnt s sender fun a => withCode s cls fun c => withCode s mode fun m =>
      s.askHeat (heatFromPendant sender) ⟨a, c⟩ m level

/-! ### Ice and weather (R151 to R154) -/

/-- Set the floor of an antenna's ice class; a change of the class acts in this event (R154). -/
def State.setFloor (s : State) (a : Ant) (c : IceClass) : State :=
  let t := s.modIce a fun i => { i with floor := c }
  if t.iceClass a = s.iceClass a then t else t.afterIceChange a

/-- The reply of a taken ICE_FLOOR (R154). -/
def State.iceReply (s : State) (a : Ant) : ReplyBody :=
  .ice (s.ice a).tracked (s.ice a).floor (s.iceClass a)

/-- ICE_FLOOR(antenna, class) (R154). -/
def execIceFloor (tag : Byte) (ant : Nat) (cls : Option IceClass) (s : State) :
    Host.Outcome State Fault Refusal :=
  request .operations .iceFloor tag s fun s =>
    withAnt s ant fun a => withCode s cls fun c =>
      okWith ((s.setFloor a c).iceReply a) (s.setFloor a c)

/-- Take a weather report (R151); the ice timers follow its conditions. -/
def State.report (s : State) (temp : Int) (precip : Bool) : State :=
  ({ s with heat := { s.heat with weather := some ⟨temp, precip, s.now⟩ } }).runAllIceTimers

/-- WEATHER(air temperature, precipitation) (R151). -/
def execWeather (tag : Byte) (temp : Int) (precip : Bool) (s : State) :
    Host.Outcome State Fault Refusal :=
  serve .safety .weather tag s fun s =>
    check s (sensorGood temp) .range (okWith .empty (s.report temp precip))

/-- The report in the record is stale (R151). -/
def State.weatherStale (s : State) : Bool :=
  match s.heat.weather with
  | none => false
  | some w => w.stale s.now

/-- WEATHER_STALE (R151): the conditions of the ice timers change with the figures in use. -/
def execWeatherStale (s : State) : Host.Outcome State Fault Refusal :=
  occurAlone s s.weatherStale fun s => s.runAllIceTimers

/-- The wet timer has passed 600 s (R152). -/
def State.wetOver (s : State) (a : Ant) : Bool :=
  s.wetHolds a && passed s.now (s.ice a).wetTimer 600000

/-- WET_TIMER_EXPIRY (R152): the tracked class becomes LIGHT. -/
def execWetTimerExpiry (a : Ant) (s : State) : Host.Outcome State Fault Refusal :=
  occur s (s.wetOver a) fun s => s.setTracked a .light

/-- The freeze timer has passed 3600 s (R152). -/
def State.freezeOver (s : State) (a : Ant) : Bool :=
  s.freezeHolds a && passed s.now (s.ice a).freezeTimer 3600000

/-- FREEZE_TIMER_EXPIRY (R152): the tracked class becomes HEAVY. -/
def execFreezeTimerExpiry (a : Ant) (s : State) : Host.Outcome State Fault Refusal :=
  occur s (s.freezeOver a) fun s => s.setTracked a .heavy

/-- The thaw timer has passed 900 s (R153). -/
def State.thawOver (s : State) (a : Ant) : Bool :=
  s.thawHolds a && passed s.now (s.ice a).thawTimer 900000

/-- THAW_TIMER_EXPIRY (R153): the tracked class falls one step. -/
def execThawTimerExpiry (a : Ant) (s : State) : Host.Outcome State Fault Refusal :=
  occur s (s.thawOver a) fun s => s.setTracked a (iceDown (s.ice a).tracked)

end Sys2Proof.Machine
end

