-- ==== Sys2Proof/Machine/LinkFront.lean ====
section
/-! DEFINITION. The meanings of the Link Front's and the Station Clock's rows: frames, replies, notices,
change flags and TIME_SET (chapter 10). -/

namespace Sys2Proof.Machine

/-- Bytes reach a link receiver (R187). -/
def LinkRecord.receiveBytes (l : LinkRecord) (bytes : List Byte) : LinkRecord :=
  receiveAll (l.rx.length + bytes.length) { l with rx := l.rx ++ bytes }

/-- FRAME_RECEIVED (R187). -/
def execFrameReceived (l : Link) (bytes : List Byte) (s : State) : Host.Outcome State Fault Refusal :=
  .next (onPower s fun s => s.modLink l fun r => r.receiveBytes bytes)

/-- What the Link Front's own checks answer to a frame, if one fails (R189). -/
def frontRefusal (l : Link) (kind : Byte) (body : List Byte) : Option Status :=
  match Kind.ofCode kind with
  | none => some .badKind
  | some k =>
    if !k.openTo l then some .badKind
    else if !bodyLengthFits k body then some .range
    else
      match k with
      | .configWrite =>
        match Config.recordKindOf body with
        | none => some .badKind
        | some c => if configOpenTo c l then none else some .badKind
      | .statusRead =>
        match Config.selectorOf (body.headD 0) with
        | none => some .range
        | some c => if selectorOpenTo c l then none else some .badKind
      | _ => none

/-- BAD_KIND (R189): a taken frame that fails the Link Front's checks is refused by them. A frame that
passes them is another row's, and this row does nothing. -/
def execBadKind (l : Link) (kind tag : Byte) (body : List Byte) (s : State) :
    Host.Outcome State Fault Refusal :=
  .next (onPower s fun s =>
    match frontRefusal l kind body with
    | none => s
    | some c =>
      if s.mayTake l kind tag fun b => decide (b = body) then
        announce s (takeAndAnswer l kind tag s fun s => refuse s c)
      else s)

/-- The reply outgoing is the one to a RESTART (R128). -/
def LinkRecord.restartReply (l : LinkRecord) : Bool :=
  match l.reply with
  | none => false
  | some r => decide (r.kind = replyKind Kind.restart.code) && decide (r.status = .ok)

/-- REPLY_SENT (R188): the reply outgoing becomes absent. After a Safety RESTART's reply a stow formation
is tried (R128). -/
def execReplySent (l : Link) (s : State) : Host.Outcome State Fault Refusal :=
  .next (onPower s fun s =>
    if (s.link l).replyLeaves then
      let t := s.modLink l fun r => { r with reply := none }
      if l = .safety ∧ (s.link l).restartReply = true then event s fun _ => t.markForm else t
    else s)

/-- NOTICE_SENT (R196): the waiting notice has been sent. -/
def execNoticeSent (l : Link) (s : State) : Host.Outcome State Fault Refusal :=
  .next (onPower s fun s =>
    if (s.link l).noticeLeaves then
      s.modLink l fun r => { r with notice := none, noticeFirst := false }
    else s)

/-- The flag word after CHANGES_ACK (R197): masked bits of flags the link carries take their values. -/
def ackedWord (carried old values mask : FlagWord) : FlagWord :=
  (old &&& ~~~(mask &&& carried)) ||| (values &&& (mask &&& carried))

/-- Write a link's flags, and answer with the word before and after (R197). -/
def State.ackFlags (s : State) (l : Link) (values mask : FlagWord) : Answer :=
  let word := ackedWord (Link.mask l) (s.link l).flags values mask
  okWith (.words (s.link l).flags word) (s.modLink l fun r => { r with flags := word })

/-- CHANGES_ACK (R197): a flag it writes to set builds no notice. -/
def execChangesAck (l : Link) (tag : Byte) (values mask : FlagWord) (s : State) :
    Host.Outcome State Fault Refusal :=
  serve l .changesAck tag s (fun s => s.ackFlags l values mask)
    (fits := fun b => decide (b = leBytes 5 values.toNat ++ leBytes 5 mask.toNat))

/-- NOTICE_ENABLE(ON) (R198). -/
def execNoticeEnableOn (l : Link) (tag : Byte) (s : State) : Host.Outcome State Fault Refusal :=
  serve l .noticeEnable tag s fun s =>
    okWith (.notice true (s.link l).flags) (s.modLink l fun r => { r with enable := true })

/-- NOTICE_ENABLE(OFF) (R198): a notice waiting is discarded. -/
def execNoticeEnableOff (l : Link) (tag : Byte) (s : State) : Host.Outcome State Fault Refusal :=
  serve l .noticeEnable tag s fun s =>
    okWith (.notice false (s.link l).flags)
      (s.modLink l fun r => { r with enable := false, notice := none, noticeFirst := false })

/-! ### TIME_SET (R193, R194) -/

/-- The epochs an axis is timed from move with the clock. -/
def Axis.shift (x : Axis) (off : Int) : Axis :=
  { x with
    releaseCheck := shiftTimer off x.releaseCheck
    stop := x.stop.map fun r => { r with start := r.start + off }
    idleTimer := shiftTimer off x.idleTimer
    disagreeTimer := shiftTimer off x.disagreeTimer
    followTimer := shiftTimer off x.followTimer
    torqueTimer := shiftTimer off x.torqueTimer
    brakeTimer := shiftTimer off x.brakeTimer
    profile := x.profile.map fun p => { p with start := p.start + off } }

/-- The epochs an antenna is timed from move with the clock. -/
def Antenna.shift (v : Antenna) (off : Int) : Antenna :=
  { v with
    prechargeStart := shiftTimer off v.prechargeStart
    inBandTimer := shiftTimer off v.inBandTimer
    outBandTimer := shiftTimer off v.outBandTimer
    axes := v.axes.map fun _ x => x.shift off }

/-- The epochs a jog is timed from move with the clock. -/
def Jog.shift (j : Jog) (off : Int) : Jog :=
  { j with lastFrame := j.lastFrame + off, ramp := j.ramp.map fun r => { r with start := r.start + off } }

/-- The epochs of the Lockout Table: jogs and horns; claimed and placed epochs are kept. -/
def Locks.shift (l : Locks) (off : Int) : Locks :=
  { l with
    authority := l.authority.map fun _ v => { v with jog := v.jog.map fun j => j.shift off }
    horns := l.horns.map fun _ h =>
      { h with forceTimer := shiftTimer off h.forceTimer, since := h.since + off } }

/-- The stow timers move with the clock. -/
def StowRecord.shift (r : StowRecord) (off : Int) : StowRecord :=
  { r with warmingTimer := shiftTimer off r.warmingTimer, pinTimer := shiftTimer off r.pinTimer
           warningTimer := shiftTimer off r.warningTimer }

/-- The ice timers and the weather's epoch move with the clock. -/
def Heat.shift (h : Heat) (off : Int) : Heat :=
  { h with
    ice := h.ice.map fun _ i =>
      { i with wetTimer := shiftTimer off i.wetTimer, freezeTimer := shiftTimer off i.freezeTimer
               thawTimer := shiftTimer off i.thawTimer }
    weather := h.weather.map fun w => { w with epoch := w.epoch + off } }

/-- The Arbiter's epochs move with the clock. -/
def Feed.shift (f : Feed) (off : Int) : Feed :=
  { f with
    queue := f.queue.map fun n => { n with joined := n.joined + off }
    shed := { f.shed with expiry := shiftTimer off f.shed.expiry, half := shiftTimer off f.shed.half }
    lastStep := shiftTimer off f.lastStep }

/-- The store's head wait and the start of its write move with the clock. -/
def Store.shift (st : Store) (off : Int) : Store :=
  { st with headWait := shiftTimer off st.headWait
            writing := st.writing.map fun w => { w with start := w.start + off } }

/-- A link's silence timer moves with the clock. -/
def LinkRecord.shift (l : LinkRecord) (off : Int) : LinkRecord :=
  { l with silence := shiftTimer off l.silence }

/-- Move every epoch a block is timing from, and the paces, by an offset (R194). -/
def State.shift (s : State) (off : Int) : State :=
  { s with
    ants := s.ants.map fun _ v => v.shift off
    burst := { s.burst with lastFrame := shiftTimer off s.burst.lastFrame }
    groups := s.groups.map fun _ g => { g with settleTimer := shiftTimer off g.settleTimer }
    locks := s.locks.shift off
    stow := { s.stow with records := s.stow.records.map fun _ r => r.shift off }
    heat := s.heat.shift off
    feed := s.feed.shift off
    store := s.store.shift off
    links := s.links.map fun _ l => l.shift off
    pace := ⟨s.pace.servo + off, s.pace.wind + off, s.pace.heater + off⟩ }

/-- TIME_SET is refused BUSY: a group ARMED or RUNNING, a queue not empty, or the channel open (R193). -/
def State.clockBusy (s : State) : Bool :=
  (GroupId.all.any fun g =>
    decide ((s.groups.get g).state = .armed) || decide ((s.groups.get g).state = .running))
  || (Ant.all.any fun a => !(s.track a).empty) || s.burst.ant.isSome

/-- The number of epochs the 48-bit clock counts before it is 0 again (R193, log 14). -/
def epochRange : Int := 281474976710656

/-- Set the clock and move what is timed from it (R193, R194). -/
def State.setClock (s : State) (e : Epoch) : State :=
  { s.shift (e - s.now) with clock := ⟨e, true⟩ }

/-- TIME_SET(epoch) (R193, R194). -/
def execTimeSet (tag : Byte) (epoch : Nat) (s : State) : Host.Outcome State Fault Refusal :=
  serve .operations .timeSet tag s fun s =>
    let e : Epoch := (epoch : Int) % epochRange
    check s (!s.clockBusy) .busy (okWith (.epochs s.now e) (s.setClock e))

end Sys2Proof.Machine
end

