-- ==== Sys2Proof/Machine/LocalControl.lean ====
section
/-! DEFINITION. The meanings of the local control rows: LOCAL_CLAIM and its end (R103 to R105), JOG (R109,
R110) and its deadman (R112), and the pad horn's timers (R107). -/

namespace Sys2Proof.Machine

/-! ### Authority (R103 to R105) -/

/-- A granted LOCAL_CLAIM (R104). -/
def State.claimLocal (s : State) (n : Ant) : State :=
  let t := s.modAuthority n fun v => { v with isLocal := true, claimed := some s.now }
  (t.haltQueue n .local_).terminateBurst n .local_

/-- What the Permit Engine sees of a pendant's request that names no target (R177). -/
def pendantSubject (k : PermitKind) (n : Ant) : Subject := ⟨true, k, n, none, none⟩

/-- LOCAL_CLAIM from Pendant n (R103, R104). -/
def execLocalClaim (tag : Byte) (n : Ant) (s : State) : Host.Outcome State Fault Refusal :=
  request (.pendant n) .localClaim tag s fun s =>
    if s.remote n then
      check s (!s.bound n) .group
      (check s (!s.wind.active && decide ((s.stowOf n).state = .unstowed)) .stowing
      (s.permitted (pendantSubject .localClaim n) none fun s => okWith .empty (s.claimLocal n)))
    else okWith .empty s

/-- LOCAL_RELEASE from Pendant n (R105). -/
def execLocalRelease (tag : Byte) (n : Ant) (s : State) : Host.Outcome State Fault Refusal :=
  request (.pendant n) .localRelease tag s fun s =>
    okWith .empty (if s.remote n then s else s.endLocal n)

/-- The silence timer of a LOCAL pendant has passed 10 s (R105). -/
def State.pendantSilent (s : State) (n : Ant) : Bool :=
  !s.remote n && passed s.now (s.link (.pendant n)).silence 10000

/-- PENDANT_SILENCE_EXPIRY (R105). -/
def execPendantSilenceExpiry (n : Ant) (s : State) : Host.Outcome State Fault Refusal :=
  occur s (s.pendantSilent n) fun s => s.endLocal n

/-! ### JOG (R109, R110) -/

/-- The greatest speed of a jog: 500 mdeg/s, or the axis's configured Vmax (R31, R109). -/
def State.jogTop (s : State) (i : AxisId) : Nat := min 500 (s.axis i).record.vmax

/-- The lockout check of a JOG (R109). -/
def State.jogUncovered (s : State) (i : AxisId) : Bool :=
  !s.axisCovered i && (decide ((s.ants.get i.ant).bus = .up) || !s.axisCovered i.other)

/-- A jog record that exists names the axis and direction (R109). -/
def sameJog (j : Option Jog) (ax : AxisName) (dir : Direction) : Bool :=
  match j with
  | none => true
  | some j => decide (j.axis = ax) && decide (j.dir = dir)

/-- The jog record is cleared once a frame has reported its failure (R109, R110). -/
def State.clearJog (s : State) (n : Ant) : State := s.modAuthority n fun v => { v with jog := none }

/-- The status that reports a jog's failure (R109). -/
def JogFailure.status : JogFailure → Status
  | .budget => .budget
  | .faulted => .badState

/-- The failure a jog record holds. -/
def State.jogFailure (s : State) (n : Ant) : Option JogFailure := (s.jog n).bind Jog.failure

/-- A frame on a FAULTED axis is refused BAD_STATE, and reports the failure of the axis's own jog, if it
has one (R109, R112, log 24). -/
def State.jogFaulted (s : State) (i : AxisId) : Answer :=
  if s.jogFailure i.ant = some .faulted ∧ (s.locks.authority.get i.ant).jogs i.ax = true then
    ⟨.badState, .empty, s.clearJog i.ant⟩
  else refuse s .badState

/-- A taken frame's record: a new one with its claim, or the live one with its last-frame epoch set
(R109). -/
def State.holdJog (s : State) (i : AxisId) (dir : Direction) (speed : Nat) : State :=
  match s.jog i.ant with
  | some _ => s.modJog i.ant fun j => { j with lastFrame := s.now }
  | none =>
    (s.modAuthority i.ant fun v =>
      { v with jog := some ⟨i.ax, dir, speed, .preparing, s.now, none, none⟩ }).addClaim i .jog

/-- A jog in PREPARING whose axis is ready asks for its raise (R110). -/
def State.raiseJog (s : State) (i : AxisId) : State :=
  if ((s.jog i.ant).map Jog.phase) = some .preparing ∧ (s.axis i).ready = true
      ∧ s.ready i.ant = true then
    (s.modJog i.ant fun j => { j with phase := .raising }).askNeed i .jog
      (s.jogFigure i - (s.axis i).record.hold)
  else s

/-- The reply to a taken JOG (R109): ACCEPTED until the jog is RUNNING. -/
def jogReply (clamped : Bool) (i : AxisId) (t : State) : Answer :=
  match t.jog i.ant with
  | none => okWith .empty t
  | some j =>
    ⟨if j.phase = .running then (if clamped then .clamped else .ok) else .accepted,
      .jog j.phase j.speed (t.axis i).position clamped, t⟩

/-- A JOG that passed every check is taken (R109, R110). -/
def State.takeJog (s : State) (i : AxisId) (dir : Direction) (speed : Nat) : Answer :=
  jogReply (decide (s.jogTop i < speed)) i
    ((s.holdJog i dir (min speed (s.jogTop i))).raiseJog i)

/-- The last checks of a JOG (R109): the record's failure, then the permit. -/
def State.jogPermitted (s : State) (i : AxisId) (dir : Direction) (speed : Nat) : Answer :=
  match s.jogFailure i.ant with
  | some f => ⟨f.status, .empty, s.clearJog i.ant⟩
  | none => s.permitted (pendantSubject .jog i.ant) none fun s => s.takeJog i dir speed

/-- The checks of a JOG in the order of R109. -/
def State.askJog (s : State) (i : AxisId) (dir : Direction) (speed : Nat) : Answer :=
  check s (!s.remote i.ant) .badState
  (check s (!s.wind.active) .stowing
  (check s (s.jogUncovered i) .lockout
  (if (s.axis i).state.isFaulted then s.jogFaulted i
  else check s (!(s.ants.get i.ant).configInvalid) .config
    (check s (sameJog (s.jog i.ant) i.ax dir) .busy
    (s.jogPermitted i dir speed)))))

/-- JOG(axis, direction, speed) from Pendant n (R109, R110). -/
def execJog (tag : Byte) (n : Ant) (ax : Option AxisName) (dir : Option Direction) (speed : Int)
    (s : State) : Host.Outcome State Fault Refusal :=
  request (.pendant n) .jog tag s fun s =>
    withCode s ax fun x => withCode s dir fun d =>
      check s (decide (1 ≤ speed)) .range (s.askJog ⟨n, x⟩ d speed.toNat)

/-- 600 ms have passed after the last-frame epoch of a jog (R112). -/
def State.deadmanOver (s : State) (n : Ant) : Bool :=
  match s.jog n with
  | none => false
  | some j => decide (j.lastFrame + 600 ≤ s.now)

/-- JOG_DEADMAN (R112). -/
def execJogDeadman (n : Ant) (s : State) : Host.Outcome State Fault Refusal :=
  occur s (s.deadmanOver n) fun s => s.endJog n (some (.jogEnd, .holding))

/-! ### The pad horn (R107) -/

/-- FORCE_REMOVAL_TIMER_EXPIRY (R107): the timer has run its 5 s. -/
def execForceRemovalTimerExpiry (n : Ant) (s : State) : Host.Outcome State Fault Refusal :=
  occurAlone s (passed s.now (s.locks.horns.get n).forceTimer 5000) fun s =>
    (s.modHorn n fun h => { h with forceTimer := none }).refreshHorn n

/-- WARNING_TIMER_EXPIRY (R107): the timer has run its 10 s. -/
def execWarningTimerExpiry (n : Ant) (s : State) : Host.Outcome State Fault Refusal :=
  occurAlone s (passed s.now (s.stowOf n).warningTimer 10000) fun s => s.setWarning n none

end Sys2Proof.Machine
end

