-- ==== Sys2Proof/Machine/Lockouts.lean ====
section
/-! DEFINITION. The meanings of the lockout rows: placement (R93 to R97), removal (R98, R99). -/

namespace Sys2Proof.Machine

/-! ### Placement (R93, R94) -/

/-- The reason code of a request: 255 and above is refused (R93). -/
def reasonAllowed (r : Option Nat) : Bool :=
  match r with
  | none => true
  | some n => decide (n < restoreLost)

/-- A placement's own checks (R93): a cover set, a badge where one is asked, and the reason code. -/
def Placement.allowed (p : Placement) : Bool := !coverEmpty p.cover && reasonAllowed p.reason

/-- The placement of a pendant (R93): badge 1..65535. -/
def pendantPlacement (n : Ant) (badge : Nat) (cover : CoverSet) (reason : Option Nat) :
    Option Placement :=
  if 1 ≤ badge ∧ badge ≤ 65535 then
    some ⟨some n, cover, .personnel, .pendant n, some badge, reason⟩
  else none

/-- The placement of Safety: one antenna, or STATION (R93). -/
def safetyPlacement (t : LockTarget) (cover : CoverSet) (reason : Option Nat) : Option Placement :=
  match t with
  | .station => some ⟨none, cover, .safety, .safety, none, reason⟩
  | .antenna n => (Ant.ofNat? n).map fun a => ⟨some a, cover, .safety, .safety, none, reason⟩

/-- The placement of Operations (R93). -/
def operationsPlacement (n : Nat) (cover : CoverSet) (reason : Option Nat) : Option Placement :=
  (Ant.ofNat? n).map fun a => ⟨some a, cover, .operations, .operations, none, reason⟩

/-- The reply of a taken placement: slot, cover set, state and the mark "merged" (R94). -/
def State.placedReply (s : State) (n : Nat) (merged : Bool) : ReplyBody :=
  match s.locks.slot n with
  | none => .empty
  | some e => .placed n e.cover (s.entryEffective e) merged

/-- Place an entry: the table, then what new cover hands on (R94, R95). -/
def State.placeLock (s : State) (p : Placement) : Answer :=
  let t := (s.placeEntry p).applyCover s (s.locks.judge p).slot p.scope
  match s.locks.judge p with
  | .full => refuse s .full
  | .merged n _ => okWith (t.placedReply n true) t
  | .created n => okWith (t.placedReply n false) t

/-- A placement request: RANGE where R93 refuses it, else placed (R94). -/
def State.askPlacement (s : State) (p : Option Placement) : Answer :=
  match p with
  | none => refuse s .range
  | some p => if p.allowed then s.placeLock p else refuse s .range

/-- HOLD_PLACE(antenna, cover set, reason code) (R93 to R95). -/
def execHoldPlace (tag : Byte) (ant : Nat) (cover : CoverSet) (reason : Option Nat) (s : State) :
    Host.Outcome State Fault Refusal :=
  request .operations .holdPlace tag s fun s =>
    s.askPlacement (operationsPlacement ant cover reason)

/-- The link of a LOCK_PLACE (R93). -/
def lockLink : LockSender → Link
  | .pendant n _ => .pendant n
  | .safety _ => .safety

/-- What a LOCK_PLACE asks for (R93). -/
def lockPlacement (sender : LockSender) (cover : CoverSet) (reason : Option Nat) : Option Placement :=
  match sender with
  | .pendant n badge => pendantPlacement n badge cover reason
  | .safety t => safetyPlacement t cover reason

/-- LOCK_PLACE (R93 to R95). -/
def execLockPlace (tag : Byte) (sender : LockSender) (cover : CoverSet) (reason : Option Nat)
    (s : State) : Host.Outcome State Fault Refusal :=
  request (lockLink sender) .lockPlace tag s fun s =>
    s.askPlacement (lockPlacement sender cover reason)

/-! ### Removal (R98, R99) -/

/-- The entry's antenna is the one a request names (R98). -/
def LockTarget.names (t : LockTarget) (scope : Option Ant) : Bool :=
  match t, scope with
  | .station, none => true
  | .antenna n, some a => decide (a.num = n)
  | _, _ => false

/-- A taken removal (R98): the reply carries the removed entry as it stood, every field of R92. -/
def State.takeOut (s : State) (n : Nat) (e : LockEntry) : Answer :=
  check s (!s.store.refuses (.lockout n)) .full (okWith (.removed (s.entryView n e)) (s.removeEntry n e))

/-- A removal by slot (R98): the slot's entry, or RANGE or NOT_FOUND. -/
def withEntry (s : State) (n : Nat) (go : LockEntry → Answer) : Answer :=
  withSlot s n fun n =>
    match s.locks.slot n with
    | none => refuse s .notFound
    | some e => go e

/-- A removal from Safety or Operations of an entry of its class for the named antenna (R98). -/
def State.removeFor (s : State) (n : Nat) (t : LockTarget) (cls : LockClass) : Answer :=
  withEntry s n fun e =>
    check s (LockTarget.names t e.scope) .notFound
    (check s (decide (e.cls = cls)) .notHolder
    (s.takeOut n e))

/-- A pendant's removal of its own entry (R98). -/
def State.removeOwn (s : State) (n : Nat) (p : Ant) (badge : Nat) : Answer :=
  withEntry s n fun e =>
    check s (decide (e.cls = .personnel) && decide (e.holder = .pendant p)
      && decide (e.badge = some badge)) .notHolder
    (s.takeOut n e)

/-- HOLD_REMOVE(slot, antenna) (R98). -/
def execHoldRemove (tag : Byte) (slot ant : Nat) (s : State) : Host.Outcome State Fault Refusal :=
  request .operations .holdRemove tag s fun s => s.removeFor slot (.antenna ant) .operations

/-- The link of a LOCK_REMOVE (R98). -/
def unlockLink : UnlockSender → Link
  | .pendant n _ => .pendant n
  | .safety _ => .safety

/-- LOCK_REMOVE (R98). -/
def execLockRemove (tag : Byte) (sender : UnlockSender) (slot : Nat) (s : State) :
    Host.Outcome State Fault Refusal :=
  request (unlockLink sender) .lockRemove tag s fun s =>
    match sender with
    | .pendant n badge => s.removeOwn slot n badge
    | .safety t => s.removeFor slot t .safety

/-- The force-removal timers of the entry's antennas start or restart (R99). -/
def State.warnRemoved (s : State) (scope : Option Ant) : State :=
  forEach (scopeAnts scope) (fun s a => s.startForceTimer a) s

/-- A taken FORCE_REMOVE: a removal, and the pad horns (R99). -/
def State.forceOut (s : State) (n : Nat) (e : LockEntry) : Answer :=
  check s (!s.store.refuses (.lockout n)) .full
    (okWith (.removed (s.entryView n e)) ((s.removeEntry n e).warnRemoved e.scope))

/-- FORCE_REMOVE(slot, antenna) (R99). -/
def execForceRemove (tag : Byte) (slot : Nat) (target : LockTarget) (s : State) :
    Host.Outcome State Fault Refusal :=
  request .safety .forceRemove tag s fun s =>
    withEntry s slot fun e => check s (LockTarget.names target e.scope) .notFound (s.forceOut slot e)

end Sys2Proof.Machine
end

