-- ==== Sys2Proof/Machine/PermitWrites.lean ====
section
/-! DEFINITION. The meanings of PERMIT_WRITE and PERMIT_WRITE(DEFAULT) (R183, R184). -/

namespace Sys2Proof.Machine

/-- The entry a PERMIT_WRITE carries, if its index and codes are of their lists (R183, R209). -/
def permitArgEntry (p : PermitArg) : Option PermitEntry :=
  if p.index < 32 then
    match Property.ofCode p.property, Compare.ofCode p.compare with
    | some q, some c =>
      some ⟨p.inUse, q, c, p.value, p.andFlag, verdictOf p.refuse, 0⟩
    | _, _ => none
  else none

/-- Replace an entry (R183): its refusal count is 0 and its index leaves the lost set. -/
def Permits.write (p : Permits) (n : Nat) (e : PermitEntry) : Permits :=
  { p with entries := modAt p.entries n fun _ => e, lost := p.lost.filter fun m => decide (m ≠ n) }

/-- Take a PERMIT_WRITE (R183). -/
def State.writePermit (s : State) (n : Nat) (e : PermitEntry) : State :=
  ({ s with permits := s.permits.write n e }).queueWrite (.permit n)

/-- What a PERMIT_WRITE of an entry answers (R183). -/
def State.askPermit (s : State) (p : PermitArg) : Answer :=
  withCode s (permitArgEntry p) fun e =>
    check s (!s.store.refuses (.permit p.index)) .full
      (okWith (.permitEntry p.index e (s.writePermit p.index e).permits.lost) (s.writePermit p.index e))

/-- Take a PERMIT_WRITE(DEFAULT) (R184). -/
def State.writeDefault (s : State) (v : Verdict) : State :=
  ({ s with permits := { s.permits with default_ := v, defaultRefusals := 0 } }).queueWrite .station

/-- What a PERMIT_WRITE(DEFAULT) answers (R184). -/
def State.askDefault (s : State) (verdict : Option Verdict) : Answer :=
  withCode s verdict fun v =>
    check s (!s.store.refuses .station) .full
      (okWith (.permitDefault v (s.writeDefault v).permits.defaultInUse) (s.writeDefault v))

/-- PERMIT_WRITE(index, entry) (R183, R209): index 0xFF is DEFAULT, of which only the verdict bit is read. -/
def execPermitWrite (tag : Byte) (p : PermitArg) (s : State) : Host.Outcome State Fault Refusal :=
  serve .safety .permitWrite tag s (fun s =>
    if p.index = defaultIndex then s.askDefault (some (verdictOf p.refuse)) else s.askPermit p)
    (fits := permitFits p)

/-- PERMIT_WRITE(DEFAULT, verdict) (R184). -/
def execPermitWriteDefault (tag : Byte) (verdict : Option Verdict) (s : State) :
    Host.Outcome State Fault Refusal :=
  serve .safety .permitWrite tag s (fun s => s.askDefault verdict) (fits := defaultFits verdict)

end Sys2Proof.Machine
end

