-- ==== Sys2Proof/Machine/Power.lean ====
section
/-! DEFINITION. The meanings of POWER_ON (R203, R204), POWER_LOSS (R201) and RESTART (R205). -/

namespace Sys2Proof.Machine

/-! ### POWER_LOSS (R201) -/

/-- Power goes: what the store holds stays, the rest is lost at the next power-on. -/
def State.losePower (s : State) : State := { s with powered := false, store := s.store.lose }

/-- POWER_LOSS (R201). -/
def execPowerLoss (s : State) : Host.Outcome State Fault Refusal :=
  .next (onPower s fun s => s.losePower)

/-! ### Loading the records (R203) -/

/-- The AXIS record in force at power-on: as stored, or the factory's (R203). -/
def Store.loadAxis (st : Store) (i : AxisId) : AxisRecord :=
  ((st.axes.get i.ant).get i.ax).orElse (.factory i.ax)

/-- The ZONE record in force at power-on: as stored, or the factory's with mode OFF (R203). -/
def Store.loadZone (st : Store) (z : ZoneId) : ZoneRecord :=
  ((st.zones.get z.ant).get z.cls).orElse { ZoneRecord.factory z.cls with mode := .off }

/-- A permit entry of a PERMIT record; a bad record's entry is not in use (R203). -/
def loadPermit (r : Stored PermitRecord) : PermitEntry :=
  let p := r.orElse .unused
  ⟨p.inUse, p.property, p.compare, p.value, p.andFlag, p.verdict, 0⟩

/-- The places of the bad records in a list. -/
def lostFrom {α : Type} : Nat → List (Stored α) → List Nat
  | _, [] => []
  | n, r :: rest => if r.good then lostFrom (n + 1) rest else n :: lostFrom (n + 1) rest

/-- The Permit Engine at power-on (R175, R203). -/
def Store.loadPermits (st : Store) : Permits :=
  ⟨st.permits.map loadPermit, (st.station.orElse .factory).default_, lostFrom 0 st.permits, 0⟩

/-- An AXIS record of the antenna is bad: its configuration-invalid mark is set (R5, R203). -/
def Store.axisBad (st : Store) (a : Ant) : Bool :=
  !((st.axes.get a).get .az).good || !((st.axes.get a).get .el).good

/-- An axis at power-on (R5): the commanded position is encoder A's reading, clamped to the soft limits. -/
def Store.loadAxisUnit (st : Store) (field : FieldInputs) (i : AxisId) : Axis :=
  let r := st.loadAxis i
  .initial r (clampSoft r.softLow r.softHigh ((field.ants.get i.ant).axes.get i.ax).encA)

/-- An antenna's drive items at power-on (R5). -/
def Store.loadAntenna (st : Store) (field : FieldInputs) (a : Ant) : Antenna :=
  .initial ⟨st.loadAxisUnit field ⟨a, .az⟩, st.loadAxisUnit field ⟨a, .el⟩⟩ (st.axisBad a)

/-- The three zones of an antenna at power-on (R139). -/
def Store.loadZones (st : Store) (a : Ant) : Trio Zone :=
  ⟨.initial (st.loadZone ⟨a, .pin⟩), .initial (st.loadZone ⟨a, .gear⟩),
    .initial (st.loadZone ⟨a, .surface⟩)⟩

/-- A record's mark at power-on follows its CRC: a good record is persisted (R203). -/
def Stored.remark {α : Type} (r : Stored α) : Stored α := { r with mark := r.good }

/-- The store as it stands once every record has been read (R203): nothing queued, the bad list, the marks
and the next creation number. -/
def Store.opened (st : Store) : Store :=
  { st with
    station := st.station.remark
    wind := st.wind.remark
    axes := st.axes.map fun _ p => p.map fun _ r => r.remark
    zones := st.zones.map fun _ p => p.map fun _ r => r.remark
    lockouts := st.lockouts.map Stored.remark
    permits := st.permits.map Stored.remark
    queue := []
    overflow := []
    writing := none
    headWait := none
    waitReported := false
    longWait := false
    bad := st.badList
    nextCreation := nextCreationOf st.restoredSlots }

/-- The Lockout Table at power-on, before the RESTORE_LOST entry (R203, R113). -/
def Store.loadLocks (st : Store) : Locks :=
  ⟨st.restoredSlots, orderOf st.restoredSlots, .const .initial, .const .initial⟩

/-- The part with every record loaded and every working item at its power-on value (R204). -/
def State.booted (s : State) : State where
  powered := true
  clock := ⟨0, false⟩
  field := s.field
  ants := .of fun a => s.store.loadAntenna s.field a
  tracks := .const .initial
  burst := .initial
  groups := ⟨.initial, .initial, .initial, .initial⟩
  locks := s.store.loadLocks
  permits := s.store.loadPermits
  wind := .initial (s.store.wind.orElse .factory)
  stow := ⟨.of fun a => .initial (s.field.ants.get a).pinIn, none⟩
  heat := ⟨.of fun a => s.store.loadZones a, .const .initial, none⟩
  feed := .initial (s.store.station.orElse .factory)
  store := s.store.opened
  links := .initial
  pace := ⟨0, 0, 0⟩
  freeCount := s.freeCount
  scratch := ⟨false, false, 0, 0⟩
  pending := s.pending

/-- The placement of the RESTORE_LOST entry (R203). -/
def restorePlacement : Placement :=
  ⟨none, ⟨true, true, true⟩, .safety, .safety, none, some restoreLost⟩

/-- The slots whose LOCKOUT record is bad (R203). -/
def Store.badSlots (st : Store) : List Nat := lostFrom 0 st.lockouts

/-- Queue the write of a slot, if there is one. -/
def State.queueSlot (s : State) (n : Option Nat) : State :=
  match n with
  | none => s
  | some n => s.queueWrite (.lockout n)

/-- The RESTORE_LOST entry is placed where a LOCKOUT record is bad; its slot's write is queued, and a
write of each bad slot (R203). DESIGN CHOICE (log 26): the entry's slot first, then the bad slots, rising. -/
def State.restoreLockouts (s : State) (bad : List Nat) : State :=
  if bad.isEmpty then s
  else
    forEach bad (fun s n => s.queueWrite (.lockout n))
      ((s.placeEntry restorePlacement).queueSlot (s.locks.judge restorePlacement).slot)

/-- Any bad record sets the STORE change flag (R203). Notices are off (R186). -/
def State.flagBad (s : State) : State :=
  if s.store.bad.isEmpty then s else s.setFlags (stationFlag .store)

/-- The part goes through power-on. -/
def State.powerUp (s : State) : State :=
  (s.booted.restoreLockouts s.store.badSlots).flagBad

/-- POWER_ON (R203, R204). A part that still has power loses it first (log 10). -/
def execPowerOn (s : State) : Host.Outcome State Fault Refusal :=
  .next (if s.powered then s.losePower.powerUp else s.powerUp)

/-! ### RESTART (R205) -/

/-- RESTART stops to BRAKED on every axis (R28). -/
def State.restartStops (s : State) : State :=
  forEach AxisId.all (fun s i => s.stopAxis i .restart .braked) s

/-- The queues and the channel (R69): an open burst is terminated RESTART, every record is as at
power-on. -/
def State.restartTracks (s : State) : State :=
  let t := match s.burst.ant with
    | none => s
    | some a => s.terminateBurst a .restart
  { t with tracks := .const .initial }

/-- The Feed Arbiter (R173): group and wave grants are converted, the queue and the shed are cleared. -/
def State.restartFeed (s : State) : State :=
  let t := forEach GroupId.all (fun s g => s.releaseGroupGrant g) s
  let t := forEach Ant.all (fun s a => s.releaseWaveGrant a) t
  t.modFeed fun f =>
    { f with queue := [], shed := ⟨false, none, false, none, none⟩, cursor := none, lastStep := none }

/-- The Lockout Table (R113): every authority REMOTE, no claim epoch and no jog. -/
def State.restartAuthority (s : State) : State :=
  { s with locks := { s.locks with authority := .const .initial } }

/-- A stow record at a restart (R137). -/
def StowRecord.restart (r : StowRecord) : StowRecord :=
  { r with state := if r.state = .driving then .stopping else r.state, member := false }

/-- The Stow Controller (R137): driving antennas go STOPPING and the wave is cleared. -/
def State.restartStow (s : State) : State :=
  { s with stow := ⟨s.stow.records.map fun _ r => r.restart, none⟩ }

/-- A zone at a restart (R155): RETAIN keeps mode and manual level; the shed cap is cleared. -/
def Zone.restart (z : Zone) : Zone :=
  { z with
    mode := if z.retain then z.mode else .auto
    manual := if z.retain then z.manual else 0
    shedCap := none }

/-- The Heater Controller (R155): requested levels are formed afresh and a fall is applied at once. -/
def State.restartHeat (s : State) : State :=
  let t := { s with heat := { s.heat with
    zones := s.heat.zones.map fun _ p => p.map fun _ z => z.restart } }
  forEach ZoneId.all (fun s z => (s.formLevel z).lowerZone false z) t

/-- A link record at a restart (R186, R195): flags clear, no frame or notice waiting, no reply. DESIGN CHOICE
(log 38): the receiver keeps the bytes of a frame not yet complete. -/
def LinkRecord.restart (l : LinkRecord) : LinkRecord :=
  { l with waiting := none, reply := none, notice := none, noticeFirst := false, flags := 0 }

/-- The Link Front (R186, R195). -/
def State.restartLinks (s : State) : State :=
  { s with links := s.links.map fun _ l => l.restart }

/-- Rounds of what follows the restart's own changes; no formation is tried before the reply has been
sent (R128). -/
def State.restartRounds (s : State) : Nat → State
  | 0 => s
  | n + 1 =>
    State.restartRounds (forEach AxisId.all (fun s i => s.seekTorque i) s.followUp).clearMarks n

/-- Every block's restart (R205), the RESTART stops first (R173). -/
def State.restartBlocks (s : State) : State :=
  let t := s.restartStops.restartFeed.restartTracks
  let t := { t with groups := ⟨.initial, .initial, .initial, .initial⟩ }
  (t.restartAuthority.restartStow.restartHeat).restartRounds 4

/-- RESTART from Safety (R205): the frame is taken, every block acts, no flag is set, and the reply is OK. -/
def execRestart (tag : Byte) (s : State) : Host.Outcome State Fault Refusal :=
  .next (onPower s fun s =>
    if s.mayTake .safety Kind.restart.code tag (bodyLengthFits .restart) then
      ((s.takeFrame .safety).restartBlocks.restartLinks.clearScratch).answer .safety Kind.restart.code tag
        .ok .empty
    else s)

end Sys2Proof.Machine
end

