-- ==== Sys2Proof/Machine/ServoStep.lean ====
section
/-! DEFINITION. The servo step (R7): every axis's commanded position and velocity by its state, the
following error (R24), the settle timers (R83), and the field inputs as they stand at the step. -/

namespace Sys2Proof.Machine

/-- The commanded position follows the active reading in the state (R6, R7). -/
def AxisState.followsReading : AxisState → Bool
  | .off => true | .precharge => true | .braked => true | .faulted c => decide (c ≠ .brakeSet)
  | _ => false

/-- The reading an axis follows, set into its soft limits (R7). -/
def Axis.followed (x : Axis) (io : AxisInputs) : Mdeg :=
  clampSoft x.record.softLow x.record.softHigh (x.reading io)

/-- A commanded position and velocity, if the state gives them at this step; else they stand. -/
def Axis.place (x : Axis) (m : Option (Mdeg × Mdeg)) : Axis :=
  match m with
  | none => x
  | some (p, v) => { x with position := p, velocity := v }

/-- The ACTIVE segment at the head of a queue (R48). -/
def Track.activeSegment (t : Track) : Option Segment :=
  match t.segments with
  | [] => none
  | g :: _ => if g.state = .active then some g else none

/-- The running jog's motion on an axis (R111): position, velocity and at-limit mark. -/
def State.jogMotion (s : State) (i : AxisId) : Option (Mdeg × Mdeg × Bool) :=
  match (s.locks.authority.get i.ant).jog with
  | none => none
  | some j =>
    if j.axis = i.ax then
      j.ramp.map fun r => jogEval (s.axis i).record j.dir j.speed r (s.axis i).position s.now
    else none

/-- What sets the commanded position and velocity of an axis at a servo step, by its state (R7). -/
def State.motionOf (s : State) (i : AxisId) : Option (Mdeg × Mdeg) :=
  let x := s.axis i
  match x.state with
  | .slewing => x.profile.map fun p => p.eval s.now
  | .tracking => (s.track i.ant).activeSegment.map fun g => g.eval i.ax s.now
  | .jogging => (s.jogMotion i).map fun m => (m.1, m.2.1)
  | .stopping => x.stop.map fun r => r.eval x.record s.now
  | st => if st.followsReading then some (x.followed (s.axisIn i), 0) else none

/-- The following error and its timer (R24). -/
def Axis.checkFollowing (x : Axis) (io : AxisInputs) (now : Epoch) : Axis :=
  let err := (x.position - x.reading io).natAbs
  { x with
    followingError := err
    followTimer := runWhile now (x.state.followChecked && decide (x.record.followLimit < err))
      x.followTimer }

/-- The at-limit mark of a running jog (R111). -/
def State.markLimit (s : State) (i : AxisId) : State :=
  match (s.axis i).state, s.jogMotion i with
  | .jogging, some m =>
    s.modJog i.ant fun j => { j with ramp := j.ramp.map fun r => { r with atLimit := m.2.2 } }
  | _, _ => s

/-- The servo step of one axis (R7, R24). -/
def State.servoAxis (s : State) (i : AxisId) : State :=
  (s.markLimit i).modAxis i fun x =>
    (x.place (s.motionOf i)).checkFollowing (s.axisIn i) s.now

/-- The settle timer of a group (R83): it runs while a RUNNING group's settle condition holds. -/
def State.servoGroup (s : State) (g : GroupId) : State :=
  s.modGroup g fun v =>
    if v.state = .running then
      { v with settleTimer := runWhile s.now (s.groupSettled v) v.settleTimer }
    else v

/-- The field inputs as they stand at a step, with the timers that follow them. -/
def State.readField (s : State) (io : FieldInputs) : State :=
  let s := { s with field := io }
  let s := forEach Ant.all (fun s a => s.runFieldTimers a) s
  s.modStore fun st => st.followSupply s.now io.supplyGood

/-- The whole servo step. -/
def State.servo (s : State) (io : FieldInputs) : State :=
  forEach GroupId.all (fun s g => s.servoGroup g)
    (forEach AxisId.all (fun s i => s.servoAxis i) (s.readField io))

/-- SERVO_STEP (R2, R7, R24, R43, R44, R63, R83, R111). -/
def execServoStep (io : FieldInputs) (s : State) : Host.Outcome State Fault Refusal :=
  occurAlone s true fun s => s.servo io

end Sys2Proof.Machine
end

