-- ==== Sys2Proof/Machine/StatusReads.lean ====
section
/-! DEFINITION. The meanings of the STATUS_READ rows, one per selector (R191). -/

namespace Sys2Proof.Machine

/-- STATUS_READ(ANTENNA) (R29). -/
def execStatusReadAntenna (l : Link) (tag : Byte) (ant part : Nat) (s : State) :
    Host.Outcome State Fault Refusal :=
  statusReadOf l tag .antenna ant part s fun s a => .antenna (s.antennaView a)

/-- STATUS_READ(TRACK) (R70). -/
def execStatusReadTrack (l : Link) (tag : Byte) (ant part : Nat) (s : State) :
    Host.Outcome State Fault Refusal :=
  statusReadOf l tag .track ant part s fun s a => .track (s.trackView a)

/-- STATUS_READ(GROUP) (R90). -/
def execStatusReadGroup (l : Link) (tag : Byte) (part : Nat) (s : State) :
    Host.Outcome State Fault Refusal :=
  statusRead l tag .group part s fun s => .group s.groupsView

/-- STATUS_READ(LOCKOUTS) (R101). -/
def execStatusReadLockouts (l : Link) (tag : Byte) (part : Nat) (s : State) :
    Host.Outcome State Fault Refusal :=
  statusRead l tag .lockouts part s fun s => .lockouts (s.lockView l)

/-- STATUS_READ(WIND) (R138). -/
def execStatusReadWind (l : Link) (tag : Byte) (part : Nat) (s : State) :
    Host.Outcome State Fault Refusal :=
  statusRead l tag .wind part s fun s => .wind (s.windView l)

/-- STATUS_READ(HEAT) (R156). -/
def execStatusReadHeat (l : Link) (tag : Byte) (part : Nat) (s : State) :
    Host.Outcome State Fault Refusal :=
  statusRead l tag .heat part s fun s => .heat (s.heatView l)

/-- STATUS_READ(BUDGET) (R174). -/
def execStatusReadBudget (l : Link) (tag : Byte) (part : Nat) (s : State) :
    Host.Outcome State Fault Refusal :=
  statusRead l tag .budget part s fun s => .budget s.budgetView

/-- STATUS_READ(STORE) (R206). -/
def execStatusReadStore (l : Link) (tag : Byte) (part : Nat) (s : State) :
    Host.Outcome State Fault Refusal :=
  statusRead l tag .store part s fun s => .store s.storeView

/-- STATUS_READ(PERMIT) (R185). -/
def execStatusReadPermit (l : Link) (tag : Byte) (part : Nat) (s : State) :
    Host.Outcome State Fault Refusal :=
  statusRead l tag .permit part s fun s => .permit s.permitView

end Sys2Proof.Machine
end

