-- ==== Sys2Proof/Machine/StoreEvents.lean ====
section
/-! DEFINITION. The meanings of the Settings Store's rows (R200 to R202). -/

namespace Sys2Proof.Machine

/-- STORE_SUPPLY_LOW (R201): the store-supply-good line goes low. -/
def execStoreSupplyLow (s : State) : Host.Outcome State Fault Refusal :=
  occurAlone s true fun s =>
    ({ s with field := { s.field with supplyGood := false } }).modStore fun st =>
      st.followSupply s.now false

/-- The queue has become empty after a head wait that passed 10 s: STORE is set once (R201). -/
def State.noteEmptied (s : State) : State :=
  if s.store.emptiedAfterWait then
    (s.modStore fun st => { st with longWait := false }).raise (stationFlag .store)
  else s

/-- STORE_WRITE_START (R200 to R202). -/
def execStoreWriteStart (s : State) : Host.Outcome State Fault Refusal :=
  occurAlone s s.mayStartWrite fun s => s.startWrite.noteEmptied

/-- The write in progress completes (R201). -/
def State.completeWrite (s : State) : State :=
  match s.store.writing with
  | none => s
  | some w => s.modStore fun st => st.complete w

/-- STORE_WRITE_COMPLETE (R201). -/
def execStoreWriteComplete (s : State) : Host.Outcome State Fault Refusal :=
  occurAlone s s.store.writing.isSome fun s => s.completeWrite

/-- The head wait has passed 10 s and has not been reported (R201). -/
def State.headWaitOver (s : State) : Bool :=
  !s.store.waitReported && passed s.now s.store.headWait 10000

/-- STORE_HEAD_WAIT_EXPIRY (R201). -/
def execStoreHeadWaitExpiry (s : State) : Host.Outcome State Fault Refusal :=
  occurAlone s s.headWaitOver fun s =>
    (s.modStore fun st => { st with waitReported := true, longWait := true }).raise (stationFlag .store)

end Sys2Proof.Machine
end

