-- ==== Sys2Proof/Machine/StowEvents.lean ====
section
/-! DEFINITION. The meanings of the Stow Controller's rows: Safety's requests (R133, R134, R136), the wave
start (R129) and the pin (R131, R132, R135). -/

namespace Sys2Proof.Machine

/-! ### STOW_DEMAND (R133) -/

/-- The source set as a reply carries it (R133). -/
def State.sources (s : State) : ReplyBody :=
  .sources (decide (s.wind.cls = .stow)) s.wind.safety s.wind.silence

/-- Put SAFETY into the source set, or take it out (R121, R133). -/
def State.setSafety (s : State) (b : Bool) : State := s.changeWind fun w => { w with safety := b }

/-- STOW_DEMAND(ON) (R133). -/
def execStowDemandOn (tag : Byte) (s : State) : Host.Outcome State Fault Refusal :=
  request .safety .stowDemand tag s fun s => okWith (s.setSafety true).sources (s.setSafety true)

/-- STOW_DEMAND(OFF) (R133). -/
def execStowDemandOff (tag : Byte) (s : State) : Host.Outcome State Fault Refusal :=
  request .safety .stowDemand tag s fun s => okWith (s.setSafety false).sources (s.setSafety false)

/-! ### STOW_RELEASE (R134) -/

/-- The antenna is still working through its stow (R134). -/
def StowState.working : StowState → Bool
  | .stopping => true | .driving => true | .pinWarming => true | .pinInserting => true
  | .pinWithdrawing => true
  | _ => false

/-- A wave member is released (R134). -/
def State.releaseMember (s : State) (a : Ant) : State :=
  (((s.leaveWave a).setStow a .unstowed).dropClaims a .stow).setWarning a none

/-- The release of one antenna by its stow state (R134). -/
def State.releaseStow (s : State) (a : Ant) : State :=
  match (s.stowOf a).state with
  | .stowed => s.goWithdrawing a
  | .pinFailed => s.goWithdrawing a
  | .blocked => s.setStow a .unstowed
  | .driveFailed => s.setStow a .unstowed
  | .waiting => if (s.stowOf a).member then s.releaseMember a else s.setStow a .unstowed
  | _ => s

/-- Every antenna is released (R134). -/
def State.releaseAll (s : State) : State := forEach Ant.all (fun s a => s.releaseStow a) s

/-- The number of antennas whose stow state differs between two states (R134). -/
def stowChanges (s t : State) : Nat :=
  (Ant.all.filter fun a => decide ((s.stowOf a).state ≠ (t.stowOf a).state)).length

/-- STOW_RELEASE (R134). -/
def execStowRelease (tag : Byte) (s : State) : Host.Outcome State Fault Refusal :=
  request .safety .stowRelease tag s fun s =>
    check s (decide (s.wind.cls ≠ .stow)) .wind
    (check s (!s.wind.safety) .demand
    (check s (!Ant.all.any fun a => (s.stowOf a).state.working) .busy
    (okWith (.count (stowChanges s s.releaseAll)) s.releaseAll)))

/-! ### ALL_STOP (R136) -/

/-- The axis takes an ALL_STOP stop: TRACKING, JOGGING, or SLEWING on a group's profile. An EL axis of a
DRIVING antenna slews under a stow wave (R136). -/
def State.takesAllStop (s : State) (i : AxisId) : Bool :=
  match (s.axis i).state with
  | .tracking => true
  | .jogging => true
  | .slewing => !(decide (i.ax = .el) && decide ((s.stowOf i.ant).state = .driving))
  | _ => false

/-- The ALL_STOP stops of the axes (R136). -/
def State.allStopAxes (s : State) : State :=
  forEach AxisId.all (fun s i => if s.takesAllStop i then s.stopAxis i .allStop .holding else s) s

/-- What ALL_STOP hands to one antenna's queue, burst and jog (R136). -/
def State.allStopAnt (s : State) (a : Ant) : State :=
  ((s.haltQueue a .allStop).terminateBurst a .allStop).endJog a (some (.allStop, .holding))

/-- ALL_STOP as a whole (R136). -/
def State.stopAll (s : State) : State :=
  let t := forEach GroupId.all (fun s g => s.haltGroup g .allStop none) s.allStopAxes
  forEach Ant.all (fun s a => s.allStopAnt a) t

/-- ALL_STOP (R136). -/
def execAllStop (tag : Byte) (s : State) : Host.Outcome State Fault Refusal :=
  request .safety .allStop tag s fun s => okWith .empty s.stopAll

/-! ### The wave start (R129) -/

/-- The wave in preparation, where every member is ready to start (R129). -/
def State.waveReady (s : State) : Option Wave :=
  match s.stow.wave with
  | none => none
  | some w => if w.members.all (fun m => s.memberReady m.ant) then some w else none

/-- WAVE_START (R129), at a servo step. -/
def execWaveStart (s : State) : Host.Outcome State Fault Refusal :=
  occur s (s.atServo && s.waveReady.isSome) fun s =>
    match s.waveReady with
    | none => s
    | some w => s.startWave w

/-! ### The pin (R131, R132, R135) -/

/-- The warming timer has passed 600 s (R131). -/
def State.warmingOver (s : State) (a : Ant) : Bool :=
  decide ((s.stowOf a).state = .pinWarming) && passed s.now (s.stowOf a).warmingTimer 600000

/-- PIN_WARMING_TIMEOUT (R131): the force ends, and the antenna goes PIN_FAILED and is put down. -/
def execPinWarmingTimeout (a : Ant) (s : State) : Host.Outcome State Fault Refusal :=
  occur s (s.warmingOver a) fun s => (s.endForce a).goPinFailed a

/-- PIN_IN_SWITCH_MADE (R132). -/
def execPinInSwitchMade (a : Ant) (s : State) : Host.Outcome State Fault Refusal :=
  occur s true fun s =>
    let t := s.modAntIn a fun v => { v with pinIn := true }
    if (t.stowOf a).state = .pinInserting then t.goStowed a else t

/-- The pin timer has passed 20 s without the in switch (R132). -/
def State.insertOver (s : State) (a : Ant) : Bool :=
  decide ((s.stowOf a).state = .pinInserting) && !(s.field.ants.get a).pinIn
    && passed s.now (s.stowOf a).pinTimer 20000

/-- PIN_INSERT_TIMEOUT (R132): PIN_FAILED with the pin command IN, and put down. -/
def execPinInsertTimeout (a : Ant) (s : State) : Host.Outcome State Fault Refusal :=
  occur s (s.insertOver a) fun s => s.goPinFailed a

/-- PIN_IN_SWITCH_OPENED (R132): a STOWED antenna goes PIN_FAILED, its pin command still IN. -/
def execPinInSwitchOpened (a : Ant) (s : State) : Host.Outcome State Fault Refusal :=
  occurAlone s true fun s =>
    let t := s.modAntIn a fun v => { v with pinIn := false }
    if (t.stowOf a).state = .stowed then t.setStow a .pinFailed else t

/-- The withdrawal has ended: UNSTOWED (R135). -/
def State.endWithdrawal (s : State) (a : Ant) : State :=
  s.modStow a fun r => { r with state := .unstowed, pinTimer := none }

/-- PIN_OUT_SWITCH_MADE (R135). -/
def execPinOutSwitchMade (a : Ant) (s : State) : Host.Outcome State Fault Refusal :=
  occurAlone s true fun s =>
    let t := s.modAntIn a fun v => { v with pinOut := true }
    if (t.stowOf a).state = .pinWithdrawing then t.endWithdrawal a else t

/-- The pin timer has passed 20 s without the out switch (R135). -/
def State.withdrawOver (s : State) (a : Ant) : Bool :=
  decide ((s.stowOf a).state = .pinWithdrawing) && !(s.field.ants.get a).pinOut
    && passed s.now (s.stowOf a).pinTimer 20000

/-- PIN_WITHDRAW_TIMEOUT (R135): PIN_FAILED with the pin command left OUT. DESIGN CHOICE (log 55): the pin timer stops
here too, where R135 names the made out switch alone. -/
def execPinWithdrawTimeout (a : Ant) (s : State) : Host.Outcome State Fault Refusal :=
  occurAlone s (s.withdrawOver a) fun s =>
    s.modStow a fun r => { r with state := .pinFailed, pinTimer := none }

end Sys2Proof.Machine
end

