-- ==== Sys2Proof/Machine/Tracking.lean ====
section
/-! DEFINITION. The meanings of the tracking rows: the burst requests (R51 to R59), TRACK_CLEAR (R68) and
the queues' own events (R60 to R65). -/

namespace Sys2Proof.Machine

/-! ### BURST_OPEN (R51) -/

/-- The last QUEUED or ACTIVE segment of a queue. -/
def Track.lastLive (t : Track) : Option Segment := t.live.getLast?

/-- The (Δ, duration) pairs of a segment (R47). -/
def Segment.pairs (g : Segment) : PerAxis (Int × Nat) :=
  ⟨(g.delta .az, g.duration), (g.delta .el, g.duration)⟩

/-- The anchor argument fits the queue (R51): given on an empty queue; on another, absent or equal to the
last segment's end. -/
def Track.anchorFits (t : Track) (anchor : Option (PerAxis Mdeg)) : Bool :=
  match t.lastLive, anchor with
  | none, none => false
  | none, some _ => true
  | some _, none => true
  | some g, some p => decide (p = g.endPos)

/-- A pair of positions lies within both axes' soft limits in force. -/
def State.withinSoft (s : State) (a : Ant) (p : PerAxis Mdeg) : Bool :=
  a.axes.all fun i =>
    decide ((s.axis i).record.softLow ≤ p.get i.ax) && decide (p.get i.ax ≤ (s.axis i).record.softHigh)

/-- A given anchor lies within the soft limits (R51). -/
def State.anchorWithin (s : State) (a : Ant) (anchor : Option (PerAxis Mdeg)) : Bool :=
  match anchor with
  | none => true
  | some p => s.withinSoft a p

/-- The chain tail a BURST_OPEN sets (R51): the last segment, or the anchor in anchor mode. -/
def Track.openingTail (t : Track) (anchor : Option (PerAxis Mdeg)) : ChainTail :=
  match t.lastLive with
  | some g => ⟨some g.finish, g.endPos, g.pairs, g.last⟩
  | none => ⟨none, anchor.getD ⟨0, 0⟩, ⟨(0, 0), (0, 0)⟩, false⟩

/-- The channel opens for an antenna (R51). -/
def State.openBurst (s : State) (a : Ant) (anchor : Option (PerAxis Mdeg)) : State :=
  { s with burst :=
      { Burst.initial with
        ant := some a
        tail := some ((s.track a).openingTail anchor)
        lastFrame := some s.now } }

/-- What the Permit Engine sees of a BURST_OPEN (R177). -/
def burstSubject (a : Ant) (anchor : Option (PerAxis Mdeg)) : Subject :=
  ⟨false, .burst, a, anchor.map PerAxis.az, anchor.map PerAxis.el⟩

/-- BURST_OPEN(antenna, anchor) (R51). -/
def execBurstOpen (tag : Byte) (ant : Nat) (anchor : Option (PerAxis Mdeg)) (s : State) :
    Host.Outcome State Fault Refusal :=
  serve .operations .burstOpen tag s fun s =>
    withAnt s ant fun a =>
      check s s.burst.ant.isNone .busy
      (check s (s.remote a) .local_
      (check s (!s.bound a) .group
      (check s (decide ((s.stowOf a).state = .unstowed)) .stowing
      (check s (!s.covered a) .lockout
      (check s (!s.anyFaulted a) .badState
      (check s (!(s.ants.get a).configInvalid) .config
      (check s (!(s.track a).halted) .halted
      (check s s.clock.synced .noTime
      (check s ((s.track a).anchorFits anchor) .anchor
      (check s (s.anchorWithin a anchor) .range
      (s.permitted (burstSubject a anchor) none fun s =>
        okWith (.free (s.track a).free) (s.openBurst a anchor))))))))))))

/-! ### BURST_DATA (R52 to R56) -/

/-- The contiguity check (R53). -/
def ChainTail.follows (t : ChainTail) (now : Epoch) (r : SegmentRecord) : Bool :=
  match t.end_ with
  | none => decide (now + 100 < r.start)
  | some e => !t.last && decide ((r.start : Int) = e)

/-- The limits check of one axis (R54). -/
def AxisRecord.holds (r : AxisRecord) (p : Mdeg) : Bool :=
  decide (r.softLow ≤ p) && decide (p ≤ r.softHigh)

/-- The speed check of one axis (R54). -/
def speedPasses (v : Nat) (delta : Int) (d : Nat) : Bool := decide (delta.natAbs * 1000 ≤ v * d)

/-- The acceleration check of one axis (R54): the change of segment velocity across the joint. -/
def accelPasses (a : Nat) (delta : Int) (d : Nat) (prev : Int × Nat) : Bool :=
  decide ((delta * prev.2 - prev.1 * d).natAbs * 2000000 ≤ a * (d + prev.2) * d * prev.2)

/-- The stop check of one axis at a LAST segment (R54). -/
def stopPasses (a : Nat) (delta : Int) (d : Nat) (last : Bool) : Bool :=
  !last || decide (delta.natAbs * 1000000 ≤ a * (d * d))

/-- The (Δ, duration) pair before a segment: from rest in anchor mode (R54). -/
def ChainTail.before (t : ChainTail) (d : Nat) (ax : AxisName) : Int × Nat :=
  match t.end_ with
  | none => (0, d)
  | some _ => t.prev.get ax

/-- The end position a segment record names for an axis. -/
def SegmentRecord.endOf (r : SegmentRecord) : AxisName → Mdeg
  | .az => r.azEnd | .el => r.elEnd

/-- Δ of an axis of an arriving segment (R47, R53). -/
def ChainTail.delta (t : ChainTail) (r : SegmentRecord) (ax : AxisName) : Int :=
  r.endOf ax - t.pos.get ax

/-- The first check an arriving segment fails, in the order of R52; none where it passes all. -/
def State.segmentFails (s : State) (a : Ant) (t : ChainTail) (r : SegmentRecord) : Option SegCause :=
  if !t.follows s.now r then some .contiguity
  else if !(a.axes.all fun i => (s.axis i).record.holds (r.endOf i.ax)) then some .limit
  else if !(a.axes.all fun i => speedPasses (s.limitV i) (t.delta r i.ax) r.duration) then some .speed
  else if !(a.axes.all fun i =>
      accelPasses (s.limitA i) (t.delta r i.ax) r.duration (t.before r.duration i.ax)
        && stopPasses (s.limitA i) (t.delta r i.ax) r.duration r.last) then some .accel
  else if (s.track a).free = 0 then some .full
  else none

/-- The STAGED segment of a record behind a chain tail (R53). -/
def ChainTail.stage (t : ChainTail) (r : SegmentRecord) : Segment :=
  { start := r.start, duration := r.duration, startPos := t.pos, endPos := ⟨r.azEnd, r.elEnd⟩
    last := r.last, state := .staged }

/-- The chain tail a staged segment becomes (R52). -/
def Segment.tail (g : Segment) : ChainTail := ⟨some g.finish, g.endPos, g.pairs, g.last⟩

/-- Stage a segment at the tail of the queue (R52). -/
def State.stageSegment (s : State) (a : Ant) (g : Segment) : State :=
  let t := s.modTrack a fun t => { t with segments := t.segments ++ [g] }
  { t with burst := { t.burst with staged := t.burst.staged + 1, tail := some g.tail } }

/-- Take one segment record (R52): indexed, counted and added to the running CRC; checked and staged
while no first error is recorded. -/
def State.takeSegment (s : State) (a : Ant) (bytes : List Byte) : State :=
  let index := s.burst.received
  let t := { s with burst :=
    { s.burst with received := index + 1, crc := crc32Run s.burst.crc bytes } }
  match s.burst.firstError, s.burst.tail with
  | none, some tail =>
    match s.segmentFails a tail (segmentOf bytes) with
    | none => t.stageSegment a (tail.stage (segmentOf bytes))
    | some c => { t with burst := { t.burst with firstError := some (index, c) } }
  | _, _ => t

/-- A segment record is well formed (R52, R209). -/
def SegmentRecord.formed (r : SegmentRecord) : Bool :=
  decide (10 ≤ r.duration) && decide (r.duration ≤ 10000) && decide (r.duration % 10 = 0) && !r.reserved

/-- A BURST_DATA frame is refused RANGE for its segments (R52, R209). -/
def burstMalformed (records : List (List Byte)) : Bool :=
  records.isEmpty || decide (8 < records.length) || records.any fun b => !(segmentOf b).formed

/-- An open channel takes a frame's segments in order (R52, R56). -/
def State.takeData (s : State) (a : Ant) (records : List (List Byte)) : Answer :=
  let t := { s with burst := { s.burst with lastFrame := some s.now } }
  let t := forEach records (fun s b => s.takeSegment a b) t
  let free := (t.track a).free
  let paused := decide (free < 8)
  let t := if paused then t.modTrack a fun q => { q with pauseReported := true } else t
  ⟨if paused then .paused else .ok,
    .burst (t.burst.staged - s.burst.staged) t.burst.staged t.burst.received t.burst.firstError free, t⟩

/-- A data, close or abort frame with no burst open (R52, R57, R58, R59): TERMINATED, which clears the
record, or BAD_STATE. -/
def State.noBurst (s : State) : Answer :=
  match s.burst.termination with
  | none => refuse s .badState
  | some (_, r) =>
    ⟨.terminated, .terminated r, { s with burst := { s.burst with termination := none } }⟩

/-- The segment records of a BURST_DATA body (R208). -/
def burstRecords (body : List Byte) : List (List Byte) := chunk16 (body.headD 0).toNat body.tail

/-- What BURST_DATA answers (R52). DESIGN CHOICE (log 43): with no burst open a body whose length fits its count
is answered as R52 says, also where the count is 0 or above 8; R208's layout could refuse it RANGE first. -/
def State.burstData (s : State) (body : List Byte) : Answer :=
  if !bodyLengthFits .burstData body then refuse s .range
  else
    match s.burst.ant with
    | none => s.noBurst
    | some a =>
      if burstMalformed (burstRecords body) then refuse s .range else s.takeData a (burstRecords body)

/-- BURST_DATA (R52). -/
def execBurstData (tag : Byte) (body : List Byte) (s : State) : Host.Outcome State Fault Refusal :=
  serve .operations .burstData tag s (fun s => s.burstData body) (fits := fun b => decide (b = body))

/-! ### BURST_CLOSE and BURST_ABORT (R57, R58) -/

/-- The STAGED segments of a queue become QUEUED (R57). -/
def Track.commit (t : Track) : Track :=
  { t with segments := t.segments.map fun (g : Segment) =>
      if g.state = .staged then { g with state := .queued } else g }

/-- Commit the STAGED segments: all become QUEUED, the channel closes, and an IDLE queue begins (R57). -/
def State.commitBurst (s : State) (a : Ant) : State :=
  let idle := decide ((s.track a).run = .idle)
  let t := ({ s with burst := s.burst.closed }).modTrack a Track.commit
  match (t.track a).firstStart with
  | none => t
  | some first => if idle then t.beginQueue a first else t

/-- How a close is decided with a burst open (R57). -/
def State.closeBurst (s : State) (a : Ant) (count : Nat) (crc : BitVec 32) : Answer :=
  match s.burst.firstError with
  | some (n, .full) => ⟨.full, .segError n .full, s.discardBurst a⟩
  | some (n, c) => ⟨.range, .segError n c, s.discardBurst a⟩
  | none =>
    if count ≠ s.burst.received then ⟨.count, .count s.burst.received, s.discardBurst a⟩
    else if crc ≠ crc32Value s.burst.crc then ⟨.crc, .empty, s.discardBurst a⟩
    else okWith (.count (s.track a).stagedSegments.length) (s.commitBurst a)

/-- BURST_CLOSE(count, CRC) (R57). -/
def execBurstClose (tag : Byte) (count : Nat) (crc : BitVec 32) (s : State) :
    Host.Outcome State Fault Refusal :=
  request .operations .burstClose tag s fun s =>
    match s.burst.ant with
    | none => s.noBurst
    | some a => s.closeBurst a count crc

/-- BURST_ABORT (R58). -/
def execBurstAbort (tag : Byte) (s : State) : Host.Outcome State Fault Refusal :=
  serve .operations .burstAbort tag s fun s =>
    match s.burst.ant with
    | none => s.noBurst
    | some a => okWith (.count s.burst.received) (s.discardBurst a)

/-! ### TRACK_CLEAR (R68) -/

/-- The record after TRACK_CLEAR (R68). -/
def Track.cleared (t : Track) : Track :=
  { t with segments := [], run := .idle, halted := false, haltReason := none, firstAbandoned := none
           abandoned := 0, underruns := 0, done := 0, pauseReported := false }

/-- TRACK_CLEAR takes the queue's segments and lets the axes go (R68). -/
def State.clearTrack (s : State) (a : Ant) : State :=
  let t := s.modTrack a Track.cleared
  (if (s.track a).empty then t else t.releaseRun a).raise (antFlag .track a)

/-- TRACK_CLEAR(antenna) (R68). -/
def execTrackClear (tag : Byte) (ant : Nat) (s : State) : Host.Outcome State Fault Refusal :=
  request .operations .trackClear tag s fun s =>
    withAnt s ant fun a =>
      check s (decide (s.burst.ant ≠ some a)) .busy
      (okWith (.track (s.track a).record) (s.clearTrack a))

/-! ### The queues' events (R59 to R65) -/

/-- The antenna of a burst whose inactivity limit has passed (R59). -/
def State.burstOver (s : State) : Option Ant :=
  if passed s.now s.burst.lastFrame 5000 then s.burst.ant else none

/-- BURST_TIMEOUT (R59). -/
def execBurstTimeout (s : State) : Host.Outcome State Fault Refusal :=
  occurAlone s s.burstOver.isSome fun s =>
    match s.burstOver with
    | none => s
    | some a => s.terminateBurst a .timeout

/-- The first start epoch is 2 s away or less (R60). -/
def State.prepareDue (s : State) (a : Ant) : Bool :=
  match (s.track a).firstStart with
  | none => false
  | some e => decide ((s.track a).run = .waiting) && decide (e ≤ s.now + 2000)

/-- QUEUE_PREPARE (R60). -/
def execQueuePrepare (a : Ant) (s : State) : Host.Outcome State Fault Refusal :=
  occur s (s.prepareDue a) fun s => s.prepareQueue a

/-- The first start epoch has come (R61). -/
def State.startingDue (s : State) (a : Ant) : Bool :=
  match (s.track a).firstStart with
  | none => false
  | some e => decide ((s.track a).run = .preparing) && decide (e ≤ s.now)

/-- QUEUE_STARTING (R61). -/
def execQueueStarting (a : Ant) (s : State) : Host.Outcome State Fault Refusal :=
  occurAlone s (s.startingDue a) fun s => s.startingQueue a

/-- No raise of the run is still waiting for its grant. -/
def Track.askedNone (t : Track) : Bool :=
  decide (t.raises.az ≠ .asked) && decide (t.raises.el ≠ .asked)

/-- The first segment of a STARTING queue within S..S+100 whose axes are ready (R61): its checks and raises are
due, or, with both raises granted, its run at a servo step. -/
def State.runStarts (s : State) (a : Ant) : Option Segment :=
  match (s.track a).live with
  | [] => none
  | g :: _ =>
    if (s.track a).run = .starting ∧ g.start ≤ s.now ∧ s.now ≤ g.start + 100
        ∧ s.bothReady a = true ∧ (s.track a).askedNone = true
        ∧ ((s.track a).raised = true → s.atServo = true) then some g
    else none

/-- Ask the raise of one axis, if it is not yet asked (R61). DESIGN CHOICE (log 28): a raise dropped at a full
grant queue (R164) is asked again, after the checks, at each later epoch of S..S+100. -/
def State.askRaise (s : State) (i : AxisId) : State :=
  if (s.track i.ant).raises.get i.ax = .none then
    (s.noteRaise i .asked).askNeed i .track (s.trackingFigure i - (s.axis i).record.hold)
  else s

/-- Ask both raises, each once freed room has been offered (R165); at a servo step at which both are granted the
run starts (R61). -/
def State.raiseAndRun (s : State) (a : Ant) : State :=
  let t := forEach a.axes (fun s i => s.offerFirst.askRaise i) s
  if (t.track a).raised && t.atServo then t.enterRun a else t

/-- The start of a run on its first segment: activation check, capture check, then the raises (R61). -/
def State.startRun (s : State) (a : Ant) (g : Segment) : State :=
  if (s.track a).raised then s.enterRun a
  else if !s.activates a g then s.haltQueue a .config
  else if !s.captures a g then s.haltQueue a .capture
  else s.raiseAndRun a

/-- QUEUE_RUN_START (R61). -/
def execQueueRunStart (a : Ant) (s : State) : Host.Outcome State Fault Refusal :=
  occur s (s.runStarts a).isSome fun s =>
    match s.runStarts a with
    | none => s
    | some g => s.startRun a g

/-- S + 100 ms has passed on a STARTING queue (R61). -/
def State.lateDue (s : State) (a : Ant) : Bool :=
  match (s.track a).firstStart with
  | none => false
  | some e => decide ((s.track a).run = .starting) && decide (e + 100 ≤ s.now)

/-- QUEUE_LATE (R61). -/
def execQueueLate (a : Ant) (s : State) : Host.Outcome State Fault Refusal :=
  occur s (s.lateDue a) fun s => s.haltQueue a .late

/-- SEGMENT_COMPLETE (R63 to R65), at a servo step: segments complete while their ends have come, then both axes
follow the ACTIVE one. -/
def execSegmentComplete (a : Ant) (s : State) : Host.Outcome State Fault Refusal :=
  occur s (s.atServo && (s.segmentDue a).isSome) fun s => (s.completeSegments a 65).interpolate a

end Sys2Proof.Machine
end

