-- ==== Sys2Proof/Machine/WindEvents.lean ====
section
/-! DEFINITION. The meanings of the Wind Monitor's rows: the wind sample (R115 to R120), the SILENCE source
(R121) and CONFIG_WRITE(WIND) (R122). -/

namespace Sys2Proof.Machine

/-! ### Channels (R115) -/

/-- The run count after a reading (R115). -/
def Channel.nextRun (c : Channel) (r : Int) : Nat := if c.reading = some r then c.run + 1 else 1

/-- The reading is out of range (R115). -/
def outOfRange (r : Int) : Bool := decide (r < 0) || decide (800 < r)

/-- The health of a channel after a reading (R115): `run` is its new run count, `other` the other
channel's. -/
def Channel.nextHealth (c : Channel) (r : Int) (run other : Nat) : Health :=
  if outOfRange r then .range
  else if run = 300 ∧ other < 300 then .stuck
  else if c.health = .stuck ∧ run ≠ 1 then .stuck
  else .healthy

/-- A channel after a sample (R115). -/
def Channel.sampled (c : Channel) (r : Int) (other : Nat) : Channel :=
  ⟨some r, c.nextHealth r (c.nextRun r) other, c.nextRun r⟩

/-- Both channels read and judged (R115). -/
def Wind.judge (w : Wind) (r1 r2 : Int) : Wind :=
  { w with ch1 := w.ch1.sampled r1 (w.ch2.nextRun r2), ch2 := w.ch2.sampled r2 (w.ch1.nextRun r1) }

/-! ### The station sample (R116, R117) -/

/-- The station sample of judged channels (R116); `gust` is the STOW gust threshold in force. -/
def stationSample (h1 h2 : Health) (r1 r2 gust : Int) : Int :=
  match h1, h2 with
  | .healthy, .healthy => max r1 r2
  | .healthy, _ => r1
  | _, .healthy => r2
  | _, _ => gust

/-- The disagreement count after a sample (R116). -/
def disagreements (h1 h2 : Health) (r1 r2 : Int) (n : Nat) : Nat :=
  if h1 = .healthy ∧ h2 = .healthy ∧ 50 < (r1 - r2).natAbs then n + 1 else 0

/-- A sample joins the window at its newest end; the oldest of 600 leaves (R114, R117). -/
def joinWindow (xs : List Int) (x : Int) : List Int :=
  if 600 ≤ xs.length then xs.tail ++ [x] else xs ++ [x]

/-- The thresholds in force are formed afresh (R118). -/
def Wind.formThresholds (w : Wind) (ice : IceClass) : Wind := { w with inForce := w.record.thresholds ice }

/-- The marks and the window after judged channels give their station sample (R116, R117). -/
def Wind.formSample (w : Wind) (r1 r2 : Int) : Wind :=
  let n := disagreements w.ch1.health w.ch2.health r1 r2 w.disagreeCount
  { w with
    disagreeCount := n
    disagreeMark := decide (n ≠ 0) && (w.disagreeMark || decide (30 ≤ n))
    degraded := decide (w.ch1.health ≠ .healthy) && decide (w.ch2.health ≠ .healthy)
    window := joinWindow w.window (stationSample w.ch1.health w.ch2.health r1 r2 w.inForce.stow.gust) }

/-! ### The class (R118 to R120) -/

/-- A class's condition holds against a threshold pair in force (R118). -/
def Wind.meets (w : Wind) (p : Pair) : Bool :=
  match w.mean, w.gust with
  | some m, some g => decide (p.mean ≤ m) || decide (p.gust ≤ g)
  | _, _ => false

/-- A rise count after a sample (R119). -/
def nextRise (holds : Bool) (n : Nat) : Nat := if holds then satAdd 65535 n 1 else 0

/-- The rise counts after a sample (R119). -/
def Wind.countRises (w : Wind) : Wind :=
  { w with
    riseBreezy := nextRise (w.meets w.inForce.breezy) w.riseBreezy
    riseStrong := nextRise (w.meets w.inForce.strong) w.riseStrong
    riseStow := nextRise (w.meets w.inForce.stow) w.riseStow }

/-- The highest class above the current one whose rise count has reached the filter (R119). -/
def Wind.risesTo (w : Wind) : Option WindClass :=
  if w.cls.num < 3 ∧ w.record.filter ≤ w.riseStow then some .stow
  else if w.cls.num < 2 ∧ w.record.filter ≤ w.riseStrong then some .strong
  else if w.cls.num < 1 ∧ w.record.filter ≤ w.riseBreezy then some .breezy
  else none

/-- The condition of the current class holds (R120); CALM has none. -/
def Wind.holdsClass (w : Wind) : Bool :=
  match w.cls with
  | .calm => true
  | .breezy => w.meets w.inForce.breezy
  | .strong => w.meets w.inForce.strong
  | .stow => w.meets w.inForce.stow

/-- One step down (R120). -/
def WindClass.down : WindClass → WindClass
  | .stow => .strong | .strong => .breezy | _ => .calm

/-- The fall count of a class that did not rise, and a fall at the hold-down (R120). -/
def Wind.countFall (w : Wind) : Wind :=
  if w.cls = .calm then w
  else if w.holdsClass then { w with fall := 0 }
  else if w.record.holdDown ≤ w.fall + 1 then { w with cls := w.cls.down, fall := 0 }
  else { w with fall := w.fall + 1 }

/-- The class after a sample (R119, R120). -/
def Wind.classify (w : Wind) : Wind :=
  match w.risesTo with
  | some c => { w with cls := c, fall := 0 }
  | none => w.countFall

/-- The Wind Monitor after a sample, every figure updated in the order of the rules (R114 to R120). -/
def Wind.sample (w : Wind) (ice : IceClass) (r1 r2 : Int) : Wind :=
  ((((w.judge r1 r2).formThresholds ice).formSample r1 r2).countRises).classify

/-- The wind sample: both anemometers are read, and a demand that becomes active takes the antennas
(R115, R121). -/
def State.sampleWind (s : State) (r1 r2 : Int) : State :=
  let t := { s with field := { s.field with anem1 := r1, anem2 := r2 } }
  t.changeWind fun w => w.sample s.stationIce r1 r2

/-- The Wind Monitor that a sample would leave. -/
def State.windAfter (s : State) (r1 r2 : Int) : Wind := s.wind.sample s.stationIce r1 r2

/-- WIND_SAMPLE (R115 to R121). -/
def execWindSample (r1 r2 : Int) (s : State) : Host.Outcome State Fault Refusal :=
  occur s true fun s => s.sampleWind r1 r2

/-- A channel of the Wind Monitor. -/
def Wind.channel (w : Wind) : ChannelId → Channel
  | .one => w.ch1 | .two => w.ch2

/-- The channel becomes STUCK at this sample (R115). -/
def State.becomesStuck (s : State) (ch : ChannelId) (r1 r2 : Int) : Bool :=
  decide ((s.wind.channel ch).health ≠ .stuck)
    && decide (((s.windAfter r1 r2).channel ch).health = .stuck)

/-- ANEMOMETER_STUCK (R115): the sample at which a channel becomes STUCK. -/
def execAnemometerStuck (ch : ChannelId) (r1 r2 : Int) (s : State) : Host.Outcome State Fault Refusal :=
  occur s (s.becomesStuck ch r1 r2) fun s => s.sampleWind r1 r2

/-- The disagreement mark is set at this sample (R116). -/
def State.becomesMarked (s : State) (r1 r2 : Int) : Bool :=
  !s.wind.disagreeMark && (s.windAfter r1 r2).disagreeMark

/-- WIND_DISAGREEMENT_MARK (R116): the sample at which the mark is set. -/
def execWindDisagreementMark (r1 r2 : Int) (s : State) : Host.Outcome State Fault Refusal :=
  occur s (s.becomesMarked r1 r2) fun s => s.sampleWind r1 r2

/-- The class rises at this sample (R119). -/
def State.classRises (s : State) (r1 r2 : Int) : Bool :=
  decide (s.wind.cls.num < (s.windAfter r1 r2).cls.num)

/-- WIND_CLASS_RISE (R119): the sample at which the class rises. -/
def execWindClassRise (r1 r2 : Int) (s : State) : Host.Outcome State Fault Refusal :=
  occur s (s.classRises r1 r2) fun s => s.sampleWind r1 r2

/-- The class falls at this sample (R120). -/
def State.classFalls (s : State) (r1 r2 : Int) : Bool :=
  decide ((s.windAfter r1 r2).cls.num < s.wind.cls.num)

/-- WIND_CLASS_FALL (R120): the sample at which the class falls. -/
def execWindClassFall (r1 r2 : Int) (s : State) : Host.Outcome State Fault Refusal :=
  occur s (s.classFalls r1 r2) fun s => s.sampleWind r1 r2

/-! ### SILENCE and the WIND record (R121, R122) -/

/-- The Safety link silence timer has passed the silence timeout (R121). -/
def State.safetySilent (s : State) : Bool :=
  !s.wind.silence && passed s.now (s.link .safety).silence (s.wind.record.silence * 1000)

/-- The SILENCE source is added (R121). -/
def State.addSilence (s : State) : State := s.changeWind fun w => { w with silence := true }

/-- SAFETY_SILENCE (R121). -/
def execSafetySilence (s : State) : Host.Outcome State Fault Refusal :=
  occur s s.safetySilent fun s => s.addSilence

/-- Take a WIND record (R122): a silence timeout already passed adds SILENCE in this event. -/
def State.writeWind (s : State) (r : WindRecord) : State :=
  let t := ({ s with wind := { s.wind with record := r } }).queueWrite .wind
  if t.safetySilent then t.addSilence else t

/-- CONFIG_WRITE(WIND) (R122). -/
def execConfigWriteWind (tag : Byte) (f : WindFigures) (s : State) : Host.Outcome State Fault Refusal :=
  request .safety .configWrite tag s (fun s =>
    match WindFigures.accepted f with
    | none => refuse s .range
    | some r =>
      check s (!s.store.refuses .wind) .full
        (okOrClamped (decide (WindFigures.clamp f ≠ f)) (.windRecord r) (s.writeWind r)))
    (fits := configFits .wind)

end Sys2Proof.Machine
end

