-- ==== Sys2Proof/Machine/Dispatch.lean ====
section
/-! DEFINITION. The one place where a command meets its meaning: one arm per row of the opcode table. -/

namespace Sys2Proof.Machine

/-- The effect of a command on everything but the queue of waiting commands. -/
def exec (i : Instr) (s : State) : Host.Outcome State Fault Refusal :=
  match i with
  | .powerOn => Sys2Proof.Machine.execPowerOn s
  | .powerLoss => Sys2Proof.Machine.execPowerLoss s
  | .frameReceived link bytes => Sys2Proof.Machine.execFrameReceived link bytes s
  | .badKind link kind tag body => Sys2Proof.Machine.execBadKind link kind tag body s
  | .replySent link => Sys2Proof.Machine.execReplySent link s
  | .noticeSent link => Sys2Proof.Machine.execNoticeSent link s
  | .statusReadAntenna link tag ant part => Sys2Proof.Machine.execStatusReadAntenna link tag ant part s
  | .statusReadTrack link tag ant part => Sys2Proof.Machine.execStatusReadTrack link tag ant part s
  | .statusReadGroup link tag part => Sys2Proof.Machine.execStatusReadGroup link tag part s
  | .statusReadLockouts link tag part => Sys2Proof.Machine.execStatusReadLockouts link tag part s
  | .statusReadWind link tag part => Sys2Proof.Machine.execStatusReadWind link tag part s
  | .statusReadHeat link tag part => Sys2Proof.Machine.execStatusReadHeat link tag part s
  | .statusReadBudget link tag part => Sys2Proof.Machine.execStatusReadBudget link tag part s
  | .statusReadStore link tag part => Sys2Proof.Machine.execStatusReadStore link tag part s
  | .statusReadPermit link tag part => Sys2Proof.Machine.execStatusReadPermit link tag part s
  | .changesAck link tag values mask => Sys2Proof.Machine.execChangesAck link tag values mask s
  | .noticeEnableOn link tag => Sys2Proof.Machine.execNoticeEnableOn link tag s
  | .noticeEnableOff link tag => Sys2Proof.Machine.execNoticeEnableOff link tag s
  | .timeSet tag epoch => Sys2Proof.Machine.execTimeSet tag epoch s
  | .axisEnableOn tag ant => Sys2Proof.Machine.execAxisEnableOn tag ant s
  | .axisEnableHold tag ant => Sys2Proof.Machine.execAxisEnableHold tag ant s
  | .axisEnableOff tag ant => Sys2Proof.Machine.execAxisEnableOff tag ant s
  | .driveReset tag ant => Sys2Proof.Machine.execDriveReset tag ant s
  | .encoderSelect tag ant axis enc => Sys2Proof.Machine.execEncoderSelect tag ant axis enc s
  | .encoderDisable tag ant axis enc => Sys2Proof.Machine.execEncoderDisable tag ant axis enc s
  | .encoderRestore tag ant axis enc => Sys2Proof.Machine.execEncoderRestore tag ant axis enc s
  | .configWriteAxis tag ant axis figures => Sys2Proof.Machine.execConfigWriteAxis tag ant axis figures s
  | .configWriteStation tag figures => Sys2Proof.Machine.execConfigWriteStation tag figures s
  | .configWriteZone tag ant zone figures => Sys2Proof.Machine.execConfigWriteZone tag ant zone figures s
  | .configWriteWind tag figures => Sys2Proof.Machine.execConfigWriteWind tag figures s
  | .burstOpen tag ant anchor => Sys2Proof.Machine.execBurstOpen tag ant anchor s
  | .burstData tag body => Sys2Proof.Machine.execBurstData tag body s
  | .burstClose tag count crc => Sys2Proof.Machine.execBurstClose tag count crc s
  | .burstAbort tag => Sys2Proof.Machine.execBurstAbort tag s
  | .trackClear tag ant => Sys2Proof.Machine.execTrackClear tag ant s
  | .burstTimeout => Sys2Proof.Machine.execBurstTimeout s
  | .queuePrepare a => Sys2Proof.Machine.execQueuePrepare a s
  | .queueStarting a => Sys2Proof.Machine.execQueueStarting a s
  | .queueRunStart a => Sys2Proof.Machine.execQueueRunStart a s
  | .queueLate a => Sys2Proof.Machine.execQueueLate a s
  | .segmentComplete a => Sys2Proof.Machine.execSegmentComplete a s
  | .groupPlan tag id members => Sys2Proof.Machine.execGroupPlan tag id members s
  | .groupArm tag id start => Sys2Proof.Machine.execGroupArm tag id start s
  | .groupCancel tag id => Sys2Proof.Machine.execGroupCancel tag id s
  | .groupRead tag id part => Sys2Proof.Machine.execGroupRead tag id part s
  | .groupStart g => Sys2Proof.Machine.execGroupStart g s
  | .groupStartGraceExpiry g => Sys2Proof.Machine.execGroupStartGraceExpiry g s
  | .groupDone g => Sys2Proof.Machine.execGroupDone g s
  | .groupSettleLimit g => Sys2Proof.Machine.execGroupSettleLimit g s
  | .holdPlace tag ant cover reason => Sys2Proof.Machine.execHoldPlace tag ant cover reason s
  | .holdRemove tag slot ant => Sys2Proof.Machine.execHoldRemove tag slot ant s
  | .lockPlace tag sender cover reason => Sys2Proof.Machine.execLockPlace tag sender cover reason s
  | .lockRemove tag sender slot => Sys2Proof.Machine.execLockRemove tag sender slot s
  | .forceRemove tag slot target => Sys2Proof.Machine.execForceRemove tag slot target s
  | .localClaim tag n => Sys2Proof.Machine.execLocalClaim tag n s
  | .localRelease tag n => Sys2Proof.Machine.execLocalRelease tag n s
  | .pendantSilenceExpiry n => Sys2Proof.Machine.execPendantSilenceExpiry n s
  | .jog tag n axis dir speed => Sys2Proof.Machine.execJog tag n axis dir speed s
  | .jogDeadman n => Sys2Proof.Machine.execJogDeadman n s
  | .forceRemovalTimerExpiry n => Sys2Proof.Machine.execForceRemovalTimerExpiry n s
  | .warningTimerExpiry n => Sys2Proof.Machine.execWarningTimerExpiry n s
  | .heatSet tag sender zone mode level => Sys2Proof.Machine.execHeatSet tag sender zone mode level s
  | .iceFloor tag ant cls => Sys2Proof.Machine.execIceFloor tag ant cls s
  | .weather tag temp precip => Sys2Proof.Machine.execWeather tag temp precip s
  | .stowDemandOn tag => Sys2Proof.Machine.execStowDemandOn tag s
  | .stowDemandOff tag => Sys2Proof.Machine.execStowDemandOff tag s
  | .stowRelease tag => Sys2Proof.Machine.execStowRelease tag s
  | .allStop tag => Sys2Proof.Machine.execAllStop tag s
  | .permitWrite tag entry => Sys2Proof.Machine.execPermitWrite tag entry s
  | .permitWriteDefault tag verdict => Sys2Proof.Machine.execPermitWriteDefault tag verdict s
  | .restart tag => Sys2Proof.Machine.execRestart tag s
  | .servoStep io => Sys2Proof.Machine.execServoStep io s
  | .profileEnd axis => Sys2Proof.Machine.execProfileEnd axis s
  | .stopEnd axis => Sys2Proof.Machine.execStopEnd axis s
  | .busUp a => Sys2Proof.Machine.execBusUp a s
  | .prechargeTimeout a => Sys2Proof.Machine.execPrechargeTimeout a s
  | .busOutOfBand a => Sys2Proof.Machine.execBusOutOfBand a s
  | .busBackInBand a => Sys2Proof.Machine.execBusBackInBand a s
  | .holdingCurrentReached axis => Sys2Proof.Machine.execHoldingCurrentReached axis s
  | .torqueUpTimeout axis => Sys2Proof.Machine.execTorqueUpTimeout axis s
  | .brakeReleaseConfirmed axis => Sys2Proof.Machine.execBrakeReleaseConfirmed axis s
  | .releaseCheckTimeout axis => Sys2Proof.Machine.execReleaseCheckTimeout axis s
  | .brakeSetConfirmed axis => Sys2Proof.Machine.execBrakeSetConfirmed axis s
  | .brakeSetTimeout axis => Sys2Proof.Machine.execBrakeSetTimeout axis s
  | .idleBrakeExpiry axis => Sys2Proof.Machine.execIdleBrakeExpiry axis s
  | .encoderDisagreementFault axis => Sys2Proof.Machine.execEncoderDisagreementFault axis s
  | .encoderFaultReport axis enc => Sys2Proof.Machine.execEncoderFaultReport axis enc s
  | .encoderReportCleared axis enc => Sys2Proof.Machine.execEncoderReportCleared axis enc s
  | .followingFault axis => Sys2Proof.Machine.execFollowingFault axis s
  | .limitSwitchTripped axis highEnd => Sys2Proof.Machine.execLimitSwitchTripped axis highEnd s
  | .amplifierFault axis => Sys2Proof.Machine.execAmplifierFault axis s
  | .windSample r1 r2 => Sys2Proof.Machine.execWindSample r1 r2 s
  | .anemometerStuck ch r1 r2 => Sys2Proof.Machine.execAnemometerStuck ch r1 r2 s
  | .windDisagreementMark r1 r2 => Sys2Proof.Machine.execWindDisagreementMark r1 r2 s
  | .windClassRise r1 r2 => Sys2Proof.Machine.execWindClassRise r1 r2 s
  | .windClassFall r1 r2 => Sys2Proof.Machine.execWindClassFall r1 r2 s
  | .safetySilence => Sys2Proof.Machine.execSafetySilence s
  | .waveStart => Sys2Proof.Machine.execWaveStart s
  | .pinWarmingTimeout a => Sys2Proof.Machine.execPinWarmingTimeout a s
  | .pinInSwitchMade a => Sys2Proof.Machine.execPinInSwitchMade a s
  | .pinInsertTimeout a => Sys2Proof.Machine.execPinInsertTimeout a s
  | .pinInSwitchOpened a => Sys2Proof.Machine.execPinInSwitchOpened a s
  | .pinOutSwitchMade a => Sys2Proof.Machine.execPinOutSwitchMade a s
  | .pinWithdrawTimeout a => Sys2Proof.Machine.execPinWithdrawTimeout a s
  | .heaterStep zone reading => Sys2Proof.Machine.execHeaterStep zone reading s
  | .heaterFrameStart zone reading => Sys2Proof.Machine.execHeaterFrameStart zone reading s
  | .weatherStale => Sys2Proof.Machine.execWeatherStale s
  | .wetTimerExpiry a => Sys2Proof.Machine.execWetTimerExpiry a s
  | .freezeTimerExpiry a => Sys2Proof.Machine.execFreezeTimerExpiry a s
  | .thawTimerExpiry a => Sys2Proof.Machine.execThawTimerExpiry a s
  | .grantQueueTimeout axis => Sys2Proof.Machine.execGrantQueueTimeout axis s
  | .shedHalfCheck => Sys2Proof.Machine.execShedHalfCheck s
  | .shedExpiry => Sys2Proof.Machine.execShedExpiry s
  | .restorationStep => Sys2Proof.Machine.execRestorationStep s
  | .storeSupplyLow => Sys2Proof.Machine.execStoreSupplyLow s
  | .storeWriteStart => Sys2Proof.Machine.execStoreWriteStart s
  | .storeWriteComplete => Sys2Proof.Machine.execStoreWriteComplete s
  | .storeHeadWaitExpiry => Sys2Proof.Machine.execStoreHeadWaitExpiry s

end Sys2Proof.Machine
end

