-- ==== Sys2Proof/Machine/Schedule.lean ====
section
/-! DEFINITION. The passing of time (R1, R2, R4, R193; DESIGN CHOICE, log 1): on an empty queue one
millisecond passes, and the paced steps, timer expiries and field events that fall at the new epoch join the
queue, block by block. -/

namespace Sys2Proof.Machine

/-- A command, where its condition holds. -/
def dueIf (b : Bool) (c : Instr) : List Instr := if b then [c] else []

/-! ### The queues, groups and pads -/

/-- A queue whose first start epoch has come is STARTING from this epoch on (R61). -/
def State.started (s : State) (a : Ant) : State := if s.startingDue a then s.startingQueue a else s

/-- What falls due at one queue (R60, R61, R63): segments complete at a servo step; a run may start at the epoch
at which its queue goes STARTING; where its start and its lateness fall together, the start comes first. -/
def State.dueAtQueue (s : State) (servo : Bool) (a : Ant) : List Instr :=
  dueIf (s.prepareDue a) (.queuePrepare a)
  ++ dueIf (s.startingDue a) (.queueStarting a)
  ++ dueIf ((s.started a).runStarts a).isSome (.queueRunStart a)
  ++ dueIf ((s.started a).lateDue a) (.queueLate a)
  ++ dueIf (servo && (s.segmentDue a).isSome) (.segmentComplete a)

/-- What falls due at one group (R80 to R84). -/
def State.dueAtGroup (s : State) (servo : Bool) (g : GroupId) : List Instr :=
  dueIf (servo && s.groupStarts g) (.groupStart g)
  ++ dueIf (s.graceOver g && !(servo && s.groupStarts g)) (.groupStartGraceExpiry g)
  ++ dueIf (s.groupDone g) (.groupDone g)
  ++ dueIf (s.settleLimit g && !s.groupDone g) (.groupSettleLimit g)

/-- What falls due at one pad (R105, R107, R112). -/
def State.dueAtPad (s : State) (n : Ant) : List Instr :=
  dueIf (s.pendantSilent n) (.pendantSilenceExpiry n)
  ++ dueIf (s.deadmanOver n) (.jogDeadman n)
  ++ dueIf (passed s.now (s.locks.horns.get n).forceTimer 5000) (.forceRemovalTimerExpiry n)
  ++ dueIf (passed s.now (s.stowOf n).warningTimer 10000) (.warningTimerExpiry n)

/-! ### The drives -/

/-- What falls due at one drive bus (R9, R10). -/
def State.dueAtBus (s : State) (a : Ant) : List Instr :=
  dueIf (s.busUpDue a) (.busUp a)
  ++ dueIf (s.prechargeDue a && !s.busUpDue a) (.prechargeTimeout a)
  ++ dueIf (s.outOfBandDue a) (.busOutOfBand a)
  ++ dueIf (s.backInBandDue a) (.busBackInBand a)

/-- A switch or sense that an axis waits for shows (R14, R15). -/
def State.switchEvents (s : State) (i : AxisId) : List Instr :=
  let x := s.axis i
  let io := s.axisIn i
  dueIf (decide (x.state = .torqueUp) && io.current) (.holdingCurrentReached i)
  ++ dueIf (s.torqueUpDue i) (.torqueUpTimeout i)
  ++ dueIf (decide (x.state = .holding) && x.releaseCheck.isSome && io.releasedSwitch)
      (.brakeReleaseConfirmed i)
  ++ dueIf (s.releaseDue i) (.releaseCheckTimeout i)
  ++ dueIf (decide (x.state = .braking) && io.setSwitch) (.brakeSetConfirmed i)
  ++ dueIf (s.brakeSetDue i) (.brakeSetTimeout i)

/-- The active encoder's own-fault report has been raised and not yet acted on (R21, log 34). -/
def State.reportDue (s : State) (i : AxisId) (e : Enc) : Bool :=
  decide ((s.axis i).active = e) && AxisInputs.report (s.axisIn i) e && !(s.axis i).acted e

/-- A profile ends, and a stop ends, at a servo step (R17, R45). -/
def State.endingsOf (s : State) (i : AxisId) : List Instr :=
  dueIf (s.profileOver i).isSome (.profileEnd i) ++ dueIf (s.stopOver i).isSome (.stopEnd i)

/-- The servo step: the profiles and stops that end at it, then the step itself (R7, R83). -/
def State.dueAtServo (s : State) (servo : Bool) : List Instr :=
  if servo then AxisId.all.flatMap s.endingsOf ++ [.servoStep s.field] else []

/-- What falls due at one axis. -/
def State.dueAtAxis (s : State) (i : AxisId) : List Instr :=
  s.switchEvents i
  ++ dueIf (s.idleDue i) (.idleBrakeExpiry i)
  ++ dueIf (s.disagreementDue i) (.encoderDisagreementFault i)
  ++ dueIf (s.reportDue i .a) (.encoderFaultReport i .a)
  ++ dueIf (s.reportDue i .b) (.encoderFaultReport i .b)
  ++ dueIf (s.followingDue i) (.followingFault i)
  ++ dueIf ((s.axisIn i).limitLow && !(s.axis i).state.isFaulted) (.limitSwitchTripped i false)
  ++ dueIf ((s.axisIn i).limitHigh && !(s.axis i).state.isFaulted) (.limitSwitchTripped i true)
  ++ dueIf ((s.axisIn i).ampFault && (s.axis i).amplifier && faultTakes (s.axis i).state .amplifier)
      (.amplifierFault i)

/-! ### Wind, stow, heaters, feed and store -/

/-- The warning timers that run out at this epoch are stopped before a wave starts (R129). -/
def State.warned (s : State) : State :=
  forEach Ant.all (fun s a =>
    if passed s.now (s.stowOf a).warningTimer 10000 then s.setWarning a none else s) s

/-- The wind sample, the SILENCE source, and a wave that starts at a servo step (R115, R121, R129). -/
def State.dueAtWind (s : State) (servo : Bool) : List Instr :=
  dueIf (fallsAt s.pace.wind 1000 s.now) (.windSample s.field.anem1 s.field.anem2)
  ++ dueIf s.safetySilent .safetySilence
  ++ dueIf (servo && s.warned.waveReady.isSome) .waveStart

/-- What falls due at one stow pin (R131, R132, R135). -/
def State.dueAtPin (s : State) (a : Ant) : List Instr :=
  let st := (s.stowOf a).state
  let io := s.field.ants.get a
  dueIf (s.warmingOver a) (.pinWarmingTimeout a)
  ++ dueIf (decide (st = .pinInserting) && io.pinIn) (.pinInSwitchMade a)
  ++ dueIf (s.insertOver a) (.pinInsertTimeout a)
  ++ dueIf (decide (st = .stowed) && !io.pinIn) (.pinInSwitchOpened a)
  ++ dueIf (decide (st = .pinWithdrawing) && io.pinOut) (.pinOutSwitchMade a)
  ++ dueIf (s.withdrawOver a) (.pinWithdrawTimeout a)

/-- The heater step of a zone, with its sensor as it stands (R141, R144). -/
def State.heaterCommand (s : State) (z : ZoneId) : Instr :=
  .heaterStep z ((s.field.ants.get z.ant).temps.get z.cls)

/-- An ice timer's conditions no longer agree with its running, as where the weather report has become
stale (R151). -/
def State.iceTimersMove (s : State) : Bool :=
  Ant.all.any fun a => decide ((s.runIceTimers a).ice a ≠ s.ice a)

/-- What falls due at the ice figures of one antenna (R152, R153). -/
def State.dueAtIce (s : State) (a : Ant) : List Instr :=
  dueIf (s.wetOver a) (.wetTimerExpiry a)
  ++ dueIf (s.freezeOver a) (.freezeTimerExpiry a)
  ++ dueIf (s.thawOver a) (.thawTimerExpiry a)

/-- The heater steps and the ice rows. -/
def State.dueAtHeat (s : State) : List Instr :=
  (if fallsAt s.pace.heater 250 s.now then ZoneId.all.map s.heaterCommand else [])
  ++ dueIf (s.weatherStale && s.iceTimersMove) .weatherStale
  ++ Ant.all.flatMap s.dueAtIce

/-- What falls due at the Feed Arbiter (R166, R171, R172). -/
def State.dueAtFeed (s : State) : List Instr :=
  AxisId.all.flatMap (fun i => dueIf (s.needOver i).isSome (.grantQueueTimeout i))
  ++ dueIf s.halfDue .shedHalfCheck
  ++ dueIf s.shedOver .shedExpiry
  ++ dueIf s.stepDue .restorationStep

/-- The write in progress has had its 50 ms (R201). -/
def State.writeOver (s : State) : Bool :=
  match s.store.writing with
  | none => false
  | some w => decide (w.start + 50 ≤ s.now)

/-- What falls due at the Settings Store (R201). -/
def State.dueAtStore (s : State) : List Instr :=
  dueIf s.mayStartWrite .storeWriteStart
  ++ dueIf s.writeOver .storeWriteComplete
  ++ dueIf s.headWaitOver .storeHeadWaitExpiry

/-! ### The tick -/

/-- Everything that falls due at the epoch; the servo step comes before what stops an axis at its epoch. -/
def State.dueNow (s : State) : List Instr :=
  let servo := s.atServo
  dueIf s.burstOver.isSome .burstTimeout
  ++ Ant.all.flatMap (s.dueAtQueue servo)
  ++ GroupId.all.flatMap (s.dueAtGroup servo)
  ++ s.dueAtServo servo
  ++ Ant.all.flatMap s.dueAtPad
  ++ Ant.all.flatMap s.dueAtBus
  ++ AxisId.all.flatMap s.dueAtAxis
  ++ s.dueAtWind servo
  ++ Ant.all.flatMap s.dueAtPin
  ++ s.dueAtHeat
  ++ s.dueAtFeed
  ++ s.dueAtStore

/-- One millisecond passes on the 48-bit clock (R193). PRESUMED (log 14): after the last epoch it goes on with 0, and
the paces keep their phases on it, so that the period across the wrap is cut short. -/
def State.advance (s : State) : State :=
  { s with clock := { s.clock with epoch := (s.clock.epoch + 1) % 281474976710656 } }

/-- What an idle part does: with power, a millisecond passes and what falls due joins the queue; without
power, nothing. -/
def State.idle (s : State) : State :=
  if s.powered then { s.advance with pending := s.pending ++ s.advance.dueNow } else s

end Sys2Proof.Machine
end

