-- ==== Sys2Proof/Safety.lean ====
section
/-! DEFINITION. What the statements say of a run: that a command completes, what a reply says, the shapes
every state keeps, and the outputs that go with an axis state (R6). -/

namespace Sys2Proof.Machine

/-! ### Requests, replies and flags -/

/-- A link takes the request's frame now (R188): the part has power, no reply is outgoing on the link, and
a frame that waits there is this one: its kind, its tag, and a body that fits the request (R189). -/
def State.takes (s : State) (l : Link) (k : Kind) (tag : Byte)
    (fits : List Byte → Bool := bodyLengthFits k) : Prop :=
  s.powered = true ∧ s.mayTake l k.code tag fits = true

/-- The reply outgoing on a link answers the request of a kind and tag with a status and a body (R188). -/
def State.replied (t : State) (l : Link) (k : Kind) (tag : Byte) (c : Status) (b : ReplyBody) : Prop :=
  (t.link l).reply = some ⟨replyKind k.code, tag, c, b⟩

/-- Every link that carries a flag of the word has it set (R195). -/
def State.flagged (t : State) (w : FlagWord) : Prop :=
  ∀ l : Link, (t.link l).flags &&& (w &&& Link.mask l) = w &&& Link.mask l

/-- The store writes a changed record: its write waits in the queue or in the overflow list, and its
persisted mark is clear (R199, R200, R202). -/
def Store.owes (st : Store) (id : RecordId) : Prop :=
  (st.queued id = true ∨ st.overflows id = true) ∧ st.mark id = false

/-- The store holds the contents a write carries (R200, R201). -/
def Store.holds (st : Store) : RecordValue → Prop
  | .station r => st.station.contents = r
  | .wind r => st.wind.contents = r
  | .axis i r => ((st.axes.get i.ant).get i.ax).contents = r
  | .zone z r => ((st.zones.get z.ant).get z.cls).contents = r
  | .lockout n r => (st.lockouts[n]?).map Stored.contents = some r
  | .permit n r => (st.permits[n]?).map Stored.contents = some r

/-! ### What a command leaves alone -/

/-- A part of the state, for saying what a command leaves alone. `places`, `axisSettings`, `queues`,
`groupRecords`, `authority`, `hornTimers`, `zoneSettings` and `zoneRequests` each name a share of a greater
part (`drives`, `tracks`, `groups`, `authorities`, `horns`, `zones`) that more commands leave alone than the whole. -/
inductive Part where
  | power | clock | field
  /-- commanded positions and following errors -/
  | places
  /-- AXIS records, encoder selection and enables, configuration-invalid marks -/
  | axisSettings
  /-- everything of the six drives -/
  | drives
  /-- segments and track status records, but for the raises of a run -/
  | queues
  | tracks
  | burst
  /-- group records, but for whether the grant is held -/
  | groupRecords
  | groups
  /-- the 24 slots and their order -/
  | lockTable
  /-- who has authority, and since when -/
  | authority
  /-- authority records with their jogs -/
  | authorities
  /-- the horns' force-removal timers -/
  | hornTimers
  | horns | permits | wind | stow
  /-- configuration, mode and manual level of the zones -/
  | zoneSettings
  /-- sensors, PIN force, requested levels and step indexes of the zones -/
  | zoneRequests
  | zones
  | ice | weather
  /-- F, Bs, P and Vtrk -/
  | figures
  | feed
  | store | links | pace | freeCount | pending
deriving DecidableEq, Repr

/-- A queue but for the raises of a run. -/
def Track.plain (t : Track) : Track := { t with raises := ⟨.none, .none⟩ }

/-- A group record but for whether its grant is held. -/
def Group.plain (g : Group) : Group := { g with held := false }

/-- What an axis keeps through everything but its own servo step and requests. -/
def Axis.settings (x : Axis) : AxisRecord × Bool × Bool × Bool × Enc :=
  (x.record, x.recordWritten, x.enabledA, x.enabledB, x.active)

/-- Configuration, mode and manual level of a zone. -/
def Zone.settings (z : Zone) : ZoneRecord × HeatMode × Nat := (z.record, z.mode, z.manual)

/-- Sensor, force, requested level and step index of a zone. -/
def Zone.requests (z : Zone) : Option Int × Bool × Bool × Nat × Nat :=
  (z.reading, z.healthy, z.forced, z.requested, z.step)

/-- The part is the same in both states. -/
def Part.same : Part → State → State → Prop
  | .power, s, t => t.powered = s.powered
  | .clock, s, t => t.clock = s.clock
  | .field, s, t => t.field = s.field
  | .places, s, t => ∀ i, (t.axis i).position = (s.axis i).position
      ∧ (t.axis i).followingError = (s.axis i).followingError
  | .axisSettings, s, t => (∀ i, (t.axis i).settings = (s.axis i).settings)
      ∧ ∀ a, (t.ants.get a).configInvalid = (s.ants.get a).configInvalid
  | .drives, s, t => t.ants = s.ants
  | .queues, s, t => ∀ a, (t.track a).plain = (s.track a).plain
  | .tracks, s, t => t.tracks = s.tracks
  | .burst, s, t => t.burst = s.burst
  | .groupRecords, s, t => ∀ g, (t.groups.get g).plain = (s.groups.get g).plain
  | .groups, s, t => t.groups = s.groups
  | .lockTable, s, t => t.locks.slots = s.locks.slots ∧ t.locks.order = s.locks.order
  | .authority, s, t => ∀ a, (t.locks.authority.get a).isLocal = (s.locks.authority.get a).isLocal
      ∧ (t.locks.authority.get a).claimed = (s.locks.authority.get a).claimed
  | .authorities, s, t => t.locks.authority = s.locks.authority
  | .hornTimers, s, t => ∀ a, (t.locks.horns.get a).forceTimer = (s.locks.horns.get a).forceTimer
  | .horns, s, t => t.locks.horns = s.locks.horns
  | .permits, s, t => t.permits = s.permits
  | .wind, s, t => t.wind = s.wind
  | .stow, s, t => t.stow = s.stow
  | .zoneSettings, s, t => ∀ z, (t.zone z).settings = (s.zone z).settings
  | .zoneRequests, s, t => ∀ z, (t.zone z).requests = (s.zone z).requests
  | .zones, s, t => t.heat.zones = s.heat.zones
  | .ice, s, t => t.heat.ice = s.heat.ice
  | .weather, s, t => t.heat.weather = s.heat.weather
  | .figures, s, t => t.feed.limit = s.feed.limit ∧ t.feed.base = s.feed.base
      ∧ t.feed.period = s.feed.period ∧ t.feed.allowance = s.feed.allowance
  | .feed, s, t => t.feed = s.feed
  | .store, s, t => t.store = s.store
  | .links, s, t => t.links = s.links
  | .pace, s, t => t.pace = s.pace
  | .freeCount, s, t => t.freeCount = s.freeCount
  | .pending, s, t => t.pending = s.pending

/-- Everything but the named parts is the same. -/
structure Touches (ps : List Part) (s t : State) : Prop where
  same : ∀ p, p ∉ ps → p.same s t

/-- The parts that what follows an event can change (R12, R13, R85, R125, R128, R130, R165, R166). -/
def followParts : List Part :=
  [.drives, .tracks, .groups, .authorities, .horns, .stow, .zones, .feed]

/-- What a halt of a queue can change beyond it (R59, R66). -/
def queueParts : List Part := followParts ++ [.queues, .burst]

/-- What a run can change. -/
def runParts : List Part := queueParts ++ [.places]

/-- What a hand-over to the queue, the burst, the group and the jog can change (R26, R95). -/
def haltParts : List Part := queueParts ++ [.groupRecords]

/-- What taking the antennas for a stow can change (R124). -/
def takeParts : List Part := haltParts ++ [.authority]

/-- What the pin and a wave can change (R129, R131). -/
def pinParts : List Part := followParts ++ [.zoneRequests]

/-- What a removal can change (R98). -/
def removeParts : List Part := followParts ++ [.lockTable, .store]

/-- What a placement can change (R94, R95). -/
def placeParts : List Part := haltParts ++ [.lockTable, .store]

/-- What loading every record can change (R203, R204): all but the field, the free values and the queue of
commands. -/
def bootParts : List Part :=
  [.power, .clock, .places, .axisSettings, .drives, .queues, .tracks, .burst, .groupRecords, .groups,
   .lockTable, .authority, .authorities, .hornTimers, .horns, .permits, .wind, .stow, .zoneSettings, .zoneRequests,
   .zones, .ice, .weather, .figures, .feed, .store, .links, .pace]

/-- What taking a frame and answering it can change: the links, and on Safety the SILENCE source (R121). -/
def linkParts : Link → List Part
  | .safety => [.links, .wind]
  | _ => [.links]

/-- The parts each command can change; it leaves every other part as it is. -/
def touched : Instr → List Part
  | .powerOn => bootParts
  | .powerLoss => [.power, .store]
  | .frameReceived _ _ | .noticeSent _ => [.links]
  | .badKind l _ _ _ | .changesAck l _ _ _ | .noticeEnableOn l _ | .noticeEnableOff l _ => linkParts l
  | .replySent l => if l = .safety then .links :: followParts else [.links]
  | .statusReadAntenna l _ _ _ | .statusReadTrack l _ _ _ | .statusReadGroup l _ _
  | .statusReadLockouts l _ _ | .statusReadWind l _ _ | .statusReadHeat l _ _ | .statusReadBudget l _ _
  | .statusReadStore l _ _ | .statusReadPermit l _ _ => linkParts l ++ [.freeCount]
  | .timeSet _ _ =>
    [.links, .clock, .drives, .burst, .groups, .groupRecords, .authorities, .hornTimers, .horns, .stow,
     .ice, .weather, .feed, .store, .pace]
  | .axisEnableOn _ _ | .axisEnableHold _ _ | .axisEnableOff _ _ => .links :: followParts
  | .driveReset _ _ => [.links, .axisSettings] ++ followParts
  | .encoderSelect _ _ _ _ | .encoderDisable _ _ _ _ | .encoderRestore _ _ _ _ =>
    [.links, .drives, .axisSettings]
  | .configWriteAxis _ _ _ _ => [.links, .drives, .axisSettings, .store]
  | .configWriteStation _ _ => [.links, .figures, .store] ++ followParts
  | .configWriteZone _ _ _ _ => [.links, .zoneSettings, .zoneRequests, .store] ++ followParts
  | .configWriteWind _ _ => [.links, .wind, .store] ++ takeParts
  | .burstOpen _ _ _ => [.links, .permits, .burst]
  | .burstData _ _ | .burstAbort _ => [.links, .burst, .tracks, .queues]
  | .burstClose _ _ _ => .links :: queueParts
  | .trackClear _ _ => [.links, .queues] ++ followParts
  | .burstTimeout => [.links, .burst, .tracks, .queues]
  | .queuePrepare _ | .queueLate _ => .links :: queueParts
  | .queueStarting _ => [.links, .tracks, .queues]
  | .queueRunStart _ | .segmentComplete _ => .links :: runParts
  | .groupPlan _ _ _ => [.links, .permits, .groups, .groupRecords]
  | .groupArm _ _ _ | .groupCancel _ _ | .groupStart _ | .groupStartGraceExpiry _ | .groupDone _
  | .groupSettleLimit _ => [.links, .groupRecords] ++ followParts
  | .groupRead _ _ _ => [.links]
  | .holdPlace _ _ _ _ => .links :: placeParts
  | .lockPlace _ sender _ _ => linkParts (lockLink sender) ++ placeParts
  | .holdRemove _ _ _ => .links :: removeParts
  | .lockRemove _ sender _ => linkParts (unlockLink sender) ++ removeParts
  | .forceRemove _ _ _ => [.links, .wind, .hornTimers] ++ removeParts
  | .localClaim _ _ => [.links, .permits, .authority] ++ queueParts
  | .localRelease _ _ | .pendantSilenceExpiry _ => [.links, .authority] ++ followParts
  | .jog _ _ _ _ _ => [.links, .permits] ++ followParts
  | .jogDeadman _ => .links :: followParts
  | .forceRemovalTimerExpiry _ => [.links, .hornTimers, .horns]
  | .warningTimerExpiry _ => [.links, .horns, .stow]
  | .heatSet _ _ _ _ _ => [.links, .permits, .zoneSettings, .zoneRequests, .store] ++ followParts
  | .iceFloor _ _ _ | .wetTimerExpiry _ | .freezeTimerExpiry _ | .thawTimerExpiry _ =>
    [.links, .ice, .zoneRequests] ++ followParts
  | .weather _ _ _ => [.links, .wind, .weather, .ice]
  | .stowDemandOn _ | .stowDemandOff _ => [.links, .wind] ++ takeParts
  | .stowRelease _ => [.links, .wind] ++ followParts
  | .allStop _ => [.links, .wind] ++ haltParts
  | .permitWrite _ _ | .permitWriteDefault _ _ => [.links, .wind, .permits, .store]
  | .restart _ => [.links, .wind, .zoneSettings, .zoneRequests] ++ takeParts
  | .servoStep _ => [.links, .field, .drives, .places, .authorities, .groups, .groupRecords, .store]
  | .profileEnd _ => [.links, .places] ++ pinParts
  | .stopEnd _ => [.links, .places] ++ followParts
  | .busUp _ | .busBackInBand _ | .idleBrakeExpiry _ | .grantQueueTimeout _ => .links :: followParts
  | .prechargeTimeout _ | .busOutOfBand _ | .torqueUpTimeout _ | .releaseCheckTimeout _
  | .brakeSetTimeout _ | .encoderDisagreementFault _ | .followingFault _ => .links :: haltParts
  | .holdingCurrentReached _ | .brakeReleaseConfirmed _ | .brakeSetConfirmed _
  | .encoderReportCleared _ _ => [.links, .field] ++ followParts
  | .encoderFaultReport _ _ => [.links, .field, .axisSettings] ++ haltParts
  | .limitSwitchTripped _ _ | .amplifierFault _ => [.links, .field] ++ haltParts
  | .windSample _ _ | .anemometerStuck _ _ _ | .windDisagreementMark _ _ | .windClassRise _ _
  | .windClassFall _ _ => [.links, .field, .wind] ++ takeParts
  | .safetySilence => [.links, .wind] ++ takeParts
  | .waveStart | .pinWarmingTimeout _ => .links :: pinParts
  | .pinInSwitchMade _ => [.links, .field] ++ followParts
  | .pinInsertTimeout _ => .links :: followParts
  | .pinInSwitchOpened _ | .pinOutSwitchMade _ => [.links, .field, .stow]
  | .pinWithdrawTimeout _ => [.links, .stow]
  | .heaterStep _ _ | .heaterFrameStart _ _ => [.links, .field, .ice] ++ pinParts
  | .weatherStale => [.links, .ice]
  | .shedHalfCheck => [.links, .feed]
  | .shedExpiry | .restorationStep => [.links, .feed, .zones]
  | .storeSupplyLow => [.links, .field, .store]
  | .storeWriteStart | .storeWriteComplete | .storeHeadWaitExpiry => [.links, .store]

/-! ### The outputs of an axis (R6) -/

/-- Amplifier enable and brake command are those of the axis's state (R6), velocity is 0 at rest, and a stop
record, a profile record and a release check stand only in their states (R5, R14, R17, R42). -/
structure Axis.Lawful (x : Axis) : Prop where
  amplifier : x.amplifier = x.state.amplifierOn
  released : x.released = x.state.brakeReleased
  still : x.state.moving = false → x.velocity = 0
  stop : x.stop.isSome = true → x.state = .stopping
  profile : x.profile.isSome = true → x.state = .slewing
  releaseCheck : x.releaseCheck.isSome = true → x.state = .holding

/-- Every axis is lawful. -/
def State.axesLawful (s : State) : Prop := ∀ i, (s.axis i).Lawful

/-! ### Capacities -/

/-- The collections with a stated capacity hold no more than it: 24 lockout slots (R92), 32 permit entries
(R175), 64 segments a queue (R48), 600 wind samples (R114), 16 grant queue entries (R164), 32 store writes
(R200), and 16-bit counts on each link (R186). -/
structure State.Bounded (s : State) : Prop where
  slots : s.locks.slots.length = 24
  permits : s.permits.entries.length = 32
  lockouts : s.store.lockouts.length = 24
  permitRecords : s.store.permits.length = 32
  segments : ∀ a, (s.track a).segments.length ≤ 64
  window : s.wind.window.length ≤ 600
  needs : s.feed.queue.length ≤ 16
  writes : s.store.queue.length ≤ 32
  counts : ∀ l, (s.link l).taken ≤ 65535 ∧ (s.link l).discarded ≤ 65535 ∧ (s.link l).dropped ≤ 65535

/-! ### The lockout table (R92, R94, R199) -/

/-- The list of the table names each occupied slot once and no empty one (R92, R94), and every entry's
creation number lies below the next one (R199). -/
structure State.TableLawful (s : State) : Prop where
  once : s.locks.order.Nodup
  listed : ∀ n, n ∈ s.locks.order ↔ (s.locks.slot n).isSome = true
  numbered : ∀ e ∈ s.locks.entries, e.creation < s.store.nextCreation

/-! ### The store's write queue (R200, R202) -/

/-- No record has two writes waiting: each stands once in the queue or once in the overflow list, never in
both; and slots overflow only while the queue is full (R200, R202). -/
structure Store.QueueLawful (st : Store) : Prop where
  once : st.queue.Nodup
  overflowOnce : st.overflow.Nodup
  apart : ∀ n ∈ st.overflow, RecordId.lockout n ∉ st.queue
  full : st.overflow ≠ [] → st.queue.length = 32

/-- Everything that every step keeps. -/
structure State.Lawful (s : State) : Prop where
  axes : s.axesLawful
  bounded : s.Bounded
  table : s.TableLawful
  store : s.store.QueueLawful

/-! ### The segment queues (R48) -/

/-- The place of a segment's state in its queue's order (R48). -/
def SegState.rank : SegState → Nat
  | .active => 0 | .queued => 1 | .staged => 2

/-- The order of the queues (R47, R48): ACTIVE at most once and at the head, then QUEUED, then STAGED, and STAGED only
while a burst is open for the antenna; each segment starts at the end epoch and the end position of the one before it
and runs 10 to 10000 ms, a multiple of 10, so the start epochs strictly rise; and the chain tail of a burst that is open
for a queue with segments is its last segment's end (R50, R52). -/
structure State.QueuesOrdered (s : State) : Prop where
  order : ∀ a, (s.track a).segments.Pairwise fun g h => g.state.rank ≤ h.state.rank ∧ h.state ≠ .active
  staged : ∀ a, (s.track a).stagedSegments ≠ [] → s.burst.ant = some a
  follows : ∀ a, (s.track a).segments.IsChain fun g h => h.start = g.finish ∧ h.startPos = g.endPos
  lasts : ∀ a, ∀ g ∈ (s.track a).segments, 10 ≤ g.duration ∧ g.duration ≤ 10000 ∧ g.duration % 10 = 0
  rises : ∀ a, (s.track a).segments.Pairwise fun g h => g.start < h.start
  tail : ∀ a g, s.burst.ant = some a → (s.track a).segments.getLast? = some g →
    ∃ e, s.burst.tail = some e ∧ e.end_ = some g.finish ∧ e.pos = g.endPos

/-! ### One entry to a key (R92) -/

/-- The key of an entry: antenna, class, holder and badge (R92). -/
def LockEntry.key (e : LockEntry) : Option Ant × LockClass × Holder × Option Nat :=
  (e.scope, e.cls, e.holder, e.badge)

/-- No two entries of a list of slots have the same key (R92). -/
def KeysOnce (slots : List (Option LockEntry)) : Prop :=
  (slots.filterMap fun e => e.map LockEntry.key).Nodup

/-! ### Authority, groups and stow (R72, R102, R121, R123, R128) -/

/-- What authority, groups and stow rule out between them, in every state a step can reach from a state that
has it: under an active demand every antenna has been taken (R121, R124); a LOCAL antenna is UNSTOWED and
bound to no group, and only a LOCAL antenna jogs (R72, R103, R106); a bound antenna is UNSTOWED, and bound
to one group alone (R72, R74); a queue with QUEUED or ACTIVE segments, and an open burst, are an UNSTOWED, REMOTE
and unbound antenna's (R51, R72, R74, R104, R123); a wave's members wait for it (R128); and a STOPPING antenna is
not at rest (R125). -/
structure State.Guarded (s : State) : Prop where
  taken : s.wind.active = true → ∀ a, (s.stowOf a).state ≠ .unstowed ∧ (s.stowOf a).state ≠ .pinWithdrawing
  localFree : ∀ a, s.remote a = false → (s.stowOf a).state = .unstowed ∧ s.bound a = false
  jogLocal : ∀ a, (s.jog a).isSome = true → s.remote a = false
  boundFree : ∀ a, s.bound a = true → (s.stowOf a).state = .unstowed
  boundOnce : ∀ g h a, (s.groups.get g).binds = true → (s.groups.get g).has a = true →
    (s.groups.get h).binds = true → (s.groups.get h).has a = true → g = h
  queueFree : ∀ a, (s.track a).empty = false ∨ s.burst.ant = some a →
    (s.stowOf a).state = .unstowed ∧ s.remote a = true ∧ s.bound a = false
  members : ∀ w, s.stow.wave = some w → ∀ m ∈ w.members,
    (s.stowOf m.ant).state = .waiting ∧ (s.stowOf m.ant).member = true
  stopping : ∀ a, (s.stowOf a).state = .stopping → s.moving a = true

/-! ### The feed limit (R158) -/

/-- The load is within the limit (R158); so is the base load of every good STATION record that the store holds or
is writing, which a power-on may put in force (R159, R203); and no group names an antenna twice (R74). -/
structure State.WithinLimit (s : State) : Prop where
  load : s.load ≤ s.feed.limit
  stored : s.store.station.good = true → s.store.station.contents.base ≤ s.store.station.contents.limit
  written : ∀ w r, s.store.writing = some w → w.value = .station r → r.base ≤ r.limit
  once : ∀ g, (s.groups.get g).ants.Nodup

/-! ### Heaters, the store's names and the marks of an event (R139, R141, R199) -/

/-- The contactor is on exactly below the effective level (R141). -/
def Zone.driven (z : Zone) : Prop := z.contactor = decide (z.step < z.effective)

/-- The record a write's contents are of (R199). -/
def RecordValue.id : RecordValue → RecordId
  | .station _ => .station
  | .wind _ => .wind
  | .axis i _ => .axis i
  | .zone z _ => .zone z
  | .lockout n _ => .lockout n
  | .permit n _ => .permit n

/-- No zone stands above its ceiling and every contactor follows its level (R139, R141); the store's queue,
overflow list and write in progress name records it has, and a write carries its own record's contents
(R199, R200); and no mark of a past event is left. -/
structure State.Tidy (s : State) : Prop where
  heaters : ∀ z, (s.zone z).driven ∧ (s.zone z).effective ≤ s.ceiling z
  queued : ∀ id ∈ s.store.queue, id ∈ RecordId.all
  overflowed : ∀ n ∈ s.store.overflow, n < 24
  written : ∀ w, s.store.writing = some w → w.record ∈ RecordId.all ∧ w.value.id = w.record
  scratch : s.scratch = ⟨false, false, 0, 0⟩

/-! ### The checks of the requests -/

/-- The code of the first check that fails: each check is what must hold, with its code (R190). -/
def firstFailing : List (Bool × Status) → Option Status
  | [] => none
  | (pass, c) :: rest => if pass then firstFailing rest else some c

/-- An antenna argument of 0..5, then the checks of its antenna. -/
def antChecks (n : Nat) (rows : Ant → List (Bool × Status)) : List (Bool × Status) :=
  match Ant.ofNat? n with
  | none => [(false, .range)]
  | some a => rows a

/-- A coded argument from its list, then the checks of what it names (R209). -/
def codeChecks {α : Type} (c : Option α) (rows : α → List (Bool × Status)) : List (Bool × Status) :=
  match c with
  | none => [(false, .range)]
  | some v => rows v

/-- The Permit Engine admits a request (R181). -/
def State.admitted (s : State) (q : Subject) : Bool := decide ((s.verdict q).1 = .allow)

/-- The store takes a write of the record (R200). -/
def State.storable (s : State) (id : RecordId) : Bool := !s.store.refuses id

/-- A placement's checks: its arguments (R93), and a slot for it (R94). -/
def placeChecks (s : State) (p : Option Placement) : List (Bool × Status) :=
  match p with
  | none => [(false, .range)]
  | some p => [(p.allowed, .range), (decide (s.locks.judge p ≠ .full), .full)]

/-- A removal's checks: the slot, its entry, the entry's own, and a place for the slot's write (R98). -/
def removeChecks (s : State) (n : Nat) (rows : LockEntry → List (Bool × Status)) : List (Bool × Status) :=
  (decide (n < 24), .range) :: match s.locks.slot n with
    | none => [(false, .notFound)]
    | some e => rows e ++ [(s.storable (.lockout n), .full)]

/-- A plan's checks: every member's rows (R74), the permit table (R182), and the plan's own answer (R40). -/
def planChecks (s : State) (ms : List Proposed) : List (Bool × Status) :=
  match s.planFails ms with
  | some f => [(false, f.2.1)]
  | none =>
    ms.map (fun m => (s.admitted (planSubject m), Status.permit)) ++
      match planGroup (fun i => (s.axis i).record) (s.courses ms)
          (s.potential (ms.flatMap fun m => m.ant.axes)) with
      | .success _ _ _ _ _ => []
      | .tooLong _ _ => [(false, .tooLong)]
      | .budget _ _ _ => [(false, .budget)]

/-- The checks of an ARM (R77). -/
def armChecks (s : State) (g : GroupId) (e : Epoch) : List (Bool × Status) :=
  let r := s.groups.get g
  [(decide (r.state = .planned), .badState), (s.clock.synced, .noTime), (s.startAllowed e, .range),
   ((s.coveredMember r).isNone, .lockout),
   (decide (s.fit r.demand (sumOf r.axes s.foldable) false ≠ .short), .budget)]

/-- The checks of a BURST_OPEN (R51). -/
def openChecks (s : State) (a : Ant) (anchor : Option (PerAxis Mdeg)) : List (Bool × Status) :=
  [(s.burst.ant.isNone, .busy), (s.remote a, .local_), (!s.bound a, .group),
   (decide ((s.stowOf a).state = .unstowed), .stowing), (!s.covered a, .lockout),
   (!s.anyFaulted a, .badState), (!(s.ants.get a).configInvalid, .config), (!(s.track a).halted, .halted),
   (s.clock.synced, .noTime), ((s.track a).anchorFits anchor, .anchor), (s.anchorWithin a anchor, .range),
   (s.admitted (burstSubject a anchor), .permit)]

/-- The checks of a JOG (R109): a record's failure is reported in the place of the permit check. -/
def jogChecks (s : State) (i : AxisId) (dir : Direction) : List (Bool × Status) :=
  [(!s.remote i.ant, .badState), (!s.wind.active, .stowing), (s.jogUncovered i, .lockout),
   (!(s.axis i).state.isFaulted, .badState), (!(s.ants.get i.ant).configInvalid, .config),
   (sameJog (s.jog i.ant) i.ax dir, .busy),
   match s.jogFailure i.ant with
   | some f => (false, f.status)
   | none => (s.admitted (pendantSubject .jog i.ant), .permit)]

/-- The checks of a HEAT_SET once its arguments are valid (R150). -/
def heatChecks (s : State) (sender : HeatSender) (z : ZoneId) (m : HeatMode) : List (Bool × Status) :=
  [match sender with
   | .operations _ => (s.remote z.ant, .local_)
   | .pendant _ => (!s.remote z.ant, .badState),
   (s.admitted ⟨heatFromPendant sender, .heatSet, z.ant, none, none⟩, .permit),
   (decide (m = (s.zone z).mode) || s.storable (.zone z), .full)]

/-- The antenna argument of a HEAT_SET: named by Operations, a pendant's own (R150). -/
def heatAnt : HeatSender → Nat
  | .operations n => n
  | .pendant n => n.num

/-- Link, kind and tag of a request whose checks are listed in `checksOf`. The other requests (the reads,
CHANGES_ACK and the frames of an open burst) have no such checks. -/
def requestOf : Instr → Option (Link × Kind × Byte)
  | .noticeEnableOn l tag | .noticeEnableOff l tag => some (l, .noticeEnable, tag)
  | .timeSet tag _ => some (.operations, .timeSet, tag)
  | .axisEnableOn tag _ | .axisEnableHold tag _ | .axisEnableOff tag _ => some (.operations, .axisEnable, tag)
  | .driveReset tag _ => some (.operations, .driveReset, tag)
  | .encoderSelect tag _ _ _ => some (.operations, .encoderSelect, tag)
  | .encoderDisable tag _ _ _ | .encoderRestore tag _ _ _ => some (.operations, .encoderDisable, tag)
  | .configWriteAxis tag _ _ _ | .configWriteStation tag _ | .configWriteZone tag _ _ _ =>
    some (.operations, .configWrite, tag)
  | .configWriteWind tag _ => some (.safety, .configWrite, tag)
  | .burstOpen tag _ _ => some (.operations, .burstOpen, tag)
  | .trackClear tag _ => some (.operations, .trackClear, tag)
  | .groupPlan tag _ _ => some (.operations, .groupPlan, tag)
  | .groupArm tag _ _ => some (.operations, .groupArm, tag)
  | .groupCancel tag _ => some (.operations, .groupCancel, tag)
  | .groupRead tag _ _ => some (.operations, .groupRead, tag)
  | .holdPlace tag _ _ _ => some (.operations, .holdPlace, tag)
  | .holdRemove tag _ _ => some (.operations, .holdRemove, tag)
  | .lockPlace tag sender _ _ => some (lockLink sender, .lockPlace, tag)
  | .lockRemove tag sender _ => some (unlockLink sender, .lockRemove, tag)
  | .forceRemove tag _ _ => some (.safety, .forceRemove, tag)
  | .localClaim tag n => some (.pendant n, .localClaim, tag)
  | .localRelease tag n => some (.pendant n, .localRelease, tag)
  | .jog tag n _ _ _ => some (.pendant n, .jog, tag)
  | .heatSet tag sender _ _ _ => some (heatLink sender, .heatSet, tag)
  | .iceFloor tag _ _ => some (.operations, .iceFloor, tag)
  | .weather tag _ _ => some (.safety, .weather, tag)
  | .stowDemandOn tag | .stowDemandOff tag => some (.safety, .stowDemand, tag)
  | .stowRelease tag => some (.safety, .stowRelease, tag)
  | .allStop tag => some (.safety, .allStop, tag)
  | .permitWrite tag _ | .permitWriteDefault tag _ => some (.safety, .permitWrite, tag)
  | _ => none

/-- The bodies that a waiting frame of a request can have (R189, R208 to R210): of its kind's length, and, where
the spec gives the layout, with its operands. -/
def fitsOf : Instr → List Byte → Bool
  | .configWriteAxis _ _ _ _ => configFits .axis
  | .configWriteStation _ _ => configFits .station
  | .configWriteZone _ _ _ _ => configFits .zone
  | .configWriteWind _ _ => configFits .wind
  | .groupRead _ id part => groupReadFits id part
  | .permitWrite _ p => permitFits p
  | .permitWriteDefault _ v => defaultFits v
  | c =>
    match requestOf c with
    | some (_, k, _) => bodyLengthFits k
    | none => fun _ => true

/-- The checks of a request in the order of its rule, each with the code that refuses it. -/
def checksOf (s : State) : Instr → List (Bool × Status)
  | .noticeEnableOn l _ | .noticeEnableOff l _ => [(Kind.noticeEnable.openTo l, .badKind)]
  | .timeSet _ _ => [(!s.clockBusy, .busy)]
  | .axisEnableOn _ n => antChecks n fun a =>
    [(s.remote a, .local_), (!(s.ants.get a).configInvalid, .config),
     (!s.covered a || decide ((s.ants.get a).bus = .up), .lockout), (!s.anyFaulted a, .badState)]
  | .axisEnableHold _ n => antChecks n fun a =>
    [(s.remote a, .local_), (!(s.ants.get a).configInvalid, .config), (!s.covered a, .lockout),
     (!s.anyFaulted a, .badState)]
  | .axisEnableOff _ n => antChecks n fun a =>
    [(s.remote a, .local_), (decide ((s.stowOf a).state = .unstowed), .stowing), (!s.bound a, .group),
     (s.trackIdle a, .busy)]
  | .driveReset _ n => antChecks n fun _ => []
  | .encoderSelect _ n ax enc => antChecks n fun a => codeChecks ax fun x => codeChecks enc fun e =>
    [(decide ((s.axis ⟨a, x⟩).state = .braked) || (s.axis ⟨a, x⟩).ready, .badState),
     ((s.axis ⟨a, x⟩).healthy (s.axisIn ⟨a, x⟩) e, .encoder)]
  | .encoderDisable _ n ax enc => antChecks n fun a => codeChecks ax fun x => codeChecks enc fun e =>
    [(decide ((s.axis ⟨a, x⟩).active ≠ e), .active)]
  | .encoderRestore _ n ax enc => antChecks n fun _ => codeChecks ax fun _ => codeChecks enc fun _ => []
  | .configWriteAxis _ n ax f => antChecks n fun a => codeChecks ax fun x =>
    [((s.axis ⟨a, x⟩).state.down, .badState),
     (decide ((AxisFigures.clamp f x).softLow < (AxisFigures.clamp f x).softHigh), .range),
     (s.storable (.axis ⟨a, x⟩), .full)]
  | .configWriteStation _ f =>
    [(s.booksFit (StationFigures.clamp f s.permits.default_), .budget), (s.storable .station, .full)]
  | .configWriteZone _ n cls f => antChecks n fun a => codeChecks cls fun c =>
    [(frameAllowed f.frame, .range), (s.storable (.zone ⟨a, c⟩), .full)]
  | .configWriteWind _ f => [((WindFigures.accepted f).isSome, .range), (s.storable .wind, .full)]
  | .burstOpen _ n anchor => antChecks n fun a => openChecks s a anchor
  | .trackClear _ n => antChecks n fun a => [(decide (s.burst.ant ≠ some a), .busy)]
  | .groupPlan _ n members => codeChecks (GroupId.ofNat? n) fun g => codeChecks (proposedMembers members)
    fun ms => ((s.groups.get g).takesPlan, .busy) :: planChecks s ms
  | .groupArm _ n start => codeChecks (GroupId.ofNat? n) fun g => armChecks s g start
  | .groupCancel _ n => codeChecks (GroupId.ofNat? n) fun g =>
    [(decide ((s.groups.get g).state ≠ .empty), .notFound), (!(s.groups.get g).releasing, .busy)]
  | .groupRead _ n part => codeChecks (GroupId.ofNat? n) fun g =>
    [(decide (part < partCount ((s.groups.get g).bytes g s.now s.axis).length), .range)]
  | .holdPlace _ n cover reason => placeChecks s (operationsPlacement n cover reason)
  | .lockPlace _ sender cover reason => placeChecks s (lockPlacement sender cover reason)
  | .holdRemove _ n ant => removeChecks s n fun e =>
    [(LockTarget.names (.antenna ant) e.scope, .notFound), (decide (e.cls = .operations), .notHolder)]
  | .lockRemove _ (.safety target) n => removeChecks s n fun e =>
    [(LockTarget.names target e.scope, .notFound), (decide (e.cls = .safety), .notHolder)]
  | .lockRemove _ (.pendant p badge) n => removeChecks s n fun e =>
    [(decide (e.cls = .personnel ∧ e.holder = .pendant p ∧ e.badge = some badge), .notHolder)]
  | .forceRemove _ n target => removeChecks s n fun e => [(LockTarget.names target e.scope, .notFound)]
  | .localClaim _ n =>
    if s.remote n then
      [(!s.bound n, .group), (!s.wind.active && decide ((s.stowOf n).state = .unstowed), .stowing),
       (s.admitted (pendantSubject .localClaim n), .permit)]
    else []
  | .jog _ n ax dir speed => codeChecks ax fun x => codeChecks dir fun d =>
    (decide (1 ≤ speed), .range) :: jogChecks s ⟨n, x⟩ d
  | .heatSet _ sender cls mode _ => antChecks (heatAnt sender) fun a => codeChecks cls fun c =>
    codeChecks mode fun m => heatChecks s sender ⟨a, c⟩ m
  | .iceFloor _ n cls => antChecks n fun _ => codeChecks cls fun _ => []
  | .weather _ temp _ => [(sensorGood temp, .range)]
  | .stowRelease _ =>
    [(decide (s.wind.cls ≠ .stow), .wind), (!s.wind.safety, .demand),
     (!Ant.all.any fun a => (s.stowOf a).state.working, .busy)]
  | .permitWrite _ p =>
    if p.index = defaultIndex then [(s.storable .station, .full)]
    else [((permitArgEntry p).isSome, .range), (s.storable (.permit p.index), .full)]
  | .permitWriteDefault _ v => [(v.isSome, .range), (s.storable .station, .full)]
  | _ => []

/-- What the Permit Engine sees of a request, in the order it is put to the table (R177, R182): a plan member by
member, each with the antenna that a refusal names. -/
def subjectsOf : Instr → List (Option Ant × Subject)
  | .burstOpen _ n anchor => (Ant.ofNat? n).toList.map fun a => (none, burstSubject a anchor)
  | .groupPlan _ _ members =>
    ((proposedMembers members).getD []).map fun m => (some m.ant, planSubject m)
  | .localClaim _ n => [(none, pendantSubject .localClaim n)]
  | .jog _ n _ _ _ => [(none, pendantSubject .jog n)]
  | .heatSet _ sender _ _ _ =>
    (Ant.ofNat? (heatAnt sender)).toList.map fun a =>
      (none, ⟨heatFromPendant sender, .heatSet, a, none, none⟩)
  | _ => []

/-- The code that refuses a request, if one does (R190). -/
def State.refusal (s : State) (c : Instr) : Option Status := firstFailing (checksOf s c)

/-- A request's link takes its frame now, and no check of its owner refuses it (R188, R190). -/
def State.admits (s : State) (c : Instr) : Bool :=
  match requestOf c with
  | none => false
  | some (l, k, tag) => s.powered && s.mayTake l k.code tag (fitsOf c) && (s.refusal c).isNone

/-- The reply outgoing on a request's link answers it with a status and a body (R188). -/
def State.answers (t : State) (c : Instr) (st : Status) (b : ReplyBody) : Bool :=
  match requestOf c with
  | none => false
  | some (l, k, tag) => decide ((t.link l).reply = some ⟨replyKind k.code, tag, st, b⟩)

/-! ### The rows that fault an axis (R9, R14, R15, R20, R21, R24, R25) -/

/-- The axis an event faults and the cause, where the event's condition holds. -/
def faultOf (s : State) : Instr → Option (AxisId × FaultCause)
  | .torqueUpTimeout i => if s.torqueUpDue i then some (i, .brakeRelease) else none
  | .releaseCheckTimeout i => if s.releaseDue i then some (i, .brakeRelease) else none
  | .brakeSetTimeout i => if s.brakeSetDue i then some (i, .brakeSet) else none
  | .encoderDisagreementFault i => if s.disagreementDue i then some (i, .encoder) else none
  | .encoderFaultReport i e =>
    if (s.axis i).active = e ∧ (s.axis i).healthy (s.axisIn i) e.other = false then some (i, .encoder)
    else none
  | .followingFault i => if s.followingDue i then some (i, .following) else none
  | .limitSwitchTripped i _ => some (i, .limit)
  | .amplifierFault i => if (s.axis i).amplifier then some (i, .amplifier) else none
  | _ => none

/-- What names a jog: its axis, direction, speed and last frame. -/
def Jog.core (j : Jog) : AxisName × Direction × Nat × Epoch := (j.axis, j.dir, j.speed, j.lastFrame)

/-- What the halt of a queue leaves of it and of a burst open for its antenna (R59, R66): what was QUEUED or
ACTIVE is abandoned and counted, the halt stands with its reason, the run is over, and the burst is
terminated. -/
structure State.QueueHalted (s t : State) (a : Ant) (r : HaltReason) : Prop where
  halted : (t.track a).halted = true ∧ (t.track a).haltReason = some r
  run : (t.track a).run = .idle
  live : (t.track a).live = []
  first : (t.track a).firstAbandoned = (s.track a).firstStart
  abandoned : (t.track a).abandoned = min countTop ((s.track a).abandoned + (s.track a).live.length)
  burst : t.burst.ant ≠ some a
  terminated : s.burst.ant = some a → t.burst.termination = some (a, r.termination)
  flag : t.flagged (antFlag .track a)

/-- What a halt leaves of an antenna's queue, burst and group (R59, R66, R76, R85, R86): a queue that held
QUEUED or ACTIVE segments is halted and empty, with the first abandoned epoch and the count of what it held;
a burst open for the antenna is terminated; the group that bound it is HALTED. -/
structure State.LetGo (s t : State) (a : Ant) (r : HaltReason) (h : GroupHalt) : Prop where
  queue : (s.track a).empty = false → (t.track a).halted = true ∧ (t.track a).haltReason = some r
    ∧ (t.track a).run = .idle ∧ (t.track a).live = []
    ∧ (t.track a).firstAbandoned = (s.track a).firstStart
    ∧ (t.track a).abandoned = min countTop ((s.track a).abandoned + (s.track a).live.length)
  burst : t.burst.ant ≠ some a
  terminated : s.burst.ant = some a → t.burst.termination = some (a, r.termination)
  group : ∀ g, s.boundGroup a = some g → (t.groups.get g).state = .halted
    ∧ (t.groups.get g).haltReason = some h

/-- What the FAULT stop makes of the other axis of the antenna (R18, R26): one that moves is STOPPING toward HOLDING
from where it is, or holds at once where its velocity is 0; a stop under way goes on as it was; an axis that does not
move stays in its state. DESIGN CHOICE (log 18): on a moving axis whose group or queue halts in the same event the FAULT
stop comes first, so its reason is FAULT, not GROUP or TRACK. -/
structure State.OtherStopped (s t : State) (i : AxisId) : Prop where
  moving : (s.axis i).state = .slewing ∨ (s.axis i).state = .tracking ∨ (s.axis i).state = .jogging →
    ((s.axis i).velocity ≠ 0 → (t.axis i).state = .stopping ∧ (t.axis i).stop =
      some ⟨.fault, .holding, s.limitA i, (s.axis i).velocity, (s.axis i).position, s.now⟩)
    ∧ ((s.axis i).velocity = 0 → (t.axis i).state = .holding)
  stopping : (s.axis i).state = .stopping → (t.axis i).state = .stopping ∧ (t.axis i).stop = (s.axis i).stop
  still : (s.axis i).state = .holding ∨ (s.axis i).state = .torqueUp ∨ (s.axis i).state = .braking →
    (t.axis i).state = (s.axis i).state
    ∧ (((s.axis i).state = .braking → (s.axis i).pendingStop.isSome = true) →
      (t.axis i).pendingStop = (s.axis i).pendingStop)

/-- What a fault leaves of its axis and its antenna (R25, R26): the axis FAULTED with the cause, its brake
set, no claims, no stop and no velocity; queue, burst and group let go, with the group's causing member; a
stow that was going on DRIVE_FAILED; the other axis under its FAULT stop, unless the antenna stands by its pin; and
a jog's record kept with failure FAULTED and no claim (R110, R112). -/
structure State.FaultStopped (s t : State) (i : AxisId) (c : FaultCause) : Prop where
  state : (t.axis i).state = .faulted c
  amplifier : (t.axis i).amplifier = decide (c = .brakeSet)
  released : (t.axis i).released = false
  still : (t.axis i).velocity = 0
  stop : (t.axis i).stop = none
  claims : (t.axis i).claims.any = false
  letGo : s.LetGo t i.ant (.fault i.ax c) (.fault c)
  causing : ∀ g, s.boundGroup i.ant = some g → (t.groups.get g).causing = some (i.ant, some i.ax)
  stow : (s.stowOf i.ant).state = .stopping ∨ (s.stowOf i.ant).state = .waiting
    ∨ (s.stowOf i.ant).state = .driving → (t.stowOf i.ant).state = .driveFailed
  other : (s.stowOf i.ant).state ≠ .pinWarming → (s.stowOf i.ant).state ≠ .pinInserting → s.waits i.other = false →
    s.OtherStopped t i.other
  jog : ∀ j, s.jog i.ant = some j → ∃ k, t.jog i.ant = some k ∧ k.core = j.core ∧ k.failure = some .faulted
    ∧ (t.axis ⟨i.ant, j.axis⟩).claims.jog = false

/-- The antenna waits for a wave, drives in one, or stands by its pin: the stow states in which new cover on AZ or EL
gives both axes BLOCKED stops (R126). -/
def StowState.meetsCover : StowState → Bool
  | .waiting => true | .driving => true | .pinWarming => true | .pinInserting => true
  | _ => false

/-- What a BLOCKED stop (R18, R126) leaves of an axis, which gives the reason `r` in the event: no claim; one that is
ready goes down to its brake; one that slews is STOPPING toward BRAKED from where it is, or goes down at once where its
velocity is 0; a stop under way goes on with a deeper target; a handover or a brake-down keeps the stop. The reason of a
new stop may be GROUP's where a group's stop reaches the axis too (R88, R95). -/
structure State.StopBlocked (s t : State) (i : AxisId) (r : StopReason) : Prop where
  claims : (t.axis i).claims.any = false
  ready : (s.axis i).ready = true → (t.axis i).state = .braking ∧ (t.axis i).pendingStop = some ⟨some r, .braked⟩
  slewing : (s.axis i).state = .slewing →
    ((s.axis i).velocity ≠ 0 → (t.axis i).state = .stopping ∧ ∃ q, (t.axis i).stop =
        some ⟨q, .braked, s.limitA i, (s.axis i).velocity, (s.axis i).position, s.now⟩
      ∧ (s.bound i.ant = false → q = r))
    ∧ ((s.axis i).velocity = 0 →
      (t.axis i).state = .braking ∧ (t.axis i).pendingStop = some ⟨some r, .braked⟩)
  stopping : ∀ q, (s.axis i).state = .stopping → (s.axis i).stop = some q → (t.axis i).state = .stopping
    ∧ (t.axis i).stop = some { q with target := if q.target = .off then .off else .braked }
  handover : (s.axis i).state = .torqueUp ∨ (s.axis i).state = .braking
      ∨ (s.axis i).state = .holding ∧ (s.axis i).releaseCheck.isSome = true →
    (t.axis i).state = (s.axis i).state ∧ ∃ p, (t.axis i).pendingStop = some p ∧ p.target ≠ .holding

/-- What new cover on AZ or EL of an antenna makes of its stow (R125, R126, R129, R130); `fresh` tells the axes newly
covered. An antenna that is WAITING or DRIVING is BLOCKED; a STOPPING one stays so while it moves and is BLOCKED at
rest; PIN_WARMING, PIN_INSERTING and every other state stays, and timers and pin command with it. A wave member leaves
the wave. Both axes of an antenna that waited, drove or stood by its pin take BLOCKED stops, and its grant is kept
while an axis decelerates and is released at rest. DESIGN CHOICE (log 18): on a newly covered axis the placement's own
LOCKOUT stop comes first, so its reason is LOCKOUT. -/
structure State.StowCovered (s t : State) (a : Ant) (fresh : AxisId → Prop) : Prop where
  record : t.stowOf a = { s.stowOf a with
    state := match (s.stowOf a).state with
      | .waiting => .blocked | .driving => .blocked
      | .stopping => if t.moving a then .stopping else .blocked
      | st => st
    member := (s.stowOf a).member && decide ((s.stowOf a).state ≠ .waiting) }
  leaves : (s.stowOf a).state = .waiting → (s.stowOf a).member = true →
    ∀ w, t.stow.wave = some w → ∀ m ∈ w.members, m.ant ≠ a
  covered : (s.stowOf a).state.meetsCover = true → ∀ i, i.ant = a → fresh i → s.StopBlocked t i .lockout
  other : (s.stowOf a).state.meetsCover = true → ∀ i, i.ant = a → ¬fresh i → s.StopBlocked t i .blocked
  grant : (s.stowOf a).state.meetsCover = true →
    t.feed.waves.get a = if t.moving a then s.feed.waves.get a else none

/-! ### What time has run (R4, R194) -/

/-- The time every interval has run, or has left, that a block is timing (R194): axes, buses, jogs, stow, pad
horns and ice, antenna by antenna; then groups, the burst, the feed, the weather, the links and the store. -/
def State.intervals (s : State) : List (Option Int) :=
  (AxisId.all.flatMap fun i =>
    let x := s.axis i
    [x.releaseCheck, x.stop.map StopRecord.start, x.profile.map Profile.start, x.idleTimer,
     x.disagreeTimer, x.followTimer, x.torqueTimer, x.brakeTimer].map (ranFor s.now))
  ++ (Ant.all.flatMap fun a =>
    let v := s.ants.get a
    [v.prechargeStart, v.inBandTimer, v.outBandTimer, (s.jog a).map Jog.lastFrame,
     ((s.jog a).bind Jog.ramp).map JogRamp.start, (s.stowOf a).warmingTimer, (s.stowOf a).pinTimer,
     (s.stowOf a).warningTimer, (s.locks.horns.get a).forceTimer, (s.ice a).wetTimer,
     (s.ice a).freezeTimer, (s.ice a).thawTimer].map (ranFor s.now))
  ++ (GroupId.all.map fun g => ranFor s.now (s.groups.get g).settleTimer)
  ++ s.feed.queue.map (fun n => some (s.now - n.joined))
  ++ [s.burst.lastFrame, s.feed.shed.expiry, s.feed.shed.half, s.feed.lastStep,
      s.heat.weather.map Weather.epoch, s.store.headWait, s.store.writing.map Writing.start].map
      (ranFor s.now)
  ++ Link.all.map (fun l => ranFor s.now (s.link l).silence)

/-! ### What a read shows (R191, R208) -/

/-- A STATUS_READ shows a content: its bytes open with the link's own figures, as they stand once the frame is
taken, and the records of known layout, and what follows is free; the reply carries the part asked for, or, for
a part at or above the part count, RANGE and the part count. -/
def State.shows (s t : State) (l : Link) (tag : Byte) (part : Nat) (c : Content) : Prop :=
  ∃ rest : List Byte,
    let figures := ((s.takeFrame l).link l).figures
    let data := figures.bytes ++ c.bytes ++ rest
    if part < partCount data.length then
      t.replied l .statusRead tag .ok (.status part (partCount data.length) (partOf data part) figures c)
    else t.replied l .statusRead tag .range (.partCount part (partCount data.length))

/-! ### Links (R186 to R198) -/

/-- What only a link's own traffic changes: all of its record but its flags and its notices. -/
def LinkRecord.traffic (l : LinkRecord) :
    List Byte × Option Frame × Option Reply × Nat × Nat × Nat × Bool × Timer :=
  (l.rx, l.waiting, l.reply, l.taken, l.discarded, l.dropped, l.enable, l.silence)

/-- The link a command comes over, if it comes over one. -/
def linkOf : Instr → Option Link
  | .frameReceived l _ | .badKind l _ _ _ | .replySent l | .noticeSent l => some l
  | .statusReadAntenna l _ _ _ | .statusReadTrack l _ _ _ | .statusReadGroup l _ _
  | .statusReadLockouts l _ _ | .statusReadWind l _ _ | .statusReadHeat l _ _ | .statusReadBudget l _ _
  | .statusReadStore l _ _ | .statusReadPermit l _ _ => some l
  | .changesAck l _ _ _ => some l
  | .burstData _ _ | .burstClose _ _ _ | .burstAbort _ => some .operations
  | .restart _ => some .safety
  | c => (requestOf c).map Prod.fst

/-! ### Chains of permit entries (R180) -/

/-- The chains of a list of in-use entries: runs in which every entry but the last has its AND flag set. -/
def chainsOf : List (PermitEntry × Nat) → List (List (PermitEntry × Nat))
  | [] => []
  | e :: rest =>
    match chainsOf rest with
    | [] => [[e]]
    | ch :: more => if e.1.andFlag then (e :: ch) :: more else [e] :: ch :: more

/-- Every entry of a chain matches, each under the mask the ones before it leave (R179, R180). -/
def State.chainMatches (s : State) (q : Subject) : List (PermitEntry × Nat) → BitVec 32 → Bool
  | [], _ => true
  | e :: rest, mask =>
    match s.testEntry q e.1 mask with
    | none => false
    | some m => State.chainMatches s q rest m

/-- The verdict the rules give (R180, R181): that of the last entry of the first chain that matches, with the
entry's index, or else the default verdict in use. -/
def State.ruling (s : State) (q : Subject) : Verdict × Option Nat :=
  match (chainsOf (s.permits.entries.zipIdx.filter fun e => e.1.inUse)).find?
      (fun ch => s.chainMatches q ch fullMask) with
  | none => (s.permits.defaultInUse, none)
  | some ch =>
    match ch.getLast? with
    | none => (s.permits.defaultInUse, none)
    | some e => (e.1.verdict, some e.2)

end Sys2Proof.Machine
end

