-- ==== Sys2Proof/Certificates/Slice0/Obligations.lean ====
section
/-! DEFINITION. The statements for the provers: the machine as a whole, then chapter by chapter. Where a
statement says what follows a command, its hypotheses are those under which nothing else that is due in the
same event (R12, R13, R85, R125, R128, R165, R166) reaches the item it speaks of. -/

open Sys2Proof Sys2Proof.Machine

/-! ### The machine as a whole -/

/-- Step takes the command at the front of the queue, and is that command's exec on the queue's rest. -/
def Obligations.StepRunsTheFrontCommand : Prop :=
  ∀ (s : State) (c : Instr) (rest : List Instr), s.pending = c :: rest →
    step s = exec c { s with pending := rest }

/-- On an empty queue a part with power lets a millisecond pass on its 48-bit clock, and the paced steps that
fall at the new epoch join the queue: the servo step every 10 ms, the wind sample every second, every zone's
heater step every 250 ms (R2, R193). A part without power stays as it is. The tick is the model's choice
(log 1), and so is the clock's wrap to 0 after 2^48 epochs (log 14). -/
def Obligations.EmptyQueuePassesAMillisecond : Prop :=
  ∀ s : State, s.pending = [] → ∃ t, step s = .next t ∧
    (s.powered = false → t = s) ∧
    (s.powered = true →
      t.clock = ⟨(s.clock.epoch + 1) % 281474976710656, s.clock.synced⟩
      ∧ t = { s with clock := t.clock, pending := t.pending }
      ∧ ((t.now - s.pace.servo) % 10 = 0 ↔ ∃ io, Instr.servoStep io ∈ t.pending)
      ∧ ((t.now - s.pace.servo) % 10 = 0 → Instr.servoStep s.field ∈ t.pending)
      ∧ ((t.now - s.pace.wind) % 1000 = 0 ↔ Instr.windSample s.field.anem1 s.field.anem2 ∈ t.pending)
      ∧ ∀ z : ZoneId, (t.now - s.pace.heater) % 250 = 0 ↔
          Instr.heaterStep z ((s.field.ants.get z.ant).temps.get z.cls) ∈ t.pending)

/-- The state after reset has every invariant, and is what POWER_ON makes of it: a part with a factory store
(the store's contents and the field inputs at reset are the model's choice, logs 2 and 3). -/
def Obligations.ResetIsAFreshPart : Prop :=
  State.reset.Lawful ∧ State.reset.Guarded ∧ State.reset.Tidy ∧ State.reset.WithinLimit
    ∧ State.reset.QueuesOrdered ∧ KeysOnce State.reset.locks.slots
    ∧ exec .powerOn State.reset = .next State.reset

/-- Every step keeps the outputs of every axis those of its state, the collections within their capacities,
the lockout table and its list in agreement, at most one write of each record waiting, and every segment queue in
its order: ACTIVE at most once and at the head, then QUEUED, then STAGED, and STAGED only under an open burst; each
segment starts at the end of the one before it, so the start epochs strictly rise (R47, R48). That
the velocity is 0 from the event that ends motion, not only from the next servo step, is the model's choice (log
35). Every command keeps one entry to a key in the lockout table (R92); POWER_ON does so where the good LOCKOUT
records have one to a key, and loads them as written where they do not (R203; DEDUCED, log 48). A part that still
has power loses it first (log 10). -/
def Obligations.EveryStepKeepsLawful : Prop :=
  (∀ s t : State, s.Lawful → step s = .next t → t.Lawful)
  ∧ (∀ s t : State, s.QueuesOrdered → step s = .next t → t.QueuesOrdered)
  ∧ (∀ (c : Instr) (s t : State), exec c s = .next t → c ≠ .powerOn →
      KeysOnce s.locks.slots → KeysOnce t.locks.slots)
  ∧ ∀ s t : State, exec .powerOn s = .next t →
      KeysOnce (if s.powered then s.store.lose else s.store).restoredSlots → KeysOnce t.locks.slots

/-- Every step keeps authority, groups, stow and demand apart as the rules do: under an active demand every
antenna is taken, a LOCAL antenna is UNSTOWED and bound to no group, only a LOCAL antenna jogs, and a bound
antenna is UNSTOWED and bound once; an antenna that is not UNSTOWED, is bound or is LOCAL has no QUEUED or ACTIVE
segment and no burst open for it (R72, R123); and an antenna that is STOPPING moves. -/
def Obligations.EveryStepKeepsGuarded : Prop :=
  ∀ s t : State, s.Guarded → step s = .next t → t.Guarded

/-- Every step keeps every zone at or below its ceiling with its contactor on exactly below its level, the
store's waiting writes naming its own records, and no mark of a past event. -/
def Obligations.EveryStepKeepsTidy : Prop :=
  ∀ s t : State, s.Lawful → s.Tidy → step s = .next t → t.Tidy

/-- Every step keeps the load, base, drive grants and heaters together, within the feed limit (R158). So that a
power-on keeps it too, no good STATION record in the store, and none being written, has a base load above its
limit; and no group names an antenna twice. -/
def Obligations.EveryStepKeepsTheFeedLimit : Prop :=
  ∀ s t : State, s.WithinLimit → step s = .next t → t.WithinLimit

/-- Every command leaves every part of the state it does not name as it was, and changes the traffic of its own
link alone: on every other link the receiver, the waiting frame, the reply, the counts, the notice enable and
the silence timer stay (POWER_ON, RESTART and TIME_SET reach every link by their own rules). -/
def Obligations.CommandsTouchOnlyTheirParts : Prop :=
  (∀ (c : Instr) (s t : State), exec c s = .next t → Touches (touched c) s t)
  ∧ ∀ (c : Instr) (s t : State) (l : Link), exec c s = .next t → linkOf c ≠ some l →
    match c with
    | .powerOn | .restart _ | .timeSet _ _ => True
    | _ => (t.link l).traffic = (s.link l).traffic

/-- Every event but a power-on, a restart and an acknowledgement sets the flags that its changes call for, each at
its bit on every link that carries it, clears none, and builds one notice on each link with notices enabled whose
flags it changed: the next in sequence, with the flag word as it stands after the event. The changes: AXIS, an axis's
state or cause, its active encoder, either encoder's health or enabled item (R23), READY or the bus; GROUP, a group's
state, or the end of its releasing; STOW, the stow state; LOCK, the authority, a slot's entry, or an entry PENDING or
EFFECTIVE; HEAT, a sensor's health or a PIN force; WIND, a channel's health, a mark, the class or a source; ICE, an
ice class. No mark of a past event stands before it (EveryStepKeepsTidy). -/
def Obligations.EventsFlagWhatTheyChange : Prop :=
  ∀ (c : Instr) (s t : State), exec c s = .next t → s.scratch.early = 0 →
    match c with
    | .powerOn | .restart _ | .changesAck _ _ _ _ => True
    | _ =>
      let antBit (a : Ant) (k : Nat) : Prop :=
        ∀ l ∈ [Link.operations, .safety, .pendant a], (t.link l).flags.getLsbD (6 * a.num + k) = true
      let stationBit (k : Nat) : Prop :=
        ∀ l ∈ [Link.operations, .safety], (t.link l).flags.getLsbD k = true
      t.flagged (changesBetween s t)
      ∧ (∀ a ax, (t.axis ⟨a, ax⟩).state ≠ (s.axis ⟨a, ax⟩).state
          ∨ (t.axis ⟨a, ax⟩).active ≠ (s.axis ⟨a, ax⟩).active
          ∨ (t.axis ⟨a, ax⟩).enabledA ≠ (s.axis ⟨a, ax⟩).enabledA
          ∨ (t.axis ⟨a, ax⟩).enabledB ≠ (s.axis ⟨a, ax⟩).enabledB
          ∨ (∃ e, (t.axis ⟨a, ax⟩).healthy (t.axisIn ⟨a, ax⟩) e ≠ (s.axis ⟨a, ax⟩).healthy (s.axisIn ⟨a, ax⟩) e)
          ∨ t.ready a ≠ s.ready a ∨ (t.ants.get a).bus ≠ (s.ants.get a).bus → antBit a 0)
      ∧ (∀ a g, let p := s.groups.get g
          let q := t.groups.get g
          (q.state ≠ p.state ∧ q.state ≠ .empty ∧ q.has a = true)
          ∨ (q.state = .empty ∧ (p.state = .planned ∨ p.state = .armed) ∧ p.has a = true)
          ∨ (p.state = .halted ∧ q.state = .halted ∧ p.held = true ∧ q.held = false ∧ q.has a = true) →
          antBit a 2)
      ∧ (∀ a, (t.stowOf a).state ≠ (s.stowOf a).state → antBit a 3)
      ∧ (∀ a, t.remote a ≠ s.remote a
          ∨ (∃ n e, s.locks.slots.length = t.locks.slots.length ∧ e.reaches a = true
            ∧ ((s.locks.slot n = some e ∧ t.locks.slot n ≠ some e)
              ∨ (t.locks.slot n = some e ∧ s.locks.slot n ≠ some e)
              ∨ (s.locks.slot n = some e ∧ t.locks.slot n = some e
                ∧ t.entryEffective e ≠ s.entryEffective e))) → antBit a 4)
      ∧ (∀ z : ZoneId, (t.zone z).healthy ≠ (s.zone z).healthy ∨ (t.zone z).forced ≠ (s.zone z).forced →
          antBit z.ant 5)
      ∧ (t.wind.ch1.health ≠ s.wind.ch1.health ∨ t.wind.ch2.health ≠ s.wind.ch2.health
          ∨ t.wind.disagreeMark ≠ s.wind.disagreeMark ∨ t.wind.degraded ≠ s.wind.degraded
          ∨ t.wind.cls ≠ s.wind.cls ∨ t.wind.safety ≠ s.wind.safety ∨ t.wind.silence ≠ s.wind.silence →
          stationBit 36)
      ∧ (∀ a, t.iceClass a ≠ s.iceClass a → stationBit 37)
      ∧ (∀ l, (t.link l).flags &&& (s.link l).flags = (s.link l).flags)
      ∧ ∀ l, (s.link l).enable = true → (t.link l).enable = true → (t.link l).flags ≠ (s.link l).flags →
          (t.link l).notice = some ⟨(s.link l).sequence + 1, (t.link l).flags⟩
          ∧ (t.link l).sequence = (s.link l).sequence + 1

/-- A request is refused with the code of the first check it fails, in the order of its rule (the model's
choice where an argument is of no list, and for a JOG on a FAULTED axis: logs 12 and 24). Its reply carries that
code, and the event is the taking of the frame, the answer, and what is due anyway: the request itself has no
effect, but for a refusal count where the permit table refuses it, and a jog record cleared where its failure is
reported. A permit refusal counts at the entry, or the default, that gave the verdict on the first subject refused,
and its reply names that index, the member for a plan, and whether the default stands for a lost entry (R181,
R182). -/
def Obligations.RequestsAreCheckedInOrder : Prop :=
  ∀ (c : Instr) (s : State) (l : Link) (k : Kind) (tag : Byte) (x : Status),
    requestOf c = some (l, k, tag) → s.takes l k tag (fitsOf c) → s.refusal c = some x →
    ∃ t v b, exec c s = .next t ∧ t.replied l k tag x b
      ∧ (let u := v.answer l k.code tag x b
         t = announce s u ∨ t = announce s u.settle)
      ∧ (x = .permit → ∃ m q, (subjectsOf c).find? (fun p => !s.admitted p.2) = some (m, q)
          ∧ (let n := (s.verdict q).2
             v = (s.takeFrame l).countRefusal n
             ∧ b = .permitRefusal m n (decide (n = none ∧ s.permits.lost ≠ []))))
      ∧ (x ≠ .permit → v = s.takeFrame l
          ∨ ∃ p ax dir speed f, c = .jog tag p ax dir speed ∧ s.jogFailure p = some f ∧ x = f.status
            ∧ v = (s.takeFrame l).clearJog p)
      ∧ Touches (linkParts l ++ .permits :: followParts) s t

/-! ### Frames and links (chapters 10 and 12) -/

/-- The records that cross a link read back as they were written: a frame (its marker, length, CRC and body),
a segment record, every kind code, and every property and compare code. A reply is such a frame: its kind byte has
the reply bit, its tag is the request's, and its body opens with the status code, no two of which are alike; a read's
body goes on with part, part count and 237 bytes at most of the content, and an ack's with the two flag words (that
they stand in the order R197 names them is DEDUCED, log 17). -/
def Obligations.WireRecordsReadBack : Prop :=
  (∀ (kind tag : Byte) (body rest : List Byte), body.length ≤ 240 →
    receive (frameBytes kind tag body ++ rest) = .frame ⟨kind, tag, body⟩ rest)
  ∧ (∀ r : SegmentRecord, r.start < 281474976710656 → r.duration < 16384 →
    -2147483648 ≤ r.azEnd → r.azEnd < 2147483648 → -2147483648 ≤ r.elEnd → r.elEnd < 2147483648 →
    segmentOf r.bytes = r ∧ r.bytes.length = 16)
  ∧ (∀ k : Kind, Kind.ofCode k.code = some k ∧ k.code.msb = false)
  ∧ (∀ p : Property, Property.ofCode p.code = some p)
  ∧ (∀ p : Compare, Compare.ofCode p.code = some p)
  ∧ (∀ c d : Status, c.code = d.code → c = d)
  ∧ ∀ (k : Kind) (tag : Byte) (st : Status) (body : ReplyBody) (rest : List Byte),
    let r : Reply := ⟨replyKind k.code, tag, st, body⟩
    r.kind.msb = true ∧ r.kind.setWidth 7 = k.code.setWidth 7
    ∧ (∃ carried, receive (r.bytes ++ rest) = .frame ⟨r.kind, tag, st.code :: carried⟩ rest
      ∧ carried.length ≤ 239
      ∧ (body = .empty → carried = [])
      ∧ (∀ part parts content link view,
          (body = .status part parts (partOf content part) link view
            ∨ body = .bytes part parts (partOf content part)) →
          carried = BitVec.ofNat 8 part :: BitVec.ofNat 8 parts :: ((content.drop (237 * part)).take 237))
      ∧ (∀ part parts, body = .partCount part parts →
          carried = [BitVec.ofNat 8 part, BitVec.ofNat 8 parts])
      ∧ ∀ before after, body = .words before after →
          carried = leBytes 5 before.toNat ++ leBytes 5 after.toNat)

/-- A receiver hunts for a marker and takes the frame behind it: it becomes the waiting frame, or is dropped and
counted where one waits; a body length above 240 discards and counts the frame at once, a bad CRC once the
frame is whole, and the receiver then hunts again from the byte after the marker (R187). Sent frames
leave in the order they were built (R188, R196): the reply outgoing becomes absent unless a notice built before
it still waits, and a waiting notice leaves unless a reply built before it is still outgoing. -/
def Obligations.FramesComeAndGo : Prop :=
  (∀ (s : State) (l : Link) (noise : List Byte), s.powered = true → (s.link l).rx = [] →
    (∀ b ∈ noise, b ≠ marker) →
    (∀ (kind tag : Byte) (body : List Byte), body.length ≤ 240 →
      ∃ t, exec (.frameReceived l (noise ++ frameBytes kind tag body)) s = .next t
        ∧ t = s.modLink l fun r =>
            if r.waiting.isSome then { r with dropped := min 65535 (r.dropped + 1) }
            else { r with waiting := some ⟨kind, tag, body⟩ })
    ∧ (∀ len : Byte, 240 < len.toNat →
      ∃ t, exec (.frameReceived l (noise ++ [marker, len])) s = .next t
        ∧ t = s.modLink l fun r => { r with discarded := min 65535 (r.discarded + 1) })
    ∧ ∀ (len : Byte) (after : List Byte),
      240 < len.toNat ∨ len.toNat + 4 ≤ after.length ∧ leNat ((after.drop (len.toNat + 2)).take 2)
        ≠ (crc16 (len :: after.take (len.toNat + 2))).toNat →
      exec (.frameReceived l (noise ++ marker :: len :: after)) s = exec (.frameReceived l (len :: after))
        (s.modLink l fun r => { r with discarded := min 65535 (r.discarded + 1) }))
  ∧ ∀ (s : State) (l : Link), s.powered = true →
    ((s.link l).reply.isSome = true → ((s.link l).notice.isSome && (s.link l).noticeFirst) = false →
      ∃ t, exec (.replySent l) s = .next t ∧ (t.link l).reply = none
        ∧ (l ≠ .safety → t = s.modLink l fun r => { r with reply := none }))
    ∧ ((s.link l).notice.isSome = true → (s.link l).reply = none ∨ (s.link l).noticeFirst = true →
      ∃ t, exec (.noticeSent l) s = .next t
        ∧ t = s.modLink l fun r => { r with notice := none, noticeFirst := false })

/-- A frame the Link Front's own checks refuse (R189): an unknown kind (every kind with the reply bit is one)
or a kind outside its link's column is BAD_KIND, and a body that does not fit its kind's layout is RANGE. It
is heard like any other: it is counted, and it restarts the silence timer. -/
def Obligations.UnknownRequestsAreRefused : Prop :=
  ∀ (s : State) (l : Link) (kind tag : Byte) (body : List Byte), s.powered = true →
    s.mayTake l kind tag (fun b => decide (b = body)) = true →
    ∀ c : Status,
      (c = .badKind ∧ (Kind.ofCode kind = none ∨ ∃ k, Kind.ofCode kind = some k ∧ k.openTo l = false))
      ∨ (c = .range ∧ ∃ k, Kind.ofCode kind = some k ∧ k.openTo l = true
          ∧ ((k = .statusRead ∧ body.length ≠ 3) ∨ (k = .changesAck ∧ body.length ≠ 10)
            ∨ (k = .groupRead ∧ body.length ≠ 2) ∨ (k = .permitWrite ∧ body.length ≠ 8))) →
    ∃ t, exec (.badKind l kind tag body) s = .next t
      ∧ (t.link l).reply = some ⟨replyKind kind, tag, c, .empty⟩
      ∧ (t.link l).waiting = none ∧ (t.link l).taken = min 65535 ((s.link l).taken + 1)
      ∧ (t.link l).silence = (s.link l).silence.map fun _ => s.now

/-- Every STATUS_READ open to its link answers with a part of what it selects, as the state stands once its
frame is taken; on Operations and Safety ANTENNA and TRACK need an antenna of 0..5, on Pendant n they read
antenna n whatever the body names; a selector not open to the link is BAD_KIND. The bytes whose layout the spec
does not give, and so how many parts there are, are free values (log 5); the code of the notice enable and the bytes of
an absent reason are the model's choice (log 51), and so is that a pendant's WIND read leaves out the wave record and
the derated figures (log 49). -/
def Obligations.StatusReadsShowTheState : Prop :=
  ∀ (s : State) (l : Link) (tag : Byte) (part : Nat),
    let u := s.takeFrame l
    let asked (sel : Selector) (ant : Option Nat) : Prop :=
      s.takes l .statusRead tag (statusReadFits sel ant part)
    let shown (c : Instr) (v : Content) : Prop := ∃ t, exec c s = .next t ∧ s.shows t l tag part v
    let refused (c : Instr) (x : Status) : Prop :=
      ∃ t, exec c s = .next t ∧ t.replied l .statusRead tag x .empty
    (∀ (n : Nat) (a : Ant), (match l with | .pendant p => a = p | _ => n = a.num) →
      (asked .antenna (readAnt l n) → shown (.statusReadAntenna l tag n part) (.antenna (u.antennaView a)))
      ∧ (asked .track (readAnt l n) → shown (.statusReadTrack l tag n part) (.track (u.trackView a))))
    ∧ (∀ n, 5 < n → (∀ p, l ≠ .pendant p) →
      (asked .antenna (some n) → refused (.statusReadAntenna l tag n part) .range)
      ∧ (asked .track (some n) → refused (.statusReadTrack l tag n part) .range))
    ∧ (asked .lockouts none → shown (.statusReadLockouts l tag part) (.lockouts (u.lockView l)))
    ∧ (asked .wind none → shown (.statusReadWind l tag part) (.wind (u.windView l)))
    ∧ (asked .heat none → shown (.statusReadHeat l tag part) (.heat (u.heatView l)))
    ∧ ∀ row ∈ [(Selector.group, Instr.statusReadGroup l tag part, Content.group u.groupsView),
        (.budget, .statusReadBudget l tag part, .budget u.budgetView),
        (.store, .statusReadStore l tag part, .store u.storeView),
        (.permit, .statusReadPermit l tag part, .permit u.permitView)], asked row.1 none →
      ((∀ p, l ≠ .pendant p) → shown row.2.1 row.2.2)
      ∧ ((∃ p, l = .pendant p) → refused row.2.1 .badKind)

/-- CHANGES_ACK gives every masked flag its link carries the value of its bit, and leaves every other flag; it
touches no other link's copy, builds no notice, and its reply carries the word before and after (R197). The
taking of a Safety frame that ends a SILENCE source sets WIND first on both wide links (R121, R138); where WIND
was clear and notices are enabled, that event's notice carries the word as it stands after the write (R196). -/
def Obligations.ChangesAckWritesItsLink : Prop :=
  ∀ (s : State) (l : Link) (tag : Byte) (values mask : FlagWord),
    s.takes l .changesAck tag (fun b => decide (b = leBytes 5 values.toNat ++ leBytes 5 mask.toNat)) →
    s.scratch.raised = 0 → s.scratch.early = 0 →
    let ended := decide (l = .safety) && s.wind.silence
    let old := (s.link l).flags ||| wordIf ended (stationFlag .wind)
    let told := ended && (s.link l).enable && !(s.link l).flags.getLsbD 36
    ∃ t new, exec (.changesAck l tag values mask) s = .next t
      ∧ t.replied l .changesAck tag .ok (.words old new) ∧ (t.link l).flags = new
      ∧ (∀ i, new.getLsbD i =
          if mask.getLsbD i && (Link.mask l).getLsbD i then values.getLsbD i else old.getLsbD i)
      ∧ (t.link l).notice =
          (if told then some ⟨(s.link l).sequence + 1, new⟩ else (s.link l).notice)
      ∧ (ended = false → ∀ k, k ≠ l → t.link k = s.link k)
      ∧ (ended = true → ∀ k, k ≠ l →
          (t.link k).flags = (s.link k).flags ||| (stationFlag .wind &&& Link.mask k))

/-- NOTICE_ENABLE from Operations or Safety sets the link's enable and answers with it and the flag word; ON
builds no notice for a flag already set, OFF discards a waiting one; a pendant is refused BAD_KIND and its
enable stays on whatever happens; the enables are off at power-on and kept across a Safety RESTART. The word
shows WIND where the taking of the frame ended a SILENCE source (R121), which is told where the enable was on. -/
def Obligations.NoticeEnableSetsItsLink : Prop :=
  (∀ (s : State) (l : Link) (tag : Byte), (∀ p, l ≠ .pendant p) → s.takes l .noticeEnable tag →
    s.scratch.raised = 0 → s.scratch.early = 0 →
    let ended := decide (l = .safety) && s.wind.silence
    let word := (s.link l).flags ||| wordIf ended (stationFlag .wind)
    let told := ended && (s.link l).enable && !(s.link l).flags.getLsbD 36
    (∃ t, exec (.noticeEnableOn l tag) s = .next t
      ∧ t.replied l .noticeEnable tag .ok (.notice true word) ∧ (t.link l).enable = true
      ∧ (t.link l).flags = word
      ∧ (t.link l).notice =
          (if told then some ⟨(s.link l).sequence + 1, word⟩ else (s.link l).notice))
    ∧ ∃ t, exec (.noticeEnableOff l tag) s = .next t
      ∧ t.replied l .noticeEnable tag .ok (.notice false word) ∧ (t.link l).enable = false
      ∧ (t.link l).flags = word ∧ (t.link l).notice = none)
  ∧ (∀ (s : State) (p : Ant) (tag : Byte), s.takes (.pendant p) .noticeEnable tag →
    ∀ c ∈ [Instr.noticeEnableOn (.pendant p) tag, .noticeEnableOff (.pendant p) tag],
      ∃ t, exec c s = .next t ∧ t.replied (.pendant p) .noticeEnable tag .badKind .empty)
  ∧ (∀ (c : Instr) (s t : State) (p : Ant), exec c s = .next t → (s.link (.pendant p)).enable = true →
      (t.link (.pendant p)).enable = true)
  ∧ (∀ s : State, ∃ t, exec .powerOn s = .next t ∧ (t.link .operations).enable = false
      ∧ (t.link .safety).enable = false ∧ ∀ p, (t.link (.pendant p)).enable = true)
  ∧ ∀ (s : State) (tag : Byte), s.takes .safety .restart tag →
      ∃ t, exec (.restart tag) s = .next t ∧ ∀ l, (t.link l).enable = (s.link l).enable

/-- TIME_SET sets the 48-bit clock, makes it SYNCED and answers with both epochs; every interval a block is
timing keeps the time it has run, and the records of past events keep their epochs (R193, R194). The servo step, the
wind sample and the heater step keep their paces: any time after the set one falls where it fell that time after the
epoch before, every 10, 1000 and 250 ms (R2). An epoch of 2^48 or above is taken modulo 2^48, the model's choice (log
14). -/
def Obligations.TimeSetKeepsIntervals : Prop :=
  ∀ (s : State) (tag : Byte) (epoch : Nat), s.admits (.timeSet tag epoch) = true →
    ∃ t, exec (.timeSet tag epoch) s = .next t
      ∧ t.clock = ⟨(epoch : Int) % 281474976710656, true⟩
      ∧ t.answers (.timeSet tag epoch) .ok (.epochs s.now t.now) = true
      ∧ t.intervals = s.intervals
      ∧ (∀ d : Int, ∀ pace ∈ [(Pace.servo, (10 : Int)), (Pace.wind, 1000), (Pace.heater, 250)],
          (t.now + d - pace.1 t.pace) % pace.2 = (s.now + d - pace.1 s.pace) % pace.2)
      ∧ t.atServo = s.atServo
      ∧ t.locks.slots = s.locks.slots ∧ t.tracks = s.tracks
      ∧ (∀ a, (t.locks.authority.get a).claimed = (s.locks.authority.get a).claimed)
      ∧ ∀ g, (t.groups.get g).start = (s.groups.get g).start
          ∧ (t.groups.get g).completion = (s.groups.get g).completion


/-! ### Power, store and permits (chapters 9 and 11) -/

/-- POWER_ON reads every record (R203): the bad list names those whose CRC is bad, each good record is in
force as it stands and each bad one as the factory's (a zone's with mode OFF, a permit entry not in use and
its index in the lost set), an antenna with a bad AXIS record is configuration-invalid, and the STORE flag
stands on every link that carries it where the bad list is not empty. Where no LOCKOUT record is bad, each slot
holds its record's entry, every entry is EFFECTIVE and persisted, and the list names the occupied slots in order
of creation, oldest first. A part that still has power loses it first, the model's choice (log 10). -/
def Obligations.PowerOnLoadsTheStore : Prop :=
  ∀ s : State, ∃ t, exec .powerOn s = .next t ∧
    let st : Store := if s.powered then s.store.lose else s.store
    t.store.bad = RecordId.all.filter (fun id => !st.goodOf id)
    ∧ (∀ i, (t.axis i).record =
        if st.goodOf (.axis i) then ((st.axes.get i.ant).get i.ax).contents else .factory i.ax)
    ∧ (∀ a, (t.ants.get a).configInvalid = (!st.goodOf (.axis ⟨a, .az⟩) || !st.goodOf (.axis ⟨a, .el⟩)))
    ∧ (∀ z, (t.zone z).record =
        if st.goodOf (.zone z) then ((st.zones.get z.ant).get z.cls).contents
        else { ZoneRecord.factory z.cls with mode := .off })
    ∧ t.wind.record = (if st.goodOf .wind then st.wind.contents else .factory)
    ∧ t.stationRecord = (if st.goodOf .station then st.station.contents else .factory)
    ∧ t.permits.entries.length = st.permits.length
    ∧ (∀ (n : Nat) (r : Stored PermitRecord), st.permits[n]? = some r →
        ∃ e : PermitEntry, t.permits.entries[n]? = some e ∧ e.refusals = 0
        ∧ (r.good = true → e.record = r.contents) ∧ (r.good = false → e.inUse = false))
    ∧ (∀ n : Nat, n ∈ t.permits.lost ↔ ∃ r : Stored PermitRecord, st.permits[n]? = some r ∧ r.good = false)
    ∧ (∀ l, (t.link l).flags =
        (if RecordId.all.all st.goodOf then 0 else stationFlag .store &&& Link.mask l))
    ∧ ((∀ n, st.goodOf (.lockout n) = true) →
        t.locks.slots = st.lockouts.map Stored.contents
        ∧ (∀ e ∈ t.locks.entries, t.entryEffective e = true)
        ∧ (∀ n, n < st.lockouts.length → t.store.mark (.lockout n) = true)
        ∧ t.locks.order.Nodup ∧ (∀ n, n ∈ t.locks.order ↔ (t.locks.slot n).isSome = true)
        ∧ t.locks.order.Pairwise fun m n => ∀ d e, t.locks.slot m = some d → t.locks.slot n = some e →
            d.creation ≤ e.creation)

/-- Every block starts at power-on as its chapter says (R204): the clock at 0 and UNSYNCED; every axis OFF at encoder
A's reading within its soft limits with its brake set; every bus OFF; queues, the channel and groups empty; every
authority REMOTE; the wind CALM with no source; an antenna STOWED where its pin is in, else UNSTOWED; zones at level
0; no ice, no weather and no grant; notices on for the pendants alone. That the thresholds in force before the first
wind sample are the WIND record's own, without ice, and that a part that still has power loses it first, are the
model's choices (logs 37 and 10). -/
def Obligations.PowerOnStartsEveryBlock : Prop :=
  ∀ s : State, ∃ t, exec .powerOn s = .next t ∧
    t.powered = true ∧ t.clock = ⟨0, false⟩ ∧ t.field = s.field
    ∧ (∀ i, t.axis i = Axis.initial (t.axis i).record
        (clampSoft (t.axis i).record.softLow (t.axis i).record.softHigh (s.axisIn i).encA))
    ∧ (∀ i, (t.axis i).state = .off ∧ (t.axis i).released = false ∧ (t.axis i).amplifier = false)
    ∧ (∀ a, (t.ants.get a).bus = .off ∧ (t.ants.get a).enable = false
        ∧ t.track a = .initial ∧ t.remote a = true ∧ t.jog a = none
        ∧ (t.stowOf a).state = (if (s.field.ants.get a).pinIn then .stowed else .unstowed)
        ∧ (t.ice a).tracked = .none ∧ (t.ice a).floor = .none)
    ∧ t.burst = .initial ∧ (∀ g, t.groups.get g = .initial)
    ∧ t.wind = .initial t.wind.record ∧ t.wind.active = false ∧ t.stow.wave = none
    ∧ (∀ z, (t.zone z).requested = 0 ∧ (t.zone z).effective = 0 ∧ (t.zone z).contactor = false
        ∧ (t.zone z).manual = 0)
    ∧ t.heat.weather = none ∧ t.driveGrants = 0 ∧ t.feed.queue = [] ∧ t.feed.shed.active = false
    ∧ t.store.writing = none
    ∧ ∀ l, (t.link l).enable = (match l with | .pendant _ => true | _ => false)
        ∧ (t.link l).reply = none ∧ (t.link l).notice = none ∧ (t.link l).taken = 0

/-- A bad LOCKOUT record locks the whole station (R203): POWER_ON leaves an EFFECTIVE STATION entry of class
SAFETY with every cover and reason RESTORE_LOST, so every axis is covered and every zone's lockout cap is 0; a
write of its slot and of every bad slot waits; every other slot holds its good record's entry, or none. That a
part with power loses it first, with the write in progress, and that a write is queued for a RESTORE_LOST entry
that the merge left as it was, are the model's choices (logs 10 and 26). -/
def Obligations.BadLockoutLocksTheStation : Prop :=
  ∀ s : State, s.Bounded →
    let st : Store := if s.powered then s.store.lose else s.store
    (∃ n : Nat, n < 24 ∧ st.goodOf (.lockout n) = false) →
    ∃ t n e, exec .powerOn s = .next t ∧ n < 24 ∧ t.locks.slot n = some e
      ∧ e.scope = none ∧ e.cover = ⟨true, true, true⟩ ∧ e.cls = .safety ∧ e.holder = .safety
      ∧ e.reason = some 255 ∧ t.entryEffective e = true
      ∧ (∀ i, t.axisCovered i = true) ∧ (∀ z, t.lockCap z = some 0)
      ∧ t.store.owes (.lockout n)
      ∧ (∀ m : Nat, m < 24 → st.goodOf (.lockout m) = false → t.store.owes (.lockout m))
      ∧ ∀ (m : Nat) (r : Stored (Option LockEntry)), m ≠ n → st.lockouts[m]? = some r →
          t.locks.slot m = if r.good then r.contents else none

/-- POWER_LOSS (R201) keeps the store's records, makes the CRC of the one being written bad and loses every
waiting write; a part without power takes no command but POWER_ON (log 7). -/
def Obligations.PowerLossKeepsTheStore : Prop :=
  (∀ s : State, s.powered = true → s.Bounded → s.Tidy →
    ∃ t, exec .powerLoss s = .next t ∧ t.powered = false
      ∧ t.store.queue = [] ∧ t.store.overflow = [] ∧ t.store.writing = none
      ∧ (∀ id ∈ RecordId.all, t.store.goodOf id =
          (s.store.goodOf id && decide (s.store.writing.map Writing.record ≠ some id)))
      ∧ (s.store.writing = none → t.store = { s.store with
          queue := [], overflow := [], headWait := none, waitReported := false, longWait := false }))
  ∧ ∀ (s : State) (c : Instr), s.powered = false → c ≠ .powerOn → exec c s = .next s

/-- RESTART from Safety (R205) lays down motion and lets go of queues, burst, groups and local control, and
keeps what protects: lockouts, permits, the store, the wind and its demand, ice and weather, the clock. The
feed's queue and shed are cleared and its group and wave grants converted (R173): each axis whose torque is on under one
comes under a standing grant of the hold figure recorded with it, where the figures sum to no more than the grant (else
log 32). Every axis loses its claims, and one that moves, holds or stops already goes toward BRAKED (R28). The wave in
preparation is cleared, a DRIVING antenna is STOPPING, or, at rest already, where R125 puts it, and every other stow
state and every warning timer stays (R137). -/
def Obligations.RestartKeepsWhatProtects : Prop :=
  ∀ (s : State) (tag : Byte), s.takes .safety .restart tag →
    ∃ t, exec (.restart tag) s = .next t
      ∧ t.replied .safety .restart tag .ok .empty
      ∧ t.locks.slots = s.locks.slots ∧ t.locks.order = s.locks.order ∧ t.permits = s.permits
      ∧ t.store = s.store ∧ t.clock = s.clock ∧ t.heat.ice = s.heat.ice
      ∧ t.heat.weather = s.heat.weather ∧ t.wind = { s.wind with silence := false }
      ∧ (∀ a, (t.track a).plain = .initial) ∧ (∀ g, (t.groups.get g).plain = .initial)
      ∧ t.burst.ant = none ∧ (∀ a, s.burst.ant = some a → t.burst.termination = some (a, .restart))
      ∧ (∀ a, t.remote a = true ∧ t.jog a = none)
      ∧ (∀ z, (t.zone z).settings = ((s.zone z).record,
          if (s.zone z).retain then ((s.zone z).mode, (s.zone z).manual) else (.auto, 0)))
      ∧ (∀ l, (t.link l).flags = 0 ∧ (t.link l).notice = none ∧ (t.link l).waiting = none
          ∧ (t.link l).enable = (s.link l).enable ∧ (l ≠ .safety → (t.link l).reply = none))
      ∧ (t.feed.queue = [] ∧ t.feed.shed = ⟨false, none, false, none, none⟩ ∧ t.feed.cursor = none
          ∧ t.feed.lastStep = none ∧ (∀ g, t.feed.groups.get g = none) ∧ (∀ a, t.feed.waves.get a = none)
          ∧ (∀ z, (t.zone z).shedCap = none)
          ∧ t.feed.limit = s.feed.limit ∧ t.feed.base = s.feed.base
          ∧ t.feed.period = s.feed.period ∧ t.feed.allowance = s.feed.allowance)
      ∧ t.stow.wave = none
      ∧ (∀ a, (t.stowOf a).member = false ∧ (t.stowOf a).warningTimer = (s.stowOf a).warningTimer
          ∧ ((s.stowOf a).state = .driving ∨ (s.stowOf a).state = .stopping → (t.stowOf a).state =
              if t.moving a then .stopping else if t.covered a then .blocked
              else if t.anyFaulted a then .driveFailed else .waiting)
          ∧ ((s.stowOf a).state ≠ .driving → (s.stowOf a).state ≠ .stopping →
              (t.stowOf a).state = (s.stowOf a).state))
      ∧ (∀ g v i h, s.feed.groups.get g = some v → (i, h) ∈ v.holds → (s.axis i).cover = .group g →
          (s.axis i).state.amplifierOn = true → (t.axis i).cover = .standing
            ∧ ((v.holds.map Prod.fst).Nodup → (v.holds.map Prod.snd).sum ≤ v.watts → t.standing i = ⟨h, h⟩))
      ∧ (∀ v (i : AxisId), s.feed.waves.get i.ant = some v → (s.axis i).cover = .wave →
          (s.axis i).state.amplifierOn = true → (t.axis i).cover = .standing
            ∧ (v.holds.az + v.holds.el ≤ v.watts → t.standing i = ⟨v.holds.get i.ax, v.holds.get i.ax⟩))
      ∧ ∀ i, (t.axis i).claims.any = false
          ∧ ((s.axis i).ready = true →
            (t.axis i).state = .braking ∧ (t.axis i).pendingStop = some ⟨some .restart, .braked⟩)
          ∧ (∀ r, (s.axis i).state = .stopping → (s.axis i).stop = some r → (t.axis i).state = .stopping
            ∧ (t.axis i).stop = some { r with target := if r.target = .off then .off else .braked })
          ∧ ((s.axis i).state = .slewing ∨ (s.axis i).state = .tracking ∨ (s.axis i).state = .jogging →
            (s.axis i).velocity ≠ 0 → (t.axis i).state = .stopping ∧
              ∃ r, (t.axis i).stop = some r ∧ r.reason = .restart ∧ r.target = .braked)

/-- The store writes one record at a time, from its queue's head (R200 to R202): a write starts with the
record's contents and takes the oldest overflowed slot into the queue; completed, the record is good, off the
bad list and persisted unless it has changed since; while the supply is low the queue's head waits, and a wait
past 10 s sets STORE, as does the emptying of the queue after one. PERMIT_WRITE replaces an entry with its
refusal count 0 and takes its index out of the lost set; PERMIT_WRITE(DEFAULT) sets the default verdict with its
count 0, and so does a PERMIT_WRITE with index 0xFF, of which only the verdict bit is read (R209); each queues
its record's write (R183, R184). That the head wait starts at the fall of the supply, also while a write is in
progress, is the model's choice (log 47). -/
def Obligations.WritesReachTheStore : Prop :=
  (∀ s : State, s.powered = true →
    (∃ t, exec .storeSupplyLow s = .next t ∧ t.field = { s.field with supplyGood := false }
      ∧ t.store = { s.store with headWait :=
          if s.store.queue = [] then s.store.headWait else some (s.store.headWait.getD s.now) })
    ∧ (∀ id rest, s.field.supplyGood = true → s.store.writing = none → s.store.queue = id :: rest →
      ∃ t, exec .storeWriteStart s = .next t
        ∧ t.store.writing = some ⟨id, s.contentsOf id, false, s.now⟩ ∧ t.store.headWait = none
        ∧ (s.store.overflow = [] → t.store.queue = rest)
        ∧ (∀ n more, s.store.overflow = n :: more → rest.length < 32 →
            t.store.queue = rest ++ [.lockout n] ∧ t.store.overflow = more)
        ∧ (s.store.longWait = true → t.store.queue = [] →
            t.flagged (stationFlag .store) ∧ t.store.longWait = false))
    ∧ (∀ w, s.Bounded → s.store.writing = some w → w.record ∈ RecordId.all → w.value.id = w.record →
      ∃ t, exec .storeWriteComplete s = .next t ∧ t.store.writing = none ∧ t.store.holds w.value
        ∧ t.store.goodOf w.record = true ∧ w.record ∉ t.store.bad
        ∧ t.store.mark w.record = (!w.changed || s.store.mark w.record)
        ∧ ∀ id, id ≠ w.record → t.store.goodOf id = s.store.goodOf id
            ∧ t.store.mark id = s.store.mark id)
    ∧ ∀ e, s.store.headWait = some e → e + 10000 ≤ s.now → s.store.waitReported = false →
      ∃ t, exec .storeHeadWaitExpiry s = .next t ∧ t.flagged (stationFlag .store)
        ∧ t.store = { s.store with waitReported := true, longWait := true })
  ∧ ∀ (s : State) (tag : Byte),
    (∀ p : PermitArg, s.permits.entries.length = 32 → p.index ≠ 0xFF →
      s.admits (.permitWrite tag p) = true →
      ∃ t, ∃ e : PermitEntry, exec (.permitWrite tag p) s = .next t
        ∧ t.answers (.permitWrite tag p) .ok (.permitEntry p.index e t.permits.lost) = true
        ∧ t.permits.entries[p.index]? = some e
        ∧ e.inUse = p.inUse ∧ e.andFlag = p.andFlag ∧ e.value = p.value ∧ e.refusals = 0
        ∧ e.verdict = (if p.refuse then .refuse else .allow)
        ∧ some e.property = Property.ofCode p.property ∧ some e.compare = Compare.ofCode p.compare
        ∧ (∀ m : Nat, m ≠ p.index → t.permits.entries[m]? = s.permits.entries[m]?)
        ∧ (∀ m : Nat, m ∈ t.permits.lost ↔ m ∈ s.permits.lost ∧ m ≠ p.index)
        ∧ t.permits.default_ = s.permits.default_ ∧ t.store.owes (.permit p.index))
    ∧ ∀ (v : Verdict) (c : Instr),
      c = .permitWriteDefault tag (some v)
        ∨ (∃ p : PermitArg, c = .permitWrite tag p ∧ p.index = 0xFF
            ∧ v = if p.refuse then .refuse else .allow) →
      s.admits c = true →
      ∃ t, exec c s = .next t
        ∧ t.answers c .ok
            (.permitDefault v (if s.permits.lost = [] then v else .refuse)) = true
        ∧ t.permits = { s.permits with default_ := v, defaultRefusals := 0 } ∧ t.store.owes .station

/-- The scan of the permit table gives the verdict the rules give (R179 to R181): that of the last entry of the first
chain all of whose entries match under the masks set before them, or the default verdict in use. A SETMASK entry
matches and sets the mask (R179). Any other entry leaves the mask, and matches where its property is present and
compares as R178 says: EQ and NE on the 32 bits under the mask; GE and LT without it, signed for TARGET_AZ and
TARGET_EL and unsigned otherwise. The values seen are those of R177, absent for a target the request does not name and
for HOUR without a SYNCED clock. -/
def Obligations.PermitScanFollowsTheChains : Prop :=
  (∀ (s : State) (q : Subject), s.verdict q = s.ruling q)
  ∧ (∀ (s : State) (q : Subject) (e : PermitEntry) (mask : BitVec 32),
    (e.property = .setMask → s.testEntry q e mask = some e.value)
    ∧ (e.property ≠ .setMask →
      (s.property q e.property = none → s.testEntry q e mask = none)
      ∧ ∀ p, s.property q e.property = some p →
        let x := BitVec.ofInt 32 p
        let signed := e.property = .targetAz ∨ e.property = .targetEl
        (s.testEntry q e mask = some mask ∨ s.testEntry q e mask = none)
        ∧ (e.compare = .eq → (s.testEntry q e mask = some mask ↔ x &&& mask = e.value &&& mask))
        ∧ (e.compare = .ne → (s.testEntry q e mask = some mask ↔ x &&& mask ≠ e.value &&& mask))
        ∧ (e.compare = .ge → (s.testEntry q e mask = some mask ↔
            if signed then e.value.toInt ≤ x.toInt else e.value.toNat ≤ x.toNat))
        ∧ (e.compare = .lt → (s.testEntry q e mask = some mask ↔
            if signed then x.toInt < e.value.toInt else x.toNat < e.value.toNat))))
  ∧ ∀ (s : State) (q : Subject),
    s.property q .source = some (if q.pendant = true then 1 else 0)
    ∧ s.property q .kind = some (match q.kind with
        | .plan => 0 | .burst => 1 | .jog => 2 | .localClaim => 3 | .heatSet => 4)
    ∧ s.property q .antenna = some q.ant.num
    ∧ s.property q .windClass = some (match s.wind.cls with | .calm => 0 | .breezy => 1 | .strong => 2 | .stow => 3)
    ∧ s.property q .iceClass = some (match s.iceClass q.ant with | .none => 0 | .light => 1 | .heavy => 2)
    ∧ s.property q .targetAz = q.az ∧ s.property q .targetEl = q.el
    ∧ s.property q .hour = (if s.clock.synced = true then some (s.now / 3600000 % 24) else none)
    ∧ s.property q .lockCount =
        some (s.locks.entries.countP fun e => decide (e.scope = none ∨ e.scope = some q.ant))

/-! ### Axis drives and profiles (chapters 1 and 2) -/

/-- AXIS_ENABLE (R9, R11, R12). ON enables the bus, and precharges it from OFF with its OFF axes; HOLD gives each
axis the claim OPERATIONS as well, under which a BRAKED one stays where READY is false, and else takes torque on a
standing grant of its hold figure, at once where no antenna waits for a wave, or once its need waits in the queue
(R13); OFF lets a precharge go, and takes an UP bus down behind its axes: each HOLDING axis brakes toward OFF, and
once both are down the bus goes OFF with them. -/
def Obligations.AxisEnableDrivesTheBus : Prop :=
  ∀ (s : State) (tag : Byte) (a : Ant),
    (∀ c ∈ [Instr.axisEnableOn tag a.num, .axisEnableHold tag a.num], s.admits c = true →
      ∃ t, exec c s = .next t ∧ t.answers c .ok .empty = true
        ∧ (t.ants.get a).enable = true
        ∧ ((s.ants.get a).bus = .off → (t.ants.get a).bus = .precharge
            ∧ (t.ants.get a).prechargeStart = some s.now
            ∧ ∀ ax, (s.axis ⟨a, ax⟩).state = .off → (t.axis ⟨a, ax⟩).state = .precharge)
        ∧ ((s.ants.get a).bus ≠ .off → (t.ants.get a).bus = (s.ants.get a).bus)
        ∧ (c = .axisEnableHold tag a.num → (s.stowOf a).state = .unstowed → ∀ ax,
            s.waits ⟨a, ax⟩ = false → let i : AxisId := ⟨a, ax⟩
            ((s.axis i).state ≠ .braked → (t.axis i).claims.operations = true)
            ∧ ((s.axis i).state = .braked → (s.axis i).claims.group = false → (s.axis i).claims.stow = false →
              (s.ready a = false → (t.axis i).state = .braked ∧ (t.axis i).claims.operations = true
                ∧ t.waits i = false)
              ∧ (s.ready a = true → (∀ b, (s.stowOf b).state ≠ .stopping ∨ s.moving b = true) →
                (∀ j, j.ant ≠ a → (s.axis j).state = .braked → (s.axis j).claims.any = false) →
                (s.feed.queue = [] → s.feed.shed.classes = none → (∀ b, s.waitsForWave b = false) →
                  ((s.axis ⟨a, .az⟩).record.hold + (s.axis ⟨a, .el⟩).record.hold : Nat) ≤ s.freeRoom →
                  (t.axis i).state = .torqueUp ∧ (t.axis i).claims.operations = true
                  ∧ (t.axis i).cover = .standing
                  ∧ t.standing i = ⟨(s.axis i).record.hold, (s.axis i).record.hold⟩)
                ∧ (s.feed.queue.length ≤ 14 → (t.axis i).claims.operations = true
                  ∧ ((t.axis i).state = .torqueUp ∨ (t.axis i).state = .braked ∧ t.waits i = true))))))
    ∧ (s.admits (.axisEnableOff tag a.num) = true →
      ∃ t, exec (.axisEnableOff tag a.num) s = .next t
        ∧ t.answers (.axisEnableOff tag a.num) .ok .empty = true
        ∧ ((s.ants.get a).bus = .precharge → (t.ants.get a).bus = .off
            ∧ ∀ ax, (s.axis ⟨a, ax⟩).state = .precharge →
              (t.axis ⟨a, ax⟩).state = .off ∧ (t.axis ⟨a, ax⟩).claims.any = false)
        ∧ ((s.ants.get a).bus = .up →
            (∀ ax, (s.axis ⟨a, ax⟩).ready = true → (t.axis ⟨a, ax⟩).state = .braking
                ∧ (t.axis ⟨a, ax⟩).pendingStop = some ⟨some .disable, .off⟩
                ∧ (t.axis ⟨a, ax⟩).claims.any = false)
            ∧ ((∀ ax, (s.axis ⟨a, ax⟩).state = .braked) → (t.ants.get a).bus = .off
                ∧ ∀ ax, (t.axis ⟨a, ax⟩).state = .off)))

/-- DRIVE_RESET (R27): each FAULTED axis with a cause present stays FAULTED with the first of them in the row
order of the table of causes, and stands in the reply, which is then BAD_STATE; any other leaves FAULTED,
BRAKED on an UP bus and else OFF, on a healthy encoder where it has one. Which of several causes is taken, the
first in row order, is the model's choice (log 20). -/
def Obligations.DriveResetLooksForCauses : Prop :=
  ∀ (s : State) (tag : Byte) (a : Ant), s.admits (.driveReset tag a.num) = true →
    let left := a.axes.filterMap fun i =>
      if (s.axis i).state.isFaulted then (s.firstCause i).map fun c => (i, c) else none
    ∃ t, exec (.driveReset tag a.num) s = .next t
      ∧ t.answers (.driveReset tag a.num) (if left = [] then .ok else .badState) (.faults left) = true
      ∧ ∀ ax, let i : AxisId := ⟨a, ax⟩
        (s.axis i).state.isFaulted = true →
          (∀ c, s.firstCause i = some c → (t.axis i).state = .faulted c)
          ∧ (s.firstCause i = none →
            (t.axis i).active = (if (s.axis i).healthy (s.axisIn i) (s.axis i).active = false
                ∧ (s.axis i).healthy (s.axisIn i) (s.axis i).active.other = true
              then (s.axis i).active.other else (s.axis i).active)
            ∧ ((s.stowOf a).state = .unstowed → (s.axis i).claims.any = false →
              ((s.ants.get a).bus = .up → (s.ants.get a).enable = true) →
              (t.axis i).state = if (s.ants.get a).bus = .up then .braked else .off))

/-- The encoder rows (R20 to R23): SELECT switches the active reading; DISABLE and RESTORE set an encoder's
enabled item, and the disagreement timer runs only while both are healthy; a report of the active encoder
switches to a healthy other one, any other report only marks its encoder, and a cleared report takes the mark
back; no other axis's settings change. CONFIG_WRITE of an AXIS record (R8, R30, R190) on an axis that is down
takes every figure set into its range, answers CLAMPED where one changed, marks the record written and queues
its write; once both records of the antenna have been written since power-on its configuration is valid. -/
def Obligations.EncodersAndFiguresAreSet : Prop :=
  (∀ (s : State) (tag : Byte) (a : Ant) (x : AxisName) (e : Enc),
    let i : AxisId := ⟨a, x⟩
    (s.admits (.encoderSelect tag a.num (some x) (some e)) = true →
      ∃ t, exec (.encoderSelect tag a.num (some x) (some e)) s = .next t
        ∧ t.answers (.encoderSelect tag a.num (some x) (some e)) .ok .empty = true
        ∧ t.axis i = { s.axis i with active := e } ∧ ∀ j, j ≠ i → t.axis j = s.axis j)
    ∧ (∀ c ∈ [(Instr.encoderDisable tag a.num (some x) (some e), false),
        (.encoderRestore tag a.num (some x) (some e), true)], s.admits c.1 = true →
      ∃ t, exec c.1 s = .next t ∧ t.answers c.1 .ok .empty = true
        ∧ (t.axis i).enabledA = (if e = .a then c.2 else (s.axis i).enabledA)
        ∧ (t.axis i).enabledB = (if e = .b then c.2 else (s.axis i).enabledB)
        ∧ (t.axis i).active = (s.axis i).active ∧ (t.axis i).state = (s.axis i).state
        ∧ (t.axis i).disagreeTimer = (if (t.axis i).disagree (s.axisIn i)
            then some ((s.axis i).disagreeTimer.getD s.now) else none)
        ∧ ∀ j, j ≠ i → (t.axis j).settings = (s.axis j).settings)
    ∧ (s.powered = true →
      ((s.axis i).active ≠ e ∨ (s.axis i).healthy (s.axisIn i) e.other = true →
        ∃ t, exec (.encoderFaultReport i e) s = .next t
          ∧ (t.axisIn i).reportA = ((s.axisIn i).reportA || decide (e = .a))
          ∧ (t.axisIn i).reportB = ((s.axisIn i).reportB || decide (e = .b))
          ∧ (t.axis i).settings = { s.axis i with
              active := if (s.axis i).active = e then e.other else (s.axis i).active }.settings
          ∧ ∀ j, j ≠ i → (t.axis j).settings = (s.axis j).settings)
      ∧ ∃ t, exec (.encoderReportCleared i e) s = .next t
          ∧ (t.axisIn i).reportA = ((s.axisIn i).reportA && decide (e ≠ .a))
          ∧ (t.axisIn i).reportB = ((s.axisIn i).reportB && decide (e ≠ .b))
          ∧ ∀ j, (t.axis j).settings = (s.axis j).settings))
  ∧ ∀ (s : State) (tag : Byte) (a : Ant) (x : AxisName) (f : AxisFigures),
    let c := Instr.configWriteAxis tag a.num (some x) f
    let i : AxisId := ⟨a, x⟩
    s.admits c = true → ∃ t r, exec c s = .next t
      ∧ t.axis i = { s.axis i with record := r, recordWritten := true }
      ∧ r.figures = ⟨max 1 (min (if x = .az then 3000 else 1500) f.vmax),
          max 1 (min (if x = .az then 2000 else 1000) f.amax),
          max (if x = .az then -270000 else 2000) (min (if x = .az then 270000 else 90500) f.softLow),
          max (if x = .az then -270000 else 2000) (min (if x = .az then 270000 else 90500) f.softHigh),
          max 0 (min 3000 f.hold), max 0 (min 5000 f.coeff), max 50 (min 5000 f.followLimit),
          max 10 (min 600 f.idle)⟩
      ∧ t.answers c (if r.figures = f then .ok else .clamped) (.axisRecord r) = true
      ∧ (t.ants.get a).configInvalid =
          ((s.ants.get a).configInvalid && !(s.axis ⟨a, x.other⟩).recordWritten)
      ∧ t.store.owes (.axis i) ∧ ∀ j, j ≠ i → t.axis j = s.axis j

/-- The servo step (R7, R24, R83) takes the field inputs and gives each axis its commanded position and
velocity by its state: at the reading within the soft limits and still where the brake holds it, on its profile,
segment, stop or jog where it moves, unchanged where it holds, in FAULTED(BRAKE_SET) too. A bus's in-band timer runs
while its reading is in band and it precharges or counts as out of band, its out-of-band timer while an UP bus reads
outside (R9, R10). The following error is the position less the
active reading, and its timer runs while it is too large; no state changes, and a RUNNING group's settle timer
runs while its settle condition holds. -/
def Obligations.ServoStepMovesTheAxes : Prop :=
  ∀ (s : State) (io : FieldInputs), s.powered = true →
    ∃ t, exec (.servoStep io) s = .next t ∧ t.field = io
      ∧ (∀ i, (t.axis i).state = (s.axis i).state
        ∧ ((s.axis i).state.followsReading = true → (t.axis i).velocity = 0 ∧ (t.axis i).position =
            clampSoft (s.axis i).record.softLow (s.axis i).record.softHigh ((s.axis i).reading (t.axisIn i)))
        ∧ (∀ p, (s.axis i).state = .slewing → (s.axis i).profile = some p →
            ((t.axis i).position, (t.axis i).velocity) = p.eval s.now)
        ∧ (∀ g, (s.axis i).state = .tracking → (s.track i.ant).activeSegment = some g →
            ((t.axis i).position, (t.axis i).velocity) = g.eval i.ax s.now)
        ∧ (∀ r, (s.axis i).state = .stopping → (s.axis i).stop = some r →
            ((t.axis i).position, (t.axis i).velocity) = r.eval (s.axis i).record s.now)
        ∧ (∀ m, (s.axis i).state = .jogging → s.jogMotion i = some m →
            ((t.axis i).position, (t.axis i).velocity) = (m.1, m.2.1))
        ∧ ((s.axis i).state = .holding ∨ (s.axis i).state = .torqueUp ∨ (s.axis i).state = .braking
              ∨ (s.axis i).state = .faulted .brakeSet →
            (t.axis i).position = (s.axis i).position ∧ (t.axis i).velocity = (s.axis i).velocity)
        ∧ (t.axis i).followingError = ((t.axis i).position - (t.axis i).reading (t.axisIn i)).natAbs
        ∧ (t.axis i).followTimer = (if (s.axis i).state.followChecked = true
              ∧ (s.axis i).record.followLimit < (t.axis i).followingError
            then some ((s.axis i).followTimer.getD s.now) else none)
        ∧ (t.axis i).disagreeTimer = (if (s.axis i).disagree (t.axisIn i)
            then some ((s.axis i).disagreeTimer.getD s.now) else none))
      ∧ (∀ a, let v := s.ants.get a
          let band := 950 ≤ (t.field.ants.get a).bus ∧ (t.field.ants.get a).bus ≤ 1050
          (t.ants.get a).inBandTimer = (if band ∧ (v.bus = .precharge ∨ v.outOfBand = true)
            then some (v.inBandTimer.getD s.now) else none)
          ∧ (t.ants.get a).outBandTimer = (if ¬band ∧ v.bus = .up
            then some (v.outBandTimer.getD s.now) else none)
          ∧ (t.ants.get a).bus = v.bus ∧ (t.ants.get a).outOfBand = v.outOfBand)
      ∧ ∀ g, (s.groups.get g).state = .running → (t.groups.get g).settleTimer =
          (if t.groupSettled (s.groups.get g) then some ((s.groups.get g).settleTimer.getD s.now) else none)

/-- At a servo step a profile ends on its target and a stop where it comes to rest (R17, R45). The axis then holds,
or goes down to its brake where the stop's target is deeper; a stowing antenna whose EL arrives goes on with its pin:
STOWED where the pin is in already, inserting it where the PIN zone is warm, else warming it (R131). Off a servo step
neither does anything. -/
def Obligations.ProfilesAndStopsEnd : Prop :=
  ∀ (s : State) (i : AxisId), s.powered = true →
    (s.atServo = false → exec (.profileEnd i) s = .next s ∧ exec (.stopEnd i) s = .next s)
    ∧ (s.atServo = true → ∀ p, s.profileOver i = some p →
      ∃ t, exec (.profileEnd i) s = .next t ∧ (t.axis i).position = p.target
        ∧ (i.ax = .az ∨ (s.stowOf i.ant).state ≠ .driving → s.waits i = false →
            (s.stowOf i.ant).state ≠ .stopping →
            (t.axis i).state = .holding ∧ (t.axis i).velocity = 0)
        ∧ (i.ax = .el → (s.stowOf i.ant).state = .driving → (t.stowOf i.ant).state =
            if (s.zone ⟨i.ant, .pin⟩).readsAtLeast 0 then
              (if (s.field.ants.get i.ant).pinIn then .stowed else .pinInserting)
            else .pinWarming))
    ∧ ∀ r, s.atServo = true → s.stopOver i = some r →
      ∃ t, exec (.stopEnd i) s = .next t ∧ (t.axis i).position = (r.eval (s.axis i).record s.now).1
        ∧ (s.waits i = false → (s.stowOf i.ant).state ≠ .stopping → (t.axis i).velocity = 0
            ∧ (r.target = .holding → (t.axis i).state = .holding)
            ∧ (r.target ≠ .holding → (t.axis i).state = .braking
                ∧ (t.axis i).pendingStop = some ⟨some r.reason, r.target⟩))

/-- The bus rows (R9, R10): 2 s in band bring a precharged bus UP and its PRECHARGE axes to BRAKED; 15 s of
precharge fault them and take the bus OFF; 200 ms out of band fault every axis with its amplifier on, and 2 s
back in band end the mark. That the precharge start epoch becomes absent as the bus goes UP is the model's choice
(log 52). -/
def Obligations.BusFollowsItsBand : Prop :=
  ∀ (s : State) (a : Ant), s.powered = true →
    (∀ e, (s.ants.get a).bus = .precharge → (s.ants.get a).enable = true →
      (s.ants.get a).inBandTimer = some e → e + 2000 ≤ s.now →
      ∃ t, exec (.busUp a) s = .next t ∧ (t.ants.get a).bus = .up
        ∧ (t.ants.get a).prechargeStart = none
        ∧ ((s.stowOf a).state ≠ .stopping → (s.stowOf a).state ≠ .waiting → ∀ ax,
            (s.axis ⟨a, ax⟩).state = .precharge → (s.axis ⟨a, ax⟩).claims.any = false →
            (t.axis ⟨a, ax⟩).state = .braked))
    ∧ (∀ e, (s.ants.get a).bus = .precharge → (s.ants.get a).prechargeStart = some e → e + 15000 ≤ s.now →
      ∃ t, exec (.prechargeTimeout a) s = .next t
        ∧ (∀ ax, (s.axis ⟨a, ax⟩).state = .precharge →
            (t.axis ⟨a, ax⟩).state = .faulted .precharge ∧ (t.ants.get a).bus = .off)
        ∧ ((s.stowOf a).state = .unstowed → (t.ants.get a).bus = .off))
    ∧ (∀ e, (s.ants.get a).bus = .up → (s.ants.get a).enable = true → (s.ants.get a).outOfBand = false →
      (s.ants.get a).outBandTimer = some e → e + 200 ≤ s.now → s.axesLawful →
      ∃ t, exec (.busOutOfBand a) s = .next t ∧ (t.ants.get a).outOfBand = true ∧ t.ready a = false
        ∧ ∀ ax, (s.axis ⟨a, ax⟩).amplifier = true → (t.axis ⟨a, ax⟩).state = .faulted .precharge)
    ∧ ∀ e, (s.ants.get a).bus = .up → (s.ants.get a).enable = true → (s.ants.get a).outOfBand = true →
      (s.ants.get a).inBandTimer = some e → e + 2000 ≤ s.now →
      ∃ t, exec (.busBackInBand a) s = .next t ∧ (t.ants.get a).outOfBand = false
        ∧ (t.ants.get a).bus = .up

/-- The handover between torque and brake (R14, R15, R19): the holding current releases the brake and starts
the release check; a confirmed release ends the check and carries out what waited for it; a confirmed brake
takes the amplifier off; an idle axis goes down to its brake. An axis released with no claim and no stop kept
goes back to its brake with a stop of no reason, the model's choice (log 21). -/
def Obligations.TorqueAndBrakeHandOver : Prop :=
  ∀ (s : State) (i : AxisId), s.powered = true → s.waits i = false → (s.stowOf i.ant).state ≠ .stopping →
    ((s.axis i).state = .torqueUp →
      ∃ t, exec (.holdingCurrentReached i) s = .next t ∧ (t.axisIn i).current = true
        ∧ (t.axis i).state = .holding ∧ (t.axis i).amplifier = true ∧ (t.axis i).released = true
        ∧ (t.axis i).releaseCheck = some s.now ∧ (t.axis i).pendingStop = (s.axis i).pendingStop)
    ∧ ((s.axis i).state = .holding → (s.axis i).releaseCheck.isSome = true →
      ∃ t, exec (.brakeReleaseConfirmed i) s = .next t ∧ (t.axisIn i).releasedSwitch = true
        ∧ (t.axis i).releaseCheck = none
        ∧ (∀ p, (s.axis i).pendingStop = some p →
            (t.axis i).state = .braking ∧ (t.axis i).pendingStop = some p)
        ∧ ((s.axis i).pendingStop = none → (s.axis i).claims.any = true →
            (t.axis i).state = .holding ∧ (t.axis i).ready = true)
        ∧ ((s.axis i).pendingStop = none → (s.axis i).claims.any = false →
            (t.axis i).state = .braking ∧ (t.axis i).pendingStop = some ⟨none, .braked⟩))
    ∧ ((s.axis i).state = .braking → (s.axis i).claims.any = false →
      (s.ants.get i.ant).disabling = false → (s.stowOf i.ant).state ≠ .waiting →
      ∃ t, exec (.brakeSetConfirmed i) s = .next t ∧ (t.axisIn i).setSwitch = true
        ∧ (t.axis i).state = .braked ∧ (t.axis i).amplifier = false ∧ (t.axis i).released = false)
    ∧ ∀ e, (s.axis i).state = .holding → (s.axis i).idleTimer = some e →
      e + (s.axis i).record.idle * 1000 ≤ s.now →
      ∃ t, exec (.idleBrakeExpiry i) s = .next t
        ∧ ((s.stowOf i.ant).state ≠ .waiting → (t.axis i).claims.any = false)
        ∧ ((s.axis i).releaseCheck = none →
            (t.axis i).state = .braking ∧ (t.axis i).pendingStop = some ⟨some .idle, .braked⟩)
        ∧ ((s.axis i).releaseCheck.isSome = true → (t.axis i).state = .holding ∧
            ∃ p, (t.axis i).pendingStop = some p ∧ p.target ≠ .holding)

/-- Every row that faults an axis (TORQUE_UP_TIMEOUT, RELEASE_CHECK_TIMEOUT, BRAKE_SET_TIMEOUT,
ENCODER_DISAGREEMENT_FAULT, FOLLOWING_FAULT, LIMIT_SWITCH_TRIPPED, AMPLIFIER_FAULT, and ENCODER_FAULT_REPORT of
the active encoder where the other is not healthy: `faultOf`) takes it, whatever it did, by the one fault stop
(R25, R26): FAULTED with its cause, still, braked and without claims; its antenna's queue halted, burst
terminated and group HALTED; a stow under way DRIVE_FAILED; the other axis under a FAULT stop (R18); and the failure
FAULTED on a jog of the antenna (R112). That the commanded velocity is 0 in that event is the model's choice (log 35);
so is the order of the stops in it, which gives the other axis of a bound or tracking antenna the FAULT stop rather
than GROUP's or TRACK's (log 18; R18 keeps the reason of the first). -/
def Obligations.FaultsStopTheAxis : Prop :=
  ∀ (s : State) (c : Instr) (i : AxisId) (k : FaultCause), s.powered = true → faultOf s c = some (i, k) →
    faultTakes (s.axis i).state k = true → ∃ t, exec c s = .next t ∧ s.FaultStopped t i k

/-- The arithmetic of a distance D at an acceleration A (R33, R34, R36): the reachable peak is the floor of the
square root of A times D; the profile time at a peak w is D over w plus w over A, in ms rounded up, and does not rise
with the speed; the synchronized speed of a group time is the smallest that arrives in it. What a servo step commands
is, phase by phase, the figure of the rules and stays on its course (R17, R43, R44, R63): a profile accelerates,
cruises, decelerates and stands on its target, never passes its distance or its peak and never turns back; a
controlled stop decelerates at its A, runs no further than its stopping distance and never past a soft limit, where
it ends; within a segment the position is interpolated from its start to its end, rounded toward the start, at the
segment's own velocity, rounded toward zero; a jog follows its ramp between the soft limits, and stays at the limit
it reaches or starts at (R111). -/
def Obligations.MotionsKeepTheirCourse : Prop :=
  (∀ a d v tg : Nat, 0 < a → 0 < d → 0 < v →
    reach a d = Nat.sqrt (a * d)
    ∧ (let w := min v (Nat.sqrt (a * d))
       profileTime a d v = (1000 * (d * a + w * w) + w * a - 1) / (w * a))
    ∧ (∀ u, v ≤ u → profileTime a d u ≤ profileTime a d v)
    ∧ (profileTime a d v ≤ tg → 1 ≤ slowest a d v tg ∧ slowest a d v tg ≤ v
      ∧ profileTime a d (slowest a d v tg) ≤ tg
      ∧ ∀ u, 1 ≤ u → u < slowest a d v tg → tg < profileTime a d u))
  ∧ (∀ d a v t u : Nat, 0 < a → 0 < d → 0 < v →
    let w := peakAt a d v
    (trapezoid d w a t).1 ≤ d ∧ (trapezoid d w a t).2 ≤ w
    ∧ (t ≤ u → (trapezoid d w a t).1 ≤ (trapezoid d w a u).1)
    ∧ (profileTime a d v ≤ t → trapezoid d w a t = (d, 0))
    ∧ (a * t ≤ 1000 * w → trapezoid d w a t = (a * t ^ 2 / 2000000, a * t / 1000))
    ∧ (1000 * w < a * t → w * t ≤ 1000 * d →
      trapezoid d w a t = ((2 * a * w * t - 1000 * w ^ 2) / (2000 * a), w))
    ∧ (1000 * d < w * t → w * a * t < 1000 * (d * a + w ^ 2) →
      let q := 1000 * (d * a + w ^ 2) - w * a * t
      trapezoid d w a t =
        (d - (q ^ 2 + 2000000 * w ^ 2 * a - 1) / (2000000 * w ^ 2 * a), q / (1000 * w)))
    ∧ (1000 * (d * a + w ^ 2) ≤ w * a * t → trapezoid d w a t = (d, 0)))
  ∧ (∀ (p : Profile) (now : Epoch),
    let sign (n : Nat) : Int := if p.up = true then n else -n
    let m := trapezoid (p.target - p.position).natAbs p.peak p.accel (now - p.start).toNat
    p.eval now = (p.position + sign m.1, sign m.2))
  ∧ (∀ (r : StopRecord) (t u : Nat), 0 < r.accel →
    (r.motion t).1 ≤ r.velocity.natAbs * r.velocity.natAbs / (2 * r.accel)
    ∧ (r.motion t).2 ≤ r.velocity.natAbs ∧ (t ≤ u → (r.motion t).1 ≤ (r.motion u).1)
    ∧ r.duration = (1000 * r.velocity.natAbs + r.accel - 1) / r.accel
    ∧ (t < r.duration → r.motion t =
      ((2000 * r.velocity.natAbs * t - r.accel * t ^ 2) / 2000000, r.velocity.natAbs - r.accel * t / 1000))
    ∧ (r.duration ≤ t →
      r.motion t = (r.velocity.natAbs * r.velocity.natAbs / (2 * r.accel), 0)))
  ∧ (∀ (r : StopRecord) (x : AxisRecord) (now : Epoch), x.softLow ≤ x.softHigh →
    let sign (n : Nat) : Int := if 0 ≤ r.velocity then n else -n
    let m := r.motion (now - r.start).toNat
    let place := r.position + sign m.1
    x.softLow ≤ (r.eval x now).1 ∧ (r.eval x now).1 ≤ x.softHigh
    ∧ (x.softLow ≤ place → place ≤ x.softHigh → r.eval x now = (place, sign m.2))
    ∧ (x.softHigh < place → r.eval x now = (x.softHigh, 0))
    ∧ (place < x.softLow → r.eval x now = (x.softLow, 0)))
  ∧ (∀ (x : AxisRecord) (d : Direction) (speed : Nat) (r : JogRamp) (here : Mdeg) (now : Epoch),
    let t := (now - r.start).toNat
    let sign (n : Nat) : Int := if d = .plus then n else -n
    let limit := if d = .plus then x.softHigh else x.softLow
    let ramp : Mdeg × Mdeg :=
      if r.accel * t < 1000 * speed then
        (r.position + sign (r.accel * t ^ 2 / 2000000), sign (r.accel * t / 1000))
      else (r.position + sign ((2 * r.accel * speed * t - 1000 * speed ^ 2) / (2000 * r.accel)), sign speed)
    let m := jogEval x d speed r here now
    (r.atLimit = true → m = (here, 0, true))
    ∧ (r.atLimit = false → r.position = limit → m = (limit, 0, true))
    ∧ (r.atLimit = false → r.position ≠ limit → x.softLow ≤ x.softHigh →
      (x.softLow ≤ ramp.1 → ramp.1 ≤ x.softHigh → m = (ramp.1, ramp.2, false))
      ∧ (x.softHigh < ramp.1 → m = (x.softHigh, 0, true)) ∧ (ramp.1 < x.softLow → m = (x.softLow, 0, true))))
  ∧ ∀ (g : Segment) (ax : AxisName) (now : Epoch), 0 < g.duration →
    let delta := g.endPos.get ax - g.startPos.get ax
    let sign (n : Int) : Int := if 0 ≤ delta then n else -n
    (g.start ≤ now → now ≤ g.start + (g.duration : Int) →
      (g.eval ax now).1 = g.startPos.get ax + sign ((delta.natAbs : Int) * (now - g.start) / g.duration))
    ∧ (g.eval ax now).2 = sign (1000 * (delta.natAbs : Int) / g.duration)
    ∧ (now ≤ g.start → (g.eval ax now).1 = g.startPos.get ax)
    ∧ (g.finish ≤ now → (g.eval ax now).1 = g.endPos.get ax)
    ∧ ((g.eval ax now).1 - g.startPos.get ax).natAbs ≤ (g.delta ax).natAbs

/-- The plan of a group (R38 to R40): it succeeds at the first derate step, 0 to 30, whose time is within
600 s and whose demand the potential holds; the group time is that step's, a multiple of 100 ms, and every
member axis arrives in it at its slowest speed and demands its hold figure and, where it moves, its coefficient times
its peak, in thousandths rounded up (R36, R37). A plan refused for power has no such step, and names the least demand
of the steps; one refused for length is above 600 s at once, and names the first member axis, by antenna and AZ
before EL, whose Tmin set it (R40). -/
def Obligations.PlansTakeTheFirstFittingStep : Prop :=
  ∀ (record : AxisId → AxisRecord) (ms : List Member) (potential : Int),
    (∀ m ∈ ms, ∀ ax, let p := m.plans.get ax
      0 < p.distance → 0 < p.v ∧ 0 < p.a ∧ p.tmin = some (profileTime p.a p.distance p.v)) →
    match planGroup record ms potential with
    | .success tg0 k tg demand planned =>
      tg0 = roundUp100 (greatestTmin ms) ∧ k ≤ 30 ∧ tg = stepTime tg0 k ∧ tg % 100 = 0 ∧ tg ≤ 600000 ∧ tg0 ≤ tg
      ∧ planned = planAgainst record ms tg ∧ demand = demandOf planned ∧ (demand : Int) ≤ potential
      ∧ (∀ m ∈ planned, ∀ ax, let p := m.plans.get ax
        let r := record ⟨m.ant, ax⟩
        p.time ≤ tg
        ∧ (p.distance = 0 → p.vstar = none ∧ p.peak = none ∧ p.time = 0 ∧ p.demand = r.hold)
        ∧ (0 < p.distance → ∃ v w, p.vstar = some v ∧ p.peak = some w ∧ 1 ≤ v ∧ v ≤ p.v
          ∧ p.time = profileTime p.a p.distance v
          ∧ (∀ u, 1 ≤ u → u < v → tg < profileTime p.a p.distance u)
          ∧ w = min v (Nat.sqrt (p.a * p.distance))
          ∧ p.demand = r.hold + (r.coeff * w + 999) / 1000))
      ∧ demand = (planned.map fun m => m.plans.az.demand + m.plans.el.demand).sum
      ∧ ∀ j, j < k → potential < demandOf (planAgainst record ms (stepTime tg0 j))
    | .tooLong tg0 axis => 600000 < tg0 ∧ tg0 = roundUp100 (greatestTmin ms)
      ∧ ((ms.map Member.ant).Nodup → ∃ i, axis = some i
        ∧ (∃ m ∈ ms, m.ant = i.ant ∧ (m.plans.get i.ax).tmin = some (greatestTmin ms))
        ∧ ∀ m ∈ ms, ∀ ax, (m.plans.get ax).tmin = some (greatestTmin ms) →
          i.ant.num < m.ant.num ∨ i.ant = m.ant ∧ (i.ax = .az ∨ ax = .el))
    | .budget tg0 best p => p = potential ∧ tg0 = roundUp100 (greatestTmin ms)
      ∧ (∀ j, j ≤ 30 → stepTime tg0 j ≤ 600000 →
        potential < demandOf (planAgainst record ms (stepTime tg0 j))
        ∧ best ≤ demandOf (planAgainst record ms (stepTime tg0 j)))
      ∧ ∃ k, k ≤ 30 ∧ stepTime tg0 k ≤ 600000 ∧ best = demandOf (planAgainst record ms (stepTime tg0 k))

/-! ### Tracking (chapter 3) -/

/-- A taken BURST_OPEN (R51) opens the channel for its antenna with nothing received, the CRC at its start and
the chain tail at the anchor or at the queue's last segment, clears the termination record, and answers the
free slots; it changes nothing else but the link. -/
def Obligations.BurstOpensOnTheChannel : Prop :=
  ∀ (s : State) (tag : Byte) (a : Ant) (anchor : Option (PerAxis Mdeg)),
    let c := Instr.burstOpen tag a.num anchor
    s.admits c = true → ∃ t tail, exec c s = .next t
      ∧ t.answers c .ok (.free (64 - (s.track a).segments.length)) = true
      ∧ t.burst = { ant := some a, tail := some tail, received := 0, crc := 0xFFFFFFFF, staged := 0,
                    firstError := none, lastFrame := some s.now, termination := none }
      ∧ (∀ p, (s.track a).live = [] → anchor = some p → tail.end_ = none ∧ tail.pos = p)
      ∧ (∀ g, (s.track a).live.getLast? = some g →
          tail.end_ = some (g.start + g.duration) ∧ tail.pos = g.endPos ∧ tail.last = g.last)
      ∧ t.tracks = s.tracks ∧ t.ants = s.ants ∧ t.permits = s.permits

/-- BURST_DATA on an open channel (R52 to R56) takes its records in order: each is indexed, counted and added to
the CRC; the queue keeps its segments and gains STAGED ones at its tail, while no first error stands: each record
that passes its checks behind the one before it, up to the first that fails, which becomes the first error with its
index and the cause of the first check it failed (R55); a first error that stands stays as it is. PAUSED answers
where fewer than 8 slots are free, and is noted; an event that then frees slots of the queue clears the note and sets
TRACK once 24 are free (R56). A frame with a malformed segment, with none or with more than 8, is refused
RANGE with no effect (R52, R209). A burst frame with no channel open (R57 to R59) is answered TERMINATED with the
reason of the termination record, which it clears, or is refused BAD_STATE where there is none; it has no other
effect. That a frame of no segment, or of more than 8, whose length fits its count is answered so too is the
model's choice (log 43). -/
def Obligations.BurstDataStagesInOrder : Prop :=
  (∀ (s : State) (tag : Byte) (body : List Byte) (a : Ant),
    s.takes .operations .burstData tag (fun b => decide (b = body)) → s.burst.ant = some a →
    let rs := burstRecords body
    ((rs = [] ∨ 8 < rs.length ∨ ∃ r ∈ rs, (segmentOf r).formed = false) →
      ∃ t, exec (.burstData tag body) s = .next t ∧ t.replied .operations .burstData tag .range .empty
        ∧ t.burst = s.burst ∧ t.tracks = s.tracks)
    ∧ (bodyLengthFits .burstData body = true → (∀ r ∈ rs, (segmentOf r).formed = true) → 1 ≤ rs.length → rs.length ≤ 8 →
    ∃ t more, exec (.burstData tag body) s = .next t
      ∧ (t.track a).segments = (s.track a).segments ++ more
      ∧ (∀ g ∈ more, g.state = .staged) ∧ more.length ≤ rs.length
      ∧ t.burst.ant = some a ∧ t.burst.lastFrame = some s.now
      ∧ t.burst.received = s.burst.received + rs.length
      ∧ t.burst.crc = crc32Run s.burst.crc body.tail
      ∧ t.burst.staged = s.burst.staged + more.length
      ∧ (∀ e, s.burst.firstError = some e → t.burst.firstError = some e ∧ more = [])
      ∧ (let behind (k : Nat) : State := s.modTrack a fun q =>
            { q with segments := q.segments ++ more.take k }
         let tail (k : Nat) : Option ChainTail :=
            if k = 0 then s.burst.tail else more[k - 1]?.map Segment.tail
         s.burst.firstError = none → s.burst.tail.isSome = true →
          (∀ k g, more[k]? = some g → ∃ r before, rs[k]? = some r ∧ tail k = some before
            ∧ (behind k).segmentFails a before (segmentOf r) = none ∧ g = before.stage (segmentOf r))
          ∧ (∀ r, rs[more.length]? = some r → ∃ before e, tail more.length = some before
            ∧ (behind more.length).segmentFails a before (segmentOf r) = some e
            ∧ t.burst.firstError = some (s.burst.received + more.length, e))
          ∧ (more.length = rs.length → t.burst.firstError = none))
      ∧ t.replied .operations .burstData tag
          (if 64 - (t.track a).segments.length < 8 then .paused else .ok)
          (.burst more.length t.burst.staged t.burst.received t.burst.firstError
            (64 - (t.track a).segments.length))
      ∧ (t.track a).run = (s.track a).run
      ∧ (t.track a).pauseReported =
          ((s.track a).pauseReported || decide (64 - (t.track a).segments.length < 8))))
  ∧ (∀ (s t : State) (c : Instr) (a : Ant) (tag : Byte) (count : Nat) (crc : BitVec 32),
    c ∈ [Instr.segmentComplete a, .burstClose tag count crc, .burstAbort tag, .burstTimeout, .queueLate a] →
    exec c s = .next t → (s.track a).pauseReported = true →
    (t.track a).segments.length < (s.track a).segments.length →
    if 24 ≤ 64 - (t.track a).segments.length then
      (t.track a).pauseReported = false ∧ t.flagged (antFlag .track a)
    else (t.track a).pauseReported = true)
  ∧ ∀ (s : State) (tag : Byte) (c : Instr) (k : Kind) (body : List Byte) (count : Nat) (crc : BitVec 32),
    (c, k) ∈ [(Instr.burstData tag body, Kind.burstData), (.burstClose tag count crc, .burstClose),
      (.burstAbort tag, .burstAbort)] →
    s.takes .operations k tag (fun b => if k = .burstData then decide (b = body) else bodyLengthFits k b) →
    s.burst.ant = none → (k = .burstData → bodyLengthFits .burstData body = true) →
    ∃ t, exec c s = .next t ∧ t.burst = { s.burst with termination := none }
      ∧ t.replied .operations k tag
          (if s.burst.termination.isSome then .terminated else .badState)
          (match s.burst.termination with | some (_, r) => .terminated r | none => .empty)
      ∧ ∀ a, (t.track a).plain = (s.track a).plain

/-- A segment passes its checks exactly when it follows the chain, ends within both axes' soft limits, needs no
more than the wind-derated speed and the ice-derated acceleration across the joint, and to a stand where it is
LAST, and a slot is free (R52 to R54). The cause of a failure is that of the first check failed, in the order
contiguity, limits, speed, acceleration, slot (R52). The speed is Vmax, halved in STRONG and STOW; the EL
acceleration is Amax, three quarters of it in LIGHT ice and half of it in HEAVY; neither is below 1 (R31). The
activation check repeats limits and speed against the records in force (R62), and the capture check allows 200 mdeg
(R61). -/
def Obligations.SegmentChecksAreTheInequalities : Prop :=
  ∀ (s : State) (a : Ant) (tail : ChainTail) (r : SegmentRecord) (g : Segment),
    let v (i : AxisId) : Nat := let x := (s.axis i).record.vmax
      if s.wind.cls = .strong ∨ s.wind.cls = .stow then max 1 (x / 2) else x
    let acc (i : AxisId) : Nat := let x := (s.axis i).record.amax
      if i.ax = .az then x else match s.iceClass a with
        | .none => x | .light => max 1 (3 * x / 4) | .heavy => max 1 (x / 2)
    let d := r.duration
    let delta (ax : AxisName) : Int := r.endOf ax - tail.pos.get ax
    let prev (ax : AxisName) : Int × Nat := if tail.end_ = none then (0, d) else tail.prev.get ax
    let contiguous : Prop := (tail.end_ = none → s.now + 100 < r.start)
      ∧ ∀ e, tail.end_ = some e → tail.last = false ∧ (r.start : Int) = e
    let within : Prop := ∀ ax, let x := (s.axis ⟨a, ax⟩).record
      x.softLow ≤ r.endOf ax ∧ r.endOf ax ≤ x.softHigh
    let slow : Prop := ∀ ax, (delta ax).natAbs * 1000 ≤ v ⟨a, ax⟩ * d
    let gentle : Prop := ∀ ax,
      (delta ax * (prev ax).2 - (prev ax).1 * d).natAbs * 2000000
        ≤ acc ⟨a, ax⟩ * (d + (prev ax).2) * d * (prev ax).2
      ∧ (r.last = true → (delta ax).natAbs * 1000000 ≤ acc ⟨a, ax⟩ * (d * d))
    let room : Prop := (s.track a).segments.length < 64
    (s.segmentFails a tail r = none ↔ contiguous ∧ within ∧ slow ∧ gentle ∧ room)
    ∧ (s.segmentFails a tail r = some .contiguity ↔ ¬contiguous)
    ∧ (s.segmentFails a tail r = some .limit ↔ contiguous ∧ ¬within)
    ∧ (s.segmentFails a tail r = some .speed ↔ contiguous ∧ within ∧ ¬slow)
    ∧ (s.segmentFails a tail r = some .accel ↔ contiguous ∧ within ∧ slow ∧ ¬gentle)
    ∧ (s.segmentFails a tail r = some .full ↔ contiguous ∧ within ∧ slow ∧ gentle ∧ ¬room)
    ∧ (s.activates a g = true ↔ ∀ ax, let x := (s.axis ⟨a, ax⟩).record
        x.softLow ≤ g.endPos.get ax ∧ g.endPos.get ax ≤ x.softHigh
        ∧ (g.endPos.get ax - g.startPos.get ax).natAbs * 1000 ≤ x.vmax * g.duration)
    ∧ (s.captures a g = true ↔
        ∀ ax, ((s.axis ⟨a, ax⟩).position - g.startPos.get ax).natAbs ≤ 200)

/-- BURST_CLOSE with a burst open (R57) is decided in order: a first error, the count, the CRC, and then the
commit; only a commit keeps the STAGED segments, as QUEUED ones, and begins an IDLE queue WAITING or, with its
start 2 s away or less, PREPARING. BURST_ABORT discards an open burst, with the received count in its OK (R58);
with none open it is refused BAD_STATE, or answered TERMINATED, which clears the termination record (R59). In
every case the channel closes; that it has no chain tail then, and that its staged count is 0 after a BURST_ABORT
too, are the model's choices (logs 28 and 36). -/
def Obligations.BurstsCloseAndAbortInOrder : Prop :=
  (∀ (s : State) (tag : Byte) (count : Nat) (crc : BitVec 32) (a : Ant),
    s.takes .operations .burstClose tag → s.burst.ant = some a →
    ∃ t, exec (.burstClose tag count crc) s = .next t ∧ t.burst.ant = none ∧ t.burst.staged = 0
      ∧ t.burst.lastFrame = none
      ∧ (let good := s.burst.firstError = none ∧ count = s.burst.received
            ∧ crc = crc32Value s.burst.crc
         (¬good → (t.track a).live = (s.track a).live ∧ (t.track a).stagedSegments = []
            ∧ (t.track a).run = (s.track a).run
            ∧ match s.burst.firstError with
              | some (n, .full) => t.replied .operations .burstClose tag .full (.segError n .full)
              | some (n, e) => t.replied .operations .burstClose tag .range (.segError n e)
              | none => if count ≠ s.burst.received then
                  t.replied .operations .burstClose tag .count (.count s.burst.received)
                else t.replied .operations .burstClose tag .crc .empty)
         ∧ (good → t.replied .operations .burstClose tag .ok (.count (s.track a).stagedSegments.length)
            ∧ let queued := (s.track a).segments.map fun (g : Segment) =>
                if g.state = .staged then { g with state := .queued } else g
              ((s.track a).run ≠ .idle →
                (t.track a).segments = queued ∧ (t.track a).run = (s.track a).run)
              ∧ ∀ g, queued.head? = some g → (s.track a).run = .idle →
                (s.now + 2000 < g.start → (t.track a).segments = queued ∧ (t.track a).run = .waiting)
                ∧ (s.now < g.start → g.start ≤ s.now + 2000 → s.anyFaulted a = false →
                  (t.track a).segments = queued ∧ (t.track a).run = .preparing))))
  ∧ ∀ (s : State) (tag : Byte), s.takes .operations .burstAbort tag →
    ∃ t, exec (.burstAbort tag) s = .next t ∧ t.burst.ant = none
      ∧ (∀ a, s.burst.ant = some a →
          (t.track a).segments = (s.track a).segments.filter (fun g => decide (g.state ≠ .staged))
          ∧ t.burst = { s.burst with ant := none, tail := none, staged := 0, lastFrame := none }
          ∧ t.replied .operations .burstAbort tag .ok (.count s.burst.received))
      ∧ (s.burst.ant = none → t.tracks = s.tracks
          ∧ (s.burst.termination = none → t.replied .operations .burstAbort tag .badState .empty)
          ∧ ∀ a r, s.burst.termination = some (a, r) → t.burst.termination = none
              ∧ t.replied .operations .burstAbort tag .terminated (.terminated r))

/-- TRACK_CLEAR (R68) empties the queue and its record, answers with the record as it stood, sets TRACK and
stops an axis that was tracking. BURST_TIMEOUT (R59) terminates a burst 5 s after its last frame. A waiting
queue prepares 2 s before its first start, with the claim QUEUE on both axes, or halts on a FAULTED one; it
goes STARTING at the start and halts LATE 100 ms after it (R60, R61, R66). A queue whose run can start at S + 100
starts before it is judged late: at that millisecond QUEUE_RUN_START is queued right before QUEUE_LATE, which leaves
a queue that is no longer STARTING as it is; that the start comes first is the model's choice (log 28). -/
def Obligations.QueuesPrepareOrHalt : Prop :=
  ((∀ (s : State) (tag : Byte) (a : Ant), s.admits (.trackClear tag a.num) = true →
    ∃ t, exec (.trackClear tag a.num) s = .next t
      ∧ t.answers (.trackClear tag a.num) .ok (.track (s.track a).record) = true
      ∧ (t.track a).plain = .initial ∧ t.flagged (antFlag .track a)
      ∧ ∀ ax, (s.axis ⟨a, ax⟩).state = .tracking → (s.axis ⟨a, ax⟩).velocity ≠ 0 →
          (s.track a).empty = false → s.waits ⟨a, ax⟩ = false →
          (t.axis ⟨a, ax⟩).state = .stopping ∧ ∃ r, (t.axis ⟨a, ax⟩).stop = some r
            ∧ r.reason = .track ∧ r.target = .holding)
  ∧ ∀ (s : State) (a : Ant) (e : Epoch), s.powered = true → s.burst.ant = some a →
    s.burst.lastFrame = some e → e + 5000 ≤ s.now →
    ∃ t, exec .burstTimeout s = .next t ∧ t.burst.ant = none
      ∧ t.burst.termination = some (a, .timeout)
      ∧ (t.track a).segments = (s.track a).segments.filter (fun g => decide (g.state ≠ .staged))
      ∧ t.flagged (antFlag .track a))
  ∧ ∀ (s : State) (a : Ant) (e : Epoch), s.powered = true → (s.track a).firstStart = some e →
    ((s.track a).run = .waiting → e ≤ s.now + 2000 →
      ∃ t, exec (.queuePrepare a) s = .next t
        ∧ (s.anyFaulted a = false → (t.track a).run = .preparing
            ∧ (t.track a).segments = (s.track a).segments
            ∧ ∀ ax, (s.stowOf a).state = .unstowed → (s.axis ⟨a, ax⟩).state ≠ .braked →
                s.waits ⟨a, ax⟩ = false → (t.axis ⟨a, ax⟩).claims.queue = true)
        ∧ ∀ ax c, s.faultedAxis a = some (ax, c) → s.QueueHalted t a (.fault ax c))
    ∧ ((s.track a).run = .preparing → e ≤ s.now →
      ∃ t, exec (.queueStarting a) s = .next t ∧ t.track a = { s.track a with run := .starting })
    ∧ ((s.track a).run = .starting → e + 100 ≤ s.now →
      ∃ t, exec (.queueLate a) s = .next t ∧ s.QueueHalted t a .late)
    ∧ ((s.track a).run ≠ .starting → exec (.queueLate a) s = .next s)
    ∧ (s.pending = [] → (s.track a).run = .starting → s.advance.now = e + 100 →
      (s.advance.runStarts a).isSome = true →
      ∃ t before rest, step s = .next t ∧ t.pending = before ++ .queueRunStart a :: .queueLate a :: rest
        ∧ .queueLate a ∉ before)

/-- A run's start (R61): at the first moment within 100 ms of the first start at which both axes hold, it halts
CONFIG or CAPTURE where the segment fails its check, and else asks both raises; at a servo step at which both
stand it enters TRACKING on the segment, at once where the feed has the room and nothing waits. A segment that a
late start has passed completes at that step, and the axes join the one that stands (R63). That the row is both
of these moments is the model's choice (log 28). -/
def Obligations.RunsStartOnTheirSegment : Prop :=
  ∀ (s : State) (a : Ant) (g : Segment) (rest : List Segment), s.powered = true →
    s.runStarts a = some g → (s.track a).segments = g :: rest →
    ∃ t, exec (.queueRunStart a) s = .next t
      ∧ ((s.track a).raises = ⟨.none, .none⟩ → s.activates a g = false → s.QueueHalted t a .config)
      ∧ ((s.track a).raises = ⟨.none, .none⟩ → s.activates a g = true → s.captures a g = false →
          s.QueueHalted t a .capture)
      ∧ (let asked := (s.track a).raises = ⟨.none, .none⟩ ∧ s.activates a g = true ∧ s.captures a g = true
            ∧ s.scratch.freed = false ∧ s.feed.queue = [] ∧ s.feed.shed.classes = none
            ∧ ((s.trackingFigure ⟨a, .az⟩ - (s.axis ⟨a, .az⟩).record.hold : Nat) : Int)
              + (s.trackingFigure ⟨a, .el⟩ - (s.axis ⟨a, .el⟩).record.hold : Nat) ≤ s.freeRoom
         let servo := (s.now - s.pace.servo) % 10 = 0
         let enters := (s.track a).raises = ⟨.granted, .granted⟩ ∧ (∀ ax, s.waits ⟨a, ax⟩ = false) ∨ asked ∧ servo
         (asked → ¬servo → (s.stowOf a).state ≠ .stopping → (t.track a).raises = ⟨.granted, .granted⟩
            ∧ (t.track a).run = .starting ∧ (t.track a).segments = g :: rest ∧ ∀ ax, (t.axis ⟨a, ax⟩).state = .holding)
         ∧ (enters → s.now < g.finish →
            (t.track a).run = .running ∧ (t.track a).segments = { g with state := .active } :: rest
            ∧ t.flagged (antFlag .track a)
            ∧ ∀ ax, (t.axis ⟨a, ax⟩).state = .tracking ∧ (t.axis ⟨a, ax⟩).position = (g.eval ax s.now).1)
         ∧ ∀ n more, enters → g.finish ≤ s.now → g.last = false → rest = n :: more → n.state = .queued →
            s.now < n.finish → s.activates a n = true →
            (t.track a).run = .running ∧ (t.track a).segments = { n with state := .active } :: more
            ∧ (t.track a).done = min countTop ((s.track a).done + 1) ∧ t.flagged (antFlag .track a)
            ∧ ∀ ax, (t.axis ⟨a, ax⟩).state = .tracking ∧ (t.axis ⟨a, ax⟩).position = (n.eval ax s.now).1)

/-- A segment completed at a servo step leaves the queue and is counted (R63 to R65): after LAST both axes hold on
its end; a QUEUED one behind it becomes ACTIVE, or halts the queue CONFIG; with none behind it the run underruns and
each axis stops from the segment's end at its velocity. Off a servo step nothing happens. -/
def Obligations.SegmentsCompleteInTurn : Prop :=
  ∀ (s : State) (a : Ant), s.powered = true → (s.atServo = false → exec (.segmentComplete a) s = .next s)
    ∧ ∀ (g : Segment) (rest : List Segment), s.atServo = true →
    s.segmentDue a = some g → (s.track a).segments = g :: rest → (∀ h ∈ rest, h.state ≠ .active) →
    ∃ t, exec (.segmentComplete a) s = .next t
      ∧ (g.last = true → (t.track a).segments = rest ∧ (t.track a).run = .idle
          ∧ (t.track a).done = min countTop ((s.track a).done + 1) ∧ t.flagged (antFlag .track a)
          ∧ ∀ ax, (s.axis ⟨a, ax⟩).state = .tracking →
            (t.axis ⟨a, ax⟩).position = g.endPos.get ax
            ∧ (s.waits ⟨a, ax⟩ = false → (s.stowOf a).state ≠ .stopping →
              (t.axis ⟨a, ax⟩).state = .holding ∧ (t.axis ⟨a, ax⟩).velocity = 0))
      ∧ (∀ n more, g.last = false → rest = n :: more → n.state = .queued → s.now < n.finish →
          s.activates a n = true →
          (t.track a).segments = { n with state := .active } :: more
          ∧ (t.track a).run = (s.track a).run
          ∧ (t.track a).done = min countTop ((s.track a).done + 1)
          ∧ ∀ ax, (s.axis ⟨a, ax⟩).state = .tracking →
            (t.axis ⟨a, ax⟩).position = (n.eval ax s.now).1)
      ∧ (∀ n more, g.last = false → rest = n :: more → n.state = .queued → s.activates a n = false →
          (t.track a).run = .idle ∧ (t.track a).live = [] ∧ (t.track a).haltReason = some .config
          ∧ (t.track a).firstAbandoned = some n.start)
      ∧ (g.last = false → (∀ h ∈ rest, h.state = .staged) →
          (t.track a).segments = rest ∧ (t.track a).run = .idle
          ∧ (t.track a).underruns = min countTop ((s.track a).underruns + 1)
          ∧ t.flagged (antFlag .track a)
          ∧ ∀ ax, (s.axis ⟨a, ax⟩).state = .tracking →
            (t.axis ⟨a, ax⟩).position = g.endPos.get ax
            ∧ ((g.eval ax g.finish).2 ≠ 0 → s.waits ⟨a, ax⟩ = false →
              (t.axis ⟨a, ax⟩).state = .stopping ∧ ∃ r, (t.axis ⟨a, ax⟩).stop = some r
                ∧ r.reason = .underrun ∧ r.target = .holding
                ∧ r.velocity = (g.eval ax g.finish).2 ∧ r.position = g.endPos.get ax))

/-! ### Joint slew groups (chapter 4) -/

/-- GROUP_PLAN writes a PLANNED record with the Profile Engine's figures for the antennas and targets of the request,
in its order, each member axis's course running from its commanded position to its target, or to where it stands
(R71, R73, R75); GROUP_CANCEL empties a slot, and halts a RUNNING group with reason CANCEL (R89); GROUP_READ answers
with a part of the record's bytes and changes nothing (R90). That an absent epoch of the record reads 0 is the
model's choice (log 51). -/
def Obligations.GroupsArePlannedAndCancelled : Prop :=
  ∀ (s : State) (tag : Byte) (g : GroupId),
    (∀ (members : List MemberArg) (ms : List Proposed), proposedMembers members = some ms →
      s.admits (.groupPlan tag g.num members) = true →
      ∃ t tg0 k tg demand planned, exec (.groupPlan tag g.num members) s = .next t
        ∧ t.answers (.groupPlan tag g.num members) .ok (.plan tg0 k tg demand planned) = true
        ∧ planGroup (fun i => (s.axis i).record) (s.courses ms) (s.potential (ms.flatMap fun m => m.ant.axes))
            = .success tg0 k tg demand planned
        ∧ t.groups.get g = { state := .planned, members := planned, tg0 := tg0, step := k, tg := tg,
                             demand := demand, held := false, start := none, settleTimer := none,
                             haltReason := none, causing := none, completion := none }
        ∧ planned.map Member.ant = ms.map Proposed.ant
        ∧ planned.map (fun m => (m.ant.num, m.targets.az, m.targets.el))
            = members.map (fun m => (m.ant, m.azTarget, m.elTarget))
        ∧ (∀ m ∈ planned, ∀ ax, (m.plans.get ax).start = (s.axis ⟨m.ant, ax⟩).position
            ∧ (m.plans.get ax).target = (m.targets.get ax).getD (s.axis ⟨m.ant, ax⟩).position)
        ∧ ∀ h, h ≠ g → t.groups.get h = s.groups.get h)
    ∧ (s.admits (.groupCancel tag g.num) = true →
      ∃ t, exec (.groupCancel tag g.num) s = .next t
        ∧ t.answers (.groupCancel tag g.num) .ok .empty = true
        ∧ ((s.groups.get g).state ≠ .running → t.groups.get g = .initial)
        ∧ ((s.groups.get g).state = .running →
            (t.groups.get g).plain = { s.groups.get g with
              state := .halted, haltReason := some .cancel, causing := none, completion := some s.now,
              settleTimer := none }.plain
            ∧ ∀ i ∈ (s.groups.get g).axes, (s.axis i).state = .slewing → (s.axis i).velocity ≠ 0 →
              s.waits i = false → (t.axis i).state = .stopping
                ∧ ∃ r, (t.axis i).stop = some r ∧ r.reason = .group ∧ r.target = .holding))
    ∧ ∀ part, s.admits (.groupRead tag g.num part) = true →
      let data := (s.groups.get g).bytes g s.now s.axis
      ∃ t, exec (.groupRead tag g.num part) s = .next t ∧ t.groups = s.groups
        ∧ t.answers (.groupRead tag g.num part) .ok
            (.bytes part (partCount data.length) (partOf data part)) = true

/-- GROUP_ARM holds the group's grant for its start (R77, R78): a PLANNED group becomes ARMED with the start epoch,
which the reply carries with the grant, and each member antenna's bus is enabled. The group's own events (R80 to
R84): the start, at a servo step alone, runs every moving member axis on its planned profile from it; 2 s without a
start halt the group NOT_READY and 10 s past its time SETTLE, each naming its cause; 1 s settled completes it and
lets its grant go. That the settle timer stops at DONE, and that no causing member is named where none is late, are
the model's choices (logs 30 and 40). -/
def Obligations.GroupsArmStartAndFinish : Prop :=
  (∀ (s : State) (tag : Byte) (g : GroupId) (start : Nat), s.admits (.groupArm tag g.num start) = true →
    ∃ t, exec (.groupArm tag g.num start) s = .next t
      ∧ t.answers (.groupArm tag g.num start) .ok (.armed start (s.groups.get g).demand) = true
      ∧ t.groups.get g = { s.groups.get g with state := .armed, held := true, start := some (start : Int) }
      ∧ ∀ a ∈ (s.groups.get g).ants, s.anyFaulted a = false →
          (t.ants.get a).bus ≠ .off ∧ (t.ants.get a).enable = true)
  ∧ ∀ (s : State) (g : GroupId), s.powered = true →
    let r := s.groups.get g
    (s.atServo = false → exec (.groupStart g) s = .next s)
    ∧ (s.atServo = true → s.groupStarts g = true →
      ∃ t, exec (.groupStart g) s = .next t
        ∧ t.groups.get g = { r with state := .running, start := some s.now }
        ∧ (r.ants.Nodup → ∀ i p, (i, p) ∈ r.plans → p.moves = true → s.waits i = false →
            (t.axis i).state = .slewing
            ∧ (t.axis i).profile = some ⟨s.now, p.start, p.target, p.peak.getD 0, p.a, p.up, p.time⟩))
    ∧ (∀ e, r.state = .armed → r.start = some e → e + 2000 ≤ s.now →
      ∃ t, exec (.groupStartGraceExpiry g) s = .next t
        ∧ t.groups.get g = { r with
            state := .halted, haltReason := some .notReady, completion := some s.now, settleTimer := none,
            held := false, causing := (s.firstNotReady r).map fun i => (i.ant, some i.ax) })
    ∧ (∀ e, r.state = .running → r.settleTimer = some e → e + 1000 ≤ s.now →
      ∃ t, exec (.groupDone g) s = .next t
        ∧ t.groups.get g = { r with
            state := .done, held := false, completion := some s.now, settleTimer := none })
    ∧ ∀ e, r.state = .running → r.start = some e → e + (r.tg + 10000) ≤ s.now →
      ∃ t, exec (.groupSettleLimit g) s = .next t
        ∧ (t.groups.get g).plain = { r with
            state := .halted, haltReason := some .settle, completion := some s.now, settleTimer := none,
            causing := (s.firstUnsettled r).map fun a => (a, none) }.plain

/-! ### Lockouts and local control (chapter 5) -/

/-- A placement (R92 to R95) merges into the entry of its key, or takes the lowest empty slot and the next
creation number at the end of the list; its slot's write is owed where the entry changed. New cover, every axis
the entry covers and did not cover before, whatever other entries cover, lets go of the antenna's queue, burst
and group with reason LOCKOUT, brakes its holding axes, stops a moving one toward BRAKED, deepens the target of a stop
under way, ends a jog it covers, one whose record has failed too by the model's choice (log 53), and a HEAT cover
takes the zones to level 0. The reply shows the entry EFFECTIVE where every axis it covers is OFF, BRAKED or FAULTED
(R96).
The Stow Controller hears of the cover (R126): an antenna that waits for a wave or drives in one is BLOCKED and out of
the wave, whose other members keep their figures; one that warms or inserts its pin goes on with it; both axes of either
brake, under BLOCKED stops where the cover is not theirs, and its grant is released once they are at rest; a STOPPING
antenna is BLOCKED at rest (R125), and no other stow state changes.
Where a BLOCKED stop or a GROUP stop of the antenna's own group reaches the same axis, the reason LOCKOUT, which comes
first, is the model's choice (log 18); a STATION entry leaves the reason of a group member open here. -/
def Obligations.PlacementsLockAtOnce : Prop :=
  ∀ (s : State) (tag : Byte) (c : Instr) (p : Placement),
    ((∃ n cover reason, c = .holdPlace tag n cover reason ∧ operationsPlacement n cover reason = some p)
      ∨ ∃ sender cover reason, c = .lockPlace tag sender cover reason
          ∧ lockPlacement sender cover reason = some p) →
    s.admits c = true →
    ∃ t n e merged effective, exec c s = .next t
      ∧ t.answers c .ok (.placed n e.cover effective merged) = true
      ∧ ((∀ i, e.coversAxis i = true → (s.axis i).state = .braked → (s.axis i).claims.any = false) →
          (∀ a, (s.stowOf a).state = .waiting → s.covered a = false) →
          (effective = true ↔ ∀ i, e.coversAxis i = true →
            (t.axis i).state = .off ∨ (t.axis i).state = .braked ∨ (t.axis i).state.isFaulted = true))
      ∧ t.locks.slot n = some e
      ∧ (e.scope = p.scope ∧ e.cls = p.cls ∧ e.holder = p.holder ∧ e.badge = p.badge)
      ∧ (merged = true → s.locks.findKey p = some n ∧ t.locks.order = s.locks.order
          ∧ ∃ old, s.locks.slot n = some old ∧ e = { old with
              cover := ⟨old.cover.az || p.cover.az, old.cover.el || p.cover.el,
                        old.cover.heat || p.cover.heat⟩
              reason := if p.reason.isSome then p.reason else old.reason })
      ∧ (merged = false → s.locks.findKey p = none ∧ s.locks.slot n = none
          ∧ (∀ m, m < n → (s.locks.slot m).isSome = true)
          ∧ e.cover = p.cover ∧ e.reason = p.reason ∧ e.placed = (s.now / 1000).toNat
          ∧ e.creation = s.store.nextCreation ∧ t.store.nextCreation = s.store.nextCreation + 1
          ∧ t.locks.order = s.locks.order ++ [n])
      ∧ (s.locks.slot n ≠ some e → t.store.owes (.lockout n))
      ∧ (∀ m, m ≠ n → t.locks.slot m = s.locks.slot m)
      ∧ (∀ i : AxisId, e.coversAxis i = true →
          (∀ old, merged = true → s.locks.slot n = some old → old.coversAxis i = false) →
          s.LetGo t i.ant .lockout .lockout
          ∧ (∀ j, s.jog i.ant = some j → j.axis = i.ax → t.jog i.ant = none)
          ∧ ((s.axis i).ready = true → (t.axis i).state = .braking
              ∧ (t.axis i).pendingStop = some ⟨some .lockout, .braked⟩)
          ∧ ((s.axis i).state = .slewing ∨ (s.axis i).state = .tracking ∨ (s.axis i).state = .jogging →
            (t.axis i).claims.any = false
            ∧ ((s.axis i).velocity ≠ 0 → (t.axis i).state = .stopping ∧ ∃ r, (t.axis i).stop = some r
              ∧ r = ⟨r.reason, .braked, s.limitA i, (s.axis i).velocity, (s.axis i).position, s.now⟩
              ∧ (p.scope.isSome = true ∨ s.bound i.ant = false → r.reason = .lockout))
            ∧ ((s.axis i).velocity = 0 → (t.axis i).state = .braking
              ∧ (t.axis i).pendingStop = some ⟨some .lockout, .braked⟩))
          ∧ (∀ r, (s.axis i).state = .stopping → (s.axis i).stop = some r → (t.axis i).state = .stopping
            ∧ (t.axis i).stop = some { r with target := if r.target = .off then .off else .braked })
          ∧ s.StowCovered t i.ant (fun j => e.coversAxis j = true
              ∧ ∀ old, merged = true → s.locks.slot n = some old → old.coversAxis j = false)
          ∧ ∀ w, p.scope = some i.ant → s.stow.wave = some w → (s.stowOf i.ant).state = .waiting →
              (s.stowOf i.ant).member = true → (∃ m ∈ w.members, m.ant ≠ i.ant) →
              t.stow.wave = some { w with members := w.members.filter fun m => decide (m.ant ≠ i.ant) })
      ∧ (p.cover.heat = true → ∀ z : ZoneId, e.reaches z.ant = true → (t.zone z).effective = 0)

/-- A removal (R98, R99) empties its slot, takes it off the list, owes its write and answers with the entry as it
stood, with its slot, its state and its persisted mark (R92); FORCE_REMOVE starts the force-removal timer of each
antenna the entry reached. Under a stow demand an antenna that was BLOCKED and is covered no more waits for its
wave, or is DRIVE_FAILED where an axis is FAULTED. -/
def Obligations.RemovalsFreeTheSlot : Prop :=
  ∀ (s : State) (tag : Byte) (n : Nat) (c : Instr),
    ((∃ a, c = .holdRemove tag n a) ∨ (∃ sender, c = .lockRemove tag sender n)
      ∨ ∃ target, c = .forceRemove tag n target) →
    s.admits c = true →
    ∃ t e, exec c s = .next t ∧ s.locks.slot n = some e ∧ t.locks.slot n = none
      ∧ t.answers c .ok (.removed ⟨n, e, s.entryEffective e, s.store.mark (.lockout n)⟩) = true
      ∧ t.locks.order = s.locks.order.filter (fun m => decide (m ≠ n))
      ∧ (∀ m, m ≠ n → t.locks.slot m = s.locks.slot m) ∧ t.store.owes (.lockout n)
      ∧ ∀ a, e.reaches a = true →
        ((∃ target, c = .forceRemove tag n target) → (t.locks.horns.get a).forceTimer = some s.now)
        ∧ (t.wind.active = true → (s.stowOf a).state = .blocked → t.covered a = false →
            (t.stowOf a).state = if s.anyFaulted a then .driveFailed else .waiting)

/-- Local control (R103 to R107): a granted LOCAL_CLAIM makes the antenna LOCAL since now and halts its queue
and burst with reason LOCAL; a claim of a LOCAL antenna keeps it; LOCAL_RELEASE and 10 s of a silent pendant
make it REMOTE again, end its jog and stop a jogging axis; and the pad horn plays WARNING over FORCE_REMOVAL
over silence as its timers run out. -/
def Obligations.LocalControlComesAndGoes : Prop :=
  ∀ (s : State) (tag : Byte) (n : Ant),
    (s.admits (.localClaim tag n) = true →
      ∃ t, exec (.localClaim tag n) s = .next t ∧ t.answers (.localClaim tag n) .ok .empty = true
        ∧ t.remote n = false
        ∧ (s.remote n = true → (t.locks.authority.get n).claimed = some s.now
            ∧ ((s.track n).empty = false → s.QueueHalted t n .local_)
            ∧ t.burst.ant ≠ some n ∧ (s.burst.ant = some n → t.burst.termination = some (n, .local_)))
        ∧ (s.remote n = false →
            (t.locks.authority.get n).claimed = (s.locks.authority.get n).claimed))
    ∧ (∀ c ∈ [Instr.localRelease tag n, .pendantSilenceExpiry n],
      s.admits (.localRelease tag n) = true ∧ c = .localRelease tag n
        ∨ s.powered = true ∧ s.remote n = false ∧ c = .pendantSilenceExpiry n
          ∧ (∃ e, (s.link (.pendant n)).silence = some e ∧ e + 10000 ≤ s.now) →
      ∃ t, exec c s = .next t ∧ t.remote n = true
        ∧ (c = .localRelease tag n → t.answers c .ok .empty = true)
        ∧ (s.remote n = false → t.jog n = none ∧ (t.locks.authority.get n).claimed = none
            ∧ ∀ j, s.jog n = some j → (s.axis ⟨n, j.axis⟩).state = .jogging →
              (s.axis ⟨n, j.axis⟩).velocity ≠ 0 → s.waits ⟨n, j.axis⟩ = false →
              (t.axis ⟨n, j.axis⟩).state = .stopping ∧ ∃ r, (t.axis ⟨n, j.axis⟩).stop = some r
                ∧ r.reason = .jogEnd ∧ r.target = .holding))
    ∧ (∀ e, s.powered = true → (s.locks.horns.get n).forceTimer = some e → e + 5000 ≤ s.now →
      ∃ t, exec (.forceRemovalTimerExpiry n) s = .next t
        ∧ (t.locks.horns.get n).forceTimer = none
        ∧ (t.locks.horns.get n).pattern =
            if (s.stowOf n).warningTimer.isSome then .warning else .silent)
    ∧ ∀ e, s.powered = true → (s.stowOf n).warningTimer = some e → e + 10000 ≤ s.now →
      ∃ t, exec (.warningTimerExpiry n) s = .next t ∧ (t.stowOf n).warningTimer = none
        ∧ (t.locks.horns.get n).pattern =
            if (s.locks.horns.get n).forceTimer.isSome then .forceRemoval else .silent

/-- A taken JOG (R109, R110) keeps the jog of its axis and direction alive from now, or starts one at the
speed asked, no more than 500 mdeg/s and the axis's Vmax, with the claim JOG; on a ready axis, with nothing
waiting and room on the feed, the axis jogs at once. The reply shows the jog's phase, its speed and the axis's
commanded position, and is ACCEPTED until the jog runs; a raise granted later in the event shows in the record
alone. 600 ms without a frame end the jog, and a jogging axis stops (R112). -/
def Obligations.JogsLiveWhileHeld : Prop :=
  ∀ (s : State) (tag : Byte) (n : Ant) (x : AxisName) (d : Direction) (speed : Int),
    let c := Instr.jog tag n (some x) (some d) speed
    let i : AxisId := ⟨n, x⟩
    let top := min 500 (s.axis i).record.vmax
    (s.admits c = true →
      ∃ t phase place used, exec c s = .next t
        ∧ t.answers c (if phase = .running then (if (top : Int) < speed then .clamped else .ok)
            else .accepted) (.jog phase used place (decide ((top : Int) < speed))) = true
        ∧ (∃ j, t.jog n = some j ∧ j.core = (x, d, used, s.now)
          ∧ (j.phase = phase ∨ phase = .raising ∧ j.phase = .running))
        ∧ place = (t.axis i).position
        ∧ (∀ j, s.jog n = some j → used = j.speed)
        ∧ (s.jog n = none → (used : Int) = min speed top
            ∧ ((s.axis i).state ≠ .braked → (s.stowOf n).state = .unstowed → s.waits i = false →
              (s.axis i).ready = false → (t.axis i).claims.jog = true)
            ∧ ((s.axis i).ready = true → s.ready n = true → s.feed.queue = [] →
              s.feed.shed.classes = none →
              ((s.jogFigure i - (s.axis i).record.hold : Nat) : Int) ≤ s.freeRoom →
              phase = .running ∧ (t.axis i).state = .jogging)))
    ∧ ∀ j, s.powered = true → s.jog n = some j → j.lastFrame + 600 ≤ s.now →
      ∃ t, exec (.jogDeadman n) s = .next t ∧ t.jog n = none
        ∧ ((s.axis ⟨n, j.axis⟩).state = .jogging → (s.axis ⟨n, j.axis⟩).velocity ≠ 0 →
          s.waits ⟨n, j.axis⟩ = false → (t.axis ⟨n, j.axis⟩).state = .stopping
            ∧ ∃ r, (t.axis ⟨n, j.axis⟩).stop = some r ∧ r.reason = .jogEnd ∧ r.target = .holding)

/-! ### Wind and stow (chapter 6) -/

/-- A wind sample (R115 to R117) counts each channel's run of equal readings and judges it RANGE, STUCK or
HEALTHY, forms the station sample from the healthy channels, or the STOW gust threshold where there is none,
and keeps the disagreement and degraded marks. The sample joins the window at its newest end and the oldest of
600 leaves; the gust is the greatest of the window's last three, or of all of fewer, and the mean is their sum
divided by their number, rounded down. After power-on the window is empty. That the rows of what a sample brings
about are that sample, and that STUCK is taken only at the sample that reaches 300, are the model's choices (logs
15 and 30). -/
def Obligations.WindSamplesJudgeTheChannels : Prop :=
  (∀ s : State, ∃ t, exec .powerOn s = .next t ∧ t.wind.window = [])
  ∧ ∀ (s : State) (r1 r2 : Int), s.powered = true →
    let run (c : Channel) (r : Int) : Nat := if c.reading = some r then c.run + 1 else 1
    let health (c o : Channel) (r q : Int) : Health :=
      if r < 0 ∨ 800 < r then .range
      else if run c r = 300 ∧ run o q < 300 ∨ c.health = .stuck ∧ run c r ≠ 1 then .stuck else .healthy
    ∃ t x, exec (.windSample r1 r2) s = .next t
      ∧ t.field = { s.field with anem1 := r1, anem2 := r2 }
      ∧ t.wind.ch1 = ⟨some r1, health s.wind.ch1 s.wind.ch2 r1 r2, run s.wind.ch1 r1⟩
      ∧ t.wind.ch2 = ⟨some r2, health s.wind.ch2 s.wind.ch1 r2 r1, run s.wind.ch2 r2⟩
      ∧ t.wind.window = (if 600 ≤ s.wind.window.length then s.wind.window.tail else s.wind.window) ++ [x]
      ∧ (let ok1 := t.wind.ch1.health = .healthy
         let ok2 := t.wind.ch2.health = .healthy
         x = (if ok1 ∧ ok2 then max r1 r2 else if ok1 then r1 else if ok2 then r2
           else max 50 (s.wind.record.stow.gust - 20 * iceSteps s.stationIce))
         ∧ t.wind.disagreeCount = (if ok1 ∧ ok2 ∧ 50 < (r1 - r2).natAbs then s.wind.disagreeCount + 1 else 0)
         ∧ (t.wind.disagreeMark = true ↔ t.wind.disagreeCount ≠ 0
            ∧ (s.wind.disagreeMark = true ∨ 30 ≤ t.wind.disagreeCount))
         ∧ (t.wind.degraded = true ↔ ¬ok1 ∧ ¬ok2))
      ∧ (∃ gust mean, t.wind.gust = some gust ∧ t.wind.mean = some mean
          ∧ (let last := t.wind.window.drop (t.wind.window.length - 3)
             gust ∈ last ∧ ∀ y ∈ last, y ≤ gust)
          ∧ mean * t.wind.window.length ≤ t.wind.window.sum
          ∧ t.wind.window.sum < (mean + 1) * t.wind.window.length)
      ∧ (∀ ch, s.becomesStuck ch r1 r2 = true → exec (.anemometerStuck ch r1 r2) s = .next t
          ∧ (t.wind.channel ch).health = .stuck)
      ∧ (s.becomesMarked r1 r2 = true → exec (.windDisagreementMark r1 r2) s = .next t
          ∧ t.wind.disagreeMark = true)
      ∧ (s.classRises r1 r2 = true → exec (.windClassRise r1 r2) s = .next t
          ∧ s.wind.cls.num < t.wind.cls.num)
      ∧ (s.classFalls r1 r2 = true → exec (.windClassFall r1 r2) s = .next t
          ∧ t.wind.cls.num < s.wind.cls.num)

/-- The class of a sample (R118 to R120): a class's condition holds where mean or gust reaches its thresholds,
each lowered by 20 for each step of station ice and never below 50, as formed at the sample; its rise count
counts such samples in a row. The class rises to the highest whose count has reached the filter; else, where its
own condition fails for the hold-down, it falls one step. -/
def Obligations.WindClassRisesAndFalls : Prop :=
  ∀ (s : State) (r1 r2 : Int), s.powered = true →
    ∃ t, exec (.windSample r1 r2) s = .next t ∧
      let w := s.wind
      let r := s.wind.record
      let low (x : Int) : Int := max 50 (x - 20 * iceSteps s.stationIce)
      let meets (p : Pair) : Prop := (∃ m, t.wind.mean = some m ∧ low p.mean ≤ m)
        ∨ ∃ g, t.wind.gust = some g ∧ low p.gust ≤ g
      let counts (p : Pair) (n m : Nat) : Prop :=
        (meets p → m = min 65535 (n + 1)) ∧ (¬meets p → m = 0)
      counts r.breezy w.riseBreezy t.wind.riseBreezy
      ∧ counts r.strong w.riseStrong t.wind.riseStrong ∧ counts r.stow w.riseStow t.wind.riseStow
      ∧ t.wind.inForce = ⟨⟨low r.breezy.mean, low r.breezy.gust⟩, ⟨low r.strong.mean, low r.strong.gust⟩,
          ⟨low r.stow.mean, low r.stow.gust⟩, s.stationIce⟩
      ∧ t.wind.record = r ∧ t.wind.safety = w.safety ∧ t.wind.silence = w.silence
      ∧ if w.cls.num < 3 ∧ r.filter ≤ t.wind.riseStow then t.wind.cls = .stow ∧ t.wind.fall = 0
        else if w.cls.num < 2 ∧ r.filter ≤ t.wind.riseStrong then t.wind.cls = .strong ∧ t.wind.fall = 0
        else if w.cls.num < 1 ∧ r.filter ≤ t.wind.riseBreezy then t.wind.cls = .breezy ∧ t.wind.fall = 0
        else if w.cls = .calm then t.wind.cls = .calm
        else
          let pair := match w.cls with | .stow => r.stow | .strong => r.strong | _ => r.breezy
          (meets pair → t.wind.cls = w.cls ∧ t.wind.fall = 0)
          ∧ (¬meets pair → w.fall + 1 < r.holdDown → t.wind.cls = w.cls ∧ t.wind.fall = w.fall + 1)
          ∧ (¬meets pair → r.holdDown ≤ w.fall + 1 →
              t.wind.cls.num + 1 = w.cls.num ∧ t.wind.fall = 0)

/-- Whatever command makes the stow demand active takes every antenna in that event (R121, R124): an UNSTOWED
one leaves UNSTOWED, its queue, burst and group are let go with reason STOW, its authority is REMOTE and its jog
ends; its moving axes stop toward HOLDING with reason STOW, or, where an entry covers AZ or EL, toward BRAKED with
reason BLOCKED; at rest it goes BLOCKED, DRIVE_FAILED or WAITING at once, where a BLOCKED or DRIVE_FAILED one goes by
the same rule; a withdrawing pin is inserted again. That a group's or a queue's own stop comes first on an axis is the
model's choice (log 18); so is that a JOGGING axis of a LOCAL antenna takes the Stow Controller's stop alone, not a
JOG_END stop of its own before it (log 39). An antenna that is STOPPING stays so while it moves, and in the event
in which it comes to rest goes BLOCKED where an entry covers AZ or EL of it, else DRIVE_FAILED where an axis is
FAULTED, else WAITING (R125); a fault taken on an axis, also on one FAULTED(BRAKE_SET) whose torque it removes
(R25), makes it DRIVE_FAILED at once (R127). A DRIVE_RESET that only names another cause takes no fault (R27). -/
def Obligations.DemandTakesEveryAntenna : Prop :=
  (∀ (c : Instr) (s t : State) (a : Ant), exec c s = .next t → c ≠ .powerOn →
    (s.stowOf a).state = .stopping → s.moving a = true →
    let failed := ∃ ax, (t.axis ⟨a, ax⟩).state.isFaulted = true
      ∧ ((s.axis ⟨a, ax⟩).state.isFaulted = false
        ∨ (s.axis ⟨a, ax⟩).state = .faulted .brakeSet ∧ (t.axis ⟨a, ax⟩).state ≠ .faulted .brakeSet
          ∧ ∀ tag n, c ≠ .driveReset tag n)
    (failed → (t.stowOf a).state = .driveFailed)
    ∧ (¬failed → (t.stowOf a).state =
        if t.moving a then .stopping else if t.covered a then .blocked
        else if t.anyFaulted a then .driveFailed else .waiting))
  ∧ ∀ (c : Instr) (s t : State), exec c s = .next t → s.wind.active = false → t.wind.active = true →
    ∀ a, let rest : StowState := if s.covered a then .blocked else if s.anyFaulted a then .driveFailed else .waiting
      ((s.stowOf a).state = .unstowed → s.LetGo t a .stow .stow ∧ t.remote a = true ∧ t.jog a = none
        ∧ (t.stowOf a).state = (if t.moving a then .stopping else rest)
        ∧ ∀ ax, let i : AxisId := ⟨a, ax⟩
          ((s.axis i).ready = true → s.covered a = true →
            (t.axis i).state = .braking ∧ (t.axis i).pendingStop = some ⟨some .blocked, .braked⟩)
          ∧ ((s.axis i).state = .slewing ∨ (s.axis i).state = .tracking ∨ (s.axis i).state = .jogging →
            (s.axis i).velocity ≠ 0 → s.waits i = false → (t.axis i).state = .stopping
            ∧ ∃ r, (t.axis i).stop = some r ∧ r.target = (if s.covered a then .braked else .holding)
              ∧ r.velocity = (s.axis i).velocity
              ∧ ((s.track a).empty = true → s.bound a = false →
                r.reason = if s.covered a then .blocked else .stow)))
      ∧ ((s.stowOf a).state = .blocked → (t.stowOf a).state = rest)
      ∧ ((s.stowOf a).state = .driveFailed →
          (t.stowOf a).state = if s.anyFaulted a then .driveFailed else rest)
      ∧ ((s.stowOf a).state = .pinWithdrawing →
          (t.stowOf a).state = if (s.field.ants.get a).pinIn then .stowed else .pinInserting)

/-- The sources of the demand (R121, R133): STOW_DEMAND puts SAFETY into the set or takes it out and answers
with the set; a Safety link silent for its timeout adds SILENCE, and these frames end it.
CONFIG_WRITE(WIND) (R122) takes the figures set into their ranges, where they rise from class to class and
filter and order are allowed, and queues the record's write. That no such write leaves SILENCE standing, its own
frame having restarted the timer, is the model's choice (log 31). -/
def Obligations.SourcesMakeTheDemand : Prop :=
  ∀ (s : State) (tag : Byte),
    (∀ c ∈ [(Instr.stowDemandOn tag, true), (.stowDemandOff tag, false)], s.admits c.1 = true →
      ∃ t, exec c.1 s = .next t
        ∧ t.wind = { s.wind with safety := c.2, silence := false }
        ∧ t.answers c.1 .ok (.sources (decide (s.wind.cls = .stow)) c.2 false) = true)
    ∧ (∀ e, s.powered = true → s.wind.silence = false → (s.link .safety).silence = some e →
      e + s.wind.record.silence * 1000 ≤ s.now →
      ∃ t, exec .safetySilence s = .next t ∧ t.wind = { s.wind with silence := true })
    ∧ ∀ f : WindFigures, s.admits (.configWriteWind tag f) = true →
      ∃ t r, exec (.configWriteWind tag f) s = .next t
        ∧ t.wind = { s.wind with record := r, silence := false }
        ∧ t.answers (.configWriteWind tag f) (if WindFigures.clamp f = f then .ok else .clamped)
            (.windRecord r) = true
        ∧ (let set (p : Pair) : Pair := ⟨max 50 (min 800 p.mean), max 50 (min 800 p.gust)⟩
           r.breezy = set f.breezy ∧ r.strong = set f.strong ∧ r.stow = set f.stow)
        ∧ r.filter = f.filter ∧ r.filter ∈ [1, 2, 4, 8] ∧ r.order.map Ant.num = f.order
        ∧ (∀ a, a ∈ r.order)
        ∧ (r.holdDown : Int) = max 300 (min 3600 f.holdDown)
        ∧ (r.silence : Int) = max 10 (min 120 f.silence)
        ∧ r.elevation = max 85000 (min 90000 f.elevation)
        ∧ (r.breezy.mean ≤ r.strong.mean ∧ r.strong.mean ≤ r.stow.mean)
        ∧ (r.breezy.gust ≤ r.strong.gust ∧ r.strong.gust ≤ r.stow.gust) ∧ t.store.owes .wind

/-- STOW_RELEASE (R134) releases every stowed antenna: by its pin where it is in, UNSTOWED at once where it is
not, and answers with how many changed. ALL_STOP (R136) halts every queue, burst and bound group with its
reason, ends every jog, and stops every axis that tracks, jogs or slews but a stow's. That ALL_STOP is the stop's
reason where a queue's or a group's own stop follows on the axis is the model's choice (log 18). -/
def Obligations.SafetyReleasesAndStops : Prop :=
  ∀ (s : State) (tag : Byte),
    (s.admits (.stowRelease tag) = true →
      ∃ t, exec (.stowRelease tag) s = .next t
        ∧ t.answers (.stowRelease tag) .ok
            (.count (Ant.all.filter fun a => decide ((s.stowOf a).state ≠ .unstowed)).length) = true
        ∧ ∀ a, if (s.stowOf a).state = .stowed ∨ (s.stowOf a).state = .pinFailed then
            (t.stowOf a).pinIn = false
            ∧ (t.stowOf a).state = if (s.field.ants.get a).pinOut then .unstowed else .pinWithdrawing
          else (t.stowOf a).state = .unstowed)
    ∧ (s.admits (.allStop tag) = true →
      ∃ t, exec (.allStop tag) s = .next t ∧ t.answers (.allStop tag) .ok .empty = true
        ∧ (∀ a, ((s.track a).empty = false → s.QueueHalted t a .allStop)
            ∧ t.burst.ant ≠ some a ∧ (s.burst.ant = some a → t.burst.termination = some (a, .allStop))
            ∧ t.jog a = none)
        ∧ (∀ g, (s.groups.get g).binds = true →
            (t.groups.get g).state = .halted ∧ (t.groups.get g).haltReason = some .allStop)
        ∧ ∀ i, s.takesAllStop i = true → (s.axis i).velocity ≠ 0 → s.waits i = false →
            (t.axis i).state = .stopping ∧ ∃ r, (t.axis i).stop = some r
              ∧ r.reason = .allStop ∧ r.target = .holding)

/-- A wave is formed from the WAITING antennas in no wave, in stow order up to the first whose stow demand does not
fit (R128): each admitted one is a member with its stow grant, its warning timer and STOW claims, and has its line in
the wave record. The wave starts at a servo step once every member is ready (R129): each with a distance to go is
DRIVING on its EL profile, and each other goes on to its pin. The pin (R131, R132, R135): a healthy reading of 20 or
more ends the warming; the switches end inserting and withdrawing, a STOWED antenna whose switch opens and each limit
passed is PIN_FAILED, and an antenna that stands by its pin is put down to its brakes. That both timers stop
where the antenna goes PIN_FAILED by a limit passed is the model's choice (log 55). -/
def Obligations.WavesStartAndPinsMove : Prop :=
  (∀ s : State, s.stow.wave = none → s.wind.record.order.Nodup →
    let t := s.formWave
    let waiting := s.wind.record.order.filter fun a =>
      decide ((s.stowOf a).state = .waiting) && !(s.stowOf a).member
    ∃ k, let ants := waiting.take k
      (∀ a, waiting[k]? = some a →
        t.fit (t.stowDemand a) (t.foldable ⟨a, .az⟩ + t.foldable ⟨a, .el⟩) true = .short)
      ∧ (ants = [] → t.stow.wave = none)
      ∧ (ants ≠ [] → ∃ w, t.stow.wave = some w ∧ w.members.map WaveMember.ant = ants
          ∧ w.tg0 = s.waveTime ants ∧ ∀ m ∈ w.members, let x := s.axis ⟨m.ant, .el⟩
            m.start = x.position
            ∧ m.target = clampSoft x.record.softLow x.record.softHigh s.wind.record.elevation
            ∧ m.distance = (m.target - m.start).natAbs ∧ m.accel = s.limitA ⟨m.ant, .el⟩)
      ∧ (∀ a ∈ ants, (t.stowOf a).state = .waiting ∧ (t.stowOf a).member = true
          ∧ (t.stowOf a).warningTimer = some ((s.stowOf a).warningTimer.getD s.now)
          ∧ t.feed.waves.get a = some ⟨false, s.stowDemand a,
              ⟨(s.axis ⟨a, .az⟩).record.hold, (s.axis ⟨a, .el⟩).record.hold⟩⟩
          ∧ ∀ ax, (s.axis ⟨a, ax⟩).state.isFaulted = false →
              (t.axis ⟨a, ax⟩).claims.stow = true ∧ (t.ants.get a).bus ≠ .off)
      ∧ ∀ a, a ∉ ants → t.stowOf a = s.stowOf a)
  ∧ ∀ (s : State) (a : Ant), s.powered = true →
    (s.atServo = false → exec .waveStart s = .next s)
    ∧ (∀ w, s.atServo = true → s.waveReady = some w → (∀ m ∈ w.members, s.linePasses m = true) →
      (w.members.map WaveMember.ant).Nodup →
      ∃ t, exec .waveStart s = .next t ∧ ∀ m ∈ w.members, (t.stowOf m.ant).member = false
        ∧ if m.distance = 0 then (t.stowOf m.ant).state =
            if (s.zone ⟨m.ant, .pin⟩).readsAtLeast 0 then
              (if (s.field.ants.get m.ant).pinIn then .stowed else .pinInserting)
            else .pinWarming
          else (t.stowOf m.ant).state = .driving
            ∧ (s.waits ⟨m.ant, .el⟩ = false → (t.axis ⟨m.ant, .el⟩).state = .slewing
              ∧ (t.axis ⟨m.ant, .el⟩).profile =
                  some ⟨s.now, m.start, m.target, m.peak.getD 0, m.accel, m.up, m.time⟩))
    ∧ (∀ temp, (s.stowOf a).state = .pinWarming →
      ∃ t, exec (.heaterStep ⟨a, .pin⟩ temp) s = .next t
        ∧ (20 ≤ temp → temp ≤ 800 → (t.zone ⟨a, .pin⟩).forced = false ∧ (t.stowOf a).pinIn = true
          ∧ (t.stowOf a).warmingTimer = none ∧ (t.stowOf a).state =
            if (s.field.ants.get a).pinIn then .stowed else .pinInserting)
        ∧ (temp < 20 ∨ 800 < temp → (t.zone ⟨a, .pin⟩).forced = (s.zone ⟨a, .pin⟩).forced
          ∧ t.stowOf a = s.stowOf a))
    ∧ (∀ e, (s.stowOf a).state = .pinWarming → (s.stowOf a).warmingTimer = some e → e + 600000 ≤ s.now →
      ∃ t, exec (.pinWarmingTimeout a) s = .next t ∧ (t.zone ⟨a, .pin⟩).forced = false
        ∧ t.stowOf a = { s.stowOf a with state := .pinFailed, pinTimer := none, warmingTimer := none }
        ∧ ∀ ax, (s.axis ⟨a, ax⟩).ready = true → (t.axis ⟨a, ax⟩).state = .braking
            ∧ (t.axis ⟨a, ax⟩).pendingStop = some ⟨some .stow, .braked⟩)
    ∧ ((s.stowOf a).state = .pinInserting →
      (∃ t, exec (.pinInSwitchMade a) s = .next t ∧ (t.field.ants.get a).pinIn = true
        ∧ t.stowOf a = { s.stowOf a with state := .stowed, pinTimer := none }
        ∧ ∀ ax, (s.axis ⟨a, ax⟩).ready = true → (t.axis ⟨a, ax⟩).state = .braking
            ∧ (t.axis ⟨a, ax⟩).pendingStop = some ⟨some .stow, .braked⟩)
      ∧ ∀ e, (s.stowOf a).pinTimer = some e → e + 20000 ≤ s.now → (s.field.ants.get a).pinIn = false →
        ∃ t, exec (.pinInsertTimeout a) s = .next t ∧ t.stowOf a =
          { s.stowOf a with state := .pinFailed, pinTimer := none, warmingTimer := none })
    ∧ (∃ t, exec (.pinInSwitchOpened a) s = .next t ∧ (t.field.ants.get a).pinIn = false
        ∧ t.stowOf a = if (s.stowOf a).state = .stowed then { s.stowOf a with state := .pinFailed }
            else s.stowOf a)
    ∧ (∃ t, exec (.pinOutSwitchMade a) s = .next t ∧ (t.field.ants.get a).pinOut = true
        ∧ t.stowOf a = if (s.stowOf a).state = .pinWithdrawing then
            { s.stowOf a with state := .unstowed, pinTimer := none } else s.stowOf a)
    ∧ ∀ e, (s.stowOf a).state = .pinWithdrawing → (s.stowOf a).pinTimer = some e → e + 20000 ≤ s.now →
      (s.field.ants.get a).pinOut = false →
      ∃ t, exec (.pinWithdrawTimeout a) s = .next t
        ∧ t.stowOf a = { s.stowOf a with state := .pinFailed, pinTimer := none }

/-! ### Heat, ice and the feed (chapters 7 and 8) -/

/-- The requested level of a zone (R145 to R148): the whole frame under a PIN force; 0 in OFF; the manual level
in MANUAL; in AUTO, with a healthy reading, N at B or more below the setpoint, 0 at it or above, and between
them N times the distance over B, rounded up, so 1 to N; without one, a quarter of N on an iced antenna. -/
def Obligations.RequestedLevelsFollowTheMode : Prop :=
  ∀ (z : Zone) (ice : IceClass),
    (z.forced = true → z.wanted ice = z.frame)
    ∧ (z.forced = false →
      (z.mode = .off → z.wanted ice = 0) ∧ (z.mode = .manual → z.wanted ice = min z.manual z.frame)
      ∧ (z.mode = .auto → z.healthy = false → z.wanted ice = if ice = .none then 0 else z.frame / 4)
      ∧ ∀ temp, z.mode = .auto → z.healthy = true → z.reading = some temp →
        let setpoint := if ice = .none then z.idle else z.melt
        (temp ≤ setpoint - z.band → z.wanted ice = z.frame)
        ∧ (setpoint - z.band < temp → setpoint ≤ temp → z.wanted ice = 0)
        ∧ (setpoint - z.band < temp → temp < setpoint → 0 < z.frame →
          1 ≤ z.wanted ice ∧ z.wanted ice ≤ z.frame
          ∧ (z.frame : Int) * (setpoint - temp) ≤ z.wanted ice * z.band
          ∧ ((z.wanted ice : Int) - 1) * z.band < z.frame * (setpoint - temp)))

/-- CONFIG_WRITE(ZONE) (R140) takes a zone's figures set into their ranges, with the zone at level 0 one step
before a frame; HEAT_SET (R150) sets mode and manual level, forms the requested level and applies a fall at
once. Each answers CLAMPED where a figure changed, sets HEAT, and owes the record's write where it changed. That
the reply's effective level is read before room freed in its event is offered, and that a HEAT_SET of the present
mode still decides the mode a later ZONE write stores, are the model's choices (log 41); so is that the reply to the
write shows the record as stored, with the stored mode (log 56). -/
def Obligations.ZonesTakeTheirFigures : Prop :=
  ∀ (s : State) (tag : Byte) (z : ZoneId),
    (∀ f : ZoneFigures, s.admits (.configWriteZone tag z.ant.num (some z.cls) f) = true →
      ∃ t r, exec (.configWriteZone tag z.ant.num (some z.cls) f) s = .next t ∧ (t.zone z).record = r
        ∧ (r.rated : Int) = max 0 (min (match z.cls with | .pin => 300 | .gear => 1500 | .surface => 6000) f.rated)
        ∧ r.frame = f.frame ∧ r.frame ∈ [16, 32, 64, 256] ∧ r.retain = f.retain
        ∧ r.idle = max (-400) (min 400 f.idle) ∧ r.melt = max (-400) (min 400 f.melt)
        ∧ (r.band : Int) = max 10 (min 400 f.band) ∧ r.mode = (s.zone z).storedMode
        ∧ (t.zone z).mode = (s.zone z).mode ∧ (t.zone z).manual = min (s.zone z).manual f.frame
        ∧ (t.zone z).effective = 0 ∧ (t.zone z).contactor = false ∧ (t.zone z).step = f.frame - 1
        ∧ (t.zone z).requested = (t.zone z).wanted (s.iceClass z.ant)
        ∧ t.answers (.configWriteZone tag z.ant.num (some z.cls) f)
            (if ((r.rated : Int), r.idle, r.melt, (r.band : Int)) = (f.rated, f.idle, f.melt, f.band)
              then .ok else .clamped) (.zoneRecord r) = true
        ∧ t.store.owes (.zone z) ∧ t.flagged (antFlag .heat z.ant))
    ∧ ∀ (sender : HeatSender) (m : HeatMode) (level : Option Nat), heatAnt sender = z.ant.num →
      s.admits (.heatSet tag sender (some z.cls) (some m) level) = true →
      ∃ t effective, exec (.heatSet tag sender (some z.cls) (some m) level) s = .next t
        ∧ (t.zone z).settings = ({ (s.zone z).record with mode := m }, m,
            min (level.getD (s.zone z).manual) (s.zone z).frame)
        ∧ (t.zone z).requested = (t.zone z).wanted (s.iceClass z.ant)
        ∧ effective = min (s.zone z).effective
            (capped (capped (t.zone z).requested (s.lockCap z)) (s.zone z).shedCap)
        ∧ (t.zone z).effective ≤ effective
        ∧ t.answers (.heatSet tag sender (some z.cls) (some m) level)
            (if (s.zone z).frame < level.getD 0 then .clamped else .ok)
            (.zone m (t.zone z).manual (t.zone z).requested effective) = true
        ∧ (m ≠ (s.zone z).mode → t.store.owes (.zone z)) ∧ t.flagged (antFlag .heat z.ant)

/-- A heater step (R141 to R144) reads the zone's sensor, forms its requested level, applies a fall at once, and
advances its step; only where the step wraps to 0 may the level rise, whole to the ceiling or not at all, as the
feed's limit allows (R143, R170); the contactor is on exactly below the level. The frame-start row is that step where
it wraps, the model's choice (log 15). The level is exact where nothing else is due on the feed in the event: no need
waits, no BRAKED axis holds a claim, and no antenna comes to rest or waits for a wave. The warm reading of a PIN zone
being warmed is in WavesStartAndPinsMove. -/
def Obligations.HeaterStepsFormTheLevel : Prop :=
  ∀ (s : State) (z : ZoneId) (temp : Int) (c : Instr), s.powered = true →
    c = .heaterStep z temp ∨ c = .heaterFrameStart z temp ∧ (s.zone z).frame ≤ (s.zone z).step + 1 →
    z.cls ≠ .pin ∨ (s.stowOf z.ant).state ≠ .pinWarming →
    let good := decide (-600 ≤ temp ∧ temp ≤ 800)
    let asked := { s.zone z with reading := some temp, healthy := good }.wanted (s.iceClass z.ant)
    let ceiling := capped (capped asked (s.lockCap z)) (s.zone z).shedCap
    let fallen := min (s.zone z).effective ceiling
    let wraps := (s.zone z).frame ≤ (s.zone z).step + 1
    let level := if wraps ∧ fallen < ceiling
        ∧ (s.load : Int) - (s.zone z).committed + (s.zone z).wattsAt ceiling + s.reserved ≤ s.feed.limit
      then ceiling else fallen
    ∃ t, exec c s = .next t
      ∧ ((t.field.ants.get z.ant).temps.get z.cls = temp)
      ∧ (t.zone z).reading = some temp ∧ (t.zone z).healthy = good ∧ (t.zone z).requested = asked
      ∧ (t.zone z).step = (if wraps then 0 else (s.zone z).step + 1)
      ∧ (t.zone z).contactor = decide ((t.zone z).step < (t.zone z).effective)
      ∧ (t.zone z).effective ≤ level
      ∧ (s.feed.queue = [] → (∀ i, (s.axis i).state = .braked → (s.axis i).claims.any = false) →
          (∀ a, ((s.stowOf a).state = .stopping → s.moving a = true)
            ∧ ((s.stowOf a).state = .waiting → (s.stowOf a).member = true)) →
          (t.zone z).effective = level)

/-- Ice and weather (R151 to R154): ICE_FLOOR sets an antenna's floor and answers with its class; the wet,
freeze and thaw timers move its tracked class when they have run 600, 3600 and 900 s; a report stands as the weather
since now, and a stale one leaves the precipitation taken as given. The timers run only while their conditions
hold, and a change of class forms the zones' levels afresh. -/
def Obligations.IceFollowsTheWeather : Prop :=
  ∀ (s : State) (tag : Byte) (a : Ant),
    (∀ c, s.admits (.iceFloor tag a.num (some c)) = true →
      ∃ t, exec (.iceFloor tag a.num (some c)) s = .next t ∧ t.ice a = { s.ice a with floor := c }
        ∧ t.answers (.iceFloor tag a.num (some c)) .ok
            (.ice (s.ice a).tracked c (iceMax (s.ice a).tracked c)) = true
        ∧ (iceMax (s.ice a).tracked c ≠ s.iceClass a → ∀ k,
            (t.zone ⟨a, k⟩).requested = (t.zone ⟨a, k⟩).wanted (iceMax (s.ice a).tracked c)))
    ∧ (∀ row ∈ [(Instr.wetTimerExpiry a,
          (s.ice a).tracked = .none ∧ s.coldWet = true
            ∧ ∃ e, (s.ice a).wetTimer = some e ∧ e + 600000 ≤ s.now, IceClass.light),
        (.freezeTimerExpiry a,
          (s.ice a).tracked = .light ∧ s.coldWet = true ∧ (s.zone ⟨a, .surface⟩).frozen = true
            ∧ ∃ e, (s.ice a).freezeTimer = some e ∧ e + 3600000 ≤ s.now, .heavy),
        (.thawTimerExpiry a,
          (s.ice a).tracked ≠ .none ∧ s.precipInUse = false ∧ (s.zone ⟨a, .surface⟩).thawed = true
            ∧ ∃ e, (s.ice a).thawTimer = some e ∧ e + 900000 ≤ s.now,
          if (s.ice a).tracked = .heavy then .light else .none)],
      s.powered = true → row.2.1 →
      ∃ t, exec row.1 s = .next t ∧ (t.ice a).tracked = row.2.2 ∧ (t.ice a).floor = (s.ice a).floor
        ∧ (t.ice a).wetTimer = (if row.2.2 = .none ∧ s.coldWet = true then some s.now else none)
        ∧ (t.ice a).freezeTimer = (if row.2.2 = .light ∧ s.coldWet = true
            ∧ (s.zone ⟨a, .surface⟩).frozen = true then some s.now else none)
        ∧ (t.ice a).thawTimer = (if row.2.2 ≠ .none ∧ s.precipInUse = false
            ∧ (s.zone ⟨a, .surface⟩).thawed = true then some s.now else none)
        ∧ ∀ k, (t.zone ⟨a, k⟩).requested = (t.zone ⟨a, k⟩).wanted (t.iceClass a))
    ∧ (∀ temp precip, s.admits (.weather tag temp precip) = true →
      ∃ t, exec (.weather tag temp precip) s = .next t
        ∧ t.answers (.weather tag temp precip) .ok .empty = true
        ∧ t.heat.weather = some ⟨temp, precip, s.now⟩
        ∧ (t.ice a).tracked = (s.ice a).tracked
        ∧ (t.ice a).wetTimer = (if (s.ice a).tracked = .none ∧ temp ≤ 10 ∧ precip = true
            then some ((s.ice a).wetTimer.getD s.now) else none))
    ∧ ∀ w, s.powered = true → s.heat.weather = some w → 120000 < s.now - w.epoch →
      ∃ t, exec .weatherStale s = .next t ∧ t.precipInUse = true ∧ (t.ice a).thawTimer = none
        ∧ (t.ice a).wetTimer = (if (s.ice a).tracked = .none ∧ w.temp ≤ 10
            then some ((s.ice a).wetTimer.getD s.now) else none)

/-- The feed's own rows (R159, R166, R172): CONFIG_WRITE(STATION) takes figures the books fit, set into their
ranges, and sets BUDGET; a need that has waited 10 s is lost with BUDGET, a hold need with the claims it was
for and AXIS, a jog raise with the claim JOG, its jog's failure BUDGET and AXIS (R29); a shed that expires begins
its restoration, and each step, 5 s after the one before, clears the next zone's cap, until none is left. -/
def Obligations.FeedKeepsItsBooks : Prop :=
  ∀ s : State,
    (∀ (tag : Byte) (f : StationFigures), s.admits (.configWriteStation tag f) = true →
      ∃ t r, exec (.configWriteStation tag f) s = .next t ∧ t.stationRecord = r
        ∧ r.figures = ⟨max 5000 (min 120000 f.limit), max 0 (min 10000 f.base), max 10 (min 120 f.period),
            max 0 (min 1500 f.allowance)⟩
        ∧ r.base + s.driveGrants + s.committed ≤ r.limit ∧ r.default_ = s.permits.default_
        ∧ t.answers (.configWriteStation tag f) (if r.figures = f then .ok else .clamped)
            (.stationRecord r) = true
        ∧ t.store.owes .station ∧ t.flagged (stationFlag .budget))
    ∧ (∀ (i : AxisId) (n : Need), s.powered = true → n ∈ s.feed.queue → n.axis = i → n.joined + 10000 ≤ s.now →
      (∀ m ∈ s.feed.queue, m.axis = i → m = n) →
      ∃ t, exec (.grantQueueTimeout i) s = .next t ∧ t.flagged (stationFlag .budget)
        ∧ (n.kind = .hold → t.flagged (antFlag .axis i.ant)
          ∧ ((s.axis i).claims.group = false → (s.axis i).claims.stow = false →
            (s.stowOf i.ant).state = .unstowed → (s.ants.get i.ant).disabling = false →
            (s.axis i).state = .braked →
            (t.axis i).claims.any = false ∧ (t.axis i).state = .braked ∧ t.waits i = false))
        ∧ (n.kind = .jog → t.flagged (antFlag .axis i.ant)
          ∧ ∀ j, s.jog i.ant = some j → j.axis = i.ax →
            ∃ k, t.jog i.ant = some k ∧ k.core = j.core ∧ k.failure = some (j.failure.getD .budget)
              ∧ ((s.axis i).state = .holding → (t.axis i).claims.jog = false)))
    ∧ ∀ c ∈ [(Instr.shedExpiry,
          s.feed.shed.active = true ∧ ∃ e, s.feed.shed.expiry = some e ∧ e ≤ s.now),
        (.restorationStep, s.feed.shed.active = false ∧ s.feed.shed.classes ≠ none
          ∧ ∃ e, s.feed.lastStep = some e ∧ e + 5000 ≤ s.now)],
      s.powered = true → c.2 →
      ∃ t, exec c.1 s = .next t ∧ t.feed.shed.active = false
        ∧ (c.1 = .shedExpiry → t.feed.shed.expiry = none ∧ t.flagged (stationFlag .budget))
        ∧ (∀ z, s.nextCapped = some z → (t.zone z).shedCap = none ∧ t.feed.cursor = some z
            ∧ t.feed.lastStep = some s.now ∧ ∀ y, y ≠ z → t.zone y = s.zone y)
        ∧ (s.nextCapped = none → t.feed.shed.classes = none ∧ t.feed.shed.deep = false
            ∧ t.feed.cursor = none ∧ t.flagged (stationFlag .budget) ∧ t.heat.zones = s.heat.zones)

/-- A shed (R161 to R163, R171). Its imposition joins its classes and depth to the record's, starts the period
afresh and takes every zone of its classes to its floor at once: 0 in a deep shed, else a quarter of the frame
for GEAR, and for SURFACE in HEAVY ice; the room it gives is no less than what admission counted on. The shed is
needed while base, drive grants and heaters, with the shed zones at what they would draw uncapped, exceed the
limit: so tested after a direct grant under a shed, which is then imposed again, and at the half-check epoch,
where a shed still needed is renewed, its classes and depth kept, and one not needed runs to its expiry. The
half check sets no flag. -/
def Obligations.ShedsMakeRoomAndAreRenewed : Prop :=
  ∀ s : State,
    let floor (deep : Bool) (z : ZoneId) : Nat :=
      if deep then 0 else match z.cls with
        | .pin => 0 | .gear => (s.zone z).frame / 4
        | .surface => if s.iceClass z.ant = .heavy then (s.zone z).frame / 4 else 0
    let uncapped := ZoneId.all.map fun z => if s.feed.shed.covers z
      then (s.zone z).wattsAt (capped (s.zone z).requested (s.lockCap z)) else (s.zone z).committed
    let needed := s.feed.limit < s.feed.base + s.driveGrants + uncapped.sum
    (∀ offer gearToo deep : Bool,
      let t := s.imposeShed offer gearToo deep
      let gear := s.feed.shed.classes.getD false || gearToo
      let depth := s.feed.shed.deep || deep
      t.feed.shed = ⟨true, some gear, depth, some (s.now + s.feed.period * 1000),
        some (s.now + s.feed.period * 500)⟩
      ∧ t.feed.cursor = none ∧ t.feed.lastStep = none
      ∧ (∀ z, z.cls = .surface ∨ z.cls = .gear ∧ gear = true →
          (t.zone z).shedCap = some (floor depth z) ∧ (t.zone z).effective ≤ floor depth z
          ∧ (t.zone z).effective ≤ (s.zone z).effective
          ∧ ((s.zone z).effective ≤ capped (s.zone z).requested (s.lockCap z) →
              (t.zone z).effective = min (s.zone z).effective (floor depth z)))
      ∧ (∀ z, z.cls = .pin ∨ z.cls = .gear ∧ gear = false → t.zone z = s.zone z)
      ∧ (s.freeRoom : Int) + s.shedFrees gearToo deep ≤ t.freeRoom
      ∧ t.driveGrants = s.driveGrants ∧ t.feed.queue = s.feed.queue
      ∧ t.scratch.raised = s.scratch.raised |||
          (if s.feed.shed.active = true ∧ s.feed.shed.classes = some gear ∧ s.feed.shed.deep = depth then 0
           else stationFlag .budget))
    ∧ (∀ folded gearToo, s.feed.shed.classes = some gearToo → needed →
        (s.afterGrant .direct folded).feed.shed = { s.feed.shed with
          active := true, expiry := some (s.now + s.feed.period * 1000)
          half := some (s.now + s.feed.period * 500) })
    ∧ (∀ folded, s.feed.shed.classes = none ∨ ¬needed →
        (s.afterGrant .direct folded).feed = s.feed ∧ (s.afterGrant .direct folded).heat = s.heat)
    ∧ ∀ e, s.powered = true → s.feed.shed.active = true → s.feed.shed.half = some e → e ≤ s.now →
      ∃ t, exec .shedHalfCheck s = .next t
        ∧ (needed → t.feed = { s.feed with shed := { s.feed.shed with
            expiry := some (s.now + s.feed.period * 1000), half := some (s.now + s.feed.period * 500) } })
        ∧ (¬needed → t.feed = { s.feed with shed := { s.feed.shed with half := none } })
        ∧ (s.scratch.raised = 0 → s.scratch.early = 0 → t.links = s.links)

/-- Grants on the feed. A request that fits the room is granted at once only while the queue is empty; else it
joins the queue's tail, or is dropped with BUDGET where 16 wait (R161, R164). Freed room goes to the queue's
heads until one is short, and to the first antenna that waits for a wave before an axis asks its hold need (R165).
An axis's hold need gives it its standing grant, and a raise adds to it; an axis that holds under a group or wave
grant first takes its own share of it, the model's choice (log 33). GROUP_ARM enters the group's demand as its grant, with each member axis's hold figure, and folds their standing
grants (R167). A release gives each axis whose torque is on under the grant the recorded hold figure, takes the
grant away and frees the rest (R168); that together they take no more than the grant held, so the load never
rises, is the model's choice where the figures would (log 32). An admission to a wave that ends an earlier wave
grant offers what it left (R165); that the earlier grant ends so is the model's choice (log 42). -/
def Obligations.GrantsAreQueuedHeldAndConverted : Prop :=
  (∀ (s : State) (i : AxisId) (k : NeedKind) (watts : Nat),
    let t := s.askNeed i k watts
    let fits := (watts : Int) ≤ s.freeRoom + s.shedFrees true false
    (s.feed.queue ≠ [] ∨ ¬fits → s.feed.queue.length < 16 →
      t = { s with feed := { s.feed with queue := s.feed.queue ++ [⟨i, k, watts, s.now⟩] } })
    ∧ (s.feed.queue ≠ [] ∨ ¬fits → 16 ≤ s.feed.queue.length → t.feed.queue = s.feed.queue
        ∧ t.scratch.raised &&& stationFlag .budget = stationFlag .budget)
    ∧ (s.feed.queue = [] → fits → t.feed.queue = []
        ∧ ((watts : Int) ≤ s.freeRoom → s.feed.shed.classes = none → t.feed.shed = s.feed.shed)
        ∧ (s.freeRoom < watts → t.feed.shed.active = true)
        ∧ (k = .hold → t.standing i = ⟨watts, watts⟩ ∧ (t.axis i).state = .torqueUp
            ∧ (t.axis i).cover = .standing)
        ∧ (k = .track → (s.track i.ant).raises.get i.ax = .asked →
            (t.track i.ant).raises.get i.ax = .granted
            ∧ ((s.axis i).cover = .standing → (t.standing i).watts = (s.standing i).watts + watts)
            ∧ ∀ g v, (s.axis i).cover = .group g → (s.axis i).state.torqueOn = true →
                s.feed.groups.get g = some v →
                (t.axis i).cover = .standing ∧ t.standing i =
                  ⟨min (v.hold i) v.watts + watts, min (v.hold i) v.watts⟩)))
  ∧ (∀ (s : State) (fuel : Nat), s.feed.queue.length ≤ fuel →
    ∃ k, (s.offerQueue fuel).feed.queue = s.feed.queue.drop k
      ∧ ∀ n rest, s.feed.queue.drop k = n :: rest →
        (s.offerQueue fuel).freeRoom + (s.offerQueue fuel).shedFrees true false < n.watts)
  ∧ (∀ (s : State) (i : AxisId) (a : Ant) (before after : List Ant), s.scratch.freed = true →
    s.wantsTorque i = true → s.stow.wave = none → s.wind.record.order = before ++ a :: after →
    (∀ b ∈ before, s.waitsForWave b = false) → s.waitsForWave a = true →
    (s.stowDemand a : Int) ≤
      s.freeRoom + (s.foldable ⟨a, .az⟩ + s.foldable ⟨a, .el⟩ : Nat) + s.shedFrees true true →
    let t := s.seekInTurn i
    (t.stowOf a).member = true ∧ (t.feed.waves.get a).isSome = true)
  ∧ (∀ (s : State) (tag : Byte) (g : GroupId) (start : Nat), s.admits (.groupArm tag g.num start) = true →
    let r := s.groups.get g
    ∃ t, exec (.groupArm tag g.num start) s = .next t
      ∧ t.feed.groups.get g = some ⟨r.demand, r.axes.map fun i => (i, (s.axis i).record.hold)⟩
      ∧ ∀ i ∈ r.axes, (s.stowOf i.ant).state = .unstowed → t.standing i = ⟨0, 0⟩ ∧ t.waits i = false
          ∧ ((s.axis i).amplifier = true → (s.axis i).amplifier = (s.axis i).state.amplifierOn →
              (t.axis i).cover = .group g))
  ∧ (∀ (s : State) (g : GroupId) (v : GroupGrant), s.feed.groups.get g = some v →
    let t := s.releaseGroupGrant g
    t.feed.groups.get g = none ∧ t.load ≤ s.load ∧ t.scratch.freed = true
    ∧ ((v.holds.map Prod.fst).Nodup → (v.holds.map Prod.snd).sum ≤ v.watts → ∀ i h, (i, h) ∈ v.holds →
        if (s.axis i).cover = .group g ∧ (s.axis i).state.torqueOn = true then
          (t.axis i).cover = .standing ∧ t.standing i = ⟨h, h⟩
        else t.axis i = s.axis i ∧ t.standing i = s.standing i))
  ∧ ∀ (s : State) (a : Ant) (v : WaveGrant), s.feed.waves.get a = some v →
    (∀ f : Fit, 0 < v.watts → (s.admitToWave a f).scratch.freed = true)
    ∧ let t := s.releaseWaveGrant a
    t.feed.waves.get a = none ∧ t.load ≤ s.load ∧ t.scratch.freed = true
    ∧ (v.holds.az + v.holds.el ≤ v.watts → ∀ ax, let i : AxisId := ⟨a, ax⟩
        if (s.axis i).cover = .wave ∧ (s.axis i).state.torqueOn = true then
          (t.axis i).cover = .standing ∧ t.standing i = ⟨v.holds.get ax, v.holds.get ax⟩
        else t.axis i = s.axis i ∧ t.standing i = s.standing i)
end

