-- ==== Sys2Proof/Laws/State.lean ====
section
/-! SUPPORT. What each update of the state leaves alone, field by field, and what it does to its own item. -/

namespace Sys2Proof.Machine

/-! ### Two axis or zone names -/

theorem AxisId.ext_iff' (i j : AxisId) : i = j ↔ i.ant = j.ant ∧ i.ax = j.ax := by
  cases i; cases j; simp

theorem ZoneId.ext_iff' (i j : ZoneId) : i = j ↔ i.ant = j.ant ∧ i.cls = j.cls := by
  cases i; cases j; simp

/-! ### Fields an update does not name -/

@[simp] theorem State.setAnt_powered (s : State) (a : Ant) (v : Antenna) : (s.setAnt a v).powered = s.powered := rfl
@[simp] theorem State.setAnt_clock (s : State) (a : Ant) (v : Antenna) : (s.setAnt a v).clock = s.clock := rfl
@[simp] theorem State.setAnt_field (s : State) (a : Ant) (v : Antenna) : (s.setAnt a v).field = s.field := rfl
@[simp] theorem State.setAnt_tracks (s : State) (a : Ant) (v : Antenna) : (s.setAnt a v).tracks = s.tracks := rfl
@[simp] theorem State.setAnt_burst (s : State) (a : Ant) (v : Antenna) : (s.setAnt a v).burst = s.burst := rfl
@[simp] theorem State.setAnt_groups (s : State) (a : Ant) (v : Antenna) : (s.setAnt a v).groups = s.groups := rfl
@[simp] theorem State.setAnt_locks (s : State) (a : Ant) (v : Antenna) : (s.setAnt a v).locks = s.locks := rfl
@[simp] theorem State.setAnt_permits (s : State) (a : Ant) (v : Antenna) : (s.setAnt a v).permits = s.permits := rfl
@[simp] theorem State.setAnt_wind (s : State) (a : Ant) (v : Antenna) : (s.setAnt a v).wind = s.wind := rfl
@[simp] theorem State.setAnt_stow (s : State) (a : Ant) (v : Antenna) : (s.setAnt a v).stow = s.stow := rfl
@[simp] theorem State.setAnt_heat (s : State) (a : Ant) (v : Antenna) : (s.setAnt a v).heat = s.heat := rfl
@[simp] theorem State.setAnt_feed (s : State) (a : Ant) (v : Antenna) : (s.setAnt a v).feed = s.feed := rfl
@[simp] theorem State.setAnt_store (s : State) (a : Ant) (v : Antenna) : (s.setAnt a v).store = s.store := rfl
@[simp] theorem State.setAnt_links (s : State) (a : Ant) (v : Antenna) : (s.setAnt a v).links = s.links := rfl
@[simp] theorem State.setAnt_pace (s : State) (a : Ant) (v : Antenna) : (s.setAnt a v).pace = s.pace := rfl
@[simp] theorem State.setAnt_freeCount (s : State) (a : Ant) (v : Antenna) : (s.setAnt a v).freeCount = s.freeCount := rfl
@[simp] theorem State.setAnt_scratch (s : State) (a : Ant) (v : Antenna) : (s.setAnt a v).scratch = s.scratch := rfl
@[simp] theorem State.setAnt_pending (s : State) (a : Ant) (v : Antenna) : (s.setAnt a v).pending = s.pending := rfl

@[simp] theorem State.setAxis_powered (s : State) (i : AxisId) (x : Axis) : (s.setAxis i x).powered = s.powered := rfl
@[simp] theorem State.setAxis_clock (s : State) (i : AxisId) (x : Axis) : (s.setAxis i x).clock = s.clock := rfl
@[simp] theorem State.setAxis_field (s : State) (i : AxisId) (x : Axis) : (s.setAxis i x).field = s.field := rfl
@[simp] theorem State.setAxis_tracks (s : State) (i : AxisId) (x : Axis) : (s.setAxis i x).tracks = s.tracks := rfl
@[simp] theorem State.setAxis_burst (s : State) (i : AxisId) (x : Axis) : (s.setAxis i x).burst = s.burst := rfl
@[simp] theorem State.setAxis_groups (s : State) (i : AxisId) (x : Axis) : (s.setAxis i x).groups = s.groups := rfl
@[simp] theorem State.setAxis_locks (s : State) (i : AxisId) (x : Axis) : (s.setAxis i x).locks = s.locks := rfl
@[simp] theorem State.setAxis_permits (s : State) (i : AxisId) (x : Axis) : (s.setAxis i x).permits = s.permits := rfl
@[simp] theorem State.setAxis_wind (s : State) (i : AxisId) (x : Axis) : (s.setAxis i x).wind = s.wind := rfl
@[simp] theorem State.setAxis_stow (s : State) (i : AxisId) (x : Axis) : (s.setAxis i x).stow = s.stow := rfl
@[simp] theorem State.setAxis_heat (s : State) (i : AxisId) (x : Axis) : (s.setAxis i x).heat = s.heat := rfl
@[simp] theorem State.setAxis_feed (s : State) (i : AxisId) (x : Axis) : (s.setAxis i x).feed = s.feed := rfl
@[simp] theorem State.setAxis_store (s : State) (i : AxisId) (x : Axis) : (s.setAxis i x).store = s.store := rfl
@[simp] theorem State.setAxis_links (s : State) (i : AxisId) (x : Axis) : (s.setAxis i x).links = s.links := rfl
@[simp] theorem State.setAxis_pace (s : State) (i : AxisId) (x : Axis) : (s.setAxis i x).pace = s.pace := rfl
@[simp] theorem State.setAxis_freeCount (s : State) (i : AxisId) (x : Axis) : (s.setAxis i x).freeCount = s.freeCount := rfl
@[simp] theorem State.setAxis_scratch (s : State) (i : AxisId) (x : Axis) : (s.setAxis i x).scratch = s.scratch := rfl
@[simp] theorem State.setAxis_pending (s : State) (i : AxisId) (x : Axis) : (s.setAxis i x).pending = s.pending := rfl

@[simp] theorem State.modAxis_powered (s : State) (i : AxisId) (f : Axis → Axis) : (s.modAxis i f).powered = s.powered := rfl
@[simp] theorem State.modAxis_clock (s : State) (i : AxisId) (f : Axis → Axis) : (s.modAxis i f).clock = s.clock := rfl
@[simp] theorem State.modAxis_field (s : State) (i : AxisId) (f : Axis → Axis) : (s.modAxis i f).field = s.field := rfl
@[simp] theorem State.modAxis_tracks (s : State) (i : AxisId) (f : Axis → Axis) : (s.modAxis i f).tracks = s.tracks := rfl
@[simp] theorem State.modAxis_burst (s : State) (i : AxisId) (f : Axis → Axis) : (s.modAxis i f).burst = s.burst := rfl
@[simp] theorem State.modAxis_groups (s : State) (i : AxisId) (f : Axis → Axis) : (s.modAxis i f).groups = s.groups := rfl
@[simp] theorem State.modAxis_locks (s : State) (i : AxisId) (f : Axis → Axis) : (s.modAxis i f).locks = s.locks := rfl
@[simp] theorem State.modAxis_permits (s : State) (i : AxisId) (f : Axis → Axis) : (s.modAxis i f).permits = s.permits := rfl
@[simp] theorem State.modAxis_wind (s : State) (i : AxisId) (f : Axis → Axis) : (s.modAxis i f).wind = s.wind := rfl
@[simp] theorem State.modAxis_stow (s : State) (i : AxisId) (f : Axis → Axis) : (s.modAxis i f).stow = s.stow := rfl
@[simp] theorem State.modAxis_heat (s : State) (i : AxisId) (f : Axis → Axis) : (s.modAxis i f).heat = s.heat := rfl
@[simp] theorem State.modAxis_feed (s : State) (i : AxisId) (f : Axis → Axis) : (s.modAxis i f).feed = s.feed := rfl
@[simp] theorem State.modAxis_store (s : State) (i : AxisId) (f : Axis → Axis) : (s.modAxis i f).store = s.store := rfl
@[simp] theorem State.modAxis_links (s : State) (i : AxisId) (f : Axis → Axis) : (s.modAxis i f).links = s.links := rfl
@[simp] theorem State.modAxis_pace (s : State) (i : AxisId) (f : Axis → Axis) : (s.modAxis i f).pace = s.pace := rfl
@[simp] theorem State.modAxis_freeCount (s : State) (i : AxisId) (f : Axis → Axis) : (s.modAxis i f).freeCount = s.freeCount := rfl
@[simp] theorem State.modAxis_scratch (s : State) (i : AxisId) (f : Axis → Axis) : (s.modAxis i f).scratch = s.scratch := rfl
@[simp] theorem State.modAxis_pending (s : State) (i : AxisId) (f : Axis → Axis) : (s.modAxis i f).pending = s.pending := rfl

@[simp] theorem State.modAnt_powered (s : State) (a : Ant) (f : Antenna → Antenna) : (s.modAnt a f).powered = s.powered := rfl
@[simp] theorem State.modAnt_clock (s : State) (a : Ant) (f : Antenna → Antenna) : (s.modAnt a f).clock = s.clock := rfl
@[simp] theorem State.modAnt_field (s : State) (a : Ant) (f : Antenna → Antenna) : (s.modAnt a f).field = s.field := rfl
@[simp] theorem State.modAnt_tracks (s : State) (a : Ant) (f : Antenna → Antenna) : (s.modAnt a f).tracks = s.tracks := rfl
@[simp] theorem State.modAnt_burst (s : State) (a : Ant) (f : Antenna → Antenna) : (s.modAnt a f).burst = s.burst := rfl
@[simp] theorem State.modAnt_groups (s : State) (a : Ant) (f : Antenna → Antenna) : (s.modAnt a f).groups = s.groups := rfl
@[simp] theorem State.modAnt_locks (s : State) (a : Ant) (f : Antenna → Antenna) : (s.modAnt a f).locks = s.locks := rfl
@[simp] theorem State.modAnt_permits (s : State) (a : Ant) (f : Antenna → Antenna) : (s.modAnt a f).permits = s.permits := rfl
@[simp] theorem State.modAnt_wind (s : State) (a : Ant) (f : Antenna → Antenna) : (s.modAnt a f).wind = s.wind := rfl
@[simp] theorem State.modAnt_stow (s : State) (a : Ant) (f : Antenna → Antenna) : (s.modAnt a f).stow = s.stow := rfl
@[simp] theorem State.modAnt_heat (s : State) (a : Ant) (f : Antenna → Antenna) : (s.modAnt a f).heat = s.heat := rfl
@[simp] theorem State.modAnt_feed (s : State) (a : Ant) (f : Antenna → Antenna) : (s.modAnt a f).feed = s.feed := rfl
@[simp] theorem State.modAnt_store (s : State) (a : Ant) (f : Antenna → Antenna) : (s.modAnt a f).store = s.store := rfl
@[simp] theorem State.modAnt_links (s : State) (a : Ant) (f : Antenna → Antenna) : (s.modAnt a f).links = s.links := rfl
@[simp] theorem State.modAnt_pace (s : State) (a : Ant) (f : Antenna → Antenna) : (s.modAnt a f).pace = s.pace := rfl
@[simp] theorem State.modAnt_freeCount (s : State) (a : Ant) (f : Antenna → Antenna) : (s.modAnt a f).freeCount = s.freeCount := rfl
@[simp] theorem State.modAnt_scratch (s : State) (a : Ant) (f : Antenna → Antenna) : (s.modAnt a f).scratch = s.scratch := rfl
@[simp] theorem State.modAnt_pending (s : State) (a : Ant) (f : Antenna → Antenna) : (s.modAnt a f).pending = s.pending := rfl

@[simp] theorem State.modAntIn_powered (s : State) (a : Ant) (f : AntInputs → AntInputs) : (s.modAntIn a f).powered = s.powered := rfl
@[simp] theorem State.modAntIn_clock (s : State) (a : Ant) (f : AntInputs → AntInputs) : (s.modAntIn a f).clock = s.clock := rfl
@[simp] theorem State.modAntIn_ants (s : State) (a : Ant) (f : AntInputs → AntInputs) : (s.modAntIn a f).ants = s.ants := rfl
@[simp] theorem State.modAntIn_tracks (s : State) (a : Ant) (f : AntInputs → AntInputs) : (s.modAntIn a f).tracks = s.tracks := rfl
@[simp] theorem State.modAntIn_burst (s : State) (a : Ant) (f : AntInputs → AntInputs) : (s.modAntIn a f).burst = s.burst := rfl
@[simp] theorem State.modAntIn_groups (s : State) (a : Ant) (f : AntInputs → AntInputs) : (s.modAntIn a f).groups = s.groups := rfl
@[simp] theorem State.modAntIn_locks (s : State) (a : Ant) (f : AntInputs → AntInputs) : (s.modAntIn a f).locks = s.locks := rfl
@[simp] theorem State.modAntIn_permits (s : State) (a : Ant) (f : AntInputs → AntInputs) : (s.modAntIn a f).permits = s.permits := rfl
@[simp] theorem State.modAntIn_wind (s : State) (a : Ant) (f : AntInputs → AntInputs) : (s.modAntIn a f).wind = s.wind := rfl
@[simp] theorem State.modAntIn_stow (s : State) (a : Ant) (f : AntInputs → AntInputs) : (s.modAntIn a f).stow = s.stow := rfl
@[simp] theorem State.modAntIn_heat (s : State) (a : Ant) (f : AntInputs → AntInputs) : (s.modAntIn a f).heat = s.heat := rfl
@[simp] theorem State.modAntIn_feed (s : State) (a : Ant) (f : AntInputs → AntInputs) : (s.modAntIn a f).feed = s.feed := rfl
@[simp] theorem State.modAntIn_store (s : State) (a : Ant) (f : AntInputs → AntInputs) : (s.modAntIn a f).store = s.store := rfl
@[simp] theorem State.modAntIn_links (s : State) (a : Ant) (f : AntInputs → AntInputs) : (s.modAntIn a f).links = s.links := rfl
@[simp] theorem State.modAntIn_pace (s : State) (a : Ant) (f : AntInputs → AntInputs) : (s.modAntIn a f).pace = s.pace := rfl
@[simp] theorem State.modAntIn_freeCount (s : State) (a : Ant) (f : AntInputs → AntInputs) : (s.modAntIn a f).freeCount = s.freeCount := rfl
@[simp] theorem State.modAntIn_scratch (s : State) (a : Ant) (f : AntInputs → AntInputs) : (s.modAntIn a f).scratch = s.scratch := rfl
@[simp] theorem State.modAntIn_pending (s : State) (a : Ant) (f : AntInputs → AntInputs) : (s.modAntIn a f).pending = s.pending := rfl

@[simp] theorem State.modAxisIn_powered (s : State) (i : AxisId) (f : AxisInputs → AxisInputs) : (s.modAxisIn i f).powered = s.powered := rfl
@[simp] theorem State.modAxisIn_clock (s : State) (i : AxisId) (f : AxisInputs → AxisInputs) : (s.modAxisIn i f).clock = s.clock := rfl
@[simp] theorem State.modAxisIn_ants (s : State) (i : AxisId) (f : AxisInputs → AxisInputs) : (s.modAxisIn i f).ants = s.ants := rfl
@[simp] theorem State.modAxisIn_tracks (s : State) (i : AxisId) (f : AxisInputs → AxisInputs) : (s.modAxisIn i f).tracks = s.tracks := rfl
@[simp] theorem State.modAxisIn_burst (s : State) (i : AxisId) (f : AxisInputs → AxisInputs) : (s.modAxisIn i f).burst = s.burst := rfl
@[simp] theorem State.modAxisIn_groups (s : State) (i : AxisId) (f : AxisInputs → AxisInputs) : (s.modAxisIn i f).groups = s.groups := rfl
@[simp] theorem State.modAxisIn_locks (s : State) (i : AxisId) (f : AxisInputs → AxisInputs) : (s.modAxisIn i f).locks = s.locks := rfl
@[simp] theorem State.modAxisIn_permits (s : State) (i : AxisId) (f : AxisInputs → AxisInputs) : (s.modAxisIn i f).permits = s.permits := rfl
@[simp] theorem State.modAxisIn_wind (s : State) (i : AxisId) (f : AxisInputs → AxisInputs) : (s.modAxisIn i f).wind = s.wind := rfl
@[simp] theorem State.modAxisIn_stow (s : State) (i : AxisId) (f : AxisInputs → AxisInputs) : (s.modAxisIn i f).stow = s.stow := rfl
@[simp] theorem State.modAxisIn_heat (s : State) (i : AxisId) (f : AxisInputs → AxisInputs) : (s.modAxisIn i f).heat = s.heat := rfl
@[simp] theorem State.modAxisIn_feed (s : State) (i : AxisId) (f : AxisInputs → AxisInputs) : (s.modAxisIn i f).feed = s.feed := rfl
@[simp] theorem State.modAxisIn_store (s : State) (i : AxisId) (f : AxisInputs → AxisInputs) : (s.modAxisIn i f).store = s.store := rfl
@[simp] theorem State.modAxisIn_links (s : State) (i : AxisId) (f : AxisInputs → AxisInputs) : (s.modAxisIn i f).links = s.links := rfl
@[simp] theorem State.modAxisIn_pace (s : State) (i : AxisId) (f : AxisInputs → AxisInputs) : (s.modAxisIn i f).pace = s.pace := rfl
@[simp] theorem State.modAxisIn_freeCount (s : State) (i : AxisId) (f : AxisInputs → AxisInputs) : (s.modAxisIn i f).freeCount = s.freeCount := rfl
@[simp] theorem State.modAxisIn_scratch (s : State) (i : AxisId) (f : AxisInputs → AxisInputs) : (s.modAxisIn i f).scratch = s.scratch := rfl
@[simp] theorem State.modAxisIn_pending (s : State) (i : AxisId) (f : AxisInputs → AxisInputs) : (s.modAxisIn i f).pending = s.pending := rfl

@[simp] theorem State.modTrack_powered (s : State) (a : Ant) (f : Track → Track) : (s.modTrack a f).powered = s.powered := rfl
@[simp] theorem State.modTrack_clock (s : State) (a : Ant) (f : Track → Track) : (s.modTrack a f).clock = s.clock := rfl
@[simp] theorem State.modTrack_field (s : State) (a : Ant) (f : Track → Track) : (s.modTrack a f).field = s.field := rfl
@[simp] theorem State.modTrack_ants (s : State) (a : Ant) (f : Track → Track) : (s.modTrack a f).ants = s.ants := rfl
@[simp] theorem State.modTrack_burst (s : State) (a : Ant) (f : Track → Track) : (s.modTrack a f).burst = s.burst := rfl
@[simp] theorem State.modTrack_groups (s : State) (a : Ant) (f : Track → Track) : (s.modTrack a f).groups = s.groups := rfl
@[simp] theorem State.modTrack_locks (s : State) (a : Ant) (f : Track → Track) : (s.modTrack a f).locks = s.locks := rfl
@[simp] theorem State.modTrack_permits (s : State) (a : Ant) (f : Track → Track) : (s.modTrack a f).permits = s.permits := rfl
@[simp] theorem State.modTrack_wind (s : State) (a : Ant) (f : Track → Track) : (s.modTrack a f).wind = s.wind := rfl
@[simp] theorem State.modTrack_stow (s : State) (a : Ant) (f : Track → Track) : (s.modTrack a f).stow = s.stow := rfl
@[simp] theorem State.modTrack_heat (s : State) (a : Ant) (f : Track → Track) : (s.modTrack a f).heat = s.heat := rfl
@[simp] theorem State.modTrack_feed (s : State) (a : Ant) (f : Track → Track) : (s.modTrack a f).feed = s.feed := rfl
@[simp] theorem State.modTrack_store (s : State) (a : Ant) (f : Track → Track) : (s.modTrack a f).store = s.store := rfl
@[simp] theorem State.modTrack_links (s : State) (a : Ant) (f : Track → Track) : (s.modTrack a f).links = s.links := rfl
@[simp] theorem State.modTrack_pace (s : State) (a : Ant) (f : Track → Track) : (s.modTrack a f).pace = s.pace := rfl
@[simp] theorem State.modTrack_freeCount (s : State) (a : Ant) (f : Track → Track) : (s.modTrack a f).freeCount = s.freeCount := rfl
@[simp] theorem State.modTrack_scratch (s : State) (a : Ant) (f : Track → Track) : (s.modTrack a f).scratch = s.scratch := rfl
@[simp] theorem State.modTrack_pending (s : State) (a : Ant) (f : Track → Track) : (s.modTrack a f).pending = s.pending := rfl

@[simp] theorem State.modGroup_powered (s : State) (g : GroupId) (f : Group → Group) : (s.modGroup g f).powered = s.powered := rfl
@[simp] theorem State.modGroup_clock (s : State) (g : GroupId) (f : Group → Group) : (s.modGroup g f).clock = s.clock := rfl
@[simp] theorem State.modGroup_field (s : State) (g : GroupId) (f : Group → Group) : (s.modGroup g f).field = s.field := rfl
@[simp] theorem State.modGroup_ants (s : State) (g : GroupId) (f : Group → Group) : (s.modGroup g f).ants = s.ants := rfl
@[simp] theorem State.modGroup_tracks (s : State) (g : GroupId) (f : Group → Group) : (s.modGroup g f).tracks = s.tracks := rfl
@[simp] theorem State.modGroup_burst (s : State) (g : GroupId) (f : Group → Group) : (s.modGroup g f).burst = s.burst := rfl
@[simp] theorem State.modGroup_locks (s : State) (g : GroupId) (f : Group → Group) : (s.modGroup g f).locks = s.locks := rfl
@[simp] theorem State.modGroup_permits (s : State) (g : GroupId) (f : Group → Group) : (s.modGroup g f).permits = s.permits := rfl
@[simp] theorem State.modGroup_wind (s : State) (g : GroupId) (f : Group → Group) : (s.modGroup g f).wind = s.wind := rfl
@[simp] theorem State.modGroup_stow (s : State) (g : GroupId) (f : Group → Group) : (s.modGroup g f).stow = s.stow := rfl
@[simp] theorem State.modGroup_heat (s : State) (g : GroupId) (f : Group → Group) : (s.modGroup g f).heat = s.heat := rfl
@[simp] theorem State.modGroup_feed (s : State) (g : GroupId) (f : Group → Group) : (s.modGroup g f).feed = s.feed := rfl
@[simp] theorem State.modGroup_store (s : State) (g : GroupId) (f : Group → Group) : (s.modGroup g f).store = s.store := rfl
@[simp] theorem State.modGroup_links (s : State) (g : GroupId) (f : Group → Group) : (s.modGroup g f).links = s.links := rfl
@[simp] theorem State.modGroup_pace (s : State) (g : GroupId) (f : Group → Group) : (s.modGroup g f).pace = s.pace := rfl
@[simp] theorem State.modGroup_freeCount (s : State) (g : GroupId) (f : Group → Group) : (s.modGroup g f).freeCount = s.freeCount := rfl
@[simp] theorem State.modGroup_scratch (s : State) (g : GroupId) (f : Group → Group) : (s.modGroup g f).scratch = s.scratch := rfl
@[simp] theorem State.modGroup_pending (s : State) (g : GroupId) (f : Group → Group) : (s.modGroup g f).pending = s.pending := rfl

@[simp] theorem State.modAuthority_powered (s : State) (a : Ant) (f : Authority → Authority) : (s.modAuthority a f).powered = s.powered := rfl
@[simp] theorem State.modAuthority_clock (s : State) (a : Ant) (f : Authority → Authority) : (s.modAuthority a f).clock = s.clock := rfl
@[simp] theorem State.modAuthority_field (s : State) (a : Ant) (f : Authority → Authority) : (s.modAuthority a f).field = s.field := rfl
@[simp] theorem State.modAuthority_ants (s : State) (a : Ant) (f : Authority → Authority) : (s.modAuthority a f).ants = s.ants := rfl
@[simp] theorem State.modAuthority_tracks (s : State) (a : Ant) (f : Authority → Authority) : (s.modAuthority a f).tracks = s.tracks := rfl
@[simp] theorem State.modAuthority_burst (s : State) (a : Ant) (f : Authority → Authority) : (s.modAuthority a f).burst = s.burst := rfl
@[simp] theorem State.modAuthority_groups (s : State) (a : Ant) (f : Authority → Authority) : (s.modAuthority a f).groups = s.groups := rfl
@[simp] theorem State.modAuthority_permits (s : State) (a : Ant) (f : Authority → Authority) : (s.modAuthority a f).permits = s.permits := rfl
@[simp] theorem State.modAuthority_wind (s : State) (a : Ant) (f : Authority → Authority) : (s.modAuthority a f).wind = s.wind := rfl
@[simp] theorem State.modAuthority_stow (s : State) (a : Ant) (f : Authority → Authority) : (s.modAuthority a f).stow = s.stow := rfl
@[simp] theorem State.modAuthority_heat (s : State) (a : Ant) (f : Authority → Authority) : (s.modAuthority a f).heat = s.heat := rfl
@[simp] theorem State.modAuthority_feed (s : State) (a : Ant) (f : Authority → Authority) : (s.modAuthority a f).feed = s.feed := rfl
@[simp] theorem State.modAuthority_store (s : State) (a : Ant) (f : Authority → Authority) : (s.modAuthority a f).store = s.store := rfl
@[simp] theorem State.modAuthority_links (s : State) (a : Ant) (f : Authority → Authority) : (s.modAuthority a f).links = s.links := rfl
@[simp] theorem State.modAuthority_pace (s : State) (a : Ant) (f : Authority → Authority) : (s.modAuthority a f).pace = s.pace := rfl
@[simp] theorem State.modAuthority_freeCount (s : State) (a : Ant) (f : Authority → Authority) : (s.modAuthority a f).freeCount = s.freeCount := rfl
@[simp] theorem State.modAuthority_scratch (s : State) (a : Ant) (f : Authority → Authority) : (s.modAuthority a f).scratch = s.scratch := rfl
@[simp] theorem State.modAuthority_pending (s : State) (a : Ant) (f : Authority → Authority) : (s.modAuthority a f).pending = s.pending := rfl

@[simp] theorem State.modHorn_powered (s : State) (a : Ant) (f : Horn → Horn) : (s.modHorn a f).powered = s.powered := rfl
@[simp] theorem State.modHorn_clock (s : State) (a : Ant) (f : Horn → Horn) : (s.modHorn a f).clock = s.clock := rfl
@[simp] theorem State.modHorn_field (s : State) (a : Ant) (f : Horn → Horn) : (s.modHorn a f).field = s.field := rfl
@[simp] theorem State.modHorn_ants (s : State) (a : Ant) (f : Horn → Horn) : (s.modHorn a f).ants = s.ants := rfl
@[simp] theorem State.modHorn_tracks (s : State) (a : Ant) (f : Horn → Horn) : (s.modHorn a f).tracks = s.tracks := rfl
@[simp] theorem State.modHorn_burst (s : State) (a : Ant) (f : Horn → Horn) : (s.modHorn a f).burst = s.burst := rfl
@[simp] theorem State.modHorn_groups (s : State) (a : Ant) (f : Horn → Horn) : (s.modHorn a f).groups = s.groups := rfl
@[simp] theorem State.modHorn_permits (s : State) (a : Ant) (f : Horn → Horn) : (s.modHorn a f).permits = s.permits := rfl
@[simp] theorem State.modHorn_wind (s : State) (a : Ant) (f : Horn → Horn) : (s.modHorn a f).wind = s.wind := rfl
@[simp] theorem State.modHorn_stow (s : State) (a : Ant) (f : Horn → Horn) : (s.modHorn a f).stow = s.stow := rfl
@[simp] theorem State.modHorn_heat (s : State) (a : Ant) (f : Horn → Horn) : (s.modHorn a f).heat = s.heat := rfl
@[simp] theorem State.modHorn_feed (s : State) (a : Ant) (f : Horn → Horn) : (s.modHorn a f).feed = s.feed := rfl
@[simp] theorem State.modHorn_store (s : State) (a : Ant) (f : Horn → Horn) : (s.modHorn a f).store = s.store := rfl
@[simp] theorem State.modHorn_links (s : State) (a : Ant) (f : Horn → Horn) : (s.modHorn a f).links = s.links := rfl
@[simp] theorem State.modHorn_pace (s : State) (a : Ant) (f : Horn → Horn) : (s.modHorn a f).pace = s.pace := rfl
@[simp] theorem State.modHorn_freeCount (s : State) (a : Ant) (f : Horn → Horn) : (s.modHorn a f).freeCount = s.freeCount := rfl
@[simp] theorem State.modHorn_scratch (s : State) (a : Ant) (f : Horn → Horn) : (s.modHorn a f).scratch = s.scratch := rfl
@[simp] theorem State.modHorn_pending (s : State) (a : Ant) (f : Horn → Horn) : (s.modHorn a f).pending = s.pending := rfl

@[simp] theorem State.modStow_powered (s : State) (a : Ant) (f : StowRecord → StowRecord) : (s.modStow a f).powered = s.powered := rfl
@[simp] theorem State.modStow_clock (s : State) (a : Ant) (f : StowRecord → StowRecord) : (s.modStow a f).clock = s.clock := rfl
@[simp] theorem State.modStow_field (s : State) (a : Ant) (f : StowRecord → StowRecord) : (s.modStow a f).field = s.field := rfl
@[simp] theorem State.modStow_ants (s : State) (a : Ant) (f : StowRecord → StowRecord) : (s.modStow a f).ants = s.ants := rfl
@[simp] theorem State.modStow_tracks (s : State) (a : Ant) (f : StowRecord → StowRecord) : (s.modStow a f).tracks = s.tracks := rfl
@[simp] theorem State.modStow_burst (s : State) (a : Ant) (f : StowRecord → StowRecord) : (s.modStow a f).burst = s.burst := rfl
@[simp] theorem State.modStow_groups (s : State) (a : Ant) (f : StowRecord → StowRecord) : (s.modStow a f).groups = s.groups := rfl
@[simp] theorem State.modStow_locks (s : State) (a : Ant) (f : StowRecord → StowRecord) : (s.modStow a f).locks = s.locks := rfl
@[simp] theorem State.modStow_permits (s : State) (a : Ant) (f : StowRecord → StowRecord) : (s.modStow a f).permits = s.permits := rfl
@[simp] theorem State.modStow_wind (s : State) (a : Ant) (f : StowRecord → StowRecord) : (s.modStow a f).wind = s.wind := rfl
@[simp] theorem State.modStow_heat (s : State) (a : Ant) (f : StowRecord → StowRecord) : (s.modStow a f).heat = s.heat := rfl
@[simp] theorem State.modStow_feed (s : State) (a : Ant) (f : StowRecord → StowRecord) : (s.modStow a f).feed = s.feed := rfl
@[simp] theorem State.modStow_store (s : State) (a : Ant) (f : StowRecord → StowRecord) : (s.modStow a f).store = s.store := rfl
@[simp] theorem State.modStow_links (s : State) (a : Ant) (f : StowRecord → StowRecord) : (s.modStow a f).links = s.links := rfl
@[simp] theorem State.modStow_pace (s : State) (a : Ant) (f : StowRecord → StowRecord) : (s.modStow a f).pace = s.pace := rfl
@[simp] theorem State.modStow_freeCount (s : State) (a : Ant) (f : StowRecord → StowRecord) : (s.modStow a f).freeCount = s.freeCount := rfl
@[simp] theorem State.modStow_scratch (s : State) (a : Ant) (f : StowRecord → StowRecord) : (s.modStow a f).scratch = s.scratch := rfl
@[simp] theorem State.modStow_pending (s : State) (a : Ant) (f : StowRecord → StowRecord) : (s.modStow a f).pending = s.pending := rfl

@[simp] theorem State.setWave_powered (s : State) (w : Option Wave) : (s.setWave w).powered = s.powered := rfl
@[simp] theorem State.setWave_clock (s : State) (w : Option Wave) : (s.setWave w).clock = s.clock := rfl
@[simp] theorem State.setWave_field (s : State) (w : Option Wave) : (s.setWave w).field = s.field := rfl
@[simp] theorem State.setWave_ants (s : State) (w : Option Wave) : (s.setWave w).ants = s.ants := rfl
@[simp] theorem State.setWave_tracks (s : State) (w : Option Wave) : (s.setWave w).tracks = s.tracks := rfl
@[simp] theorem State.setWave_burst (s : State) (w : Option Wave) : (s.setWave w).burst = s.burst := rfl
@[simp] theorem State.setWave_groups (s : State) (w : Option Wave) : (s.setWave w).groups = s.groups := rfl
@[simp] theorem State.setWave_locks (s : State) (w : Option Wave) : (s.setWave w).locks = s.locks := rfl
@[simp] theorem State.setWave_permits (s : State) (w : Option Wave) : (s.setWave w).permits = s.permits := rfl
@[simp] theorem State.setWave_wind (s : State) (w : Option Wave) : (s.setWave w).wind = s.wind := rfl
@[simp] theorem State.setWave_heat (s : State) (w : Option Wave) : (s.setWave w).heat = s.heat := rfl
@[simp] theorem State.setWave_feed (s : State) (w : Option Wave) : (s.setWave w).feed = s.feed := rfl
@[simp] theorem State.setWave_store (s : State) (w : Option Wave) : (s.setWave w).store = s.store := rfl
@[simp] theorem State.setWave_links (s : State) (w : Option Wave) : (s.setWave w).links = s.links := rfl
@[simp] theorem State.setWave_pace (s : State) (w : Option Wave) : (s.setWave w).pace = s.pace := rfl
@[simp] theorem State.setWave_freeCount (s : State) (w : Option Wave) : (s.setWave w).freeCount = s.freeCount := rfl
@[simp] theorem State.setWave_scratch (s : State) (w : Option Wave) : (s.setWave w).scratch = s.scratch := rfl
@[simp] theorem State.setWave_pending (s : State) (w : Option Wave) : (s.setWave w).pending = s.pending := rfl

@[simp] theorem State.setZone_powered (s : State) (z : ZoneId) (v : Zone) : (s.setZone z v).powered = s.powered := rfl
@[simp] theorem State.setZone_clock (s : State) (z : ZoneId) (v : Zone) : (s.setZone z v).clock = s.clock := rfl
@[simp] theorem State.setZone_field (s : State) (z : ZoneId) (v : Zone) : (s.setZone z v).field = s.field := rfl
@[simp] theorem State.setZone_ants (s : State) (z : ZoneId) (v : Zone) : (s.setZone z v).ants = s.ants := rfl
@[simp] theorem State.setZone_tracks (s : State) (z : ZoneId) (v : Zone) : (s.setZone z v).tracks = s.tracks := rfl
@[simp] theorem State.setZone_burst (s : State) (z : ZoneId) (v : Zone) : (s.setZone z v).burst = s.burst := rfl
@[simp] theorem State.setZone_groups (s : State) (z : ZoneId) (v : Zone) : (s.setZone z v).groups = s.groups := rfl
@[simp] theorem State.setZone_locks (s : State) (z : ZoneId) (v : Zone) : (s.setZone z v).locks = s.locks := rfl
@[simp] theorem State.setZone_permits (s : State) (z : ZoneId) (v : Zone) : (s.setZone z v).permits = s.permits := rfl
@[simp] theorem State.setZone_wind (s : State) (z : ZoneId) (v : Zone) : (s.setZone z v).wind = s.wind := rfl
@[simp] theorem State.setZone_stow (s : State) (z : ZoneId) (v : Zone) : (s.setZone z v).stow = s.stow := rfl
@[simp] theorem State.setZone_feed (s : State) (z : ZoneId) (v : Zone) : (s.setZone z v).feed = s.feed := rfl
@[simp] theorem State.setZone_store (s : State) (z : ZoneId) (v : Zone) : (s.setZone z v).store = s.store := rfl
@[simp] theorem State.setZone_links (s : State) (z : ZoneId) (v : Zone) : (s.setZone z v).links = s.links := rfl
@[simp] theorem State.setZone_pace (s : State) (z : ZoneId) (v : Zone) : (s.setZone z v).pace = s.pace := rfl
@[simp] theorem State.setZone_freeCount (s : State) (z : ZoneId) (v : Zone) : (s.setZone z v).freeCount = s.freeCount := rfl
@[simp] theorem State.setZone_scratch (s : State) (z : ZoneId) (v : Zone) : (s.setZone z v).scratch = s.scratch := rfl
@[simp] theorem State.setZone_pending (s : State) (z : ZoneId) (v : Zone) : (s.setZone z v).pending = s.pending := rfl

@[simp] theorem State.modZone_powered (s : State) (z : ZoneId) (f : Zone → Zone) : (s.modZone z f).powered = s.powered := rfl
@[simp] theorem State.modZone_clock (s : State) (z : ZoneId) (f : Zone → Zone) : (s.modZone z f).clock = s.clock := rfl
@[simp] theorem State.modZone_field (s : State) (z : ZoneId) (f : Zone → Zone) : (s.modZone z f).field = s.field := rfl
@[simp] theorem State.modZone_ants (s : State) (z : ZoneId) (f : Zone → Zone) : (s.modZone z f).ants = s.ants := rfl
@[simp] theorem State.modZone_tracks (s : State) (z : ZoneId) (f : Zone → Zone) : (s.modZone z f).tracks = s.tracks := rfl
@[simp] theorem State.modZone_burst (s : State) (z : ZoneId) (f : Zone → Zone) : (s.modZone z f).burst = s.burst := rfl
@[simp] theorem State.modZone_groups (s : State) (z : ZoneId) (f : Zone → Zone) : (s.modZone z f).groups = s.groups := rfl
@[simp] theorem State.modZone_locks (s : State) (z : ZoneId) (f : Zone → Zone) : (s.modZone z f).locks = s.locks := rfl
@[simp] theorem State.modZone_permits (s : State) (z : ZoneId) (f : Zone → Zone) : (s.modZone z f).permits = s.permits := rfl
@[simp] theorem State.modZone_wind (s : State) (z : ZoneId) (f : Zone → Zone) : (s.modZone z f).wind = s.wind := rfl
@[simp] theorem State.modZone_stow (s : State) (z : ZoneId) (f : Zone → Zone) : (s.modZone z f).stow = s.stow := rfl
@[simp] theorem State.modZone_feed (s : State) (z : ZoneId) (f : Zone → Zone) : (s.modZone z f).feed = s.feed := rfl
@[simp] theorem State.modZone_store (s : State) (z : ZoneId) (f : Zone → Zone) : (s.modZone z f).store = s.store := rfl
@[simp] theorem State.modZone_links (s : State) (z : ZoneId) (f : Zone → Zone) : (s.modZone z f).links = s.links := rfl
@[simp] theorem State.modZone_pace (s : State) (z : ZoneId) (f : Zone → Zone) : (s.modZone z f).pace = s.pace := rfl
@[simp] theorem State.modZone_freeCount (s : State) (z : ZoneId) (f : Zone → Zone) : (s.modZone z f).freeCount = s.freeCount := rfl
@[simp] theorem State.modZone_scratch (s : State) (z : ZoneId) (f : Zone → Zone) : (s.modZone z f).scratch = s.scratch := rfl
@[simp] theorem State.modZone_pending (s : State) (z : ZoneId) (f : Zone → Zone) : (s.modZone z f).pending = s.pending := rfl

@[simp] theorem State.modIce_powered (s : State) (a : Ant) (f : Ice → Ice) : (s.modIce a f).powered = s.powered := rfl
@[simp] theorem State.modIce_clock (s : State) (a : Ant) (f : Ice → Ice) : (s.modIce a f).clock = s.clock := rfl
@[simp] theorem State.modIce_field (s : State) (a : Ant) (f : Ice → Ice) : (s.modIce a f).field = s.field := rfl
@[simp] theorem State.modIce_ants (s : State) (a : Ant) (f : Ice → Ice) : (s.modIce a f).ants = s.ants := rfl
@[simp] theorem State.modIce_tracks (s : State) (a : Ant) (f : Ice → Ice) : (s.modIce a f).tracks = s.tracks := rfl
@[simp] theorem State.modIce_burst (s : State) (a : Ant) (f : Ice → Ice) : (s.modIce a f).burst = s.burst := rfl
@[simp] theorem State.modIce_groups (s : State) (a : Ant) (f : Ice → Ice) : (s.modIce a f).groups = s.groups := rfl
@[simp] theorem State.modIce_locks (s : State) (a : Ant) (f : Ice → Ice) : (s.modIce a f).locks = s.locks := rfl
@[simp] theorem State.modIce_permits (s : State) (a : Ant) (f : Ice → Ice) : (s.modIce a f).permits = s.permits := rfl
@[simp] theorem State.modIce_wind (s : State) (a : Ant) (f : Ice → Ice) : (s.modIce a f).wind = s.wind := rfl
@[simp] theorem State.modIce_stow (s : State) (a : Ant) (f : Ice → Ice) : (s.modIce a f).stow = s.stow := rfl
@[simp] theorem State.modIce_feed (s : State) (a : Ant) (f : Ice → Ice) : (s.modIce a f).feed = s.feed := rfl
@[simp] theorem State.modIce_store (s : State) (a : Ant) (f : Ice → Ice) : (s.modIce a f).store = s.store := rfl
@[simp] theorem State.modIce_links (s : State) (a : Ant) (f : Ice → Ice) : (s.modIce a f).links = s.links := rfl
@[simp] theorem State.modIce_pace (s : State) (a : Ant) (f : Ice → Ice) : (s.modIce a f).pace = s.pace := rfl
@[simp] theorem State.modIce_freeCount (s : State) (a : Ant) (f : Ice → Ice) : (s.modIce a f).freeCount = s.freeCount := rfl
@[simp] theorem State.modIce_scratch (s : State) (a : Ant) (f : Ice → Ice) : (s.modIce a f).scratch = s.scratch := rfl
@[simp] theorem State.modIce_pending (s : State) (a : Ant) (f : Ice → Ice) : (s.modIce a f).pending = s.pending := rfl

@[simp] theorem State.setStanding_powered (s : State) (i : AxisId) (g : Standing) : (s.setStanding i g).powered = s.powered := rfl
@[simp] theorem State.setStanding_clock (s : State) (i : AxisId) (g : Standing) : (s.setStanding i g).clock = s.clock := rfl
@[simp] theorem State.setStanding_field (s : State) (i : AxisId) (g : Standing) : (s.setStanding i g).field = s.field := rfl
@[simp] theorem State.setStanding_ants (s : State) (i : AxisId) (g : Standing) : (s.setStanding i g).ants = s.ants := rfl
@[simp] theorem State.setStanding_tracks (s : State) (i : AxisId) (g : Standing) : (s.setStanding i g).tracks = s.tracks := rfl
@[simp] theorem State.setStanding_burst (s : State) (i : AxisId) (g : Standing) : (s.setStanding i g).burst = s.burst := rfl
@[simp] theorem State.setStanding_groups (s : State) (i : AxisId) (g : Standing) : (s.setStanding i g).groups = s.groups := rfl
@[simp] theorem State.setStanding_locks (s : State) (i : AxisId) (g : Standing) : (s.setStanding i g).locks = s.locks := rfl
@[simp] theorem State.setStanding_permits (s : State) (i : AxisId) (g : Standing) : (s.setStanding i g).permits = s.permits := rfl
@[simp] theorem State.setStanding_wind (s : State) (i : AxisId) (g : Standing) : (s.setStanding i g).wind = s.wind := rfl
@[simp] theorem State.setStanding_stow (s : State) (i : AxisId) (g : Standing) : (s.setStanding i g).stow = s.stow := rfl
@[simp] theorem State.setStanding_heat (s : State) (i : AxisId) (g : Standing) : (s.setStanding i g).heat = s.heat := rfl
@[simp] theorem State.setStanding_store (s : State) (i : AxisId) (g : Standing) : (s.setStanding i g).store = s.store := rfl
@[simp] theorem State.setStanding_links (s : State) (i : AxisId) (g : Standing) : (s.setStanding i g).links = s.links := rfl
@[simp] theorem State.setStanding_pace (s : State) (i : AxisId) (g : Standing) : (s.setStanding i g).pace = s.pace := rfl
@[simp] theorem State.setStanding_freeCount (s : State) (i : AxisId) (g : Standing) : (s.setStanding i g).freeCount = s.freeCount := rfl
@[simp] theorem State.setStanding_scratch (s : State) (i : AxisId) (g : Standing) : (s.setStanding i g).scratch = s.scratch := rfl
@[simp] theorem State.setStanding_pending (s : State) (i : AxisId) (g : Standing) : (s.setStanding i g).pending = s.pending := rfl

@[simp] theorem State.modFeed_powered (s : State) (f : Feed → Feed) : (s.modFeed f).powered = s.powered := rfl
@[simp] theorem State.modFeed_clock (s : State) (f : Feed → Feed) : (s.modFeed f).clock = s.clock := rfl
@[simp] theorem State.modFeed_field (s : State) (f : Feed → Feed) : (s.modFeed f).field = s.field := rfl
@[simp] theorem State.modFeed_ants (s : State) (f : Feed → Feed) : (s.modFeed f).ants = s.ants := rfl
@[simp] theorem State.modFeed_tracks (s : State) (f : Feed → Feed) : (s.modFeed f).tracks = s.tracks := rfl
@[simp] theorem State.modFeed_burst (s : State) (f : Feed → Feed) : (s.modFeed f).burst = s.burst := rfl
@[simp] theorem State.modFeed_groups (s : State) (f : Feed → Feed) : (s.modFeed f).groups = s.groups := rfl
@[simp] theorem State.modFeed_locks (s : State) (f : Feed → Feed) : (s.modFeed f).locks = s.locks := rfl
@[simp] theorem State.modFeed_permits (s : State) (f : Feed → Feed) : (s.modFeed f).permits = s.permits := rfl
@[simp] theorem State.modFeed_wind (s : State) (f : Feed → Feed) : (s.modFeed f).wind = s.wind := rfl
@[simp] theorem State.modFeed_stow (s : State) (f : Feed → Feed) : (s.modFeed f).stow = s.stow := rfl
@[simp] theorem State.modFeed_heat (s : State) (f : Feed → Feed) : (s.modFeed f).heat = s.heat := rfl
@[simp] theorem State.modFeed_store (s : State) (f : Feed → Feed) : (s.modFeed f).store = s.store := rfl
@[simp] theorem State.modFeed_links (s : State) (f : Feed → Feed) : (s.modFeed f).links = s.links := rfl
@[simp] theorem State.modFeed_pace (s : State) (f : Feed → Feed) : (s.modFeed f).pace = s.pace := rfl
@[simp] theorem State.modFeed_freeCount (s : State) (f : Feed → Feed) : (s.modFeed f).freeCount = s.freeCount := rfl
@[simp] theorem State.modFeed_scratch (s : State) (f : Feed → Feed) : (s.modFeed f).scratch = s.scratch := rfl
@[simp] theorem State.modFeed_pending (s : State) (f : Feed → Feed) : (s.modFeed f).pending = s.pending := rfl

@[simp] theorem State.modStore_powered (s : State) (f : Store → Store) : (s.modStore f).powered = s.powered := rfl
@[simp] theorem State.modStore_clock (s : State) (f : Store → Store) : (s.modStore f).clock = s.clock := rfl
@[simp] theorem State.modStore_field (s : State) (f : Store → Store) : (s.modStore f).field = s.field := rfl
@[simp] theorem State.modStore_ants (s : State) (f : Store → Store) : (s.modStore f).ants = s.ants := rfl
@[simp] theorem State.modStore_tracks (s : State) (f : Store → Store) : (s.modStore f).tracks = s.tracks := rfl
@[simp] theorem State.modStore_burst (s : State) (f : Store → Store) : (s.modStore f).burst = s.burst := rfl
@[simp] theorem State.modStore_groups (s : State) (f : Store → Store) : (s.modStore f).groups = s.groups := rfl
@[simp] theorem State.modStore_locks (s : State) (f : Store → Store) : (s.modStore f).locks = s.locks := rfl
@[simp] theorem State.modStore_permits (s : State) (f : Store → Store) : (s.modStore f).permits = s.permits := rfl
@[simp] theorem State.modStore_wind (s : State) (f : Store → Store) : (s.modStore f).wind = s.wind := rfl
@[simp] theorem State.modStore_stow (s : State) (f : Store → Store) : (s.modStore f).stow = s.stow := rfl
@[simp] theorem State.modStore_heat (s : State) (f : Store → Store) : (s.modStore f).heat = s.heat := rfl
@[simp] theorem State.modStore_feed (s : State) (f : Store → Store) : (s.modStore f).feed = s.feed := rfl
@[simp] theorem State.modStore_links (s : State) (f : Store → Store) : (s.modStore f).links = s.links := rfl
@[simp] theorem State.modStore_pace (s : State) (f : Store → Store) : (s.modStore f).pace = s.pace := rfl
@[simp] theorem State.modStore_freeCount (s : State) (f : Store → Store) : (s.modStore f).freeCount = s.freeCount := rfl
@[simp] theorem State.modStore_scratch (s : State) (f : Store → Store) : (s.modStore f).scratch = s.scratch := rfl
@[simp] theorem State.modStore_pending (s : State) (f : Store → Store) : (s.modStore f).pending = s.pending := rfl

@[simp] theorem State.modLink_powered (s : State) (l : Link) (f : LinkRecord → LinkRecord) : (s.modLink l f).powered = s.powered := rfl
@[simp] theorem State.modLink_clock (s : State) (l : Link) (f : LinkRecord → LinkRecord) : (s.modLink l f).clock = s.clock := rfl
@[simp] theorem State.modLink_field (s : State) (l : Link) (f : LinkRecord → LinkRecord) : (s.modLink l f).field = s.field := rfl
@[simp] theorem State.modLink_ants (s : State) (l : Link) (f : LinkRecord → LinkRecord) : (s.modLink l f).ants = s.ants := rfl
@[simp] theorem State.modLink_tracks (s : State) (l : Link) (f : LinkRecord → LinkRecord) : (s.modLink l f).tracks = s.tracks := rfl
@[simp] theorem State.modLink_burst (s : State) (l : Link) (f : LinkRecord → LinkRecord) : (s.modLink l f).burst = s.burst := rfl
@[simp] theorem State.modLink_groups (s : State) (l : Link) (f : LinkRecord → LinkRecord) : (s.modLink l f).groups = s.groups := rfl
@[simp] theorem State.modLink_locks (s : State) (l : Link) (f : LinkRecord → LinkRecord) : (s.modLink l f).locks = s.locks := rfl
@[simp] theorem State.modLink_permits (s : State) (l : Link) (f : LinkRecord → LinkRecord) : (s.modLink l f).permits = s.permits := rfl
@[simp] theorem State.modLink_wind (s : State) (l : Link) (f : LinkRecord → LinkRecord) : (s.modLink l f).wind = s.wind := rfl
@[simp] theorem State.modLink_stow (s : State) (l : Link) (f : LinkRecord → LinkRecord) : (s.modLink l f).stow = s.stow := rfl
@[simp] theorem State.modLink_heat (s : State) (l : Link) (f : LinkRecord → LinkRecord) : (s.modLink l f).heat = s.heat := rfl
@[simp] theorem State.modLink_feed (s : State) (l : Link) (f : LinkRecord → LinkRecord) : (s.modLink l f).feed = s.feed := rfl
@[simp] theorem State.modLink_store (s : State) (l : Link) (f : LinkRecord → LinkRecord) : (s.modLink l f).store = s.store := rfl
@[simp] theorem State.modLink_pace (s : State) (l : Link) (f : LinkRecord → LinkRecord) : (s.modLink l f).pace = s.pace := rfl
@[simp] theorem State.modLink_freeCount (s : State) (l : Link) (f : LinkRecord → LinkRecord) : (s.modLink l f).freeCount = s.freeCount := rfl
@[simp] theorem State.modLink_scratch (s : State) (l : Link) (f : LinkRecord → LinkRecord) : (s.modLink l f).scratch = s.scratch := rfl
@[simp] theorem State.modLink_pending (s : State) (l : Link) (f : LinkRecord → LinkRecord) : (s.modLink l f).pending = s.pending := rfl

@[simp] theorem State.markFreed_powered (s : State) : (s.markFreed).powered = s.powered := rfl
@[simp] theorem State.markFreed_clock (s : State) : (s.markFreed).clock = s.clock := rfl
@[simp] theorem State.markFreed_field (s : State) : (s.markFreed).field = s.field := rfl
@[simp] theorem State.markFreed_ants (s : State) : (s.markFreed).ants = s.ants := rfl
@[simp] theorem State.markFreed_tracks (s : State) : (s.markFreed).tracks = s.tracks := rfl
@[simp] theorem State.markFreed_burst (s : State) : (s.markFreed).burst = s.burst := rfl
@[simp] theorem State.markFreed_groups (s : State) : (s.markFreed).groups = s.groups := rfl
@[simp] theorem State.markFreed_locks (s : State) : (s.markFreed).locks = s.locks := rfl
@[simp] theorem State.markFreed_permits (s : State) : (s.markFreed).permits = s.permits := rfl
@[simp] theorem State.markFreed_wind (s : State) : (s.markFreed).wind = s.wind := rfl
@[simp] theorem State.markFreed_stow (s : State) : (s.markFreed).stow = s.stow := rfl
@[simp] theorem State.markFreed_heat (s : State) : (s.markFreed).heat = s.heat := rfl
@[simp] theorem State.markFreed_feed (s : State) : (s.markFreed).feed = s.feed := rfl
@[simp] theorem State.markFreed_store (s : State) : (s.markFreed).store = s.store := rfl
@[simp] theorem State.markFreed_links (s : State) : (s.markFreed).links = s.links := rfl
@[simp] theorem State.markFreed_pace (s : State) : (s.markFreed).pace = s.pace := rfl
@[simp] theorem State.markFreed_freeCount (s : State) : (s.markFreed).freeCount = s.freeCount := rfl
@[simp] theorem State.markFreed_pending (s : State) : (s.markFreed).pending = s.pending := rfl

@[simp] theorem State.markForm_powered (s : State) : (s.markForm).powered = s.powered := rfl
@[simp] theorem State.markForm_clock (s : State) : (s.markForm).clock = s.clock := rfl
@[simp] theorem State.markForm_field (s : State) : (s.markForm).field = s.field := rfl
@[simp] theorem State.markForm_ants (s : State) : (s.markForm).ants = s.ants := rfl
@[simp] theorem State.markForm_tracks (s : State) : (s.markForm).tracks = s.tracks := rfl
@[simp] theorem State.markForm_burst (s : State) : (s.markForm).burst = s.burst := rfl
@[simp] theorem State.markForm_groups (s : State) : (s.markForm).groups = s.groups := rfl
@[simp] theorem State.markForm_locks (s : State) : (s.markForm).locks = s.locks := rfl
@[simp] theorem State.markForm_permits (s : State) : (s.markForm).permits = s.permits := rfl
@[simp] theorem State.markForm_wind (s : State) : (s.markForm).wind = s.wind := rfl
@[simp] theorem State.markForm_stow (s : State) : (s.markForm).stow = s.stow := rfl
@[simp] theorem State.markForm_heat (s : State) : (s.markForm).heat = s.heat := rfl
@[simp] theorem State.markForm_feed (s : State) : (s.markForm).feed = s.feed := rfl
@[simp] theorem State.markForm_store (s : State) : (s.markForm).store = s.store := rfl
@[simp] theorem State.markForm_links (s : State) : (s.markForm).links = s.links := rfl
@[simp] theorem State.markForm_pace (s : State) : (s.markForm).pace = s.pace := rfl
@[simp] theorem State.markForm_freeCount (s : State) : (s.markForm).freeCount = s.freeCount := rfl
@[simp] theorem State.markForm_pending (s : State) : (s.markForm).pending = s.pending := rfl

@[simp] theorem State.raise_powered (s : State) (w : FlagWord) : (s.raise w).powered = s.powered := rfl
@[simp] theorem State.raise_clock (s : State) (w : FlagWord) : (s.raise w).clock = s.clock := rfl
@[simp] theorem State.raise_field (s : State) (w : FlagWord) : (s.raise w).field = s.field := rfl
@[simp] theorem State.raise_ants (s : State) (w : FlagWord) : (s.raise w).ants = s.ants := rfl
@[simp] theorem State.raise_tracks (s : State) (w : FlagWord) : (s.raise w).tracks = s.tracks := rfl
@[simp] theorem State.raise_burst (s : State) (w : FlagWord) : (s.raise w).burst = s.burst := rfl
@[simp] theorem State.raise_groups (s : State) (w : FlagWord) : (s.raise w).groups = s.groups := rfl
@[simp] theorem State.raise_locks (s : State) (w : FlagWord) : (s.raise w).locks = s.locks := rfl
@[simp] theorem State.raise_permits (s : State) (w : FlagWord) : (s.raise w).permits = s.permits := rfl
@[simp] theorem State.raise_wind (s : State) (w : FlagWord) : (s.raise w).wind = s.wind := rfl
@[simp] theorem State.raise_stow (s : State) (w : FlagWord) : (s.raise w).stow = s.stow := rfl
@[simp] theorem State.raise_heat (s : State) (w : FlagWord) : (s.raise w).heat = s.heat := rfl
@[simp] theorem State.raise_feed (s : State) (w : FlagWord) : (s.raise w).feed = s.feed := rfl
@[simp] theorem State.raise_store (s : State) (w : FlagWord) : (s.raise w).store = s.store := rfl
@[simp] theorem State.raise_links (s : State) (w : FlagWord) : (s.raise w).links = s.links := rfl
@[simp] theorem State.raise_pace (s : State) (w : FlagWord) : (s.raise w).pace = s.pace := rfl
@[simp] theorem State.raise_freeCount (s : State) (w : FlagWord) : (s.raise w).freeCount = s.freeCount := rfl
@[simp] theorem State.raise_pending (s : State) (w : FlagWord) : (s.raise w).pending = s.pending := rfl

@[simp] theorem State.setFlags_powered (s : State) (w : FlagWord) : (s.setFlags w).powered = s.powered := rfl
@[simp] theorem State.setFlags_clock (s : State) (w : FlagWord) : (s.setFlags w).clock = s.clock := rfl
@[simp] theorem State.setFlags_field (s : State) (w : FlagWord) : (s.setFlags w).field = s.field := rfl
@[simp] theorem State.setFlags_ants (s : State) (w : FlagWord) : (s.setFlags w).ants = s.ants := rfl
@[simp] theorem State.setFlags_tracks (s : State) (w : FlagWord) : (s.setFlags w).tracks = s.tracks := rfl
@[simp] theorem State.setFlags_burst (s : State) (w : FlagWord) : (s.setFlags w).burst = s.burst := rfl
@[simp] theorem State.setFlags_groups (s : State) (w : FlagWord) : (s.setFlags w).groups = s.groups := rfl
@[simp] theorem State.setFlags_locks (s : State) (w : FlagWord) : (s.setFlags w).locks = s.locks := rfl
@[simp] theorem State.setFlags_permits (s : State) (w : FlagWord) : (s.setFlags w).permits = s.permits := rfl
@[simp] theorem State.setFlags_wind (s : State) (w : FlagWord) : (s.setFlags w).wind = s.wind := rfl
@[simp] theorem State.setFlags_stow (s : State) (w : FlagWord) : (s.setFlags w).stow = s.stow := rfl
@[simp] theorem State.setFlags_heat (s : State) (w : FlagWord) : (s.setFlags w).heat = s.heat := rfl
@[simp] theorem State.setFlags_feed (s : State) (w : FlagWord) : (s.setFlags w).feed = s.feed := rfl
@[simp] theorem State.setFlags_store (s : State) (w : FlagWord) : (s.setFlags w).store = s.store := rfl
@[simp] theorem State.setFlags_pace (s : State) (w : FlagWord) : (s.setFlags w).pace = s.pace := rfl
@[simp] theorem State.setFlags_freeCount (s : State) (w : FlagWord) : (s.setFlags w).freeCount = s.freeCount := rfl
@[simp] theorem State.setFlags_scratch (s : State) (w : FlagWord) : (s.setFlags w).scratch = s.scratch := rfl
@[simp] theorem State.setFlags_pending (s : State) (w : FlagWord) : (s.setFlags w).pending = s.pending := rfl
@[simp] theorem State.setEarly_powered (s : State) (w : FlagWord) : (s.setEarly w).powered = s.powered := rfl
@[simp] theorem State.setEarly_clock (s : State) (w : FlagWord) : (s.setEarly w).clock = s.clock := rfl
@[simp] theorem State.setEarly_field (s : State) (w : FlagWord) : (s.setEarly w).field = s.field := rfl
@[simp] theorem State.setEarly_ants (s : State) (w : FlagWord) : (s.setEarly w).ants = s.ants := rfl
@[simp] theorem State.setEarly_tracks (s : State) (w : FlagWord) : (s.setEarly w).tracks = s.tracks := rfl
@[simp] theorem State.setEarly_burst (s : State) (w : FlagWord) : (s.setEarly w).burst = s.burst := rfl
@[simp] theorem State.setEarly_groups (s : State) (w : FlagWord) : (s.setEarly w).groups = s.groups := rfl
@[simp] theorem State.setEarly_locks (s : State) (w : FlagWord) : (s.setEarly w).locks = s.locks := rfl
@[simp] theorem State.setEarly_permits (s : State) (w : FlagWord) : (s.setEarly w).permits = s.permits := rfl
@[simp] theorem State.setEarly_wind (s : State) (w : FlagWord) : (s.setEarly w).wind = s.wind := rfl
@[simp] theorem State.setEarly_stow (s : State) (w : FlagWord) : (s.setEarly w).stow = s.stow := rfl
@[simp] theorem State.setEarly_heat (s : State) (w : FlagWord) : (s.setEarly w).heat = s.heat := rfl
@[simp] theorem State.setEarly_feed (s : State) (w : FlagWord) : (s.setEarly w).feed = s.feed := rfl
@[simp] theorem State.setEarly_store (s : State) (w : FlagWord) : (s.setEarly w).store = s.store := rfl
@[simp] theorem State.setEarly_pace (s : State) (w : FlagWord) : (s.setEarly w).pace = s.pace := rfl
@[simp] theorem State.setEarly_freeCount (s : State) (w : FlagWord) : (s.setEarly w).freeCount = s.freeCount := rfl
@[simp] theorem State.setEarly_pending (s : State) (w : FlagWord) : (s.setEarly w).pending = s.pending := rfl
@[simp] theorem State.setEarly_scratch (s : State) (w : FlagWord) :
    (s.setEarly w).scratch = { s.scratch with early := s.scratch.early ||| w } := rfl

@[simp] theorem State.clearScratch_powered (s : State) : (s.clearScratch).powered = s.powered := rfl
@[simp] theorem State.clearScratch_clock (s : State) : (s.clearScratch).clock = s.clock := rfl
@[simp] theorem State.clearScratch_field (s : State) : (s.clearScratch).field = s.field := rfl
@[simp] theorem State.clearScratch_ants (s : State) : (s.clearScratch).ants = s.ants := rfl
@[simp] theorem State.clearScratch_tracks (s : State) : (s.clearScratch).tracks = s.tracks := rfl
@[simp] theorem State.clearScratch_burst (s : State) : (s.clearScratch).burst = s.burst := rfl
@[simp] theorem State.clearScratch_groups (s : State) : (s.clearScratch).groups = s.groups := rfl
@[simp] theorem State.clearScratch_locks (s : State) : (s.clearScratch).locks = s.locks := rfl
@[simp] theorem State.clearScratch_permits (s : State) : (s.clearScratch).permits = s.permits := rfl
@[simp] theorem State.clearScratch_wind (s : State) : (s.clearScratch).wind = s.wind := rfl
@[simp] theorem State.clearScratch_stow (s : State) : (s.clearScratch).stow = s.stow := rfl
@[simp] theorem State.clearScratch_heat (s : State) : (s.clearScratch).heat = s.heat := rfl
@[simp] theorem State.clearScratch_feed (s : State) : (s.clearScratch).feed = s.feed := rfl
@[simp] theorem State.clearScratch_store (s : State) : (s.clearScratch).store = s.store := rfl
@[simp] theorem State.clearScratch_links (s : State) : (s.clearScratch).links = s.links := rfl
@[simp] theorem State.clearScratch_pace (s : State) : (s.clearScratch).pace = s.pace := rfl
@[simp] theorem State.clearScratch_freeCount (s : State) : (s.clearScratch).freeCount = s.freeCount := rfl
@[simp] theorem State.clearScratch_pending (s : State) : (s.clearScratch).pending = s.pending := rfl

@[simp] theorem State.clearMarks_powered (s : State) : (s.clearMarks).powered = s.powered := rfl
@[simp] theorem State.clearMarks_clock (s : State) : (s.clearMarks).clock = s.clock := rfl
@[simp] theorem State.clearMarks_field (s : State) : (s.clearMarks).field = s.field := rfl
@[simp] theorem State.clearMarks_ants (s : State) : (s.clearMarks).ants = s.ants := rfl
@[simp] theorem State.clearMarks_tracks (s : State) : (s.clearMarks).tracks = s.tracks := rfl
@[simp] theorem State.clearMarks_burst (s : State) : (s.clearMarks).burst = s.burst := rfl
@[simp] theorem State.clearMarks_groups (s : State) : (s.clearMarks).groups = s.groups := rfl
@[simp] theorem State.clearMarks_locks (s : State) : (s.clearMarks).locks = s.locks := rfl
@[simp] theorem State.clearMarks_permits (s : State) : (s.clearMarks).permits = s.permits := rfl
@[simp] theorem State.clearMarks_wind (s : State) : (s.clearMarks).wind = s.wind := rfl
@[simp] theorem State.clearMarks_stow (s : State) : (s.clearMarks).stow = s.stow := rfl
@[simp] theorem State.clearMarks_heat (s : State) : (s.clearMarks).heat = s.heat := rfl
@[simp] theorem State.clearMarks_feed (s : State) : (s.clearMarks).feed = s.feed := rfl
@[simp] theorem State.clearMarks_store (s : State) : (s.clearMarks).store = s.store := rfl
@[simp] theorem State.clearMarks_links (s : State) : (s.clearMarks).links = s.links := rfl
@[simp] theorem State.clearMarks_pace (s : State) : (s.clearMarks).pace = s.pace := rfl
@[simp] theorem State.clearMarks_freeCount (s : State) : (s.clearMarks).freeCount = s.freeCount := rfl
@[simp] theorem State.clearMarks_pending (s : State) : (s.clearMarks).pending = s.pending := rfl

/-! ### Accessors of items an update does not name -/

@[simp] theorem State.track_setAnt_other (s : State) (a : Ant) (v : Antenna) (b : Ant) : (s.setAnt a v).track b = s.track b := rfl
@[simp] theorem State.stowOf_setAnt_other (s : State) (a : Ant) (v : Antenna) (b : Ant) : (s.setAnt a v).stowOf b = s.stowOf b := rfl
@[simp] theorem State.zone_setAnt_other (s : State) (a : Ant) (v : Antenna) (y : ZoneId) : (s.setAnt a v).zone y = s.zone y := rfl
@[simp] theorem State.ice_setAnt_other (s : State) (a : Ant) (v : Antenna) (b : Ant) : (s.setAnt a v).ice b = s.ice b := rfl
@[simp] theorem State.iceClass_setAnt_other (s : State) (a : Ant) (v : Antenna) (b : Ant) : (s.setAnt a v).iceClass b = s.iceClass b := rfl
@[simp] theorem State.standing_setAnt_other (s : State) (a : Ant) (v : Antenna) (j : AxisId) : (s.setAnt a v).standing j = s.standing j := rfl
@[simp] theorem State.link_setAnt_other (s : State) (a : Ant) (v : Antenna) (k : Link) : (s.setAnt a v).link k = s.link k := rfl
@[simp] theorem State.axisIn_setAnt_other (s : State) (a : Ant) (v : Antenna) (j : AxisId) : (s.setAnt a v).axisIn j = s.axisIn j := rfl
@[simp] theorem State.now_setAnt_other (s : State) (a : Ant) (v : Antenna) : (s.setAnt a v).now = s.now := rfl
@[simp] theorem State.track_setAxis_other (s : State) (i : AxisId) (x : Axis) (b : Ant) : (s.setAxis i x).track b = s.track b := rfl
@[simp] theorem State.stowOf_setAxis_other (s : State) (i : AxisId) (x : Axis) (b : Ant) : (s.setAxis i x).stowOf b = s.stowOf b := rfl
@[simp] theorem State.zone_setAxis_other (s : State) (i : AxisId) (x : Axis) (y : ZoneId) : (s.setAxis i x).zone y = s.zone y := rfl
@[simp] theorem State.ice_setAxis_other (s : State) (i : AxisId) (x : Axis) (b : Ant) : (s.setAxis i x).ice b = s.ice b := rfl
@[simp] theorem State.iceClass_setAxis_other (s : State) (i : AxisId) (x : Axis) (b : Ant) : (s.setAxis i x).iceClass b = s.iceClass b := rfl
@[simp] theorem State.standing_setAxis_other (s : State) (i : AxisId) (x : Axis) (j : AxisId) : (s.setAxis i x).standing j = s.standing j := rfl
@[simp] theorem State.link_setAxis_other (s : State) (i : AxisId) (x : Axis) (k : Link) : (s.setAxis i x).link k = s.link k := rfl
@[simp] theorem State.axisIn_setAxis_other (s : State) (i : AxisId) (x : Axis) (j : AxisId) : (s.setAxis i x).axisIn j = s.axisIn j := rfl
@[simp] theorem State.now_setAxis_other (s : State) (i : AxisId) (x : Axis) : (s.setAxis i x).now = s.now := rfl
@[simp] theorem State.track_modAxis_other (s : State) (i : AxisId) (f : Axis → Axis) (b : Ant) : (s.modAxis i f).track b = s.track b := rfl
@[simp] theorem State.stowOf_modAxis_other (s : State) (i : AxisId) (f : Axis → Axis) (b : Ant) : (s.modAxis i f).stowOf b = s.stowOf b := rfl
@[simp] theorem State.zone_modAxis_other (s : State) (i : AxisId) (f : Axis → Axis) (y : ZoneId) : (s.modAxis i f).zone y = s.zone y := rfl
@[simp] theorem State.ice_modAxis_other (s : State) (i : AxisId) (f : Axis → Axis) (b : Ant) : (s.modAxis i f).ice b = s.ice b := rfl
@[simp] theorem State.iceClass_modAxis_other (s : State) (i : AxisId) (f : Axis → Axis) (b : Ant) : (s.modAxis i f).iceClass b = s.iceClass b := rfl
@[simp] theorem State.standing_modAxis_other (s : State) (i : AxisId) (f : Axis → Axis) (j : AxisId) : (s.modAxis i f).standing j = s.standing j := rfl
@[simp] theorem State.link_modAxis_other (s : State) (i : AxisId) (f : Axis → Axis) (k : Link) : (s.modAxis i f).link k = s.link k := rfl
@[simp] theorem State.axisIn_modAxis_other (s : State) (i : AxisId) (f : Axis → Axis) (j : AxisId) : (s.modAxis i f).axisIn j = s.axisIn j := rfl
@[simp] theorem State.now_modAxis_other (s : State) (i : AxisId) (f : Axis → Axis) : (s.modAxis i f).now = s.now := rfl
@[simp] theorem State.track_modAnt_other (s : State) (a : Ant) (f : Antenna → Antenna) (b : Ant) : (s.modAnt a f).track b = s.track b := rfl
@[simp] theorem State.stowOf_modAnt_other (s : State) (a : Ant) (f : Antenna → Antenna) (b : Ant) : (s.modAnt a f).stowOf b = s.stowOf b := rfl
@[simp] theorem State.zone_modAnt_other (s : State) (a : Ant) (f : Antenna → Antenna) (y : ZoneId) : (s.modAnt a f).zone y = s.zone y := rfl
@[simp] theorem State.ice_modAnt_other (s : State) (a : Ant) (f : Antenna → Antenna) (b : Ant) : (s.modAnt a f).ice b = s.ice b := rfl
@[simp] theorem State.iceClass_modAnt_other (s : State) (a : Ant) (f : Antenna → Antenna) (b : Ant) : (s.modAnt a f).iceClass b = s.iceClass b := rfl
@[simp] theorem State.standing_modAnt_other (s : State) (a : Ant) (f : Antenna → Antenna) (j : AxisId) : (s.modAnt a f).standing j = s.standing j := rfl
@[simp] theorem State.link_modAnt_other (s : State) (a : Ant) (f : Antenna → Antenna) (k : Link) : (s.modAnt a f).link k = s.link k := rfl
@[simp] theorem State.axisIn_modAnt_other (s : State) (a : Ant) (f : Antenna → Antenna) (j : AxisId) : (s.modAnt a f).axisIn j = s.axisIn j := rfl
@[simp] theorem State.now_modAnt_other (s : State) (a : Ant) (f : Antenna → Antenna) : (s.modAnt a f).now = s.now := rfl
@[simp] theorem State.axis_modAntIn_other (s : State) (a : Ant) (f : AntInputs → AntInputs) (j : AxisId) : (s.modAntIn a f).axis j = s.axis j := rfl
@[simp] theorem State.ready_modAntIn_other (s : State) (a : Ant) (f : AntInputs → AntInputs) (b : Ant) : (s.modAntIn a f).ready b = s.ready b := rfl
@[simp] theorem State.track_modAntIn_other (s : State) (a : Ant) (f : AntInputs → AntInputs) (b : Ant) : (s.modAntIn a f).track b = s.track b := rfl
@[simp] theorem State.stowOf_modAntIn_other (s : State) (a : Ant) (f : AntInputs → AntInputs) (b : Ant) : (s.modAntIn a f).stowOf b = s.stowOf b := rfl
@[simp] theorem State.zone_modAntIn_other (s : State) (a : Ant) (f : AntInputs → AntInputs) (y : ZoneId) : (s.modAntIn a f).zone y = s.zone y := rfl
@[simp] theorem State.ice_modAntIn_other (s : State) (a : Ant) (f : AntInputs → AntInputs) (b : Ant) : (s.modAntIn a f).ice b = s.ice b := rfl
@[simp] theorem State.iceClass_modAntIn_other (s : State) (a : Ant) (f : AntInputs → AntInputs) (b : Ant) : (s.modAntIn a f).iceClass b = s.iceClass b := rfl
@[simp] theorem State.standing_modAntIn_other (s : State) (a : Ant) (f : AntInputs → AntInputs) (j : AxisId) : (s.modAntIn a f).standing j = s.standing j := rfl
@[simp] theorem State.link_modAntIn_other (s : State) (a : Ant) (f : AntInputs → AntInputs) (k : Link) : (s.modAntIn a f).link k = s.link k := rfl
@[simp] theorem State.now_modAntIn_other (s : State) (a : Ant) (f : AntInputs → AntInputs) : (s.modAntIn a f).now = s.now := rfl
@[simp] theorem State.axis_modAxisIn_other (s : State) (i : AxisId) (f : AxisInputs → AxisInputs) (j : AxisId) : (s.modAxisIn i f).axis j = s.axis j := rfl
@[simp] theorem State.ready_modAxisIn_other (s : State) (i : AxisId) (f : AxisInputs → AxisInputs) (b : Ant) : (s.modAxisIn i f).ready b = s.ready b := rfl
@[simp] theorem State.track_modAxisIn_other (s : State) (i : AxisId) (f : AxisInputs → AxisInputs) (b : Ant) : (s.modAxisIn i f).track b = s.track b := rfl
@[simp] theorem State.stowOf_modAxisIn_other (s : State) (i : AxisId) (f : AxisInputs → AxisInputs) (b : Ant) : (s.modAxisIn i f).stowOf b = s.stowOf b := rfl
@[simp] theorem State.zone_modAxisIn_other (s : State) (i : AxisId) (f : AxisInputs → AxisInputs) (y : ZoneId) : (s.modAxisIn i f).zone y = s.zone y := rfl
@[simp] theorem State.ice_modAxisIn_other (s : State) (i : AxisId) (f : AxisInputs → AxisInputs) (b : Ant) : (s.modAxisIn i f).ice b = s.ice b := rfl
@[simp] theorem State.iceClass_modAxisIn_other (s : State) (i : AxisId) (f : AxisInputs → AxisInputs) (b : Ant) : (s.modAxisIn i f).iceClass b = s.iceClass b := rfl
@[simp] theorem State.standing_modAxisIn_other (s : State) (i : AxisId) (f : AxisInputs → AxisInputs) (j : AxisId) : (s.modAxisIn i f).standing j = s.standing j := rfl
@[simp] theorem State.link_modAxisIn_other (s : State) (i : AxisId) (f : AxisInputs → AxisInputs) (k : Link) : (s.modAxisIn i f).link k = s.link k := rfl
@[simp] theorem State.now_modAxisIn_other (s : State) (i : AxisId) (f : AxisInputs → AxisInputs) : (s.modAxisIn i f).now = s.now := rfl
@[simp] theorem State.axis_modTrack_other (s : State) (a : Ant) (f : Track → Track) (j : AxisId) : (s.modTrack a f).axis j = s.axis j := rfl
@[simp] theorem State.ready_modTrack_other (s : State) (a : Ant) (f : Track → Track) (b : Ant) : (s.modTrack a f).ready b = s.ready b := rfl
@[simp] theorem State.stowOf_modTrack_other (s : State) (a : Ant) (f : Track → Track) (b : Ant) : (s.modTrack a f).stowOf b = s.stowOf b := rfl
@[simp] theorem State.zone_modTrack_other (s : State) (a : Ant) (f : Track → Track) (y : ZoneId) : (s.modTrack a f).zone y = s.zone y := rfl
@[simp] theorem State.ice_modTrack_other (s : State) (a : Ant) (f : Track → Track) (b : Ant) : (s.modTrack a f).ice b = s.ice b := rfl
@[simp] theorem State.iceClass_modTrack_other (s : State) (a : Ant) (f : Track → Track) (b : Ant) : (s.modTrack a f).iceClass b = s.iceClass b := rfl
@[simp] theorem State.standing_modTrack_other (s : State) (a : Ant) (f : Track → Track) (j : AxisId) : (s.modTrack a f).standing j = s.standing j := rfl
@[simp] theorem State.link_modTrack_other (s : State) (a : Ant) (f : Track → Track) (k : Link) : (s.modTrack a f).link k = s.link k := rfl
@[simp] theorem State.axisIn_modTrack_other (s : State) (a : Ant) (f : Track → Track) (j : AxisId) : (s.modTrack a f).axisIn j = s.axisIn j := rfl
@[simp] theorem State.now_modTrack_other (s : State) (a : Ant) (f : Track → Track) : (s.modTrack a f).now = s.now := rfl
@[simp] theorem State.axis_modGroup_other (s : State) (g : GroupId) (f : Group → Group) (j : AxisId) : (s.modGroup g f).axis j = s.axis j := rfl
@[simp] theorem State.ready_modGroup_other (s : State) (g : GroupId) (f : Group → Group) (b : Ant) : (s.modGroup g f).ready b = s.ready b := rfl
@[simp] theorem State.track_modGroup_other (s : State) (g : GroupId) (f : Group → Group) (b : Ant) : (s.modGroup g f).track b = s.track b := rfl
@[simp] theorem State.stowOf_modGroup_other (s : State) (g : GroupId) (f : Group → Group) (b : Ant) : (s.modGroup g f).stowOf b = s.stowOf b := rfl
@[simp] theorem State.zone_modGroup_other (s : State) (g : GroupId) (f : Group → Group) (y : ZoneId) : (s.modGroup g f).zone y = s.zone y := rfl
@[simp] theorem State.ice_modGroup_other (s : State) (g : GroupId) (f : Group → Group) (b : Ant) : (s.modGroup g f).ice b = s.ice b := rfl
@[simp] theorem State.iceClass_modGroup_other (s : State) (g : GroupId) (f : Group → Group) (b : Ant) : (s.modGroup g f).iceClass b = s.iceClass b := rfl
@[simp] theorem State.standing_modGroup_other (s : State) (g : GroupId) (f : Group → Group) (j : AxisId) : (s.modGroup g f).standing j = s.standing j := rfl
@[simp] theorem State.link_modGroup_other (s : State) (g : GroupId) (f : Group → Group) (k : Link) : (s.modGroup g f).link k = s.link k := rfl
@[simp] theorem State.axisIn_modGroup_other (s : State) (g : GroupId) (f : Group → Group) (j : AxisId) : (s.modGroup g f).axisIn j = s.axisIn j := rfl
@[simp] theorem State.now_modGroup_other (s : State) (g : GroupId) (f : Group → Group) : (s.modGroup g f).now = s.now := rfl
@[simp] theorem State.axis_modAuthority_other (s : State) (a : Ant) (f : Authority → Authority) (j : AxisId) : (s.modAuthority a f).axis j = s.axis j := rfl
@[simp] theorem State.ready_modAuthority_other (s : State) (a : Ant) (f : Authority → Authority) (b : Ant) : (s.modAuthority a f).ready b = s.ready b := rfl
@[simp] theorem State.track_modAuthority_other (s : State) (a : Ant) (f : Authority → Authority) (b : Ant) : (s.modAuthority a f).track b = s.track b := rfl
@[simp] theorem State.stowOf_modAuthority_other (s : State) (a : Ant) (f : Authority → Authority) (b : Ant) : (s.modAuthority a f).stowOf b = s.stowOf b := rfl
@[simp] theorem State.zone_modAuthority_other (s : State) (a : Ant) (f : Authority → Authority) (y : ZoneId) : (s.modAuthority a f).zone y = s.zone y := rfl
@[simp] theorem State.ice_modAuthority_other (s : State) (a : Ant) (f : Authority → Authority) (b : Ant) : (s.modAuthority a f).ice b = s.ice b := rfl
@[simp] theorem State.iceClass_modAuthority_other (s : State) (a : Ant) (f : Authority → Authority) (b : Ant) : (s.modAuthority a f).iceClass b = s.iceClass b := rfl
@[simp] theorem State.standing_modAuthority_other (s : State) (a : Ant) (f : Authority → Authority) (j : AxisId) : (s.modAuthority a f).standing j = s.standing j := rfl
@[simp] theorem State.link_modAuthority_other (s : State) (a : Ant) (f : Authority → Authority) (k : Link) : (s.modAuthority a f).link k = s.link k := rfl
@[simp] theorem State.axisIn_modAuthority_other (s : State) (a : Ant) (f : Authority → Authority) (j : AxisId) : (s.modAuthority a f).axisIn j = s.axisIn j := rfl
@[simp] theorem State.now_modAuthority_other (s : State) (a : Ant) (f : Authority → Authority) : (s.modAuthority a f).now = s.now := rfl
@[simp] theorem State.axis_modHorn_other (s : State) (a : Ant) (f : Horn → Horn) (j : AxisId) : (s.modHorn a f).axis j = s.axis j := rfl
@[simp] theorem State.ready_modHorn_other (s : State) (a : Ant) (f : Horn → Horn) (b : Ant) : (s.modHorn a f).ready b = s.ready b := rfl
@[simp] theorem State.track_modHorn_other (s : State) (a : Ant) (f : Horn → Horn) (b : Ant) : (s.modHorn a f).track b = s.track b := rfl
@[simp] theorem State.stowOf_modHorn_other (s : State) (a : Ant) (f : Horn → Horn) (b : Ant) : (s.modHorn a f).stowOf b = s.stowOf b := rfl
@[simp] theorem State.zone_modHorn_other (s : State) (a : Ant) (f : Horn → Horn) (y : ZoneId) : (s.modHorn a f).zone y = s.zone y := rfl
@[simp] theorem State.ice_modHorn_other (s : State) (a : Ant) (f : Horn → Horn) (b : Ant) : (s.modHorn a f).ice b = s.ice b := rfl
@[simp] theorem State.iceClass_modHorn_other (s : State) (a : Ant) (f : Horn → Horn) (b : Ant) : (s.modHorn a f).iceClass b = s.iceClass b := rfl
@[simp] theorem State.standing_modHorn_other (s : State) (a : Ant) (f : Horn → Horn) (j : AxisId) : (s.modHorn a f).standing j = s.standing j := rfl
@[simp] theorem State.link_modHorn_other (s : State) (a : Ant) (f : Horn → Horn) (k : Link) : (s.modHorn a f).link k = s.link k := rfl
@[simp] theorem State.axisIn_modHorn_other (s : State) (a : Ant) (f : Horn → Horn) (j : AxisId) : (s.modHorn a f).axisIn j = s.axisIn j := rfl
@[simp] theorem State.now_modHorn_other (s : State) (a : Ant) (f : Horn → Horn) : (s.modHorn a f).now = s.now := rfl
@[simp] theorem State.axis_modStow_other (s : State) (a : Ant) (f : StowRecord → StowRecord) (j : AxisId) : (s.modStow a f).axis j = s.axis j := rfl
@[simp] theorem State.ready_modStow_other (s : State) (a : Ant) (f : StowRecord → StowRecord) (b : Ant) : (s.modStow a f).ready b = s.ready b := rfl
@[simp] theorem State.track_modStow_other (s : State) (a : Ant) (f : StowRecord → StowRecord) (b : Ant) : (s.modStow a f).track b = s.track b := rfl
@[simp] theorem State.zone_modStow_other (s : State) (a : Ant) (f : StowRecord → StowRecord) (y : ZoneId) : (s.modStow a f).zone y = s.zone y := rfl
@[simp] theorem State.ice_modStow_other (s : State) (a : Ant) (f : StowRecord → StowRecord) (b : Ant) : (s.modStow a f).ice b = s.ice b := rfl
@[simp] theorem State.iceClass_modStow_other (s : State) (a : Ant) (f : StowRecord → StowRecord) (b : Ant) : (s.modStow a f).iceClass b = s.iceClass b := rfl
@[simp] theorem State.standing_modStow_other (s : State) (a : Ant) (f : StowRecord → StowRecord) (j : AxisId) : (s.modStow a f).standing j = s.standing j := rfl
@[simp] theorem State.link_modStow_other (s : State) (a : Ant) (f : StowRecord → StowRecord) (k : Link) : (s.modStow a f).link k = s.link k := rfl
@[simp] theorem State.axisIn_modStow_other (s : State) (a : Ant) (f : StowRecord → StowRecord) (j : AxisId) : (s.modStow a f).axisIn j = s.axisIn j := rfl
@[simp] theorem State.now_modStow_other (s : State) (a : Ant) (f : StowRecord → StowRecord) : (s.modStow a f).now = s.now := rfl
@[simp] theorem State.axis_setWave_other (s : State) (w : Option Wave) (j : AxisId) : (s.setWave w).axis j = s.axis j := rfl
@[simp] theorem State.ready_setWave_other (s : State) (w : Option Wave) (b : Ant) : (s.setWave w).ready b = s.ready b := rfl
@[simp] theorem State.track_setWave_other (s : State) (w : Option Wave) (b : Ant) : (s.setWave w).track b = s.track b := rfl
@[simp] theorem State.zone_setWave_other (s : State) (w : Option Wave) (y : ZoneId) : (s.setWave w).zone y = s.zone y := rfl
@[simp] theorem State.ice_setWave_other (s : State) (w : Option Wave) (b : Ant) : (s.setWave w).ice b = s.ice b := rfl
@[simp] theorem State.iceClass_setWave_other (s : State) (w : Option Wave) (b : Ant) : (s.setWave w).iceClass b = s.iceClass b := rfl
@[simp] theorem State.standing_setWave_other (s : State) (w : Option Wave) (j : AxisId) : (s.setWave w).standing j = s.standing j := rfl
@[simp] theorem State.link_setWave_other (s : State) (w : Option Wave) (k : Link) : (s.setWave w).link k = s.link k := rfl
@[simp] theorem State.axisIn_setWave_other (s : State) (w : Option Wave) (j : AxisId) : (s.setWave w).axisIn j = s.axisIn j := rfl
@[simp] theorem State.now_setWave_other (s : State) (w : Option Wave) : (s.setWave w).now = s.now := rfl
@[simp] theorem State.axis_setZone_other (s : State) (z : ZoneId) (v : Zone) (j : AxisId) : (s.setZone z v).axis j = s.axis j := rfl
@[simp] theorem State.ready_setZone_other (s : State) (z : ZoneId) (v : Zone) (b : Ant) : (s.setZone z v).ready b = s.ready b := rfl
@[simp] theorem State.track_setZone_other (s : State) (z : ZoneId) (v : Zone) (b : Ant) : (s.setZone z v).track b = s.track b := rfl
@[simp] theorem State.stowOf_setZone_other (s : State) (z : ZoneId) (v : Zone) (b : Ant) : (s.setZone z v).stowOf b = s.stowOf b := rfl
@[simp] theorem State.standing_setZone_other (s : State) (z : ZoneId) (v : Zone) (j : AxisId) : (s.setZone z v).standing j = s.standing j := rfl
@[simp] theorem State.link_setZone_other (s : State) (z : ZoneId) (v : Zone) (k : Link) : (s.setZone z v).link k = s.link k := rfl
@[simp] theorem State.axisIn_setZone_other (s : State) (z : ZoneId) (v : Zone) (j : AxisId) : (s.setZone z v).axisIn j = s.axisIn j := rfl
@[simp] theorem State.now_setZone_other (s : State) (z : ZoneId) (v : Zone) : (s.setZone z v).now = s.now := rfl
@[simp] theorem State.axis_modZone_other (s : State) (z : ZoneId) (f : Zone → Zone) (j : AxisId) : (s.modZone z f).axis j = s.axis j := rfl
@[simp] theorem State.ready_modZone_other (s : State) (z : ZoneId) (f : Zone → Zone) (b : Ant) : (s.modZone z f).ready b = s.ready b := rfl
@[simp] theorem State.track_modZone_other (s : State) (z : ZoneId) (f : Zone → Zone) (b : Ant) : (s.modZone z f).track b = s.track b := rfl
@[simp] theorem State.stowOf_modZone_other (s : State) (z : ZoneId) (f : Zone → Zone) (b : Ant) : (s.modZone z f).stowOf b = s.stowOf b := rfl
@[simp] theorem State.standing_modZone_other (s : State) (z : ZoneId) (f : Zone → Zone) (j : AxisId) : (s.modZone z f).standing j = s.standing j := rfl
@[simp] theorem State.link_modZone_other (s : State) (z : ZoneId) (f : Zone → Zone) (k : Link) : (s.modZone z f).link k = s.link k := rfl
@[simp] theorem State.axisIn_modZone_other (s : State) (z : ZoneId) (f : Zone → Zone) (j : AxisId) : (s.modZone z f).axisIn j = s.axisIn j := rfl
@[simp] theorem State.now_modZone_other (s : State) (z : ZoneId) (f : Zone → Zone) : (s.modZone z f).now = s.now := rfl
@[simp] theorem State.axis_modIce_other (s : State) (a : Ant) (f : Ice → Ice) (j : AxisId) : (s.modIce a f).axis j = s.axis j := rfl
@[simp] theorem State.ready_modIce_other (s : State) (a : Ant) (f : Ice → Ice) (b : Ant) : (s.modIce a f).ready b = s.ready b := rfl
@[simp] theorem State.track_modIce_other (s : State) (a : Ant) (f : Ice → Ice) (b : Ant) : (s.modIce a f).track b = s.track b := rfl
@[simp] theorem State.stowOf_modIce_other (s : State) (a : Ant) (f : Ice → Ice) (b : Ant) : (s.modIce a f).stowOf b = s.stowOf b := rfl
@[simp] theorem State.standing_modIce_other (s : State) (a : Ant) (f : Ice → Ice) (j : AxisId) : (s.modIce a f).standing j = s.standing j := rfl
@[simp] theorem State.link_modIce_other (s : State) (a : Ant) (f : Ice → Ice) (k : Link) : (s.modIce a f).link k = s.link k := rfl
@[simp] theorem State.axisIn_modIce_other (s : State) (a : Ant) (f : Ice → Ice) (j : AxisId) : (s.modIce a f).axisIn j = s.axisIn j := rfl
@[simp] theorem State.now_modIce_other (s : State) (a : Ant) (f : Ice → Ice) : (s.modIce a f).now = s.now := rfl
@[simp] theorem State.axis_setStanding_other (s : State) (i : AxisId) (g : Standing) (j : AxisId) : (s.setStanding i g).axis j = s.axis j := rfl
@[simp] theorem State.ready_setStanding_other (s : State) (i : AxisId) (g : Standing) (b : Ant) : (s.setStanding i g).ready b = s.ready b := rfl
@[simp] theorem State.track_setStanding_other (s : State) (i : AxisId) (g : Standing) (b : Ant) : (s.setStanding i g).track b = s.track b := rfl
@[simp] theorem State.stowOf_setStanding_other (s : State) (i : AxisId) (g : Standing) (b : Ant) : (s.setStanding i g).stowOf b = s.stowOf b := rfl
@[simp] theorem State.zone_setStanding_other (s : State) (i : AxisId) (g : Standing) (y : ZoneId) : (s.setStanding i g).zone y = s.zone y := rfl
@[simp] theorem State.ice_setStanding_other (s : State) (i : AxisId) (g : Standing) (b : Ant) : (s.setStanding i g).ice b = s.ice b := rfl
@[simp] theorem State.iceClass_setStanding_other (s : State) (i : AxisId) (g : Standing) (b : Ant) : (s.setStanding i g).iceClass b = s.iceClass b := rfl
@[simp] theorem State.link_setStanding_other (s : State) (i : AxisId) (g : Standing) (k : Link) : (s.setStanding i g).link k = s.link k := rfl
@[simp] theorem State.axisIn_setStanding_other (s : State) (i : AxisId) (g : Standing) (j : AxisId) : (s.setStanding i g).axisIn j = s.axisIn j := rfl
@[simp] theorem State.now_setStanding_other (s : State) (i : AxisId) (g : Standing) : (s.setStanding i g).now = s.now := rfl
@[simp] theorem State.axis_modFeed_other (s : State) (f : Feed → Feed) (j : AxisId) : (s.modFeed f).axis j = s.axis j := rfl
@[simp] theorem State.ready_modFeed_other (s : State) (f : Feed → Feed) (b : Ant) : (s.modFeed f).ready b = s.ready b := rfl
@[simp] theorem State.track_modFeed_other (s : State) (f : Feed → Feed) (b : Ant) : (s.modFeed f).track b = s.track b := rfl
@[simp] theorem State.stowOf_modFeed_other (s : State) (f : Feed → Feed) (b : Ant) : (s.modFeed f).stowOf b = s.stowOf b := rfl
@[simp] theorem State.zone_modFeed_other (s : State) (f : Feed → Feed) (y : ZoneId) : (s.modFeed f).zone y = s.zone y := rfl
@[simp] theorem State.ice_modFeed_other (s : State) (f : Feed → Feed) (b : Ant) : (s.modFeed f).ice b = s.ice b := rfl
@[simp] theorem State.iceClass_modFeed_other (s : State) (f : Feed → Feed) (b : Ant) : (s.modFeed f).iceClass b = s.iceClass b := rfl
@[simp] theorem State.link_modFeed_other (s : State) (f : Feed → Feed) (k : Link) : (s.modFeed f).link k = s.link k := rfl
@[simp] theorem State.axisIn_modFeed_other (s : State) (f : Feed → Feed) (j : AxisId) : (s.modFeed f).axisIn j = s.axisIn j := rfl
@[simp] theorem State.now_modFeed_other (s : State) (f : Feed → Feed) : (s.modFeed f).now = s.now := rfl
@[simp] theorem State.axis_modStore_other (s : State) (f : Store → Store) (j : AxisId) : (s.modStore f).axis j = s.axis j := rfl
@[simp] theorem State.ready_modStore_other (s : State) (f : Store → Store) (b : Ant) : (s.modStore f).ready b = s.ready b := rfl
@[simp] theorem State.track_modStore_other (s : State) (f : Store → Store) (b : Ant) : (s.modStore f).track b = s.track b := rfl
@[simp] theorem State.stowOf_modStore_other (s : State) (f : Store → Store) (b : Ant) : (s.modStore f).stowOf b = s.stowOf b := rfl
@[simp] theorem State.zone_modStore_other (s : State) (f : Store → Store) (y : ZoneId) : (s.modStore f).zone y = s.zone y := rfl
@[simp] theorem State.ice_modStore_other (s : State) (f : Store → Store) (b : Ant) : (s.modStore f).ice b = s.ice b := rfl
@[simp] theorem State.iceClass_modStore_other (s : State) (f : Store → Store) (b : Ant) : (s.modStore f).iceClass b = s.iceClass b := rfl
@[simp] theorem State.standing_modStore_other (s : State) (f : Store → Store) (j : AxisId) : (s.modStore f).standing j = s.standing j := rfl
@[simp] theorem State.link_modStore_other (s : State) (f : Store → Store) (k : Link) : (s.modStore f).link k = s.link k := rfl
@[simp] theorem State.axisIn_modStore_other (s : State) (f : Store → Store) (j : AxisId) : (s.modStore f).axisIn j = s.axisIn j := rfl
@[simp] theorem State.now_modStore_other (s : State) (f : Store → Store) : (s.modStore f).now = s.now := rfl
@[simp] theorem State.axis_modLink_other (s : State) (l : Link) (f : LinkRecord → LinkRecord) (j : AxisId) : (s.modLink l f).axis j = s.axis j := rfl
@[simp] theorem State.ready_modLink_other (s : State) (l : Link) (f : LinkRecord → LinkRecord) (b : Ant) : (s.modLink l f).ready b = s.ready b := rfl
@[simp] theorem State.track_modLink_other (s : State) (l : Link) (f : LinkRecord → LinkRecord) (b : Ant) : (s.modLink l f).track b = s.track b := rfl
@[simp] theorem State.stowOf_modLink_other (s : State) (l : Link) (f : LinkRecord → LinkRecord) (b : Ant) : (s.modLink l f).stowOf b = s.stowOf b := rfl
@[simp] theorem State.zone_modLink_other (s : State) (l : Link) (f : LinkRecord → LinkRecord) (y : ZoneId) : (s.modLink l f).zone y = s.zone y := rfl
@[simp] theorem State.ice_modLink_other (s : State) (l : Link) (f : LinkRecord → LinkRecord) (b : Ant) : (s.modLink l f).ice b = s.ice b := rfl
@[simp] theorem State.iceClass_modLink_other (s : State) (l : Link) (f : LinkRecord → LinkRecord) (b : Ant) : (s.modLink l f).iceClass b = s.iceClass b := rfl
@[simp] theorem State.standing_modLink_other (s : State) (l : Link) (f : LinkRecord → LinkRecord) (j : AxisId) : (s.modLink l f).standing j = s.standing j := rfl
@[simp] theorem State.axisIn_modLink_other (s : State) (l : Link) (f : LinkRecord → LinkRecord) (j : AxisId) : (s.modLink l f).axisIn j = s.axisIn j := rfl
@[simp] theorem State.now_modLink_other (s : State) (l : Link) (f : LinkRecord → LinkRecord) : (s.modLink l f).now = s.now := rfl
@[simp] theorem State.axis_markFreed_other (s : State) (j : AxisId) : (s.markFreed).axis j = s.axis j := rfl
@[simp] theorem State.ready_markFreed_other (s : State) (b : Ant) : (s.markFreed).ready b = s.ready b := rfl
@[simp] theorem State.track_markFreed_other (s : State) (b : Ant) : (s.markFreed).track b = s.track b := rfl
@[simp] theorem State.stowOf_markFreed_other (s : State) (b : Ant) : (s.markFreed).stowOf b = s.stowOf b := rfl
@[simp] theorem State.zone_markFreed_other (s : State) (y : ZoneId) : (s.markFreed).zone y = s.zone y := rfl
@[simp] theorem State.ice_markFreed_other (s : State) (b : Ant) : (s.markFreed).ice b = s.ice b := rfl
@[simp] theorem State.iceClass_markFreed_other (s : State) (b : Ant) : (s.markFreed).iceClass b = s.iceClass b := rfl
@[simp] theorem State.standing_markFreed_other (s : State) (j : AxisId) : (s.markFreed).standing j = s.standing j := rfl
@[simp] theorem State.link_markFreed_other (s : State) (k : Link) : (s.markFreed).link k = s.link k := rfl
@[simp] theorem State.axisIn_markFreed_other (s : State) (j : AxisId) : (s.markFreed).axisIn j = s.axisIn j := rfl
@[simp] theorem State.now_markFreed_other (s : State) : (s.markFreed).now = s.now := rfl
@[simp] theorem State.axis_markForm_other (s : State) (j : AxisId) : (s.markForm).axis j = s.axis j := rfl
@[simp] theorem State.ready_markForm_other (s : State) (b : Ant) : (s.markForm).ready b = s.ready b := rfl
@[simp] theorem State.track_markForm_other (s : State) (b : Ant) : (s.markForm).track b = s.track b := rfl
@[simp] theorem State.stowOf_markForm_other (s : State) (b : Ant) : (s.markForm).stowOf b = s.stowOf b := rfl
@[simp] theorem State.zone_markForm_other (s : State) (y : ZoneId) : (s.markForm).zone y = s.zone y := rfl
@[simp] theorem State.ice_markForm_other (s : State) (b : Ant) : (s.markForm).ice b = s.ice b := rfl
@[simp] theorem State.iceClass_markForm_other (s : State) (b : Ant) : (s.markForm).iceClass b = s.iceClass b := rfl
@[simp] theorem State.standing_markForm_other (s : State) (j : AxisId) : (s.markForm).standing j = s.standing j := rfl
@[simp] theorem State.link_markForm_other (s : State) (k : Link) : (s.markForm).link k = s.link k := rfl
@[simp] theorem State.axisIn_markForm_other (s : State) (j : AxisId) : (s.markForm).axisIn j = s.axisIn j := rfl
@[simp] theorem State.now_markForm_other (s : State) : (s.markForm).now = s.now := rfl
@[simp] theorem State.axis_raise_other (s : State) (w : FlagWord) (j : AxisId) : (s.raise w).axis j = s.axis j := rfl
@[simp] theorem State.ready_raise_other (s : State) (w : FlagWord) (b : Ant) : (s.raise w).ready b = s.ready b := rfl
@[simp] theorem State.track_raise_other (s : State) (w : FlagWord) (b : Ant) : (s.raise w).track b = s.track b := rfl
@[simp] theorem State.stowOf_raise_other (s : State) (w : FlagWord) (b : Ant) : (s.raise w).stowOf b = s.stowOf b := rfl
@[simp] theorem State.zone_raise_other (s : State) (w : FlagWord) (y : ZoneId) : (s.raise w).zone y = s.zone y := rfl
@[simp] theorem State.ice_raise_other (s : State) (w : FlagWord) (b : Ant) : (s.raise w).ice b = s.ice b := rfl
@[simp] theorem State.iceClass_raise_other (s : State) (w : FlagWord) (b : Ant) : (s.raise w).iceClass b = s.iceClass b := rfl
@[simp] theorem State.standing_raise_other (s : State) (w : FlagWord) (j : AxisId) : (s.raise w).standing j = s.standing j := rfl
@[simp] theorem State.link_raise_other (s : State) (w : FlagWord) (k : Link) : (s.raise w).link k = s.link k := rfl
@[simp] theorem State.axisIn_raise_other (s : State) (w : FlagWord) (j : AxisId) : (s.raise w).axisIn j = s.axisIn j := rfl
@[simp] theorem State.now_raise_other (s : State) (w : FlagWord) : (s.raise w).now = s.now := rfl
@[simp] theorem State.axis_setFlags_other (s : State) (w : FlagWord) (j : AxisId) : (s.setFlags w).axis j = s.axis j := rfl
@[simp] theorem State.ready_setFlags_other (s : State) (w : FlagWord) (b : Ant) : (s.setFlags w).ready b = s.ready b := rfl
@[simp] theorem State.track_setFlags_other (s : State) (w : FlagWord) (b : Ant) : (s.setFlags w).track b = s.track b := rfl
@[simp] theorem State.stowOf_setFlags_other (s : State) (w : FlagWord) (b : Ant) : (s.setFlags w).stowOf b = s.stowOf b := rfl
@[simp] theorem State.zone_setFlags_other (s : State) (w : FlagWord) (y : ZoneId) : (s.setFlags w).zone y = s.zone y := rfl
@[simp] theorem State.ice_setFlags_other (s : State) (w : FlagWord) (b : Ant) : (s.setFlags w).ice b = s.ice b := rfl
@[simp] theorem State.iceClass_setFlags_other (s : State) (w : FlagWord) (b : Ant) : (s.setFlags w).iceClass b = s.iceClass b := rfl
@[simp] theorem State.standing_setFlags_other (s : State) (w : FlagWord) (j : AxisId) : (s.setFlags w).standing j = s.standing j := rfl
@[simp] theorem State.axisIn_setFlags_other (s : State) (w : FlagWord) (j : AxisId) : (s.setFlags w).axisIn j = s.axisIn j := rfl
@[simp] theorem State.now_setFlags_other (s : State) (w : FlagWord) : (s.setFlags w).now = s.now := rfl
@[simp] theorem State.axis_setEarly_other (s : State) (w : FlagWord) (j : AxisId) : (s.setEarly w).axis j = s.axis j := rfl
@[simp] theorem State.ready_setEarly_other (s : State) (w : FlagWord) (b : Ant) : (s.setEarly w).ready b = s.ready b := rfl
@[simp] theorem State.track_setEarly_other (s : State) (w : FlagWord) (b : Ant) : (s.setEarly w).track b = s.track b := rfl
@[simp] theorem State.stowOf_setEarly_other (s : State) (w : FlagWord) (b : Ant) : (s.setEarly w).stowOf b = s.stowOf b := rfl
@[simp] theorem State.zone_setEarly_other (s : State) (w : FlagWord) (y : ZoneId) : (s.setEarly w).zone y = s.zone y := rfl
@[simp] theorem State.ice_setEarly_other (s : State) (w : FlagWord) (b : Ant) : (s.setEarly w).ice b = s.ice b := rfl
@[simp] theorem State.iceClass_setEarly_other (s : State) (w : FlagWord) (b : Ant) : (s.setEarly w).iceClass b = s.iceClass b := rfl
@[simp] theorem State.standing_setEarly_other (s : State) (w : FlagWord) (j : AxisId) : (s.setEarly w).standing j = s.standing j := rfl
@[simp] theorem State.axisIn_setEarly_other (s : State) (w : FlagWord) (j : AxisId) : (s.setEarly w).axisIn j = s.axisIn j := rfl
@[simp] theorem State.now_setEarly_other (s : State) (w : FlagWord) : (s.setEarly w).now = s.now := rfl
@[simp] theorem State.axis_clearScratch_other (s : State) (j : AxisId) : (s.clearScratch).axis j = s.axis j := rfl
@[simp] theorem State.ready_clearScratch_other (s : State) (b : Ant) : (s.clearScratch).ready b = s.ready b := rfl
@[simp] theorem State.track_clearScratch_other (s : State) (b : Ant) : (s.clearScratch).track b = s.track b := rfl
@[simp] theorem State.stowOf_clearScratch_other (s : State) (b : Ant) : (s.clearScratch).stowOf b = s.stowOf b := rfl
@[simp] theorem State.zone_clearScratch_other (s : State) (y : ZoneId) : (s.clearScratch).zone y = s.zone y := rfl
@[simp] theorem State.ice_clearScratch_other (s : State) (b : Ant) : (s.clearScratch).ice b = s.ice b := rfl
@[simp] theorem State.iceClass_clearScratch_other (s : State) (b : Ant) : (s.clearScratch).iceClass b = s.iceClass b := rfl
@[simp] theorem State.standing_clearScratch_other (s : State) (j : AxisId) : (s.clearScratch).standing j = s.standing j := rfl
@[simp] theorem State.link_clearScratch_other (s : State) (k : Link) : (s.clearScratch).link k = s.link k := rfl
@[simp] theorem State.axisIn_clearScratch_other (s : State) (j : AxisId) : (s.clearScratch).axisIn j = s.axisIn j := rfl
@[simp] theorem State.now_clearScratch_other (s : State) : (s.clearScratch).now = s.now := rfl
@[simp] theorem State.axis_clearMarks_other (s : State) (j : AxisId) : (s.clearMarks).axis j = s.axis j := rfl
@[simp] theorem State.ready_clearMarks_other (s : State) (b : Ant) : (s.clearMarks).ready b = s.ready b := rfl
@[simp] theorem State.track_clearMarks_other (s : State) (b : Ant) : (s.clearMarks).track b = s.track b := rfl
@[simp] theorem State.stowOf_clearMarks_other (s : State) (b : Ant) : (s.clearMarks).stowOf b = s.stowOf b := rfl
@[simp] theorem State.zone_clearMarks_other (s : State) (y : ZoneId) : (s.clearMarks).zone y = s.zone y := rfl
@[simp] theorem State.ice_clearMarks_other (s : State) (b : Ant) : (s.clearMarks).ice b = s.ice b := rfl
@[simp] theorem State.iceClass_clearMarks_other (s : State) (b : Ant) : (s.clearMarks).iceClass b = s.iceClass b := rfl
@[simp] theorem State.standing_clearMarks_other (s : State) (j : AxisId) : (s.clearMarks).standing j = s.standing j := rfl
@[simp] theorem State.link_clearMarks_other (s : State) (k : Link) : (s.clearMarks).link k = s.link k := rfl
@[simp] theorem State.axisIn_clearMarks_other (s : State) (j : AxisId) : (s.clearMarks).axisIn j = s.axisIn j := rfl
@[simp] theorem State.now_clearMarks_other (s : State) : (s.clearMarks).now = s.now := rfl

/-! ### The item an update names -/

@[simp] theorem State.axis_modAxis (s : State) (i j : AxisId) (f : Axis → Axis) :
    (s.modAxis i f).axis j = if j = i then f (s.axis i) else s.axis j := by
  obtain ⟨a, x⟩ := i; obtain ⟨b, y⟩ := j
  simp only [State.modAxis, State.setAxis, State.setAnt, State.axis, Six.get_set, AxisId.mk.injEq]
  by_cases h : b = a <;> by_cases h' : y = x <;> simp [h, h']

@[simp] theorem State.axis_setAxis (s : State) (i j : AxisId) (x : Axis) :
    (s.setAxis i x).axis j = if j = i then x else s.axis j :=
  State.axis_modAxis s i j fun _ => x

@[simp] theorem State.ants_get_modAnt (s : State) (a b : Ant) (f : Antenna → Antenna) :
    (s.modAnt a f).ants.get b = if b = a then f (s.ants.get a) else s.ants.get b := by
  simp [State.modAnt, State.setAnt]

@[simp] theorem State.axis_modAnt (s : State) (a : Ant) (j : AxisId) (f : Antenna → Antenna) :
    (s.modAnt a f).axis j = if j.ant = a then (f (s.ants.get a)).axes.get j.ax else s.axis j := by
  simp only [State.axis, State.ants_get_modAnt]
  split <;> rfl

@[simp] theorem State.track_modTrack (s : State) (a b : Ant) (f : Track → Track) :
    (s.modTrack a f).track b = if b = a then f (s.track a) else s.track b := by
  simp [State.modTrack, State.track]

@[simp] theorem State.groups_get_modGroup (s : State) (g h : GroupId) (f : Group → Group) :
    (s.modGroup g f).groups.get h = if h = g then f (s.groups.get g) else s.groups.get h := by
  simp [State.modGroup]

@[simp] theorem State.authority_get_modAuthority (s : State) (a b : Ant) (f : Authority → Authority) :
    (s.modAuthority a f).locks.authority.get b
      = if b = a then f (s.locks.authority.get a) else s.locks.authority.get b := by
  simp [State.modAuthority]

@[simp] theorem State.stowOf_modStow (s : State) (a b : Ant) (f : StowRecord → StowRecord) :
    (s.modStow a f).stowOf b = if b = a then f (s.stowOf a) else s.stowOf b := by
  simp [State.modStow, State.stowOf]

@[simp] theorem State.zone_modZone (s : State) (z y : ZoneId) (f : Zone → Zone) :
    (s.modZone z f).zone y = if y = z then f (s.zone z) else s.zone y := by
  obtain ⟨a, c⟩ := z; obtain ⟨b, d⟩ := y
  simp only [State.modZone, State.setZone, State.zone, Six.get_set, ZoneId.mk.injEq]
  by_cases h : b = a <;> by_cases h' : d = c <;> simp [h, h']

@[simp] theorem State.ice_modIce (s : State) (a b : Ant) (f : Ice → Ice) :
    (s.modIce a f).ice b = if b = a then f (s.ice a) else s.ice b := by
  simp [State.modIce, State.ice]

@[simp] theorem State.standing_setStanding (s : State) (i j : AxisId) (g : Standing) :
    (s.setStanding i g).standing j = if j = i then g else s.standing j := by
  obtain ⟨a, x⟩ := i; obtain ⟨b, y⟩ := j
  simp only [State.setStanding, State.standing, Six.get_set, AxisId.mk.injEq]
  by_cases h : b = a <;> by_cases h' : y = x <;> simp [h, h']

@[simp] theorem Links.get_set (l : Links) (k j : Link) (v : LinkRecord) :
    (l.set k v).get j = if j = k then v else l.get j := by
  cases k <;> cases j <;> simp [Links.get, Links.set]

@[simp] theorem State.link_modLink (s : State) (k j : Link) (f : LinkRecord → LinkRecord) :
    (s.modLink k f).link j = if j = k then f (s.link k) else s.link j := by
  simp [State.modLink, State.link]

@[simp] theorem Links.get_map (l : Links) (f : Link → LinkRecord → LinkRecord) (k : Link) :
    (l.map f).get k = f k (l.get k) := by
  cases k <;> simp [Links.map, Links.get]

@[simp] theorem State.modAuthority_slots (s : State) (a : Ant) (f : Authority → Authority) :
    (s.modAuthority a f).locks.slots = s.locks.slots := rfl
@[simp] theorem State.modAuthority_order (s : State) (a : Ant) (f : Authority → Authority) :
    (s.modAuthority a f).locks.order = s.locks.order := rfl
@[simp] theorem State.modAuthority_horns (s : State) (a : Ant) (f : Authority → Authority) :
    (s.modAuthority a f).locks.horns = s.locks.horns := rfl
@[simp] theorem State.modHorn_slots (s : State) (a : Ant) (f : Horn → Horn) :
    (s.modHorn a f).locks.slots = s.locks.slots := rfl
@[simp] theorem State.modHorn_order (s : State) (a : Ant) (f : Horn → Horn) :
    (s.modHorn a f).locks.order = s.locks.order := rfl
@[simp] theorem State.modHorn_authority (s : State) (a : Ant) (f : Horn → Horn) :
    (s.modHorn a f).locks.authority = s.locks.authority := rfl
@[simp] theorem State.modZone_ice (s : State) (z : ZoneId) (f : Zone → Zone) :
    (s.modZone z f).heat.ice = s.heat.ice := rfl
@[simp] theorem State.modZone_weather (s : State) (z : ZoneId) (f : Zone → Zone) :
    (s.modZone z f).heat.weather = s.heat.weather := rfl
@[simp] theorem State.modIce_zones (s : State) (a : Ant) (f : Ice → Ice) :
    (s.modIce a f).heat.zones = s.heat.zones := rfl
@[simp] theorem State.modIce_weather (s : State) (a : Ant) (f : Ice → Ice) :
    (s.modIce a f).heat.weather = s.heat.weather := rfl

@[simp] theorem State.zone_modIce (s : State) (a : Ant) (f : Ice → Ice) (z : ZoneId) :
    (s.modIce a f).zone z = s.zone z := rfl
@[simp] theorem State.ice_modZone (s : State) (z : ZoneId) (f : Zone → Zone) (a : Ant) :
    (s.modZone z f).ice a = s.ice a := rfl
@[simp] theorem State.iceClass_modZone (s : State) (z : ZoneId) (f : Zone → Zone) (a : Ant) :
    (s.modZone z f).iceClass a = s.iceClass a := rfl
@[simp] theorem State.stowOf_setWave (s : State) (w : Option Wave) (a : Ant) :
    (s.setWave w).stowOf a = s.stowOf a := rfl
@[simp] theorem State.standing_modFeed (s : State) (f : Feed → Feed) (i : AxisId) :
    (s.modFeed f).standing i = ((f s.feed).standing.get i.ant).get i.ax := rfl
@[simp] theorem State.feed_modFeed (s : State) (f : Feed → Feed) : (s.modFeed f).feed = f s.feed := rfl
@[simp] theorem State.store_modStore (s : State) (f : Store → Store) :
    (s.modStore f).store = f s.store := rfl
@[simp] theorem State.wave_setWave (s : State) (w : Option Wave) : (s.setWave w).stow.wave = w := rfl
@[simp] theorem State.wave_modStow (s : State) (a : Ant) (f : StowRecord → StowRecord) :
    (s.modStow a f).stow.wave = s.stow.wave := rfl

end Sys2Proof.Machine
end

