-- ==== Sys2Proof/Laws/Frames.lean ====
section
/-! SUPPORT. Frames: which parts of the state each shared operation can change, up to everything that follows
an event. -/

namespace Sys2Proof.Machine

set_option Elab.async false

/-! ### The relation -/

theorem Part.same_refl (p : Part) (s : State) : p.same s s := by
  cases p <;> simp [Part.same]

theorem Part.same_trans {p : Part} {s t u : State} (h : p.same s t) (k : p.same t u) : p.same s u := by
  cases p <;> simp only [Part.same] at * <;> simp_all

theorem Touches.refl (ps : List Part) (s : State) : Touches ps s s :=
  ⟨fun p _ => p.same_refl s⟩

theorem Touches.trans {ps : List Part} {s t u : State} (h : Touches ps s t) (k : Touches ps t u) :
    Touches ps s u := ⟨fun p hp => Part.same_trans (h.same p hp) (k.same p hp)⟩

theorem Touches.mono {ps qs : List Part} {s t : State} (h : Touches ps s t) (hs : ps ⊆ qs) :
    Touches qs s t := ⟨fun p hp => h.same p fun hq => hp (hs hq)⟩

theorem Touches.forEach {α : Type} {ps : List Part} {f : State → α → State}
    (h : ∀ s x, Touches ps s (f s x)) (xs : List α) (s : State) : Touches ps s (forEach xs f s) := by
  induction xs generalizing s with
  | nil => exact .refl ps s
  | cons x xs ih => exact (h s x).trans (ih (f s x))

theorem Touches.ite {ps : List Part} {c : Prop} [Decidable c] {s t u : State} (h : Touches ps s t)
    (k : Touches ps s u) : Touches ps s (if c then t else u) := by
  split
  · exact h
  · exact k

/-! ### One update -/

theorem Touches.modAxis_any (s : State) (i : AxisId) (f : Axis → Axis) :
    Touches [.drives, .places, .axisSettings] s (s.modAxis i f) := by
  refine ⟨fun p hp => ?_⟩
  cases p <;> simp_all [Part.same]

/-- An update of an axis that keeps its place and its settings. -/
theorem Touches.modAxis {s : State} {i : AxisId} {f : Axis → Axis}
    (h : ∀ x, (f x).position = x.position ∧ (f x).followingError = x.followingError
      ∧ (f x).settings = x.settings) : Touches [.drives] s (s.modAxis i f) := by
  refine ⟨fun p hp => ?_⟩
  cases p <;> simp_all [Part.same]
  · intro j; split <;> simp_all
  · refine ⟨fun j => ?_, fun a => ?_⟩
    · split <;> simp_all
    · simp only [State.modAxis, State.setAxis, State.setAnt, Six.get_set]
      split <;> simp_all

/-- An update of an antenna's drive items that keeps every axis's place and settings. -/
theorem Touches.modAnt {s : State} {a : Ant} {f : Antenna → Antenna}
    (h : ∀ v, (f v).configInvalid = v.configInvalid ∧ ∀ ax,
      ((f v).axes.get ax).position = (v.axes.get ax).position
      ∧ ((f v).axes.get ax).followingError = (v.axes.get ax).followingError
      ∧ ((f v).axes.get ax).settings = (v.axes.get ax).settings) :
    Touches [.drives] s (s.modAnt a f) := by
  refine ⟨fun p hp => ?_⟩
  cases p <;> simp_all [Part.same]
  · intro j; split <;> simp_all [State.axis]
  · refine ⟨fun j => ?_, fun b => ?_⟩ <;> split <;> simp_all [State.axis]

theorem Touches.modTrack_any (s : State) (a : Ant) (f : Track → Track) :
    Touches [.tracks, .queues] s (s.modTrack a f) := by
  refine ⟨fun p hp => ?_⟩
  cases p <;> simp_all [Part.same]

theorem Touches.modTrack {s : State} {a : Ant} {f : Track → Track} (h : ∀ t, (f t).plain = t.plain) :
    Touches [.tracks] s (s.modTrack a f) := by
  refine ⟨fun p hp => ?_⟩
  cases p <;> simp_all [Part.same]
  intro b; split <;> simp_all

theorem Touches.modGroup_any (s : State) (g : GroupId) (f : Group → Group) :
    Touches [.groups, .groupRecords] s (s.modGroup g f) := by
  refine ⟨fun p hp => ?_⟩
  cases p <;> simp_all [Part.same]

theorem Touches.modGroup {s : State} {g : GroupId} {f : Group → Group} (h : ∀ t, (f t).plain = t.plain) :
    Touches [.groups] s (s.modGroup g f) := by
  refine ⟨fun p hp => ?_⟩
  cases p <;> simp_all [Part.same]
  intro b; split <;> simp_all

theorem Touches.modAuthority_any (s : State) (a : Ant) (f : Authority → Authority) :
    Touches [.authorities, .authority] s (s.modAuthority a f) := by
  refine ⟨fun p hp => ?_⟩
  cases p <;> simp_all [Part.same]

theorem Touches.modAuthority {s : State} {a : Ant} {f : Authority → Authority}
    (h : ∀ v, (f v).isLocal = v.isLocal ∧ (f v).claimed = v.claimed) :
    Touches [.authorities] s (s.modAuthority a f) := by
  refine ⟨fun p hp => ?_⟩
  cases p <;> simp_all [Part.same]
  intro b; split <;> simp_all

theorem Touches.modHorn_any (s : State) (a : Ant) (f : Horn → Horn) :
    Touches [.horns, .hornTimers] s (s.modHorn a f) := by
  refine ⟨fun p hp => ?_⟩
  cases p <;> simp_all [Part.same]

theorem Touches.modHorn {s : State} {a : Ant} {f : Horn → Horn} (h : ∀ v, (f v).forceTimer = v.forceTimer) :
    Touches [.horns] s (s.modHorn a f) := by
  refine ⟨fun p hp => ?_⟩
  cases p <;> simp_all [Part.same]
  intro b; simp only [State.modHorn, Six.get_set]; split <;> simp_all

theorem Touches.modStow (s : State) (a : Ant) (f : StowRecord → StowRecord) :
    Touches [.stow] s (s.modStow a f) := by
  refine ⟨fun p hp => ?_⟩
  cases p <;> simp_all [Part.same]

theorem Touches.setWave (s : State) (w : Option Wave) : Touches [.stow] s (s.setWave w) := by
  refine ⟨fun p hp => ?_⟩
  cases p <;> simp_all [Part.same]

theorem Touches.modZone_any (s : State) (z : ZoneId) (f : Zone → Zone) :
    Touches [.zones, .zoneRequests, .zoneSettings] s (s.modZone z f) := by
  refine ⟨fun p hp => ?_⟩
  cases p <;> simp_all [Part.same]

theorem Touches.modZone_request {s : State} {z : ZoneId} {f : Zone → Zone}
    (h : ∀ v, (f v).settings = v.settings) : Touches [.zones, .zoneRequests] s (s.modZone z f) := by
  refine ⟨fun p hp => ?_⟩
  cases p <;> simp_all [Part.same]
  intro y; split <;> simp_all

theorem Touches.modZone {s : State} {z : ZoneId} {f : Zone → Zone}
    (h : ∀ v, (f v).settings = v.settings ∧ (f v).requests = v.requests) :
    Touches [.zones] s (s.modZone z f) := by
  refine ⟨fun p hp => ?_⟩
  cases p <;> simp_all [Part.same] <;> intro y <;> split <;> simp_all

theorem Touches.modIce (s : State) (a : Ant) (f : Ice → Ice) : Touches [.ice] s (s.modIce a f) := by
  refine ⟨fun p hp => ?_⟩
  cases p <;> simp_all [Part.same]

theorem Touches.setStanding (s : State) (i : AxisId) (g : Standing) :
    Touches [.feed] s (s.setStanding i g) := by
  refine ⟨fun p hp => ?_⟩
  cases p <;> simp_all [Part.same]
  simp [State.setStanding]

theorem Touches.modFeed_any (s : State) (f : Feed → Feed) :
    Touches [.feed, .figures] s (s.modFeed f) := by
  refine ⟨fun p hp => ?_⟩
  cases p <;> simp_all [Part.same]

theorem Touches.modFeed {s : State} {f : Feed → Feed}
    (h : ∀ v, (f v).limit = v.limit ∧ (f v).base = v.base ∧ (f v).period = v.period
      ∧ (f v).allowance = v.allowance) : Touches [.feed] s (s.modFeed f) := by
  refine ⟨fun p hp => ?_⟩
  cases p <;> simp_all [Part.same]

theorem Touches.modStore (s : State) (f : Store → Store) : Touches [.store] s (s.modStore f) := by
  refine ⟨fun p hp => ?_⟩
  cases p <;> simp_all [Part.same]

theorem Touches.modLink (s : State) (l : Link) (f : LinkRecord → LinkRecord) :
    Touches [.links] s (s.modLink l f) := by
  refine ⟨fun p hp => ?_⟩
  cases p <;> simp_all [Part.same]

/-- The links are set, and nothing else. -/
theorem Touches.setLinks (s : State) (l : Links) : Touches [.links] s { s with links := l } := by
  refine ⟨fun p hp => ?_⟩
  cases p <;> simp_all [Part.same, State.axis, State.track, State.zone]

/-! ### The event's own marks -/

/-- Marks are no part of the state between events. -/
theorem Touches.scratch (s : State) (m : Scratch) : Touches [] s { s with scratch := m } := by
  refine ⟨fun p _ => ?_⟩
  cases p <;> simp [Part.same, State.axis, State.track, State.zone]

theorem Touches.markFreed (s : State) : Touches [] s s.markFreed := .scratch s _
theorem Touches.markForm (s : State) : Touches [] s s.markForm := .scratch s _
theorem Touches.raise (s : State) (w : FlagWord) : Touches [] s (s.raise w) := .scratch s _
theorem Touches.clearScratch (s : State) : Touches [] s s.clearScratch := .scratch s _
theorem Touches.clearMarks (s : State) : Touches [] s s.clearMarks := .scratch s _

theorem Touches.markFreedIf (s : State) (b : Bool) : Touches [] s (s.markFreedIf b) := by
  unfold State.markFreedIf; split
  · exact .markFreed s
  · exact .refl _ s

theorem Touches.raiseIf (s : State) (b : Bool) (w : FlagWord) : Touches [] s (s.raiseIf b w) := by
  unfold State.raiseIf; split
  · exact .raise s w
  · exact .refl _ s

end Sys2Proof.Machine
end

