-- ==== Sys2Proof/Laws/Moves.lean ====
section
/-! SUPPORT. One change of the state, once for all: the parts it can change, and that it keeps every law of
`State.Lawful`. Every operation gets one such lemma. -/

namespace Sys2Proof.Machine

set_option Elab.async false

/-- A change of the state that touches only the named parts and keeps the laws. -/
structure Moves (ps : List Part) (s t : State) : Prop where
  touches : Touches ps s t
  keeps : s.Lawful → t.Lawful

theorem Moves.refl (ps : List Part) (s : State) : Moves ps s s := ⟨.refl ps s, id⟩

theorem Moves.trans {ps : List Part} {s t u : State} (h : Moves ps s t) (k : Moves ps t u) :
    Moves ps s u := ⟨h.touches.trans k.touches, k.keeps ∘ h.keeps⟩

theorem Moves.mono {ps qs : List Part} {s t : State} (h : Moves ps s t) (hs : ps ⊆ qs) : Moves qs s t :=
  ⟨h.touches.mono hs, h.keeps⟩

/-- Widen the parts, where the inclusion of two given lists can be decided. -/
theorem Moves.to {ps qs : List Part} {s t : State} (h : Moves ps s t)
    (hs : ps.all (fun p => decide (p ∈ qs)) = true := by decide +kernel) : Moves qs s t :=
  h.mono fun p hp => by simpa using List.all_eq_true.mp hs p hp

theorem Moves.forEach {α : Type} {ps : List Part} {f : State → α → State}
    (h : ∀ s x, Moves ps s (f s x)) (xs : List α) (s : State) : Moves ps s (forEach xs f s) := by
  induction xs generalizing s with
  | nil => exact .refl ps s
  | cons x xs ih => exact (h s x).trans (ih (f s x))

theorem Moves.ite {ps : List Part} {c : Prop} [Decidable c] {s t u : State} (h : Moves ps s t)
    (k : Moves ps s u) : Moves ps s (if c then t else u) := by
  split
  · exact h
  · exact k

/-! ### The laws, part by part -/

/-- The laws read these items alone. -/
theorem State.Lawful.of_same {s t : State} (h : s.Lawful) (ha : t.axesLawful)
    (hs : t.locks.slots = s.locks.slots) (ho : t.locks.order = s.locks.order)
    (hp : t.permits.entries.length = s.permits.entries.length)
    (hk : ∀ a, (t.track a).segments.length ≤ (s.track a).segments.length)
    (hw : t.wind.window.length = s.wind.window.length)
    (hq : s.feed.queue.length ≤ 16 → t.feed.queue.length ≤ 16) (hst : t.store = s.store)
    (hl : ∀ l, (t.link l).taken = (s.link l).taken ∧ (t.link l).discarded = (s.link l).discarded
      ∧ (t.link l).dropped = (s.link l).dropped) : t.Lawful where
  axes := ha
  bounded :=
    { slots := hs ▸ h.bounded.slots
      permits := hp ▸ h.bounded.permits
      lockouts := hst ▸ h.bounded.lockouts
      permitRecords := hst ▸ h.bounded.permitRecords
      segments := fun a => (hk a).trans (h.bounded.segments a)
      window := hw ▸ h.bounded.window
      needs := hq h.bounded.needs
      writes := hst ▸ h.bounded.writes
      counts := fun l => by
        obtain ⟨h1, h2, h3⟩ := hl l
        rw [h1, h2, h3]; exact h.bounded.counts l }
  table :=
    { once := ho ▸ h.table.once
      listed := fun n => by
        simp only [Locks.slot, hs, ho]; exact h.table.listed n
      numbered := by
        simp only [Locks.entries, hs, hst]; exact h.table.numbered }
  store := hst ▸ h.store

/-! ### One update -/

theorem Moves.modAxis_any {s : State} {i : AxisId} {f : Axis → Axis}
    (h : (s.axis i).Lawful → (f (s.axis i)).Lawful) :
    Moves [.drives, .places, .axisSettings] s (s.modAxis i f) where
  touches := .modAxis_any s i f
  keeps hs := by
    refine hs.of_same (fun j => ?_) rfl rfl rfl (fun _ => le_rfl) rfl id rfl fun _ => ⟨rfl, rfl, rfl⟩
    rw [State.axis_modAxis]; split
    · exact h (hs.axes i)
    · exact hs.axes j

/-- An update of an axis that keeps its place, its settings and its law. -/
theorem Moves.modAxis {s : State} {i : AxisId} {f : Axis → Axis}
    (h : ∀ x, (f x).position = x.position ∧ (f x).followingError = x.followingError
      ∧ (f x).settings = x.settings) (k : (s.axis i).Lawful → (f (s.axis i)).Lawful) :
    Moves [.drives] s (s.modAxis i f) := ⟨.modAxis h, (Moves.modAxis_any k).keeps⟩

/-- An update of an antenna's drive items that keeps its axes' places, settings and laws. -/
theorem Moves.modAnt {s : State} {a : Ant} {f : Antenna → Antenna}
    (h : ∀ v, (f v).configInvalid = v.configInvalid ∧ ∀ ax,
      ((f v).axes.get ax).position = (v.axes.get ax).position
      ∧ ((f v).axes.get ax).followingError = (v.axes.get ax).followingError
      ∧ ((f v).axes.get ax).settings = (v.axes.get ax).settings)
    (k : ∀ v ax, (v.axes.get ax).Lawful → ((f v).axes.get ax).Lawful) :
    Moves [.drives] s (s.modAnt a f) where
  touches := .modAnt h
  keeps hs := by
    refine hs.of_same (fun j => ?_) rfl rfl rfl (fun _ => le_rfl) rfl id rfl fun _ => ⟨rfl, rfl, rfl⟩
    have := hs.axes j
    simp only [State.axis, State.modAnt, State.setAnt, Six.get_set]
    split
    · rename_i e; subst e; exact k _ _ this
    · exact this

theorem Moves.modTrack_any {s : State} {a : Ant} {f : Track → Track}
    (h : (s.track a).segments.length ≤ 64 → (f (s.track a)).segments.length ≤ 64) :
    Moves [.tracks, .queues] s (s.modTrack a f) where
  touches := .modTrack_any s a f
  keeps hs :=
    { axes := hs.axes
      table := ⟨hs.table.once, hs.table.listed, hs.table.numbered⟩
      store := hs.store
      bounded := { hs.bounded with
        segments := fun b => by
          simp only [State.track_modTrack]; split
          · exact h (hs.bounded.segments a)
          · exact hs.bounded.segments b } }

theorem Moves.modTrack {s : State} {a : Ant} {f : Track → Track} (h : ∀ t, (f t).plain = t.plain) :
    Moves [.tracks] s (s.modTrack a f) where
  touches := .modTrack h
  keeps := (Moves.modTrack_any fun k => by
    have := congrArg Track.segments (h (s.track a))
    simp only [Track.plain] at this
    rw [this]; exact k).keeps

/-- An update that leaves every item the laws read. -/
theorem Moves.plain {ps : List Part} {s t : State} (h : Touches ps s t) (ha : t.ants = s.ants)
    (hs : t.locks.slots = s.locks.slots) (ho : t.locks.order = s.locks.order)
    (hp : t.permits = s.permits) (hk : t.tracks = s.tracks) (hw : t.wind = s.wind)
    (hq : t.feed.queue = s.feed.queue) (hst : t.store = s.store) (hl : t.links = s.links) :
    Moves ps s t where
  touches := h
  keeps k := k.of_same (fun i => by simp only [State.axis, ha]; exact k.axes i) hs ho (by rw [hp])
    (fun a => by simp only [State.track, hk]; exact le_rfl) (by rw [hw]) (by rw [hq]; exact id) hst
    fun l => by simp only [State.link, hl]; simp

theorem Moves.modGroup_any (s : State) (g : GroupId) (f : Group → Group) :
    Moves [.groups, .groupRecords] s (s.modGroup g f) :=
  .plain (.modGroup_any s g f) rfl rfl rfl rfl rfl rfl rfl rfl rfl

theorem Moves.modGroup {s : State} {g : GroupId} {f : Group → Group} (h : ∀ t, (f t).plain = t.plain) :
    Moves [.groups] s (s.modGroup g f) := .plain (.modGroup h) rfl rfl rfl rfl rfl rfl rfl rfl rfl

theorem Moves.modAuthority_any (s : State) (a : Ant) (f : Authority → Authority) :
    Moves [.authorities, .authority] s (s.modAuthority a f) :=
  .plain (.modAuthority_any s a f) rfl rfl rfl rfl rfl rfl rfl rfl rfl

theorem Moves.modAuthority {s : State} {a : Ant} {f : Authority → Authority}
    (h : ∀ v, (f v).isLocal = v.isLocal ∧ (f v).claimed = v.claimed) :
    Moves [.authorities] s (s.modAuthority a f) :=
  .plain (.modAuthority h) rfl rfl rfl rfl rfl rfl rfl rfl rfl

theorem Moves.modHorn_any (s : State) (a : Ant) (f : Horn → Horn) :
    Moves [.horns, .hornTimers] s (s.modHorn a f) :=
  .plain (.modHorn_any s a f) rfl rfl rfl rfl rfl rfl rfl rfl rfl

theorem Moves.modHorn {s : State} {a : Ant} {f : Horn → Horn} (h : ∀ v, (f v).forceTimer = v.forceTimer) :
    Moves [.horns] s (s.modHorn a f) := .plain (.modHorn h) rfl rfl rfl rfl rfl rfl rfl rfl rfl

theorem Horn.play_forceTimer (h : Horn) (p : HornPattern) (now : Epoch) :
    (h.play p now).forceTimer = h.forceTimer := by
  unfold Horn.play; split <;> rfl

theorem Moves.modStow (s : State) (a : Ant) (f : StowRecord → StowRecord) :
    Moves [.stow] s (s.modStow a f) := .plain (.modStow s a f) rfl rfl rfl rfl rfl rfl rfl rfl rfl

theorem Moves.setWave (s : State) (w : Option Wave) : Moves [.stow] s (s.setWave w) :=
  .plain (.setWave s w) rfl rfl rfl rfl rfl rfl rfl rfl rfl

theorem Moves.modZone_any (s : State) (z : ZoneId) (f : Zone → Zone) :
    Moves [.zones, .zoneRequests, .zoneSettings] s (s.modZone z f) :=
  .plain (.modZone_any s z f) rfl rfl rfl rfl rfl rfl rfl rfl rfl

theorem Moves.modZone_request {s : State} {z : ZoneId} {f : Zone → Zone}
    (h : ∀ v, (f v).settings = v.settings) : Moves [.zones, .zoneRequests] s (s.modZone z f) :=
  .plain (.modZone_request h) rfl rfl rfl rfl rfl rfl rfl rfl rfl

theorem Moves.modZone {s : State} {z : ZoneId} {f : Zone → Zone}
    (h : ∀ v, (f v).settings = v.settings ∧ (f v).requests = v.requests) :
    Moves [.zones] s (s.modZone z f) := .plain (.modZone h) rfl rfl rfl rfl rfl rfl rfl rfl rfl

theorem Moves.modIce (s : State) (a : Ant) (f : Ice → Ice) : Moves [.ice] s (s.modIce a f) :=
  .plain (.modIce s a f) rfl rfl rfl rfl rfl rfl rfl rfl rfl

theorem Moves.setStanding (s : State) (i : AxisId) (g : Standing) :
    Moves [.feed] s (s.setStanding i g) :=
  .plain (.setStanding s i g) rfl rfl rfl rfl rfl rfl rfl rfl rfl

theorem Moves.modFeed_any {s : State} {f : Feed → Feed}
    (k : s.feed.queue.length ≤ 16 → (f s.feed).queue.length ≤ 16) :
    Moves [.feed, .figures] s (s.modFeed f) where
  touches := .modFeed_any s f
  keeps hs := hs.of_same hs.axes rfl rfl rfl (fun _ => le_rfl) rfl k rfl fun _ => ⟨rfl, rfl, rfl⟩

theorem Moves.modFeed {s : State} {f : Feed → Feed}
    (h : ∀ v, (f v).limit = v.limit ∧ (f v).base = v.base ∧ (f v).period = v.period
      ∧ (f v).allowance = v.allowance) (k : s.feed.queue.length ≤ 16 → (f s.feed).queue.length ≤ 16) :
    Moves [.feed] s (s.modFeed f) := ⟨.modFeed h, (Moves.modFeed_any k).keeps⟩

/-- An update of a link record that keeps its three counts within 16 bits (R186). -/
theorem Moves.modLink {s : State} {l : Link} {f : LinkRecord → LinkRecord}
    (h : (s.link l).taken ≤ 65535 ∧ (s.link l).discarded ≤ 65535 ∧ (s.link l).dropped ≤ 65535 →
      (f (s.link l)).taken ≤ 65535 ∧ (f (s.link l)).discarded ≤ 65535 ∧ (f (s.link l)).dropped ≤ 65535) :
    Moves [.links] s (s.modLink l f) where
  touches := .modLink s l f
  keeps hs :=
    { axes := hs.axes
      table := ⟨hs.table.once, hs.table.listed, hs.table.numbered⟩
      store := hs.store
      bounded := { hs.bounded with
        counts := fun k => by
          rw [State.link_modLink]; split
          · exact h (hs.bounded.counts l)
          · exact hs.bounded.counts k } }

theorem LinkRecord.setFlags_counts (l : LinkRecord) (c w : FlagWord) :
    (l.setFlags c w).taken = l.taken ∧ (l.setFlags c w).discarded = l.discarded
      ∧ (l.setFlags c w).dropped = l.dropped := by
  exact ⟨rfl, rfl, rfl⟩

theorem LinkRecord.conclude_counts (p l : LinkRecord) (c e w : FlagWord) :
    (p.conclude l c e w).taken = l.taken ∧ (p.conclude l c e w).discarded = l.discarded
      ∧ (p.conclude l c e w).dropped = l.dropped := by
  unfold LinkRecord.conclude; dsimp only; split <;> exact ⟨rfl, rfl, rfl⟩

/-- The link records are mapped, their counts kept. -/
theorem Moves.mapLinks (s : State) {f : Link → LinkRecord → LinkRecord}
    (h : ∀ k l, (f k l).taken = l.taken ∧ (f k l).discarded = l.discarded ∧ (f k l).dropped = l.dropped) :
    Moves [.links] s { s with links := s.links.map f } where
  touches := .setLinks s _
  keeps hs := by
    refine hs.of_same hs.axes rfl rfl rfl (fun _ => le_rfl) rfl id rfl fun l => ?_
    simp only [State.link, Links.get_map]
    exact h ..

theorem Moves.setFlags (s : State) (w : FlagWord) : Moves [.links] s (s.setFlags w) :=
  .mapLinks s fun _ _ => LinkRecord.setFlags_counts ..

/-! ### The event's own marks -/

theorem Moves.scratch (s : State) (m : Scratch) : Moves [] s { s with scratch := m } :=
  .plain (.scratch s m) rfl rfl rfl rfl rfl rfl rfl rfl rfl

theorem Moves.markFreed (s : State) : Moves [] s s.markFreed := .scratch s _
theorem Moves.markForm (s : State) : Moves [] s s.markForm := .scratch s _
theorem Moves.raise (s : State) (w : FlagWord) : Moves [] s (s.raise w) := .scratch s _
theorem Moves.clearScratch (s : State) : Moves [] s s.clearScratch := .scratch s _
theorem Moves.clearMarks (s : State) : Moves [] s s.clearMarks := .scratch s _

theorem Moves.markFreedIf (s : State) (b : Bool) : Moves [] s (s.markFreedIf b) := by
  unfold State.markFreedIf; split
  · exact .markFreed s
  · exact .refl _ s

theorem Moves.raiseIf (s : State) (b : Bool) (w : FlagWord) : Moves [] s (s.raiseIf b w) := by
  unfold State.raiseIf; split
  · exact .raise s w
  · exact .refl _ s

theorem Moves.setEarly (s : State) (w : FlagWord) : Moves [.links] s (s.setEarly w) :=
  (Moves.setFlags ..).trans (Moves.scratch ..).to

/-- The end of an event changes the links alone. -/
theorem Moves.announce (s t : State) : Moves [.links] t (announce s t) :=
  (Moves.mapLinks t fun _ _ => LinkRecord.conclude_counts ..).trans (Moves.clearScratch ..).to

end Sys2Proof.Machine
end

