-- ==== Sys2Proof/Laws/Follow.lean ====
section
/-! SUPPORT. What follows an event changes drives, raises, held grants, jogs, horns, stow records, zone levels
and the feed's books, and nothing else. -/

namespace Sys2Proof.Machine

set_option Elab.async false

/-- A change that what follows an event may make. -/
abbrev Follows (s t : State) : Prop := Moves followParts s t

theorem Moves.follows {ps : List Part} {s t : State} (h : Moves ps s t)
    (hs : ps.all (fun p => decide (p ∈ followParts)) = true := by decide) : Follows s t := h.to hs

theorem Follows.refl (s : State) : Follows s s := Moves.refl _ s

theorem Follows.trans {s t u : State} (h : Follows s t) (k : Follows t u) : Follows s u := Moves.trans h k

theorem Follows.forEach {α : Type} {f : State → α → State} (h : ∀ s x, Follows s (f s x)) (xs : List α)
    (s : State) : Follows s (forEach xs f s) := Moves.forEach h xs s

theorem Follows.ite {c : Prop} [Decidable c] {s t u : State} (h : Follows s t) (k : Follows s u) :
    Follows s (if c then t else u) := Moves.ite h k

/-! ### The law of one axis -/

/-- The law of an axis reads these items alone. -/
theorem Axis.Lawful.of_same {x y : Axis} (h : x.Lawful) (h1 : y.state = x.state := by rfl)
    (h2 : y.amplifier = x.amplifier := by rfl) (h3 : y.released = x.released := by rfl)
    (h4 : y.velocity = x.velocity := by rfl) (h5 : y.stop = x.stop := by rfl)
    (h6 : y.profile = x.profile := by rfl) (h7 : y.releaseCheck = x.releaseCheck := by rfl) : y.Lawful := by
  exact ⟨h2 ▸ h1 ▸ h.amplifier, h3 ▸ h1 ▸ h.released, h4 ▸ h1 ▸ h.still, h5 ▸ h1 ▸ h.stop,
    h6 ▸ h1 ▸ h.profile, h7 ▸ h1 ▸ h.releaseCheck⟩

/-- An axis is lawful on entry to any state (R6). -/
theorem Axis.Lawful.enter (x : Axis) (now : Epoch) (st : AxisState) : (x.enter now st).Lawful := by
  unfold Axis.enter
  refine ⟨rfl, rfl, fun h => by simp_all, fun h => ?_, fun h => ?_, fun h => ?_⟩ <;>
    (dsimp only at h ⊢; split at h <;> simp_all)

theorem Six.set_set {α : Type} (x : Six α) (a : Ant) (v w : α) : (x.set a v).set a w = x.set a w := by
  cases a <;> rfl

theorem State.modAxis_modAxis (s : State) (i : AxisId) (f g : Axis → Axis) :
    (s.modAxis i f).modAxis i g = s.modAxis i fun x => g (f x) := by
  obtain ⟨a, x⟩ := i
  cases x <;> simp [State.modAxis, State.setAxis, State.setAnt, State.axis, PerAxis.get, PerAxis.set,
    Six.set_set]

/-! ### Axes and stops -/

theorem Follows.enterAxis (s : State) (i : AxisId) (st : AxisState) : Follows s (s.enterAxis i st) := by
  unfold State.enterAxis State.changeStanding
  exact (Moves.modAxis (by simp [Axis.enter, Axis.settings]) fun _ => Axis.Lawful.enter ..).follows.trans
    ((Moves.setStanding ..).follows.trans (Moves.markFreedIf ..).follows)

@[simp] theorem State.axis_enterAxis (s : State) (i j : AxisId) (st : AxisState) :
    (s.enterAxis i st).axis j = if j = i then (s.axis i).enter s.now st else s.axis j := by
  have h : (s.enterAxis i st).axis j = (s.modAxis i fun x => x.enter s.now st).axis j := by
    unfold State.enterAxis State.changeStanding State.markFreedIf
    dsimp only
    split <;> rfl
  rw [h, State.axis_modAxis]

theorem Follows.clearClaims (s : State) (i : AxisId) : Follows s (s.clearClaims i) :=
  (Moves.modAxis (by simp [Axis.settings]) Axis.Lawful.of_same).follows

theorem Follows.goBraking (s : State) (i : AxisId) (p : PendingStop) : Follows s (s.goBraking i p) :=
  (Follows.enterAxis ..).trans (Moves.modAxis (by simp [Axis.settings]) Axis.Lawful.of_same).follows

theorem Follows.endStop (s : State) (i : AxisId) (r : StopReason) (d : StopTarget) :
    Follows s (s.endStop i r d) := by
  cases d
  · exact .enterAxis ..
  · exact .goBraking ..
  · exact .goBraking ..

/-- Fields are written and a state entered at once. -/
theorem Follows.enterWith {s : State} {i : AxisId} {f : Axis → Axis} (st : AxisState)
    (h : ∀ x, (f x).position = x.position ∧ (f x).followingError = x.followingError
      ∧ (f x).settings = x.settings) : Follows s ((s.modAxis i f).enterAxis i st) := by
  unfold State.enterAxis State.changeStanding
  refine Follows.trans (Moves.follows (ps := [.drives]) ?_)
    ((Moves.setStanding ..).follows.trans (Moves.markFreedIf ..).follows)
  rw [State.modAxis_modAxis]
  refine Moves.modAxis (fun x => ?_) fun _ => Axis.Lawful.enter ..
  obtain ⟨h1, h2, h3⟩ := h x
  exact ⟨h1, h2, h3⟩

theorem Follows.startStop (s : State) (i : AxisId) (r : StopReason) (d : StopTarget) :
    Follows s (s.startStop i r d) := by
  unfold State.startStop
  dsimp only
  have h : Follows s ((s.modAxis i fun x => { x with stop := some ⟨r, d, s.limitA i, (s.axis i).velocity,
      (s.axis i).position, s.now⟩ }).enterAxis i .stopping) := .enterWith _ fun _ => ⟨rfl, rfl, rfl⟩
  split
  · exact h.trans (.endStop ..)
  · exact h

theorem Follows.holdStop (s : State) (i : AxisId) (r : StopReason) (d : StopTarget) :
    Follows s (s.modAxis i fun x => x.holdStop r d) :=
  (Moves.modAxis (by simp [Axis.holdStop, Axis.settings]) Axis.Lawful.of_same).follows

theorem Follows.takeStop (s : State) (i : AxisId) (r : StopReason) (d : StopTarget) :
    Follows s (s.takeStop i r d) := by
  unfold State.takeStop
  split
  all_goals first
    | exact .refl ..
    | exact .startStop ..
    | exact .holdStop ..
    | skip
  · exact .ite (.refl ..) (.holdStop ..)
  · exact .ite (.refl ..) (.ite (.holdStop ..) (.goBraking ..))
  · exact (Moves.modAxis (by simp [Axis.settings]) fun h =>
      ⟨h.amplifier, h.released, h.still, by simpa using h.stop, h.profile, h.releaseCheck⟩).follows

theorem Follows.stopAxis (s : State) (i : AxisId) (r : StopReason) (d : StopTarget) :
    Follows s (s.stopAxis i r d) := by
  unfold State.stopAxis
  split
  · exact .takeStop ..
  · exact (Follows.clearClaims ..).trans (.takeStop ..)

theorem Follows.stopBoth (s : State) (a : Ant) (r : StopReason) (d : StopTarget) :
    Follows s (s.stopBoth a r d) := Follows.forEach (fun s i => Follows.stopAxis s i r d) _ s

theorem Follows.runFieldTimers (s : State) (a : Ant) : Follows s (s.runFieldTimers a) := by
  refine Moves.follows (ps := [.drives]) ?_
  unfold State.runFieldTimers
  refine Moves.modAnt (fun v => ⟨rfl, fun ax => ?_⟩) fun v ax h => ?_
  · cases ax <;> simp [Antenna.runBand, PerAxis.get, PerAxis.map, Axis.runDisagree, Axis.settings]
  · cases ax <;> exact h.of_same

theorem Follows.enableBus (s : State) (a : Ant) : Follows s (s.enableBus a) := by
  unfold State.enableBus
  have h (s : State) (f : Antenna → Antenna) (hf : ∀ v, (f v).axes = v.axes
      ∧ (f v).configInvalid = v.configInvalid) : Follows s (s.modAnt a f) :=
    (Moves.modAnt (by simp [hf]) fun v ax h => by rw [(hf v).1]; exact h).follows
  dsimp only
  split
  · refine Follows.trans ?_ (.runFieldTimers ..)
    refine Follows.trans ?_ (Follows.forEach (fun s i => ?_) _ _)
    · refine Follows.trans ?_ (h _ _ ?_)
      · exact h s _ fun _ => ⟨rfl, rfl⟩
      · exact fun _ => ⟨rfl, rfl⟩
    · exact .ite (.enterAxis ..) (.refl ..)
  · exact h s _ fun _ => ⟨rfl, rfl⟩

theorem Follows.addClaim (s : State) (i : AxisId) (src : ClaimSource) : Follows s (s.addClaim i src) := by
  have h : Follows s (s.modAxis i fun x => x.addClaim s.now src) :=
    (Moves.modAxis (by simp [Axis.addClaim, Axis.settings]) Axis.Lawful.of_same).follows
  unfold State.addClaim
  split
  · dsimp only
    split
    · exact h
    · exact h.trans (.enableBus ..)
  · exact .refl ..

theorem Follows.dropClaim (s : State) (i : AxisId) (src : ClaimSource) : Follows s (s.dropClaim i src) :=
  (Moves.modAxis (by simp [Axis.dropClaim, Axis.settings]) Axis.Lawful.of_same).follows

theorem Follows.dropClaims (s : State) (a : Ant) (src : ClaimSource) : Follows s (s.dropClaims a src) :=
  Follows.forEach (fun s i => Follows.dropClaim s i src) _ s

/-! ### Zones and the shed -/

theorem Follows.modShedCap (s : State) (z : ZoneId) (c : Option Nat) :
    Follows s (s.modZone z fun v => { v with shedCap := c }) :=
  (Moves.modZone (by simp [Zone.settings, Zone.requests, Zone.record])).follows

theorem Follows.lowerZone (s : State) (o : Bool) (z : ZoneId) : Follows s (s.lowerZone o z) := by
  refine Follows.trans (Moves.modZone fun v => ?_).follows (Moves.markFreedIf ..).follows
  unfold Zone.lowerTo
  split <;> simp [Zone.settings, Zone.requests, Zone.record]

theorem Follows.capZone (s : State) (o d : Bool) (z : ZoneId) : Follows s (s.capZone o d z) :=
  (Follows.modShedCap ..).trans (.lowerZone ..)

theorem Follows.raiseIf (s : State) (b : Bool) (w : FlagWord) : Follows s (s.raiseIf b w) :=
  (Moves.raiseIf ..).follows

theorem Follows.imposeShed (s : State) (o g d : Bool) : Follows s (s.imposeShed o g d) := by
  unfold State.imposeShed
  dsimp only
  refine Follows.trans (Follows.trans ?_ (Follows.forEach (fun s z => Follows.capZone s o _ z) _ _))
    (.raiseIf ..)
  exact Moves.follows (ps := [.feed]) (Moves.modFeed (fun _ => ⟨rfl, rfl, rfl, rfl⟩) id)

theorem Follows.needTest (s : State) : Follows s s.needTest := by
  unfold State.needTest
  split
  · exact .refl ..
  · exact .ite (.imposeShed ..) (.refl ..)

theorem Follows.makeRoom (s : State) (f : Fit) (d : Bool) : Follows s (s.makeRoom f d) := by
  unfold State.makeRoom
  split
  · exact .imposeShed ..
  · exact .imposeShed ..
  · exact .refl ..

theorem Follows.afterGrant (s : State) (f : Fit) (n : Nat) : Follows s (s.afterGrant f n) := by
  unfold State.afterGrant
  split
  · exact (Follows.needTest ..).trans (Moves.markFreedIf ..).follows
  · exact (Moves.markFreed ..).follows

/-! ### Grants -/

theorem Follows.changeStanding (s : State) (i : AxisId) (g : Standing) :
    Follows s (s.changeStanding i g) :=
  (Moves.setStanding ..).follows.trans (Moves.markFreedIf ..).follows

theorem Follows.modJog (s : State) (a : Ant) (f : Jog → Jog) : Follows s (s.modJog a f) :=
  (Moves.modAuthority (by simp)).follows

theorem Follows.fallToHold (s : State) (i : AxisId) : Follows s (s.fallToHold i) := .changeStanding ..

theorem Follows.startJog (s : State) (i : AxisId) : Follows s (s.startJog i) := by
  unfold State.startJog
  split
  · exact (Follows.enterAxis ..).trans (.modJog ..)
  · exact .fallToHold ..

theorem Follows.noteRaise (s : State) (i : AxisId) (r : RaiseState) : Follows s (s.noteRaise i r) :=
  (Moves.modTrack (by simp [Track.plain])).follows

theorem Follows.setCover (s : State) (i : AxisId) (c : GrantCover) :
    Follows s (s.modAxis i fun x => { x with cover := c }) :=
  (Moves.modAxis (by simp [Axis.settings]) Axis.Lawful.of_same).follows

theorem Follows.setStanding (s : State) (i : AxisId) (g : Standing) : Follows s (s.setStanding i g) :=
  (Moves.setStanding ..).follows

theorem Follows.addStanding (s : State) (i : AxisId) (w : Nat) : Follows s (s.addStanding i w) :=
  .setStanding ..

theorem Follows.convertAxis (s : State) (c : GrantCover) (i : AxisId) (h : Nat) :
    Follows s (s.convertAxis c i h) := by
  unfold State.convertAxis
  exact .ite ((Follows.setStanding ..).trans (.setCover ..)) (.refl ..)

theorem Follows.ownGrant (s : State) (i : AxisId) : Follows s (s.ownGrant i) := by
  have h {t : State} (k : Follows s t) {f : Feed → Feed} (hf : ∀ v, (f v).limit = v.limit ∧ (f v).base = v.base
      ∧ (f v).period = v.period ∧ (f v).allowance = v.allowance ∧ (f v).queue = v.queue) :
      Follows s (t.modFeed f) := by
    refine k.trans (Moves.modFeed (fun v => ?_) ?_).follows
    · exact ⟨(hf v).1, (hf v).2.1, (hf v).2.2.1, (hf v).2.2.2.1⟩
    · rw [(hf _).2.2.2.2]; exact id
  unfold State.ownGrant
  split
  · split
    · exact .refl ..
    · exact .ite (h (.convertAxis ..) fun _ => ⟨rfl, rfl, rfl, rfl, rfl⟩) (.refl ..)
  · split
    · exact .refl ..
    · exact .ite (h (.convertAxis ..) fun _ => ⟨rfl, rfl, rfl, rfl, rfl⟩) (.refl ..)
  · exact .refl ..

theorem Follows.grantNeed (s : State) (n : Need) : Follows s (s.grantNeed n) := by
  unfold State.grantNeed
  split
  · exact (Follows.setStanding ..).trans ((Follows.setCover ..).trans (.enterAxis ..))
  · exact ((Follows.ownGrant ..).trans (.addStanding ..)).trans (.noteRaise ..)
  · exact ((Follows.ownGrant ..).trans (.addStanding ..)).trans (.startJog ..)

theorem Follows.modQueue (s : State) (f : List Need → List Need)
    (h : s.feed.queue.length ≤ 16 → (f s.feed.queue).length ≤ 16) :
    Follows s (s.modFeed fun v => { v with queue := f v.queue }) :=
  (Moves.modFeed (by simp) h).follows

theorem Follows.filterQueue (s : State) (p : Need → Bool) :
    Follows s (s.modFeed fun v => { v with queue := v.queue.filter p }) :=
  .modQueue s (fun q => q.filter p) fun h => (List.length_filter_le ..).trans h

theorem Follows.withdraw (s : State) (i : AxisId) : Follows s (s.withdraw i) := .filterQueue ..

theorem Follows.failJogBudget (s : State) (i : AxisId) : Follows s (s.failJogBudget i) := by
  unfold State.failJogBudget
  exact .ite (.modJog ..) (.refl ..)

theorem Follows.raise (s : State) (w : FlagWord) : Follows s (s.raise w) := (Moves.raise ..).follows

theorem Follows.needLost (s : State) (n : Need) : Follows s (s.needLost n) := by
  unfold State.needLost
  split
  · exact (Follows.dropClaim ..).trans ((Follows.dropClaim ..).trans ((Follows.dropClaim ..).trans
      ((Follows.failJogBudget ..).trans ((Follows.raise ..).trans (.raise ..)))))
  · exact (Follows.noteRaise ..).trans (.raise ..)
  · exact (Follows.dropClaim ..).trans ((Follows.failJogBudget ..).trans ((Follows.raise ..).trans (.raise ..)))

theorem Follows.admitNeed (s : State) (n : Need) (f : Fit) : Follows s (s.admitNeed n f) :=
  (Follows.makeRoom ..).trans ((Follows.grantNeed ..).trans (.afterGrant ..))

theorem Follows.joinQueue (s : State) (n : Need) : Follows s (s.joinQueue n) := by
  unfold State.joinQueue
  split
  · exact .modQueue s (fun q => q ++ [n]) fun _ => by simp; omega
  · exact .needLost ..

theorem Follows.askNeed (s : State) (i : AxisId) (k : NeedKind) (w : Nat) :
    Follows s (s.askNeed i k w) := by
  unfold State.askNeed
  exact .ite (.admitNeed ..) (.joinQueue ..)

theorem Follows.offerQueue (n : Nat) (s : State) : Follows s (s.offerQueue n) := by
  induction n generalizing s with
  | zero => exact .refl ..
  | succ n ih =>
    unfold State.offerQueue
    split
    · exact .refl ..
    · rename_i m rest hq
      refine .ite (.refl ..) ?_
      refine Follows.trans ?_ (ih _)
      exact Follows.trans (.modQueue s (fun _ => rest) fun h => by rw [hq] at h; simp at h; omega)
        (.admitNeed ..)

theorem Follows.forgetRaise (s : State) (n : Need) : Follows s (s.forgetRaise n) := by
  unfold State.forgetRaise
  exact .ite (.noteRaise ..) (.refl ..)

theorem Follows.withdrawVoid (s : State) : Follows s s.withdrawVoid :=
  (Follows.filterQueue s fun n => !s.needVoid n).trans
    (Follows.forEach (fun s n => Follows.forgetRaise s n) _ _)

/-! ### Group and wave grants -/

theorem Follows.foldAxis (s : State) (c : GrantCover) (i : AxisId) : Follows s (s.foldAxis c i) := by
  unfold State.foldAxis
  refine ((Follows.setStanding s i ⟨0, 0⟩).trans (.withdraw _ i)).trans ?_
  dsimp only
  exact .ite (.setCover ..) (.refl ..)

theorem Follows.convertGrant (s : State) (c : GrantCover) (w : Nat) (hs : List (AxisId × Nat)) :
    Follows s (s.convertGrant c w hs) :=
  Follows.forEach (fun s (p : AxisId × Nat) => Follows.convertAxis s c p.1 p.2) _ s

theorem Follows.markFreed (s : State) : Follows s s.markFreed := (Moves.markFreed ..).follows

theorem Follows.releaseGroupGrant (s : State) (g : GroupId) : Follows s (s.releaseGroupGrant g) := by
  unfold State.releaseGroupGrant
  split
  · exact .refl ..
  · refine Follows.trans (Follows.trans ?_ (Moves.modFeed (by simp) id).follows) (.markFreed ..)
    exact .convertGrant ..

theorem Follows.releaseWaveGrant (s : State) (a : Ant) : Follows s (s.releaseWaveGrant a) := by
  unfold State.releaseWaveGrant
  split
  · exact .refl ..
  · exact ((Follows.convertGrant ..).trans (Moves.modFeed (by simp) id).follows).trans (.markFreed ..)

theorem Follows.lowerWaveGrant (s : State) (a : Ant) : Follows s (s.lowerWaveGrant a) := by
  unfold State.lowerWaveGrant
  split
  · exact .refl ..
  · exact (Moves.modFeed (by simp) id).follows.trans (.markFreed ..)

theorem Follows.grantGroup (s : State) (g : GroupId) (d : Nat) (xs : List AxisId) :
    Follows s (s.grantGroup g d xs) := by
  unfold State.grantGroup
  refine (Follows.forEach (fun s i => Follows.foldAxis s (.group g) i) xs s).trans ?_
  exact Moves.follows (ps := [.feed]) (Moves.modFeed (fun _ => ⟨rfl, rfl, rfl, rfl⟩) id)

theorem Follows.grantWave (s : State) (a : Ant) (d : Nat) : Follows s (s.grantWave a d) := by
  unfold State.grantWave
  refine (Follows.forEach (fun s i => Follows.foldAxis s .wave i) a.axes s).trans ?_
  exact Moves.follows (ps := [.feed]) (Moves.modFeed (fun _ => ⟨rfl, rfl, rfl, rfl⟩) id)

theorem Follows.releaseGroup (s : State) (g : GroupId) : Follows s (s.releaseGroup g) := by
  unfold State.releaseGroup
  refine Follows.trans ?_ (Follows.forEach (fun s i => Follows.dropClaim s i .group) _ _)
  refine (Follows.releaseGroupGrant s g).trans ?_
  exact Moves.follows (ps := [.groups]) (Moves.modGroup fun _ => rfl)

/-! ### Horns and stow -/

theorem Follows.modHorn {s : State} {a : Ant} {f : Horn → Horn} (h : ∀ v, (f v).forceTimer = v.forceTimer) :
    Follows s (s.modHorn a f) := (Moves.modHorn h).follows

theorem Follows.modStow (s : State) (a : Ant) (f : StowRecord → StowRecord) : Follows s (s.modStow a f) :=
  (Moves.modStow ..).follows

theorem Follows.setWave (s : State) (w : Option Wave) : Follows s (s.setWave w) :=
  (Moves.setWave ..).follows

theorem Follows.markForm (s : State) : Follows s s.markForm := (Moves.markForm ..).follows

theorem Follows.refreshHorn (s : State) (a : Ant) : Follows s (s.refreshHorn a) :=
  .modHorn fun _ => Horn.play_forceTimer ..

theorem Follows.setWarning (s : State) (a : Ant) (t : Timer) : Follows s (s.setWarning a t) :=
  (Follows.modStow ..).trans (.refreshHorn ..)

theorem Follows.setStow (s : State) (a : Ant) (st : StowState) : Follows s (s.setStow a st) := .modStow ..

theorem Follows.goBlocked (s : State) (a : Ant) : Follows s (s.goBlocked a) :=
  (Follows.setStow ..).trans (.stopBoth ..)

theorem Follows.goWaiting (s : State) (a : Ant) : Follows s (s.goWaiting a) :=
  (Follows.setStow ..).trans (.markForm ..)

theorem Follows.putDown (s : State) (a : Ant) : Follows s (s.putDown a) := .stopBoth ..

theorem Follows.leaveWave (s : State) (a : Ant) : Follows s (s.leaveWave a) := by
  refine (Follows.modStow s a fun r => { r with member := false }).trans ?_
  unfold State.leaveWave
  split
  · exact .refl ..
  · dsimp only
    exact .ite ((Follows.setWave ..).trans (.markForm ..)) (.setWave ..)

theorem Follows.stowAtRest (s : State) (a : Ant) : Follows s (s.stowAtRest a) := by
  unfold State.stowAtRest
  exact .ite (.ite (.goBlocked ..) (.ite (.setStow ..) (.goWaiting ..))) (.refl ..)

theorem Follows.admitToWave (s : State) (a : Ant) (f : Fit) : Follows s (s.admitToWave a f) := by
  unfold State.admitToWave
  refine Follows.trans ?_ (Follows.forEach (fun s i => Follows.addClaim s i .stow) _ _)
  refine Follows.trans ?_ (.ite (.refl ..) (.setWarning ..))
  refine Follows.trans ?_ (.modStow ..)
  exact ((Follows.makeRoom ..).trans (.grantWave ..)).trans (.afterGrant ..)

theorem Follows.walkWave (xs : List Ant) (s : State) : Follows s (s.walkWave xs).2 := by
  induction xs generalizing s with
  | nil => exact .refl ..
  | cons a rest ih =>
    unfold State.walkWave
    split
    · exact ih s
    · split
      · exact .refl ..
      · exact (Follows.admitToWave ..).trans (ih _)

theorem Follows.formWave (s : State) : Follows s s.formWave := by
  unfold State.formWave
  refine .ite (.refl ..) ?_
  dsimp only
  split
  · exact .walkWave ..
  · exact (Follows.walkWave ..).trans (.setWave ..)

/-! ### All that follows -/

theorem Follows.endDisable (s : State) (a : Ant) : Follows s (s.endDisable a) := by
  unfold State.endDisable
  refine .ite ?_ (.refl ..)
  refine Follows.trans ?_ (Follows.forEach (fun s i => ?_) _ _)
  · exact Moves.follows (ps := [.drives]) (Moves.modAnt (fun _ => ⟨rfl, fun _ => ⟨rfl, rfl, rfl⟩⟩)
      fun _ _ h => h)
  · exact .ite (.enterAxis ..) (.refl ..)

theorem Follows.torqueUnder (s : State) (i : AxisId) (c : GrantCover) : Follows s (s.torqueUnder i c) :=
  (Follows.setCover ..).trans (.enterAxis ..)

theorem Follows.seekTorque (s : State) (i : AxisId) : Follows s (s.seekTorque i) := by
  unfold State.seekTorque
  refine .ite (.ite ?_ (.ite (.ite (.torqueUnder ..) (.refl ..)) (.ite (.refl ..) (.askNeed ..))))
    (.refl ..)
  split
  · exact .torqueUnder ..
  · exact .refl ..

theorem Follows.releaseIfStill (s : State) (g : GroupId) : Follows s (s.releaseIfStill g) := by
  unfold State.releaseIfStill
  exact .ite (.releaseGroup ..) (.refl ..)

theorem Follows.releaseIfOver (s : State) (a : Ant) : Follows s (s.releaseIfOver a) := by
  unfold State.releaseIfOver
  exact .ite (.releaseWaveGrant ..) (.refl ..)

theorem Follows.clearMarks (s : State) : Follows s s.clearMarks := (Moves.clearMarks ..).follows

theorem Follows.offer (s : State) : Follows s s.offer := by
  unfold State.offer
  exact .ite ((Follows.clearMarks ..).trans ((Follows.formWave ..).trans (.offerQueue ..)))
    (.ite ((Follows.clearMarks ..).trans (.formWave ..)) (.refl ..))

theorem Follows.offerFreed (n : Nat) (s : State) : Follows s (s.offerFreed n) := by
  induction n generalizing s with
  | zero => exact .refl ..
  | succ n ih =>
    unfold State.offerFreed
    exact .ite ((Follows.offer s).trans (ih _)) (.refl ..)

theorem Follows.offerFirst (s : State) : Follows s s.offerFirst := .offerFreed 4 s

theorem Follows.seekAll (s : State) : Follows s s.seekAll :=
  .forEach (fun s i => .ite ((Follows.offerFirst s).trans (.seekTorque _ i)) (.refl s)) _ s

theorem Follows.followUp (s : State) : Follows s s.followUp := by
  unfold State.followUp
  refine Follows.trans ?_ (Follows.forEach (fun s a => Follows.releaseIfOver s a) _ _)
  refine Follows.trans ?_ (Follows.forEach (fun s a => Follows.releaseIfStill s a) _ _)
  refine Follows.trans ?_ (Follows.forEach (fun s a => Follows.stowAtRest s a) _ _)
  exact Follows.trans (.withdrawVoid s) (Follows.forEach (fun s a => Follows.endDisable s a) _ _)

theorem Follows.settleRounds (n : Nat) (s : State) : Follows s (s.settleRounds n) := by
  induction n generalizing s with
  | zero => exact .refl ..
  | succ n ih =>
    unfold State.settleRounds
    refine Follows.trans ?_ (ih _)
    exact (Follows.followUp s).trans ((Follows.seekAll _).trans (.offer _))

/-- What follows an event changes only the follow parts. -/
theorem Follows.settle (s : State) : Follows s s.settle := by
  unfold State.settle
  exact .settleRounds 4 s

end Sys2Proof.Machine
end

