-- ==== Sys2Proof/Laws/Calm.lean ====
section
/-! SUPPORT. What follows an event leaves alone: an axis that has no need waiting and is at work keeps its
state and its motion; one that rests without claims keeps resting; a bus, a stow record, a group and a jog
change only where their own rules say so. -/

namespace Sys2Proof.Machine

set_option Elab.async false

/-! ### What is watched -/

/-- State, motion and outputs of an axis. -/
def Axis.core (x : Axis) :
    AxisState × Mdeg × Mdeg × Bool × Bool × Option Epoch × Option StopRecord × Option PendingStop
      × Option Profile :=
  (x.state, x.position, x.velocity, x.amplifier, x.released, x.releaseCheck, x.stop, x.pendingStop,
    x.profile)

/-- The stow record is decided by no formation and no coming to rest. -/
def State.quiet (s : State) (a : Ant) : Prop :=
  (s.stowOf a).state ≠ .stopping ∧ (s.stowOf a).state ≠ .waiting

/-- Nothing that follows an event takes the axis out of its state. -/
def State.steady (s : State) (i : AxisId) : Prop :=
  s.waits i = false ∧
    match (s.axis i).state with
    | .off => s.quiet i.ant
    | .braked =>
      s.quiet i.ant ∧ (s.axis i).claims.any = false ∧ (s.ants.get i.ant).disabling = false
    | .torqueUp => (s.stowOf i.ant).state ≠ .stopping
    | .holding => (s.stowOf i.ant).state ≠ .stopping
    | .braking => (s.stowOf i.ant).state ≠ .stopping
    | _ => True

/-- Bus, enable flag, out-of-band mark and precharge start. -/
def Antenna.power (v : Antenna) : BusState × Bool × Bool × Option Epoch :=
  (v.bus, v.enable, v.outOfBand, v.prechargeStart)

/-- A zone is lowered, if anything: its contactor follows its level, and the level does not rise. -/
structure Zone.Lowers (v w : Zone) : Prop where
  driven : v.driven → w.driven
  level : w.effective ≤ v.effective

theorem Zone.Lowers.refl (v : Zone) : v.Lowers v := ⟨id, le_rfl⟩

theorem Zone.Lowers.trans {v w x : Zone} (h : v.Lowers w) (k : w.Lowers x) : v.Lowers x :=
  ⟨k.driven ∘ h.driven, k.level.trans h.level⟩

/-! ### Nothing watched changes, but at some axes -/

/-- No axis. -/
def noAxis : AxisId → Prop := fun _ => False

/-- Nothing watched changes, but at the axes of `p`; and no claim but GROUP is lost, but at those of `q`. -/
structure StillBut (p q : AxisId → Prop) (s t : State) : Prop where
  core : ∀ j, ¬p j → (t.axis j).core = (s.axis j).core
  claims : ∀ j, ¬p j → (s.axis j).claims.any = false → (t.axis j).claims.any = false
  keeps : ∀ j, ¬q j → ∀ c, c ≠ .group → (s.axis j).claims.has c = true → (t.axis j).claims.has c = true
  waits : ∀ j, ¬p j → s.waits j = false → t.waits j = false
  power : ∀ a, (t.ants.get a).power = (s.ants.get a).power
  stow : ∀ a, t.stowOf a = s.stowOf a
  groups : t.groups = s.groups
  jogs : ∀ a, (t.jog a).map Jog.core = (s.jog a).map Jog.core
  zones : ∀ z, (s.zone z).Lowers (t.zone z)

/-- Nothing watched changes, but at the axes named. -/
abbrev Still (p : AxisId → Prop) (s t : State) : Prop := StillBut p p s t

theorem Still.refl (i : AxisId → Prop) (s : State) : Still i s s :=
  ⟨fun _ _ => rfl, fun _ _ => id, fun _ _ _ _ => id, fun _ _ => id, fun _ => rfl, fun _ => rfl, rfl,
    fun _ => rfl, fun _ => .refl _⟩

theorem StillBut.trans {p q : AxisId → Prop} {s t u : State} (h : StillBut p q s t) (k : StillBut p q t u) :
    StillBut p q s u where
  core j e := (k.core j e).trans (h.core j e)
  claims j e := k.claims j e ∘ h.claims j e
  keeps j e c hc := k.keeps j e c hc ∘ h.keeps j e c hc
  waits j e := k.waits j e ∘ h.waits j e
  power a := (k.power a).trans (h.power a)
  stow a := (k.stow a).trans (h.stow a)
  groups := k.groups.trans h.groups
  jogs a := (k.jogs a).trans (h.jogs a)
  zones z := (h.zones z).trans (k.zones z)

theorem Still.trans {i : AxisId → Prop} {s t u : State} (h : Still i s t) (k : Still i t u) : Still i s u :=
  StillBut.trans h k

theorem Still.at {s t : State} (i : AxisId → Prop) (h : Still noAxis s t) : Still i s t where
  core j _ := h.core j id
  claims j _ := h.claims j id
  keeps j _ := h.keeps j id
  waits j _ := h.waits j id
  power := h.power
  stow := h.stow
  groups := h.groups
  jogs := h.jogs
  zones := h.zones

theorem Still.ite {i : AxisId → Prop} {c : Prop} [Decidable c] {s t u : State} (h : Still i s t)
    (k : Still i s u) : Still i s (if c then t else u) := by
  split
  · exact h
  · exact k

theorem Still.forEach {α : Type} {i : AxisId → Prop} {f : State → α → State}
    (h : ∀ s x, Still i s (f s x)) (xs : List α) (s : State) : Still i s (forEach xs f s) := by
  induction xs generalizing s with
  | nil => exact .refl i s
  | cons x xs ih => exact (h s x).trans (ih (f s x))

/-! ### Single updates -/

/-- An update away from the drives, the stow records, the groups, the authority, the zones and the
queue. -/
theorem Still.away {s t : State} (ha : t.ants = s.ants) (hq : ∀ i, s.waits i = false → t.waits i = false)
    (hs : t.stow.records = s.stow.records) (hg : t.groups = s.groups)
    (hl : t.locks.authority = s.locks.authority) (hz : t.heat.zones = s.heat.zones) : Still noAxis s t where
  core j _ := by simp only [State.axis, ha]
  claims j _ := by simp only [State.axis, ha]; exact id
  keeps j _ c _ := by simp only [State.axis, ha]; exact id
  waits j _ := hq j
  power a := by rw [ha]
  stow a := by simp only [State.stowOf, hs]
  groups := hg
  jogs a := by simp only [State.jog, hl]
  zones z := by simp only [State.zone, hz]; exact .refl _

theorem Still.modFeed {s : State} {f : Feed → Feed}
    (h : ∀ n, n ∈ (f s.feed).queue → n ∈ s.feed.queue) : Still noAxis s (s.modFeed f) := by
  refine .away rfl (fun i hi => ?_) rfl rfl rfl rfl
  simp only [State.waits, State.feed_modFeed, List.any_eq_false] at hi ⊢
  exact fun n hn => hi n (h n hn)

theorem Still.setStanding (s : State) (i : AxisId) (g : Standing) : Still noAxis s (s.setStanding i g) :=
  .away rfl (fun _ => id) rfl rfl rfl rfl

theorem Still.scratch (s : State) (m : Scratch) : Still noAxis s { s with scratch := m } :=
  .away rfl (fun _ => id) rfl rfl rfl rfl

theorem Still.markFreed (s : State) : Still noAxis s s.markFreed := .scratch ..
theorem Still.markForm (s : State) : Still noAxis s s.markForm := .scratch ..
theorem Still.clearMarks (s : State) : Still noAxis s s.clearMarks := .scratch ..
theorem Still.raise (s : State) (w : FlagWord) : Still noAxis s (s.raise w) := .scratch ..

theorem Still.markFreedIf (s : State) (b : Bool) : Still noAxis s (s.markFreedIf b) := by
  unfold State.markFreedIf
  exact .ite (.markFreed s) (.refl ..)

theorem Still.raiseIf (s : State) (b : Bool) (w : FlagWord) : Still noAxis s (s.raiseIf b w) := by
  unfold State.raiseIf
  exact .ite (.raise ..) (.refl ..)

theorem Still.modTrack (s : State) (a : Ant) (f : Track → Track) : Still noAxis s (s.modTrack a f) :=
  .away rfl (fun _ => id) rfl rfl rfl rfl

theorem Still.setWave (s : State) (w : Option Wave) : Still noAxis s (s.setWave w) :=
  .away rfl (fun _ => id) rfl rfl rfl rfl

theorem Still.modHorn (s : State) (a : Ant) (f : Horn → Horn) : Still noAxis s (s.modHorn a f) :=
  .away rfl (fun _ => id) rfl rfl rfl rfl

theorem Antenna.power_setAxis (s : State) (i : AxisId) (x : Axis) (a : Ant) :
    ((s.setAxis i x).ants.get a).power = (s.ants.get a).power := by
  simp only [State.setAxis, State.setAnt, Six.get_set]
  split
  · rename_i h; subst h; rfl
  · rfl

/-- An update of an axis that keeps what is watched of it. -/
theorem Still.modAxis {s : State} {i : AxisId} {f : Axis → Axis} (h : ∀ x, (f x).core = x.core)
    (k : ∀ x, x.claims.any = false → (f x).claims.any = false)
    (l : ∀ x c, c ≠ .group → x.claims.has c = true → (f x).claims.has c = true) :
    Still noAxis s (s.modAxis i f) where
  core j _ := by rw [State.axis_modAxis]; split <;> simp_all
  claims j _ := by
    rw [State.axis_modAxis]; split
    · rename_i e; subst e; exact k _
    · exact id
  keeps j _ c hc := by
    rw [State.axis_modAxis]; split
    · rename_i e; subst e; exact l _ c hc
    · exact id
  waits _ _ := id
  power _ := Antenna.power_setAxis ..
  stow _ := rfl
  groups := rfl
  jogs _ := rfl
  zones _ := .refl _

/-- Any update of the axis named. -/
theorem Still.modAxis_self (s : State) (i : AxisId) (f : Axis → Axis) : Still (· = i) s (s.modAxis i f) where
  core j e := by rw [State.axis_modAxis, if_neg e]
  claims j e := by rw [State.axis_modAxis, if_neg e]; exact id
  keeps j e c _ := by rw [State.axis_modAxis, if_neg e]; exact id
  waits _ _ := id
  power _ := Antenna.power_setAxis ..
  stow _ := rfl
  groups := rfl
  jogs _ := rfl
  zones _ := .refl _

theorem Still.setCover (s : State) (i : AxisId) (c : GrantCover) :
    Still noAxis s (s.modAxis i fun x => { x with cover := c }) := .modAxis (fun _ => rfl) (fun _ => id) fun _ _ _ => id

theorem Claims.any_put_false {c : Claims} (src : ClaimSource) (h : c.any = false) :
    (c.put src false).any = false := by
  cases src <;> simp_all [Claims.any, Claims.put]

/-- A claim dropped leaves every other claim of every axis. -/
theorem Still.dropOne (s : State) (i : AxisId) (src : ClaimSource) :
    StillBut noAxis (· = i) s (s.dropClaim i src) where
  core j _ := by
    unfold State.dropClaim; rw [State.axis_modAxis]; split
    · rename_i e; subst e; rfl
    · rfl
  claims j _ := by
    unfold State.dropClaim; rw [State.axis_modAxis]; split
    · rename_i e; subst e; exact fun h => Claims.any_put_false src h
    · exact id
  keeps j e c _ := by unfold State.dropClaim; rw [State.axis_modAxis, if_neg e]; exact id
  waits _ _ := id
  power _ := Antenna.power_setAxis ..
  stow _ := rfl
  groups := rfl
  jogs _ := rfl
  zones _ := .refl _

theorem StillBut.mono {p q p' q' : AxisId → Prop} {s t : State} (h : StillBut p q s t) (k : ∀ j, p j → p' j)
    (l : ∀ j, q j → q' j) : StillBut p' q' s t where
  core j e := h.core j (e ∘ k j)
  claims j e := h.claims j (e ∘ k j)
  keeps j e := h.keeps j (e ∘ l j)
  waits j e := h.waits j (e ∘ k j)
  power := h.power
  stow := h.stow
  groups := h.groups
  jogs := h.jogs
  zones := h.zones

theorem Still.dropClaim (s : State) (i : AxisId) (src : ClaimSource) : Still (· = i) s (s.dropClaim i src) :=
  (Still.dropOne s i src).mono (fun _ => False.elim) fun _ => id

theorem Claims.has_dropGroup {c : Claims} {src : ClaimSource} (h : src ≠ .group) (k : c.has src = true) :
    (c.put .group false).has src = true := by
  cases src <;> simp_all [Claims.has, Claims.put]

theorem Still.dropGroup (s : State) (i : AxisId) : Still noAxis s (s.dropClaim i .group) :=
  .modAxis (fun _ => rfl) (fun _ h => Claims.any_put_false .group h) fun _ _ h k => Claims.has_dropGroup h k

theorem Still.changeStanding (s : State) (i : AxisId) (g : Standing) : Still noAxis s (s.changeStanding i g) :=
  (Still.setStanding ..).trans (.markFreedIf ..)

theorem Still.enterAxis (s : State) (i : AxisId) (st : AxisState) : Still (· = i) s (s.enterAxis i st) :=
  (Still.modAxis_self ..).trans ((Still.changeStanding ..).at _)

theorem Still.modJog {s : State} {a : Ant} {f : Jog → Jog} (h : ∀ j, (f j).core = j.core) :
    Still noAxis s (s.modJog a f) where
  core _ _ := rfl
  claims _ _ := id
  keeps _ _ _ _ := id
  waits _ _ := id
  power _ := rfl
  stow _ := rfl
  groups := rfl
  jogs b := by
    simp only [State.jog, State.modJog, State.authority_get_modAuthority]
    split
    · rename_i e; subst e; simp only [Option.map_map]; congr 1; exact funext h
    · rfl
  zones _ := .refl _

theorem Still.modZone {s : State} {z : ZoneId} {f : Zone → Zone} (h : ∀ v : Zone, v.Lowers (f v)) :
    Still noAxis s (s.modZone z f) where
  core _ _ := rfl
  claims _ _ := id
  keeps _ _ _ _ := id
  waits _ _ := id
  power _ := rfl
  stow _ := rfl
  groups := rfl
  jogs _ := rfl
  zones y := by
    rw [State.zone_modZone]; split
    · rename_i e; subst e; exact h _
    · exact .refl _

/-! ### The shed and the needs -/

theorem Zone.driven_lowerTo {z : Zone} (c : Nat) (h : z.driven) : (z.lowerTo c).driven := by
  unfold Zone.lowerTo
  split
  · simp only [Zone.driven] at h ⊢
    rw [h]
    by_cases hc : z.step < c
    · simp [hc]; omega
    · simp [hc]
  · exact h

theorem Zone.lowers_lowerTo (z : Zone) (c : Nat) : z.Lowers (z.lowerTo c) := by
  refine ⟨Zone.driven_lowerTo c, ?_⟩
  unfold Zone.lowerTo
  split
  · rename_i h; exact h.le
  · exact le_rfl

theorem Still.lowerZone (s : State) (o : Bool) (z : ZoneId) : Still noAxis s (s.lowerZone o z) :=
  (Still.modZone fun _ => Zone.lowers_lowerTo ..).trans (.markFreedIf ..)

theorem Still.modShedCap (s : State) (z : ZoneId) (c : Option Nat) :
    Still noAxis s (s.modZone z fun v => { v with shedCap := c }) := .modZone fun _ => ⟨id, le_rfl⟩

theorem Still.capZone (s : State) (o d : Bool) (z : ZoneId) : Still noAxis s (s.capZone o d z) :=
  (Still.modShedCap ..).trans (.lowerZone ..)

theorem Still.imposeShed (s : State) (o g d : Bool) : Still noAxis s (s.imposeShed o g d) := by
  unfold State.imposeShed
  dsimp only
  refine Still.trans (Still.trans ?_ (Still.forEach (fun s z => Still.capZone s o _ z) _ _)) (.raiseIf ..)
  exact .modFeed fun _ => id

theorem Still.needTest (s : State) : Still noAxis s s.needTest := by
  unfold State.needTest
  split
  · exact .refl ..
  · exact .ite (.imposeShed ..) (.refl ..)

theorem Still.makeRoom (s : State) (f : Fit) (d : Bool) : Still noAxis s (s.makeRoom f d) := by
  unfold State.makeRoom
  split
  · exact .imposeShed ..
  · exact .imposeShed ..
  · exact .refl ..

theorem Still.afterGrant (s : State) (f : Fit) (n : Nat) : Still noAxis s (s.afterGrant f n) := by
  unfold State.afterGrant
  split
  · exact (Still.needTest ..).trans (.markFreedIf ..)
  · exact .markFreed ..

theorem Still.noteRaise (s : State) (i : AxisId) (r : RaiseState) : Still noAxis s (s.noteRaise i r) :=
  .modTrack ..

theorem Still.failJogBudget (s : State) (i : AxisId) : Still noAxis s (s.failJogBudget i) := by
  unfold State.failJogBudget
  exact .ite (.modJog fun _ => rfl) (.refl ..)

theorem Still.runJog (s : State) (a : Ant) (r : JogRamp) :
    Still noAxis s (s.modJog a fun j => { j with phase := .running, ramp := some r }) := .modJog fun _ => rfl

theorem Still.startJog (s : State) (i : AxisId) : Still (· = i) s (s.startJog i) := by
  unfold State.startJog
  dsimp only
  exact .ite ((Still.enterAxis ..).trans ((Still.runJog ..).at _)) ((Still.changeStanding ..).at _)

theorem Still.addStanding (s : State) (i : AxisId) (w : Nat) : Still noAxis s (s.addStanding i w) :=
  .setStanding ..

theorem Still.convertAxis (s : State) (c : GrantCover) (i : AxisId) (h : Nat) :
    Still noAxis s (s.convertAxis c i h) := by
  unfold State.convertAxis
  exact .ite ((Still.setStanding ..).trans (.setCover ..)) (.refl ..)

theorem Still.ownGrant (s : State) (i : AxisId) : Still noAxis s (s.ownGrant i) := by
  unfold State.ownGrant
  split
  · split
    · exact .refl ..
    · exact .ite ((Still.convertAxis ..).trans (.modFeed fun _ => id)) (.refl ..)
  · split
    · exact .refl ..
    · exact .ite ((Still.convertAxis ..).trans (.modFeed fun _ => id)) (.refl ..)
  · exact .refl ..

theorem Still.grantNeed (s : State) (n : Need) : Still (· = n.axis) s (s.grantNeed n) := by
  unfold State.grantNeed
  split
  · exact ((Still.setStanding ..).at _).trans (((Still.setCover ..).at _).trans (.enterAxis ..))
  · exact (((Still.ownGrant ..).trans (.addStanding ..)).trans (.noteRaise ..)).at _
  · exact (((Still.ownGrant ..).trans (.addStanding ..)).at _).trans (.startJog ..)

theorem Still.needLost (s : State) (n : Need) : Still (· = n.axis) s (s.needLost n) := by
  unfold State.needLost
  split
  · exact (Still.dropClaim ..).trans ((Still.dropClaim ..).trans ((Still.dropClaim ..).trans
      (((Still.failJogBudget ..).trans ((Still.raise ..).trans (.raise ..))).at _)))
  · exact ((Still.noteRaise ..).trans (.raise ..)).at _
  · exact (Still.dropClaim ..).trans (((Still.failJogBudget ..).trans ((Still.raise ..).trans (.raise ..))).at _)

theorem Still.admitNeed (s : State) (n : Need) (f : Fit) : Still (· = n.axis) s (s.admitNeed n f) :=
  ((Still.makeRoom ..).at _).trans ((Still.grantNeed ..).trans ((Still.afterGrant ..).at _))

theorem Still.joinQueue (s : State) (n : Need) : Still (· = n.axis) s (s.joinQueue n) := by
  unfold State.joinQueue
  split
  · refine
      { core := fun _ _ => rfl, claims := fun _ _ => id, keeps := fun _ _ _ _ => id, power := fun _ => rfl, stow := fun _ => rfl
        groups := rfl, jogs := fun _ => rfl, zones := fun _ => .refl _, waits := fun j e h => ?_ }
    simp only [State.waits, State.feed_modFeed, List.any_append] at h ⊢
    rw [h]
    simpa using fun h' => e h'.symm
  · exact .needLost ..

theorem Still.askNeed (s : State) (i : AxisId) (k : NeedKind) (w : Nat) :
    Still (· = i) s (s.askNeed i k w) := by
  unfold State.askNeed
  exact .ite (.admitNeed s ⟨i, k, w, s.now⟩ _) (.joinQueue s ⟨i, k, w, s.now⟩)

/-! ### Folding and converting -/

theorem Still.withdraw (s : State) (i : AxisId) : Still noAxis s (s.withdraw i) :=
  .modFeed fun _ h => (List.mem_filter.1 h).1

theorem Still.foldAxis (s : State) (c : GrantCover) (i : AxisId) : Still noAxis s (s.foldAxis c i) := by
  unfold State.foldAxis
  refine ((Still.setStanding s i ⟨0, 0⟩).trans (.withdraw _ i)).trans ?_
  dsimp only
  exact .ite (.setCover ..) (.refl ..)

theorem Still.convertGrant (s : State) (c : GrantCover) (w : Nat) (hs : List (AxisId × Nat)) :
    Still noAxis s (s.convertGrant c w hs) :=
  Still.forEach (fun s (p : AxisId × Nat) => Still.convertAxis s c p.1 p.2) _ s

theorem Still.releaseGroupGrant (s : State) (g : GroupId) : Still noAxis s (s.releaseGroupGrant g) := by
  unfold State.releaseGroupGrant
  split
  · exact .refl ..
  · refine Still.trans (Still.trans ?_ (.modFeed fun _ => id)) (.markFreed ..)
    exact .convertGrant ..

theorem Still.releaseWaveGrant (s : State) (a : Ant) : Still noAxis s (s.releaseWaveGrant a) := by
  unfold State.releaseWaveGrant
  split
  · exact .refl ..
  · exact ((Still.convertGrant ..).trans (.modFeed fun _ => id)).trans (.markFreed ..)

theorem Still.grantWave (s : State) (a : Ant) (d : Nat) : Still noAxis s (s.grantWave a d) := by
  unfold State.grantWave
  exact (Still.forEach (fun s i => Still.foldAxis s .wave i) a.axes s).trans (.modFeed fun _ => id)

theorem Still.withdrawVoid (s : State) : Still noAxis s s.withdrawVoid := by
  unfold State.withdrawVoid
  refine Still.trans (.modFeed fun _ h => (List.mem_filter.1 h).1) (Still.forEach (fun s n => ?_) _ _)
  unfold State.forgetRaise
  exact .ite (.noteRaise ..) (.refl ..)

/-! ### Through one of the things that follow -/

/-- What follows an event keeps every steady axis and everything else that its rules leave alone. -/
structure Calm (s t : State) : Prop where
  axes : ∀ i, s.steady i → (t.axis i).core = (s.axis i).core ∧ t.steady i
  claims : ∀ i, s.steady i → (s.quiet i.ant ∨ (s.axis i).state.isFaulted = true) →
    (s.axis i).claims.any = false → (t.axis i).claims.any = false
  keeps : ∀ i, s.steady i → (s.stowOf i.ant).state ≠ .stopping → ∀ c, c ≠ .group →
    (s.axis i).claims.has c = true → (t.axis i).claims.has c = true
  disabling : ∀ a, (s.ants.get a).disabling = false → (t.ants.get a).disabling = false
  power : ∀ a, (s.ants.get a).disabling = false → s.quiet a ∨ (s.ants.get a).bus ≠ .off →
    (t.ants.get a).bus = (s.ants.get a).bus ∧ (t.ants.get a).outOfBand = (s.ants.get a).outOfBand
      ∧ (t.ants.get a).prechargeStart = (s.ants.get a).prechargeStart
      ∧ ((s.ants.get a).enable = true → (t.ants.get a).enable = true)
  stopping : ∀ a, (s.stowOf a).state ≠ .stopping → (t.stowOf a).state ≠ .stopping
  stow : ∀ a, s.quiet a → t.stowOf a = s.stowOf a
  groups : ∀ g, (s.groups.get g).releasing = false → t.groups.get g = s.groups.get g
  jogs : ∀ a, (t.jog a).map Jog.core = (s.jog a).map Jog.core
  zones : ∀ z, (s.zone z).Lowers (t.zone z)

theorem State.quiet.of_stow {s t : State} {a : Ant} (h : s.quiet a) (e : t.stowOf a = s.stowOf a) :
    t.quiet a := by
  unfold State.quiet at h ⊢; rw [e]; exact h

theorem Calm.refl (s : State) : Calm s s :=
  ⟨fun _ h => ⟨rfl, h⟩, fun _ _ _ => id, fun _ _ _ _ _ => id, fun _ => id,
    fun _ _ _ => ⟨rfl, rfl, rfl, id⟩, fun _ => id, fun _ _ => rfl, fun _ _ => rfl, fun _ => rfl, fun _ => .refl _⟩

theorem Axis.core_state {x y : Axis} (h : x.core = y.core) : x.state = y.state := congrArg Prod.fst h

theorem Calm.trans {s t u : State} (h : Calm s t) (k : Calm t u) : Calm s u where
  axes i hi := by
    obtain ⟨h1, h2⟩ := h.axes i hi
    obtain ⟨k1, k2⟩ := k.axes i h2
    exact ⟨k1.trans h1, k2⟩
  claims i hi hq hc := by
    obtain ⟨h1, h2⟩ := h.axes i hi
    refine k.claims i h2 ?_ (h.claims i hi hq hc)
    rcases hq with hq | hq
    · exact .inl (hq.of_stow (h.stow _ hq))
    · exact .inr (by rw [Axis.core_state h1]; exact hq)
  keeps i hi hs c hc := k.keeps i (h.axes i hi).2 (h.stopping _ hs) c hc ∘ h.keeps i hi hs c hc
  disabling a := k.disabling a ∘ h.disabling a
  power a hd hq := by
    obtain ⟨h1, h2, h3, h4⟩ := h.power a hd hq
    obtain ⟨k1, k2, k3, k4⟩ := k.power a (h.disabling a hd) (by
      rcases hq with hq | hq
      · exact .inl (hq.of_stow (h.stow _ hq))
      · exact .inr (by rw [h1]; exact hq))
    exact ⟨k1.trans h1, k2.trans h2, k3.trans h3, k4 ∘ h4⟩
  stopping a := k.stopping a ∘ h.stopping a
  stow a hq := (k.stow a (hq.of_stow (h.stow _ hq))).trans (h.stow a hq)
  groups g hg := (k.groups g (by rw [h.groups g hg]; exact hg)).trans (h.groups g hg)
  jogs a := (k.jogs a).trans (h.jogs a)
  zones z := (h.zones z).trans (k.zones z)

theorem Calm.ite {c : Prop} [Decidable c] {s t u : State} (h : c → Calm s t) (k : ¬c → Calm s u) :
    Calm s (if c then t else u) := by
  split
  · rename_i e; exact h e
  · rename_i e; exact k e

theorem Calm.forEach {α : Type} {f : State → α → State} (h : ∀ s x, Calm s (f s x)) (xs : List α)
    (s : State) : Calm s (forEach xs f s) := by
  induction xs generalizing s with
  | nil => exact .refl s
  | cons x xs ih => exact (h s x).trans (ih (f s x))

theorem Antenna.power_bus {v w : Antenna} (h : v.power = w.power) : v.bus = w.bus := congrArg Prod.fst h
theorem Antenna.power_enable {v w : Antenna} (h : v.power = w.power) : v.enable = w.enable :=
  congrArg (fun p => p.2.1) h
theorem Antenna.power_outOfBand {v w : Antenna} (h : v.power = w.power) : v.outOfBand = w.outOfBand :=
  congrArg (fun p => p.2.2.1) h
theorem Antenna.power_prechargeStart {v w : Antenna} (h : v.power = w.power) :
    v.prechargeStart = w.prechargeStart := congrArg (fun p => p.2.2.2) h

theorem Antenna.disabling_eq {v w : Antenna} (h : v.power = w.power) : v.disabling = w.disabling := by
  unfold Antenna.disabling; rw [Antenna.power_bus h, Antenna.power_enable h]

theorem StillBut.steady {p q : AxisId → Prop} {s t : State} (h : StillBut p q s t) {j : AxisId} (e : ¬p j)
    (hj : s.steady j) : t.steady j := by
  refine ⟨h.waits j e hj.1, ?_⟩
  have hs := hj.2
  rw [Axis.core_state (h.core j e)]
  unfold State.quiet at hs ⊢
  rw [h.stow, Antenna.disabling_eq (h.power _)]
  split at hs
  · exact hs
  · exact ⟨hs.1, h.claims j e hs.2.1, hs.2.2⟩
  · exact hs
  · exact hs
  · exact hs
  · trivial

/-- A further change at axes that were not steady before. -/
theorem Calm.stillBut {p q : AxisId → Prop} {s t u : State} (h : Calm s t) (k : StillBut p q t u)
    (hp : ∀ j, p j → ¬s.steady j) (hq : ∀ j, q j → s.steady j → (s.stowOf j.ant).state = .stopping) :
    Calm s u where
  axes j hj := by
    have e : ¬p j := fun e => hp j e hj
    obtain ⟨h1, h2⟩ := h.axes j hj
    exact ⟨(k.core j e).trans h1, k.steady e h2⟩
  claims j hj hq := k.claims j (fun e => hp j e hj) ∘ h.claims j hj hq
  keeps j hj hs c hc := k.keeps j (fun e => hs (hq j e hj)) c hc ∘ h.keeps j hj hs c hc
  disabling a := by rw [Antenna.disabling_eq (k.power a)]; exact h.disabling a
  power a := by
    rw [Antenna.power_bus (k.power a), Antenna.power_outOfBand (k.power a),
      Antenna.power_prechargeStart (k.power a), Antenna.power_enable (k.power a)]
    exact h.power a
  stopping a := by rw [k.stow]; exact h.stopping a
  stow a := by rw [k.stow]; exact h.stow a
  groups g := by rw [k.groups]; exact h.groups g
  jogs a := (k.jogs a).trans (h.jogs a)
  zones z := (h.zones z).trans (k.zones z)

/-- A further change at axes that were not steady before, claims and all. -/
theorem Calm.still {p : AxisId → Prop} {s t u : State} (h : Calm s t) (k : Still p t u)
    (hp : ∀ j, p j → ¬s.steady j) : Calm s u := h.stillBut k hp fun j e hj => absurd hj (hp j e)

/-- A change at axes that were not steady. -/
theorem Still.calm {p : AxisId → Prop} {s t : State} (h : Still p s t) (hp : ∀ j, p j → ¬s.steady j) :
    Calm s t := (Calm.refl s).still h hp

theorem Still.calm_none {s t : State} (h : Still noAxis s t) : Calm s t := h.calm fun _ => False.elim

/-! ### The disable sequence and coming to rest -/

theorem Calm.enterFrom {s : State} {i : AxisId} {st : AxisState} (h : ¬s.steady i) :
    Calm s (s.enterAxis i st) := (Still.enterAxis s i st).calm (by rintro j rfl; exact h)

theorem State.not_steady_of_disabling {s : State} {i : AxisId} (h : (s.axis i).state = .braked)
    (hd : (s.ants.get i.ant).disabling = true) : ¬s.steady i := by
  rintro ⟨-, h2⟩; rw [h] at h2; simp [hd] at h2

@[simp] theorem State.waits_enterAxis (s : State) (i j : AxisId) (st : AxisState) :
    (s.enterAxis i st).waits j = s.waits j := by
  unfold State.enterAxis State.changeStanding State.markFreedIf; dsimp only; split <;> rfl

@[simp] theorem State.stowOf_enterAxis (s : State) (i : AxisId) (st : AxisState) (a : Ant) :
    (s.enterAxis i st).stowOf a = s.stowOf a := (Still.enterAxis s i st).stow a

@[simp] theorem State.groups_enterAxis (s : State) (i : AxisId) (st : AxisState) :
    (s.enterAxis i st).groups = s.groups := (Still.enterAxis s i st).groups

@[simp] theorem State.locks_enterAxis (s : State) (i : AxisId) (st : AxisState) :
    (s.enterAxis i st).locks = s.locks := by
  unfold State.enterAxis State.changeStanding State.markFreedIf; dsimp only; split <;> rfl

@[simp] theorem State.heat_enterAxis (s : State) (i : AxisId) (st : AxisState) :
    (s.enterAxis i st).heat = s.heat := by
  unfold State.enterAxis State.changeStanding State.markFreedIf; dsimp only; split <;> rfl

@[simp] theorem State.now_enterAxis (s : State) (i : AxisId) (st : AxisState) :
    (s.enterAxis i st).now = s.now := by
  unfold State.enterAxis State.changeStanding State.markFreedIf; dsimp only; split <;> rfl

theorem State.power_enterAxis (s : State) (i : AxisId) (st : AxisState) (a : Ant) :
    ((s.enterAxis i st).ants.get a).power = (s.ants.get a).power := (Still.enterAxis s i st).power a

/-- One axis goes OFF with its bus. -/
def State.offIfBraked (s : State) (i : AxisId) : State :=
  if (s.axis i).state = .braked then s.enterAxis i .off else s

theorem State.axis_offIfBraked (s : State) (i j : AxisId) :
    (s.offIfBraked i).axis j =
      if j = i ∧ (s.axis j).state = .braked then (s.axis j).enter s.now .off else s.axis j := by
  unfold State.offIfBraked
  split
  · rw [State.axis_enterAxis]
    split
    · rename_i h k; subst k; simp [h]
    · rename_i k; simp [k]
  · rename_i h
    split
    · rename_i k; exact absurd (k.1 ▸ k.2) h
    · rfl

theorem State.now_offIfBraked (s : State) (i : AxisId) : (s.offIfBraked i).now = s.now := by
  unfold State.offIfBraked; split <;> simp

theorem State.endDisable_eq (s : State) (a : Ant) :
    s.endDisable a = if (s.ants.get a).disabled then
      ((s.modAnt a Antenna.busOff).offIfBraked ⟨a, .az⟩).offIfBraked ⟨a, .el⟩ else s := rfl

theorem State.axis_endDisable (s : State) (a : Ant) (j : AxisId) :
    (s.endDisable a).axis j =
      if (s.ants.get a).disabled = true ∧ j.ant = a ∧ (s.axis j).state = .braked then
        (s.axis j).enter s.now .off
      else s.axis j := by
  rw [State.endDisable_eq]
  split
  · rename_i h
    obtain ⟨b, y⟩ := j
    rw [State.axis_offIfBraked, State.axis_offIfBraked]
    have hb : ((s.modAnt a Antenna.busOff).axis ⟨b, y⟩) = s.axis ⟨b, y⟩ := by
      rw [State.axis_modAnt]; split
      · rename_i e; dsimp only at e; subst e; rfl
      · rfl
    rw [hb]
    simp only [State.now_offIfBraked, State.now_modAnt_other, h, true_and, AxisId.mk.injEq]
    by_cases k : (s.axis ⟨b, y⟩).state = .braked <;> by_cases e : b = a <;> cases y <;> simp_all
  · rename_i h; rw [if_neg fun k => h k.1]

theorem State.waits_offIfBraked (s : State) (i j : AxisId) : (s.offIfBraked i).waits j = s.waits j := by
  unfold State.offIfBraked; split
  · exact State.waits_enterAxis ..
  · rfl

theorem Still.offIfBraked (s : State) (i : AxisId) : Still (· = i) s (s.offIfBraked i) := by
  unfold State.offIfBraked
  exact .ite (.enterAxis ..) (.refl ..)

/-- What the end of a disable sequence leaves alone away from the axes. -/
theorem State.endDisable_away (s : State) (a : Ant) :
    (∀ j, s.waits j = false → (s.endDisable a).waits j = false)
      ∧ (∀ b, (s.endDisable a).stowOf b = s.stowOf b) ∧ (s.endDisable a).groups = s.groups
      ∧ (∀ b, ((s.endDisable a).jog b).map Jog.core = (s.jog b).map Jog.core)
      ∧ (∀ z, (s.zone z).Lowers ((s.endDisable a).zone z))
      ∧ (∀ b, (s.ants.get b).disabled = false ∨ b ≠ a →
          ((s.endDisable a).ants.get b).power = (s.ants.get b).power) := by
  rw [State.endDisable_eq]
  split
  · rename_i hd
    set t := s.modAnt a Antenna.busOff
    have h1 := Still.offIfBraked t ⟨a, .az⟩
    have h2 := Still.offIfBraked (t.offIfBraked ⟨a, .az⟩) ⟨a, .el⟩
    have hq : ∀ j, ((t.offIfBraked ⟨a, .az⟩).offIfBraked ⟨a, .el⟩).waits j = s.waits j := fun j => by
      rw [State.waits_offIfBraked, State.waits_offIfBraked]; rfl
    refine ⟨fun j hj => (hq j).trans hj, fun b => (h2.stow b).trans (h1.stow b), h2.groups.trans h1.groups,
      fun b => (h2.jogs b).trans (h1.jogs b), fun z => (h1.zones z).trans (h2.zones z), fun b hb => ?_⟩
    rw [h2.power, h1.power, State.ants_get_modAnt, if_neg fun e => ?_]
    subst e
    rcases hb with hb | hb
    · simp [hb] at hd
    · exact hb rfl
  · exact ⟨fun _ => id, fun _ => rfl, rfl, fun _ => rfl, fun _ => .refl _, fun _ _ => rfl⟩

theorem State.disabled_disabling {v : Antenna} (h : v.disabled = true) : v.disabling = true := by
  simp [Antenna.disabled] at h; exact h.1.1

theorem State.busOff_disabling (s : State) (a : Ant) (h : (s.ants.get a).disabled = true) :
    ((s.endDisable a).ants.get a).disabling = false := by
  rw [State.endDisable_eq, if_pos h]
  have h1 := (Still.offIfBraked (s.modAnt a Antenna.busOff) ⟨a, .az⟩).power a
  have h2 := (Still.offIfBraked ((s.modAnt a Antenna.busOff).offIfBraked ⟨a, .az⟩) ⟨a, .el⟩).power a
  rw [Antenna.disabling_eq (h2.trans h1), State.ants_get_modAnt, if_pos rfl]
  rfl

theorem Calm.endDisable (s : State) (a : Ant) : Calm s (s.endDisable a) := by
  obtain ⟨hw, hs, hg, hj, hz, hp⟩ := State.endDisable_away s a
  have hax (i : AxisId) (hi : s.steady i) : (s.endDisable a).axis i = s.axis i := by
    rw [State.axis_endDisable, if_neg]
    rintro ⟨hd, rfl, hb⟩
    exact State.not_steady_of_disabling hb (State.disabled_disabling hd) hi
  have hdis (b : Ant) (h : (s.ants.get b).disabling = false) :
      ((s.endDisable a).ants.get b).power = (s.ants.get b).power :=
    hp b (.inl (by
      cases hd : (s.ants.get b).disabled
      · rfl
      · simp [State.disabled_disabling hd] at h))
  refine
    { axes := fun i hi => ⟨by rw [hax i hi], hw i hi.1, ?_⟩, claims := fun i hi _ h => by rw [hax i hi]; exact h
      keeps := fun i hi _ c _ h => by rw [hax i hi]; exact h
      disabling := fun b h => by rw [Antenna.disabling_eq (hdis b h)]; exact h
      power := fun b h _ => ⟨Antenna.power_bus (hdis b h), Antenna.power_outOfBand (hdis b h),
        Antenna.power_prechargeStart (hdis b h), by rw [Antenna.power_enable (hdis b h)]; exact id⟩
      stopping := fun b => by rw [hs]; exact id
      stow := fun b _ => hs b, groups := fun g _ => by rw [hg], jogs := hj, zones := hz }
  have h2 := hi.2
  rw [hax i hi]
  unfold State.quiet at h2 ⊢
  rw [hs]
  split at h2
  · exact h2
  · refine ⟨h2.1, h2.2.1, ?_⟩
    rw [Antenna.disabling_eq (hdis _ h2.2.2)]; exact h2.2.2
  · exact h2
  · exact h2
  · exact h2
  · trivial

/-! ### Stops -/

theorem Still.mono {p q : AxisId → Prop} {s t : State} (h : Still p s t) (k : ∀ j, p j → q j) : Still q s t :=
  StillBut.mono h k k

theorem Still.clearClaims (s : State) (i : AxisId) : StillBut noAxis (· = i) s (s.clearClaims i) where
  core j _ := by
    unfold State.clearClaims; rw [State.axis_modAxis]; split
    · rename_i e; subst e; rfl
    · rfl
  claims j _ := by
    unfold State.clearClaims; rw [State.axis_modAxis]; split
    · rename_i e; subst e; exact fun _ => rfl
    · exact id
  keeps j e c _ := by unfold State.clearClaims; rw [State.axis_modAxis, if_neg e]; exact id
  waits _ _ := id
  power _ := Antenna.power_setAxis ..
  stow _ := rfl
  groups := rfl
  jogs _ := rfl
  zones _ := .refl _

theorem Still.goBraking (s : State) (i : AxisId) (p : PendingStop) : Still (· = i) s (s.goBraking i p) :=
  (Still.enterAxis ..).trans (.modAxis_self ..)

theorem Still.endStop (s : State) (i : AxisId) (r : StopReason) (d : StopTarget) :
    Still (· = i) s (s.endStop i r d) := by
  cases d
  · exact .enterAxis ..
  · exact .goBraking ..
  · exact .goBraking ..

theorem Still.startStop (s : State) (i : AxisId) (r : StopReason) (d : StopTarget) :
    Still (· = i) s (s.startStop i r d) := by
  unfold State.startStop
  dsimp only
  have h (x : StopRecord) : Still (· = i) s ((s.modAxis i fun y => { y with stop := some x }).enterAxis i
      .stopping) := (Still.modAxis_self ..).trans (.enterAxis ..)
  split
  · exact (h _).trans (.endStop ..)
  · exact h _

/-- The axis waits for its bus or is FAULTED: a stop finds nothing to do. -/
def AxisState.inert : AxisState → Bool
  | .precharge => true
  | .faulted _ => true
  | _ => false

theorem Still.takeStop (s : State) (i : AxisId) (r : StopReason) (d : StopTarget) :
    Still (fun j => j = i ∧ (s.axis i).state.inert = false) s (s.takeStop i r d) := by
  have any (f : Axis → Axis) (h : (s.axis i).state.inert = false) :
      Still (fun j => j = i ∧ (s.axis i).state.inert = false) s (s.modAxis i f) :=
    (Still.modAxis_self s i f).mono fun j e => ⟨e, h⟩
  have start (h : (s.axis i).state.inert = false) :
      Still (fun j => j = i ∧ (s.axis i).state.inert = false) s (s.startStop i r d) :=
    (Still.startStop s i r d).mono fun j e => ⟨e, h⟩
  unfold State.takeStop
  split
  all_goals first
    | exact .refl ..
    | exact start (by simp_all [AxisState.inert])
    | exact any _ (by simp_all [AxisState.inert])
    | skip
  · exact .ite (.refl ..) (any _ (by simp_all [AxisState.inert]))
  · refine .ite (.refl ..) (.ite (any _ (by simp_all [AxisState.inert])) ?_)
    exact (Still.goBraking ..).mono fun j e => ⟨e, by simp_all [AxisState.inert]⟩

theorem Still.stopAxis (s : State) (i : AxisId) (r : StopReason) (d : StopTarget) :
    StillBut (fun j => j = i ∧ (s.axis i).state.inert = false) (· = i) s (s.stopAxis i r d) := by
  unfold State.stopAxis
  split
  · exact StillBut.mono (Still.takeStop ..) (fun _ => id) fun _ e => e.1
  · have h := Still.clearClaims s i
    refine (h.mono (fun _ => False.elim) fun _ => id).trans
      (StillBut.mono (Still.takeStop ..) (fun j e => ⟨e.1, ?_⟩) fun _ e => e.1)
    rw [← Axis.core_state (h.core i id)]; exact e.2

/-- The axes of an antenna that a stop may move. -/
def State.movable (s : State) (a : Ant) (j : AxisId) : Prop := j.ant = a ∧ (s.axis j).state.inert = false

theorem Still.stopBoth (s : State) (a : Ant) (r : StopReason) (d : StopTarget) :
    StillBut (s.movable a) (·.ant = a) s (s.stopBoth a r d) := by
  have h1 := Still.stopAxis s ⟨a, .az⟩ r d
  have h2 := Still.stopAxis (s.stopAxis ⟨a, .az⟩ r d) ⟨a, .el⟩ r d
  refine (h1.mono (fun j e => ?_) ?_).trans (h2.mono (fun j e => ?_) ?_)
  · obtain ⟨rfl, e⟩ := e; exact ⟨rfl, e⟩
  · rintro j rfl; rfl
  · obtain ⟨rfl, e⟩ := e
    refine ⟨rfl, ?_⟩
    rw [← Axis.core_state (h1.core ⟨a, .el⟩ (by simp))]; exact e
  · rintro j rfl; rfl

/-! ### Stow records -/

/-- A stow record that an event may decide changes, and nothing else. -/
theorem Calm.modStow {s : State} {a : Ant} {f : StowRecord → StowRecord} (h : ¬s.quiet a)
    (hs : (s.stowOf a).state ≠ .stopping → (f (s.stowOf a)).state ≠ .stopping) : Calm s (s.modStow a f) where
  axes i hi := by
    refine ⟨rfl, hi.1, ?_⟩
    have h2 := hi.2
    have e : ((s.modStow a f).axis i) = s.axis i := rfl
    rw [e]
    by_cases ha : i.ant = a
    · subst ha
      unfold State.quiet at h h2 ⊢
      rw [State.stowOf_modStow, if_pos rfl]
      split at h2
      · exact absurd h2 h
      · exact absurd h2.1 h
      · exact hs h2
      · exact hs h2
      · exact hs h2
      · trivial
    · unfold State.quiet at h2 ⊢
      rw [State.stowOf_modStow, if_neg ha]
      exact h2
  claims _ _ _ := id
  keeps _ _ _ _ _ := id
  disabling _ := id
  power _ _ _ := ⟨rfl, rfl, rfl, id⟩
  stopping b := by
    rw [State.stowOf_modStow]; split
    · rename_i e; subst e; exact hs
    · exact id
  stow b hb := by
    rw [State.stowOf_modStow, if_neg]; rintro rfl; exact h hb
  groups _ _ := rfl
  jogs _ := rfl
  zones _ := .refl _

/-- An antenna that comes to rest in STOPPING goes BLOCKED; none of its axes was steady but those that a stop
leaves alone. -/
theorem Calm.goBlocked {s : State} {a : Ant} (h : (s.stowOf a).state = .stopping)
    (hm : s.moving a = false) : Calm s (s.goBlocked a) := by
  have hq : ¬s.quiet a := fun k => k.1 h
  set t := s.setStow a .blocked
  have h1 : Calm s t := .modStow hq fun k => absurd h k
  have h2 : StillBut (s.movable a) (·.ant = a) t (s.goBlocked a) := Still.stopBoth t a .blocked .braked
  have hn (j : AxisId) (hj : s.movable a j) : ¬s.steady j := by
    obtain ⟨rfl, e⟩ := hj
    rintro ⟨-, k⟩
    obtain ⟨b, x⟩ := j
    unfold State.moving at hm
    have hx : (s.axis ⟨b, x⟩).state.moving = false := by
      cases x <;> simp_all
    unfold State.quiet at k
    revert k e hx
    cases (s.axis ⟨b, x⟩).state <;> simp_all [AxisState.inert, AxisState.moving]
  exact h1.stillBut h2 hn fun j e _ => by rw [e]; exact h

theorem Still.calm_trans {s t u : State} (h : Calm s t) (k : Still noAxis t u) :
    Calm s u := h.still k fun _ => False.elim

theorem Calm.stowAtRest (s : State) (a : Ant) : Calm s (s.stowAtRest a) := by
  unfold State.stowAtRest
  refine .ite (fun ⟨h, hm⟩ => ?_) fun _ => .refl s
  have hq : ¬s.quiet a := fun k => k.1 h
  refine .ite (fun _ => .goBlocked h hm) fun _ => .ite (fun _ => ?_) fun _ => ?_
  · exact .modStow hq fun k => absurd h k
  · exact (Calm.modStow hq fun k => absurd h k).trans (Still.markForm _).calm_none

/-! ### Releases and work toward torque -/

theorem Calm.releaseIfStill (s : State) (g : GroupId) : Calm s (s.releaseIfStill g) := by
  unfold State.releaseIfStill State.releaseGroup
  refine .ite (fun hr => ?_) fun _ => .refl s
  refine Calm.trans ?_ (Still.forEach (fun s i => Still.dropGroup s i) _ _).calm_none
  refine (Still.releaseGroupGrant s g).calm_none.trans ?_
  have hg : (s.releaseGroupGrant g).groups = s.groups := (Still.releaseGroupGrant s g).groups
  refine
    { axes := fun i h => ⟨rfl, h⟩, claims := fun _ _ _ => id, keeps := fun _ _ _ _ _ => id
      disabling := fun _ => id, power := fun _ _ _ => ⟨rfl, rfl, rfl, id⟩, stopping := fun _ => id, stow := fun _ _ => rfl
      groups := fun h hh => ?_, jogs := fun _ => rfl, zones := fun _ => .refl _ }
  rw [State.groups_get_modGroup, if_neg]
  rintro rfl
  rw [hg] at hh
  simp [hh] at hr

theorem Calm.releaseIfOver (s : State) (a : Ant) : Calm s (s.releaseIfOver a) := by
  unfold State.releaseIfOver
  exact .ite (fun _ => (Still.releaseWaveGrant ..).calm_none) fun _ => .refl s

theorem Still.torqueUnder (s : State) (i : AxisId) (c : GrantCover) :
    Still (· = i) s (s.torqueUnder i c) := ((Still.setCover ..).at _).trans (.enterAxis ..)

theorem Calm.seekTorque (s : State) (i : AxisId) : Calm s (s.seekTorque i) := by
  unfold State.seekTorque
  refine .ite (fun hw => ?_) fun _ => .refl s
  have hn : ∀ j, j = i → ¬s.steady j := by
    rintro j rfl ⟨-, k⟩
    simp only [State.wantsTorque, Bool.and_eq_true, decide_eq_true_eq] at hw
    rw [hw.1.1.1] at k
    simp [hw.1.1.2] at k
  refine Still.calm (p := (· = i)) ?_ hn
  refine .ite ?_ (.ite (.ite (.torqueUnder ..) (.refl ..)) (.ite (.refl ..) (.askNeed ..)))
  split
  · exact .torqueUnder ..
  · exact .refl ..

/-! ### Formations and the queue -/

/-- A change of the bus of an antenna that a formation may decide. -/
theorem Calm.modAnt {s : State} {a : Ant} {f : Antenna → Antenna} (h : ¬s.quiet a)
    (hx : ∀ v, (f v).axes = v.axes)
    (hd : (s.ants.get a).disabling = false → (f (s.ants.get a)).disabling = false)
    (hp : (s.ants.get a).bus ≠ .off → (f (s.ants.get a)).bus = (s.ants.get a).bus
      ∧ (f (s.ants.get a)).outOfBand = (s.ants.get a).outOfBand
      ∧ (f (s.ants.get a)).prechargeStart = (s.ants.get a).prechargeStart
      ∧ ((s.ants.get a).enable = true → (f (s.ants.get a)).enable = true)) : Calm s (s.modAnt a f) := by
  have hax (j : AxisId) : (s.modAnt a f).axis j = s.axis j := by
    rw [State.axis_modAnt]; split
    · rename_i e; subst e; rw [hx]; rfl
    · rfl
  refine
    { axes := fun j hj => ⟨by rw [hax], hj.1, ?_⟩, claims := fun j _ _ => by rw [hax]; exact id
      keeps := fun j _ _ c _ => by rw [hax]; exact id
      disabling := fun b => ?_, power := fun b => ?_, stopping := fun _ => id, stow := fun _ _ => rfl
      groups := fun _ _ => rfl, jogs := fun _ => rfl, zones := fun _ => .refl _ }
  · have h2 := hj.2
    rw [hax]
    split at h2
    · exact h2
    · refine ⟨h2.1, h2.2.1, ?_⟩
      rw [State.ants_get_modAnt, if_neg]
      · exact h2.2.2
      · rintro rfl; exact h h2.1
    · exact h2
    · exact h2
    · exact h2
    · trivial
  · rw [State.ants_get_modAnt]; split
    · rename_i e; subst e; exact hd
    · exact id
  · rw [State.ants_get_modAnt]; split
    · rename_i e; subst e
      rintro - (hq | hb)
      · exact absurd hq h
      · exact hp hb
    · exact fun _ _ => ⟨rfl, rfl, rfl, id⟩

theorem Still.runFieldTimers (s : State) (a : Ant) : Still noAxis s (s.runFieldTimers a) := by
  have hax (j : AxisId) : ((s.runFieldTimers a).axis j).core = (s.axis j).core
      ∧ ((s.runFieldTimers a).axis j).claims = (s.axis j).claims := by
    obtain ⟨b, x⟩ := j
    unfold State.runFieldTimers
    rw [State.axis_modAnt]; split
    · rename_i e; dsimp only at e; subst e; cases x <;> exact ⟨rfl, rfl⟩
    · exact ⟨rfl, rfl⟩
  refine
    { core := fun j _ => (hax j).1, claims := fun j _ => by rw [(hax j).2]; exact id
      keeps := fun j _ c _ => by rw [(hax j).2]; exact id, waits := fun _ _ => id
      power := fun b => ?_, stow := fun _ => rfl, groups := rfl, jogs := fun _ => rfl, zones := fun _ => .refl _ }
  unfold State.runFieldTimers
  rw [State.ants_get_modAnt]; split
  · rename_i e; subst e; rfl
  · rfl

theorem State.quiet_congr {s t : State} {a : Ant} (e : t.stowOf a = s.stowOf a) : t.quiet a ↔ s.quiet a := by
  unfold State.quiet; rw [e]

theorem Calm.enterIfOff {s : State} {i : AxisId} (st : AxisState) (h : ¬s.quiet i.ant) :
    Calm s (if (s.axis i).state = .off then s.enterAxis i st else s) := by
  refine .ite (fun k => .enterFrom ?_) fun _ => .refl s
  rintro ⟨-, k'⟩; rw [k] at k'; exact h k'

/-- An ENABLE of an antenna that a formation may decide. -/
theorem Calm.enableBus {s : State} {a : Ant} (h : ¬s.quiet a) : Calm s (s.enableBus a) := by
  have h1 : Calm s (s.modAnt a fun v => { v with enable := true }) :=
    .modAnt h (fun _ => rfl) (fun _ => by simp [Antenna.disabling]) fun _ => ⟨rfl, rfl, rfl, fun _ => rfl⟩
  unfold State.enableBus
  dsimp only
  refine .ite (fun hb => ?_) fun _ => h1
  refine Calm.trans ?_ (Still.runFieldTimers ..).calm_none
  refine h1.trans ?_
  set t := s.modAnt a fun v => { v with enable := true }
  have ht : ¬t.quiet a := h
  refine Calm.trans (Calm.modAnt (f := fun v => { v with bus := .precharge, prechargeStart := some t.now }) ht
    (fun _ => rfl) (fun _ => by simp [Antenna.disabling]) fun k => absurd hb k) ?_
  refine Calm.trans (Calm.enterIfOff (i := ⟨a, .az⟩) .precharge ht) (Calm.enterIfOff (i := ⟨a, .el⟩) .precharge ?_)
  intro k
  refine ht ((State.quiet_congr ?_).1 k)
  split
  · rw [State.stowOf_enterAxis]; rfl
  · rfl

/-- A claim added to an axis that is not FAULTED, of an antenna that a formation may decide. -/
theorem Calm.modClaims {s : State} {i : AxisId} {f : Axis → Axis} (h : ¬s.quiet i.ant)
    (ht : (s.axis i).state.isFaulted = false) (hf : ∀ x, (f x).core = x.core)
    (hk : ∀ x c, x.claims.has c = true → (f x).claims.has c = true) : Calm s (s.modAxis i f) := by
  have hc (j : AxisId) : ((s.modAxis i f).axis j).core = (s.axis j).core := by
    rw [State.axis_modAxis]; split
    · rename_i e; subst e; exact hf _
    · rfl
  have hp (b : Ant) : ((s.modAxis i f).ants.get b).power = (s.ants.get b).power := Antenna.power_setAxis ..
  refine
    { axes := fun j hj => ⟨hc j, hj.1, ?_⟩, claims := fun j _ hq => ?_
      keeps := fun j _ _ c _ => ?_
      disabling := fun b => by rw [Antenna.disabling_eq (hp b)]; exact id
      power := fun b _ _ => ⟨Antenna.power_bus (hp b), Antenna.power_outOfBand (hp b),
        Antenna.power_prechargeStart (hp b), by rw [Antenna.power_enable (hp b)]; exact id⟩
      stopping := fun _ => id, stow := fun _ _ => rfl
      groups := fun _ _ => rfl, jogs := fun _ => rfl, zones := fun _ => .refl _ }
  · have h2 := hj.2
    rw [Axis.core_state (hc j)]
    split at h2
    · exact h2
    · refine ⟨h2.1, ?_, ?_⟩
      · rw [State.axis_modAxis, if_neg]
        · exact h2.2.1
        · rintro rfl; exact h h2.1
      · rw [Antenna.disabling_eq (hp _)]; exact h2.2.2
    · exact h2
    · exact h2
    · exact h2
    · trivial
  · rw [State.axis_modAxis]; split
    · rename_i e; subst e
      rcases hq with hq | hq
      · exact absurd hq h
      · simp [ht] at hq
    · exact id
  · rw [State.axis_modAxis]; split
    · rename_i e; subst e; exact hk _ c
    · exact id

theorem Calm.addStow {s : State} {i : AxisId} (h : ¬s.quiet i.ant) : Calm s (s.addClaim i .stow) := by
  unfold State.addClaim
  refine .ite (fun ht => ?_) fun _ => .refl s
  refine Calm.trans (Calm.modClaims (f := fun x => x.addClaim s.now .stow) h
    (by simpa [State.takesClaim] using ht) (fun _ => rfl) fun x c k => by
      cases c <;> simp_all [Axis.addClaim, Claims.has, Claims.put]) ?_
  dsimp only
  rw [if_neg (by simp)]
  exact Calm.enableBus h

@[simp] theorem State.stowOf_markFreedIf (s : State) (b : Bool) (a : Ant) :
    (s.markFreedIf b).stowOf a = s.stowOf a := (Still.markFreedIf s b).stow a

@[simp] theorem State.stowOf_enableBus (s : State) (a b : Ant) : (s.enableBus a).stowOf b = s.stowOf b := by
  unfold State.enableBus
  dsimp only
  split
  · refine ((Still.runFieldTimers _ a).stow b).trans ?_
    simp only [Ant.axes, Machine.forEach, List.foldl_cons, List.foldl_nil]
    split <;> split <;> simp
  · rfl

@[simp] theorem State.stowOf_addClaim (s : State) (i : AxisId) (c : ClaimSource) (b : Ant) :
    (s.addClaim i c).stowOf b = s.stowOf b := by
  unfold State.addClaim
  split
  · dsimp only; split
    · rfl
    · simp
  · rfl

theorem Still.refreshHorn (s : State) (a : Ant) : Still noAxis s (s.refreshHorn a) := .modHorn ..

theorem Calm.setWarning {s : State} {a : Ant} (t : Timer) (h : ¬s.quiet a) : Calm s (s.setWarning a t) :=
  Calm.trans (Calm.modStow (f := fun r => { r with warningTimer := t }) h id) (Still.refreshHorn ..).calm_none

theorem State.quiet_modStow {s : State} {a : Ant} {f : StowRecord → StowRecord}
    (hf : ∀ r, (f r).state = r.state) : (s.modStow a f).quiet a ↔ s.quiet a := by
  unfold State.quiet; rw [State.stowOf_modStow, if_pos rfl, hf]

theorem Calm.admitToWave {s : State} {a : Ant} (f : Fit) (h : ¬s.quiet a) : Calm s (s.admitToWave a f) := by
  unfold State.admitToWave
  dsimp only
  set r := (((s.makeRoom f true).grantWave a (s.stowDemand a)).afterGrant f
    (s.foldable ⟨a, .az⟩ + s.foldable ⟨a, .el⟩ + s.earlierWave a))
  have hr : Still noAxis s r :=
    ((Still.makeRoom ..).trans (.grantWave ..)).trans (.afterGrant ..)
  have h1 : ¬r.quiet a := fun k => h ((State.quiet_congr (hr.stow a)).1 k)
  have h2 : ¬(r.modStow a fun v => { v with member := true }).quiet a := fun k =>
    h1 ((State.quiet_modStow (f := fun v => { v with member := true }) fun _ => rfl).1 k)
  have c2 : Calm s (r.modStow a fun v => { v with member := true }) :=
    hr.calm_none.trans (.modStow h1 id)
  set u := r.modStow a fun v => { v with member := true }
  have step (v : State) (hv : ¬v.quiet a) :
      Calm v (Machine.forEach a.axes (fun s i => s.addClaim i .stow) v) := by
    refine Calm.trans (Calm.addStow (i := ⟨a, .az⟩) hv) (Calm.addStow (i := ⟨a, .el⟩) fun k => hv ?_)
    exact (State.quiet_congr (State.stowOf_addClaim ..)).1 k
  split
  · exact c2.trans (step u h2)
  · refine (c2.trans (.setWarning _ h2)).trans (step _ fun k => h2 ?_)
    exact (State.quiet_modStow (f := fun v => { v with warningTimer := some s.now }) fun _ => rfl).1 k

theorem Calm.walkWave (xs : List Ant) (s : State) : Calm s (s.walkWave xs).2 := by
  induction xs generalizing s with
  | nil => exact .refl ..
  | cons a rest ih =>
    unfold State.walkWave
    split
    · exact ih s
    · rename_i hw
      split
      · exact .refl ..
      · refine (Calm.admitToWave _ fun k => ?_).trans (ih _)
        simp [State.waitsForWave, k.2] at hw

theorem Calm.formWave (s : State) : Calm s s.formWave := by
  unfold State.formWave
  refine .ite (fun _ => .refl s) fun _ => ?_
  dsimp only
  split
  · exact .walkWave ..
  · exact (Calm.walkWave ..).trans (Still.setWave ..).calm_none

/-- An entry of the queue is granted: its axis was waiting. -/
theorem Calm.offerQueue (n : Nat) (s : State) : Calm s (s.offerQueue n) := by
  induction n generalizing s with
  | zero => exact .refl ..
  | succ n ih =>
    unfold State.offerQueue
    split
    · exact .refl ..
    · rename_i m rest hq
      refine .ite (fun _ => .refl s) fun _ => Calm.trans ?_ (ih _)
      have h1 : Still noAxis s (s.modFeed fun f => { f with queue := rest }) :=
        .modFeed fun k hk => by rw [hq]; exact List.mem_cons_of_mem _ hk
      refine h1.calm_none.still (Still.admitNeed _ m _) ?_
      rintro j rfl ⟨hw, -⟩
      simp [State.waits, hq] at hw

/-! ### All that follows -/

theorem Calm.offer (s : State) : Calm s s.offer := by
  unfold State.offer
  exact .ite (fun _ => ((Still.clearMarks ..).calm_none.trans (.formWave ..)).trans (.offerQueue ..))
    fun _ => .ite (fun _ => (Still.clearMarks ..).calm_none.trans (.formWave ..)) fun _ => .refl s

theorem Calm.offerFreed (n : Nat) (s : State) : Calm s (s.offerFreed n) := by
  induction n generalizing s with
  | zero => exact .refl ..
  | succ n ih =>
    unfold State.offerFreed
    exact .ite (fun _ => (Calm.offer s).trans (ih _)) fun _ => .refl s

theorem Calm.offerFirst (s : State) : Calm s s.offerFirst := .offerFreed 4 s

theorem Calm.seekAll (s : State) : Calm s s.seekAll :=
  .forEach (fun s i => .ite (fun _ => (Calm.offerFirst s).trans (.seekTorque _ i)) fun _ => .refl s) _ s

/-- A round of what follows, once the void entries of the queue have been withdrawn. -/
theorem Calm.followRest (s : State) : Calm s.withdrawVoid s.followUp := by
  unfold State.followUp
  refine Calm.trans ?_ (Calm.forEach (fun s a => Calm.releaseIfOver s a) _ _)
  refine Calm.trans ?_ (Calm.forEach (fun s a => Calm.releaseIfStill s a) _ _)
  refine Calm.trans ?_ (Calm.forEach (fun s a => Calm.stowAtRest s a) _ _)
  exact Calm.forEach (fun s a => Calm.endDisable s a) _ _

theorem Calm.followUp (s : State) : Calm s s.followUp :=
  (Still.withdrawVoid s).calm_none.trans (.followRest s)

theorem Calm.settleRounds (n : Nat) (s : State) : Calm s (s.settleRounds n) := by
  induction n generalizing s with
  | zero => exact .refl ..
  | succ n ih =>
    unfold State.settleRounds
    exact (((Calm.followUp s).trans (.seekAll _)).trans (.offer _)).trans (ih _)

/-- What follows an event keeps every steady axis, and everything else that its rules leave alone. -/
theorem Calm.settle (s : State) : Calm s s.settle := by
  unfold State.settle
  exact .settleRounds 4 s

/-- What follows an event, once the void entries of the queue have been withdrawn. -/
theorem Calm.settleRest (s : State) : Calm s.withdrawVoid s.settle := by
  unfold State.settle State.settleRounds
  exact (((Calm.followRest s).trans (.seekAll _)).trans (.offer _)).trans (.settleRounds 3 _)

/-- Void entries do not keep an axis waiting. -/
theorem State.waits_withdrawVoid {s : State} {i : AxisId}
    (h : ∀ n ∈ s.feed.queue, n.axis = i → s.needVoid n = true) : s.withdrawVoid.waits i = false := by
  have e : s.withdrawVoid.feed.queue = s.feed.queue.filter fun n => !s.needVoid n := by
    unfold State.withdrawVoid
    have k (xs : List Need) (t : State) :
        (Machine.forEach xs (fun t n => t.forgetRaise n) t).feed = t.feed := by
      induction xs generalizing t with
      | nil => rfl
      | cons n rest ih =>
        refine (ih (t.forgetRaise n)).trans ?_
        unfold State.forgetRaise; split <;> rfl
    exact congrArg Feed.queue (k _ _)
  simp only [State.waits, List.any_eq_false, e]
  intro n hn
  obtain ⟨hn, hv⟩ := List.mem_filter.1 hn
  intro hi
  simp [h n hn (by simpa using hi)] at hv

/-- An axis whose waiting needs are all void is steady once they have been withdrawn. -/
theorem State.steady_withdrawVoid {s : State} {i : AxisId}
    (h : ∀ n ∈ s.feed.queue, n.axis = i → s.needVoid n = true)
    (k : ∀ t : State, t.axis i = s.axis i → t.waits i = false → t.stow = s.stow → t.ants = s.ants → t.steady i) :
    s.withdrawVoid.steady i := by
  have e := Still.withdrawVoid s
  let t := s.modFeed fun f => { f with queue := [] }
  have ht : t.steady i := k t rfl rfl rfl rfl
  refine ⟨State.waits_withdrawVoid h, ?_⟩
  have h2 := ht.2
  rw [Axis.core_state (e.core i id)]
  unfold State.quiet at h2 ⊢
  rw [e.stow, Antenna.disabling_eq (e.power _)]
  change match (s.axis i).state with
    | .off => _ | .braked => _ | .torqueUp => _ | .holding => _ | .braking => _ | _ => True at h2
  split at h2
  · exact h2
  · exact ⟨h2.1, e.claims i id h2.2.1, h2.2.2⟩
  · exact h2
  · exact h2
  · exact h2
  · trivial

/-- What follows a RESTART keeps as much. -/
theorem Calm.restartRounds (n : Nat) (s : State) : Calm s (s.restartRounds n) := by
  induction n generalizing s with
  | zero => exact .refl ..
  | succ n ih =>
    unfold State.restartRounds
    exact (((Calm.followUp s).trans (Calm.forEach (fun s i => Calm.seekTorque s i) _ _)).trans
      (Still.clearMarks ..).calm_none).trans (ih _)

end Sys2Proof.Machine
end

