-- ==== Sys2Proof/Laws/Operations.lean ====
section
/-! SUPPORT. What each operation of the queues, the groups, local control, the heaters, the stow, the faults,
the store, the lockouts, the permits and the link front can change. -/

namespace Sys2Proof.Machine

set_option Elab.async false

/-! ### Queues -/

theorem Moves.shrink {s : State} {a : Ant} {f : Track → Track}
    (h : ∀ t, (f t).segments.length ≤ t.segments.length) : Moves [.tracks, .queues] s (s.modTrack a f) :=
  .modTrack_any fun k => (h _).trans k

theorem Moves.setBurst (s : State) (b : Burst) : Moves [.burst] s { s with burst := b } := by
  refine .plain ⟨fun p hp => ?_⟩ rfl rfl rfl rfl rfl rfl rfl rfl rfl
  cases p <;> simp_all [Part.same, State.axis, State.track, State.zone]

theorem Moves.slotsFreed (s : State) (a : Ant) : Moves [.tracks, .queues] s (s.slotsFreed a) := by
  unfold State.slotsFreed
  refine .ite (Moves.trans ?_ (Moves.raise ..).to) (.refl ..)
  exact .shrink fun _ => le_rfl

theorem Moves.discardStaged (s : State) (a : Ant) : Moves [.tracks, .queues] s (s.discardStaged a) :=
  (Moves.shrink fun _ => List.length_filter_le ..).trans (.slotsFreed ..)

theorem Moves.discardBurst (s : State) (a : Ant) : Moves [.burst, .tracks, .queues] s (s.discardBurst a) :=
  (Moves.setBurst ..).to.trans (Moves.discardStaged ..).to

theorem Moves.terminateBurst (s : State) (a : Ant) (r : TermReason) :
    Moves [.burst, .tracks, .queues] s (s.terminateBurst a r) := by
  unfold State.terminateBurst
  refine .ite (Moves.trans ?_ (Moves.raiseIf ..).to) (.refl ..)
  exact (Moves.discardBurst ..).trans (Moves.setBurst ..).to

theorem Follows.dropRaise (s : State) (i : AxisId) : Follows s (s.dropRaise i) := by
  unfold State.dropRaise
  have h := (Follows.filterQueue s fun n => !(decide (n.axis = i) && decide (n.kind = .track))).trans
    (.noteRaise _ i .none)
  dsimp only
  split
  · exact h.trans (.fallToHold ..)
  · exact h

theorem Follows.stopTracking (s : State) (i : AxisId) : Follows s (s.stopTracking i) := by
  unfold State.stopTracking
  exact .ite (.stopAxis ..) (.refl ..)

theorem Follows.releaseRun (s : State) (a : Ant) : Follows s (s.releaseRun a) :=
  Follows.forEach (fun s i => (Follows.dropClaim s i .queue).trans
    ((Follows.dropRaise ..).trans (.stopTracking ..))) _ s

theorem Moves.haltQueue (s : State) (a : Ant) (r : HaltReason) : Moves queueParts s (s.haltQueue a r) := by
  unfold State.haltQueue
  refine .ite (.refl ..) (Moves.trans ?_ (Moves.raise ..).to)
  refine Moves.trans ?_ (Moves.slotsFreed ..).to
  refine Moves.trans ?_ (Moves.terminateBurst ..).to
  refine Moves.trans ?_ (Follows.releaseRun ..).to
  exact (Moves.shrink fun _ => List.length_filter_le ..).to

theorem Moves.setRun (s : State) (a : Ant) (r : RunState) :
    Moves [.tracks, .queues] s (s.modTrack a fun t => { t with run := r }) := .shrink fun _ => le_rfl

theorem Moves.prepareQueue (s : State) (a : Ant) : Moves queueParts s (s.prepareQueue a) := by
  unfold State.prepareQueue
  dsimp only
  split
  · exact (Moves.setRun ..).to.trans (.haltQueue ..)
  · exact (Moves.setRun ..).to.trans (Follows.forEach (fun s i => Follows.addClaim s i .queue) _ _).to

theorem Moves.startingQueue (s : State) (a : Ant) : Moves [.tracks, .queues] s (s.startingQueue a) :=
  .setRun ..

theorem Moves.beginQueue (s : State) (a : Ant) (first : Epoch) :
    Moves queueParts s (s.beginQueue a first) := by
  unfold State.beginQueue
  refine .ite (Moves.setRun ..).to ?_
  dsimp only
  split
  · exact (Moves.prepareQueue ..).trans ((Moves.startingQueue ..).to.trans (.ite (.haltQueue ..) (.refl ..)))
  · exact .prepareQueue ..

/-- An update of an axis that keeps its settings. -/
theorem Moves.placeAxis {s : State} {i : AxisId} {f : Axis → Axis} (h : ∀ x, (f x).settings = x.settings)
    (k : (s.axis i).Lawful → (f (s.axis i)).Lawful) : Moves [.drives, .places] s (s.modAxis i f) := by
  refine ⟨⟨fun p hp => ?_⟩, (Moves.modAxis_any k).keeps⟩
  cases p <;> simp_all [Part.same]
  refine ⟨fun j => ?_, fun a => ?_⟩
  · split <;> simp_all
  · simp only [State.modAxis, State.setAxis, State.setAnt, Six.get_set]
    split <;> simp_all

theorem Moves.followSegment (s : State) (g : Segment) (i : AxisId) :
    Moves [.drives, .places] s (s.followSegment g i) := by
  unfold State.followSegment
  split
  · rename_i h
    refine .placeAxis (fun _ => rfl) fun k => ?_
    exact ⟨k.amplifier, k.released, fun m => by rw [h] at m; simp [AxisState.moving] at m, k.stop, k.profile,
      k.releaseCheck⟩
  · exact .refl ..

theorem Moves.interpolate (s : State) (a : Ant) : Moves [.drives, .places] s (s.interpolate a) := by
  unfold State.interpolate
  split
  · exact .refl ..
  · exact .ite (.forEach (fun s i => .followSegment s _ i) _ _) (.refl ..)

theorem Track.activateHead_length (t : Track) : t.activateHead.segments.length = t.segments.length := by
  unfold Track.activateHead; split <;> simp_all

theorem Moves.activateHead (s : State) (a : Ant) :
    Moves [.tracks, .queues] s (s.modTrack a Track.activateHead) :=
  .shrink fun t => (Track.activateHead_length t).le

/-- A TRACKING axis is set on a segment's end. -/
theorem Moves.landOn (s : State) (g : Segment) (v : AxisName → Mdeg) (i : AxisId)
    (h : (s.axis i).state = .tracking) : Moves [.drives, .places] s (s.landOn g v i) :=
  .placeAxis (fun _ => rfl) fun k => ⟨k.amplifier, k.released,
    fun m => by rw [h] at m; simp [AxisState.moving] at m, k.stop, k.profile, k.releaseCheck⟩

theorem Moves.endRun (s : State) (a : Ant) (g : Segment) : Moves runParts s (s.endRun a g) := by
  unfold State.endRun
  refine Moves.trans ?_ (Moves.raise ..).to
  refine Moves.trans (Moves.setRun ..).to (Moves.forEach (fun s i => ?_) _ _)
  split
  · rename_i h
    exact (Moves.landOn _ _ _ _ h).to.trans ((Follows.enterAxis ..).to.trans (Follows.dropClaim ..).to)
  · exact (Follows.dropClaim ..).to

theorem Moves.underrun (s : State) (a : Ant) (g : Segment) : Moves runParts s (s.underrun a g) := by
  unfold State.underrun
  refine Moves.trans ?_ (Moves.raise ..).to
  refine Moves.trans ?_ (Moves.forEach (fun s i => ?_) _ _)
  · exact Moves.to (ps := [.tracks, .queues]) (.shrink fun _ => le_rfl)
  split
  · rename_i h
    exact (Moves.landOn _ _ _ _ h).to.trans ((Follows.dropClaim ..).to.trans (Follows.stopAxis ..).to)
  · exact (Follows.dropClaim ..).to

theorem Moves.popSegment (s : State) (a : Ant) : Moves [.tracks, .queues] s (s.popSegment a) :=
  (Moves.shrink fun _ => by simp).trans (.slotsFreed ..)

theorem Moves.afterSegment (s : State) (a : Ant) (g : Segment) : Moves runParts s (s.afterSegment a g) := by
  unfold State.afterSegment
  refine .ite (.endRun ..) ?_
  split
  · exact .underrun ..
  · exact .ite (Moves.activateHead ..).to (Moves.haltQueue ..).to

theorem Moves.completeSegments (n : Nat) (s : State) (a : Ant) :
    Moves runParts s (s.completeSegments a n) := by
  induction n generalizing s with
  | zero => exact .refl ..
  | succ n ih =>
    unfold State.completeSegments
    split
    · exact .refl ..
    · refine Moves.trans ?_ (ih _)
      exact (Moves.popSegment ..).to.trans (.afterSegment ..)

theorem Moves.enterRun (s : State) (a : Ant) : Moves runParts s (s.enterRun a) := by
  unfold State.enterRun
  refine Moves.trans ?_ (Moves.raise ..).to
  refine Moves.trans ?_ (Moves.interpolate ..).to
  refine Moves.trans ?_ (Moves.completeSegments ..)
  refine Moves.trans (Follows.forEach (fun s i => Follows.enterAxis s i .tracking) a.axes s).to ?_
  exact Moves.to (ps := [.tracks, .queues]) (.shrink fun t => (Track.activateHead_length t).le)

theorem Follows.askRaise (s : State) (i : AxisId) : Follows s (s.askRaise i) := by
  unfold State.askRaise
  exact .ite ((Follows.noteRaise ..).trans (.askNeed ..)) (.refl ..)

theorem Moves.raiseAndRun (s : State) (a : Ant) : Moves runParts s (s.raiseAndRun a) := by
  unfold State.raiseAndRun
  have h : Moves runParts s (Machine.forEach a.axes (fun s i => s.offerFirst.askRaise i) s) :=
    (Follows.forEach (fun s i => (Follows.offerFirst s).trans (Follows.askRaise _ i)) _ s).to
  dsimp only
  exact .ite (h.trans (.enterRun ..)) h

theorem Moves.startRun (s : State) (a : Ant) (g : Segment) : Moves runParts s (s.startRun a g) := by
  unfold State.startRun
  exact .ite (.enterRun ..) (.ite (Moves.haltQueue ..).to (.ite (Moves.haltQueue ..).to (.raiseAndRun ..)))

/-! ### Groups -/

theorem Follows.beginProfile (s : State) (i : AxisId) (p : Profile) : Follows s (s.beginProfile i p) :=
  .enterWith _ fun _ => ⟨rfl, rfl, rfl⟩

theorem Moves.haltGroup (s : State) (g : GroupId) (r : GroupHalt) (c : Option (Ant × Option AxisName)) :
    Moves (followParts ++ [.groupRecords]) s (s.haltGroup g r c) := by
  unfold State.haltGroup
  have h : Moves (followParts ++ [.groupRecords]) s (s.modGroup g fun v => v.halt s.now r c) :=
    (Moves.modGroup_any ..).to
  dsimp only
  split
  · exact h
  · exact h.trans (Follows.releaseGroup ..).to
  · exact h.trans (Follows.forEach (fun s i => Follows.stopAxis s i .group .holding) _ _).to
  · exact .refl ..

theorem Moves.haltGroupOf (s : State) (a : Ant) (r : GroupHalt) (x : Option AxisName) :
    Moves (followParts ++ [.groupRecords]) s (s.haltGroupOf a r x) := by
  unfold State.haltGroupOf
  split
  · exact .refl ..
  · exact .haltGroup ..

theorem Moves.emptyGroup (s : State) (g : GroupId) : Moves [.groups, .groupRecords] s (s.emptyGroup g) :=
  .modGroup_any ..

/-! ### Local control -/

theorem Moves.startForceTimer (s : State) (a : Ant) :
    Moves (.hornTimers :: followParts) s (s.startForceTimer a) :=
  (Moves.modHorn_any ..).to.trans (Follows.refreshHorn ..).to

theorem Follows.leaveJog (s : State) (i : AxisId) : Follows s (s.leaveJog i) := by
  unfold State.leaveJog
  have h := (Follows.dropClaim s i .jog).trans
    (Follows.filterQueue _ fun n => !(decide (n.axis = i) && decide (n.kind = .jog)))
  dsimp only
  split
  · exact h.trans (.fallToHold ..)
  · exact h

theorem Follows.setJog (s : State) (a : Ant) (j : Option Jog) :
    Follows s (s.modAuthority a fun v => { v with jog := j }) :=
  Moves.follows (ps := [.authorities]) (.modAuthority fun _ => ⟨rfl, rfl⟩)

theorem Follows.endJog (s : State) (a : Ant) (stop : Option (StopReason × StopTarget)) :
    Follows s (s.endJog a stop) := by
  unfold State.endJog
  split
  · exact .refl ..
  · have h (i : AxisId) := (Follows.setJog s a none).trans (.leaveJog _ i)
    dsimp only
    split
    · exact h _
    · split
      · exact (h _).trans (.stopAxis ..)
      · exact h _

theorem Follows.failJogFault (s : State) (a : Ant) : Follows s (s.failJogFault a) := by
  unfold State.failJogFault
  split
  · exact .refl ..
  · exact (Follows.modJog ..).trans (.leaveJog ..)

theorem Moves.toRemote (s : State) (a : Ant) : Moves [.authorities, .authority] s (s.toRemote a) :=
  .modAuthority_any ..

theorem Moves.endLocal (s : State) (a : Ant) : Moves (followParts ++ [.authority]) s (s.endLocal a) :=
  (Moves.toRemote ..).to.trans (Follows.endJog ..).to

theorem Moves.giveUpLocal (s : State) (a : Ant) :
    Moves (followParts ++ [.authority]) s (s.giveUpLocal a) := by
  unfold State.giveUpLocal
  refine .ite ?_ (Follows.endJog ..).to
  exact ((Moves.toRemote ..).to.trans (Follows.endJog ..).to).trans (Follows.setWarning ..).to

/-! ### Heaters and ice -/

theorem Moves.formLevel (s : State) (z : ZoneId) : Moves [.zones, .zoneRequests] s (s.formLevel z) :=
  .modZone_request fun _ => rfl

theorem Moves.lowerZone (s : State) (o : Bool) (z : ZoneId) : Moves [.zones] s (s.lowerZone o z) := by
  refine Moves.trans (Moves.modZone fun v => ?_) (Moves.markFreedIf ..).to
  unfold Zone.lowerTo
  split <;> simp [Zone.settings, Zone.requests, Zone.record]

theorem Moves.refreshZone (s : State) (z : ZoneId) : Moves [.zones, .zoneRequests] s (s.refreshZone z) :=
  (Moves.formLevel ..).trans (Moves.lowerZone ..).to

theorem Moves.refreshZones (s : State) (a : Ant) : Moves [.zones, .zoneRequests] s (s.refreshZones a) :=
  .forEach (fun s z => .refreshZone s z) _ s

theorem Moves.followFloor (s : State) (z : ZoneId) : Moves [.zones] s (s.followFloor z) := by
  unfold State.followFloor
  exact .ite (.modZone fun _ => ⟨rfl, rfl⟩) (.refl ..)

theorem Moves.runIceTimers (s : State) (a : Ant) : Moves [.ice] s (s.runIceTimers a) := .modIce ..

theorem Moves.runAllIceTimers (s : State) : Moves [.ice] s s.runAllIceTimers :=
  .forEach (fun s a => .runIceTimers s a) _ s

theorem Moves.afterIceChange (s : State) (a : Ant) : Moves [.zones, .zoneRequests] s (s.afterIceChange a) :=
  (Moves.followFloor ..).to.trans (.refreshZones ..)

theorem Moves.setTracked (s : State) (a : Ant) (c : IceClass) :
    Moves [.ice, .zones, .zoneRequests] s (s.setTracked a c) := by
  unfold State.setTracked
  refine Moves.trans ?_ (Moves.afterIceChange ..).to
  exact ((Moves.modIce ..).trans (.runIceTimers ..)).to

theorem Moves.force (s : State) (z : ZoneId) (b : Bool) :
    Moves [.zones, .zoneRequests] s (s.modZone z fun v => { v with forced := b }) :=
  .modZone_request fun _ => rfl

theorem Moves.startForce (s : State) (a : Ant) : Moves [.zones, .zoneRequests] s (s.startForce a) :=
  (Moves.force ..).trans (.refreshZone ..)

theorem Moves.endForce (s : State) (a : Ant) : Moves [.zones, .zoneRequests] s (s.endForce a) :=
  (Moves.force ..).trans (.refreshZone ..)

/-! ### Stow -/

theorem Follows.goStowed (s : State) (a : Ant) : Follows s (s.goStowed a) :=
  (Follows.modStow ..).trans (.putDown ..)

theorem Follows.goInserting (s : State) (a : Ant) : Follows s (s.goInserting a) := by
  unfold State.goInserting
  have h := Follows.modStow s a fun r =>
    { r with state := .pinInserting, pinIn := true, pinTimer := some s.now, warmingTimer := none }
  dsimp only
  split
  · exact h.trans (.goStowed ..)
  · exact h

theorem Follows.goPinFailed (s : State) (a : Ant) : Follows s (s.goPinFailed a) :=
  (Follows.modStow ..).trans (.putDown ..)

theorem Moves.goWarming (s : State) (a : Ant) : Moves pinParts s (s.goWarming a) :=
  (Follows.modStow ..).to.trans (Moves.startForce ..).to

theorem Moves.goWithdrawing (s : State) (a : Ant) : Moves [.stow] s (s.goWithdrawing a) := by
  unfold State.goWithdrawing
  exact .ite (.modStow ..) (.modStow ..)

theorem Moves.arrive (s : State) (a : Ant) : Moves pinParts s (s.arrive a) := by
  unfold State.arrive
  exact .ite ((Follows.lowerWaveGrant ..).trans (.goInserting ..)).to
    ((Follows.lowerWaveGrant ..).to.trans (.goWarming ..))

theorem Moves.warmed (s : State) (a : Ant) : Moves pinParts s (s.warmed a) := by
  unfold State.warmed
  exact .ite ((Moves.endForce ..).to.trans (Follows.goInserting ..).to) (.refl ..)

theorem Moves.startMember (s : State) (m : WaveMember) : Moves pinParts s (s.startMember m) := by
  unfold State.startMember
  exact .ite ((Follows.modStow ..).to.trans (.arrive ..))
    ((Follows.modStow ..).trans (.beginProfile ..)).to

theorem Follows.sendBack (s : State) (a : Ant) : Follows s (s.sendBack a) :=
  (Follows.leaveWave ..).trans (.dropClaims ..)

theorem Moves.startWave (s : State) (w : Wave) : Moves pinParts s (s.startWave w) := by
  unfold State.startWave
  refine .ite ?_ (Follows.forEach (fun s (m : WaveMember) => Follows.sendBack s m.ant) _ s).to
  refine Moves.trans ?_ (Moves.markForm ..).to
  exact (Follows.setWave ..).to.trans (.forEach (fun s m => .startMember s m) _ _)

theorem Follows.stowCovered (s : State) (a : Ant) : Follows s (s.stowCovered a) := by
  unfold State.stowCovered
  split
  · refine Follows.trans ?_ (.goBlocked ..)
    exact .ite (.leaveWave ..) (.refl ..)
  · exact .goBlocked ..
  · exact .stopBoth ..
  · exact .stopBoth ..
  · exact .refl ..

theorem Follows.unblock (s : State) (a : Ant) : Follows s (s.unblock a) := by
  unfold State.unblock
  exact .ite (.ite (.setStow ..) (.goWaiting ..)) (.refl ..)

theorem Follows.coverRemoved (s : State) (a : Ant) : Follows s (s.coverRemoved a) := by
  unfold State.coverRemoved
  exact .ite (.unblock ..) (.refl ..)

theorem Follows.stowFaulted (s : State) (a : Ant) : Follows s (s.stowFaulted a) := by
  unfold State.stowFaulted
  split
  · exact .setStow ..
  · refine Follows.trans (Follows.trans ?_ (.setStow ..)) (.dropClaims ..)
    exact .ite (.leaveWave ..) (.refl ..)
  · exact (Follows.setStow ..).trans (.dropClaims ..)
  · exact .putDown ..
  · exact .putDown ..
  · exact .refl ..

theorem Follows.redrive (s : State) (a : Ant) : Follows s (s.redrive a) := by
  unfold State.redrive
  exact .ite (.ite (.goBlocked ..) (.goWaiting ..)) (.refl ..)

theorem Moves.takeAntenna (s : State) (a : Ant) : Moves takeParts s (s.takeAntenna a) := by
  unfold State.takeAntenna
  refine Moves.trans ?_ (.ite (Follows.stopBoth ..).to (Follows.stopBoth ..).to)
  refine Moves.trans ?_ (Moves.giveUpLocal ..).to
  refine Moves.trans ?_ (Moves.terminateBurst ..).to
  refine Moves.trans ?_ (Moves.haltQueue ..).to
  exact (Follows.setStow ..).to.trans (Moves.haltGroupOf ..).to

theorem Moves.takeByState (s : State) (a : Ant) : Moves takeParts s (s.takeByState a) := by
  unfold State.takeByState
  split
  · exact .takeAntenna ..
  · exact (Follows.goInserting ..).to
  · exact (Follows.unblock ..).to
  · exact (Follows.redrive ..).to
  · exact .refl ..

theorem Moves.takeAll (s : State) : Moves takeParts s s.takeAll :=
  (Moves.forEach (fun s a => Moves.takeByState s a) _ s).trans (Moves.markForm ..).to

/-- The Wind Monitor's items change, and the window stays within 600 samples. -/
theorem Moves.setWind {s : State} {w : Wind} (h : s.wind.window.length ≤ 600 → w.window.length ≤ 600) :
    Moves [.wind] s { s with wind := w } := by
  refine ⟨⟨fun p hp => ?_⟩, fun k => ?_⟩
  · cases p <;> simp_all [Part.same, State.axis, State.track, State.zone]
  · exact ⟨k.axes, { k.bounded with window := h k.bounded.window },
      ⟨k.table.once, k.table.listed, k.table.numbered⟩, k.store⟩

theorem Moves.changeWind {s : State} {f : Wind → Wind}
    (h : s.wind.window.length ≤ 600 → (f s.wind).window.length ≤ 600) :
    Moves (takeParts ++ [.wind]) s (s.changeWind f) := by
  unfold State.changeWind
  have k : Moves (takeParts ++ [.wind]) s { s with wind := f s.wind } := (Moves.setWind h).to
  dsimp only
  split
  · exact k.trans (Moves.takeAll ..).to
  · exact k

/-! ### Faults -/

theorem Follows.faultStop (s : State) (i : AxisId) (c : FaultCause) : Follows s (s.faultStop i c) :=
  (Follows.clearClaims ..).trans (.enterAxis ..)

theorem Moves.handOnFault (s : State) (i : AxisId) (c : FaultCause) :
    Moves haltParts s (s.handOnFault i c) := by
  unfold State.handOnFault
  refine Moves.trans ?_ (Follows.stowFaulted ..).to
  refine Moves.trans ?_ (Follows.failJogFault ..).to
  refine Moves.trans ?_ (Moves.haltGroupOf ..).to
  refine Moves.trans ?_ (Moves.terminateBurst ..).to
  exact (Follows.stopAxis ..).to.trans (Moves.haltQueue ..).to

theorem Moves.faultAxis (s : State) (i : AxisId) (c : FaultCause) : Moves haltParts s (s.faultAxis i c) := by
  unfold State.faultAxis
  exact .ite ((Follows.faultStop ..).to.trans (.handOnFault ..)) (.refl ..)

end Sys2Proof.Machine
end

