-- ==== Sys2Proof/Laws/Records.lean ====
section
/-! SUPPORT. What each operation of the store, the lockout table, the permits and the links can change, and
that it keeps their laws; and the small lemmas of keys, queue order and replies. -/

namespace Sys2Proof.Machine

set_option Elab.async false

/-! ### Lists -/

@[simp] theorem modAt_length {α : Type} (xs : List α) (n : Nat) (f : α → α) :
    (modAt xs n f).length = xs.length := by
  induction xs generalizing n with
  | nil => rfl
  | cons x xs ih => cases n <;> simp [modAt, ih]

theorem modAt_getElem? {α : Type} (xs : List α) (n m : Nat) (f : α → α) :
    (modAt xs n f)[m]? = if m = n then xs[n]?.map f else xs[m]? := by
  induction xs generalizing n m with
  | nil => simp [modAt]
  | cons x xs ih => cases n <;> cases m <;> simp [modAt, ih]

/-! ### The store -/

/-- Two stores with the same lists, numbers and sizes. -/
structure Store.Alike (st u : Store) : Prop where
  queue : u.queue = st.queue
  overflow : u.overflow = st.overflow
  next : u.nextCreation = st.nextCreation
  lockouts : u.lockouts.length = st.lockouts.length
  permits : u.permits.length = st.permits.length

theorem Store.Alike.refl (st : Store) : st.Alike st := ⟨rfl, rfl, rfl, rfl, rfl⟩

theorem Store.Alike.trans {st u v : Store} (h : st.Alike u) (k : u.Alike v) : st.Alike v :=
  ⟨k.queue.trans h.queue, k.overflow.trans h.overflow, k.next.trans h.next, k.lockouts.trans h.lockouts,
    k.permits.trans h.permits⟩

theorem Store.alike_setMark (st : Store) (id : RecordId) (b : Bool) : st.Alike (st.setMark id b) := by
  cases id <;> exact ⟨rfl, rfl, rfl, by simp [Store.setMark], by simp [Store.setMark]⟩

theorem Store.alike_put (st : Store) (v : RecordValue) (b : Bool) : st.Alike (st.put v b) := by
  cases v <;> exact ⟨rfl, rfl, rfl, by simp [Store.put], by simp [Store.put]⟩

theorem Store.alike_noteChange (st : Store) (id : RecordId) : st.Alike (st.noteChange id) := by
  unfold Store.noteChange
  split
  · exact .refl st
  · split
    · exact ⟨rfl, rfl, rfl, rfl, rfl⟩
    · exact .refl st

theorem Store.alike_complete (st : Store) (w : Writing) : st.Alike (st.complete w) := by
  unfold Store.complete
  have h := st.alike_put w.value true
  refine Alike.trans (u := if w.changed then st.put w.value true
    else (st.put w.value true).setMark w.record true) ?_ ⟨rfl, rfl, rfl, rfl, rfl⟩
  split
  · exact h
  · exact h.trans (Store.alike_setMark ..)

theorem Store.alike_followSupply (st : Store) (now : Epoch) (b : Bool) :
    st.Alike (st.followSupply now b) := by
  unfold Store.followSupply
  split
  · exact ⟨rfl, rfl, rfl, rfl, rfl⟩
  · split
    · exact .refl st
    · exact ⟨rfl, rfl, rfl, rfl, rfl⟩

theorem Touches.setStore (s : State) (st : Store) : Touches [.store] s { s with store := st } := by
  refine ⟨fun p hp => ?_⟩
  cases p <;> simp_all [Part.same, State.axis, State.track, State.zone]

/-- A change of the store that keeps its sizes, its queue's law, and every number given out. -/
theorem Moves.setStore {s : State} {st : Store} (hn : s.store.nextCreation ≤ st.nextCreation)
    (hl : st.lockouts.length = s.store.lockouts.length) (hp : st.permits.length = s.store.permits.length)
    (h : s.store.queue.length ≤ 32 → s.store.QueueLawful → st.queue.length ≤ 32 ∧ st.QueueLawful) :
    Moves [.store] s { s with store := st } := by
  refine ⟨.setStore s st, fun k => ?_⟩
  obtain ⟨h1, h2⟩ := h k.bounded.writes k.store
  exact ⟨k.axes,
    { k.bounded with
      lockouts := hl.trans k.bounded.lockouts, permitRecords := hp.trans k.bounded.permitRecords
      writes := h1 },
    ⟨k.table.once, k.table.listed, fun e he => (k.table.numbered e he).trans_le hn⟩, h2⟩

theorem Store.QueueLawful.of_alike {st u : Store} (h : st.QueueLawful) (k : st.Alike u) : u.QueueLawful :=
  ⟨k.queue ▸ h.once, k.overflow ▸ h.overflowOnce, k.queue ▸ k.overflow ▸ h.apart,
    k.queue ▸ k.overflow ▸ h.full⟩

theorem Moves.modStore {s : State} {f : Store → Store} (h : s.store.Alike (f s.store)) :
    Moves [.store] s (s.modStore f) :=
  .setStore h.next.symm.le h.lockouts h.permits fun k q => ⟨by rw [h.queue]; exact k, q.of_alike h⟩

theorem Store.queued_iff (st : Store) (id : RecordId) : st.queued id = true ↔ id ∈ st.queue := by
  simp [Store.queued]

/-- What queueing a write does to the lists (R200, R202). -/
theorem Store.queueWrite_lists {st : Store} {id : RecordId} {now : Epoch} {b : Bool}
    (hl : st.queue.length ≤ 32) (h : st.QueueLawful) :
    (st.queueWrite id now b).queue.length ≤ 32 ∧ (st.queueWrite id now b).QueueLawful := by
  unfold Store.queueWrite
  have k := (st.alike_setMark id false).trans (Store.alike_noteChange _ id)
  revert k
  generalize (st.setMark id false).noteChange id = u
  intro k
  have hu : u.queue.length ≤ 32 := k.queue ▸ hl
  have h := h.of_alike k
  dsimp only
  split
  · exact ⟨hu, h⟩
  · rename_i hq
    simp only [Bool.or_eq_true, not_or, Bool.not_eq_true] at hq
    have hn : id ∉ u.queue := fun m => by rw [(u.queued_iff id).mpr m] at hq; simp at hq
    split
    · rename_i hlt
      have ho : u.overflow = [] := by
        by_contra e; have := h.full e; omega
      refine ⟨by simp [Store.join]; omega, ?_⟩
      refine ⟨?_, h.overflowOnce, ?_, ?_⟩
      · simp only [Store.join]
        exact List.nodup_append.mpr ⟨h.once, by simp, by simp; exact fun a ha e => hn (e ▸ ha)⟩
      · simp [Store.join, ho]
      · simp [Store.join, ho]
    · rename_i hlt
      cases id with
      | lockout n =>
        refine ⟨hu, ⟨h.once, ?_, ?_, fun _ => by simp only [Store.joinOverflow]; omega⟩⟩
        · simp only [Store.joinOverflow]
          refine List.nodup_append.mpr ⟨h.overflowOnce, by simp, ?_⟩
          have : n ∉ u.overflow := fun m => by
            have := hq.2; simp [Store.overflows] at this; exact this n m rfl
          simp; exact fun a ha e => this (e ▸ ha)
        · intro m hm
          simp only [Store.joinOverflow, List.mem_append, List.mem_singleton] at hm
          rcases hm with hm | rfl
          · exact h.apart m hm
          · exact hn
      | _ => exact ⟨hu, h⟩

theorem Store.queueWrite_sizes (st : Store) (id : RecordId) (now : Epoch) (b : Bool) :
    (st.queueWrite id now b).nextCreation = st.nextCreation
      ∧ (st.queueWrite id now b).lockouts.length = st.lockouts.length
      ∧ (st.queueWrite id now b).permits.length = st.permits.length := by
  have k := (st.alike_setMark id false).trans (Store.alike_noteChange _ id)
  unfold Store.queueWrite
  revert k
  generalize (st.setMark id false).noteChange id = u
  intro k
  dsimp only
  split
  · exact ⟨k.next, k.lockouts, k.permits⟩
  · split
    · exact ⟨k.next, k.lockouts, k.permits⟩
    · cases id <;> exact ⟨k.next, k.lockouts, k.permits⟩

theorem Moves.queueWrite (s : State) (id : RecordId) : Moves [.store] s (s.queueWrite id) := by
  obtain ⟨h1, h2, h3⟩ := Store.queueWrite_sizes s.store id s.now s.field.supplyGood
  exact .setStore h1.symm.le h2 h3 fun h k => Store.queueWrite_lists h k

/-- What starting the head's write does to the lists (R200, R202). -/
theorem Store.drain_lists {st : Store} {id : RecordId} {rest : List RecordId} (hq : st.queue = id :: rest)
    (h : st.QueueLawful) (hl : st.queue.length ≤ 32) {u : Store} (hu : u.queue = rest)
    (ho : u.overflow = st.overflow) : u.drainOverflow.queue.length ≤ 32 ∧ u.drainOverflow.QueueLawful := by
  have h1 := h.once
  have h2 := h.full
  have h3 := h.apart
  rw [hq] at h1 h2 h3 hl
  simp only [List.length_cons] at h2 hl
  have hr : rest.Nodup := (List.nodup_cons.mp h1).2
  unfold Store.drainOverflow
  split
  · rename_i e
    exact ⟨by rw [hu]; omega, ⟨hu ▸ hr, by rw [e]; simp, by rw [e]; simp, by rw [e]; simp⟩⟩
  · rename_i n r e
    have h4 := h.overflowOnce
    rw [← ho, e] at h4 h2 h3
    have h5 := List.nodup_cons.mp h4
    have h6 := h2 (by simp)
    have h7 (m) (hm : m ∈ n :: r) : RecordId.lockout m ∉ rest := fun k => h3 m hm (List.mem_cons_of_mem _ k)
    split
    · refine ⟨by simp [hu]; omega, ⟨?_, h5.2, ?_, fun _ => by simp [hu]; omega⟩⟩
      · rw [hu]
        refine List.nodup_append.mpr ⟨hr, by simp, ?_⟩
        simp; exact fun a ha e => h7 n (by simp) (e ▸ ha)
      · intro m hm k
        simp only [hu, List.mem_append, List.mem_singleton, RecordId.lockout.injEq] at k
        rcases k with k | rfl
        · exact h7 m (by simp [hm]) k
        · exact h5.1 hm
    · rename_i hlt; rw [hu] at hlt; omega

theorem Store.drainOverflow_sizes (st : Store) : st.drainOverflow.nextCreation = st.nextCreation
    ∧ st.drainOverflow.lockouts.length = st.lockouts.length
    ∧ st.drainOverflow.permits.length = st.permits.length := by
  unfold Store.drainOverflow
  split
  · simp
  · split <;> simp

theorem Moves.startWrite (s : State) : Moves [.store] s s.startWrite := by
  unfold State.startWrite
  split
  · exact .refl ..
  · rename_i id rest hq
    obtain ⟨h1, h2, h3⟩ := Store.drainOverflow_sizes
      { s.store with
        queue := rest
        writing := some ⟨id, s.contentsOf id, false, s.now⟩
        headWait := none
        waitReported := false }
    exact .setStore h1.symm.le h2 h3 fun h k => Store.drain_lists hq k h rfl rfl

theorem Store.QueueLawful.empty {st : Store} (hq : st.queue = []) (ho : st.overflow = []) :
    st.QueueLawful := ⟨by rw [hq]; simp, by rw [ho]; simp, by rw [ho]; simp, by rw [ho]; simp⟩

theorem Moves.losePower (s : State) : Moves [.power, .store] s s.losePower := by
  refine ⟨⟨fun p hp => ?_⟩, fun k => ?_⟩
  · cases p <;> simp_all [Part.same, State.losePower, State.axis, State.track, State.zone]
  · have h : s.store.Alike (match s.store.writing with
        | none => s.store
        | some w => s.store.put w.value false) := by
      split
      · exact .refl _
      · exact Store.alike_put ..
    refine ⟨k.axes, ?_, ⟨k.table.once, k.table.listed, fun e he => ?_⟩, .empty rfl rfl⟩
    · exact { k.bounded with
        lockouts := h.lockouts.trans k.bounded.lockouts
        permitRecords := h.permits.trans k.bounded.permitRecords
        writes := Nat.zero_le _ }
    · exact (k.table.numbered e he).trans_le h.next.symm.le

/-! ### The lockout table -/

theorem Locks.slot_setSlot (l : Locks) (n m : Nat) (e : Option LockEntry) :
    (l.setSlot n e).slot m = if m = n ∧ n < l.slots.length then e else l.slot m := by
  simp only [Locks.slot, Locks.setSlot, modAt_getElem?]
  by_cases h : m = n
  · subst h
    by_cases h : m < l.slots.length
    · simp [h]
    · simp [h]
  · simp [h]

theorem Locks.mem_entries (l : Locks) (e : LockEntry) : e ∈ l.entries ↔ ∃ n, l.slot n = some e := by
  simp only [Locks.entries, Locks.slot, List.mem_filterMap, id]
  constructor
  · rintro ⟨x, hx, rfl⟩
    obtain ⟨n, hn, h⟩ := List.getElem_of_mem hx
    exact ⟨n, by rw [List.getElem?_eq_getElem hn, h]; rfl⟩
  · rintro ⟨n, h⟩
    cases hn : l.slots[n]? with
    | none => rw [hn] at h; simp at h
    | some x => rw [hn] at h; exact ⟨x, List.mem_of_getElem? hn, h⟩

theorem Locks.slot_length {l : Locks} {n : Nat} (h : (l.slot n).isSome = true) : n < l.slots.length := by
  by_contra k
  simp [Locks.slot, List.getElem?_eq_none (Nat.not_lt.mp k)] at h

theorem Locks.emptySlot_spec {l : Locks} {n : Nat} (h : l.emptySlot = some n) :
    n < l.slots.length ∧ l.slot n = none := by
  unfold Locks.emptySlot at h
  obtain ⟨h1, h2, -⟩ := List.findIdx?_eq_some_iff_getElem.mp h
  exact ⟨h1, by simpa [Locks.slot, h1] using h2⟩

theorem Locks.findKey_spec {l : Locks} {p : Placement} {n : Nat} (h : l.findKey p = some n) :
    ∃ e, l.slot n = some e ∧ p.keyOf e = true := by
  unfold Locks.findKey at h
  obtain ⟨h1, h2, -⟩ := List.findIdx?_eq_some_iff_getElem.mp h
  cases hx : l.slots[n] with
  | none => simp [hx] at h2
  | some e => exact ⟨e, by simp [Locks.slot, h1, hx], by simpa [hx] using h2⟩

theorem Locks.findKey_none {l : Locks} {p : Placement} (h : l.findKey p = none) {m : Nat} {e : LockEntry}
    (hm : l.slot m = some e) : p.keyOf e = false := by
  unfold Locks.findKey at h
  simpa using List.findIdx?_eq_none_iff.mp h _ (List.mem_filterMap.mp ((l.mem_entries e).mpr ⟨m, hm⟩)
    |>.elim fun x hx => (show x = some e from hx.2) ▸ hx.1)

/-- One entry to a key, slot by slot (R92). -/
theorem Locks.keysOnce_iff (l : Locks) :
    KeysOnce l.slots ↔ ∀ m n (e f : LockEntry), l.slot m = some e → l.slot n = some f → e.key = f.key → m = n := by
  obtain ⟨xs, o, h1, h2⟩ := l
  simp only [Locks.slot, KeysOnce]
  induction xs with
  | nil => simp
  | cons x xs ih =>
    have fresh (e : LockEntry) : e.key ∉ xs.filterMap (fun e => e.map LockEntry.key)
        ↔ ∀ (n : Nat) (f : LockEntry), (xs[n]?).getD none = some f → f.key ≠ e.key := by
      simp only [List.mem_filterMap, Option.map_eq_some_iff]
      constructor
      · intro h n f hf k
        cases hn : xs[n]? with
        | none => rw [hn] at hf; simp at hf
        | some y => rw [hn] at hf; exact h ⟨y, List.mem_of_getElem? hn, f, hf, k⟩
      · rintro h ⟨y, hy, f, rfl, k⟩
        obtain ⟨n, hn, hf⟩ := List.getElem_of_mem hy
        exact h n f (by rw [List.getElem?_eq_getElem hn, hf]; rfl) k
    constructor
    · intro h m n e f hm hn k
      cases x with
      | none =>
        rw [List.filterMap_cons_none rfl] at h
        cases m <;> cases n <;> simp at hm hn
        exact congrArg _ (ih.mp h _ _ e f hm hn k)
      | some y =>
        simp only [List.filterMap_cons, Option.map_some, List.nodup_cons] at h
        cases m <;> cases n <;> simp at hm hn
        · rfl
        · subst hm; exact absurd k.symm ((fresh _).mp h.1 _ f hn)
        · subst hn; exact absurd k ((fresh _).mp h.1 _ e hm)
        · exact congrArg _ (ih.mp h.2 _ _ e f hm hn k)
    · intro h
      have tl := ih.mpr fun m n e f hm hn k => Nat.succ.inj (h (m + 1) (n + 1) e f (by simpa using hm)
        (by simpa using hn) k)
      cases x with
      | none => rwa [List.filterMap_cons_none rfl]
      | some y =>
        simp only [List.filterMap_cons, Option.map_some, List.nodup_cons]
        exact ⟨(fresh y).mpr fun n f hf k =>
          absurd (h (n + 1) 0 f y (by simpa using hf) (by simp) k) (by omega), tl⟩

/-- A slot whose new content has a key of its own keeps the keys apart (R92). -/
theorem Locks.keysOnce_setSlot {l : Locks} {n : Nat} {e : Option LockEntry} (h : KeysOnce l.slots)
    (k : ∀ f : LockEntry, e = some f → ∀ m (g : LockEntry), m ≠ n → l.slot m = some g → g.key ≠ f.key) :
    KeysOnce (l.setSlot n e).slots := by
  rw [Locks.keysOnce_iff] at h ⊢
  intro a b f g ha hb hk
  rw [Locks.slot_setSlot] at ha hb
  split at ha <;> split at hb
  · omega
  · by_contra hne
    exact k f ha b g (by omega) hb hk.symm
  · by_contra hne
    exact k g hb a f (by omega) ha hk
  · exact h a b f g ha hb hk

/-- A change of the table that keeps its size and its law. -/
theorem Moves.setTable {s : State} {slots : List (Option LockEntry)} {order : List Nat}
    (hl : slots.length = s.locks.slots.length)
    (h : s.TableLawful → ({ s with locks := { s.locks with slots := slots, order := order } } :
      State).TableLawful) :
    Moves [.lockTable] s { s with locks := { s.locks with slots := slots, order := order } } := by
  refine ⟨⟨fun p hp => ?_⟩, fun k => ?_⟩
  · cases p <;> simp_all [Part.same, State.axis, State.track, State.zone]
  · exact ⟨k.axes, { k.bounded with slots := hl.trans k.bounded.slots }, h k.table, k.store⟩

theorem Moves.mergeEntry (s : State) (n : Nat) (p : Placement) :
    Moves [.lockTable] s (s.mergeEntry n p) := by
  have key (m : Nat) : (s.locks.setSlot n ((s.locks.slot n).map fun e => e.merge p)).slot m
      = if m = n then (s.locks.slot n).map (fun e => e.merge p) else s.locks.slot m := by
    rw [Locks.slot_setSlot]
    by_cases h : m = n
    · subst h
      by_cases k : m < s.locks.slots.length
      · simp [k]
      · have : s.locks.slot m = none := by
          simp [Locks.slot, List.getElem?_eq_none (Nat.not_lt.mp k)]
        simp [k, this]
    · simp [h]
  refine Moves.setTable (s := s) (slots := (s.locks.setSlot n _).slots) (order := s.locks.order)
    (by simp [Locks.setSlot]) fun k => ⟨k.once, fun m => ?_, fun e he => ?_⟩
  · rw [k.listed m]
    change _ ↔ ((s.locks.setSlot n ((s.locks.slot n).map fun e => e.merge p)).slot m).isSome = true
    rw [key]; split
    · rename_i h; subst h; simp
    · rfl
  · obtain ⟨m, hm⟩ := (Locks.mem_entries _ e).mp he
    replace hm : (s.locks.setSlot n ((s.locks.slot n).map fun e => e.merge p)).slot m = some e := hm
    rw [key] at hm
    split at hm
    · obtain ⟨f, hf, rfl⟩ := Option.map_eq_some_iff.mp hm
      exact k.numbered f ((Locks.mem_entries _ f).mpr ⟨n, hf⟩)
    · exact k.numbered e ((Locks.mem_entries _ e).mpr ⟨m, hm⟩)

theorem Moves.createEntry {s : State} {n : Nat} (p : Placement) (h1 : n < s.locks.slots.length)
    (h2 : s.locks.slot n = none) : Moves [.lockTable, .store] s (s.createEntry n p) := by
  have key (m : Nat) (e : Option LockEntry) : (s.locks.setSlot n e).slot m
      = if m = n then e else s.locks.slot m := by
    rw [Locks.slot_setSlot]; simp [h1]
  have t1 : Touches [.lockTable, .store] s (s.createEntry n p) := by
    refine ⟨fun q hq => ?_⟩
    cases q <;> simp_all [Part.same, State.createEntry, State.axis, State.track, State.zone, Locks.setSlot,
      State.modStore]
  refine ⟨t1, fun k => ⟨k.axes, { k.bounded with slots := ?_ }, ?_, ?_⟩⟩
  · exact (modAt_length ..).trans k.bounded.slots
  · have hn : n ∉ s.locks.order := fun m => by
      have := (k.table.listed n).mp m; rw [h2] at this; simp at this
    refine ⟨?_, fun m => ?_, fun e he => ?_⟩
    · exact List.nodup_append.mpr ⟨k.table.once, by simp, by simp; exact fun a ha e => hn (e ▸ ha)⟩
    · change m ∈ s.locks.order ++ [n] ↔ ((s.locks.setSlot n _).slot m).isSome = true
      rw [key]
      by_cases h : m = n
      · simp [h]
      · simp [h, k.table.listed m]
    · obtain ⟨m, hm⟩ := (Locks.mem_entries _ e).mp he
      replace hm : (s.locks.setSlot n _).slot m = some e := hm
      rw [key] at hm
      change e.creation < s.store.nextCreation + 1
      split at hm
      · simp only [Option.some.injEq] at hm; subst hm
        simp [Placement.entry]
      · exact (k.table.numbered e ((Locks.mem_entries _ e).mpr ⟨m, hm⟩)).trans (Nat.lt_succ_self _)
  · exact ⟨k.store.once, k.store.overflowOnce, k.store.apart, k.store.full⟩

theorem Moves.placeEntry (s : State) (p : Placement) : Moves [.lockTable, .store] s (s.placeEntry p) := by
  unfold State.placeEntry
  split
  · exact .refl ..
  · exact .ite ((Moves.mergeEntry ..).to.trans (Moves.queueWrite ..).to) (.refl ..)
  · rename_i n h
    obtain ⟨h1, h2⟩ : n < s.locks.slots.length ∧ s.locks.slot n = none := by
      unfold Locks.judge at h
      split at h
      · simp at h
      · split at h
        · simp only [Placed.created.injEq] at h; subst h; exact Locks.emptySlot_spec (by assumption)
        · simp at h
    exact (Moves.createEntry p h1 h2).trans (Moves.queueWrite ..).to

theorem Moves.handOnCover (s : State) (fresh : AxisId → Bool) (a : Ant) :
    Moves haltParts s (s.handOnCover fresh a) := by
  unfold State.handOnCover
  refine .ite (.refl ..) ?_
  refine Moves.trans ?_ (Follows.stowCovered ..).to
  have h : Moves haltParts s (((((Machine.forEach (newAxes fresh a) (fun s i => s.stopAxis i .lockout .braked)
      s).haltQueue a .lockout).terminateBurst a .lockout).haltGroupOf a .lockout none)) := by
    refine Moves.trans ?_ (Moves.haltGroupOf ..).to
    refine Moves.trans ?_ (Moves.terminateBurst ..).to
    exact (Follows.forEach (fun s i => Follows.stopAxis s i .lockout .braked) _ s).to.trans
      (Moves.haltQueue ..).to
  split
  · exact h
  · exact .ite (h.trans (Follows.endJog ..).to) h

theorem Moves.lowerZones (s : State) (a : Ant) : Moves [.zones] s (s.lowerZones a) :=
  .forEach (fun s z => .lowerZone s true z) _ s

theorem Moves.applyCover (s before : State) (slot : Option Nat) (scope : Option Ant) :
    Moves haltParts s (s.applyCover before slot scope) :=
  .forEach (fun s a => (Moves.handOnCover s _ a).trans (Moves.lowerZones ..).to) _ s

theorem Moves.removeEntry (s : State) (n : Nat) (e : LockEntry) :
    Moves removeParts s (s.removeEntry n e) := by
  unfold State.removeEntry
  refine Moves.trans ?_ (Follows.forEach (fun s a => Follows.coverRemoved s a) _ _).to
  refine Moves.trans ?_ (Moves.queueWrite ..).to
  have key (m : Nat) : (s.locks.setSlot n none).slot m = if m = n then none else s.locks.slot m := by
    rw [Locks.slot_setSlot]
    by_cases h : m = n
    · subst h
      by_cases k : m < s.locks.slots.length
      · simp [k]
      · have : s.locks.slot m = none := by
          simp [Locks.slot, List.getElem?_eq_none (Nat.not_lt.mp k)]
        simp [k, this]
    · simp [h]
  refine Moves.to (Moves.setTable (s := s) (slots := (s.locks.setSlot n none).slots)
    (order := s.locks.order.filter fun m => decide (m ≠ n)) (by simp [Locks.setSlot])
    fun k => ⟨k.once.filter _, fun m => ?_, fun e he => ?_⟩)
  · change _ ↔ ((s.locks.setSlot n none).slot m).isSome = true
    rw [key]
    by_cases h : m = n
    · simp [h]
    · simp [h, k.listed m]
  · obtain ⟨m, hm⟩ := (Locks.mem_entries _ e).mp he
    replace hm : (s.locks.setSlot n none).slot m = some e := hm
    rw [key] at hm
    split at hm
    · simp at hm
    · exact k.numbered e ((Locks.mem_entries _ e).mpr ⟨m, hm⟩)

/-! ### The table at power-on (R203) -/

theorem insertByCreation_perm (key : Nat → Nat) (n : Nat) (xs : List Nat) :
    (insertByCreation key n xs).Perm (n :: xs) := by
  induction xs with
  | nil => exact .refl _
  | cons m rest ih =>
    unfold insertByCreation
    split
    · exact .refl _
    · exact (ih.cons m).trans (.swap ..)

theorem orderOf_perm (slots : List (Option LockEntry)) :
    (orderOf slots).Perm ((List.range slots.length).filter fun n => ((slots[n]?).getD none).isSome) := by
  have h (key : Nat → Nat) (p : Nat → Bool) (ns acc : List Nat) :
      (ns.foldl (fun acc n => if p n = true then insertByCreation key n acc else acc) acc).Perm
        (ns.filter p ++ acc) := by
    induction ns generalizing acc with
    | nil => exact .refl _
    | cons n ns ih =>
      simp only [List.foldl_cons, List.filter_cons]
      split
      · refine (ih _).trans ((List.Perm.append_left _ (insertByCreation_perm ..)).trans ?_)
        simp
      · exact ih _
  simpa [orderOf] using h _ _ (List.range slots.length) []

theorem nextCreationOf_gt {slots : List (Option LockEntry)} {e : LockEntry}
    (h : e ∈ slots.filterMap id) : e.creation < nextCreationOf slots := by
  have key (xs : List LockEntry) (acc : Nat) : acc ≤ xs.foldl (fun acc e => max acc (e.creation + 1)) acc
      ∧ ∀ e ∈ xs, e.creation < xs.foldl (fun acc e => max acc (e.creation + 1)) acc := by
    induction xs generalizing acc with
    | nil => simp
    | cons x xs ih =>
      obtain ⟨h1, h2⟩ := ih (max acc (x.creation + 1))
      simp only [List.foldl_cons]
      refine ⟨(le_max_left ..).trans h1, fun e he => ?_⟩
      rcases List.mem_cons.mp he with rfl | he
      · exact lt_of_lt_of_le (by omega) h1
      · exact h2 e he
  exact (key _ 0).2 e h

theorem Axis.initial_lawful (r : AxisRecord) (p : Mdeg) : (Axis.initial r p).Lawful :=
  ⟨rfl, rfl, fun _ => rfl, by simp [Axis.initial], by simp [Axis.initial], by simp [Axis.initial]⟩

/-- Every law holds of a part whose records have just been loaded, where the store has its two lists of
records. -/
theorem State.booted_lawful (s : State) (h1 : s.store.lockouts.length = 24)
    (h2 : s.store.permits.length = 32) : s.booted.Lawful where
  axes i := by
    simp only [State.axis, State.booted, Six.get_of, Store.loadAntenna, Antenna.initial]
    cases i.ax <;> exact Axis.initial_lawful ..
  bounded :=
    { slots := by simp [State.booted, Store.loadLocks, Store.restoredSlots, h1]
      permits := by simp [State.booted, Store.loadPermits, h2]
      lockouts := by simp [State.booted, Store.opened, h1]
      permitRecords := by simp [State.booted, Store.opened, h2]
      segments := fun a => by simp [State.booted, State.track, Track.initial]
      window := Nat.zero_le _
      needs := Nat.zero_le _
      writes := Nat.zero_le _
      counts := fun l => by
        cases l <;> simp [State.booted, State.link, Links.initial, Links.get, LinkRecord.initial] }
  table :=
    { once := (orderOf_perm _).nodup_iff.mpr ((List.nodup_range ..).filter _)
      listed := fun n => by
        have := (orderOf_perm s.store.restoredSlots).mem_iff (a := n)
        simp only [List.mem_filter, List.mem_range] at this
        refine this.trans ⟨fun h => h.2, fun h => ⟨?_, h⟩⟩
        exact Locks.slot_length (l := s.store.loadLocks) h
      numbered := fun _ he => nextCreationOf_gt he }
  store := .empty rfl rfl

theorem Moves.queueSlot (s : State) (n : Option Nat) : Moves [.store] s (s.queueSlot n) := by
  unfold State.queueSlot
  split
  · exact .refl ..
  · exact .queueWrite ..

theorem Moves.restoreLockouts (s : State) (bad : List Nat) :
    Moves [.lockTable, .store] s (s.restoreLockouts bad) := by
  unfold State.restoreLockouts
  refine .ite (.refl ..) ?_
  refine Moves.trans ?_ (Moves.forEach (fun s n => Moves.queueWrite s (.lockout n)) _ _).to
  exact (Moves.placeEntry ..).trans (Moves.queueSlot ..).to

theorem Moves.flagBad (s : State) : Moves [.links] s s.flagBad := by
  unfold State.flagBad
  exact .ite (.refl ..) (.setFlags ..)

theorem Moves.powerUp (s : State) : Moves bootParts s s.powerUp := by
  refine Moves.trans (Moves.trans ⟨⟨fun p hp => ?_⟩, fun k => ?_⟩ (Moves.restoreLockouts ..).to)
    (Moves.flagBad ..).to
  · cases p <;> simp_all [bootParts, Part.same, State.booted]
  · exact s.booted_lawful k.bounded.lockouts k.bounded.permitRecords

/-! ### Permits and links -/

theorem Moves.setPermits {s : State} {p : Permits} (h : p.entries.length = s.permits.entries.length) :
    Moves [.permits] s { s with permits := p } := by
  refine ⟨⟨fun q hq => ?_⟩, fun k => ?_⟩
  · cases q <;> simp_all [Part.same, State.axis, State.track, State.zone]
  · exact k.of_same k.axes rfl rfl h (fun _ => le_rfl) rfl id rfl fun _ => ⟨rfl, rfl, rfl⟩

theorem Moves.countRefusal (s : State) (n : Option Nat) : Moves [.permits] s (s.countRefusal n) := by
  unfold State.countRefusal
  split
  · exact .setPermits (modAt_length ..)
  · exact .setPermits rfl

theorem LinkRecord.take_counts {l : LinkRecord} (now : Epoch)
    (h : l.taken ≤ 65535 ∧ l.discarded ≤ 65535 ∧ l.dropped ≤ 65535) :
    (l.take now).taken ≤ 65535 ∧ (l.take now).discarded ≤ 65535 ∧ (l.take now).dropped ≤ 65535 :=
  ⟨by simp [LinkRecord.take, satAdd], h.2⟩

theorem links_mem (l : Link) : [Part.links] ⊆ linkParts l := by cases l <;> simp [linkParts]

theorem Moves.heard (s : State) (l : Link) : Moves (linkParts l) s { s with wind := s.wind.heard l } := by
  cases l with
  | safety => exact Moves.to (ps := [.wind]) (.setWind id)
  | operations => exact .refl _ s
  | pendant n => exact .refl _ s

theorem Moves.takeFrame (s : State) (l : Link) : Moves (linkParts l) s (s.takeFrame l) := by
  unfold State.takeFrame
  refine Moves.trans ?_ ((Moves.setEarly ..).mono (links_mem l))
  refine Moves.trans (Moves.mono ?_ (links_mem l)) (Moves.heard (s.modLink l fun r => r.take s.now) l)
  exact .modLink fun h => LinkRecord.take_counts _ h

theorem Moves.answer (s : State) (l : Link) (k tag : Byte) (st : Status) (b : ReplyBody) :
    Moves [.links] s (s.answer l k tag st b) := .modLink id

/-- Taking a frame and answering it does what the owner does, on the links, and with the SILENCE source. -/
theorem Moves.takeAndAnswer {ps : List Part} (l : Link) (k tag : Byte) (s : State)
    {owner : State → Answer} (h : ∀ s, Moves ps s (owner s).state) :
    Moves (linkParts l ++ ps) s (takeAndAnswer l k tag s owner) := by
  unfold Machine.takeAndAnswer
  dsimp only
  refine Moves.trans ((Moves.takeFrame s l).mono (List.subset_append_left ..)) ?_
  refine Moves.trans ((h _).mono (List.subset_append_right ..)) ((Moves.answer ..).mono ?_)
  exact List.Subset.trans (links_mem l) (List.subset_append_left ..)

theorem dispatch_moves {ps : List Part} (l : Link) (k : Kind) {owner : State → Answer}
    (h : ∀ s, Moves ps s (owner s).state) (s : State) : Moves ps s (dispatch l k owner s).state := by
  unfold dispatch
  split
  · exact h s
  · exact .refl ..

/-- What a request served by its owner alone can change. -/
theorem serve_moves {ps : List Part} {l : Link} {k : Kind} {tag : Byte} {s t : State}
    {owner : State → Answer} {fits : List Byte → Bool} (h : ∀ s, Moves ps s (owner s).state)
    (e : serve l k tag s owner fits = .next t) :
    Moves (linkParts l ++ ps) s t := by
  simp only [serve, Host.Outcome.next.injEq] at e
  subst e
  unfold onPower
  refine .ite (.ite ?_ (.refl ..)) (.refl ..)
  refine Moves.trans (Moves.takeAndAnswer l _ tag s (dispatch_moves l k h)) ((Moves.announce ..).mono ?_)
  exact List.Subset.trans (links_mem l) (List.subset_append_left ..)

/-- What a request with what follows it can change. -/
theorem request_moves {ps : List Part} {l : Link} {k : Kind} {tag : Byte} {s t : State}
    {owner : State → Answer} {fits : List Byte → Bool} (h : ∀ s, Moves ps s (owner s).state)
    (e : request l k tag s owner fits = .next t) :
    Moves (linkParts l ++ ps ++ followParts) s t := by
  simp only [request, Host.Outcome.next.injEq] at e
  subst e
  unfold onPower
  refine .ite (.ite ?_ (.refl ..)) (.refl ..)
  unfold event
  refine Moves.trans ?_ ((Moves.announce ..).mono (fun p hp => by simp [links_mem l hp]))
  refine Moves.trans ?_ ((Follows.settle _).mono (List.subset_append_right ..))
  exact (Moves.takeAndAnswer l _ tag s (dispatch_moves l k h)).mono (List.subset_append_left ..)

/-- What an event with what follows it can change. -/
theorem occur_moves {ps : List Part} {s t : State} {due : Bool} {body : State → State}
    (h : Moves ps s (body s)) (e : occur s due body = .next t) : Moves (ps ++ followParts ++ [.links]) s t := by
  simp only [occur, Host.Outcome.next.injEq] at e
  subst e
  unfold onPower
  refine .ite (.ite ?_ (.refl ..)) (.refl ..)
  unfold event
  refine Moves.trans ?_ ((Moves.announce ..).mono (by simp))
  refine Moves.trans ?_ ((Follows.settle _).mono (by intro p hp; simp [hp]))
  exact h.mono (by intro p hp; simp [hp])

/-- What an event that reaches one block alone can change. -/
theorem occurAlone_moves {ps : List Part} {s t : State} {due : Bool} {body : State → State}
    (h : Moves ps s (body s)) (e : occurAlone s due body = .next t) : Moves (ps ++ [.links]) s t := by
  simp only [occurAlone, Host.Outcome.next.injEq] at e
  subst e
  unfold onPower
  refine .ite (.ite ?_ (.refl ..)) (.refl ..)
  exact (h.mono (List.subset_append_left ..)).trans ((Moves.announce ..).mono (by simp))

/-! ### Queues and replies -/

/-- Segments each of which starts at the end of the one before it, and runs some time, start one after another (R48). -/
theorem starts_rise {gs : List Segment} (h : gs.IsChain fun g h => h.start = g.finish)
    (d : ∀ g ∈ gs, 0 < g.duration) : gs.Pairwise fun g h => g.start < h.start := by
  rw [← List.isChain_iff_pairwise]
  induction h with
  | nil => exact .nil
  | singleton g => exact .singleton g
  | cons_cons e _ ih =>
    refine .cons_cons ?_ (ih fun g k => d g (List.mem_cons_of_mem _ k))
    exact e ▸ Int.lt_add_of_pos_right _ (Int.natCast_pos.mpr (d _ List.mem_cons_self))

/-- Segments that go leave a run of the queue, in its order, where the burst that staged the others stays open with
its last segment in place (R48). -/
theorem State.QueuesOrdered.of_infix {s t : State} (h : s.QueuesOrdered)
    (hs : ∀ a, (t.track a).segments <:+: (s.track a).segments)
    (hb : ∀ a, (t.track a).stagedSegments ≠ [] → t.burst.ant = s.burst.ant)
    (ht : ∀ a g, t.burst.ant = some a → (t.track a).segments.getLast? = some g →
      s.burst.ant = some a ∧ (s.track a).segments.getLast? = some g ∧ t.burst.tail = s.burst.tail) :
    t.QueuesOrdered where
  order a := (h.order a).sublist (hs a).sublist
  staged a k := (hb a k).trans (h.staged a fun e => k (List.sublist_nil.mp (e ▸ (hs a).sublist.filter _)))
  follows a := (h.follows a).infix (hs a)
  lasts a g k := h.lasts a g ((hs a).subset k)
  rises a := (h.rises a).sublist (hs a).sublist
  tail a g k l := by
    obtain ⟨u, v, w⟩ := ht a g k l
    exact w ▸ h.tail a g u v

theorem Reply.payload_length (r : Reply) : r.payload.length ≤ 240 := by
  simp [Reply.payload]

end Sys2Proof.Machine
end

