-- ==== Sys2Proof/Laws/Commands.lean ====
section
/-! SUPPORT. What each command can change, one lemma per command: the parts `touched` lists, and no law of
`State.Lawful` is broken. -/

namespace Sys2Proof.Machine

set_option Elab.async false

variable {ps : List Part} {s t : State}

/-! ### Owners -/

theorem refuse_moves (s : State) (c : Status) : Moves ps s (refuse s c).state := .refl ..

theorem okWith_moves {b : ReplyBody} (h : Moves ps s t) : Moves ps s (okWith b t).state := h

theorem okOrClamped_moves {c : Bool} {b : ReplyBody} (h : Moves ps s t) :
    Moves ps s (okOrClamped c b t).state := h

theorem check_moves {b : Bool} {c : Status} {go : Answer} (h : Moves ps s go.state) :
    Moves ps s (check s b c go).state := by
  unfold check; split
  · exact h
  · exact .refl ..

theorem withAnt_moves {n : Nat} {go : Ant → Answer} (h : ∀ a, Moves ps s (go a).state) :
    Moves ps s (withAnt s n go).state := by
  unfold withAnt; split
  · exact h _
  · exact .refl ..

theorem withCode_moves {α : Type} {c : Option α} {go : α → Answer} (h : ∀ a, Moves ps s (go a).state) :
    Moves ps s (withCode s c go).state := by
  unfold withCode; split
  · exact h _
  · exact .refl ..

theorem withAxis_moves {n : Nat} {ax : Option AxisName} {go : AxisId → Answer}
    (h : ∀ i, Moves ps s (go i).state) : Moves ps s (withAxis s n ax go).state :=
  withAnt_moves fun _ => withCode_moves fun _ => h _

theorem withGroup_moves {n : Nat} {go : GroupId → Answer} (h : ∀ g, Moves ps s (go g).state) :
    Moves ps s (withGroup s n go).state := by
  unfold withGroup; split
  · exact h _
  · exact .refl ..

theorem withSlot_moves {n : Nat} {go : Nat → Answer} (h : ∀ g, Moves ps s (go g).state) :
    Moves ps s (withSlot s n go).state := by
  unfold withSlot; split
  · exact h _
  · exact .refl ..

theorem permitted_moves {q : Subject} {m : Option Ant} {go : State → Answer}
    (h : ∀ s, Moves ([.permits] ++ ps) s (go s).state) :
    Moves ([.permits] ++ ps) s (s.permitted q m go).state := by
  unfold State.permitted; split
  · exact h s
  · exact (Moves.countRefusal ..).mono (by simp)

/-! ### Links -/

theorem LinkRecord.receiveAll_counts (n : Nat) (l : LinkRecord)
    (h : l.taken ≤ 65535 ∧ l.discarded ≤ 65535 ∧ l.dropped ≤ 65535) :
    (receiveAll n l).taken ≤ 65535 ∧ (receiveAll n l).discarded ≤ 65535
      ∧ (receiveAll n l).dropped ≤ 65535 := by
  induction n generalizing l with
  | zero => exact h
  | succ n ih =>
    unfold receiveAll
    split
    · exact h
    · exact ih _ h
    · exact ih _ ⟨h.1, by simp [satAdd], h.2.2⟩
    · split
      · exact ih _ h
      · exact ih _ ⟨h.1, h.2.1, by simp [satAdd]⟩

theorem onPower_moves {f : State → State} (h : Moves ps s (f s)) (e : Host.Outcome.next (onPower s f) =
    (Host.Outcome.next t : Host.Outcome State Fault Refusal)) : Moves ps s t := by
  simp only [Host.Outcome.next.injEq] at e
  subst e; unfold onPower
  exact .ite h (.refl ..)

theorem frameReceived_moves {l : Link} {bytes : List Byte} (e : execFrameReceived l bytes s = .next t) :
    Moves [.links] s t :=
  onPower_moves (.modLink (f := fun r => r.receiveBytes bytes) fun h =>
    LinkRecord.receiveAll_counts _ _ h) e

theorem badKind_moves {l : Link} {k tag : Byte} {body : List Byte}
    (e : execBadKind l k tag body s = .next t) : Moves (linkParts l) s t := by
  refine onPower_moves ?_ e
  split
  · exact .refl ..
  · refine .ite ?_ (.refl ..)
    refine Moves.trans ?_ ((Moves.announce ..).mono (links_mem l))
    exact (Moves.takeAndAnswer (ps := []) l k tag s fun s => refuse_moves s _).mono (by simp)

theorem replySent_moves {l : Link} (e : execReplySent l s = .next t) :
    Moves (if l = .safety then .links :: followParts else [.links]) s t := by
  refine onPower_moves ?_ e
  dsimp only
  have h : Moves [.links] s (s.modLink l fun r => { r with reply := none }) := .modLink id
  by_cases e : l = .safety
  · subst e
    refine .ite ?_ (.refl ..)
    refine .ite ?_ h.to
    unfold event
    refine Moves.trans ?_ (Moves.announce ..).to
    exact (h.to.trans (Moves.markForm ..).to).trans (Follows.settle ..).to
  · simp only [e, false_and, if_false]
    exact .ite h (.refl ..)

theorem noticeSent_moves {l : Link} (e : execNoticeSent l s = .next t) : Moves [.links] s t :=
  onPower_moves (.ite (.modLink id) (.refl ..)) e

theorem serve_links {l : Link} {k : Kind} {tag : Byte} {owner : State → Answer} {fits : List Byte → Bool}
    (h : ∀ s, Moves [.links] s (owner s).state) (e : serve l k tag s owner fits = .next t) :
    Moves (linkParts l) s t :=
  (serve_moves h e).mono fun p hp => by
    rcases List.mem_append.mp hp with hp | hp
    · exact hp
    · exact links_mem l hp

theorem changesAck_moves {l : Link} {tag : Byte} {v m : FlagWord} (e : execChangesAck l tag v m s = .next t) :
    Moves (linkParts l) s t := serve_links (fun _ => okWith_moves (.modLink id)) e

theorem noticeEnableOn_moves {l : Link} {tag : Byte} (e : execNoticeEnableOn l tag s = .next t) :
    Moves (linkParts l) s t := serve_links (fun _ => okWith_moves (.modLink id)) e

theorem noticeEnableOff_moves {l : Link} {tag : Byte} (e : execNoticeEnableOff l tag s = .next t) :
    Moves (linkParts l) s t := serve_links (fun _ => okWith_moves (.modLink id)) e

theorem Moves.useFree (s : State) : Moves [.freeCount] s s.useFree := by
  refine .plain ⟨fun p hp => ?_⟩ rfl rfl rfl rfl rfl rfl rfl rfl rfl
  cases p <;> simp_all [State.useFree, Part.same, State.axis, State.track, State.zone]

theorem show_moves (l : Link) (sel : Selector) (part : Nat) (c : Content) :
    Moves [.freeCount] s (s.show l sel part c).state := by
  unfold State.show
  dsimp only
  split <;> exact .useFree s

theorem statusRead_moves {l : Link} {tag : Byte} {sel : Selector} {part : Nat} {view : State → Content}
    (e : statusRead l tag sel part s view = .next t) : Moves (linkParts l ++ [.freeCount]) s t := by
  refine serve_moves (fun s => ?_) e
  split
  · exact show_moves ..
  · exact refuse_moves ..

theorem statusReadOf_moves {l : Link} {tag : Byte} {sel : Selector} {ant part : Nat}
    {view : State → Ant → Content} (e : statusReadOf l tag sel ant part s view = .next t) :
    Moves (linkParts l ++ [.freeCount]) s t :=
  by
  refine serve_moves (fun s => ?_) e
  split
  · split
    · exact show_moves ..
    · exact withAnt_moves fun _ => show_moves ..
  · exact refuse_moves ..

/-! ### The clock -/

theorem Axis.shift_lawful {x : Axis} (off : Int) (h : x.Lawful) : (x.shift off).Lawful :=
  ⟨h.amplifier, h.released, h.still, by simpa [Axis.shift] using h.stop,
    by simpa [Axis.shift] using h.profile, by simpa [Axis.shift, shiftTimer] using h.releaseCheck⟩

theorem State.axis_shift (s : State) (off : Int) (i : AxisId) :
    (s.shift off).axis i = (s.axis i).shift off := by
  simp [State.shift, State.axis, Antenna.shift]

theorem State.link_shift (s : State) (off : Int) (l : Link) :
    (s.shift off).link l = (s.link l).shift off := by
  simp [State.shift, State.link, Links.get_map]

/-- What a TIME_SET moves with the clock (R194). -/
def shiftParts : List Part :=
  [.links, .clock, .drives, .burst, .groups, .groupRecords, .authorities, .hornTimers, .horns, .stow, .ice,
   .weather, .feed, .store, .pace]

theorem Moves.setClock (s : State) (e : Epoch) : Moves shiftParts s (s.setClock e) := by
  refine ⟨⟨fun p hp => ?_⟩, fun k => ?_⟩
  · cases p <;> simp_all [shiftParts, Part.same, State.setClock, State.shift, Locks.shift, Heat.shift,
      Feed.shift, State.axis, State.track, State.zone, Antenna.shift, Axis.shift, Axis.settings]
  · refine ⟨fun i => ?_, ⟨k.bounded.slots, k.bounded.permits, k.bounded.lockouts, k.bounded.permitRecords,
      k.bounded.segments, k.bounded.window, ?_, k.bounded.writes, fun l => ?_⟩,
      ⟨k.table.once, k.table.listed, k.table.numbered⟩,
      ⟨k.store.once, k.store.overflowOnce, k.store.apart, k.store.full⟩⟩
    · have : (s.setClock e).axis i = (s.axis i).shift (e - s.now) := s.axis_shift ..
      rw [this]; exact Axis.shift_lawful _ (k.axes i)
    · simpa [State.setClock, State.shift, Feed.shift] using k.bounded.needs
    · have : (s.setClock e).link l = (s.link l).shift (e - s.now) := s.link_shift ..
      rw [this]; exact k.bounded.counts l

theorem timeSet_moves {tag : Byte} {n : Nat} (e : execTimeSet tag n s = .next t) : Moves shiftParts s t :=
  (serve_moves (fun _ => check_moves (okWith_moves (.setClock ..))) e).to

/-! ### Axis requests -/

theorem axisEnableOn_moves {tag : Byte} {n : Nat} (e : execAxisEnableOn tag n s = .next t) :
    Moves (.links :: followParts) s t :=
  (request_moves (fun _ => withAnt_moves fun _ => check_moves (check_moves (check_moves (check_moves
    (okWith_moves (Follows.enableBus ..)))))) e).to

theorem axisEnableHold_moves {tag : Byte} {n : Nat} (e : execAxisEnableHold tag n s = .next t) :
    Moves (.links :: followParts) s t :=
  (request_moves (fun _ => withAnt_moves fun _ => check_moves (check_moves (check_moves (check_moves
    (okWith_moves (Follows.forEach (fun s i => Follows.addClaim s i .operations) _ _)))))) e).to

theorem Follows.modAnt {s : State} {a : Ant} {f : Antenna → Antenna}
    (h : ∀ v, (f v).configInvalid = v.configInvalid ∧ (f v).axes = v.axes) : Follows s (s.modAnt a f) :=
  Moves.follows (ps := [.drives]) (.modAnt (fun v => ⟨(h v).1, fun _ => by simp [(h v).2]⟩)
    fun v _ k => by rw [(h v).2]; exact k)

theorem Follows.disable (s : State) (a : Ant) : Follows s (s.disable a) := by
  unfold State.disable
  split
  · exact .refl ..
  · refine Follows.trans ?_ (Follows.forEach (fun s i => ?_) _ _)
    · exact .modAnt fun _ => ⟨rfl, rfl⟩
    exact .ite ((Follows.clearClaims ..).trans (.enterAxis ..)) (.refl ..)
  · refine Follows.trans ?_ (.stopBoth ..)
    exact .modAnt fun _ => ⟨rfl, rfl⟩

theorem axisEnableOff_moves {tag : Byte} {n : Nat} (e : execAxisEnableOff tag n s = .next t) :
    Moves (.links :: followParts) s t :=
  (request_moves (fun _ => withAnt_moves fun _ => check_moves (check_moves (check_moves (check_moves
    (okWith_moves (Follows.disable ..)))))) e).to

/-- An update of an axis that keeps its place. -/
theorem Moves.setAxis {s : State} {i : AxisId} {f : Axis → Axis}
    (h : ∀ x, (f x).position = x.position ∧ (f x).followingError = x.followingError)
    (k : (s.axis i).Lawful → (f (s.axis i)).Lawful) : Moves [.drives, .axisSettings] s (s.modAxis i f) := by
  refine ⟨⟨fun p hp => ?_⟩, (Moves.modAxis_any k).keeps⟩
  cases p <;> simp_all [Part.same]
  intro j; split <;> simp_all

theorem Moves.pickEncoder (s : State) (i : AxisId) (io : AxisInputs) :
    Moves [.drives, .axisSettings] s (s.modAxis i fun x => x.pickEncoder io) := by
  refine .setAxis (fun x => ?_) fun h => ?_
  · unfold Axis.pickEncoder; split <;> exact ⟨rfl, rfl⟩
  · unfold Axis.pickEncoder; split
    · exact h.of_same
    · exact h

theorem Moves.resetAxis (s : State) (i : AxisId) :
    Moves (.axisSettings :: followParts) s (s.resetAxis i) := by
  unfold State.resetAxis
  refine .ite ?_ (.refl ..)
  split
  · exact (Follows.enterAxis ..).to
  · exact (Follows.enterAxis ..).to.trans (Moves.pickEncoder ..).to

theorem Moves.resetDrives (s : State) (a : Ant) :
    Moves (.axisSettings :: followParts) s (s.resetDrives a) := by
  unfold State.resetDrives
  have h := Moves.forEach (fun s i => Moves.resetAxis s i) a.axes s
  dsimp only
  exact .ite (h.trans (Follows.redrive ..).to) h

theorem driveReset_moves {tag : Byte} {n : Nat} (e : execDriveReset tag n s = .next t) :
    Moves ([.links, .axisSettings] ++ followParts) s t :=
  (request_moves (fun _ => withAnt_moves fun _ => Moves.resetDrives ..) e).to

theorem Moves.setActive (s : State) (i : AxisId) (c : Enc) :
    Moves [.drives, .axisSettings] s (s.modAxis i fun x => { x with active := c }) :=
  .setAxis (fun _ => ⟨rfl, rfl⟩) Axis.Lawful.of_same

theorem encoderSelect_moves {tag : Byte} {n : Nat} {ax : Option AxisName} {c : Option Enc}
    (e : execEncoderSelect tag n ax c s = .next t) : Moves [.links, .drives, .axisSettings] s t :=
  (serve_moves (fun _ => withAxis_moves fun _ => withCode_moves fun _ => check_moves (check_moves
    (okWith_moves (Moves.setActive ..)))) e).to

theorem Moves.runFieldTimers (s : State) (a : Ant) : Moves [.drives] s (s.runFieldTimers a) := by
  unfold State.runFieldTimers
  refine Moves.modAnt (fun v => ⟨rfl, fun ax => ?_⟩) fun v ax h => ?_
  · cases ax <;> simp [Antenna.runBand, PerAxis.get, PerAxis.map, Axis.runDisagree, Axis.settings]
  · cases ax <;> exact Axis.Lawful.of_same h

theorem Moves.setEnabled (s : State) (i : AxisId) (c : Enc) (b : Bool) :
    Moves [.drives, .axisSettings] s ((s.modAxis i fun x => x.setEnabled c b).runFieldTimers i.ant) := by
  refine Moves.trans (.setAxis (fun x => ?_) fun h => ?_) (Moves.runFieldTimers ..).to
  · cases c <;> exact ⟨rfl, rfl⟩
  · cases c <;> exact h.of_same

theorem encoderDisable_moves {tag : Byte} {n : Nat} {ax : Option AxisName} {c : Option Enc}
    (e : execEncoderDisable tag n ax c s = .next t) : Moves [.links, .drives, .axisSettings] s t :=
  (serve_moves (fun _ => withAxis_moves fun _ => withCode_moves fun _ => check_moves
    (okWith_moves (Moves.setEnabled _ _ _ false))) e).to

theorem encoderRestore_moves {tag : Byte} {n : Nat} {ax : Option AxisName} {c : Option Enc}
    (e : execEncoderRestore tag n ax c s = .next t) : Moves [.links, .drives, .axisSettings] s t := by
  refine (serve_moves (ps := [.drives, .axisSettings]) (fun s => ?_) e).to
  exact withAxis_moves fun _ => withCode_moves fun _ => Moves.setEnabled ..

theorem Moves.validate (s : State) (a : Ant) :
    Moves [.drives, .axisSettings] s (s.modAnt a Antenna.validate) := by
  have h (v : Antenna) : v.validate.axes = v.axes := by unfold Antenna.validate; split <;> rfl
  refine ⟨⟨fun p hp => ?_⟩, fun hs => hs.of_same (fun j => ?_) rfl rfl rfl (fun _ => le_rfl) rfl id rfl
    fun _ => ⟨rfl, rfl, rfl⟩⟩
  · cases p <;> simp_all [Part.same]
    intro i; split
    · rename_i e; subst e; exact ⟨rfl, rfl⟩
    · exact ⟨rfl, rfl⟩
  · have := hs.axes j
    simp only [State.axis, State.modAnt, State.setAnt, Six.get_set]
    split
    · rename_i e; rw [h]; subst e; exact this
    · exact this

theorem configWriteAxis_moves {tag : Byte} {n : Nat} {ax : Option AxisName} {f : AxisFigures}
    (e : execConfigWriteAxis tag n ax f s = .next t) :
    Moves [.links, .drives, .axisSettings, .store] s t := by
  refine (serve_moves (ps := [.drives, .axisSettings, .store]) (fun _ => withAxis_moves fun _ =>
    check_moves (check_moves (check_moves (okOrClamped_moves ?_)))) e).to
  unfold State.writeAxis
  refine Moves.trans (Moves.trans ?_ (Moves.validate ..).to) (Moves.queueWrite ..).to
  exact Moves.to (ps := [.drives, .axisSettings]) (.setAxis (fun _ => ⟨rfl, rfl⟩) Axis.Lawful.of_same)

end Sys2Proof.Machine
end

