-- ==== Sys2Proof/Laws/Requests.lean ====
section
/-! SUPPORT. What each request of the queues, the groups, the lockouts, local control, the heaters, the stow
and the permits can change. -/

namespace Sys2Proof.Machine

set_option Elab.async false

variable {ps : List Part} {s t : State}

/-! ### Records -/

theorem configWriteStation_moves {tag : Byte} {f : StationFigures}
    (e : execConfigWriteStation tag f s = .next t) :
    Moves ([.links, .figures, .store] ++ followParts) s t := by
  refine (request_moves (ps := [.feed, .figures, .store]) (fun s => ?_) e).to
  dsimp only
  split
  · refine check_moves (okOrClamped_moves ?_)
    unfold State.writeStation
    refine Moves.trans ?_ (Moves.raise ..).to
    refine Moves.trans ?_ (Moves.markFreedIf ..).to
    exact (Moves.modFeed_any id).to.trans (Moves.queueWrite ..).to
  · exact .refl ..

theorem Moves.rewriteZone (s : State) (z : ZoneId) (f : ZoneFigures) :
    Moves [.zones, .zoneRequests, .zoneSettings, .store] s (s.writeZone z f) := by
  unfold State.writeZone
  refine Moves.trans ?_ (Moves.raise ..).to
  refine Moves.trans ?_ (Moves.markFreedIf ..).to
  refine Moves.trans ?_ (Moves.queueWrite ..).to
  refine Moves.trans ?_ (Moves.formLevel ..).to
  exact (Moves.modZone_any ..).to.trans (Moves.followFloor ..).to

theorem configWriteZone_moves {tag : Byte} {n : Nat} {c : Option ZoneClass} {f : ZoneFigures}
    (e : execConfigWriteZone tag n c f s = .next t) :
    Moves ([.links, .zoneSettings, .zoneRequests, .store] ++ followParts) s t :=
  (request_moves (fun _ => withAnt_moves fun _ => withCode_moves fun _ => check_moves (check_moves
    (okOrClamped_moves (Moves.rewriteZone ..)))) e).to

theorem Moves.addSilence (s : State) : Moves (takeParts ++ [.wind]) s s.addSilence := .changeWind id

theorem Moves.writeWind (s : State) (r : WindRecord) :
    Moves (takeParts ++ [.wind, .store]) s (s.writeWind r) := by
  unfold State.writeWind
  have h : Moves (takeParts ++ [.wind, .store]) s
      (({ s with wind := { s.wind with record := r } } : State).queueWrite .wind) := by
    refine Moves.trans ?_ (Moves.queueWrite ..).to
    exact Moves.to (ps := [.wind]) (.setWind id)
  exact .ite (h.trans (Moves.addSilence ..).to) h

theorem configWriteWind_moves {tag : Byte} {f : WindFigures} (e : execConfigWriteWind tag f s = .next t) :
    Moves ([.links, .wind, .store] ++ takeParts) s t := by
  refine (request_moves (ps := takeParts ++ [.wind, .store]) (fun s => ?_) e).to
  split
  · exact refuse_moves ..
  · exact check_moves (okOrClamped_moves (.writeWind ..))

/-! ### Bursts and queues -/

theorem burstOpen_moves {tag : Byte} {n : Nat} {p : Option (PerAxis Mdeg)}
    (e : execBurstOpen tag n p s = .next t) : Moves [.links, .permits, .burst] s t := by
  refine (serve_moves (ps := [.permits] ++ [.burst]) (fun s => withAnt_moves fun a => check_moves
    (check_moves (check_moves (check_moves (check_moves (check_moves (check_moves (check_moves (check_moves
    (check_moves (check_moves (permitted_moves fun s => okWith_moves ?_)))))))))))) e).to
  exact (Moves.setBurst s _).to

theorem Moves.stageSegment (s : State) (a : Ant) (g : Segment) (h : (s.track a).free ≠ 0) :
    Moves [.burst, .tracks, .queues] s (s.stageSegment a g) := by
  unfold State.stageSegment
  dsimp only
  refine Moves.trans ?_ (Moves.setBurst _ _).to
  refine Moves.to (ps := [.tracks, .queues]) (.modTrack_any fun k => ?_)
  simp only [Track.free] at h
  simp; omega

theorem Moves.takeSegment (s : State) (a : Ant) (b : List Byte) :
    Moves [.burst, .tracks, .queues] s (s.takeSegment a b) := by
  unfold State.takeSegment
  have h : Moves [.burst, .tracks, .queues] s { s with burst :=
      { s.burst with received := s.burst.received + 1, crc := crc32Run s.burst.crc b } } :=
    (Moves.setBurst ..).to
  dsimp only
  split
  · split
    · rename_i hf
      refine h.trans (.stageSegment _ _ _ ?_)
      unfold State.segmentFails at hf
      split_ifs at hf with h1 h2 h3 h4 h5
      exact h5
    · exact h.trans (Moves.setBurst _ _).to
  · exact h

theorem Moves.takeData (s : State) (a : Ant) (rs : List (List Byte)) :
    Moves [.burst, .tracks, .queues] s (s.takeData a rs).state := by
  unfold State.takeData
  have h : Moves [.burst, .tracks, .queues] s (Machine.forEach rs (fun s b => s.takeSegment a b)
      { s with burst := { s.burst with lastFrame := some s.now } }) :=
    (Moves.setBurst ..).to.trans (.forEach (fun s b => .takeSegment s a b) _ _)
  dsimp only
  split
  · refine h.trans ?_
    exact Moves.to (ps := [.tracks, .queues]) (.shrink fun _ => le_rfl)
  · exact h

theorem Moves.noBurst (s : State) : Moves [.burst] s s.noBurst.state := by
  unfold State.noBurst
  split
  · exact .refl ..
  · exact .setBurst s _

theorem burstData_moves {tag : Byte} {body : List Byte} (e : execBurstData tag body s = .next t) :
    Moves [.links, .burst, .tracks, .queues] s t := by
  refine (serve_moves (ps := [.burst, .tracks, .queues]) (fun s => ?_) e).to
  unfold State.burstData
  split
  · exact refuse_moves ..
  · split
    · exact (Moves.noBurst s).to
    · split
      · exact refuse_moves ..
      · exact .takeData ..

theorem Track.commit_length (q : Track) : q.commit.segments.length = q.segments.length := by
  simp [Track.commit]

theorem Moves.commitBurst (s : State) (a : Ant) : Moves queueParts s (s.commitBurst a) := by
  unfold State.commitBurst
  have h : Moves queueParts s (({ s with burst := s.burst.closed } : State).modTrack a Track.commit) := by
    refine Moves.trans (Moves.setBurst s s.burst.closed).to ?_
    exact Moves.to (ps := [.tracks, .queues]) (.shrink fun q => (Track.commit_length q).le)
  dsimp only
  split
  · exact h
  · exact .ite (h.trans (.beginQueue ..)) h

theorem burstClose_moves {tag : Byte} {n : Nat} {crc : BitVec 32}
    (e : execBurstClose tag n crc s = .next t) : Moves (.links :: queueParts) s t := by
  refine (request_moves (ps := queueParts) (fun s => ?_) e).to
  split
  · exact (Moves.noBurst s).to
  · have h (a : Ant) : Moves queueParts s (s.discardBurst a) := (Moves.discardBurst ..).to
    unfold State.closeBurst
    split
    · exact h _
    · exact h _
    · split
      · exact h _
      · split
        · exact h _
        · exact .commitBurst ..

theorem burstAbort_moves {tag : Byte} (e : execBurstAbort tag s = .next t) :
    Moves [.links, .burst, .tracks, .queues] s t := by
  refine (serve_moves (ps := [.burst, .tracks, .queues]) (fun s => ?_) e).to
  split
  · exact (Moves.noBurst s).to
  · exact .discardBurst ..

theorem Moves.clearTrack (s : State) (a : Ant) : Moves (followParts ++ [.queues]) s (s.clearTrack a) := by
  unfold State.clearTrack
  have h : Moves (followParts ++ [.queues]) s (s.modTrack a Track.cleared) :=
    Moves.to (ps := [.tracks, .queues]) (.shrink fun _ => Nat.zero_le _)
  refine Moves.trans ?_ (Moves.raise ..).to
  exact .ite h (h.trans (Follows.releaseRun ..).to)

theorem trackClear_moves {tag : Byte} {n : Nat} (e : execTrackClear tag n s = .next t) :
    Moves ([.links, .queues] ++ followParts) s t :=
  (request_moves (fun _ => withAnt_moves fun _ => check_moves (okWith_moves (.clearTrack ..))) e).to

/-! ### Groups -/

theorem planPermitted_moves {ms : List Proposed} {go : State → Answer}
    (h : ∀ s, Moves ([.permits] ++ ps) s (go s).state) (s : State) :
    Moves ([.permits] ++ ps) s (s.planPermitted ms go).state := by
  induction ms generalizing s with
  | nil => exact h s
  | cons m rest ih => exact permitted_moves fun s => ih s

theorem planInto_moves (s : State) (g : GroupId) (ms : List Proposed) :
    Moves [.groups, .groupRecords] s (s.planInto g ms).state := by
  unfold State.planInto
  split
  · exact okWith_moves (.modGroup_any ..)
  · exact .refl ..
  · exact .refl ..

theorem groupPlan_moves {tag : Byte} {n : Nat} {ms : List MemberArg}
    (e : execGroupPlan tag n ms s = .next t) : Moves [.links, .permits, .groups, .groupRecords] s t := by
  refine (serve_moves (ps := [.permits] ++ [.groups, .groupRecords]) (fun s => withGroup_moves fun g =>
    withCode_moves fun ms => check_moves ?_) e).to
  unfold State.planChecked
  split
  · exact .refl ..
  · exact planPermitted_moves (fun s => (planInto_moves ..).to) s

theorem Moves.armGroup (s : State) (g : GroupId) (e : Epoch) (f : Fit) (n : Nat) :
    Moves (followParts ++ [.groupRecords]) s (s.armGroup g e f n) := by
  unfold State.armGroup
  dsimp only
  refine Moves.trans ?_ (Follows.forEach (fun s i => Follows.addClaim s i .group) _ _).to
  refine Moves.trans ?_ (Moves.modGroup_any ..).to
  refine Moves.trans ?_ (Follows.afterGrant ..).to
  exact (Follows.makeRoom ..).to.trans (Follows.grantGroup ..).to

theorem groupArm_moves {tag : Byte} {n start : Nat} (e : execGroupArm tag n start s = .next t) :
    Moves ([.links, .groupRecords] ++ followParts) s t := by
  refine (request_moves (ps := followParts ++ [.groupRecords]) (fun s => withGroup_moves fun g =>
    check_moves (check_moves (check_moves ?_))) e).to
  unfold State.armUncovered
  split
  · exact .refl ..
  · unfold State.armGranted
    dsimp only
    split
    · exact .refl ..
    · exact okWith_moves (.armGroup ..)

theorem groupCancel_moves {tag : Byte} {n : Nat} (e : execGroupCancel tag n s = .next t) :
    Moves ([.links, .groupRecords] ++ followParts) s t := by
  refine (request_moves (ps := followParts ++ [.groupRecords]) (fun s => withGroup_moves fun g => ?_) e).to
  have h (s : State) : Moves (followParts ++ [.groupRecords]) s (s.emptyGroup g) := (Moves.emptyGroup ..).to
  unfold State.cancelGroup
  split
  · exact refuse_moves ..
  · exact okWith_moves (h s)
  · exact okWith_moves ((Follows.releaseGroup ..).to.trans (h _))
  · exact okWith_moves (.haltGroup ..)
  · exact okWith_moves (h s)
  · split
    · exact refuse_moves ..
    · exact okWith_moves (h s)

theorem groupRead_moves {tag : Byte} {n part : Nat} (e : execGroupRead tag n part s = .next t) :
    Moves [.links] s t := by
  refine (serve_moves (ps := []) (fun s => withGroup_moves fun g => ?_) e).to
  dsimp only
  split
  · exact .refl ..
  · exact .refl ..

/-! ### Lockouts -/

theorem askPlacement_moves (p : Option Placement) : Moves placeParts s (s.askPlacement p).state := by
  unfold State.askPlacement
  split
  · exact refuse_moves ..
  · split
    · unfold State.placeLock
      rename_i p _
      have h : Moves placeParts s ((s.placeEntry p).applyCover s (s.locks.judge p).slot p.scope) :=
        (Moves.placeEntry ..).to.trans (Moves.applyCover ..).to
      dsimp only
      split
      · exact refuse_moves ..
      · exact h
      · exact h
    · exact refuse_moves ..

theorem holdPlace_moves {tag : Byte} {n : Nat} {c : CoverSet} {r : Option Nat}
    (e : execHoldPlace tag n c r s = .next t) : Moves (.links :: placeParts) s t :=
  (request_moves (fun _ => askPlacement_moves _) e).to

theorem lockPlace_moves {tag : Byte} {k : LockSender} {c : CoverSet} {r : Option Nat}
    (e : execLockPlace tag k c r s = .next t) : Moves (linkParts (lockLink k) ++ placeParts) s t := by
  have h := request_moves (fun _ => askPlacement_moves _) e
  cases k
  · exact h.to (by rfl)
  · exact h.to (by rfl)

theorem takeOut_moves (n : Nat) (x : LockEntry) : Moves removeParts s (s.takeOut n x).state :=
  check_moves (okWith_moves (.removeEntry ..))

theorem withEntry_moves {n : Nat} {go : LockEntry → Answer} (h : ∀ x, Moves ps s (go x).state) :
    Moves ps s (withEntry s n go).state := by
  refine withSlot_moves fun n => ?_
  split
  · exact refuse_moves ..
  · exact h _

theorem removeFor_moves (n : Nat) (k : LockTarget) (c : LockClass) :
    Moves removeParts s (s.removeFor n k c).state :=
  withEntry_moves fun _ => check_moves (check_moves (takeOut_moves ..))

theorem holdRemove_moves {tag : Byte} {n a : Nat} (e : execHoldRemove tag n a s = .next t) :
    Moves (.links :: removeParts) s t := (request_moves (fun _ => removeFor_moves ..) e).to

theorem lockRemove_moves {tag : Byte} {k : UnlockSender} {n : Nat} (e : execLockRemove tag k n s = .next t) :
    Moves (linkParts (unlockLink k) ++ removeParts) s t := by
  cases k with
  | pendant m b =>
    exact (request_moves (ps := removeParts)
      (fun s => withEntry_moves fun _ => check_moves (takeOut_moves ..)) e).to (by rfl)
  | safety k => exact (request_moves (ps := removeParts) (fun s => removeFor_moves ..) e).to (by rfl)

theorem forceRemove_moves {tag : Byte} {n : Nat} {k : LockTarget} (e : execForceRemove tag n k s = .next t) :
    Moves ([.links, .wind, .hornTimers] ++ removeParts) s t := by
  refine (request_moves (ps := .hornTimers :: removeParts) (fun s => withEntry_moves fun x => check_moves
    (check_moves (okWith_moves ?_))) e).to (by rfl)
  exact (Moves.removeEntry ..).to.trans (Moves.forEach (fun s a => Moves.startForceTimer s a) _ _).to

/-! ### Local control -/

theorem localClaim_moves {tag : Byte} {n : Ant} (e : execLocalClaim tag n s = .next t) :
    Moves ([.links, .permits, .authority] ++ queueParts) s t := by
  refine (request_moves (ps := [.permits] ++ (queueParts ++ [.authority])) (fun s => ?_) e).to (by rfl)
  split
  · refine check_moves (check_moves (permitted_moves fun s => okWith_moves ?_))
    unfold State.claimLocal
    refine Moves.trans ?_ (Moves.terminateBurst ..).to
    exact (Moves.modAuthority_any ..).to.trans (Moves.haltQueue ..).to
  · exact okWith_moves (.refl ..)

theorem localRelease_moves {tag : Byte} {n : Ant} (e : execLocalRelease tag n s = .next t) :
    Moves ([.links, .authority] ++ followParts) s t :=
  (request_moves (ps := followParts ++ [.authority])
    (fun s => okWith_moves (.ite (.refl ..) (.endLocal ..))) e).to (by rfl)

theorem Follows.clearJog (s : State) (a : Ant) : Follows s (s.clearJog a) := .setJog ..

theorem takeJog_moves (i : AxisId) (d : Direction) (v : Nat) : Follows s (s.takeJog i d v).state := by
  have h : Follows s ((s.holdJog i d (min v (s.jogTop i))).raiseJog i) := by
    refine Follows.trans ?_ (?_ : Follows (s.holdJog i d (min v (s.jogTop i))) _)
    · unfold State.holdJog
      split
      · exact .modJog ..
      · exact (Follows.setJog ..).trans (.addClaim ..)
    · unfold State.raiseJog
      exact .ite ((Follows.modJog ..).trans (.askNeed ..)) (.refl ..)
  unfold State.takeJog jogReply
  split
  · exact h
  · exact h

theorem askJog_moves (i : AxisId) (d : Direction) (v : Nat) :
    Moves ([.permits] ++ followParts) s (s.askJog i d v).state := by
  refine check_moves (check_moves (check_moves ?_))
  split
  · unfold State.jogFaulted
    split
    · exact (Follows.clearJog ..).to
    · exact refuse_moves ..
  · refine check_moves (check_moves ?_)
    unfold State.jogPermitted
    split
    · exact (Follows.clearJog ..).to
    · exact permitted_moves fun s => (takeJog_moves ..).to

theorem jog_moves {tag : Byte} {n : Ant} {x : Option AxisName} {d : Option Direction} {v : Int}
    (e : execJog tag n x d v s = .next t) : Moves ([.links, .permits] ++ followParts) s t :=
  (request_moves (fun s => withCode_moves fun _ => withCode_moves fun _ => check_moves (askJog_moves ..))
    e).to (by rfl)

/-! ### Heaters and ice -/

theorem Moves.setHeat (s : State) (z : ZoneId) (m : HeatMode) (n : Option Nat) :
    Moves [.zones, .zoneRequests, .zoneSettings, .store] s (s.setHeat z m n) := by
  unfold State.setHeat
  have h : Moves [.zones, .zoneRequests, .zoneSettings, .store] s
      ((s.modZone z fun v => v.setMode m n).refreshZone z) :=
    (Moves.modZone_any ..).to.trans (Moves.refreshZone ..).to
  refine Moves.trans ?_ (Moves.raise ..).to
  exact .ite h (h.trans (Moves.queueWrite ..).to)

theorem askHeat_moves (b : Bool) (z : ZoneId) (m : HeatMode) (n : Option Nat) :
    Moves ([.permits] ++ [.zones, .zoneRequests, .zoneSettings, .store]) s (s.askHeat b z m n).state := by
  have h : Moves ([.permits] ++ [.zones, .zoneRequests, .zoneSettings, .store]) s
      (s.permitted ⟨b, .heatSet, z.ant, none, none⟩ none fun s =>
        check s (decide (m = (s.zone z).mode) || !s.store.refuses (.zone z)) .full
          (okOrClamped (decide ((s.zone z).frame < n.getD 0)) ((s.setHeat z m n).heatReply z)
            (s.setHeat z m n))).state :=
    permitted_moves fun s => check_moves (okOrClamped_moves (Moves.setHeat ..).to)
  unfold State.askHeat State.heatAuthority
  split
  · exact check_moves h
  · exact check_moves h

theorem heatSet_moves {tag : Byte} {k : HeatSender} {c : Option ZoneClass} {m : Option HeatMode}
    {n : Option Nat} (e : execHeatSet tag k c m n s = .next t) :
    Moves ([.links, .permits, .zoneSettings, .zoneRequests, .store] ++ followParts) s t := by
  have h (s : State) : Moves ([.permits] ++ [.zones, .zoneRequests, .zoneSettings, .store]) s
      (withHeatAnt s k fun a => withCode s c fun c => withCode s m fun m =>
        s.askHeat (heatFromPendant k) ⟨a, c⟩ m n).state := by
    unfold withHeatAnt
    split
    · exact withAnt_moves fun _ => withCode_moves fun _ => withCode_moves fun _ => askHeat_moves ..
    · exact withCode_moves fun _ => withCode_moves fun _ => askHeat_moves ..
  have h := request_moves h e
  cases k
  · exact h.to (by rfl)
  · exact h.to (by rfl)

theorem Moves.setFloor (s : State) (a : Ant) (c : IceClass) :
    Moves [.ice, .zones, .zoneRequests] s (s.setFloor a c) := by
  unfold State.setFloor
  have h : Moves [.ice, .zones, .zoneRequests] s (s.modIce a fun i => { i with floor := c }) :=
    (Moves.modIce ..).to
  exact .ite h (h.trans (Moves.afterIceChange ..).to)

theorem iceFloor_moves {tag : Byte} {n : Nat} {c : Option IceClass} (e : execIceFloor tag n c s = .next t) :
    Moves ([.links, .ice, .zoneRequests] ++ followParts) s t :=
  (request_moves (fun _ => withAnt_moves fun _ => withCode_moves fun _ => okWith_moves (.setFloor ..))
    e).to (by rfl)

theorem Moves.report (s : State) (x : Int) (b : Bool) : Moves [.weather, .ice] s (s.report x b) := by
  refine Moves.trans ?_ (Moves.runAllIceTimers ..).to
  refine Moves.to (ps := [.weather]) (.plain ⟨fun p hp => ?_⟩ rfl rfl rfl rfl rfl rfl rfl rfl rfl)
  cases p <;> simp_all [Part.same, State.axis, State.track, State.zone]

theorem weather_moves {tag : Byte} {x : Int} {b : Bool} (e : execWeather tag x b s = .next t) :
    Moves [.links, .wind, .weather, .ice] s t :=
  (serve_moves (fun _ => check_moves (okWith_moves (.report ..))) e).to

/-! ### Stow and permits -/

theorem Moves.setSafety (s : State) (b : Bool) : Moves (takeParts ++ [.wind]) s (s.setSafety b) :=
  .changeWind id

theorem stowDemandOn_moves {tag : Byte} (e : execStowDemandOn tag s = .next t) :
    Moves ([.links, .wind] ++ takeParts) s t :=
  (request_moves (fun _ => okWith_moves (.setSafety ..)) e).to

theorem stowDemandOff_moves {tag : Byte} (e : execStowDemandOff tag s = .next t) :
    Moves ([.links, .wind] ++ takeParts) s t :=
  (request_moves (fun _ => okWith_moves (.setSafety ..)) e).to

theorem Follows.releaseStow (s : State) (a : Ant) : Follows s (s.releaseStow a) := by
  unfold State.releaseStow
  split
  · exact (Moves.goWithdrawing ..).to
  · exact (Moves.goWithdrawing ..).to
  · exact .setStow ..
  · exact .setStow ..
  · refine .ite ?_ (.setStow ..)
    exact (((Follows.leaveWave ..).trans (.setStow ..)).trans (.dropClaims ..)).trans (.setWarning ..)
  · exact .refl ..

theorem stowRelease_moves {tag : Byte} (e : execStowRelease tag s = .next t) :
    Moves ([.links, .wind] ++ followParts) s t :=
  (request_moves (fun _ => check_moves (check_moves (check_moves (okWith_moves
    (Follows.forEach (fun s a => Follows.releaseStow s a) _ _))))) e).to

theorem Moves.stopAll (s : State) : Moves haltParts s s.stopAll := by
  unfold State.stopAll
  dsimp only
  refine Moves.trans ?_ (Moves.forEach (fun s a => ?_) _ _)
  · refine Moves.trans ?_ (Moves.forEach (fun s g => Moves.haltGroup s g .allStop none) _ _).to
    unfold State.allStopAxes
    exact (Follows.forEach (fun s i => Follows.ite (.stopAxis ..) (.refl ..)) AxisId.all s).to
  · unfold State.allStopAnt
    refine Moves.trans ?_ (Follows.endJog ..).to
    exact (Moves.haltQueue ..).to.trans (Moves.terminateBurst ..).to

theorem allStop_moves {tag : Byte} (e : execAllStop tag s = .next t) :
    Moves ([.links, .wind] ++ haltParts) s t :=
  (request_moves (fun _ => okWith_moves (.stopAll ..)) e).to

theorem askPermit_moves (p : PermitArg) : Moves [.permits, .store] s (s.askPermit p).state := by
  refine withCode_moves fun x => check_moves (okWith_moves ?_)
  unfold State.writePermit
  refine Moves.trans ?_ (Moves.queueWrite ..).to
  exact Moves.to (ps := [.permits]) (.setPermits (by simp [Permits.write]))

theorem askDefault_moves (v : Option Verdict) : Moves [.permits, .store] s (s.askDefault v).state := by
  refine withCode_moves fun x => check_moves (okWith_moves ?_)
  unfold State.writeDefault
  refine Moves.trans ?_ (Moves.queueWrite ..).to
  exact Moves.to (ps := [.permits]) (.setPermits rfl)

theorem permitWrite_moves {tag : Byte} {p : PermitArg} (e : execPermitWrite tag p s = .next t) :
    Moves [.links, .wind, .permits, .store] s t := by
  refine (serve_moves (ps := [.permits, .store]) (fun s => ?_) e).to
  split
  · exact askDefault_moves ..
  · exact askPermit_moves ..

theorem permitWriteDefault_moves {tag : Byte} {v : Option Verdict}
    (e : execPermitWriteDefault tag v s = .next t) : Moves [.links, .wind, .permits, .store] s t :=
  (serve_moves (fun _ => askDefault_moves ..) e).to

end Sys2Proof.Machine
end

