-- ==== Sys2Proof/Laws/Events.lean ====
section
/-! SUPPORT. What each event, step and expiry can change, and RESTART and power. -/

namespace Sys2Proof.Machine

set_option Elab.async false

variable {ps : List Part} {s t : State}

/-! ### Power and restart -/

theorem powerLoss_moves (e : execPowerLoss s = .next t) : Moves [.power, .store] s t :=
  onPower_moves (.losePower s) e

theorem powerOn_moves (e : execPowerOn s = .next t) : Moves bootParts s t := by
  simp only [execPowerOn, Host.Outcome.next.injEq] at e
  subst e
  exact .ite ((Moves.losePower s).to.trans (.powerUp _)) (.powerUp s)

theorem Moves.setTracks {v : Six Track} (h : ∀ a, (v.get a).segments.length ≤ 64) :
    Moves [.tracks, .queues] s { s with tracks := v } := by
  refine ⟨⟨fun p hp => ?_⟩, fun k => ?_⟩
  · cases p <;> simp_all [Part.same, State.axis, State.zone]
  · exact ⟨k.axes, { k.bounded with segments := h }, ⟨k.table.once, k.table.listed, k.table.numbered⟩,
      k.store⟩

theorem Moves.restartTracks (s : State) : Moves [.burst, .tracks, .queues] s s.restartTracks := by
  unfold State.restartTracks
  dsimp only
  refine Moves.trans ?_ (Moves.setTracks fun _ => by simp [Track.initial]).to
  split
  · exact .refl ..
  · exact .terminateBurst ..

theorem Follows.restartFeed (s : State) : Follows s s.restartFeed := by
  unfold State.restartFeed
  dsimp only
  refine Follows.trans (Follows.trans (Follows.forEach (fun s g => Follows.releaseGroupGrant s g)
    GroupId.all s) (Follows.forEach (fun s a => Follows.releaseWaveGrant s a) Ant.all _)) ?_
  exact Moves.follows (ps := [.feed]) (.modFeed (fun _ => ⟨rfl, rfl, rfl, rfl⟩) fun _ => Nat.zero_le _)

theorem Moves.setGroups (s : State) (g : Four Group) :
    Moves [.groups, .groupRecords] s { s with groups := g } := by
  refine .plain ⟨fun p hp => ?_⟩ rfl rfl rfl rfl rfl rfl rfl rfl rfl
  cases p <;> simp_all [Part.same, State.axis, State.track, State.zone]

theorem Moves.restartAuthority (s : State) : Moves [.authorities, .authority] s s.restartAuthority := by
  refine .plain ⟨fun p hp => ?_⟩ rfl rfl rfl rfl rfl rfl rfl rfl rfl
  cases p <;> simp_all [State.restartAuthority, Part.same, State.axis, State.track, State.zone]

theorem Follows.restartStow (s : State) : Follows s s.restartStow := by
  refine Moves.follows (ps := [.stow]) (.plain ⟨fun p hp => ?_⟩ rfl rfl rfl rfl rfl rfl rfl rfl rfl)
  cases p <;> simp_all [State.restartStow, Part.same, State.axis, State.track, State.zone]

theorem Moves.restartHeat (s : State) : Moves [.zones, .zoneRequests, .zoneSettings] s s.restartHeat := by
  unfold State.restartHeat
  dsimp only
  refine Moves.trans ?_ (Moves.forEach (fun s z =>
    (Moves.formLevel s z).trans (Moves.lowerZone _ false z).to) _ _).to
  refine .plain ⟨fun p hp => ?_⟩ rfl rfl rfl rfl rfl rfl rfl rfl rfl
  cases p <;> simp_all [Part.same, State.axis, State.track]

theorem Moves.restartLinks (s : State) : Moves [.links] s s.restartLinks := by
  refine ⟨⟨fun p hp => ?_⟩, fun k => k.of_same k.axes rfl rfl rfl (fun _ => le_rfl) rfl id rfl fun l => ?_⟩
  · cases p <;> simp_all [State.restartLinks, Part.same, State.axis, State.track, State.zone]
  · simp [State.restartLinks, State.link, Links.get_map, LinkRecord.restart]

theorem Follows.restartRounds (n : Nat) (s : State) : Follows s (s.restartRounds n) := by
  induction n generalizing s with
  | zero => exact .refl ..
  | succ n ih =>
    unfold State.restartRounds
    refine Follows.trans ?_ (ih _)
    exact (Follows.followUp s).trans
      ((Follows.forEach (fun s i => Follows.seekTorque s i) _ _).trans (.clearMarks _))

/-- What the restart of every block can change (R205). -/
def restartParts : List Part := [.zoneSettings, .zoneRequests] ++ takeParts

theorem Moves.restartBlocks (s : State) : Moves restartParts s s.restartBlocks := by
  unfold State.restartBlocks
  dsimp only
  refine Moves.trans ?_ (Follows.restartRounds ..).to
  refine Moves.trans ?_ (Moves.restartHeat ..).to
  refine Moves.trans ?_ (Follows.restartStow ..).to
  refine Moves.trans ?_ (Moves.restartAuthority ..).to
  refine Moves.trans ?_ (Moves.setGroups ..).to
  refine Moves.trans ?_ (Moves.restartTracks ..).to
  refine Moves.trans ?_ (Follows.restartFeed ..).to
  exact (Follows.forEach (fun s i => Follows.stopAxis s i .restart .braked) _ s).to

theorem restart_moves {tag : Byte} (e : execRestart tag s = .next t) :
    Moves ([.links, .wind, .zoneSettings, .zoneRequests] ++ takeParts) s t := by
  refine onPower_moves (.ite ?_ (.refl ..)) e
  refine Moves.trans ?_ (Moves.answer ..).to
  refine Moves.trans ?_ (Moves.clearScratch ..).to
  refine Moves.trans ?_ (Moves.restartLinks ..).to
  exact (Moves.takeFrame s .safety).to.trans (Moves.restartBlocks ..).to

/-! ### Queues -/

theorem burstTimeout_moves (e : execBurstTimeout s = .next t) :
    Moves [.links, .burst, .tracks, .queues] s t := by
  refine (occurAlone_moves (ps := [.burst, .tracks, .queues]) ?_ e).to
  split
  · exact .refl ..
  · exact .terminateBurst ..

theorem queuePrepare_moves {a : Ant} (e : execQueuePrepare a s = .next t) :
    Moves (.links :: queueParts) s t := (occur_moves (.prepareQueue ..) e).to

theorem queueStarting_moves {a : Ant} (e : execQueueStarting a s = .next t) :
    Moves [.links, .tracks, .queues] s t := (occurAlone_moves (.startingQueue ..) e).to

theorem queueRunStart_moves {a : Ant} (e : execQueueRunStart a s = .next t) :
    Moves (.links :: runParts) s t := by
  refine (occur_moves (ps := runParts) ?_ e).to
  split
  · exact .refl ..
  · exact .startRun ..

theorem queueLate_moves {a : Ant} (e : execQueueLate a s = .next t) :
    Moves (.links :: queueParts) s t := (occur_moves (.haltQueue ..) e).to

theorem segmentComplete_moves {a : Ant} (e : execSegmentComplete a s = .next t) :
    Moves (.links :: runParts) s t := by
  refine (occur_moves (ps := runParts) ?_ e).to
  exact (Moves.completeSegments ..).trans (Moves.interpolate ..).to

/-! ### Groups -/

theorem groupStart_moves {g : GroupId} (e : execGroupStart g s = .next t) :
    Moves ([.links, .groupRecords] ++ followParts) s t := by
  refine (occur_moves (ps := followParts ++ [.groupRecords]) ?_ e).to
  unfold State.startGroup
  dsimp only
  refine Moves.trans (Moves.modGroup_any ..).to (Moves.forEach (fun s p => ?_) _ _)
  exact .ite (Follows.beginProfile ..).to (.refl ..)

theorem groupStartGraceExpiry_moves {g : GroupId} (e : execGroupStartGraceExpiry g s = .next t) :
    Moves ([.links, .groupRecords] ++ followParts) s t := (occur_moves (.haltGroup ..) e).to

theorem groupDone_moves {g : GroupId} (e : execGroupDone g s = .next t) :
    Moves ([.links, .groupRecords] ++ followParts) s t := by
  refine (occur_moves (ps := followParts ++ [.groupRecords]) ?_ e).to
  exact (Follows.releaseGroup ..).to.trans (Moves.modGroup_any ..).to

theorem groupSettleLimit_moves {g : GroupId} (e : execGroupSettleLimit g s = .next t) :
    Moves ([.links, .groupRecords] ++ followParts) s t := (occur_moves (.haltGroup ..) e).to

/-! ### Local control -/

theorem pendantSilenceExpiry_moves {n : Ant} (e : execPendantSilenceExpiry n s = .next t) :
    Moves ([.links, .authority] ++ followParts) s t := (occur_moves (.endLocal ..) e).to

theorem jogDeadman_moves {n : Ant} (e : execJogDeadman n s = .next t) : Moves (.links :: followParts) s t :=
  (occur_moves (Follows.endJog ..) e).to

theorem Moves.refreshHorn (s : State) (a : Ant) : Moves [.horns] s (s.refreshHorn a) :=
  .modHorn fun _ => Horn.play_forceTimer ..

theorem forceRemovalTimerExpiry_moves {n : Ant} (e : execForceRemovalTimerExpiry n s = .next t) :
    Moves [.links, .hornTimers, .horns] s t :=
  (occurAlone_moves ((Moves.modHorn_any ..).trans (Moves.refreshHorn ..).to) e).to

theorem warningTimerExpiry_moves {n : Ant} (e : execWarningTimerExpiry n s = .next t) :
    Moves [.links, .horns, .stow] s t :=
  (occurAlone_moves (ps := [.stow, .horns]) ((Moves.modStow ..).to.trans (Moves.refreshHorn ..).to) e).to

/-! ### The servo step -/

theorem Moves.markLimit (s : State) (i : AxisId) : Moves [.authorities] s (s.markLimit i) := by
  unfold State.markLimit
  split
  · unfold State.modJog
    exact .modAuthority fun _ => ⟨rfl, rfl⟩
  · exact .refl ..

theorem AxisState.still_of_followsReading {st : AxisState} (h : st.followsReading = true) :
    st.moving = false := by cases st <;> simp_all [AxisState.followsReading, AxisState.moving]

/-- A servo step places an axis that is at rest at velocity 0, if it places it at all (R7). -/
theorem State.motionOf_still {i : AxisId} {p v : Mdeg} (h : s.motionOf i = some (p, v))
    (k : (s.axis i).state.moving = false) : v = 0 := by
  unfold State.motionOf at h
  dsimp only at h
  split at h
  case h_5 =>
    split at h
    · simp only [Option.some.injEq, Prod.mk.injEq] at h; exact h.2.symm
    · simp at h
  all_goals (rename_i e; rw [e] at k; simp [AxisState.moving] at k)

theorem Moves.servoAxis (s : State) (i : AxisId) :
    Moves [.drives, .places, .authorities] s (s.servoAxis i) := by
  unfold State.servoAxis
  refine Moves.trans (Moves.markLimit s i).to ?_
  have hx : (s.markLimit i).axis i = s.axis i := by
    unfold State.markLimit; split <;> rfl
  refine Moves.to (ps := [.drives, .places]) (.placeAxis (fun x => ?_) fun h => ?_)
  · unfold Axis.checkFollowing Axis.place; split <;> rfl
  · rw [hx] at h ⊢
    cases hm : s.motionOf i with
    | none => exact h.of_same
    | some m =>
      exact ⟨h.amplifier, h.released, fun k => s.motionOf_still hm k, h.stop, h.profile, h.releaseCheck⟩

theorem Moves.servoGroup (s : State) (g : GroupId) : Moves [.groups, .groupRecords] s (s.servoGroup g) :=
  .modGroup_any ..

theorem Moves.setField (s : State) (io : FieldInputs) : Moves [.field] s { s with field := io } := by
  refine .plain ⟨fun p hp => ?_⟩ rfl rfl rfl rfl rfl rfl rfl rfl rfl
  cases p <;> simp_all [Part.same, State.axis, State.track, State.zone]

theorem Moves.readField (s : State) (io : FieldInputs) : Moves [.field, .drives, .store] s (s.readField io) := by
  unfold State.readField
  dsimp only
  refine Moves.trans ?_ (Moves.modStore (Store.alike_followSupply ..)).to
  exact (Moves.setField ..).to.trans (Moves.forEach (fun s a => Moves.runFieldTimers s a) _ _).to

theorem servoStep_moves {io : FieldInputs} (e : execServoStep io s = .next t) :
    Moves [.links, .field, .drives, .places, .authorities, .groups, .groupRecords, .store] s t := by
  refine (occurAlone_moves
    (ps := [.field, .drives, .places, .authorities, .groups, .groupRecords, .store]) ?_ e).to
  unfold State.servo
  refine Moves.trans ?_ (Moves.forEach (fun s g => Moves.servoGroup s g) _ _).to
  exact (Moves.readField ..).to.trans (Moves.forEach (fun s i => Moves.servoAxis s i) _ _).to

/-! ### Axis events -/

theorem Moves.modAntIn (s : State) (a : Ant) (f : AntInputs → AntInputs) :
    Moves [.field] s (s.modAntIn a f) := .setField s _

theorem Moves.modAxisIn (s : State) (i : AxisId) (f : AxisInputs → AxisInputs) :
    Moves [.field] s (s.modAxisIn i f) := .modAntIn ..

/-- Position and velocity are written and a state entered at once. -/
theorem Moves.placeAndEnter {i : AxisId} {f : Axis → Axis} (st : AxisState)
    (h : ∀ x, (f x).settings = x.settings) :
    Moves [.drives, .places, .feed] s ((s.modAxis i f).enterAxis i st) := by
  unfold State.enterAxis State.changeStanding
  refine Moves.trans (Moves.to (ps := [.drives, .places]) ?_)
    ((Moves.setStanding ..).to.trans (Moves.markFreedIf ..).to)
  rw [State.modAxis_modAxis]
  refine .placeAxis (fun x => ?_) fun _ => Axis.Lawful.enter ..
  exact h x

theorem profileEnd_moves {i : AxisId} (e : execProfileEnd i s = .next t) :
    Moves ([.links, .places] ++ pinParts) s t := by
  refine (occur_moves (ps := [.places] ++ pinParts) ?_ e).to
  split
  · exact .refl ..
  · unfold State.arriveIfDriving
    have h (p : Profile) : Moves ([.places] ++ pinParts) s (s.endProfile i p) :=
      Moves.to (ps := [.drives, .places, .feed]) (.placeAndEnter _ fun _ => rfl)
    exact .ite ((h _).trans (Moves.arrive ..).to) (h _)

theorem Moves.finishStop (s : State) (i : AxisId) (r : StopRecord) :
    Moves [.drives, .places, .feed] s (s.finishStop i r) := by
  unfold State.finishStop State.endStop
  have h (st : AxisState) : Moves [.drives, .places, .feed] s ((s.modAxis i fun x =>
      { x with position := (r.eval x.record s.now).1, velocity := 0 }).enterAxis i st) :=
    .placeAndEnter _ fun _ => rfl
  split
  · exact h _
  · unfold State.goBraking
    exact (h _).trans (Moves.modAxis (by simp [Axis.settings]) Axis.Lawful.of_same).to

theorem stopEnd_moves {i : AxisId} (e : execStopEnd i s = .next t) :
    Moves ([.links, .places] ++ followParts) s t := by
  refine (occur_moves (ps := [.drives, .places, .feed]) ?_ e).to
  split
  · exact .refl ..
  · exact .finishStop ..

theorem busUp_moves {a : Ant} (e : execBusUp a s = .next t) : Moves (.links :: followParts) s t := by
  refine (occur_moves (ps := followParts) ?_ e).to
  unfold State.bringUp
  refine Follows.trans ?_ (.runFieldTimers ..)
  refine Follows.trans ?_ (Follows.forEach (fun s i => ?_) _ _)
  · exact .modAnt fun _ => ⟨rfl, rfl⟩
  · exact .ite (.enterAxis ..) (.refl ..)

theorem prechargeTimeout_moves {a : Ant} (e : execPrechargeTimeout a s = .next t) :
    Moves (.links :: haltParts) s t := by
  refine (occur_moves (ps := haltParts) ?_ e).to
  unfold State.failPrecharge
  refine Moves.trans (s := s) (t := s.modAnt a Antenna.busOff) ?_ (Moves.forEach (fun s i => ?_) _ _)
  · exact Moves.to (ps := followParts) (Follows.modAnt fun _ => ⟨rfl, rfl⟩)
  · exact .ite (.faultAxis ..) (.refl ..)

theorem busOutOfBand_moves {a : Ant} (e : execBusOutOfBand a s = .next t) :
    Moves (.links :: haltParts) s t := by
  refine (occur_moves (ps := haltParts) ?_ e).to
  unfold State.loseBand
  refine Moves.trans ?_ (Moves.forEach (fun s i => ?_) _ _)
  · refine Moves.trans ?_ (Follows.runFieldTimers ..).to
    exact Moves.to (ps := followParts) (Follows.modAnt fun _ => ⟨rfl, rfl⟩)
  · exact .ite (.faultAxis ..) (.refl ..)

theorem busBackInBand_moves {a : Ant} (e : execBusBackInBand a s = .next t) :
    Moves (.links :: followParts) s t := by
  refine (occur_moves (ps := followParts) (Follows.trans ?_ (.runFieldTimers ..)) e).to
  exact .modAnt fun _ => ⟨rfl, rfl⟩

theorem Follows.startHolding (s : State) (i : AxisId) : Follows s (s.startHolding i) := by
  refine (Follows.enterAxis s i .holding).trans (Moves.modAxis (by simp [Axis.settings]) fun h => ?_).follows
  exact ⟨h.amplifier, h.released, h.still, h.stop, h.profile, fun _ => by
    simp [Axis.enter]⟩

theorem holdingCurrentReached_moves {i : AxisId} (e : execHoldingCurrentReached i s = .next t) :
    Moves ([.links, .field] ++ followParts) s t := by
  refine (occur_moves (ps := [.field] ++ followParts) ?_ e).to
  have h := (Moves.modAxisIn s i AxisInputs.reachCurrent).to (qs := [.field] ++ followParts)
  dsimp only
  split
  · exact h.trans (Follows.startHolding ..).to
  · exact h

theorem torqueUpTimeout_moves {i : AxisId} (e : execTorqueUpTimeout i s = .next t) :
    Moves (.links :: haltParts) s t := by
  refine (occur_moves (ps := haltParts) ?_ e).to
  exact .faultAxis ..

theorem Follows.confirmRelease (s : State) (i : AxisId) : Follows s (s.confirmRelease i) := by
  unfold State.confirmRelease
  have h : Follows s (s.modAxis i fun x => { x with releaseCheck := none, pendingStop := none }) :=
    (Moves.modAxis (by simp [Axis.settings]) fun h =>
      ⟨h.amplifier, h.released, h.still, h.stop, h.profile, by simp⟩).follows
  dsimp only
  split
  · exact h
  · exact h.trans (.goBraking ..)

theorem brakeReleaseConfirmed_moves {i : AxisId} (e : execBrakeReleaseConfirmed i s = .next t) :
    Moves ([.links, .field] ++ followParts) s t := by
  refine (occur_moves (ps := [.field] ++ followParts) ?_ e).to
  have h := (Moves.modAxisIn s i AxisInputs.makeReleased).to (qs := [.field] ++ followParts)
  dsimp only
  split
  · exact h.trans (Follows.confirmRelease ..).to
  · exact h

theorem releaseCheckTimeout_moves {i : AxisId} (e : execReleaseCheckTimeout i s = .next t) :
    Moves (.links :: haltParts) s t := by
  refine (occur_moves (ps := haltParts) ?_ e).to
  exact .faultAxis ..

theorem brakeSetConfirmed_moves {i : AxisId} (e : execBrakeSetConfirmed i s = .next t) :
    Moves ([.links, .field] ++ followParts) s t := by
  refine (occur_moves (ps := [.field] ++ followParts) ?_ e).to
  have h := (Moves.modAxisIn s i AxisInputs.makeSet).to (qs := [.field] ++ followParts)
  dsimp only
  split
  · exact h.trans (Follows.enterAxis ..).to
  · exact h

theorem brakeSetTimeout_moves {i : AxisId} (e : execBrakeSetTimeout i s = .next t) :
    Moves (.links :: haltParts) s t := by
  refine (occur_moves (ps := haltParts) ?_ e).to
  exact .faultAxis ..

theorem idleBrakeExpiry_moves {i : AxisId} (e : execIdleBrakeExpiry i s = .next t) :
    Moves (.links :: followParts) s t := (occur_moves (Follows.stopAxis ..) e).to

theorem encoderDisagreementFault_moves {i : AxisId} (e : execEncoderDisagreementFault i s = .next t) :
    Moves (.links :: haltParts) s t := by
  refine (occur_moves (ps := haltParts) ?_ e).to
  exact .faultAxis ..

theorem Moves.markActed (s : State) (i : AxisId) (c : Enc) :
    Moves [.drives] s (s.modAxis i fun x => x.markActed c) := by
  refine .modAxis (fun x => ?_) fun h => ?_
  · cases c <;> exact ⟨rfl, rfl, rfl⟩
  · cases c <;> exact h.of_same

theorem encoderFaultReport_moves {i : AxisId} {c : Enc} (e : execEncoderFaultReport i c s = .next t) :
    Moves ([.links, .field, .axisSettings] ++ haltParts) s t := by
  refine (occur_moves (ps := [.field, .axisSettings] ++ haltParts) ?_ e).to
  have h : Moves ([.field, .axisSettings] ++ haltParts) s
      (((s.modAxisIn i fun io => AxisInputs.setReport io c true).runFieldTimers i.ant).modAxis i fun x =>
        x.markActed c) :=
    ((Moves.modAxisIn ..).to.trans (Moves.runFieldTimers ..).to).trans
      (Moves.to (ps := [.drives]) (.markActed ..))
  dsimp only
  split
  case isFalse => exact h
  refine h.trans ?_
  unfold State.activeReported
  split
  case isFalse => exact (Moves.faultAxis ..).to
  exact Moves.to (ps := [.drives, .axisSettings]) (.setAxis (fun _ => ⟨rfl, rfl⟩) Axis.Lawful.of_same)

theorem encoderReportCleared_moves {i : AxisId} {c : Enc} (e : execEncoderReportCleared i c s = .next t) :
    Moves ([.links, .field] ++ followParts) s t :=
  (occur_moves (ps := [.field, .drives])
    ((Moves.modAxisIn ..).to.trans (Moves.runFieldTimers ..).to) e).to

theorem followingFault_moves {i : AxisId} (e : execFollowingFault i s = .next t) :
    Moves (.links :: haltParts) s t := by
  refine (occur_moves (ps := haltParts) ?_ e).to
  exact .faultAxis ..

theorem limitSwitchTripped_moves {i : AxisId} {b : Bool} (e : execLimitSwitchTripped i b s = .next t) :
    Moves ([.links, .field] ++ haltParts) s t :=
  (occur_moves (ps := [.field] ++ haltParts)
    ((Moves.modAxisIn ..).to.trans (Moves.faultAxis ..).to) e).to

theorem amplifierFault_moves {i : AxisId} (e : execAmplifierFault i s = .next t) :
    Moves ([.links, .field] ++ haltParts) s t := by
  refine (occur_moves (ps := [.field] ++ haltParts) ?_ e).to
  have h := (Moves.modAxisIn s i AxisInputs.failAmplifier).to (qs := [.field] ++ haltParts)
  dsimp only
  split
  · exact h.trans (Moves.faultAxis ..).to
  · exact h

/-! ### Wind and stow -/

theorem joinWindow_length {xs : List Int} (x : Int) (h : xs.length ≤ 600) :
    (joinWindow xs x).length ≤ 600 := by
  unfold joinWindow
  split
  · simp; omega
  · simp; omega

theorem Wind.countFall_window (w : Wind) : w.countFall.window = w.window := by
  unfold Wind.countFall
  split
  · rfl
  · split
    · rfl
    · split <;> rfl

theorem Wind.classify_window (w : Wind) : w.classify.window = w.window := by
  unfold Wind.classify
  split
  · rfl
  · exact w.countFall_window

theorem Wind.sample_window (w : Wind) (ice : IceClass) (r1 r2 : Int) (h : w.window.length ≤ 600) :
    (w.sample ice r1 r2).window.length ≤ 600 := by
  unfold Wind.sample
  rw [Wind.classify_window]
  exact joinWindow_length _ h

theorem Moves.sampleWind (s : State) (r1 r2 : Int) :
    Moves (takeParts ++ [.field, .wind]) s (s.sampleWind r1 r2) := by
  unfold State.sampleWind
  dsimp only
  refine Moves.trans (Moves.setField s _).to
    (Moves.to (ps := takeParts ++ [.wind]) (.changeWind fun h => ?_))
  exact Wind.sample_window _ _ _ _ h

theorem windSample_moves {r1 r2 : Int} (e : execWindSample r1 r2 s = .next t) :
    Moves ([.links, .field, .wind] ++ takeParts) s t := (occur_moves (.sampleWind ..) e).to

theorem anemometerStuck_moves {c : ChannelId} {r1 r2 : Int} (e : execAnemometerStuck c r1 r2 s = .next t) :
    Moves ([.links, .field, .wind] ++ takeParts) s t := (occur_moves (.sampleWind ..) e).to

theorem windDisagreementMark_moves {r1 r2 : Int} (e : execWindDisagreementMark r1 r2 s = .next t) :
    Moves ([.links, .field, .wind] ++ takeParts) s t := (occur_moves (.sampleWind ..) e).to

theorem windClassRise_moves {r1 r2 : Int} (e : execWindClassRise r1 r2 s = .next t) :
    Moves ([.links, .field, .wind] ++ takeParts) s t := (occur_moves (.sampleWind ..) e).to

theorem windClassFall_moves {r1 r2 : Int} (e : execWindClassFall r1 r2 s = .next t) :
    Moves ([.links, .field, .wind] ++ takeParts) s t := (occur_moves (.sampleWind ..) e).to

theorem safetySilence_moves (e : execSafetySilence s = .next t) :
    Moves ([.links, .wind] ++ takeParts) s t := (occur_moves (.addSilence s) e).to

theorem waveStart_moves (e : execWaveStart s = .next t) : Moves (.links :: pinParts) s t := by
  refine (occur_moves (ps := pinParts) ?_ e).to
  split
  · exact .refl ..
  · exact .startWave ..

theorem pinWarmingTimeout_moves {a : Ant} (e : execPinWarmingTimeout a s = .next t) :
    Moves (.links :: pinParts) s t :=
  (occur_moves (ps := pinParts) ((Moves.endForce ..).to.trans (Follows.goPinFailed ..).to) e).to

theorem pinInSwitchMade_moves {a : Ant} (e : execPinInSwitchMade a s = .next t) :
    Moves ([.links, .field] ++ followParts) s t := by
  refine (occur_moves (ps := [.field] ++ followParts) ?_ e).to
  have h := (Moves.modAntIn s a fun v => { v with pinIn := true }).to (qs := [.field] ++ followParts)
  dsimp only
  split
  · exact h.trans (Follows.goStowed ..).to
  · exact h

theorem pinInsertTimeout_moves {a : Ant} (e : execPinInsertTimeout a s = .next t) :
    Moves (.links :: followParts) s t := (occur_moves (Follows.goPinFailed ..) e).to

theorem pinInSwitchOpened_moves {a : Ant} (e : execPinInSwitchOpened a s = .next t) :
    Moves [.links, .field, .stow] s t := by
  refine (occurAlone_moves (ps := [.field, .stow]) ?_ e).to
  have h := (Moves.modAntIn s a fun v => { v with pinIn := false }).to (qs := [.field, .stow])
  dsimp only
  split
  · exact h.trans (Moves.modStow ..).to
  · exact h

theorem pinOutSwitchMade_moves {a : Ant} (e : execPinOutSwitchMade a s = .next t) :
    Moves [.links, .field, .stow] s t := by
  refine (occurAlone_moves (ps := [.field, .stow]) ?_ e).to
  have h := (Moves.modAntIn s a fun v => { v with pinOut := true }).to (qs := [.field, .stow])
  dsimp only
  split
  · exact h.trans (Moves.modStow ..).to
  · exact h

theorem pinWithdrawTimeout_moves {a : Ant} (e : execPinWithdrawTimeout a s = .next t) :
    Moves [.links, .stow] s t := (occurAlone_moves (.modStow ..) e).to

/-! ### Heaters, feed and store -/

theorem Moves.frameStart (s : State) (z : ZoneId) : Moves [.zones] s (s.frameStart z) := by
  unfold State.frameStart
  exact .ite (.modZone fun _ => ⟨rfl, rfl⟩) (.refl ..)

theorem Moves.advanceZone (s : State) (z : ZoneId) : Moves [.zones, .zoneRequests] s (s.advanceZone z) := by
  unfold State.advanceZone
  have h : Moves [.zones, .zoneRequests] s (s.modZone z fun v => { v with step := v.nextStep }) :=
    .modZone_request fun _ => rfl
  exact .ite (h.trans (Moves.frameStart ..).to) h

theorem Moves.afterReading (s : State) (z : ZoneId) : Moves ([.ice] ++ pinParts) s (s.afterReading z) := by
  unfold State.afterReading
  split
  · exact (Moves.runIceTimers ..).to
  · exact (Moves.warmed ..).to
  · exact .refl ..

theorem Moves.heaterStep (s : State) (z : ZoneId) (x : Int) :
    Moves ([.field, .ice] ++ pinParts) s (s.heaterStep z x) := by
  unfold State.heaterStep
  refine Moves.trans ?_ (Moves.afterReading ..).to
  refine Moves.trans ?_ (Moves.to (ps := [.zones]) (.modZone fun _ => ⟨rfl, rfl⟩))
  refine Moves.trans ?_ (Moves.advanceZone ..).to
  refine Moves.trans ?_ (Moves.refreshZone ..).to
  exact (Moves.modAntIn ..).to.trans (Moves.to (ps := [.zones, .zoneRequests]) (.modZone_request fun _ => rfl))

theorem heaterStep_moves {z : ZoneId} {x : Int} (e : execHeaterStep z x s = .next t) :
    Moves ([.links, .field, .ice] ++ pinParts) s t := (occur_moves (.heaterStep ..) e).to

theorem heaterFrameStart_moves {z : ZoneId} {x : Int} (e : execHeaterFrameStart z x s = .next t) :
    Moves ([.links, .field, .ice] ++ pinParts) s t := (occur_moves (.heaterStep ..) e).to

theorem weatherStale_moves (e : execWeatherStale s = .next t) : Moves [.links, .ice] s t :=
  (occurAlone_moves (.runAllIceTimers s) e).to

theorem wetTimerExpiry_moves {a : Ant} (e : execWetTimerExpiry a s = .next t) :
    Moves ([.links, .ice, .zoneRequests] ++ followParts) s t := (occur_moves (.setTracked ..) e).to

theorem freezeTimerExpiry_moves {a : Ant} (e : execFreezeTimerExpiry a s = .next t) :
    Moves ([.links, .ice, .zoneRequests] ++ followParts) s t := (occur_moves (.setTracked ..) e).to

theorem thawTimerExpiry_moves {a : Ant} (e : execThawTimerExpiry a s = .next t) :
    Moves ([.links, .ice, .zoneRequests] ++ followParts) s t := (occur_moves (.setTracked ..) e).to

theorem grantQueueTimeout_moves {i : AxisId} (e : execGrantQueueTimeout i s = .next t) :
    Moves (.links :: followParts) s t := by
  refine (occur_moves (ps := followParts) ?_ e).to
  split
  · exact .refl ..
  · exact Follows.trans (.withdraw ..) (.needLost ..)

theorem Moves.setShed (s : State) (f : Feed → Shed) (g : Feed → Option ZoneId) (h : Feed → Option Epoch) :
    Moves [.feed] s (s.modFeed fun v => { v with shed := f v, cursor := g v, lastStep := h v }) :=
  .modFeed (fun _ => ⟨rfl, rfl, rfl, rfl⟩) id

theorem shedHalfCheck_moves (e : execShedHalfCheck s = .next t) : Moves [.links, .feed] s t :=
  by
  refine (occurAlone_moves (ps := [.feed]) ?_ e).to
  exact .modFeed (fun _ => ⟨rfl, rfl, rfl, rfl⟩) id

theorem Moves.restore (s : State) : Moves [.feed, .zones] s s.restore := by
  unfold State.restore
  split
  · rename_i z _
    refine Moves.trans (t := s.modZone z fun v => { v with shedCap := none }) ?_ ?_
    · exact Moves.to (ps := [.zones]) (.modZone fun _ => ⟨rfl, rfl⟩)
    · exact Moves.to (ps := [.feed]) (.modFeed (fun _ => ⟨rfl, rfl, rfl, rfl⟩) id)
  · refine Moves.trans ?_ (Moves.raise ..).to
    exact Moves.to (ps := [.feed]) (.modFeed (fun _ => ⟨rfl, rfl, rfl, rfl⟩) id)

theorem shedExpiry_moves (e : execShedExpiry s = .next t) : Moves [.links, .feed, .zones] s t := by
  refine (occurAlone_moves (ps := [.feed, .zones]) ?_ e).to
  refine Moves.trans ?_ (.restore _)
  refine Moves.trans ?_ (Moves.raise ..).to
  exact Moves.to (ps := [.feed]) (.modFeed (fun _ => ⟨rfl, rfl, rfl, rfl⟩) id)

theorem restorationStep_moves (e : execRestorationStep s = .next t) : Moves [.links, .feed, .zones] s t :=
  (occurAlone_moves (.restore s) e).to

theorem storeSupplyLow_moves (e : execStoreSupplyLow s = .next t) : Moves [.links, .field, .store] s t := by
  refine (occurAlone_moves (ps := [.field, .store]) ?_ e).to
  exact (Moves.setField s _).to.trans (Moves.modStore (Store.alike_followSupply ..)).to

theorem Moves.noteEmptied (s : State) : Moves [.store] s s.noteEmptied := by
  unfold State.noteEmptied
  refine .ite (Moves.trans ?_ (Moves.raise ..).to) (.refl ..)
  exact .modStore ⟨rfl, rfl, rfl, rfl, rfl⟩

theorem storeWriteStart_moves (e : execStoreWriteStart s = .next t) : Moves [.links, .store] s t :=
  (occurAlone_moves ((Moves.startWrite s).trans (.noteEmptied _)) e).to

theorem storeWriteComplete_moves (e : execStoreWriteComplete s = .next t) : Moves [.links, .store] s t := by
  refine (occurAlone_moves (ps := [.store]) ?_ e).to
  unfold State.completeWrite
  split
  · exact .refl ..
  · exact .modStore (Store.alike_complete ..)

theorem storeHeadWaitExpiry_moves (e : execStoreHeadWaitExpiry s = .next t) : Moves [.links, .store] s t := by
  refine (occurAlone_moves (ps := [.store]) ?_ e).to
  refine Moves.trans ?_ (Moves.raise ..).to
  exact .modStore ⟨rfl, rfl, rfl, rfl, rfl⟩

end Sys2Proof.Machine
end

