-- ==== Sys2Proof/Laws/Grants.lean ====
section
/-! SUPPORT. What the operations on grants, new cover and the end of an event say, once each, for later proofs
to cite. -/

namespace Sys2Proof.Machine

set_option Elab.async false

/-- Together the shares are no more than what was there. -/
theorem shares_sum {α : Type} (left : Nat) (xs : List (α × Nat)) : ((shares left xs).map Prod.snd).sum ≤ left := by
  induction xs generalizing left with
  | nil => exact Nat.zero_le _
  | cons x rest ih =>
    have := ih (left - min x.2 left)
    simp only [shares, List.map_cons, List.sum_cons]
    omega

/-- Where the figures fit, the shares are the figures. -/
theorem shares_of_le {α : Type} (left : Nat) (xs : List (α × Nat)) (h : (xs.map Prod.snd).sum ≤ left) :
    shares left xs = xs := by
  induction xs generalizing left with
  | nil => rfl
  | cons x rest ih =>
    simp only [List.map_cons, List.sum_cons] at h
    obtain ⟨i, n⟩ := x
    dsimp only at h
    rw [shares, Nat.min_eq_left (by omega), ih _ (by omega)]

/-- An axis on its own standing grant, or on none, keeps it. -/
theorem State.ownGrant_standing {s : State} {i : AxisId} (h : (s.axis i).cover = .standing) :
    s.ownGrant i = s := by unfold State.ownGrant; rw [h]

/-- An axis that is not under the grant is not converted. -/
theorem State.convertAxis_other {s : State} {c : GrantCover} {i : AxisId} (h : Nat)
    (k : (s.axis i).convertible c = false) : s.convertAxis c i h = s := by
  unfold State.convertAxis; rw [k]; rfl

/-- An axis under the grant takes the figure as its standing grant. -/
theorem State.convertAxis_own {s : State} {c : GrantCover} {i : AxisId} (h : Nat)
    (k : (s.axis i).convertible c = true) :
    (s.convertAxis c i h).standing i = ⟨h, h⟩ ∧ ((s.convertAxis c i h).axis i).cover = .standing := by
  unfold State.convertAxis; rw [k]; simp

/-- Every axis of a new entry is new cover, whatever other entries cover (R95). -/
theorem newCover_of_new {before s : State} {n : Nat} (i : AxisId) (h : before.locks.slot n = none) :
    newCover before s (some n) i = s.slotCovers n i := by
  simp [newCover, State.slotCovers, h]

/-- A merge's new cover is what it adds to its entry (R95). -/
theorem newCover_of_merge {before s : State} {n : Nat} {d e : LockEntry} (i : AxisId)
    (h : before.locks.slot n = some d) (k : s.locks.slot n = some e) :
    newCover before s (some n) i = (e.coversAxis i && !d.coversAxis i) := by
  simp [newCover, State.slotCovers, h, k]

/-- The end of an event sets the flags its link carries, early and late ones once (R195). -/
theorem LinkRecord.conclude_flags (p l : LinkRecord) (c e w : FlagWord) :
    (p.conclude l c e w).flags = l.flags ||| ((w &&& ~~~e) &&& c) := by
  unfold LinkRecord.conclude LinkRecord.setFlags LinkRecord.notify; dsimp only; split <;> rfl

/-- The end of an event builds a notice exactly where it changed a flag, with the word as it stands (R196). -/
theorem LinkRecord.conclude_notice (p l : LinkRecord) (c e w : FlagWord) :
    (p.conclude l c e w).notice =
      if p.enable = true ∧ l.enable = true ∧ p.flags ||| ((e ||| w) &&& c) ≠ p.flags then
        some ⟨l.sequence + 1, (p.conclude l c e w).flags⟩
      else l.notice := by
  unfold LinkRecord.conclude; dsimp only; split <;> rfl

@[simp] theorem State.earlierWave_some {s : State} {a : Ant} {v : WaveGrant} (h : s.feed.waves.get a = some v) :
    s.earlierWave a = v.watts := by simp [State.earlierWave, h]
@[simp] theorem State.earlierWave_none {s : State} {a : Ant} (h : s.feed.waves.get a = none) :
    s.earlierWave a = 0 := by simp [State.earlierWave, h]

end Sys2Proof.Machine
end

