-- ==== Sys2Proof/Laws/Stow.lean ====
section
/-! SUPPORT. What new cover makes of an antenna's stow and of the wave in preparation (R126, R129), once, for later
proofs to cite; a stop request touches neither. -/

namespace Sys2Proof.Machine

set_option Elab.async false

@[simp] theorem State.enterAxis_stow (s : State) (i : AxisId) (st : AxisState) : (s.enterAxis i st).stow = s.stow := by
  unfold State.enterAxis State.changeStanding State.markFreedIf; dsimp only; split <;> rfl

@[simp] theorem State.goBraking_stow (s : State) (i : AxisId) (p : PendingStop) : (s.goBraking i p).stow = s.stow := by
  simp [State.goBraking]

@[simp] theorem State.endStop_stow (s : State) (i : AxisId) (r : StopReason) (t : StopTarget) :
    (s.endStop i r t).stow = s.stow := by cases t <;> simp [State.endStop]

@[simp] theorem State.startStop_stow (s : State) (i : AxisId) (r : StopReason) (t : StopTarget) :
    (s.startStop i r t).stow = s.stow := by
  unfold State.startStop; dsimp only; split <;> simp

/-- A stop request leaves the Stow Controller's records as they are. -/
@[simp] theorem State.stopAxis_stow (s : State) (i : AxisId) (r : StopReason) (t : StopTarget) :
    (s.stopAxis i r t).stow = s.stow := by
  have h (u : State) : (u.takeStop i r t).stow = u.stow := by
    unfold State.takeStop; split <;> (try split) <;> (try split) <;> simp
  unfold State.stopAxis
  rw [h]; split <;> rfl

@[simp] theorem State.stopBoth_stow (s : State) (a : Ant) (r : StopReason) (t : StopTarget) :
    (s.stopBoth a r t).stow = s.stow := by
  simp [State.stopBoth, forEach, Ant.axes]

/-- A member that leaves the wave has no line in it, and the wave keeps the lines of the others while there are any
(R129). -/
theorem State.leaveWave_wave (s : State) (a : Ant) : (s.leaveWave a).stow.wave = s.stow.wave.bind fun w =>
    let rest := w.members.filter fun m => decide (m.ant ≠ a)
    if rest = [] then none else some { w with members := rest } := by
  unfold State.leaveWave
  cases h : s.stow.wave with
  | none => simpa using h
  | some w => simp only [Option.bind_some, List.isEmpty_iff]; split <;> rfl

theorem State.leaveWave_stowOf (s : State) (a : Ant) : (s.leaveWave a).stowOf a = { s.stowOf a with member := false } := by
  have h : (s.leaveWave a).stowOf a = (s.modStow a fun r => { r with member := false }).stowOf a := by
    unfold State.leaveWave
    cases s.stow.wave with
    | none => rfl
    | some w => dsimp only; split <;> rfl
  simp [h]

@[simp] theorem State.goBlocked_stowOf (s : State) (a : Ant) :
    (s.goBlocked a).stowOf a = { s.stowOf a with state := .blocked } := by
  have h : (s.goBlocked a).stowOf a = (s.setStow a .blocked).stowOf a := by
    simp [State.goBlocked, State.blockedStops, State.stowOf]
  simp [h, State.setStow]

/-- What new cover makes of the antenna's stow record (R126). -/
theorem State.stowCovered_stowOf (s : State) (a : Ant) : (s.stowCovered a).stowOf a = { s.stowOf a with
    state := match (s.stowOf a).state with | .waiting => .blocked | .driving => .blocked | st => st
    member := (s.stowOf a).member && decide ((s.stowOf a).state ≠ .waiting) } := by
  have keep (t : State) (h : t.stow = s.stow) : t.stowOf a = s.stowOf a := by simp [State.stowOf, h]
  have same (st : StowState) (h : (s.stowOf a).state = st) (k : st ≠ .waiting) :
      s.stowOf a = { s.stowOf a with state := st, member := (s.stowOf a).member && decide (st ≠ .waiting) } := by
    subst h; simp [k]
  unfold State.stowCovered
  cases h : (s.stowOf a).state
  case waiting =>
    dsimp only
    by_cases m : (s.stowOf a).member = true
    · simp [m, State.leaveWave_stowOf]
    · simp [Bool.eq_false_iff.2 m]
  case driving => simp
  case pinWarming => rw [keep _ (by simp [State.blockedStops])]; exact same _ h (by decide)
  case pinInserting => rw [keep _ (by simp [State.blockedStops])]; exact same _ h (by decide)
  all_goals exact same _ h (by decide)

/-- A member that waits leaves the wave under new cover, with its line; no other case touches the wave (R126, R129). -/
theorem State.stowCovered_wave (s : State) (a : Ant) : (s.stowCovered a).stow.wave =
    if (s.stowOf a).state = .waiting ∧ (s.stowOf a).member = true then (s.leaveWave a).stow.wave else s.stow.wave := by
  have stops (t : State) : (t.goBlocked a).stow.wave = t.stow.wave := by
    simp [State.goBlocked, State.blockedStops]; rfl
  unfold State.stowCovered
  cases h : (s.stowOf a).state
  case waiting => by_cases m : (s.stowOf a).member = true <;> simp [m, stops]
  all_goals simp [stops, State.blockedStops]

end Sys2Proof.Machine
end

