-- ==== Sys2Proof/WellFormed.lean ====
section
/-! DEFINITION. Which commands can be spelled: every argument fits its field on the wire where chapter 12
states the field (R207 to R209), and every field input is in the range R5 gives it. A meaning is defined for
every command, well formed or not. -/

namespace Sys2Proof

/-- A one-byte field: an antenna, a slot, a group id, a part (R208, R209). -/
def fitsByte (n : Nat) : Bool := decide (n < 256)

/-- A two-byte field: a badge (R209). -/
def fitsTwo (n : Nat) : Bool := decide (n < 65536)

/-- A count of segments that a burst can reach: a 32-bit number. -/
def fitsCount (n : Nat) : Bool := decide (n < 4294967296)

/-- A six-byte unsigned epoch (R207). -/
def fitsEpoch (n : Nat) : Bool := decide (n < 281474976710656)

/-- A signed 32-bit position (R207). -/
def fitsMdeg (p : Mdeg) : Bool := decide (-2147483648 ≤ p) && decide (p < 2147483648)

/-- A position that may be absent. -/
def fitsOptional (p : Option Mdeg) : Bool := p.all fitsMdeg

/-- An anchor that may be absent. -/
def fitsPair (p : Option (PerAxis Mdeg)) : Bool := p.all fun v => fitsMdeg v.az && fitsMdeg v.el

/-- A frame body of 0..240 bytes (R187). -/
def fitsBody (bytes : List Byte) : Bool := decide (bytes.length ≤ 240)

/-- A member of a GROUP_PLAN. -/
def fitsMember (m : MemberArg) : Bool := fitsByte m.ant && fitsOptional m.azTarget && fitsOptional m.elTarget

/-- The members of a GROUP_PLAN, which one frame holds. -/
def fitsMembers (ms : List MemberArg) : Bool := decide (ms.length ≤ 240) && ms.all fitsMember

/-- A one-byte reason code that may be absent (R209). -/
def fitsReason (r : Option Nat) : Bool := r.all fitsByte

/-- An antenna number, or STATION (R209). -/
def fitsTarget : LockTarget → Bool
  | .antenna n => fitsByte n
  | .station => true

/-- The sender of a LOCK_PLACE. -/
def fitsLocker : LockSender → Bool
  | .pendant _ badge => fitsTwo badge
  | .safety t => fitsTarget t

/-- The sender of a LOCK_REMOVE. -/
def fitsUnlocker : UnlockSender → Bool
  | .pendant _ badge => fitsTwo badge
  | .safety t => fitsTarget t

/-- The sender of a HEAT_SET. -/
def fitsHeater : HeatSender → Bool
  | .operations n => fitsByte n
  | .pendant _ => true

/-- The entry of a PERMIT_WRITE (R209). -/
def fitsPermit (p : PermitArg) : Bool := fitsByte p.index && fitsByte p.property && fitsByte p.compare

/-- The bus reading of an antenna, 0..1500 (R5). -/
def fitsBus (v : AntInputs) : Bool := decide (v.bus ≤ 1500)

/-- The field inputs of the part. -/
def fitsInputs (io : FieldInputs) : Bool := Ant.all.all fun a => fitsBus (io.ants.get a)

/-- The command can be spelled. -/
def Instr.wellFormed : Instr → Bool
  | .powerOn => true
  | .powerLoss => true
  | .frameReceived _ _ => true
  | .badKind _ _ _ body => fitsBody body
  | .replySent _ => true
  | .noticeSent _ => true
  | .statusReadAntenna _ _ n p => fitsByte n && fitsByte p
  | .statusReadTrack _ _ n p => fitsByte n && fitsByte p
  | .statusReadGroup _ _ p => fitsByte p
  | .statusReadLockouts _ _ p => fitsByte p
  | .statusReadWind _ _ p => fitsByte p
  | .statusReadHeat _ _ p => fitsByte p
  | .statusReadBudget _ _ p => fitsByte p
  | .statusReadStore _ _ p => fitsByte p
  | .statusReadPermit _ _ p => fitsByte p
  | .changesAck _ _ _ _ => true
  | .noticeEnableOn _ _ => true
  | .noticeEnableOff _ _ => true
  | .timeSet _ e => fitsEpoch e
  | .axisEnableOn _ n => fitsByte n
  | .axisEnableHold _ n => fitsByte n
  | .axisEnableOff _ n => fitsByte n
  | .driveReset _ n => fitsByte n
  | .encoderSelect _ n _ _ => fitsByte n
  | .encoderDisable _ n _ _ => fitsByte n
  | .encoderRestore _ n _ _ => fitsByte n
  | .configWriteAxis _ n _ _ => fitsByte n
  | .configWriteStation _ _ => true
  | .configWriteZone _ n _ _ => fitsByte n
  | .configWriteWind _ _ => true
  | .burstOpen _ n p => fitsByte n && fitsPair p
  | .burstData _ body => fitsBody body
  | .burstClose _ n _ => fitsCount n
  | .burstAbort _ => true
  | .trackClear _ n => fitsByte n
  | .burstTimeout => true
  | .queuePrepare _ => true
  | .queueStarting _ => true
  | .queueRunStart _ => true
  | .queueLate _ => true
  | .segmentComplete _ => true
  | .groupPlan _ n ms => fitsByte n && fitsMembers ms
  | .groupArm _ n e => fitsByte n && fitsEpoch e
  | .groupCancel _ n => fitsByte n
  | .groupRead _ n p => fitsByte n && fitsByte p
  | .groupStart _ => true
  | .groupStartGraceExpiry _ => true
  | .groupDone _ => true
  | .groupSettleLimit _ => true
  | .holdPlace _ n _ r => fitsByte n && fitsReason r
  | .holdRemove _ n m => fitsByte n && fitsByte m
  | .lockPlace _ who _ r => fitsLocker who && fitsReason r
  | .lockRemove _ who n => fitsUnlocker who && fitsByte n
  | .forceRemove _ n t => fitsByte n && fitsTarget t
  | .localClaim _ _ => true
  | .localRelease _ _ => true
  | .pendantSilenceExpiry _ => true
  | .jog _ _ _ _ _ => true
  | .jogDeadman _ => true
  | .forceRemovalTimerExpiry _ => true
  | .warningTimerExpiry _ => true
  | .heatSet _ who _ _ _ => fitsHeater who
  | .iceFloor _ n _ => fitsByte n
  | .weather _ _ _ => true
  | .stowDemandOn _ => true
  | .stowDemandOff _ => true
  | .stowRelease _ => true
  | .allStop _ => true
  | .permitWrite _ p => fitsPermit p
  | .permitWriteDefault _ _ => true
  | .restart _ => true
  | .servoStep io => fitsInputs io
  | .profileEnd _ => true
  | .stopEnd _ => true
  | .busUp _ => true
  | .prechargeTimeout _ => true
  | .busOutOfBand _ => true
  | .busBackInBand _ => true
  | .holdingCurrentReached _ => true
  | .torqueUpTimeout _ => true
  | .brakeReleaseConfirmed _ => true
  | .releaseCheckTimeout _ => true
  | .brakeSetConfirmed _ => true
  | .brakeSetTimeout _ => true
  | .idleBrakeExpiry _ => true
  | .encoderDisagreementFault _ => true
  | .encoderFaultReport _ _ => true
  | .encoderReportCleared _ _ => true
  | .followingFault _ => true
  | .limitSwitchTripped _ _ => true
  | .amplifierFault _ => true
  | .windSample _ _ => true
  | .anemometerStuck _ _ _ => true
  | .windDisagreementMark _ _ => true
  | .windClassRise _ _ => true
  | .windClassFall _ _ => true
  | .safetySilence => true
  | .waveStart => true
  | .pinWarmingTimeout _ => true
  | .pinInSwitchMade _ => true
  | .pinInsertTimeout _ => true
  | .pinInSwitchOpened _ => true
  | .pinOutSwitchMade _ => true
  | .pinWithdrawTimeout _ => true
  | .heaterStep _ _ => true
  | .heaterFrameStart _ _ => true
  | .weatherStale => true
  | .wetTimerExpiry _ => true
  | .freezeTimerExpiry _ => true
  | .thawTimerExpiry _ => true
  | .grantQueueTimeout _ => true
  | .shedHalfCheck => true
  | .shedExpiry => true
  | .restorationStep => true
  | .storeSupplyLow => true
  | .storeWriteStart => true
  | .storeWriteComplete => true
  | .storeHeadWaitExpiry => true

end Sys2Proof
end

