-- ==== Sys2Proof/Tests/Slice0.lean ====
section
/-! SUPPORT. Tests: an ill-formed command for each check of WellFormed; the worked figures of the spec; for each
statement with hypotheses, concrete states and commands that meet them; and small tests of one step. Expected
results come from the spec's rules and worked cases, not from the model. -/

namespace Sys2Proof.Tests

open Sys2Proof.Machine

set_option Elab.async false

/-! ### Small states -/

/-- The state an outcome carries on with. -/
def after (c : Instr) (s : State) : State :=
  match exec c s with
  | .next t => t
  | .fault _ => s
  | .refused _ => s

/-- The state a step carries on with. -/
def stepped (s : State) : State :=
  match step s with
  | .next t => t
  | .fault _ => s
  | .refused _ => s

/-- The fresh part at epoch 10,000,000 ms with a SYNCED clock. -/
def late : State := { State.reset with clock := ⟨10000000, true⟩ }

def az0 : AxisId := ⟨.n0, .az⟩
def el0 : AxisId := ⟨.n0, .el⟩

/-- Antenna 0 with its bus UP and in band. -/
def busUp (s : State) : State :=
  (s.modAnt .n0 fun v => { v with bus := .up, enable := true }).modAntIn .n0 fun v => { v with bus := 1000 }

/-- An axis put into a state with the outputs that state drives. -/
def put (s : State) (i : AxisId) (st : AxisState) : State :=
  s.modAxis i fun x => { x with state := st, amplifier := st.amplifierOn, released := st.brakeReleased }

/-- An axis that moves at 1000 mdeg/s in a state. -/
def moving (s : State) (i : AxisId) (st : AxisState) : State :=
  (put s i st).modAxis i fun x => { x with velocity := 1000 }

/-- Antenna 0 with bus UP and both axes HOLDING on standing grants of their hold figures. -/
def holding (s : State) : State :=
  ((put (put (busUp s) az0 .holding) el0 .holding).setStanding az0 ⟨400, 400⟩).setStanding el0 ⟨300, 300⟩

/-- Antenna 0 LOCAL since now. -/
def local0 (s : State) : State := s.modAuthority .n0 fun v => { v with isLocal := true, claimed := some s.now }

/-- Its stow record in a state, with the pin and warming timers at an epoch. -/
def stowed0 (s : State) (st : StowState) (e : Timer) : State :=
  s.modStow .n0 fun r => { r with state := st, pinTimer := e, warmingTimer := e }

/-- A queue of antenna 0 in a run state. -/
def queue0 (s : State) (gs : List Segment) (run : RunState) : State :=
  s.modTrack .n0 fun v => { v with segments := gs, run := run }

/-- A segment of antenna 0 from where it rests, 1 s long. -/
def seg (start : Epoch) (last : Bool) (st : SegState) : Segment := ⟨start, 1000, ⟨0, 45000⟩, ⟨100, 45000⟩, last, st⟩

/-- The burst channel open for antenna 0 at the anchor (0, 45000). -/
def burst0 (s : State) : State :=
  { s with burst := { s.burst with
      ant := some .n0, tail := some ⟨none, ⟨0, 45000⟩, ⟨(0, 1), (0, 1)⟩, false⟩, lastFrame := some s.now } }

/-- Group 0 in a state with antenna 0 as its one member, AZ to move 1000 mdeg up. -/
def group0 (s : State) (st : GroupState) (start : Option Epoch) : State :=
  s.modGroup .g0 fun _ => { Group.initial with
    state := st, tg0 := 1500, tg := 1500, demand := 1000, held := st == .running, start := start
    members := [⟨.n0, ⟨some 1000, none⟩,
      ⟨{ AxisPlan.course 0 1000 2000 1000 400 with peak := some 1000, time := 1500, demand := 700 },
       AxisPlan.course 45000 45000 1000 500 300⟩⟩] }

/-- A lockout entry on antenna 0 in slot 0. -/
def lock0 (s : State) (cls : LockClass) (holder : Holder) (badge : Option Nat) : State :=
  { s with
    locks := { s.locks with
      slots := some ⟨some .n0, ⟨true, false, false⟩, cls, holder, badge, none, 5, 0⟩ :: List.replicate 23 none
      order := [0] }
    store := { s.store with nextCreation := 1 } }

/-- A jog of AZ under way on a LOCAL antenna. -/
def jogging0 : State :=
  (moving (local0 (busUp late)) az0 .jogging).modAuthority .n0 fun v =>
    { v with jog := some ⟨.az, .plus, 300, .running, 9999400, none, some ⟨9990000, 0, 300, false⟩⟩ }

/-- A wave of antenna 0: EL with a distance to go, and already there. -/
def wave0 (distance : Nat) : State :=
  let s := (stowed0 (holding late) .waiting none).modStow .n0 fun r => { r with member := true }
  ({ s with stow := { s.stow with
      wave := some ⟨[⟨.n0, 45000, 45000 + distance, distance, true, 1000, some 1500, some 1500, 31500⟩], 31500⟩ } }).modFeed
    fun f => { f with waves := f.waves.set .n0 (some ⟨false, 3000, ⟨400, 300⟩⟩) }

/-- Antenna 0 holds under a grant of group 0, of 1000 W. -/
def granted0 (s : State) : State :=
  ((s.modFeed fun f => { f with groups := f.groups.set .g0 (some ⟨1000, [(az0, 400), (el0, 300)]⟩) }).modAxis az0
    fun x => { x with cover := .group .g0 }).modAxis el0 fun x => { x with cover := .group .g0 }

/-! ### WellFormed refuses one ill-formed term a check -/

theorem test_wellFormed_byte : (Instr.driveReset 0 256).wellFormed = false ∧ (Instr.driveReset 0 255).wellFormed = true := by
  decide
theorem test_wellFormed_part : (Instr.statusReadWind .safety 0 256).wellFormed = false := by decide
theorem test_wellFormed_badge : (Instr.lockPlace 0 (.pendant .n0 65536) ⟨true, true, true⟩ none).wellFormed = false := by
  decide
theorem test_wellFormed_unlock : (Instr.lockRemove 0 (.pendant .n0 65536) 0).wellFormed = false := by decide
theorem test_wellFormed_target : (Instr.forceRemove 0 0 (.antenna 256)).wellFormed = false := by decide
theorem test_wellFormed_reason : (Instr.holdPlace 0 0 ⟨true, true, true⟩ (some 256)).wellFormed = false := by decide
theorem test_wellFormed_epoch : (Instr.timeSet 0 281474976710656).wellFormed = false := by decide
theorem test_wellFormed_count : (Instr.burstClose 0 4294967296 0).wellFormed = false := by decide
theorem test_wellFormed_position : (Instr.burstOpen 0 0 (some ⟨2147483648, 0⟩)).wellFormed = false := by decide
theorem test_wellFormed_member : (Instr.groupPlan 0 0 [⟨0, some (-2147483649), none⟩]).wellFormed = false := by decide
theorem test_wellFormed_body : (Instr.burstData 0 (List.replicate 241 0)).wellFormed = false := by decide +kernel
theorem test_wellFormed_permit : (Instr.permitWrite 0 ⟨256, true, false, true, 0, 0, 0⟩).wellFormed = false := by decide
theorem test_wellFormed_heater : (Instr.heatSet 0 (.operations 256) none none none).wellFormed = false := by decide
theorem test_wellFormed_inputs :
    (Instr.servoStep (late.modAntIn .n0 fun v => { v with bus := 1501 }).field).wellFormed = false := by decide +kernel
theorem test_decodeTableWord : decodeTableWord 8 0 = none := rfl

/-! ### Figures the spec works out -/

/-- The catalogue check values, over the ASCII digits 1 to 9, of the two CRCs R207 and R208 describe. -/
theorem test_crc :
    crc32Value (crc32Run 0xFFFFFFFF [0x31, 0x32, 0x33, 0x34, 0x35, 0x36, 0x37, 0x38, 0x39]) = 0xCBF43926
      ∧ crc16 [0x31, 0x32, 0x33, 0x34, 0x35, 0x36, 0x37, 0x38, 0x39] = 0x29B1 := by
  decide +kernel

/-- The worked case of chapter 2: minimum times and the synchronized speeds at 41500 and 45700. -/
theorem test_worked_times :
    reach 2000 90000 = 13416 ∧ profileTime 2000 90000 3000 = 31500 ∧ profileTime 1000 30000 1500 = 21500
      ∧ profileTime 2000 45000 3000 = 16500 ∧ profileTime 1000 60000 1500 = 41500 := by decide +kernel
theorem test_worked_speeds :
    slowest 2000 90000 3000 41500 = 2229 ∧ slowest 1000 30000 1500 41500 = 736
      ∧ slowest 2000 45000 3000 41500 = 1099 ∧ slowest 1000 60000 1500 41500 = 1500
      ∧ slowest 2000 90000 3000 45700 = 2014 ∧ stepTime 41500 1 = 45700 := by decide +kernel

/-- The two profiles the chapter evaluates. -/
theorem test_worked_profiles :
    trapezoid 60000 1500 1000 1000 = (500, 1000) ∧ trapezoid 60000 1500 1000 20000 = (28875, 1500)
      ∧ trapezoid 60000 1500 1000 41000 = (59875, 500) ∧ trapezoid 60000 1500 1000 41500 = (60000, 0)
      ∧ trapezoid 90000 2229 2000 1110 = (1232, 2220) ∧ trapezoid 90000 2229 2000 41490 = (89999, 2) := by
  decide +kernel

/-! ### Witnesses: the machine as a whole, frames and links -/

theorem witness_StepRunsTheFrontCommand :
    { State.reset with pending := [.powerLoss] }.pending = .powerLoss :: [] := rfl

/-- At 999 ms the next millisecond is the servo step's, the wind sample's and the heater steps' (each clause's
boundary); at 1 ms none of them is due; and a part without power. -/
theorem witness_EmptyQueuePassesAMillisecond :
    { State.reset with clock := ⟨999, false⟩ }.pending = [] ∧ State.reset.powered = true
      ∧ { State.reset with powered := false }.pending = [] := ⟨rfl, rfl, rfl⟩
theorem test_tick_due :
    let t := stepped { State.reset with clock := ⟨999, false⟩ }
    t.clock.epoch = 1000 ∧ Instr.servoStep restInputs ∈ t.pending ∧ t.pending.length = 20 := by decide +kernel
theorem test_tick_quiet : (stepped { State.reset with clock := ⟨1, false⟩ }).pending = [] := by decide +kernel

theorem reset_bounded : State.reset.Bounded where
  slots := by decide
  permits := by decide
  lockouts := by decide
  permitRecords := by decide
  segments := by intro a; cases a <;> decide
  window := by decide
  needs := by decide
  writes := by decide
  counts := by intro l; cases l with
    | operations => decide
    | safety => decide
    | pendant n => cases n <;> decide

theorem reset_lawful : State.reset.Lawful where
  axes := by
    rintro ⟨a, x⟩
    cases a <;> cases x <;> exact ⟨rfl, rfl, by decide, by decide, by decide, by decide⟩
  bounded := reset_bounded
  table := by
    refine ⟨by decide, ?_, by decide⟩
    intro n
    have h : State.reset.locks.slot n = none := by
      show (List.replicate 24 (none : Option LockEntry))[n]?.getD none = none
      rw [List.getElem?_replicate]
      split <;> rfl
    simp [h, show State.reset.locks.order = [] from rfl]
  store := ⟨by decide, by decide, by decide, by decide⟩

theorem reset_guarded : State.reset.Guarded where
  taken := by intro h; exact absurd h (by decide)
  localFree := by intro a h; cases a <;> revert h <;> decide
  jogLocal := by intro a h; cases a <;> revert h <;> decide
  boundFree := by intro a h; cases a <;> revert h <;> decide
  boundOnce := by intro g h a hg; exact absurd hg (by cases g <;> decide)
  queueFree := by intro a h; cases a <;> revert h <;> decide
  members := by intro w h; cases h
  stopping := by intro a h; cases a <;> revert h <;> decide

theorem reset_within : State.reset.WithinLimit where
  load := by decide +kernel
  stored := by decide
  written := by intro w r h; cases h
  once := by intro g; cases g <;> decide

theorem reset_tidy : State.reset.Tidy where
  heaters := by rintro ⟨a, c⟩; cases a <;> cases c <;> exact ⟨rfl, by decide +kernel⟩
  queued := by decide
  overflowed := by decide
  written := by intro w h; cases h
  scratch := rfl

/-- An ACTIVE, a QUEUED and a STAGED segment, each behind the one before it, under a burst with its chain tail. -/
def ordered0 : State :=
  let from_ (x start : Int) (st : SegState) : Segment := ⟨start, 1000, ⟨x, 45000⟩, ⟨x + 100, 45000⟩, false, st⟩
  let s := queue0 (burst0 late) [from_ 0 9999900 .active, from_ 100 10000900 .queued, from_ 200 10001900 .staged] .running
  { s with burst := { s.burst with tail := some (from_ 200 10001900 .staged).tail } }
theorem ordered0_queues : ordered0.QueuesOrdered where
  order := by intro a; cases a <;> decide
  staged := by intro a; cases a <;> decide
  follows := by intro a; cases a <;> decide
  lasts := by intro a; cases a <;> decide
  rises := by intro a; cases a <;> decide
  tail := by
    intro a g h k
    cases h
    cases k
    exact ⟨_, rfl, rfl, rfl⟩

/-- The invariants hold at reset, and a step from there answers a next state; a queue of every segment state; a
lockout table with an entry; and a power-on of a store whose LOCKOUT records have one entry to a key. -/
theorem witness_EveryStepKeepsLawful :
    State.reset.Lawful ∧ (∃ t, step State.reset = .next t)
      ∧ ordered0.QueuesOrdered ∧ (∃ t, step ordered0 = .next t)
      ∧ KeysOnce (lock0 late .safety .safety none).locks.slots
      ∧ (∃ t, exec (.holdPlace 1 0 ⟨true, true, true⟩ none) (lock0 late .safety .safety none) = .next t)
      ∧ Instr.holdPlace 1 0 ⟨true, true, true⟩ none ≠ .powerOn
      ∧ KeysOnce (if State.reset.powered then State.reset.store.lose else State.reset.store).restoredSlots
      ∧ ∃ t, exec .powerOn State.reset = .next t :=
  ⟨reset_lawful, ⟨_, rfl⟩, ordered0_queues, ⟨_, rfl⟩, by unfold KeysOnce; decide, ⟨_, rfl⟩, by decide,
    by unfold KeysOnce; decide +kernel, _, rfl⟩
theorem witness_EveryStepKeepsGuarded : State.reset.Guarded ∧ ∃ t, step State.reset = .next t := ⟨reset_guarded, _, rfl⟩
theorem witness_EveryStepKeepsTidy :
    State.reset.Lawful ∧ State.reset.Tidy ∧ ∃ t, step State.reset = .next t := ⟨reset_lawful, reset_tidy, _, rfl⟩
theorem witness_EveryStepKeepsTheFeedLimit :
    State.reset.WithinLimit ∧ ∃ t, step State.reset = .next t := ⟨reset_within, _, rfl⟩

theorem witness_CommandsTouchOnlyTheirParts :
    (∃ t, exec (.powerOn) State.reset = .next t)
      ∧ (∃ t, exec (.stowDemandOn 1) State.reset = .next t) ∧ linkOf (.stowDemandOn 1) ≠ some .operations :=
  ⟨⟨_, rfl⟩, ⟨_, rfl⟩, by decide⟩

/-- An event with a notice to build: the Safety link has notices enabled and the demand begins. -/
theorem witness_EventsFlagWhatTheyChange :
    (∃ t, exec (.stowDemandOn 1) (after (.noticeEnableOn .safety 1) State.reset) = .next t)
      ∧ (after (.noticeEnableOn .safety 1) State.reset).scratch.early = 0 := ⟨⟨_, rfl⟩, by decide +kernel⟩
theorem test_notice :
    let s := after (.replySent .safety) (after (.noticeEnableOn .safety 1) State.reset)
    ((after (.stowDemandOn 2) s).link .safety).notice.isSome = true
      ∧ ((after (.stowDemandOn 2) s).link .safety).sequence = 1
      ∧ ((after (.stowDemandOn 2) s).link .operations).notice = none := by decide +kernel

theorem witness_RequestsAreCheckedInOrder :
    requestOf (.driveReset 1 6) = some (.operations, .driveReset, 1)
      ∧ State.reset.takes .operations .driveReset 1 (fitsOf (.driveReset 1 6))
      ∧ State.reset.refusal (.driveReset 1 6) = some .range :=
  ⟨rfl, by unfold State.takes; decide +kernel, by decide +kernel⟩
/-- A table that refuses at its default alone, and one whose entry 31 refuses antenna 0. -/
def refusing0 : State := { holding late with permits := { (holding late).permits with default_ := .refuse } }
def refusing1 : State := (after (.permitWrite 1 ⟨31, true, false, true, 3, 0, 0⟩) (holding late)).modLink .operations
  fun r => { r with reply := none }
theorem witness_RequestsAreCheckedInOrder_permit :
    requestOf (.burstOpen 1 0 (some ⟨0, 45000⟩)) = some (.operations, .burstOpen, 1)
      ∧ refusing0.takes .operations .burstOpen 1 (fitsOf (.burstOpen 1 0 (some ⟨0, 45000⟩)))
      ∧ refusing0.refusal (.burstOpen 1 0 (some ⟨0, 45000⟩)) = some .permit :=
  ⟨rfl, by unfold State.takes; decide +kernel, by decide +kernel⟩
theorem test_permit_refusal :
    let t := after (.burstOpen 1 0 (some ⟨0, 45000⟩)) refusing0
    t.permits.defaultRefusals = 1
      ∧ (t.link .operations).reply.map Reply.body = some (.permitRefusal none none false) := by decide +kernel
theorem test_permit_refusal_of_a_member :
    let t := after (.groupPlan 1 3 [⟨0, some 1000, none⟩]) refusing1
    t.permits.defaultRefusals = 0 ∧ t.permits.entries[31]?.map PermitEntry.refusals = some 1
      ∧ (t.link .operations).reply.map Reply.body = some (.permitRefusal (some .n0) (some 31) false) := by decide +kernel

theorem witness_WireRecordsReadBack :
    (List.replicate 240 (0x5A : Byte)).length ≤ 240 ∧ (281474976710655 < 281474976710656 ∧ 16383 < 16384
      ∧ (-2147483648 : Int) ≤ -2147483648 ∧ (2147483647 : Int) < 2147483648) := by decide +kernel
/-- An ack's reply: marker, length, kind 01H with the reply bit, tag, OK and CRC. -/
theorem test_reply_bytes :
    (Reply.bytes ⟨replyKind Kind.axisEnable.code, 7, .ok, .empty⟩).take 5
      = [marker, 1, replyKind Kind.axisEnable.code, 7, 0] := by decide +kernel
theorem test_frame_with_a_marker_inside :
    receive (frameBytes 0x01 7 [marker, 3, marker]) = .frame ⟨0x01, 7, [marker, 3, marker]⟩ [] := by
  decide +kernel

theorem witness_FramesComeAndGo :
    State.reset.powered = true ∧ (State.reset.link .safety).rx = [] ∧ (∀ b ∈ [(0x00 : Byte)], b ≠ marker)
      ∧ (240 < (241 : Byte).toNat)
      ∧ ((0 : Byte).toNat + 4 ≤ ([0x05, 1, 0, 0] : List Byte).length
        ∧ leNat ((([0x05, 1, 0, 0] : List Byte).drop ((0 : Byte).toNat + 2)).take 2)
          ≠ (crc16 (0 :: ([0x05, 1, 0, 0] : List Byte).take ((0 : Byte).toNat + 2))).toNat)
      ∧ (((after (.noticeEnableOn .safety 1) State.reset).link .safety).reply.isSome = true
        ∧ ((((after (.noticeEnableOn .safety 1) State.reset).link .safety).notice.isSome
          && ((after (.noticeEnableOn .safety 1) State.reset).link .safety).noticeFirst) = false))
      ∧ (let s := State.reset.modLink .safety fun r => { r with notice := some ⟨1, 0⟩ }
         (s.link .safety).notice.isSome = true ∧ (s.link .safety).reply = none) := by decide +kernel

/-- A frame of a kind and a body waits with tag 1. -/
def waiting (l : Link) (kind : Byte) (body : List Byte) : State :=
  State.reset.modLink l fun r => { r with waiting := some ⟨kind, 1, body⟩ }

/-- An unknown kind, the reply bit, a kind of another link, and a body one byte short and one byte long. -/
theorem witness_UnknownRequestsAreRefused :
    (waiting .operations 0x7F []).powered = true
      ∧ (waiting .operations 0x7F []).mayTake .operations 0x7F 1 (fun b => decide (b = [])) = true
      ∧ Kind.ofCode 0x7F = none
      ∧ Kind.restart.openTo .operations = false ∧ Kind.ofCode Kind.restart.code = some .restart
      ∧ Kind.statusRead.openTo .operations = true
      ∧ ([0, 0] : List Byte).length ≠ 3 ∧ ([0, 0, 0, 0] : List Byte).length ≠ 3 := by decide +kernel

theorem witness_StatusReadsShowTheState :
    State.reset.takes .operations .statusRead 1 (statusReadFits .antenna (readAnt .operations Ant.n5.num) 0)
      ∧ State.reset.takes (.pendant .n5) .statusRead 1 (statusReadFits .track (readAnt (.pendant .n5) 77) 255)
      ∧ State.reset.takes .safety .statusRead 1 (statusReadFits .track (some 6) 0)
      ∧ ∀ sel ∈ [Selector.lockouts, .wind, .heat, .group, .budget, .store, .permit],
          State.reset.takes .safety .statusRead 1 (statusReadFits sel none 255) := by
  unfold State.takes
  decide +kernel

/-- On Safety with a SILENCE source to end, and on Operations. -/
theorem witness_ChangesAckWritesItsLink :
    let s := { State.reset with wind := { State.reset.wind with silence := true } }
    let fits (b : List Byte) : Bool :=
      decide (b = leBytes 5 (0 : FlagWord).toNat ++ leBytes 5 (0x1000000000 : FlagWord).toNat)
    s.takes .safety .changesAck 1 fits ∧ s.scratch.raised = 0 ∧ s.scratch.early = 0
      ∧ (decide (Link.safety = .safety) && s.wind.silence) = true
      ∧ (waiting .operations 0x02 [0, 0, 0, 0, 0, 0, 0, 0, 0, 0x10]).takes .operations .changesAck 1 fits
      ∧ (decide (Link.operations = .safety) && State.reset.wind.silence) = false := by
  unfold State.takes
  decide +kernel
theorem test_changesAck_after_silence :
    let s := { State.reset with wind := { State.reset.wind with silence := true } }
    let t := after (.changesAck .safety 1 0 0x1000000000) (s.modLink .safety fun r => { r with enable := true })
    (t.link .safety).flags = 0 ∧ (t.link .safety).notice = some ⟨1, 0⟩
      ∧ (t.link .operations).flags = 0x1000000000 := by decide +kernel

theorem witness_NoticeEnableSetsItsLink :
    (∀ p : Ant, Link.operations ≠ .pendant p) ∧ State.reset.takes .operations .noticeEnable 1
      ∧ (State.reset.scratch.raised = 0 ∧ State.reset.scratch.early = 0)
      ∧ State.reset.takes (.pendant .n0) .noticeEnable 1
      ∧ (∃ t, exec .powerOn State.reset = .next t) ∧ (State.reset.link (.pendant .n0)).enable = true
      ∧ State.reset.takes .safety .restart 1 :=
  ⟨(by intro p h; cases h), by unfold State.takes; decide +kernel, ⟨rfl, rfl⟩,
    by unfold State.takes; decide +kernel, ⟨_, rfl⟩, by decide +kernel, by unfold State.takes; decide +kernel⟩

theorem witness_TimeSetKeepsIntervals : State.reset.admits (.timeSet 1 281474976710655) = true := by decide +kernel
theorem test_timeSet : (after (.timeSet 1 5000) State.reset).clock = ⟨5000, true⟩
    ∧ (after (.timeSet 1 5000) State.reset).wind = State.reset.wind := by decide +kernel
/-- A set 3 ms off the servo step's phase: the next one falls 10 ms after the last (R194). -/
theorem test_timeSet_keeps_the_pace :
    let t := after (.timeSet 1 5003) late
    late.atServo = true ∧ t.atServo = true ∧ { t with clock := ⟨5010, true⟩ }.atServo = false
      ∧ { t with clock := ⟨5013, true⟩ }.atServo = true := by decide +kernel

/-! ### Witnesses: power, store and permits -/

/-- No LOCKOUT record of the store at reset is bad: a slot past the last has none. -/
theorem witness_PowerOnLoadsTheStore : ∀ n, State.reset.store.lose.goodOf (.lockout n) = true := by
  intro n
  by_cases h : n < 24
  · have k : ∀ m : Fin 24, State.reset.store.lose.goodOf (.lockout m.val) = true := by decide +kernel
    exact k ⟨n, h⟩
  · have e : State.reset.store.lose.lockouts[n]? = none := List.getElem?_eq_none (by
      have : State.reset.store.lose.lockouts.length = 24 := by decide +kernel
      omega)
    simp [Store.goodOf, e]
theorem test_powerOn_keeps_lockouts :
    let s := after .powerLoss (lock0 State.reset .operations .operations none)
    let e := (lock0 State.reset .operations .operations none).locks.slot 0
    let t := after .powerOn { s with store := { s.store with
      lockouts := s.store.lockouts.set 3 ⟨e, true, true⟩ } }
    t.locks.order = [3] ∧ t.locks.slot 3 = e ∧ e.isSome = true := by decide +kernel

/-- The lockout slot 23, the last one, is bad. -/
def badLock : State :=
  { State.reset with store := { State.reset.store with
      lockouts := List.replicate 23 (.fresh none) ++ [⟨none, false, true⟩] } }

theorem witness_BadLockoutLocksTheStation :
    badLock.Bounded ∧ (23 < 24 ∧ badLock.store.lose.goodOf (.lockout 23) = false) :=
  ⟨{ reset_bounded with lockouts := by decide }, by decide, by decide +kernel⟩
theorem test_badLockout_powerOn :
    (after .powerOn badLock).axisCovered az0 = true ∧ (after .powerOn badLock).store.bad = [.lockout 23] := by
  decide +kernel

theorem witness_PowerLossKeepsTheStore :
    State.reset.powered = true ∧ State.reset.Bounded ∧ State.reset.Tidy
      ∧ { State.reset with powered := false }.powered = false ∧ Instr.powerLoss ≠ .powerOn :=
  ⟨rfl, reset_bounded, reset_tidy, rfl, by decide⟩

/-- A retained zone, an antenna that holds, one that slews and one at rest. -/
theorem witness_RestartKeepsWhatProtects :
    let s := moving (put (busUp late) az0 .holding) el0 .slewing
    s.takes .safety .restart 1 ∧ (s.stowOf .n0).state ≠ .stopping ∧ (s.stowOf .n0).state ≠ .driving
      ∧ (s.axis az0).ready = true ∧ (s.axis el0).state = .slewing ∧ (s.axis el0).velocity ≠ 0
      ∧ ((stowed0 s .driving none).stowOf .n0).state = .driving ∧ (stowed0 s .driving none).moving .n0 = true :=
  ⟨by unfold State.takes; decide +kernel, by decide +kernel, by decide +kernel, by decide +kernel,
    by decide +kernel, by decide +kernel, by decide +kernel, by decide +kernel⟩
/-- Axes that hold under a group's and a wave's grant, of an antenna that is STOPPING too; and a stop under way. -/
theorem witness_RestartKeepsWhatProtects_grants :
    let s := stowed0 (granted0 (holding late)) .stopping none
    let w := ((wave0 45000).modAxis az0 fun x => { x with cover := .wave })
    let stop := (moving (busUp late) az0 .stopping).modAxis az0 fun x =>
      { x with stop := some ⟨.group, .holding, 2000, 1000, 0, 9999900⟩ }
    (∀ u ∈ [s, w, stop], u.powered = true ∧ u.mayTake .safety Kind.restart.code 1 (bodyLengthFits .restart) = true)
      ∧ s.feed.groups.get .g0 = some ⟨1000, [(az0, 400), (el0, 300)]⟩ ∧ (s.axis az0).cover = .group .g0
      ∧ (s.axis az0).state.amplifierOn = true ∧ ([(az0, 400), (el0, 300)].map Prod.fst).Nodup
      ∧ ([(az0, 400), (el0, 300)].map Prod.snd).sum ≤ 1000 ∧ (s.axis az0).ready = true
      ∧ w.feed.waves.get .n0 = some ⟨false, 3000, ⟨400, 300⟩⟩ ∧ (w.axis az0).cover = .wave
      ∧ (w.axis az0).state.amplifierOn = true ∧ 400 + 300 ≤ 3000
      ∧ (stop.axis az0).state = .stopping ∧ (stop.axis az0).stop.isSome = true := by decide +kernel
theorem test_restart_converts_the_grants :
    let s := after (.restart 1) (granted0 (holding late))
    let w := after (.restart 1) ((wave0 45000).modAxis el0 fun x => { x with cover := .wave })
    s.standing az0 = ⟨400, 400⟩ ∧ (s.axis az0).cover = .standing ∧ (s.axis az0).state = .braking
      ∧ s.feed.groups.get .g0 = none ∧ w.standing el0 = ⟨300, 300⟩ ∧ (w.axis el0).cover = .standing
      ∧ w.feed.waves.get .n0 = none := by decide +kernel
theorem test_restart_clears_the_feed :
    let s := late.modFeed fun f => { f with
      queue := [⟨az0, .hold, 400, 9990000⟩], shed := ⟨true, some false, false, some 10000001, none⟩ }
    (after (.restart 1) s).feed.queue = [] ∧ (after (.restart 1) s).feed.shed.active = false := by decide +kernel

/-- The queue's head with and without an overflowed slot behind it, a write under way, and a head that waits. -/
theorem witness_WritesReachTheStore :
    let st := State.reset.store
    let w : Writing := ⟨.wind, .wind .factory, false, 0⟩
    let full := (RecordId.all.take 32)
    (late.field.supplyGood = true ∧ late.powered = true
      ∧ ({ late with store := { st with queue := [.wind] } }.store.writing = none)
      ∧ { late with store := { st with queue := full, overflow := [23] } }.store.queue.length = 32
      ∧ full.tail.length < 32)
      ∧ (w.record ∈ RecordId.all ∧ w.value.id = w.record)
      ∧ ((some 9990000 : Timer) = some 9990000 ∧ (9990000 : Int) + 10000 ≤ late.now)
      ∧ late.permits.entries.length = 32
      ∧ late.admits (.permitWrite 1 ⟨31, true, false, true, 9, 3, 0⟩) = true
      ∧ late.admits (.permitWrite 1 ⟨0, true, false, true, 0, 0, 0⟩) = true
      ∧ late.admits (.permitWriteDefault 1 (some .refuse)) = true
      ∧ late.admits (.permitWrite 1 ⟨255, true, true, false, 0, 0, 0⟩) = true := by decide +kernel
theorem witness_storeWriteComplete_bounded :
    { State.reset with store := { State.reset.store with writing := some ⟨.wind, .wind .factory, false, 0⟩ } }.Bounded :=
  { reset_bounded with }
/-- R178's compares: a signed target, an unsigned value, EQ under a mask (the chapter's ANTENNA EQ 4 under
0xFFFFFFFE), and NE on an absent target. -/
def rule (p : Property) (c : Compare) (v : BitVec 32) : PermitEntry := ⟨true, p, c, v, false, .refuse, 0⟩
theorem test_permit_compares :
    let q (a : Ant) (az : Option Mdeg) : Subject := ⟨false, .plan, a, az, none⟩
    let hit (a : Ant) (az : Option Mdeg) (e : PermitEntry) (m : BitVec 32) : Bool := (late.testEntry (q a az) e m).isSome
    [hit .n0 (some (-5)) (rule .targetAz .lt 3) fullMask, hit .n0 (some (-5)) (rule .targetAz .ge 3) fullMask,
      hit .n3 none (rule .antenna .lt 0xFFFFFFFF) fullMask, hit .n5 none (rule .antenna .eq 4) 0xFFFFFFFE,
      hit .n5 none (rule .antenna .ne 4) 0xFFFFFFFE, hit .n0 none (rule .targetAz .ne 3) fullMask]
      = [true, false, true, true, false, false] := by decide +kernel
/-- A SETMASK entry, a present and an absent property: the cases of one test. -/
theorem witness_PermitScanFollowsTheChains :
    (rule .setMask .eq 1).property = .setMask ∧ (rule .hour .eq 1).property ≠ .setMask
      ∧ late.property ⟨false, .plan, .n0, some (-1), none⟩ .targetAz = some (-1)
      ∧ late.property ⟨false, .plan, .n0, some (-1), none⟩ .targetEl = none := by decide +kernel
theorem test_permit_refuses :
    let s := after (.permitWrite 1 ⟨31, true, false, true, 0, 0, 0⟩) late
    s.verdict ⟨false, .plan, .n0, none, none⟩ = (.refuse, some 31) := by decide +kernel

/-! ### Witnesses: axis drives and profiles -/

/-- ON from OFF and from UP; HOLD with an axis that holds, and over two braked ones that can and cannot take torque;
OFF in precharge, over two holding axes, and over two braked ones. -/
theorem witness_AxisEnableDrivesTheBus :
    let pre := late.modAnt .n0 fun v => { v with bus := .precharge, enable := true }
    let down := put (put (busUp late) az0 .braked) el0 .braked
    let out := down.modAnt .n0 fun v => { v with outOfBand := true }
    (down.admits (.axisEnableHold 1 0) = true ∧ down.ready .n0 = true ∧ down.feed.queue = []
        ∧ down.feed.shed.classes = none ∧ (400 + 300 : Int) ≤ down.freeRoom ∧ down.waits az0 = false
        ∧ (down.axis az0).claims.group = false ∧ (down.axis az0).claims.stow = false
        ∧ (Ant.all.all fun b => decide ((down.stowOf b).state ≠ .stopping) && !down.waitsForWave b) = true
        ∧ (AxisId.all.all fun j => decide ((down.axis j).claims.any = false)) = true)
      ∧ (out.admits (.axisEnableHold 1 0) = true ∧ out.ready .n0 = false)
      ∧ late.admits (.axisEnableOn 1 0) = true ∧ late.admits (.axisEnableHold 1 5) = true
      ∧ (late.axis az0).state = .off ∧ (busUp late).admits (.axisEnableHold 1 0) = true
      ∧ (holding late).admits (.axisEnableHold 1 0) = true ∧ ((holding late).stowOf .n0).state = .unstowed
      ∧ ((holding late).axis az0).state ≠ .braked ∧ (holding late).waits az0 = false
      ∧ (put pre az0 .precharge).admits (.axisEnableOff 1 0) = true
      ∧ (holding late).admits (.axisEnableOff 1 0) = true ∧ ((holding late).axis el0).ready = true
      ∧ (put (put (busUp late) az0 .braked) el0 .braked).admits (.axisEnableOff 1 0) = true := by decide +kernel
theorem test_hold_takes_torque :
    let down := put (put (busUp late) az0 .braked) el0 .braked
    let t := after (.axisEnableHold 1 0) down
    let u := after (.axisEnableHold 1 0) (down.modAnt .n0 fun v => { v with outOfBand := true })
    (t.axis az0).state = .torqueUp ∧ t.standing az0 = ⟨400, 400⟩ ∧ (u.axis az0).state = .braked
      ∧ (u.axis az0).claims.operations = true := by decide +kernel
theorem test_enable_off_goes_down :
    let s := after (.axisEnableOff 1 0) (holding late)
    ((s.axis az0).state, (s.axis el0).state, (s.ants.get .n0).bus) = (.braking, .braking, .up) := by decide +kernel

/-- A limit switch still made is a cause; without it none is. Both on an UP bus. -/
theorem witness_DriveResetLooksForCauses :
    let s := put (busUp late) az0 (.faulted .limit)
    let t := s.modAxisIn az0 fun io => { io with limitHigh := true }
    s.admits (.driveReset 1 0) = true ∧ (s.axis az0).state.isFaulted = true ∧ s.firstCause az0 = none
      ∧ (s.stowOf .n0).state = .unstowed ∧ (s.axis az0).claims.any = false ∧ (s.ants.get .n0).enable = true
      ∧ t.admits (.driveReset 1 0) = true ∧ t.firstCause az0 = some .limit := by decide +kernel

theorem witness_EncodersAndFiguresAreSet :
    (put late el0 .braked).admits (.encoderSelect 1 0 (some .el) (some .b)) = true
      ∧ late.admits (.encoderDisable 1 5 (some .az) (some .b)) = true
      ∧ late.admits (.encoderRestore 1 0 (some .az) (some .a)) = true
      ∧ (late.axis az0).active ≠ .b ∧ (late.axis az0).healthy (late.axisIn az0) Enc.a.other = true
      ∧ late.admits (.configWriteAxis 1 0 (some .az) ⟨0, 9999, -300000, 300000, -1, 9999, 49, 9⟩) = true
      ∧ late.admits (.configWriteAxis 1 5 (some .el) ⟨1500, 1000, 2000, 90500, 300, 1600, 500, 60⟩) = true := by
  decide +kernel
theorem test_encoder_switches :
    ((after (.encoderFaultReport az0 .a) late).axis az0).active = .b
      ∧ ((after (.encoderReportCleared az0 .a) (after (.encoderFaultReport az0 .a) late)).axis az0).active = .b := by
  decide +kernel

/-- A disabled encoder whose own-fault report stands was unhealthy already: the item alone changes (R23). -/
theorem test_enabled_item_sets_the_flag :
    let s := late.modAxisIn az0 fun io => { io with reportB := true }
    let t := after (.encoderDisable 1 0 (some .az) (some .b)) s
    (t.axis az0).enabledB = false ∧ (s.axis az0).healthy (s.axisIn az0) .b = false
      ∧ (t.link .operations).flags &&& antFlag .axis .n0 = antFlag .axis .n0 := by decide +kernel

/-- Each way an axis can stand at a servo step: resting, slewing, tracking, stopping, jogging, holding and
FAULTED(BRAKE_SET); and a bus in precharge in band, and one UP out of band. -/
theorem witness_ServoStepMovesTheAxes :
    let slew := (put late az0 .slewing).modAxis az0 fun x => { x with profile := some ⟨9999000, 0, 5000, 1000, 2000, true, 5500⟩ }
    let stop := (put late az0 .stopping).modAxis az0 fun x => { x with stop := some ⟨.group, .holding, 2000, 1000, 0, 9999900⟩ }
    let jog := (put late az0 .jogging).modAuthority .n0 fun v =>
      { v with isLocal := true, jog := some ⟨.az, .plus, 300, .running, 9999900, none, some ⟨9999900, 0, 300, false⟩⟩ }
    late.powered = true ∧ (late.axis az0).state.followsReading = true
      ∧ ((slew.axis az0).state = .slewing ∧ (slew.axis az0).profile.isSome = true)
      ∧ (((queue0 (put late az0 .tracking) [seg 9999900 true .active] .running).axis az0).state = .tracking
        ∧ ((queue0 (put late az0 .tracking) [seg 9999900 true .active] .running).track .n0).activeSegment.isSome = true)
      ∧ ((stop.axis az0).state = .stopping ∧ (stop.axis az0).stop.isSome = true)
      ∧ ((jog.axis az0).state = .jogging ∧ (jog.jogMotion az0).isSome = true)
      ∧ ((put late az0 .holding).axis az0).state = .holding
      ∧ ((put late az0 (.faulted .brakeSet)).axis az0).state = .faulted .brakeSet
      ∧ (950 ≤ ((busUp late).field.ants.get .n0).bus ∧ ((busUp late).field.ants.get .n0).bus ≤ 1050)
      ∧ ((late.modAnt .n0 fun v => { v with bus := .up }).ants.get .n0).bus = .up
      ∧ (late.field.ants.get .n0).bus < 950
      ∧ ((group0 late .running (some 9990000)).groups.get .g0).state = .running := by decide +kernel

theorem test_bus_timers_run :
    let pre := (busUp late).modAnt .n0 fun v => { v with bus := .precharge }
    let out := late.modAnt .n0 fun v => { v with bus := .up }
    ((after (.servoStep pre.field) pre).ants.get .n0).inBandTimer = some 10000000
      ∧ ((after (.servoStep out.field) out).ants.get .n0).outBandTimer = some 10000000 := by decide +kernel

theorem witness_ProfilesAndStopsEnd :
    let slew := (put late el0 .slewing).modAxis el0 fun x => { x with profile := some ⟨9994500, 45000, 50000, 1000, 1000, true, 5500⟩ }
    let stop (t : StopTarget) := (put late az0 .stopping).modAxis az0 fun x => { x with stop := some ⟨.group, t, 2000, 1000, 0, 9999000⟩ }
    (late.atServo = true ∧ slew.atServo = true ∧ (stop .off).atServo = true
        ∧ { late with clock := ⟨10000001, true⟩ }.atServo = false)
      ∧ (slew.profileOver el0).isSome = true ∧ slew.waits el0 = false ∧ (slew.stowOf .n0).state ≠ .stopping
      ∧ ((stowed0 slew .driving none).profileOver el0).isSome = true
      ∧ ((stop .holding).stopOver az0).isSome = true ∧ ((stop .off).stopOver az0).isSome = true
      ∧ (stop .off).waits az0 = false := by decide +kernel
theorem test_profileEnd_arrives :
    let s := stowed0 ((put late el0 .slewing).modAxis el0 fun x =>
      { x with profile := some ⟨9994500, 45000, 50000, 1000, 1000, true, 5500⟩ }) .driving none
    ((after (.profileEnd el0) s).stowOf .n0).state = .pinWarming
      ∧ ((after (.profileEnd el0) s).axis el0).position = 50000 := by decide +kernel

/-- Each timer exactly at its limit: 2 s, 15 s, 200 ms and 2 s. -/
theorem witness_BusFollowsItsBand :
    let pre := put (late.modAnt .n0 fun v =>
      { v with bus := .precharge, enable := true, prechargeStart := some 9985000, inBandTimer := some 9998000 })
      az0 .precharge
    let up (out : Bool) := (holding late).modAnt .n0 fun v =>
      { v with outOfBand := out, outBandTimer := some 9999800, inBandTimer := some 9998000 }
    (pre.ants.get .n0).bus = .precharge ∧ (pre.ants.get .n0).enable = true ∧ (9998000 : Int) + 2000 ≤ pre.now
      ∧ (9985000 : Int) + 15000 ≤ pre.now ∧ (pre.axis az0).state = .precharge ∧ (pre.axis az0).claims.any = false
      ∧ ((up false).ants.get .n0).bus = .up ∧ ((up false).ants.get .n0).outOfBand = false
      ∧ (9999800 : Int) + 200 ≤ (up false).now ∧ ((up false).axis az0).amplifier = true
      ∧ ((up true).ants.get .n0).outOfBand = true := by decide +kernel
theorem witness_BusFollowsItsBand_lawful :
    ((holding late).modAnt .n0 fun v => { v with outBandTimer := some 9999800 }).axesLawful := by
  rintro ⟨a, x⟩
  cases a <;> cases x <;>
    exact ⟨by decide +kernel, by decide +kernel, by decide +kernel, by decide +kernel, by decide +kernel,
      by decide +kernel⟩
theorem test_bus_out_of_band :
    let s := (holding late).modAnt .n0 fun v => { v with outBandTimer := some 9999800 }
    ((after (.busOutOfBand .n0) s).axis az0).state = .faulted .precharge
      ∧ ((after (.busOutOfBand .n0) s).axis az0).released = false := by decide +kernel

/-- A handover under way, its release check with and without a stop held and claims, a brake closing, and the
idle time just run out. -/
theorem witness_TorqueAndBrakeHandOver :
    let up := put (busUp late) az0 .torqueUp
    let check := (holding late).modAxis az0 fun x => { x with releaseCheck := some 9999900 }
    let down := put (busUp late) az0 .braking
    let idle := (holding late).modAxis az0 fun x => { x with idleTimer := some 9940000 }
    (up.waits az0 = false ∧ (up.stowOf .n0).state ≠ .stopping ∧ (up.axis az0).state = .torqueUp)
      ∧ ((check.axis az0).state = .holding ∧ (check.axis az0).releaseCheck.isSome = true
        ∧ (check.axis az0).pendingStop = none ∧ (check.axis az0).claims.any = false ∧ check.waits az0 = false)
      ∧ ((down.axis az0).state = .braking ∧ (down.axis az0).claims.any = false
        ∧ (down.ants.get .n0).disabling = false ∧ (down.stowOf .n0).state ≠ .waiting)
      ∧ ((idle.axis az0).state = .holding ∧ (9940000 : Int) + (idle.axis az0).record.idle * 1000 ≤ idle.now) := by
  decide +kernel
theorem test_brake_is_set :
    let s := after (.brakeSetConfirmed az0) (put (busUp late) az0 .braking)
    ((s.axis az0).state, (s.axis az0).amplifier) = (.braked, false) := by decide +kernel

/-- Ends and starts wait for a servo step (R17, R45, R63, R80, R129). -/
theorem test_off_the_servo_step :
    let s := { group0 (holding late) .armed (some 10000000) with clock := ⟨10000001, true⟩ }
    s.groupStarts .g0 = true ∧ ((after (.groupStart .g0) s).groups.get .g0).state = .armed
      ∧ ((after (.groupStart .g0) { s with clock := ⟨10000010, true⟩ }).groups.get .g0).state = .running := by
  decide +kernel

/-- Every row that faults an axis, each with its timer exactly run out; the other axis moving, at a stand in SLEWING, in a
stop and holding; and a jog on the antenna. -/
theorem witness_FaultsStopTheAxis :
    let t (st : AxisState) (f : Axis → Axis) := (put (busUp late) az0 st).modAxis az0 f
    faultOf (t .torqueUp fun x => { x with torqueTimer := some 9999500 }) (.torqueUpTimeout az0) = some (az0, .brakeRelease)
      ∧ faultOf (t .holding fun x => { x with releaseCheck := some 9999200 }) (.releaseCheckTimeout az0) = some (az0, .brakeRelease)
      ∧ faultOf ((t .braking fun x => { x with brakeTimer := some 9999200 }).modAxisIn az0 fun io => { io with setSwitch := false })
          (.brakeSetTimeout az0) = some (az0, .brakeSet)
      ∧ faultOf ((t .holding fun x => { x with disagreeTimer := some 9999000 }).modAxisIn az0 fun io => { io with encB := 51 })
          (.encoderDisagreementFault az0) = some (az0, .encoder)
      ∧ faultOf (t .holding fun x => { x with enabledB := false }) (.encoderFaultReport az0 .a) = some (az0, .encoder)
      ∧ faultOf (t .holding fun x => { x with followTimer := some 9998000 }) (.followingFault az0) = some (az0, .following)
      ∧ faultOf (holding late) (.limitSwitchTripped az0 true) = some (az0, .limit)
      ∧ faultOf (holding late) (.amplifierFault az0) = some (az0, .amplifier)
      ∧ faultTakes .holding .limit = true ∧ faultTakes .holding .amplifier = true
      ∧ faultTakes .torqueUp .brakeRelease = true ∧ faultTakes .braking .brakeSet = true
      ∧ faultTakes .holding .following = true ∧ faultTakes .holding .encoder = true
      ∧ (∀ s ∈ [moving (holding late) el0 .slewing, put (holding late) el0 .slewing, moving (holding late) el0 .stopping,
          holding late], faultOf s (.amplifierFault az0) = some (az0, .amplifier) ∧ (s.axis az0).state = .holding
          ∧ (s.stowOf .n0).state = .unstowed ∧ s.waits az0.other = false)
      ∧ ((moving (holding late) el0 .slewing).axis el0).velocity ≠ 0
      ∧ faultOf jogging0 (.amplifierFault az0) = some (az0, .amplifier) ∧ faultTakes .jogging .amplifier = true
      ∧ (jogging0.jog .n0).isSome = true := by decide +kernel
theorem test_fault_stops_the_other_axis :
    let t := after (.amplifierFault az0) (moving (holding late) el0 .slewing)
    (t.axis el0).state = .stopping
      ∧ (t.axis el0).stop.map (fun r => (r.reason, r.target, r.velocity)) = some (.fault, .holding, 1000)
      ∧ ((after (.amplifierFault az0) jogging0).jog .n0).map Jog.failure = some (some .faulted) := by decide +kernel
theorem test_following_fault :
    let s := after (.followingFault az0) ((holding late).modAxis az0 fun x => { x with followTimer := some 9998000 })
    (s.axis az0).state = .faulted .following ∧ (s.axis el0).state = .holding := by decide +kernel
/-- An amplifier report in the field inputs takes the torque of an axis FAULTED with BRAKE_SET (R15), and a
report that has been acted on waits for DRIVE_RESET to switch (R21, R27). -/
theorem test_field_reports :
    let s := (put (busUp late) az0 (.faulted .brakeSet)).modAxisIn az0 fun io => { io with ampFault := true }
    let r := after (.encoderFaultReport az0 .a) ((holding late).modAxis az0 fun x => { x with enabledB := false })
    let u := r.modAxis az0 fun x => { x with enabledB := true }
    Instr.amplifierFault az0 ∈ s.dueAtAxis az0
      ∧ ((after (.amplifierFault az0) s).axis az0).state = .faulted .amplifier
      ∧ (r.axis az0).state = .faulted .encoder ∧ u.reportDue az0 .a = false := by decide +kernel
theorem test_limit_fault :
    let s := after (.limitSwitchTripped el0 false) (holding late)
    (s.axis el0).state = .faulted .limit ∧ (s.axisIn el0).limitLow = true := by decide +kernel

/-- Each phase of a profile and of a stop at its ends; a stop that runs out within the limits, above and below. -/
theorem witness_MotionsKeepTheirCourse :
    (peakAt 1000 60000 1500 = 1500 ∧ 1000 * 1500 ≤ 1000 * 1500 ∧ 1000 * 1500 < 1000 * 1501
        ∧ 1500 * 40000 ≤ 1000 * 60000 ∧ 1000 * 60000 < 1500 * 40001
        ∧ 1500 * 1000 * 41499 < 1000 * (60000 * 1000 + 1500 ^ 2)
        ∧ 1000 * (60000 * 1000 + 1500 ^ 2) ≤ 1500 * 1000 * 41500)
      ∧ 499 < (⟨.group, .holding, 2000, 1000, 0, 0⟩ : StopRecord).duration
      ∧ (let f := AxisRecord.factory .az
         let place (v p : Mdeg) : Mdeg :=
           let r : StopRecord := ⟨.group, .holding, 2000, v, p, 0⟩
           p + (if 0 ≤ v then 1 else -1) * ((r.motion 500).1 : Int)
         (place 1000 269750 ≤ f.softHigh ∧ f.softLow ≤ place 1000 269750) ∧ f.softHigh < place 1000 269751
          ∧ place (-1000) (-269751) < f.softLow)
      ∧ profileTime 2000 90000 3000 ≤ 41500 ∧ (1 ≤ 1 ∧ 1 < slowest 2000 90000 3000 41500)
      ∧ profileTime 1000 60000 1500 ≤ 41500 ∧ (⟨.group, .holding, 2000, 1000, 0, 0⟩ : StopRecord).duration ≤ 500
      ∧ (AxisRecord.factory .az).softLow ≤ (AxisRecord.factory .az).softHigh
      ∧ (let r : JogRamp := ⟨0, 269999, 1000, false⟩
         r.atLimit = false ∧ r.position ≠ (AxisRecord.factory .az).softHigh ∧ { r with atLimit := true }.atLimit = true
          ∧ { r with position := 270000 }.position = (AxisRecord.factory .az).softHigh)
      ∧ ((seg 0 true .active).start ≤ 500 ∧ (500 : Int) ≤ (seg 0 true .active).start + 1000)
      ∧ (0 < (seg 0 true .active).duration ∧ (seg 0 true .active).finish ≤ 1000) := by decide +kernel

/-- The three outcomes: no power, two axes of two antennas that set one time of more than 600 s, and a plan. -/
theorem test_plan_outcomes :
    let m (a : Ant) (v : Nat) : Member :=
      ⟨a, ⟨none, none⟩, ⟨AxisPlan.course 0 1000 v 3000 400, AxisPlan.course 0 1000 v 3000 300⟩⟩
    let f (i : AxisId) := AxisRecord.factory i.ax
    planGroup f [m .n3 1, m .n1 1] 9000 = .tooLong 1000100 (some ⟨.n1, .az⟩)
      ∧ ([m .n3 1, m .n1 1].map Member.ant).Nodup
      ∧ (match planGroup f [m .n3 1000] 0 with | .budget _ _ p => decide (p = 0) | _ => false) = true
      ∧ (match planGroup f [m .n3 1000] 9000 with | .success _ k _ _ _ => decide (k = 0) | _ => false) = true := by
  decide +kernel

/-- A member whose AZ goes 1000 mdeg and whose EL stays: the engine's own figures. -/
theorem witness_PlansTakeTheFirstFittingStep :
    ∀ m ∈ [(⟨.n0, ⟨some 1000, none⟩, ⟨AxisPlan.course 0 1000 2000 3000 400, AxisPlan.course 0 0 1000 1500 300⟩⟩ : Member)],
      ∀ ax, 0 < (m.plans.get ax).distance → 0 < (m.plans.get ax).v ∧ 0 < (m.plans.get ax).a
        ∧ (m.plans.get ax).tmin = some (profileTime (m.plans.get ax).a (m.plans.get ax).distance (m.plans.get ax).v) := by
  intro m hm ax
  simp only [List.mem_singleton] at hm
  subst hm
  cases ax <;> decide +kernel

/-! ### Witnesses: tracking -/

/-- The segment of a record on the wire. -/
def wire (start : Nat) (last : Bool) : SegmentRecord := ⟨start, 1000, false, last, 100, 45000⟩
def wireBody : List Byte := 1 :: (wire 10000200 true).bytes

theorem witness_BurstOpensOnTheChannel :
    (holding late).admits (.burstOpen 1 0 (some ⟨0, 45000⟩)) = true ∧ ((holding late).track .n0).live = []
      ∧ (queue0 (holding late) [seg 10100000 false .queued] .waiting).admits (.burstOpen 1 0 none) = true
      ∧ ((queue0 (holding late) [seg 10100000 false .queued] .waiting).track .n0).live.getLast?.isSome = true := by
  decide +kernel

/-- A segment of no duration is malformed. -/
def badBody : List Byte := 1 :: { wire 10000200 true with duration := 0 }.bytes

/-- An open channel, with good and malformed frames; a closed one with and without a termination record. -/
theorem witness_BurstDataStagesInOrder :
    (burst0 late).takes .operations .burstData 1 (fun b => decide (b = wireBody))
      ∧ bodyLengthFits .burstData wireBody = true ∧ (∀ r ∈ burstRecords wireBody, (segmentOf r).formed = true)
      ∧ (burstRecords wireBody).length = 1 ∧ (burst0 late).burst.tail.isSome = true
      ∧ (burst0 late).burst.ant = some .n0 ∧ burstRecords [0] = [] ∧ burstRecords badBody ≠ []
      ∧ (∃ r ∈ burstRecords badBody, (segmentOf r).formed = false)
      ∧ (∀ k ∈ [Kind.burstData, .burstClose, .burstAbort], late.takes .operations k 1
          (fun b => if k = .burstData then decide (b = wireBody) else bodyLengthFits k b))
      ∧ late.burst.ant = none := by
  unfold State.takes
  decide +kernel
/-- A good record, and one that starts 10 ms late behind it: CONTIGUITY at index 1 (R53, R55). -/
def gapBody : List Byte := 2 :: (wire 10000200 false).bytes ++ (wire 10001210 true).bytes
theorem witness_BurstDataStagesInOrder_error :
    (burst0 late).takes .operations .burstData 1 (fun b => decide (b = gapBody))
      ∧ (burst0 late).burst.ant = some .n0
      ∧ bodyLengthFits .burstData gapBody = true ∧ (∀ r ∈ burstRecords gapBody, (segmentOf r).formed = true)
      ∧ (burstRecords gapBody).length = 2 ∧ (burst0 late).burst.firstError = none
      ∧ (burst0 late).burst.tail.isSome = true := by
  unfold State.takes
  decide +kernel
/-- A run whose completed segment leaves 24 slots free, and one that leaves 23, after PAUSED was answered (R56). -/
def paused0 (n : Nat) : State :=
  (put (queue0 (busUp late) (seg 9999000 false .active :: List.replicate n (seg 10000000 false .staged)) .running)
    az0 .tracking).modTrack .n0 fun v => { v with pauseReported := true }
theorem witness_BurstDataStagesInOrder_pause :
    ∀ n ∈ [40, 41], (∃ t, exec (.segmentComplete .n0) (paused0 n) = .next t)
      ∧ ((paused0 n).track .n0).pauseReported = true
      ∧ ((after (.segmentComplete .n0) (paused0 n)).track .n0).segments.length < ((paused0 n).track .n0).segments.length := by
  intro n hn
  refine ⟨⟨_, rfl⟩, ?_, ?_⟩ <;> revert n <;> decide +kernel
theorem test_pause_ends_at_24 :
    let t := after (.segmentComplete .n0) (paused0 40)
    (t.track .n0).pauseReported = false ∧ (t.link .operations).flags &&& antFlag .track .n0 = antFlag .track .n0
      ∧ ((after (.segmentComplete .n0) (paused0 41)).track .n0).pauseReported = true := by decide +kernel
theorem test_burstData_first_error :
    let s := after (.burstData 1 gapBody) (burst0 late)
    (s.track .n0).segments.length = 1 ∧ s.burst.received = 2 ∧ s.burst.firstError = some (1, .contiguity) := by
  decide +kernel
theorem test_burstData_malformed :
    let t := after (.burstData 1 badBody) (burst0 late)
    (t.track .n0).segments = [] ∧ t.burst.received = 0
      ∧ (t.link .operations).reply.map Reply.status = some .range := by decide +kernel
theorem test_burstData_stages :
    let s := after (.burstData 1 wireBody) (burst0 late)
    (s.track .n0).segments = [⟨10000200, 1000, ⟨0, 45000⟩, ⟨100, 45000⟩, true, .staged⟩]
      ∧ s.burst.received = 1 ∧ s.burst.firstError = none := by decide +kernel

/-- A good close onto an IDLE queue that is 2001 ms, 2000 ms and 1 ms away, and a bad one. -/
theorem witness_BurstsCloseAndAbortInOrder :
    let s (e : Epoch) := queue0 (burst0 late) [seg e true .staged] .idle
    (s 10002001).takes .operations .burstClose 1 ∧ (s 10002001).burst.ant = some .n0
      ∧ ((s 10002001).burst.firstError = none ∧ 0 = (s 10002001).burst.received)
      ∧ (s 10002001).now + 2000 < 10002001 ∧ (10002000 : Int) ≤ (s 10002000).now + 2000
      ∧ (s 10000001).now < 10000001 ∧ (s 10000001).anyFaulted .n0 = false ∧ 1 ≠ (s 10000001).burst.received :=
  ⟨by unfold State.takes; decide +kernel, rfl, ⟨rfl, rfl⟩, by decide +kernel, by decide +kernel, by decide +kernel,
    by decide +kernel, by decide +kernel⟩
theorem test_close_commits :
    let s := queue0 (burst0 late) [seg 10002001 true .staged] .idle
    let t := after (.burstClose 1 0 (crc32Value s.burst.crc)) s
    (t.track .n0).run = .waiting ∧ (t.track .n0).segments = [seg 10002001 true .queued] := by decide +kernel
theorem test_close_refuses_count :
    let s := queue0 (burst0 late) [seg 10002001 true .staged] .idle
    ((after (.burstClose 1 1 0) s).track .n0).segments = [] := by decide +kernel

theorem witness_BurstsCloseAndAbortInOrder_abort :
    (burst0 late).takes .operations .burstAbort 1 ∧ (burst0 late).burst.ant = some .n0
      ∧ late.burst.ant = none ∧ late.burst.termination = none :=
  ⟨by unfold State.takes; decide +kernel, rfl, rfl, rfl⟩

/-- A queue with a tracking axis to clear; a burst silent for exactly 5 s; a queue exactly 2 s before its start,
with an axis FAULTED and not; at its start; and 100 ms after it. -/
theorem witness_QueuesPrepareOrHalt :
    let track := moving (queue0 (busUp late) [seg 9999900 true .active] .running) az0 .tracking
    let wait := queue0 (holding late) [seg 10002000 true .queued] .waiting
    track.admits (.trackClear 1 0) = true ∧ (track.axis az0).state = .tracking ∧ (track.axis az0).velocity ≠ 0
      ∧ (track.track .n0).empty = false ∧ track.waits az0 = false
      ∧ ((burst0 late).burst.ant = some .n0 ∧ (9995000 : Int) + 5000 ≤ late.now)
      ∧ ((wait.track .n0).firstStart = some 10002000 ∧ (10002000 : Int) ≤ wait.now + 2000 ∧ wait.anyFaulted .n0 = false)
      ∧ ((put wait az0 (.faulted .limit)).faultedAxis .n0).isSome = true
      ∧ ((queue0 late [seg 10000000 true .queued] .preparing).track .n0).firstStart = some 10000000
      ∧ (9999900 : Int) + 100 ≤ late.now := by decide +kernel
theorem test_queue_late :
    let t := after (.queueLate .n0) (queue0 (holding late) [seg 9999900 true .queued] .starting)
    (t.track .n0).haltReason = some .late ∧ (t.track .n0).abandoned = 1 ∧ (t.track .n0).segments = [] := by
  decide +kernel

/-- A run that starts at once, one whose raises stand, one that fails its capture, and one outside the limits. -/
theorem witness_RunsStartOnTheirSegment :
    let s := queue0 (holding late) [seg 10000000 true .queued] .starting
    let far := (holding late).modAxis az0 fun x => { x with position := 201 }
    let out := queue0 (holding late) [{ seg 10000000 true .queued with endPos := ⟨300000, 45000⟩ }] .starting
    s.powered = true ∧ (s.runStarts .n0).isSome = true ∧ (s.track .n0).raises = ⟨.none, .none⟩
      ∧ s.activates .n0 (seg 10000000 true .queued) = true ∧ s.captures .n0 (seg 10000000 true .queued) = true
      ∧ s.scratch.freed = false ∧ s.feed.queue = [] ∧ s.feed.shed.classes = none
      ∧ ((s.trackingFigure az0 - (s.axis az0).record.hold : Nat) : Int)
        + (s.trackingFigure el0 - (s.axis el0).record.hold : Nat) ≤ s.freeRoom
      ∧ (queue0 far [seg 10000000 true .queued] .starting).captures .n0 (seg 10000000 true .queued) = false
      ∧ ((queue0 far [seg 10000000 true .queued] .starting).runStarts .n0).isSome = true
      ∧ (out.runStarts .n0).isSome = true
      ∧ out.activates .n0 { seg 10000000 true .queued with endPos := ⟨300000, 45000⟩ } = false
      ∧ s.waits az0 = false ∧ s.waits el0 = false := by decide +kernel
/-- Off the servo step the raises are only asked; a late start at a servo step passes a segment of 100 ms. -/
theorem witness_RunsStartOnTheirSegment_late :
    let s := { queue0 (holding late) [seg 9999999 true .queued] .starting with clock := ⟨10000001, true⟩ }
    let first := { seg 9999900 false .queued with duration := 100 }
    let next : Segment := ⟨10000000, 1000, ⟨100, 45000⟩, ⟨200, 45000⟩, true, .queued⟩
    let p := queue0 (holding late) [first, next] .starting
    (s.runStarts .n0).isSome = true ∧ (s.now - s.pace.servo) % 10 ≠ 0 ∧ (s.stowOf .n0).state ≠ .stopping
      ∧ (p.runStarts .n0).isSome = true ∧ (p.now - p.pace.servo) % 10 = 0 ∧ first.finish ≤ p.now
      ∧ p.activates .n0 first = true ∧ p.captures .n0 first = true
      ∧ p.now < next.finish ∧ p.activates .n0 next = true
      ∧ ((p.modTrack .n0 fun v => { v with raises := ⟨.granted, .granted⟩ }).runStarts .n0).isSome = true := by
  decide +kernel
theorem test_run_asks_off_the_servo_step :
    let s := { queue0 (holding late) [seg 9999999 true .queued] .starting with clock := ⟨10000001, true⟩ }
    let t := after (.queueRunStart .n0) s
    (t.track .n0).run = .starting ∧ (t.track .n0).raises = ⟨.granted, .granted⟩ ∧ (t.axis az0).state = .holding := by
  decide +kernel
theorem test_run_starts :
    let t := after (.queueRunStart .n0) (queue0 (holding late) [seg 10000000 true .queued] .starting)
    (t.track .n0).run = .running ∧ (t.axis az0).state = .tracking ∧ (t.axis el0).state = .tracking := by decide +kernel

/-- A run that can start in the millisecond at which S + 100 passes, and a queue that is no longer STARTING. -/
theorem witness_QueuesPrepareOrHalt_late :
    let s := queue0 (holding late) [seg 9999901 true .queued] .starting
    s.powered = true ∧ s.pending = [] ∧ (s.track .n0).firstStart = some 9999901 ∧ (s.track .n0).run = .starting
      ∧ s.advance.now = 9999901 + 100 ∧ (s.advance.runStarts .n0).isSome = true
      ∧ ((queue0 s [seg 9999901 true .queued] .running).track .n0).firstStart = some 9999901
      ∧ ((queue0 s [seg 9999901 true .queued] .running).track .n0).run ≠ .starting := by decide +kernel
/-- At S + 100, a servo step: the start leaves nothing for LATE to halt. -/
theorem test_start_before_late :
    let s := queue0 (holding late) [seg 9999900 true .queued] .starting
    let t := after (.queueLate .n0) (after (.queueRunStart .n0) s)
    (t.track .n0).run = .running ∧ (t.track .n0).halted = false := by decide +kernel

/-- The four ways a completed segment can go on, each at its end epoch. -/
theorem witness_SegmentsCompleteInTurn :
    let s (last : Bool) (rest : List Segment) :=
      put (queue0 (busUp late) (seg 9999000 last .active :: rest) .running) az0 .tracking
    let next : Segment := ⟨10000000, 1000, ⟨100, 45000⟩, ⟨200, 45000⟩, true, .queued⟩
    ((s true []).segmentDue .n0).isSome = true ∧ (s true []).atServo = true ∧ (s false [next]).atServo = true
      ∧ ((s true []).axis az0).state = .tracking
      ∧ (s true []).waits az0 = false ∧ ((s true []).stowOf .n0).state ≠ .stopping
      ∧ ((s false [next]).segmentDue .n0).isSome = true ∧ (s false [next]).now < next.finish
      ∧ (s false [next]).activates .n0 next = true
      ∧ (s false [next]).activates .n0 { next with endPos := ⟨300000, 45000⟩ } = false
      ∧ ((s false []).segmentDue .n0).isSome = true
      ∧ ((seg 9999000 false .active).eval .az (seg 9999000 false .active).finish).2 ≠ 0 := by decide +kernel
theorem test_underrun :
    let t := after (.segmentComplete .n0) (put (queue0 (busUp late) [seg 9999000 false .active] .running) az0 .tracking)
    (t.axis az0).state = .stopping ∧ (t.track .n0).underruns = 1 := by decide +kernel

/-! ### Witnesses: joint slew groups -/

theorem witness_GroupsArePlannedAndCancelled :
    let run := moving (group0 (busUp late) .running (some 9999900)) az0 .slewing
    (proposedMembers [⟨0, some 1000, none⟩]).isSome = true
      ∧ (holding late).admits (.groupPlan 1 3 [⟨0, some 1000, none⟩]) = true
      ∧ (group0 late .planned none).admits (.groupCancel 1 0) = true
      ∧ run.admits (.groupCancel 1 0) = true ∧ az0 ∈ (run.groups.get .g0).axes ∧ (run.axis az0).state = .slewing
      ∧ (run.axis az0).velocity ≠ 0 ∧ run.waits az0 = false
      ∧ late.admits (.groupRead 1 3 0) = true := by decide +kernel
theorem test_plan :
    let t := after (.groupPlan 1 3 [⟨0, some 9000, none⟩]) (holding late)
    (t.groups.get .g3).state = .planned ∧ (t.groups.get .g3).members.map Member.ant = [.n0]
      ∧ (t.groups.get .g3).members.map Member.targets = [⟨some 9000, none⟩] := by decide +kernel

/-- Ready to start; 2 s after the start epoch; settled for 1 s; and 10 s past the group's time. -/
theorem witness_GroupsArmStartAndFinish :
    let planned := group0 (holding late) .planned none
    let armed := group0 (holding late) .armed (some 10000000)
    let settled := (group0 (holding late) .running (some 9990000)).modGroup .g0 fun v => { v with settleTimer := some 9999000 }
    planned.admits (.groupArm 1 0 10005000) = true ∧ planned.anyFaulted .n0 = false ∧ .n0 ∈ (planned.groups.get .g0).ants
      ∧ armed.groupStarts .g0 = true ∧ armed.atServo = true ∧ { armed with clock := ⟨10000001, true⟩ }.atServo = false ∧ (armed.groups.get .g0).ants.Nodup ∧ armed.waits az0 = false
      ∧ ((armed.groups.get .g0).plans.head?.any fun p => decide (p.1 = az0) && p.2.moves) = true
      ∧ (9998000 : Int) + 2000 ≤ late.now ∧ (group0 late .armed (some 9998000)).groups.g0.state = .armed
      ∧ (settled.groups.get .g0).state = .running ∧ (9999000 : Int) + 1000 ≤ settled.now
      ∧ ((9988500 : Int) + (((group0 late .running (some 9988500)).groups.get .g0).tg + 10000) ≤ late.now) := by
  decide +kernel
theorem test_group_starts :
    let t := after (.groupStart .g0) (group0 (holding late) .armed (some 10000000))
    (t.axis az0).state = .slewing ∧ (t.axis el0).state = .holding ∧ (t.groups.get .g0).state = .running := by decide +kernel
theorem test_group_not_ready :
    let t := after (.groupStartGraceExpiry .g0) (group0 late .armed (some 9998000))
    (t.groups.get .g0).haltReason = some .notReady ∧ (t.groups.get .g0).causing = some (.n0, some .az) := by decide +kernel

/-! ### Witnesses: lockouts and local control -/

def azCover : CoverSet := ⟨true, false, false⟩

/-- Each sender; a new entry, and a merge; an axis that holds under new cover. -/
theorem witness_PlacementsLockAtOnce :
    let again := after (.replySent .operations) (after (.holdPlace 1 0 azCover (some 1)) late)
    (operationsPlacement 0 azCover (some 1)).isSome = true ∧ (holding late).admits (.holdPlace 1 0 azCover (some 1)) = true
      ∧ (lockPlacement (.pendant .n0 7) azCover none).isSome = true
      ∧ late.admits (.lockPlace 1 (.pendant .n0 7) azCover none) = true
      ∧ (lockPlacement (.safety .station) azCover none).isSome = true
      ∧ late.admits (.lockPlace 1 (.safety .station) azCover none) = true
      ∧ again.admits (.holdPlace 1 0 ⟨false, true, true⟩ none) = true
      ∧ (after (.holdPlace 1 0 azCover (some 1)) (holding late)).axisCovered az0 = true
      ∧ (holding late).axisCovered az0 = false ∧ ((holding late).axis az0).ready = true
      ∧ (let go := moving (busUp late) az0 .slewing
         let still := put (busUp late) az0 .tracking
         let stop := (moving (busUp late) az0 .stopping).modAxis az0 fun x =>
           { x with stop := some ⟨.group, .holding, 2000, 1000, 0, 9999900⟩ }
         (∀ s ∈ [go, still, stop], s.admits (.holdPlace 1 0 azCover (some 1)) = true ∧ s.axisCovered az0 = false)
          ∧ (go.axis az0).velocity ≠ 0 ∧ go.bound .n0 = false ∧ (still.axis az0).velocity = 0
          ∧ (stop.axis az0).stop.isSome = true) := by decide +kernel
/-- An axis that another entry covers already is new cover of a new entry; every other axis is off. -/
theorem witness_PlacementsLockAtOnce_second :
    let s := put (lock0 (group0 late .planned none) .operations .operations none) az0 .braked
    s.admits (.lockPlace 1 (.safety .station) azCover none) = true ∧ s.axisCovered az0 = true
      ∧ (s.axis az0).claims.any = false ∧ (s.stowOf .n0).state ≠ .waiting := by decide +kernel
theorem test_second_entry_halts_the_group :
    let s := lock0 (group0 late .planned none) .operations .operations none
    let t := after (.lockPlace 1 (.safety .station) azCover none) s
    (t.groups.get .g0).state = .halted ∧ (t.groups.get .g0).haltReason = some .lockout := by decide +kernel
theorem test_lock_brakes :
    let t := after (.lockPlace 1 (.safety .station) azCover none) (holding late)
    (t.axis az0).state = .braking ∧ (t.axis el0).state = .holding ∧ (t.locks.slot 0).isSome = true := by decide +kernel
theorem test_lock_stops :
    let stop := (moving (busUp late) az0 .stopping).modAxis az0 fun x =>
      { x with stop := some ⟨.group, .holding, 2000, 1000, 0, 9999900⟩ }
    let t := after (.lockPlace 1 (.safety .station) azCover none) (moving (busUp late) az0 .slewing)
    (t.axis az0).stop.map (fun r => (r.reason, r.target)) = some (.lockout, .braked)
      ∧ (((after (.holdPlace 1 0 azCover (some 1)) stop).axis az0).stop.map fun r => (r.reason, r.target))
        = some (.group, .braked) := by decide +kernel
theorem test_hold_then_heat :
    let t := after (.holdPlace 1 0 ⟨false, false, true⟩ none) late
    t.lockCap ⟨.n0, .gear⟩ = some 0 ∧ t.lockCap ⟨.n1, .gear⟩ = none := by decide +kernel

/-- New cover on AZ meets a member of a wave of two, an antenna that drives, one that warms its pin, and one STOPPING;
EL holds, slews at a speed and at none, stops, and waits for its release. -/
theorem witness_PlacementsLockAtOnce_stow :
    let two := (wave0 45000).setWave ((wave0 45000).stow.wave.map fun w =>
      { w with members := w.members ++ [⟨.n1, 45000, 45000, 0, true, 1000, none, none, 0⟩] })
    let drive := stowed0 (moving (wave0 45000) el0 .slewing) .driving none
    let stop := (moving (wave0 45000) el0 .stopping).modAxis el0 fun x =>
      { x with stop := some ⟨.fault, .holding, 1000, 1000, 45000, 9999900⟩ }
    (∀ s ∈ [two, drive, stowed0 (put drive el0 .slewing) .pinWarming none, stop, stowed0 stop .stopping none],
        s.admits (.holdPlace 1 0 azCover none) = true)
      ∧ (two.stowOf .n0).state.meetsCover = true ∧ (two.stowOf .n0).member = true
      ∧ (two.stow.wave.any fun w => w.members.any fun m => decide (m.ant ≠ .n0)) = true
      ∧ (two.axis el0).ready = true ∧ (drive.stowOf .n0).state.meetsCover = true ∧ (drive.axis el0).velocity ≠ 0
      ∧ drive.bound .n0 = false ∧ (put (wave0 45000) el0 .slewing |>.axis el0).velocity = 0
      ∧ (stop.axis el0).stop.isSome = true ∧ ((stowed0 stop .stopping none).stowOf .n0).state = .stopping
      ∧ (((wave0 45000).modAxis el0 fun x => { x with releaseCheck := some 0 }).axis el0).releaseCheck.isSome = true := by
  decide +kernel
theorem test_cover_ends_a_stow :
    let place := after (.holdPlace 1 0 azCover none)
    let drive := place (stowed0 (moving (wave0 45000) el0 .slewing) .driving none)
    let wait := place (wave0 45000)
    let warm := place (stowed0 (wave0 45000) .pinWarming (some 9999000))
    (wait.stowOf .n0).state = .blocked ∧ (wait.stowOf .n0).member = false ∧ wait.stow.wave = none
      ∧ wait.feed.waves.get .n0 = none
      ∧ (drive.stowOf .n0).state = .blocked ∧ (drive.axis el0).stop.map (fun r => (r.reason, r.target)) = some (.blocked, .braked)
      ∧ (drive.feed.waves.get .n0).isSome = true
      ∧ (warm.stowOf .n0).state = .pinWarming ∧ (warm.axis el0).state = .braking ∧ warm.feed.waves.get .n0 = none := by
  decide +kernel

/-- Each removal, and an antenna that was BLOCKED under the demand. -/
theorem witness_RemovalsFreeTheSlot :
    let b := { stowed0 (lock0 late .personnel (.pendant .n0) (some 7)) .blocked none with
      wind := { late.wind with safety := true } }
    (lock0 late .operations .operations none).admits (.holdRemove 1 0 0) = true
      ∧ (lock0 late .personnel (.pendant .n0) (some 7)).admits (.lockRemove 1 (.pendant .n0 7) 0) = true
      ∧ (lock0 late .safety .safety none).admits (.lockRemove 1 (.safety (.antenna 0)) 0) = true
      ∧ b.admits (.forceRemove 1 0 (.antenna 0)) = true ∧ b.wind.active = true
      ∧ (b.stowOf .n0).state = .blocked ∧ (after (.forceRemove 1 0 (.antenna 0)) b).covered .n0 = false := by decide +kernel
theorem test_forceRemove :
    let t := after (.forceRemove 1 0 (.antenna 0)) (lock0 late .personnel (.pendant .n0) (some 7))
    (t.locks.slot 0) = none ∧ (t.locks.horns.get .n0).forceTimer = some 10000000
      ∧ (t.locks.horns.get .n0).pattern = .forceRemoval := by decide +kernel

theorem witness_LocalControlComesAndGoes :
    let q := queue0 late [seg 10100000 true .queued] .waiting
    q.admits (.localClaim 1 .n0) = true ∧ q.remote .n0 = true ∧ (q.track .n0).empty = false
      ∧ (local0 late).admits (.localClaim 1 .n0) = true ∧ (local0 late).remote .n0 = false
      ∧ jogging0.admits (.localRelease 1 .n0) = true ∧ jogging0.remote .n0 = false
      ∧ ((jogging0.modLink (.pendant .n0) fun l => { l with silence := some 9990000 }).link (.pendant .n0)).silence
        = some 9990000 ∧ (9990000 : Int) + 10000 ≤ jogging0.now
      ∧ (jogging0.axis az0).state = .jogging ∧ (jogging0.axis az0).velocity ≠ 0 ∧ jogging0.waits az0 = false
      ∧ ((late.modHorn .n0 fun h => { h with forceTimer := some 9995000 }).locks.horns.get .n0).forceTimer = some 9995000
      ∧ (9995000 : Int) + 5000 ≤ late.now
      ∧ ((late.modStow .n0 fun r => { r with warningTimer := some 9990000 }).stowOf .n0).warningTimer = some 9990000
      ∧ (9990000 : Int) + 10000 ≤ late.now := by decide +kernel
theorem test_claim_halts_the_queue :
    let t := after (.localClaim 1 .n0) (queue0 late [seg 10100000 true .queued] .waiting)
    (t.track .n0).haltReason = some .local_ ∧ t.remote .n0 = false := by decide +kernel
theorem test_release_stops_the_jog :
    let t := after (.localRelease 1 .n0) jogging0
    (t.axis az0).state = .stopping ∧ t.jog .n0 = none := by decide +kernel

/-- A jog begun on a ready axis with room, one begun on an axis that is down, one kept alive, and one silent for
exactly 600 ms. -/
theorem witness_JogsLiveWhileHeld :
    let s := local0 (holding late)
    s.admits (.jog 1 .n0 (some .az) (some .plus) 501) = true ∧ s.jog .n0 = none ∧ (s.axis az0).ready = true
      ∧ s.ready .n0 = true ∧ s.feed.queue = [] ∧ s.feed.shed.classes = none
      ∧ ((s.jogFigure az0 - (s.axis az0).record.hold : Nat) : Int) ≤ s.freeRoom
      ∧ (let d := put (local0 (busUp late)) az0 .braking
         d.admits (.jog 1 .n0 (some .az) (some .minus) 100) = true ∧ (d.axis az0).state ≠ .braked
          ∧ (d.stowOf .n0).state = .unstowed ∧ d.waits az0 = false ∧ (d.axis az0).ready = false)
      ∧ jogging0.admits (.jog 1 .n0 (some .az) (some .plus) 100) = true
      ∧ (9999400 : Int) + 600 ≤ jogging0.now := by decide +kernel
theorem test_jog_clamped :
    let t := after (.jog 1 .n0 (some .az) (some .plus) 501) (local0 (holding late))
    (t.axis az0).state = .jogging ∧ (t.jog .n0).map Jog.speed = some 500
      ∧ (t.link (.pendant .n0)).reply.map Reply.status = some .clamped := by decide +kernel
theorem test_deadman :
    let t := after (.jogDeadman .n0) jogging0
    (t.axis az0).state = .stopping ∧ t.jog .n0 = none ∧ t.remote .n0 = false := by decide +kernel

/-! ### Witnesses: wind and stow -/

/-- The 300th equal reading, the 30th disagreement, a rise and a fall. -/
theorem witness_WindSamplesJudgeTheChannels :
    let w := State.reset.wind
    let st := { late with wind := { w with ch1 := ⟨some 40, .healthy, 299⟩, ch2 := ⟨some 50, .healthy, 7⟩ } }
    let di := { late with wind := { w with disagreeCount := 29 } }
    let up := { late with wind := { w with window := [100, 100, 100], riseBreezy := 1 } }
    let dn := { late with wind := { w with cls := .breezy, window := [10, 10, 10], fall := 1199 } }
    st.becomesStuck .one 40 51 = true ∧ di.becomesMarked 10 61 = true ∧ up.classRises 100 100 = true
      ∧ dn.classFalls 10 10 = true := by decide +kernel
theorem test_stuck_at_300 :
    let s := { late with wind := { State.reset.wind with ch1 := ⟨some 40, .healthy, 299⟩, ch2 := ⟨some 50, .healthy, 7⟩ } }
    (after (.windSample 40 51) s).wind.ch1.health = .stuck ∧ (after (.windSample 41 51) s).wind.ch1.health = .healthy
      ∧ (after (.windSample 801 51) s).wind.ch1.health = .range := by decide +kernel

theorem test_gust_and_mean :
    let s := { late with wind := { State.reset.wind with window := [90, 40, 30, 21] } }
    (after (.windSample 20 20) s).wind.gust = some 30 ∧ (after (.windSample 20 20) s).wind.mean = some 40 := by
  decide +kernel

/-- A rise at the filter's last sample and at the one before it (the filter set to 2), and the hold-down's last. -/
def gusty0 (count : Nat) : State :=
  { late with wind := { State.reset.wind with
      record := { State.reset.wind.record with filter := 2 }, window := [100, 100, 100], riseBreezy := count } }
theorem test_class_rises :
    (after (.windSample 100 100) (gusty0 1)).wind.cls = .breezy
      ∧ (after (.windSample 100 100) (gusty0 0)).wind.cls = .calm
      ∧ (after (.windSample 100 100) (gusty0 0)).wind.riseBreezy = 1 := by decide +kernel
theorem witness_WindClassRisesAndFalls_rise :
    (gusty0 1).powered = true ∧ (gusty0 0).powered = true ∧ (gusty0 0).wind.record.filter = 2
      ∧ (gusty0 0).wind.cls = .calm ∧ (gusty0 0).wind.record.breezy.gust ≤ 100 := by decide
theorem witness_WindClassRisesAndFalls :
    ({ late with wind := { State.reset.wind with cls := .breezy, fall := 1199 } }).powered = true
      ∧ ({ late with wind := { State.reset.wind with cls := .breezy, fall := 1199 } }).wind.record.holdDown = 1200 := ⟨rfl, rfl⟩
/-- The thresholds in force are those of the last sample: an ice change shows at the next (R118, R138). -/
theorem test_thresholds_in_force :
    let s := late.modIce .n0 fun i => { i with floor := .heavy }
    (s.windView .safety).thresholds.ice = .none ∧ s.stationIce = .heavy
      ∧ ((after (.windSample 10 10) s).windView .safety).thresholds.stow.gust = s.wind.record.stow.gust - 40 := by
  decide +kernel
theorem test_class_falls :
    let s := { late with wind := { State.reset.wind with cls := .breezy, window := [10, 10, 10], fall := 1199 } }
    (after (.windSample 10 10) s).wind.cls = .calm
      ∧ (after (.windSample 10 10) { s with wind := { s.wind with fall := 1198 } }).wind.cls = .breezy := by decide +kernel

theorem witness_DemandTakesEveryAntenna :
    let s := stowed0 (holding late) .pinWithdrawing none
    s.wind.active = false ∧ (after (.stowDemandOn 1) s).wind.active = true
      ∧ (s.stowOf .n1).state = .unstowed ∧ (s.stowOf .n0).state = .pinWithdrawing := by decide +kernel
/-- Each way a taken antenna can stand: moving, with and without cover; ready under cover; at rest; and BLOCKED or
DRIVE_FAILED already, with the cover and the fault standing and gone. -/
theorem witness_DemandTakesEveryAntenna_taken :
    let go := moving (holding late) az0 .slewing
    let states := [go, lock0 go .safety .safety none, lock0 (holding late) .safety .safety none,
      stowed0 late .blocked none, stowed0 (lock0 late .safety .safety none) .blocked none, stowed0 late .driveFailed none,
      stowed0 (put late az0 (.faulted .limit)) .driveFailed none]
    (∀ s ∈ states, s.wind.active = false ∧ (after (.stowDemandOn 1) s).wind.active = true)
      ∧ (go.axis az0).velocity ≠ 0 ∧ go.waits az0 = false ∧ (go.track .n0).empty = true ∧ go.bound .n0 = false
      ∧ (lock0 go .safety .safety none).covered .n0 = true ∧ (go.axis el0).ready = true
      ∧ (put late az0 (.faulted .limit)).anyFaulted .n0 = true := by decide +kernel
theorem test_taken_antennas :
    let go := moving (holding late) az0 .slewing
    let st (s : State) := ((after (.stowDemandOn 1) s).stowOf .n0).state
    let stop (s : State) := (((after (.stowDemandOn 1) s).axis az0).stop.map fun r => (r.reason, r.target))
    [st go, st (lock0 late .safety .safety none), st late, st (stowed0 late .blocked none),
        st (stowed0 (put late az0 (.faulted .limit)) .driveFailed none)]
        = [.stopping, .blocked, .waiting, .waiting, .driveFailed]
      ∧ stop go = some (.stow, .holding) ∧ stop (lock0 go .safety .safety none) = some (.blocked, .braked) := by
  decide +kernel
/-- A STOPPING antenna that moves, and the commands that leave it moving and bring it to rest. -/
theorem witness_DemandTakesEveryAntenna_rest :
    let s := (stowed0 (moving late az0 .stopping) .stopping none).modAxis az0 fun x =>
      { x with stop := some ⟨.stow, .braked, 2000, 1000, 0, 9999000⟩ }
    (s.stowOf .n0).state = .stopping ∧ s.moving .n0 = true ∧ Instr.stopEnd az0 ≠ .powerOn
      ∧ (∃ t, exec (.stopEnd az0) s = .next t) ∧ ∃ t, exec (.limitSwitchTripped az0 true) s = .next t :=
  ⟨by decide +kernel, by decide +kernel, by decide, ⟨_, rfl⟩, ⟨_, rfl⟩⟩
theorem test_stopping_comes_to_rest :
    let s := (stowed0 (moving late az0 .stopping) .stopping none).modAxis az0 fun x =>
      { x with stop := some ⟨.stow, .braked, 2000, 1000, 0, 9999000⟩ }
    ((after (.stopEnd az0) s).stowOf .n0).state = .waiting
      ∧ ((after (.stopEnd az0) (lock0 s .safety .safety none)).stowOf .n0).state = .blocked
      ∧ ((after (.limitSwitchTripped az0 true) s).stowOf .n0).state = .driveFailed := by decide +kernel
/-- EL still moves, and AZ is FAULTED(BRAKE_SET) with its torque on: a second fault of AZ is taken (R25, R127). -/
def brakeSet0 : State :=
  (stowed0 (moving (put (busUp late) az0 (.faulted .brakeSet)) el0 .stopping) .stopping none).modAxis el0 fun x =>
    { x with stop := some ⟨.stow, .braked, 1000, 1000, 45000, 9999000⟩ }
theorem witness_DemandTakesEveryAntenna_brakeSet :
    (brakeSet0.stowOf .n0).state = .stopping ∧ brakeSet0.moving .n0 = true
      ∧ (brakeSet0.axis az0).state = .faulted .brakeSet ∧ (∀ tag n, Instr.amplifierFault az0 ≠ .driveReset tag n)
      ∧ (∃ t, exec (.amplifierFault az0) brakeSet0 = .next t) ∧ Instr.amplifierFault az0 ≠ .powerOn :=
  ⟨by decide +kernel, by decide +kernel, by decide +kernel, (by intro _ _ h; cases h), ⟨_, rfl⟩, by decide⟩
theorem test_second_fault_ends_the_stop :
    ((after (.amplifierFault az0) brakeSet0).axis az0).state = .faulted .amplifier
      ∧ ((after (.amplifierFault az0) brakeSet0).stowOf .n0).state = .driveFailed := by decide +kernel
theorem test_demand_takes :
    let t := after (.stowDemandOn 1) (local0 (holding late))
    (t.stowOf .n0).state ≠ .unstowed ∧ t.remote .n0 = true := by decide +kernel

theorem witness_SourcesMakeTheDemand :
    let f : WindFigures := ⟨⟨0, 900⟩, ⟨120, 900⟩, ⟨180, 900⟩, 8, 299, 121, [5, 4, 3, 2, 1, 0], 90001⟩
    late.admits (.stowDemandOn 1) = true ∧ late.admits (.stowDemandOff 1) = true ∧ late.wind.silence = false
      ∧ ((late.link .safety).silence = some 0 ∧ (0 : Int) + late.wind.record.silence * 1000 ≤ late.now)
      ∧ late.admits (.configWriteWind 1 f) = true := by decide +kernel
theorem test_silence_then_frame :
    let t := after .safetySilence late
    t.wind.silence = true ∧ (t.stowOf .n5).state ≠ .unstowed
      ∧ (after (.stowDemandOff 1) t).wind.silence = false := by decide +kernel

theorem witness_SafetyReleasesAndStops :
    let s := stowed0 late .stowed none
    let track := moving (queue0 (busUp late) [seg 9999900 true .active] .running) az0 .tracking
    s.admits (.stowRelease 1) = true ∧ (s.stowOf .n0).state = .stowed ∧ track.admits (.allStop 1) = true
      ∧ (track.track .n0).empty = false ∧ track.takesAllStop az0 = true ∧ (track.axis az0).velocity ≠ 0
      ∧ track.waits az0 = false ∧ (group0 track .running (some 0)).admits (.allStop 1) = true
      ∧ ((group0 track .running (some 0)).groups.get .g0).binds = true := by decide +kernel
theorem test_release_withdraws :
    let s := stowed0 (late.modAntIn .n0 fun v => { v with pinIn := true, pinOut := false }) .stowed none
    ((after (.stowRelease 1) s).stowOf .n0).state = .pinWithdrawing := by decide +kernel
theorem test_allStop :
    let t := after (.allStop 1) (moving (queue0 (busUp late) [seg 9999900 true .active] .running) az0 .tracking)
    (t.axis az0).state = .stopping ∧ (t.track .n0).haltReason = some .allStop := by decide +kernel

theorem witness_WavesStartAndPinsMove :
    (wave0 45000).atServo = true ∧ (wave0 45000).waveReady.isSome = true ∧ (wave0 0).waveReady.isSome = true
      ∧ ((wave0 45000).stow.wave.all fun w => w.members.all (wave0 45000).linePasses) = true
      ∧ (wave0 45000).waits el0 = false
      ∧ ((stowed0 late .pinWarming (some 9400000)).stowOf .n0).warmingTimer = some 9400000
      ∧ (9400000 : Int) + 600000 ≤ late.now
      ∧ ((stowed0 (holding late) .pinInserting (some 9980000)).axis el0).ready = true
      ∧ ((stowed0 (holding late) .pinInserting (some 9980000)).stowOf .n0).pinTimer = some 9980000
      ∧ (9980000 : Int) + 20000 ≤ late.now ∧ (late.field.ants.get .n0).pinIn = false
      ∧ ((late.modAntIn .n0 fun v => { v with pinOut := false }).field.ants.get .n0).pinOut = false := by decide +kernel
/-- An antenna that waits for a wave, and a PIN zone that is being warmed, read at each boundary. -/
theorem witness_WavesStartAndPinsMove_formation :
    let s := stowed0 (holding late) .waiting none
    s.stow.wave = none ∧ s.wind.record.order.Nodup ∧ (s.stowOf .n0).state = .waiting ∧ (s.stowOf .n0).member = false
      ∧ ((stowed0 late .pinWarming (some 9990000)).stowOf .n0).state = .pinWarming
      ∧ (20 ≤ (20 : Int) ∧ (20 : Int) ≤ 800) ∧ (19 : Int) < 20 ∧ 800 < (801 : Int) := by decide +kernel
theorem test_wave_forms :
    let t := (stowed0 (holding late) .waiting none).formWave
    t.stow.wave.map (fun w => w.members.map WaveMember.ant) = some [.n0] ∧ (t.stowOf .n0).member = true
      ∧ (t.stowOf .n0).warningTimer = some 10000000 ∧ (t.axis az0).claims.stow = true := by decide +kernel
theorem test_pin_is_warm :
    let s := (stowed0 late .pinWarming (some 9990000)).modZone ⟨.n0, .pin⟩ fun z => { z with forced := true }
    ((after (.heaterStep ⟨.n0, .pin⟩ 20) s).stowOf .n0).state = .pinInserting
      ∧ ((after (.heaterStep ⟨.n0, .pin⟩ 19) s).stowOf .n0).state = .pinWarming
      ∧ ((after (.heaterStep ⟨.n0, .pin⟩ 801) s).stowOf .n0).state = .pinWarming := by decide +kernel
theorem test_wave_starts :
    ((after .waveStart (wave0 45000)).axis el0).state = .slewing
      ∧ ((after .waveStart (wave0 45000)).stowOf .n0).state = .driving
      ∧ ((after .waveStart (wave0 0)).stowOf .n0).state = .pinWarming := by decide +kernel
theorem test_pin_lost :
    ((after (.pinInSwitchOpened .n0) (stowed0 late .stowed none)).stowOf .n0).state = .pinFailed
      ∧ ((after (.pinInSwitchMade .n0) (stowed0 late .pinInserting (some 9990000))).stowOf .n0).state = .stowed
      ∧ ((after (.pinOutSwitchMade .n0) (stowed0 late .pinWithdrawing (some 9990000))).stowOf .n0).state = .unstowed := by
  decide +kernel

/-! ### Witnesses: heat, ice and the feed -/

/-- A zone in each mode, and AUTO at each boundary of its band: -8.0, -7.9, -5.1 and -5.0 °C (R146's defaults). -/
def gear (m : HeatMode) (t : Int) (ok forced : Bool) : Zone :=
  { Zone.initial (.factory .gear) with mode := m, manual := 20, reading := some t, healthy := ok, forced := forced }
theorem witness_RequestedLevelsFollowTheMode :
    (gear .auto (-80) true false).reading = some (-80) ∧ (0 < (gear .auto 0 true false).frame)
      ∧ (gear .off 0 true true).forced = true := by decide
theorem test_requested_levels :
    [(gear .auto (-80) true false).wanted .none, (gear .auto (-79) true false).wanted .none,
      (gear .auto (-51) true false).wanted .none, (gear .auto (-50) true false).wanted .none,
      (gear .auto 10 true false).wanted .light, (gear .auto 0 false false).wanted .heavy,
      (gear .manual 0 true false).wanted .none, (gear .off 0 true true).wanted .none]
      = [16, 16, 1, 0, 16, 4, 16, 16] := by decide

theorem witness_ZonesTakeTheirFigures :
    late.admits (.configWriteZone 1 5 (some .surface) ⟨6001, 256, -401, 401, 9, true⟩) = true
      ∧ late.admits (.configWriteZone 1 0 (some .pin) ⟨-1, 16, 0, 0, 10, false⟩) = true
      ∧ heatAnt (.pendant .n3) = (ZoneId.mk .n3 .gear).ant.num
      ∧ (late.modAuthority .n3 fun v => { v with isLocal := true }).admits (.heatSet 1 (.pendant .n3) (some .gear) (some .manual) (some 17)) = true
      ∧ late.admits (.heatSet 1 (.operations 0) (some .pin) (some .off) none) = true := by decide +kernel
theorem test_heatSet :
    let t := after (.heatSet 1 (.operations 0) (some .gear) (some .manual) (some 17)) late
    (t.zone ⟨.n0, .gear⟩).requested = 16 ∧ (t.zone ⟨.n0, .gear⟩).effective = 0
      ∧ (t.link .operations).reply.map Reply.status = some .clamped := by decide +kernel

/-- A step inside a frame and one at its wrap, with nothing else due on the feed. -/
theorem witness_HeaterStepsFormTheLevel :
    (late.zone ⟨.n0, .gear⟩).frame ≤ (late.zone ⟨.n0, .gear⟩).step + 1
      ∧ ((late.modZone ⟨.n0, .gear⟩ fun z => { z with step := 3 }).zone ⟨.n0, .gear⟩).frame > 4
      ∧ (late.stowOf .n0).state ≠ .pinWarming ∧ late.feed.queue = [] := by decide +kernel
/-- A BRAKED axis without claims and an antenna that still moves to its stop: nothing else is due on the feed. -/
theorem witness_HeaterStepsFormTheLevel_feed :
    let s := stowed0 (moving (put (busUp late) az0 .braked) el0 .stopping) .stopping none
    s.feed.queue = [] ∧ (∀ i, (s.axis i).state = .braked → (s.axis i).claims.any = false)
      ∧ ∀ a, ((s.stowOf a).state = .stopping → s.moving a = true)
        ∧ ((s.stowOf a).state = .waiting → (s.stowOf a).member = true) := by
  refine ⟨rfl, ?_, ?_⟩
  · rintro ⟨a, x⟩; cases a <;> cases x <;> decide +kernel
  · intro a; cases a <;> decide +kernel
theorem test_heater_frame :
    let t := after (.heaterFrameStart ⟨.n0, .gear⟩ (-100)) late
    (t.zone ⟨.n0, .gear⟩).effective = 16 ∧ (t.zone ⟨.n0, .gear⟩).step = 0 ∧ (t.zone ⟨.n0, .gear⟩).contactor = true
      ∧ (after (.heaterStep ⟨.n0, .gear⟩ (-100)) (late.modZone ⟨.n0, .gear⟩ fun z => { z with step := 3 })
          |>.zone ⟨.n0, .gear⟩).effective = 0 := by decide +kernel

/-- A pendant reads its antenna's zones, ice figures and the weather alone (R156). -/
theorem test_heat_view :
    let v := late.heatView (.pendant .n2)
    v.zones.length = 3 ∧ v.ice.length = 1 ∧ v.station = none ∧ (late.heatView .safety).zones.length = 18 := by
  decide +kernel

/-- Each timer exactly run out; a report; and one that is stale by 1 ms. -/
theorem witness_IceFollowsTheWeather :
    let cold (c : IceClass) (e : Epoch) := late.modIce .n0 fun i => { i with tracked := c, wetTimer := some e, freezeTimer := some e, thawTimer := some e }
    let warm := { (cold .heavy 9100000).modZone ⟨.n0, .surface⟩ (fun z => { z with reading := some 30, healthy := true }) with
      heat := { ((cold .heavy 9100000).modZone ⟨.n0, .surface⟩ fun z => { z with reading := some 30, healthy := true }).heat with
        weather := some ⟨50, false, 9999000⟩ } }
    late.admits (.iceFloor 1 5 (some .heavy)) = true ∧ iceMax (late.ice .n5).tracked .heavy ≠ late.iceClass .n5
      ∧ ((cold .none 9400000).coldWet = true ∧ ((cold .none 9400000).ice .n0).wetTimer = some 9400000
        ∧ (9400000 : Int) + 600000 ≤ late.now)
      ∧ ((cold .light 6400000).coldWet = true ∧ ((cold .light 6400000).zone ⟨.n0, .surface⟩).frozen = true
        ∧ ((cold .light 6400000).ice .n0).freezeTimer = some 6400000 ∧ (6400000 : Int) + 3600000 ≤ late.now)
      ∧ ((warm.ice .n0).tracked ≠ .none ∧ warm.precipInUse = false ∧ (warm.zone ⟨.n0, .surface⟩).thawed = true
        ∧ (warm.ice .n0).thawTimer = some 9100000 ∧ (9100000 : Int) + 900000 ≤ warm.now) ∧ late.admits (.weather 1 10 true) = true ∧ 120000 < late.now - 9879999 := by
  decide +kernel
theorem test_ice :
    let s := late.modIce .n0 fun i => { i with wetTimer := some 9400000 }
    (after (.wetTimerExpiry .n0) s).iceClass .n0 = .light
      ∧ ((after (.weather 1 11 true) s).ice .n0).wetTimer = none
      ∧ ((after (.weather 1 10 true) s).ice .n0).wetTimer = some 9400000 := by decide +kernel

/-- A shed that has run out, a restoration step that is due, each with a capped zone and without one; a hold need
of a braked axis and a jog need, exactly 10 s old. -/
def shed0 (active : Bool) : State :=
  late.modFeed fun f => { f with
    shed := ⟨active, some false, false, if active then some 10000000 else none, none⟩, lastStep := some 9995000 }
def capped0 (s : State) : State := s.modZone ⟨.n5, .surface⟩ fun z => { z with shedCap := some 4 }
def need0 (k : NeedKind) : State :=
  (put (busUp late) az0 .braked).modFeed fun f => { f with queue := [⟨az0, k, 400, 9990000⟩] }

theorem witness_FeedKeepsItsBooks :
    late.admits (.configWriteStation 1 ⟨4999, -1, 9, 1501⟩) = true
      ∧ late.admits (.configWriteStation 1 ⟨120001, 10001, 121, -1⟩) = true
      ∧ (∀ k ∈ [NeedKind.hold, .jog], (need0 k).feed.queue = [⟨az0, k, 400, 9990000⟩]
        ∧ (9990000 : Int) + 10000 ≤ (need0 k).now)
      ∧ ((need0 .hold).axis az0).claims.group = false ∧ ((need0 .hold).axis az0).claims.stow = false
      ∧ ((need0 .hold).stowOf .n0).state = .unstowed ∧ ((need0 .hold).ants.get .n0).disabling = false
      ∧ ((need0 .hold).axis az0).state = .braked
      ∧ ((shed0 true).feed.shed.active = true ∧ (shed0 true).feed.shed.expiry = some (shed0 true).now)
      ∧ ((shed0 false).feed.shed.active = false ∧ (shed0 false).feed.shed.classes ≠ none
        ∧ (shed0 false).feed.lastStep = some 9995000 ∧ (9995000 : Int) + 5000 ≤ (shed0 false).now)
      ∧ (capped0 (shed0 true)).nextCapped = some ⟨.n5, .surface⟩ ∧ (shed0 false).nextCapped = none := by decide +kernel
theorem test_restoration :
    ((after .shedExpiry (capped0 (shed0 true))).zone ⟨.n5, .surface⟩).shedCap = none
      ∧ (after .restorationStep (shed0 false)).feed.shed.classes = none := by decide +kernel
/-- A LOCAL antenna whose JOG of AZ, HOLDING, has waited 10 s for its grant. -/
def jogNeed0 : State :=
  ((local0 (holding late)).modAuthority .n0 fun v =>
      { v with jog := some ⟨.az, .plus, 300, .raising, 9999900, none, none⟩ }).modAxis az0 (fun x =>
      { x with claims := { x.claims with jog := true } })
    |>.modFeed fun f => { f with queue := [⟨az0, .jog, 400, 9990000⟩] }
theorem witness_FeedKeepsItsBooks_jog :
    jogNeed0.feed.queue = [⟨az0, .jog, 400, 9990000⟩] ∧ (9990000 : Int) + 10000 ≤ jogNeed0.now ∧ jogNeed0.powered = true
      ∧ (jogNeed0.jog .n0).map Jog.axis = some .az ∧ (jogNeed0.axis az0).state = .holding := by decide +kernel
theorem test_need_times_out :
    (after (.grantQueueTimeout az0) (need0 .jog)).feed.queue = []
      ∧ (let t := after (.grantQueueTimeout az0) jogNeed0
         (t.link .operations).flags &&& antFlag .axis .n0 = antFlag .axis .n0
          ∧ (t.axis az0).claims.jog = false
          ∧ (t.jog .n0).map Jog.failure = some (some .budget)) := by decide +kernel

/-- A shed at its half-check epoch, needed (drive grants above the limit) and not. -/
def half0 (limit : Nat) : State :=
  (shed0 true).modFeed fun f => { f with limit := limit, shed := { f.shed with half := some 10000000 } }
theorem witness_ShedsMakeRoomAndAreRenewed :
    (half0 1499).powered = true ∧ (half0 1499).feed.shed.active = true ∧ (half0 1499).feed.shed.half = some 10000000
      ∧ (10000000 : Int) ≤ (half0 1499).now ∧ (half0 1499).feed.limit < (half0 1499).feed.base
      ∧ (half0 1500).scratch.raised = 0 ∧ (half0 1500).scratch.early = 0
      ∧ (half0 1499).shedNeeded = true ∧ (half0 1500).shedNeeded = false
      ∧ (half0 1499).feed.shed.classes = some false ∧ late.feed.shed.classes = none := by decide +kernel
theorem test_shed_is_imposed :
    let s := late.modZone ⟨.n5, .gear⟩ fun z => { z with requested := 16, effective := 16 }
    let t := s.imposeShed true true false
    (t.zone ⟨.n5, .gear⟩).effective = 4 ∧ (t.zone ⟨.n5, .surface⟩).shedCap = some 0
      ∧ t.feed.shed = ⟨true, some true, false, some 10040000, some 10020000⟩
      ∧ t.scratch.raised = 0x4000000000 := by decide +kernel
theorem test_halfCheck :
    (after .shedHalfCheck (half0 1499)).feed.shed.expiry = some 10040000
      ∧ (after .shedHalfCheck (half0 1499)).feed.shed.half = some 10020000
      ∧ (after .shedHalfCheck (half0 1500)).feed.shed.half = none := by decide +kernel

/-- A queue of so many hold needs. -/
def queued0 (n : Nat) : State :=
  (put (busUp late) az0 .braked).modFeed fun f => { f with queue := List.replicate n ⟨el0, .hold, 300, 9999999⟩ }
/-- A request at an empty queue, behind one entry, behind 15 and at 16; a need for more than there is; a raise on
an own grant and on a group's; the arming and the release of a group's grant; and the release of a wave's. -/
theorem witness_GrantsAreQueuedHeldAndConverted :
    (queued0 0).feed.queue = [] ∧ ((400 : Nat) : Int) ≤ (queued0 0).freeRoom ∧ (queued0 0).feed.shed.classes = none
      ∧ (queued0 1).feed.queue ≠ [] ∧ (queued0 15).feed.queue.length < 16 ∧ 16 ≤ (queued0 16).feed.queue.length
      ∧ (queued0 0).freeRoom + (queued0 0).shedFrees true false < (200000 : Nat)
      ∧ (((holding late).noteRaise az0 .asked).track .n0).raises.get .az = .asked
      ∧ (((granted0 (holding late)).noteRaise az0 .asked).axis az0).cover = .group .g0
      ∧ ((granted0 (holding late)).axis az0).state.torqueOn = true
      ∧ ((granted0 (holding late)).feed.groups.get .g0).isSome = true
      ∧ (queued0 16).feed.queue.length ≤ 16
      ∧ (let p := group0 (holding late) .planned none
         p.admits (.groupArm 1 0 10005000) = true ∧ az0 ∈ (p.groups.get .g0).axes
          ∧ (p.stowOf .n0).state = .unstowed ∧ (p.axis az0).amplifier = true
          ∧ (p.axis az0).amplifier = (p.axis az0).state.amplifierOn)
      ∧ ([(az0, 400), (el0, 300)].map Prod.fst).Nodup ∧ ([(az0, 400), (el0, 300)].map Prod.snd).sum ≤ 1000
      ∧ (((wave0 0).feed.waves.get .n0).isSome = true ∧ 400 + 300 ≤ 3000 ∧ 0 < (wave0 0).earlierWave .n0) := by
  decide +kernel
theorem test_raise_takes_its_share :
    let t := ((granted0 (holding late)).noteRaise az0 .asked).askNeed az0 .track 200
    t.standing az0 = ⟨600, 400⟩ ∧ (t.axis az0).cover = .standing ∧ t.feed.groups.get .g0 = some ⟨600, [(el0, 300)]⟩
      ∧ (t.track .n0).raises.az = .granted := by decide +kernel
theorem test_release_gives_the_recorded_figures :
    let t := (granted0 (holding late)).releaseGroupGrant .g0
    t.standing az0 = ⟨400, 400⟩ ∧ t.standing el0 = ⟨300, 300⟩ ∧ t.feed.groups.get .g0 = none := by decide +kernel
/-- Antenna 0's AZ brakes with a claim, which makes it ask for its 400 W again, antenna 1 waits for a wave, and the
room holds its stow demand once those 400 W are freed. -/
def crowded : State :=
  let s := (put (holding late) az0 .braking).modAxis az0 fun x => { x with claims := { x.claims with operations := true } }
  let s := s.modStow .n1 fun r => { r with state := .waiting }
  s.modFeed fun f => { f with limit := s.load + s.stowDemand .n1 - 400 }

/-- The room is freed, an axis wants torque, and the first antenna that waits for a wave fits it exactly. -/
theorem witness_GrantsAreQueuedHeldAndConverted_order :
    let s := ((put crowded az0 .braked).setStanding az0 ⟨0, 0⟩).markFreed
    s.scratch.freed = true ∧ s.wantsTorque az0 = true ∧ s.stow.wave = none
      ∧ s.wind.record.order = [.n0] ++ .n1 :: [.n2, .n3, .n4, .n5] ∧ s.waitsForWave .n0 = false
      ∧ s.waitsForWave .n1 = true ∧ s.freeRoom = s.stowDemand .n1 := by decide +kernel
theorem test_stow_takes_freed_room_first :
    let t := after (.brakeSetConfirmed az0) crowded
    (t.stowOf .n1).member = true ∧ (t.axis az0).state = .braked ∧ t.waits az0 = true
      ∧ t.freeRoom = 0 := by decide +kernel
theorem test_queue_takes_sixteen :
    ((queued0 15).askNeed az0 .hold 400).feed.queue.length = 16
      ∧ ((queued0 16).askNeed az0 .hold 400).feed.queue.length = 16
      ∧ ((queued0 0).askNeed az0 .hold 400).standing az0 = ⟨400, 400⟩ := by decide +kernel

end Sys2Proof.Tests
end

