-- ==== Sys2Proof/Proofs/Shed.lean ====
section
/-! PROOFS. The shed (R161 to R163, R171): what an imposition does to the zones and the books, when the need test
imposes it again, and what its half check leaves. -/

namespace Sys2Proof.Machine

/-! ### Sums of the books -/

theorem sumOf_eq_sum {α : Type} (xs : List α) (f : α → Nat) : sumOf xs f = (xs.map f).sum := by
  rw [List.sum_eq_foldl, List.foldl_map]; rfl

@[simp] theorem sumOf_cons {α : Type} (x : α) (xs : List α) (f : α → Nat) :
    sumOf (x :: xs) f = f x + sumOf xs f := by
  simp [sumOf_eq_sum]

/-- A gain over the elements of a filter fits beside a sum where it fits beside each element. -/
theorem sumOf_add_filter_le {α : Type} {xs : List α} {p : α → Bool} {f g h : α → Nat}
    (each : ∀ x, g x + (if p x then f x else 0) ≤ h x) :
    sumOf xs g + sumOf (xs.filter p) f ≤ sumOf xs h := by
  induction xs with
  | nil => exact Nat.le_refl _
  | cons x xs ih =>
    have hx := each x
    by_cases hp : p x
    · simp only [List.filter_cons_of_pos hp, sumOf_cons, if_pos hp] at *; omega
    · simp only [List.filter_cons_of_neg hp, sumOf_cons, if_neg hp] at *; omega

theorem ceilDiv_mono {m n : Nat} (d : Nat) (h : m ≤ n) : ceilDiv m d ≤ ceilDiv n d :=
  Nat.div_le_div_right (by omega)

/-- A lower level never draws more (R139). -/
theorem Zone.wattsAt_mono (z : Zone) {m n : Nat} (h : m ≤ n) : z.wattsAt m ≤ z.wattsAt n :=
  ceilDiv_mono _ (Nat.mul_le_mul_left _ h)

/-! ### One zone at its floor (R142, R149) -/

/-- A zone with a shed cap, lowered at once to the ceiling it has with it. -/
def Zone.shedTo (v : Zone) (lock : Option Nat) (floor : Nat) : Zone :=
  { v with shedCap := some floor }.lowerTo (min (capped v.requested lock) floor)

@[simp] theorem Zone.lowerTo_effective (v : Zone) (c : Nat) : (v.lowerTo c).effective = min v.effective c := by
  unfold Zone.lowerTo
  split
  next h => exact (Nat.min_eq_right h.le).symm
  next h => exact (Nat.min_eq_left (Nat.not_lt.1 h)).symm

@[simp] theorem Zone.lowerTo_shedCap (v : Zone) (c : Nat) : (v.lowerTo c).shedCap = v.shedCap := by
  unfold Zone.lowerTo; split <;> rfl

@[simp] theorem Zone.lowerTo_wattsAt (v : Zone) (c n : Nat) : (v.lowerTo c).wattsAt n = v.wattsAt n := by
  unfold Zone.lowerTo; split <;> rfl

@[simp] theorem Zone.lowerTo_frame (v : Zone) (c : Nat) : (v.lowerTo c).frame = v.frame := by
  unfold Zone.lowerTo; split <;> rfl

@[simp] theorem Zone.shedTo_effective (v : Zone) (lock : Option Nat) (floor : Nat) :
    (v.shedTo lock floor).effective = min v.effective (min (capped v.requested lock) floor) :=
  Zone.lowerTo_effective ..

@[simp] theorem Zone.shedTo_shedCap (v : Zone) (lock : Option Nat) (floor : Nat) :
    (v.shedTo lock floor).shedCap = some floor := Zone.lowerTo_shedCap ..

@[simp] theorem Zone.shedTo_frame (v : Zone) (lock : Option Nat) (floor : Nat) :
    (v.shedTo lock floor).frame = v.frame := Zone.lowerTo_frame ..

theorem Zone.shedTo_committed (v : Zone) (lock : Option Nat) (floor : Nat) :
    (v.shedTo lock floor).committed = v.wattsAt (v.shedTo lock floor).effective :=
  Zone.lowerTo_wattsAt ..

/-- A shed zone draws no more than it does at the least of its level and its floor. -/
theorem Zone.shedTo_committed_le (v : Zone) (lock : Option Nat) {floor n : Nat} (h : floor ≤ n) :
    (v.shedTo lock floor).committed ≤ v.wattsAt (min v.effective n) := by
  rw [Zone.shedTo_committed, Zone.shedTo_effective]
  exact v.wattsAt_mono (by omega)

/-! ### Capping a zone (R162) -/

/-- The mark of freed room is seen by no view that does not read it. -/
theorem State.markFreedIf_keeps {β : Type} (view : State → β) (s : State) (b : Bool)
    (h : view s.markFreed = view s := by rfl) : view (s.markFreedIf b) = view s := by
  unfold State.markFreedIf
  split
  · exact h
  · rfl

@[simp] theorem State.capZone_feed (s : State) (o d : Bool) (z : ZoneId) : (s.capZone o d z).feed = s.feed :=
  State.markFreedIf_keeps State.feed ..

@[simp] theorem State.capZone_raised (s : State) (o d : Bool) (z : ZoneId) :
    (s.capZone o d z).scratch.raised = s.scratch.raised :=
  State.markFreedIf_keeps (fun t => t.scratch.raised) ..

@[simp] theorem State.capZone_iceClass (s : State) (o d : Bool) (z : ZoneId) (a : Ant) :
    (s.capZone o d z).iceClass a = s.iceClass a :=
  State.markFreedIf_keeps (fun t => t.iceClass a) ..

@[simp] theorem State.capZone_lockCap (s : State) (o d : Bool) (z y : ZoneId) :
    (s.capZone o d z).lockCap y = s.lockCap y :=
  State.markFreedIf_keeps (fun t => t.lockCap y) ..

@[simp] theorem State.capZone_zone (s : State) (o d : Bool) (z y : ZoneId) :
    (s.capZone o d z).zone y =
      if y = z then (s.zone z).shedTo (s.lockCap z) (s.shedFloor d z) else s.zone y := by
  have marked (t : State) (b : Bool) : (t.markFreedIf b).zone y = t.zone y :=
    State.markFreedIf_keeps (fun t => t.zone y) ..
  have ceiling : (s.modZone z fun v => { v with shedCap := some (s.shedFloor d z) }).ceiling z
      = min (capped (s.zone z).requested (s.lockCap z)) (s.shedFloor d z) := by
    simp only [State.ceiling, State.zone_modZone, if_true, capped]; rfl
  simp only [State.capZone, State.lowerZone, marked, State.zone_modZone, ceiling]
  split <;> simp only [if_true, Zone.shedTo]

/-- The floors hang on the frames and the ice alone (R149). -/
theorem State.shedFloor_congr {s t : State} (d : Bool) {z : ZoneId} (hf : (t.zone z).frame = (s.zone z).frame)
    (hi : t.iceClass z.ant = s.iceClass z.ant) : t.shedFloor d z = s.shedFloor d z := by
  simp only [State.shedFloor, hf, hi]

@[simp] theorem State.capZone_shedFloor (s : State) (o d e : Bool) (z y : ZoneId) :
    (s.capZone o d z).shedFloor e y = s.shedFloor e y := by
  refine State.shedFloor_congr e ?_ (State.capZone_iceClass ..)
  rw [State.capZone_zone]
  split
  next h => subst h; exact Zone.shedTo_frame ..
  · rfl

/-- A view each of a list of changes keeps is kept by all of them. -/
theorem forEach_keeps {α β : Type} {f : State → α → State} (view : State → β)
    (h : ∀ s x, view (f s x) = view s) (xs : List α) (s : State) : view (forEach xs f s) = view s := by
  induction xs generalizing s with
  | nil => rfl
  | cons x xs ih => exact (ih (f s x)).trans (h s x)

/-- Capping zones one after the other gives each of them what it would get alone. -/
theorem forEach_capZone_zone (o d : Bool) {xs : List ZoneId} (once : xs.Nodup) (s : State) (z : ZoneId) :
    (forEach xs (fun s y => s.capZone o d y) s).zone z =
      if z ∈ xs then (s.zone z).shedTo (s.lockCap z) (s.shedFloor d z) else s.zone z := by
  induction xs generalizing s with
  | nil => rfl
  | cons x xs ih =>
    obtain ⟨hx, hxs⟩ := List.nodup_cons.1 once
    refine (ih hxs (s.capZone o d x)).trans ?_
    rw [State.capZone_zone, State.capZone_lockCap, State.capZone_shedFloor]
    by_cases h : z = x
    · subst h; simp [hx]
    · simp [h]

/-! ### The imposition (R162) -/

theorem ZoneId.mem_all (z : ZoneId) : z ∈ ZoneId.all := by
  obtain ⟨a, c⟩ := z
  cases a <;> cases c <;> decide

theorem ZoneId.all_nodup : ZoneId.all.Nodup := by decide

@[simp] theorem mem_shedZones {gear : Bool} {z : ZoneId} : z ∈ shedZones gear ↔ classShed gear z.cls = true := by
  simp [shedZones, ZoneId.mem_all]

theorem shedZones_nodup (gear : Bool) : (shedZones gear).Nodup := ZoneId.all_nodup.filter _

/-- The classes an imposition leaves the record with (R162). -/
abbrev Shed.gearAfter (r : Shed) (gearToo : Bool) : Bool := r.classes.getD false || gearToo

@[simp] theorem State.raiseIf_feed (s : State) (b : Bool) (w : FlagWord) : (s.raiseIf b w).feed = s.feed := by
  unfold State.raiseIf; split <;> rfl

@[simp] theorem State.raiseIf_zone (s : State) (b : Bool) (w : FlagWord) (z : ZoneId) :
    (s.raiseIf b w).zone z = s.zone z := by
  unfold State.raiseIf; split <;> rfl

theorem State.raiseIf_raised (s : State) (b : Bool) (w : FlagWord) :
    (s.raiseIf b w).scratch.raised = s.scratch.raised ||| (if b then w else 0) := by
  unfold State.raiseIf
  cases b
  · exact BitVec.or_zero.symm
  · rfl

theorem State.imposeShed_feed (s : State) (o g d : Bool) :
    (s.imposeShed o g d).feed = { s.feed with
      shed := s.feed.shed.imposed g d s.now s.feed.period, cursor := none, lastStep := none } := by
  simp only [State.imposeShed, State.raiseIf_feed]
  exact forEach_keeps State.feed (fun s z => State.capZone_feed s o _ z) _ _

theorem State.imposeShed_zone (s : State) (o g d : Bool) (z : ZoneId) :
    (s.imposeShed o g d).zone z =
      if classShed (s.feed.shed.gearAfter g) z.cls then
        (s.zone z).shedTo (s.lockCap z) (s.shedFloor (s.feed.shed.deep || d) z)
      else s.zone z := by
  simp only [State.imposeShed, State.raiseIf_zone]
  rw [forEach_capZone_zone _ _ (shedZones_nodup _)]
  simp only [mem_shedZones]; rfl

/-- A zone of the classes takes its floor for its cap and falls to it at once, and never rises (R162). -/
theorem State.imposeShed_shedZone (s : State) (o g d : Bool) {z : ZoneId}
    (h : classShed (s.feed.shed.gearAfter g) z.cls = true) :
    let floor := s.shedFloor (s.feed.shed.deep || d) z
    let v := (s.imposeShed o g d).zone z
    v.shedCap = some floor ∧ v.effective ≤ floor ∧ v.effective ≤ (s.zone z).effective
      ∧ ((s.zone z).effective ≤ capped (s.zone z).requested (s.lockCap z) →
          v.effective = min (s.zone z).effective floor) := by
  intro floor v
  have shed : v = (s.zone z).shedTo (s.lockCap z) floor := (s.imposeShed_zone o g d z).trans (if_pos h)
  have level : v.effective = min (s.zone z).effective (min (capped (s.zone z).requested (s.lockCap z)) floor) :=
    shed ▸ Zone.shedTo_effective ..
  exact ⟨shed ▸ Zone.shedTo_shedCap .., by omega, by omega, fun _ => by omega⟩

theorem State.imposeShed_raised (s : State) (o g d : Bool) :
    (s.imposeShed o g d).scratch.raised = s.scratch.raised |||
      (if s.feed.shed.widens (s.feed.shed.imposed g d s.now s.feed.period) then stationFlag .budget else 0) := by
  simp only [State.imposeShed, State.raiseIf_raised]
  congr 1
  exact forEach_keeps (fun t => t.scratch.raised) (fun s z => State.capZone_raised s o _ z) _ _

/-- A record that stays active with its classes and depth sets no flag (R162). -/
theorem Shed.widens_eq_false {r t : Shed} :
    r.widens t = false ↔ r.active = true ∧ r.classes = t.classes ∧ r.deep = t.deep := by
  simp [Shed.widens, and_assoc]

/-- BUDGET is set but where the imposition changes neither the activity, the classes nor the depth (R162). -/
theorem State.imposeShed_budgetFlag (s : State) (o g d : Bool) :
    (s.imposeShed o g d).scratch.raised = s.scratch.raised |||
      (if s.feed.shed.active = true ∧ s.feed.shed.classes = some (s.feed.shed.gearAfter g)
          ∧ s.feed.shed.deep = (s.feed.shed.deep || d) then 0 else stationFlag .budget) := by
  rw [State.imposeShed_raised]
  congr 1
  split
  next h => exact (if_neg fun same => Bool.false_ne_true ((Shed.widens_eq_false.2 same).symm.trans h)).symm
  next h => exact (if_pos (Shed.widens_eq_false.1 (Bool.eq_false_of_not_eq_true h))).symm

theorem State.imposeShed_driveGrants (s : State) (o g d : Bool) :
    (s.imposeShed o g d).driveGrants = s.driveGrants := by
  simp only [State.driveGrants, State.standing, State.imposeShed_feed]

/-- A deeper shed has no higher floor (R149). -/
theorem State.shedFloor_deepen (s : State) (deeper deep : Bool) (z : ZoneId) :
    s.shedFloor (deeper || deep) z ≤ s.shedFloor deep z := by
  cases deeper
  · exact Nat.le_refl _
  · exact Nat.zero_le _

theorem classShed_iff {gear : Bool} {c : ZoneClass} :
    classShed gear c = true ↔ c = .surface ∨ c = .gear ∧ gear = true := by
  cases c <;> simp [classShed]

theorem classShed_eq_false_iff {gear : Bool} {c : ZoneClass} :
    classShed gear c = false ↔ c = .pin ∨ c = .gear ∧ gear = false := by
  cases c <;> simp [classShed]

theorem classShed_widen {gear : Bool} (wider : Bool) {c : ZoneClass} (h : classShed gear c = true) :
    classShed (wider || gear) c = true := by
  cases c
  case gear => exact Bool.or_eq_true_iff.2 (.inr h)
  all_goals exact h

/-- What an imposition takes from one zone is at least what admission counted on there (R161, R162). -/
theorem State.imposeShed_frees_zone (s : State) (o g d : Bool) (z : ZoneId) :
    ((s.imposeShed o g d).zone z).committed + (if classShed g z.cls then s.zoneFrees d z else 0)
      ≤ (s.zone z).committed := by
  have level : (s.zone z).wattsAt (min (s.zone z).effective (s.shedFloor d z)) ≤ (s.zone z).committed :=
    (s.zone z).wattsAt_mono (Nat.min_le_left ..)
  have shed : ((s.zone z).shedTo (s.lockCap z) (s.shedFloor (s.feed.shed.deep || d) z)).committed
      ≤ (s.zone z).wattsAt (min (s.zone z).effective (s.shedFloor d z)) :=
    Zone.shedTo_committed_le _ _ (s.shedFloor_deepen _ d z)
  rw [State.imposeShed_zone]
  by_cases asked : classShed g z.cls = true
  · rw [if_pos (classShed_widen _ asked), if_pos asked, State.zoneFrees]; omega
  · rw [if_neg asked]
    split <;> omega

theorem State.imposeShed_freeRoom (s : State) (o g d : Bool) :
    s.freeRoom + s.shedFrees g d ≤ (s.imposeShed o g d).freeRoom := by
  have frees : (s.imposeShed o g d).committed + s.shedFrees g d ≤ s.committed :=
    sumOf_add_filter_le (s.imposeShed_frees_zone o g d)
  simp only [State.freeRoom, State.load, State.imposeShed_driveGrants, State.imposeShed_feed]
  omega

/-! ### The need test (R163) -/

theorem State.shedNeeded_iff (s : State) : s.shedNeeded = true ↔
    s.feed.limit < s.feed.base + s.driveGrants + (ZoneId.all.map s.ownPower).sum := by
  simp [State.shedNeeded, sumOf_eq_sum]

theorem State.needTest_of_needed {s : State} {g : Bool} (hc : s.feed.shed.classes = some g)
    (hn : s.shedNeeded = true) : s.needTest = s.imposeShed true g s.feed.shed.deep := by
  simp [State.needTest, hc, hn]

theorem State.needTest_of_idle {s : State} (h : s.feed.shed.classes = none ∨ s.shedNeeded = false) :
    s.needTest = s := by
  unfold State.needTest
  split
  · rfl
  next hc =>
    obtain h | h := h
    · simp [hc] at h
    · simp [h]

/-- Imposed again as it stands, the record keeps its classes and depth (R163). -/
theorem Shed.imposed_again {r : Shed} {g : Bool} (h : r.classes = some g) (now : Epoch) (p : Nat) :
    r.imposed g r.deep now p =
      { r with active := true, expiry := some (now + p * 1000), half := some (now + p * 500) } := by
  simp [Shed.imposed, h]

/-- A needed shed is imposed again after a direct grant: the record keeps its classes and depth (R163). -/
theorem State.afterGrant_direct_of_needed {s : State} {g : Bool} (folded : Nat)
    (hc : s.feed.shed.classes = some g) (hn : s.shedNeeded = true) :
    (s.afterGrant .direct folded).feed.shed = { s.feed.shed with
      active := true, expiry := some (s.now + s.feed.period * 1000)
      half := some (s.now + s.feed.period * 500) } := by
  have tested : (s.afterGrant .direct folded).feed = s.needTest.feed := State.markFreedIf_keeps State.feed ..
  rw [tested, State.needTest_of_needed hc hn, State.imposeShed_feed]
  exact Shed.imposed_again hc ..

/-- Without a need a direct grant changes neither books nor zones of itself (R163). -/
theorem State.afterGrant_direct_of_idle {s : State} (folded : Nat)
    (h : s.feed.shed.classes = none ∨ s.shedNeeded = false) :
    (s.afterGrant .direct folded).feed = s.feed ∧ (s.afterGrant .direct folded).heat = s.heat := by
  have same := State.needTest_of_idle h
  exact ⟨(State.markFreedIf_keeps State.feed ..).trans (congrArg State.feed same),
    (State.markFreedIf_keeps State.heat ..).trans (congrArg State.heat same)⟩

/-! ### An event that changes no flagged item (R195) -/

theorem axisFlagSet_self (s : State) (a : Ant) : axisFlagSet s s a = false := by
  simp [axisFlagSet, axisChanged]

theorem groupFlagSet_self (s : State) (a : Ant) : groupFlagSet s s a = false := by
  simp [groupFlagSet, groupSets]

theorem slotSetsLock_self (s : State) (a : Ant) (e : Option LockEntry) : slotSetsLock s s a e e = false := by
  cases e <;> simp [slotSetsLock, entryStateChanged]

theorem lockFlagSet_self (s : State) (a : Ant) : lockFlagSet s s a = false := by
  have slots (l : List (Option LockEntry)) : ((l.zip l).any fun p => slotSetsLock s s a p.1 p.2) = false := by
    induction l with
    | nil => rfl
    | cons e l ih => simp only [List.zip_cons_cons, List.any_cons, slotSetsLock_self, ih, Bool.or_self]
  simp [lockFlagSet, slots]

theorem heatFlagSet_self (s : State) (a : Ant) : heatFlagSet s s a = false := by
  simp [heatFlagSet]

theorem antChanges_self (s : State) (a : Ant) : antChanges s s a = 0 := by
  simp [antChanges, axisFlagSet_self, groupFlagSet_self, lockFlagSet_self, heatFlagSet_self, wordIf]

theorem changesBetween_self (s : State) : changesBetween s s = 0 := by
  simp [changesBetween, antChanges_self, windFlagSet, iceFlagSet, wordIf, Ant.all]

/-- No change of the feed's own books sets a flag by what it changed (R174, R195). -/
theorem changesBetween_modFeed (s : State) (f : Feed → Feed) : changesBetween s (s.modFeed f) = 0 :=
  changesBetween_self s

theorem LinkRecord.conclude_nothing (l : LinkRecord) (c : FlagWord) : l.conclude l c 0 0 = l := by
  simp [LinkRecord.conclude, LinkRecord.setFlags]

/-- A rule that gives every link its own record back leaves the links. -/
theorem Links.map_eq_self {l : Links} {f : Link → LinkRecord → LinkRecord} (h : ∀ k, f k (l.get k) = l.get k) :
    l.map f = l := by
  have pendants : (l.pendants.map fun n => f (.pendant n)) = l.pendants :=
    Six.ext_get fun n => by rw [Six.get_map]; exact h (.pendant n)
  exact congr (congr (congrArg Links.mk (h .operations)) (h .safety)) pendants

theorem announce_links_unchanged {s t : State} (hl : t.links = s.links) (hr : t.scratch.raised = 0)
    (he : t.scratch.early = 0) (hc : changesBetween s t = 0) : (announce s t).links = s.links := by
  have concluded : (announce s t).links =
      s.links.map fun k l => (s.links.get k).conclude l (Link.mask k) 0 0 := by
    simp only [announce, State.clearScratch, hl, hr, he, hc]; rfl
  exact concluded.trans (Links.map_eq_self fun k => LinkRecord.conclude_nothing ..)

/-! ### The half check (R171) -/

theorem exec_shedHalfCheck (s : State) : exec .shedHalfCheck s = execShedHalfCheck s := rfl

/-- At its epoch, the half check of an active shed changes the shed record alone. -/
theorem exec_shedHalfCheck_of_due {s : State} {e : Epoch} (hp : s.powered = true) (ha : s.feed.shed.active = true)
    (hh : s.feed.shed.half = some e) (he : e ≤ s.now) :
    exec .shedHalfCheck s = .next (announce s (s.modFeed fun f =>
      { f with shed := f.shed.halfChecked s.shedNeeded s.now f.period })) := by
  have due : s.halfDue = true := by simp [State.halfDue, passed, ha, hh, he]
  simp only [exec_shedHalfCheck, execShedHalfCheck, occurAlone, onPower, hp, due, if_true]

/-- Settles O59: each clause is a rule about `imposeShed`, the need test or the half check. -/
theorem shedsMakeRoomAndAreRenewed : Obligations.ShedsMakeRoomAndAreRenewed := by
  intro s floor uncapped needed
  have floors (deep : Bool) (z : ZoneId) : floor deep z = s.shedFloor deep z := by
    obtain ⟨a, c⟩ := z
    cases deep <;> cases c <;> rfl
  have need : needed ↔ s.shedNeeded = true := s.shedNeeded_iff.symm
  have idle : ¬needed ↔ s.shedNeeded = false := (not_congr need).trans (Bool.not_eq_true _).to_iff
  refine ⟨fun offer gearToo deep => ?imposition, fun folded gearToo hc hn =>
    State.afterGrant_direct_of_needed folded hc (need.1 hn), fun folded h =>
    State.afterGrant_direct_of_idle folded (h.imp_right idle.1),
    fun e hp ha hh he =>
      ⟨_, exec_shedHalfCheck_of_due hp ha hh he, fun hn => ?renewed, fun hn => ?expiring, fun hr hs => ?quiet⟩⟩
  case imposition =>
    have feed := s.imposeShed_feed offer gearToo deep
    refine ⟨by rw [feed]; rfl, by rw [feed], by rw [feed], fun z hz => ?shedZone, fun z hz => ?otherZone,
      s.imposeShed_freeRoom .., s.imposeShed_driveGrants .., by rw [feed], s.imposeShed_budgetFlag ..⟩
    case shedZone =>
      rw [floors]
      exact s.imposeShed_shedZone offer gearToo deep (classShed_iff.2 hz)
    case otherZone =>
      refine (s.imposeShed_zone ..).trans (if_neg ?_)
      rw [classShed_eq_false_iff.2 hz]
      exact Bool.false_ne_true
  case renewed => rw [need.1 hn]; rfl
  case expiring => rw [idle.1 hn]; rfl
  case quiet => exact announce_links_unchanged rfl hr hs (changesBetween_modFeed ..)

end Sys2Proof.Machine
end

