-- ==== Sys2Proof/Proofs/Permits.lean ====
section
/-! PROOFS. The Permit Engine (R177 to R181): the scan against the chains, what one test answers, and the values an
evaluation sees. -/

namespace Sys2Proof.Machine

/-! ### Chains (R180) -/

/-- The first entry in use opens the first chain. -/
theorem exists_chainsOf_cons (e : PermitEntry × Nat) (rest : List (PermitEntry × Nat)) :
    ∃ ch more, chainsOf (e :: rest) = (e :: ch) :: more := by
  cases hr : chainsOf rest with
  | nil => exact ⟨[], [], by simp [chainsOf, hr]⟩
  | cons ch more =>
    cases hand : e.1.andFlag with
    | true => exact ⟨ch, more, by simp [chainsOf, hr, hand]⟩
    | false => exact ⟨[], ch :: more, by simp [chainsOf, hr, hand]⟩

/-- An entry goes on to the next one in use. -/
theorem chainsOf_cons_of_chained {e : PermitEntry × Nat} {rest ch : List (PermitEntry × Nat)}
    {more : List (List (PermitEntry × Nat))} (hand : e.1.andFlag = true) (hr : chainsOf rest = ch :: more) :
    chainsOf (e :: rest) = (e :: ch) :: more := by
  simp [chainsOf, hr, hand]

/-- An entry ends its chain where its AND flag is clear or no entry in use follows. -/
theorem chainsOf_cons_of_last {e : PermitEntry × Nat} {rest : List (PermitEntry × Nat)}
    (h : e.1.andFlag = true → rest = []) : chainsOf (e :: rest) = [e] :: chainsOf rest := by
  cases hand : e.1.andFlag with
  | true => rw [h hand]; rfl
  | false => rw [chainsOf]; cases chainsOf rest <;> simp [hand]

/-- The entries in use among a list whose first has an index, with their indexes. -/
def inUseFrom (n : Nat) (es : List PermitEntry) : List (PermitEntry × Nat) :=
  (es.zipIdx n).filter fun e => e.1.inUse

@[simp] theorem inUseFrom_nil (n : Nat) : inUseFrom n [] = [] := rfl

theorem inUseFrom_cons_of_unused {e : PermitEntry} (n : Nat) (es : List PermitEntry) (h : e.inUse = false) :
    inUseFrom n (e :: es) = inUseFrom (n + 1) es := by
  simp [inUseFrom, h]

theorem inUseFrom_cons_of_inUse {e : PermitEntry} (n : Nat) (es : List PermitEntry) (h : e.inUse = true) :
    inUseFrom n (e :: es) = (e, n) :: inUseFrom (n + 1) es := by
  simp [inUseFrom, h]

theorem any_inUse_iff {es : List PermitEntry} (n : Nat) : es.any PermitEntry.inUse = true ↔ inUseFrom n es ≠ [] := by
  induction es generalizing n with
  | nil => simp
  | cons e es ih => cases h : e.inUse <;> simp [h, inUseFrom_cons_of_unused, inUseFrom_cons_of_inUse, ih (n + 1)]

theorem chained_iff {e : PermitEntry} {rest : List PermitEntry} (n : Nat) :
    chained e rest = true ↔ e.andFlag = true ∧ inUseFrom n rest ≠ [] := by
  rw [chained, Bool.and_eq_true, any_inUse_iff n]

/-! ### The scan (R180) -/

/-- What a matched chain answers: its last entry's index and verdict. -/
def conclusionOf (ch : List (PermitEntry × Nat)) : Option (Nat × Verdict) :=
  ch.getLast?.map fun e => (e.2, e.1.verdict)

/-- What the first chain that matches answers. -/
def State.firstMatch (s : State) (q : Subject) (chains : List (List (PermitEntry × Nat))) :
    Option (Nat × Verdict) :=
  (chains.find? fun ch => s.chainMatches q ch fullMask).bind conclusionOf

/-- What a scan in progress answers: the first chain is what is left of the one begun, which goes on under its
mask, or has failed where `skip` holds. -/
def State.resume (s : State) (q : Subject) (mask : BitVec 32) (skip : Bool) :
    List (List (PermitEntry × Nat)) → Option (Nat × Verdict)
  | [] => none
  | ch :: more => if !skip && s.chainMatches q ch mask then conclusionOf ch else s.firstMatch q more

section
variable (s : State) (q : Subject)

/-- With no chain begun, the scan in progress looks for the first match. -/
theorem State.resume_fullMask (chains : List (List (PermitEntry × Nat))) :
    s.resume q fullMask false chains = s.firstMatch q chains := by
  cases chains with
  | nil => rfl
  | cons ch more => cases h : s.chainMatches q ch fullMask <;> simp [resume, firstMatch, h]

theorem State.resume_failed (mask : BitVec 32) (ch : List (PermitEntry × Nat))
    (more : List (List (PermitEntry × Nat))) : s.resume q mask true (ch :: more) = s.firstMatch q more := by
  simp [resume]

/-- A chain that has failed before or at an entry leaves the rest of that chain unread. -/
theorem State.resume_of_failing {mask : BitVec 32} {skip : Bool} {e : PermitEntry × Nat}
    (rest : List (PermitEntry × Nat)) (h : skip = true ∨ s.testEntry q e.1 mask = none) :
    s.resume q mask skip (chainsOf (e :: rest)) = s.resume q fullMask e.1.andFlag (chainsOf rest) := by
  have fails (ch : List (PermitEntry × Nat)) (more : List (List (PermitEntry × Nat))) :
      s.resume q mask skip ((e :: ch) :: more) = s.firstMatch q more := by
    obtain hs | ht := h
    · rw [hs, State.resume_failed]
    · simp [resume, chainMatches, ht]
  cases hand : e.1.andFlag with
  | false => rw [chainsOf_cons_of_last (by simp [hand]), fails, State.resume_fullMask]
  | true =>
    cases rest with
    | nil => rw [chainsOf_cons_of_last fun _ => rfl, fails]; rfl
    | cons f l =>
      obtain ⟨ch, more, hr⟩ := exists_chainsOf_cons f l
      rw [chainsOf_cons_of_chained hand hr, fails, hr, State.resume_failed]

/-- A matching entry that goes on hands its mask to the rest of its chain. -/
theorem State.resume_of_match_chained {mask m : BitVec 32} {e : PermitEntry × Nat} {rest : List (PermitEntry × Nat)}
    (ht : s.testEntry q e.1 mask = some m) (hand : e.1.andFlag = true) (hne : rest ≠ []) :
    s.resume q mask false (chainsOf (e :: rest)) = s.resume q m false (chainsOf rest) := by
  obtain ⟨f, l, rfl⟩ := List.exists_cons_of_ne_nil hne
  obtain ⟨ch, more, hr⟩ := exists_chainsOf_cons f l
  have last : conclusionOf (e :: f :: ch) = conclusionOf (f :: ch) := by
    rw [conclusionOf, conclusionOf, List.getLast?_cons_cons]
  simp [chainsOf_cons_of_chained hand hr, hr, resume, chainMatches, ht, last]

/-- A matching entry that ends its chain gives its verdict. -/
theorem State.resume_of_match_last {mask m : BitVec 32} {e : PermitEntry × Nat} {rest : List (PermitEntry × Nat)}
    (ht : s.testEntry q e.1 mask = some m) (h : e.1.andFlag = true → rest = []) :
    s.resume q mask false (chainsOf (e :: rest)) = some (e.2, e.1.verdict) := by
  simp [chainsOf_cons_of_last h, resume, chainMatches, ht, conclusionOf]

/-- The scan, from any entry on and in any state of its chain, is the search over the chains that are left. -/
theorem State.scan_eq_resume (es : List PermitEntry) (n : Nat) (mask : BitVec 32) (skip : Bool) :
    s.scan q es n mask skip = s.resume q mask skip (chainsOf (inUseFrom n es)) := by
  induction es generalizing n mask skip with
  | nil => rfl
  | cons e es ih =>
    cases hu : e.inUse with
    | false => simp [scan, hu, ih, inUseFrom_cons_of_unused]
    | true =>
      rw [inUseFrom_cons_of_inUse n es hu]
      cases skip with
      | true => simp [scan, hu, ih, State.resume_of_failing]
      | false =>
        cases ht : s.testEntry q e mask with
        | none => simp [scan, hu, ht, ih, State.resume_of_failing]
        | some m =>
          by_cases hc : chained e es = true
          · obtain ⟨hand, hne⟩ := (chained_iff (n + 1)).1 hc
            simp [scan, hu, ht, hc, ih, s.resume_of_match_chained q (e := (e, n)) ht hand hne]
          · have ends : e.andFlag = true → inUseFrom (n + 1) es = [] := fun hand =>
              not_not.1 fun hne => hc ((chained_iff (n + 1)).2 ⟨hand, hne⟩)
            simp [scan, hu, ht, hc, s.resume_of_match_last q (e := (e, n)) ht ends]

/-- The whole scan answers what the first matching chain does. -/
theorem State.scan_eq_firstMatch :
    s.scan q s.permits.entries 0 fullMask false = s.firstMatch q (chainsOf (inUseFrom 0 s.permits.entries)) := by
  rw [State.scan_eq_resume, State.resume_fullMask]

theorem State.verdict_eq_ruling : s.verdict q = s.ruling q := by
  rw [verdict, State.scan_eq_firstMatch, firstMatch, ruling, inUseFrom]
  cases (chainsOf (s.permits.entries.zipIdx.filter fun e => e.1.inUse)).find?
      fun ch => s.chainMatches q ch fullMask with
  | none => rfl
  | some ch => cases h : ch.getLast? <;> simp [conclusionOf, h]

end

/-! ### One test (R178, R179) -/

theorem Property.isSigned_iff {p : Property} : p.isSigned = true ↔ p = .targetAz ∨ p = .targetEl := by
  cases p <;> simp [isSigned]

theorem atOrAbove_iff {p : Property} {x v : BitVec 32} :
    atOrAbove p.isSigned x v = true ↔
      if p = .targetAz ∨ p = .targetEl then v.toInt ≤ x.toInt else v.toNat ≤ x.toNat := by
  simp only [atOrAbove, ← Property.isSigned_iff]
  split <;> exact decide_eq_true_iff

theorem not_atOrAbove_iff {p : Property} {x v : BitVec 32} :
    (!atOrAbove p.isSigned x v) = true ↔
      if p = .targetAz ∨ p = .targetEl then x.toInt < v.toInt else x.toNat < v.toNat := by
  rw [Bool.not_eq_true', ← Bool.not_eq_true, atOrAbove_iff]
  split <;> exact not_le

section
variable {s : State} {q : Subject} {e : PermitEntry}

theorem State.testEntry_setMask (mask : BitVec 32) (h : e.property = .setMask) :
    s.testEntry q e mask = some e.value := if_pos h

theorem State.testEntry_of_absent (mask : BitVec 32) (hm : e.property ≠ .setMask)
    (hp : s.property q e.property = none) : s.testEntry q e mask = none := by
  simp [testEntry, hm, hp]

theorem State.testEntry_of_present (mask : BitVec 32) {p : Int} (hm : e.property ≠ .setMask)
    (hp : s.property q e.property = some p) :
    s.testEntry q e mask =
      if e.compare.holds e.property.isSigned (BitVec.ofInt 32 p) e.value mask then some mask else none := by
  simp [testEntry, hm, hp]

/-- An entry whose property is present matches as its compare holds. -/
theorem State.testEntry_eq_some_iff (mask : BitVec 32) {p : Int} (hm : e.property ≠ .setMask)
    (hp : s.property q e.property = some p) :
    s.testEntry q e mask = some mask ↔
      e.compare.holds e.property.isSigned (BitVec.ofInt 32 p) e.value mask = true := by
  simp [State.testEntry_of_present mask hm hp]

end

/-! ### The values seen (R177) -/

theorem LockEntry.reaches_eq (e : LockEntry) (a : Ant) :
    e.reaches a = decide (e.scope = none ∨ e.scope = some a) := by
  cases h : e.scope <;> simp [reaches, h]

theorem State.lockCount_eq_countP (s : State) (a : Ant) :
    s.lockCount a = s.locks.entries.countP fun e => decide (e.scope = none ∨ e.scope = some a) := by
  rw [lockCount, ← List.countP_eq_length_filter]
  exact List.countP_congr fun e _ => by rw [LockEntry.reaches_eq]

/-- Settles O24: the scan is the search over the chains, a test is its compare, and the values are read off. -/
theorem permitScanFollowsTheChains : Obligations.PermitScanFollowsTheChains := by
  refine ⟨State.verdict_eq_ruling, fun s q e mask => ⟨State.testEntry_setMask mask, fun hm =>
    ⟨State.testEntry_of_absent mask hm, fun p hp => ?test⟩⟩, fun s q => ?values⟩
  case test =>
    intro x signed
    have matched := State.testEntry_eq_some_iff mask hm hp
    refine ⟨?_, fun hc => ?eq, fun hc => ?ne, fun hc => ?ge, fun hc => ?lt⟩
    · rw [State.testEntry_of_present mask hm hp]
      split
      · exact .inl rfl
      · exact .inr rfl
    all_goals rw [matched, hc, Compare.holds]
    case eq => exact decide_eq_true_iff
    case ne => exact decide_eq_true_iff
    case ge => exact atOrAbove_iff
    case lt => exact not_atOrAbove_iff
  case values =>
    refine ⟨rfl, ?kind, rfl, ?wind, ?ice, rfl, rfl, rfl, ?locks⟩
    case kind => cases h : q.kind <;> simp [State.property, PermitKind.num, h]
    case wind => cases h : s.wind.cls <;> simp [State.property, WindClass.num, h]
    case ice => cases h : s.iceClass q.ant <;> simp [State.property, iceSteps, h]
    case locks => rw [State.property, State.lockCount_eq_countP]; rfl

end Sys2Proof.Machine
end

