-- ==== Sys2Proof/Proofs/Links.lean ====
section
/-! PROOFS. The Link Front (R186 to R198): what the taking of a frame and the end of an event make of one link record,
and a request that changes its own link's record alone. -/

namespace Sys2Proof.Machine

/-! ### The end of an event on one link (R195, R196) -/

@[simp] theorem LinkRecord.conclude_enable (p l : LinkRecord) (c e w : FlagWord) :
    (p.conclude l c e w).enable = l.enable := by
  unfold LinkRecord.conclude; dsimp only; split <;> rfl

@[simp] theorem LinkRecord.conclude_reply (p l : LinkRecord) (c e w : FlagWord) :
    (p.conclude l c e w).reply = l.reply := by
  unfold LinkRecord.conclude; dsimp only; split <;> rfl

/-- Flags that were set as the frame was taken are not set again at the end of its event (R195). -/
theorem LinkRecord.conclude_flags_early (p l : LinkRecord) (c w : FlagWord) :
    (p.conclude l c w w).flags = l.flags := by
  simp [LinkRecord.conclude_flags]

theorem announce_link (s t : State) (k : Link) : (announce s t).link k =
    (s.link k).conclude (t.link k) (Link.mask k) t.scratch.early (t.scratch.raised ||| changesBetween s t) :=
  Links.get_map ..

/-! ### Taking a frame (R121, R188) -/

theorem State.setEarly_link (s : State) (w : FlagWord) (k : Link) :
    (s.setEarly w).link k = (s.link k).setFlags (Link.mask k) w := Links.get_map ..

theorem State.takeFrame_link (s : State) (l k : Link) : (s.takeFrame l).link k =
    (if k = l then (s.link l).take s.now else s.link k).setFlags (Link.mask k) (s.heardFlags l) := by
  rw [State.takeFrame, State.setEarly_link]
  exact congrArg (LinkRecord.setFlags · _ _) (State.link_modLink s l k fun r => r.take s.now)

theorem windFlagSet_heard (w : Wind) (l : Link) :
    windFlagSet w (w.heard l) = (decide (l = .safety) && w.silence) := by
  by_cases h : l = .safety <;> simp [windFlagSet, Wind.heard, h]

/-- The links are no part of what an event's changes are read from, and the SILENCE source sets WIND alone (R138). -/
theorem changesBetween_takeFrame (s : State) (l : Link) : changesBetween s (s.takeFrame l) = s.heardFlags l := by
  have others (a : Ant) : antChanges s (s.takeFrame l) a = 0 := antChanges_self s a
  have ice : iceFlagSet s (s.takeFrame l) = false := by
    simp [iceFlagSet, State.takeFrame, State.iceClass, State.ice]
  have wind : (s.takeFrame l).wind = s.wind.heard l := rfl
  simp [changesBetween, others, ice, wind, windFlagSet_heard, State.heardFlags, Ant.all, wordIf]

/-! ### A request that changes its own link's record alone -/

/-- A request open to its link that changes its own link's record alone: the record as its frame leaves it takes the
change and the reply, and the event sets no flag beyond WIND, which the taking has set (R121, R188, R195). -/
theorem serve_ownLink {s : State} {l : Link} {k : Kind} {tag : Byte} {fits : List Byte → Bool}
    {b : LinkRecord → ReplyBody} {f : LinkRecord → LinkRecord} (hopen : k.openTo l = true)
    (taken : s.takes l k tag fits) (hr : s.scratch.raised = 0) (he : s.scratch.early = 0) :
    ∃ t, serve l k tag s (fun s => okWith (b (s.link l)) (s.modLink l f)) fits = .next t
      ∧ t.link l = (s.link l).conclude
          ((f ((s.takeFrame l).link l)).answer ⟨replyKind k.code, tag, .ok, b ((s.takeFrame l).link l)⟩)
          (Link.mask l) (s.heardFlags l) (s.heardFlags l) := by
  obtain ⟨powered, may⟩ := taken
  refine ⟨_, rfl, ?_⟩
  let u := ((s.takeFrame l).modLink l f).answer l k.code tag .ok (b ((s.takeFrame l).link l))
  have served : takeAndAnswer l k.code tag s
      (dispatch l k fun s => okWith (b (s.link l)) (s.modLink l f)) = u := by
    simp only [takeAndAnswer, dispatch, hopen, if_true, okWith]; rfl
  have marks : u.scratch = { s.scratch with early := s.scratch.early ||| s.heardFlags l } := rfl
  have changes : changesBetween s u = s.heardFlags l := changesBetween_takeFrame s l
  have record : u.link l = (f ((s.takeFrame l).link l)).answer
      ⟨replyKind k.code, tag, .ok, b ((s.takeFrame l).link l)⟩ := by
    simp [u, State.answer]
  have noFlags (w : FlagWord) : 0 ||| w = w := BitVec.zero_or
  simp only [onPower, powered, may, if_true, served, announce_link, marks, changes, record, hr, he, noFlags]

/-- A request that its link may not send is answered BAD_KIND (R189). -/
theorem serve_notOpen {s : State} {l : Link} {k : Kind} {tag : Byte} {fits : List Byte → Bool}
    (owner : State → Answer) (closed : k.openTo l = false) (taken : s.takes l k tag fits) :
    ∃ t, serve l k tag s owner fits = .next t ∧ t.replied l k tag .badKind .empty := by
  obtain ⟨powered, may⟩ := taken
  refine ⟨_, rfl, ?_⟩
  simp [State.replied, onPower, powered, may, takeAndAnswer, dispatch, closed, refuse, announce_link, State.answer,
    LinkRecord.answer]

/-! ### The wide links' flags (R195, R210) -/

/-- Operations and Safety carry every flag. -/
theorem and_mask_of_wide {l : Link} (wide : ∀ p, l ≠ .pendant p) (w : FlagWord) : w &&& Link.mask l = w := by
  have all : Link.mask l = BitVec.allOnes 40 := by
    cases l with
    | operations => rfl
    | safety => rfl
    | pendant p => exact absurd rfl (wide p)
  rw [all, BitVec.and_allOnes]

theorem or_stationFlag_eq_self_iff (w : FlagWord) (f : StationFlag) :
    w ||| stationFlag f = w ↔ w.getLsbD f.bit = true := by
  have inside : f.bit < 40 := by cases f <;> decide
  constructor
  · intro h
    rw [← h]
    simp [stationFlag, inside]
  · intro h
    ext i hi
    have set : i = f.bit → w[i] = true := by
      rintro rfl
      rwa [← BitVec.getLsbD_eq_getElem]
    simpa [stationFlag, BitVec.getElem_twoPow] using set

end Sys2Proof.Machine
end

