-- ==== Sys2Proof/Proofs/Enables.lean ====
section
/-! PROOFS. The notice enables (R186, R198): which operations and commands leave a link's enable as it is. -/

namespace Sys2Proof.Machine

variable {s t u : State} {k : Link} {ps : List Part}

/-! ### One link's enable -/

/-- The link's notice enable is the same in both states. -/
def SameEnable (k : Link) (s t : State) : Prop := (t.link k).enable = (s.link k).enable

theorem SameEnable.refl (k : Link) (s : State) : SameEnable k s s := rfl

theorem SameEnable.trans (h : SameEnable k s t) (g : SameEnable k t u) : SameEnable k s u := Eq.trans g h

theorem SameEnable.ite {c : Prop} [Decidable c] (h : SameEnable k s t) (g : SameEnable k s u) :
    SameEnable k s (if c then t else u) := by
  split
  · exact h
  · exact g

/-- What leaves the links leaves every enable. -/
theorem SameEnable.of_moves (h : Moves ps s t) (hp : Part.links ∉ ps := by decide) : SameEnable k s t := by
  have links : t.links = s.links := h.touches.same .links hp
  rw [SameEnable, State.link, links, State.link]

theorem SameEnable.modLink {l : Link} {f : LinkRecord → LinkRecord} (h : ∀ r, (f r).enable = r.enable) :
    SameEnable k s (s.modLink l f) := by
  rw [SameEnable, State.link_modLink]
  split
  · next e => rw [h, e]
  · rfl

theorem SameEnable.takeFrame (s : State) (l : Link) : SameEnable k s (s.takeFrame l) := by
  rw [SameEnable, State.takeFrame_link]
  show LinkRecord.enable (if k = l then _ else _) = _
  split
  · next e => rw [e]; rfl
  · rfl

theorem SameEnable.answer (s : State) (l : Link) (kind tag : Byte) (c : Status) (b : ReplyBody) :
    SameEnable k s (s.answer l kind tag c b) := .modLink fun _ => rfl

theorem SameEnable.announce (s t : State) : SameEnable k t (announce s t) := by
  rw [SameEnable, announce_link, LinkRecord.conclude_enable]

theorem SameEnable.settle (s : State) : SameEnable k s s.settle := .of_moves (Follows.settle s)

/-! ### A command leaves an enable that its owner leaves -/

theorem onPower_sameEnable {f : State → State} (h : SameEnable k s (f s))
    (e : Host.Outcome.next (onPower s f) = (Host.Outcome.next t : Host.Outcome State Fault Refusal)) :
    SameEnable k s t := by
  obtain rfl := Host.Outcome.next.inj e
  exact .ite h (.refl ..)

theorem takeAndAnswer_sameEnable {l : Link} {kind tag : Byte} {owner : State → Answer}
    (h : ∀ s, SameEnable k s (owner s).state) : SameEnable k s (takeAndAnswer l kind tag s owner) :=
  ((SameEnable.takeFrame s l).trans (h _)).trans (.answer ..)

section
variable {l : Link} {kind : Kind} {tag : Byte} {owner : State → Answer} {fits : List Byte → Bool}
variable {due : Bool} {body : State → State}

theorem serve_sameEnable_of (e : serve l kind tag s owner fits = .next t)
    (h : ∀ s, SameEnable k s (dispatch l kind owner s).state) : SameEnable k s t :=
  onPower_sameEnable (.ite ((takeAndAnswer_sameEnable h).trans (.announce ..)) (.refl ..)) e

theorem serve_sameEnable (e : serve l kind tag s owner fits = .next t) (h : ∀ s, Moves ps s (owner s).state)
    (hp : Part.links ∉ ps := by decide) : SameEnable k s t :=
  serve_sameEnable_of e (fun _ => .of_moves (dispatch_moves l kind h _) hp)

theorem request_sameEnable (e : request l kind tag s owner fits = .next t) (h : ∀ s, Moves ps s (owner s).state)
    (hp : Part.links ∉ ps := by decide) : SameEnable k s t := by
  have answered : SameEnable k s (takeAndAnswer l kind.code tag s (dispatch l kind owner)) :=
    takeAndAnswer_sameEnable fun _ => .of_moves (dispatch_moves l kind h _) hp
  exact onPower_sameEnable (.ite ((answered.trans (.settle _)).trans (.announce ..)) (.refl ..)) e

theorem occur_sameEnable (e : occur s due body = .next t) (h : Moves ps s (body s))
    (hp : Part.links ∉ ps := by decide) : SameEnable k s t := by
  have settled : SameEnable k s (body s).settle := (SameEnable.of_moves h hp).trans (.settle _)
  have ended : SameEnable k s (if due then event s body else s) := .ite (settled.trans (.announce ..)) (.refl ..)
  exact onPower_sameEnable (f := fun s => if due then event s body else s) ended e

theorem occurAlone_sameEnable (e : occurAlone s due body = .next t) (h : Moves ps s (body s))
    (hp : Part.links ∉ ps := by decide) : SameEnable k s t :=
  onPower_sameEnable (.ite ((SameEnable.of_moves h hp).trans (.announce ..)) (.refl ..)) e

end

/-! ### The Link Front's own rows -/

theorem LinkRecord.receiveAll_enable (n : Nat) (l : LinkRecord) : (receiveAll n l).enable = l.enable := by
  induction n generalizing l with
  | zero => rfl
  | succ n ih =>
    unfold receiveAll
    split
    · rfl
    · exact ih _
    · exact ih _
    · split
      · exact ih _
      · exact ih _

theorem frameReceived_sameEnable {l : Link} {bytes : List Byte} (e : execFrameReceived l bytes s = .next t) :
    SameEnable k s t :=
  onPower_sameEnable (.modLink (f := fun r => r.receiveBytes bytes) fun _ => LinkRecord.receiveAll_enable ..) e

theorem badKind_sameEnable {l : Link} {kind tag : Byte} {body : List Byte}
    (e : execBadKind l kind tag body s = .next t) : SameEnable k s t := by
  refine onPower_sameEnable ?_ e
  split
  · exact .refl ..
  · exact .ite ((takeAndAnswer_sameEnable fun _ => .refl ..).trans (.announce ..)) (.refl ..)

theorem replySent_sameEnable {l : Link} (e : execReplySent l s = .next t) : SameEnable k s t := by
  refine onPower_sameEnable (.ite ?_ (.refl ..)) e
  have sent : SameEnable k s (s.modLink l fun r => { r with reply := none }) := .modLink fun _ => rfl
  have formed := (sent.trans (.of_moves (Moves.markForm _))).trans (.settle _)
  exact .ite (formed.trans (.announce ..)) sent

theorem noticeSent_sameEnable {l : Link} (e : execNoticeSent l s = .next t) : SameEnable k s t := by
  refine onPower_sameEnable (.ite ?_ (.refl ..)) e
  exact .modLink fun _ => rfl

theorem changesAck_sameEnable {l : Link} {tag : Byte} {v m : FlagWord} (e : execChangesAck l tag v m s = .next t) :
    SameEnable k s t := by
  refine serve_sameEnable_of e (fun s => ?_)
  unfold dispatch
  split
  · exact .modLink fun _ => rfl
  · exact .refl ..

/-- No pendant's enable is in the reach of NOTICE_ENABLE: a pendant is refused, and a wide link sets its own (R198). -/
theorem noticeEnable_sameEnable {l : Link} {tag : Byte} {p : Ant} {b : State → ReplyBody}
    {f : LinkRecord → LinkRecord}
    (e : serve l .noticeEnable tag s (fun s => okWith (b s) (s.modLink l f)) = .next t) :
    SameEnable (.pendant p) s t := by
  refine serve_sameEnable_of e (fun s => ?_)
  cases l with
  | pendant q => exact .refl ..
  | operations => rw [SameEnable]; simp [dispatch, Kind.openTo, okWith]
  | safety => rw [SameEnable]; simp [dispatch, Kind.openTo, okWith]

theorem statusRead_sameEnable {l : Link} {tag : Byte} {sel : Selector} {part : Nat} {view : State → Content}
    (e : statusRead l tag sel part s view = .next t) : SameEnable k s t := by
  refine serve_sameEnable (ps := [.freeCount]) e (fun s => ?_)
  split
  · exact show_moves ..
  · exact refuse_moves ..

theorem statusReadOf_sameEnable {l : Link} {tag : Byte} {sel : Selector} {ant part : Nat}
    {view : State → Ant → Content} (e : statusReadOf l tag sel ant part s view = .next t) : SameEnable k s t := by
  refine serve_sameEnable (ps := [.freeCount]) e (fun s => ?_)
  split
  · split
    · exact show_moves ..
    · exact withAnt_moves fun _ => show_moves ..
  · exact refuse_moves ..

theorem timeSet_sameEnable {tag : Byte} {n : Nat} (e : execTimeSet tag n s = .next t) : SameEnable k s t := by
  have clock (s : State) (d : Epoch) : SameEnable k s (s.setClock d) := by
    have shifted : (s.setClock d).link k = (s.link k).shift (d - s.now) := s.link_shift ..
    rw [SameEnable, shifted]; rfl
  refine serve_sameEnable_of e (fun s => ?_)
  have opened : Kind.timeSet.openTo .operations = true := rfl
  rw [dispatch, opened, if_pos rfl]
  dsimp only [check]
  split
  · exact clock ..
  · exact .refl ..

theorem restart_sameEnable {tag : Byte} (e : execRestart tag s = .next t) : SameEnable k s t := by
  have links (s : State) : SameEnable k s s.restartLinks := by
    rw [SameEnable, State.link, State.restartLinks, Links.get_map]; rfl
  have blocks := (SameEnable.takeFrame (k := k) s .safety).trans (.of_moves (Moves.restartBlocks _))
  exact onPower_sameEnable
    (.ite (((blocks.trans (links _)).trans (.of_moves (Moves.clearScratch _))).trans (.answer ..)) (.refl ..)) e

theorem Links.initial_pendant_enable (p : Ant) : (Links.initial.get (.pendant p)).enable = true :=
  congrArg LinkRecord.enable (Six.get_const ..)

theorem powerOn_enable (e : execPowerOn s = .next t) (k : Link) : (t.link k).enable = (Links.initial.get k).enable := by
  have up (s : State) : (s.powerUp.link k).enable = (Links.initial.get k).enable := by
    have flagged (s : State) : SameEnable k s s.flagBad := by
      unfold State.flagBad
      refine .ite (.refl ..) ?_
      rw [SameEnable, State.link, State.setFlags, Links.get_map]; rfl
    have restored : SameEnable k s.booted (s.booted.restoreLockouts s.store.badSlots) :=
      .of_moves (Moves.restoreLockouts ..)
    exact restored.trans (flagged _)
  obtain rfl := Host.Outcome.next.inj e
  split
  · exact up _
  · exact up _

end Sys2Proof.Machine
end

