-- ==== Sys2Proof/Proofs/EnableFrames.lean ====
section
/-! PROOFS. Every command but POWER_ON and NOTICE_ENABLE leaves every link's notice enable as it is (R186, R198): what
each owner changes lies outside the links. -/

namespace Sys2Proof.Machine

variable {s t : State} {k : Link}

/-! ### What the owners of requests change -/

theorem Moves.writeAxis (s : State) (i : AxisId) (r : AxisRecord) :
    Moves [.drives, .axisSettings, .store] s (s.writeAxis i r) := by
  unfold State.writeAxis
  refine Moves.trans (Moves.trans ?_ (Moves.validate ..).to) (Moves.queueWrite ..).to
  exact Moves.to (ps := [.drives, .axisSettings]) (.setAxis (fun _ => ⟨rfl, rfl⟩) Axis.Lawful.of_same)

theorem Moves.writeStation (s : State) (r : StationRecord) :
    Moves [.feed, .figures, .store] s (s.writeStation r) := by
  unfold State.writeStation
  refine Moves.trans ?_ (Moves.raise ..).to
  refine Moves.trans ?_ (Moves.markFreedIf ..).to
  exact (Moves.modFeed_any id).to.trans (Moves.queueWrite ..).to

theorem burstDataAnswer_moves (s : State) (body : List Byte) :
    Moves [.burst, .tracks, .queues] s (s.burstData body).state := by
  unfold State.burstData
  split
  · exact refuse_moves ..
  · split
    · exact (Moves.noBurst s).to
    · split
      · exact refuse_moves ..
      · exact .takeData ..

theorem closeBurst_moves (s : State) (a : Ant) (n : Nat) (crc : BitVec 32) :
    Moves queueParts s (s.closeBurst a n crc).state := by
  have discarded : Moves queueParts s (s.discardBurst a) := (Moves.discardBurst ..).to
  unfold State.closeBurst
  split
  · exact discarded
  · exact discarded
  · split
    · exact discarded
    · split
      · exact discarded
      · exact .commitBurst ..

theorem planChecked_moves (s : State) (g : GroupId) (ms : List Proposed) :
    Moves ([.permits] ++ [.groups, .groupRecords]) s (s.planChecked g ms).state := by
  unfold State.planChecked
  split
  · exact .refl ..
  · exact planPermitted_moves (fun s => (planInto_moves ..).to) s

theorem armUncovered_moves (s : State) (g : GroupId) (e : Epoch) :
    Moves (followParts ++ [.groupRecords]) s (s.armUncovered g e).state := by
  unfold State.armUncovered
  split
  · exact .refl ..
  · unfold State.armGranted
    dsimp only
    split
    · exact .refl ..
    · exact okWith_moves (.armGroup ..)

theorem cancelGroup_moves (s : State) (g : GroupId) :
    Moves (followParts ++ [.groupRecords]) s (s.cancelGroup g).state := by
  have emptied (s : State) : Moves (followParts ++ [.groupRecords]) s (s.emptyGroup g) := (Moves.emptyGroup ..).to
  unfold State.cancelGroup
  split
  · exact refuse_moves ..
  · exact okWith_moves (emptied s)
  · exact okWith_moves ((Follows.releaseGroup ..).to.trans (emptied _))
  · exact okWith_moves (.haltGroup ..)
  · exact okWith_moves (emptied s)
  · split
    · exact refuse_moves ..
    · exact okWith_moves (emptied s)

theorem forceOut_moves (s : State) (n : Nat) (e : LockEntry) :
    Moves (.hornTimers :: removeParts) s (s.forceOut n e).state := by
  refine check_moves (okWith_moves ?_)
  exact (Moves.removeEntry ..).to.trans (Moves.forEach (fun s a => Moves.startForceTimer s a) _ _).to

theorem Moves.claimLocal (s : State) (n : Ant) : Moves (queueParts ++ [.authority]) s (s.claimLocal n) := by
  unfold State.claimLocal
  refine Moves.trans ?_ (Moves.terminateBurst ..).to
  exact (Moves.modAuthority_any ..).to.trans (Moves.haltQueue ..).to

theorem withHeatAnt_moves {ps : List Part} {h : HeatSender} {go : Ant → Answer} (m : ∀ a, Moves ps s (go a).state) :
    Moves ps s (withHeatAnt s h go).state := by
  unfold withHeatAnt
  split
  · exact withAnt_moves m
  · exact m _

/-! ### What the bodies of events change -/

theorem Moves.startGroup (s : State) (g : GroupId) : Moves (followParts ++ [.groupRecords]) s (s.startGroup g) := by
  unfold State.startGroup
  dsimp only
  refine Moves.trans (Moves.modGroup_any ..).to (Moves.forEach (fun s p => ?_) _ _)
  exact .ite (Follows.beginProfile ..).to (.refl ..)

theorem Moves.finishGroup (s : State) (g : GroupId) : Moves (followParts ++ [.groupRecords]) s (s.finishGroup g) :=
  (Follows.releaseGroup ..).to.trans (Moves.modGroup_any ..).to

theorem Moves.servo (s : State) (io : FieldInputs) :
    Moves [.field, .drives, .places, .authorities, .groups, .groupRecords, .store] s (s.servo io) := by
  unfold State.servo
  refine Moves.trans ?_ (Moves.forEach (fun s g => Moves.servoGroup s g) _ _).to
  exact (Moves.readField ..).to.trans (Moves.forEach (fun s i => Moves.servoAxis s i) _ _).to

theorem Moves.endProfile (s : State) (i : AxisId) (p : Profile) :
    Moves [.drives, .places, .feed] s (s.endProfile i p) := .placeAndEnter _ fun _ => rfl

theorem Moves.arriveIfDriving (s : State) (i : AxisId) : Moves pinParts s (s.arriveIfDriving i) := by
  unfold State.arriveIfDriving
  exact .ite (Moves.arrive ..).to (.refl ..)

theorem Follows.bringUp (s : State) (a : Ant) : Follows s (s.bringUp a) := by
  unfold State.bringUp
  refine Follows.trans ?_ (.runFieldTimers ..)
  refine Follows.trans ?_ (Follows.forEach (fun s i => .ite (.enterAxis ..) (.refl ..)) _ _)
  exact .modAnt fun _ => ⟨rfl, rfl⟩

theorem Moves.failPrecharge (s : State) (a : Ant) : Moves haltParts s (s.failPrecharge a) := by
  unfold State.failPrecharge
  refine Moves.trans (t := s.modAnt a Antenna.busOff) ?_
    (Moves.forEach (fun s i => .ite (.faultAxis ..) (.refl ..)) _ _)
  exact Moves.to (ps := followParts) (Follows.modAnt fun _ => ⟨rfl, rfl⟩)

theorem Moves.loseBand (s : State) (a : Ant) : Moves haltParts s (s.loseBand a) := by
  unfold State.loseBand
  refine Moves.trans ?_ (Moves.forEach (fun s i => .ite (.faultAxis ..) (.refl ..)) _ _)
  refine Moves.trans ?_ (Follows.runFieldTimers ..).to
  exact Moves.to (ps := followParts) (Follows.modAnt fun _ => ⟨rfl, rfl⟩)

theorem Moves.activeReported (s : State) (i : AxisId) :
    Moves ([.field, .axisSettings] ++ haltParts) s (s.activeReported i) := by
  unfold State.activeReported
  split
  · exact Moves.to (ps := [.drives, .axisSettings]) (.setAxis (fun _ => ⟨rfl, rfl⟩) Axis.Lawful.of_same)
  · exact (Moves.faultAxis ..).to

theorem Moves.completeWrite (s : State) : Moves [.store] s s.completeWrite := by
  unfold State.completeWrite
  split
  · exact .refl ..
  · exact .modStore (Store.alike_complete ..)

theorem Moves.expireShed (s : State) : Moves [.feed] s (s.modFeed fun f =>
    { f with shed := { f.shed with active := false, expiry := none } }) :=
  .modFeed (fun _ => ⟨rfl, rfl, rfl, rfl⟩) id

/-! ### Every command -/

/-- The commands that set a notice enable: POWER_ON and NOTICE_ENABLE (R186, R198). -/
def setsEnable : Instr → Bool
  | .powerOn | .noticeEnableOn _ _ | .noticeEnableOff _ _ => true
  | _ => false

/-- Every other command leaves every link's notice enable as it is. -/
theorem exec_sameEnable {c : Instr} (h : setsEnable c = false) (e : exec c s = .next t) : SameEnable k s t := by
  cases c with
  | powerOn => cases h
  | noticeEnableOn => cases h
  | noticeEnableOff => cases h
  | powerLoss => exact .of_moves (powerLoss_moves e)
  | frameReceived => exact frameReceived_sameEnable e
  | badKind => exact badKind_sameEnable e
  | replySent => exact replySent_sameEnable e
  | noticeSent => exact noticeSent_sameEnable e
  | statusReadAntenna => exact statusReadOf_sameEnable e
  | statusReadTrack => exact statusReadOf_sameEnable e
  | statusReadGroup => exact statusRead_sameEnable e
  | statusReadLockouts => exact statusRead_sameEnable e
  | statusReadWind => exact statusRead_sameEnable e
  | statusReadHeat => exact statusRead_sameEnable e
  | statusReadBudget => exact statusRead_sameEnable e
  | statusReadStore => exact statusRead_sameEnable e
  | statusReadPermit => exact statusRead_sameEnable e
  | changesAck => exact changesAck_sameEnable e
  | timeSet => exact timeSet_sameEnable e
  | restart => exact restart_sameEnable e
  | axisEnableOn =>
    exact request_sameEnable e (fun _ => withAnt_moves fun _ => check_moves (check_moves (check_moves (check_moves
      (okWith_moves (Follows.enableBus ..))))))
  | axisEnableHold =>
    exact request_sameEnable e (fun _ => withAnt_moves fun _ => check_moves (check_moves (check_moves (check_moves
      (okWith_moves (Follows.forEach (fun s i => Follows.addClaim s i .operations) _ _))))))
  | axisEnableOff =>
    exact request_sameEnable e (fun _ => withAnt_moves fun _ => check_moves (check_moves (check_moves (check_moves
      (okWith_moves (Follows.disable ..))))))
  | driveReset => exact request_sameEnable e (fun _ => withAnt_moves fun _ => Moves.resetDrives ..)
  | encoderSelect =>
    exact serve_sameEnable e (fun _ => withAxis_moves fun _ => withCode_moves fun _ => check_moves (check_moves
      (okWith_moves (Moves.setActive ..))))
  | encoderDisable =>
    exact serve_sameEnable e (fun _ => withAxis_moves fun _ => withCode_moves fun _ => check_moves
      (okWith_moves (Moves.setEnabled ..)))
  | encoderRestore =>
    exact serve_sameEnable e (fun _ => withAxis_moves fun _ => withCode_moves fun _ =>
      okWith_moves (Moves.setEnabled ..))
  | configWriteAxis =>
    exact serve_sameEnable e (fun _ => withAxis_moves fun _ => check_moves (check_moves (check_moves
      (okOrClamped_moves (Moves.writeAxis ..)))))
  | configWriteStation =>
    refine request_sameEnable (ps := [.feed, .figures, .store]) e (fun s => ?_)
    dsimp only
    split
    · exact check_moves (okOrClamped_moves (.writeStation ..))
    · exact .refl ..
  | configWriteZone =>
    exact request_sameEnable e (fun _ => withAnt_moves fun _ => withCode_moves fun _ => check_moves (check_moves
      (okOrClamped_moves (Moves.rewriteZone ..))))
  | configWriteWind =>
    refine request_sameEnable (ps := takeParts ++ [.wind, .store]) e (fun s => ?_)
    split
    · exact refuse_moves ..
    · exact check_moves (okOrClamped_moves (.writeWind ..))
  | burstOpen =>
    exact serve_sameEnable (ps := [.permits] ++ [.burst]) e (fun s => withAnt_moves fun a => check_moves (check_moves
      (check_moves (check_moves (check_moves (check_moves (check_moves (check_moves (check_moves (check_moves
      (check_moves (permitted_moves fun s => okWith_moves (Moves.setBurst s _).to))))))))))))
  | burstData => exact serve_sameEnable e (fun s => burstDataAnswer_moves s _)
  | burstClose =>
    refine request_sameEnable (ps := queueParts) e (fun s => ?_)
    split
    · exact (Moves.noBurst s).to
    · exact closeBurst_moves ..
  | burstAbort =>
    refine serve_sameEnable (ps := [.burst, .tracks, .queues]) e (fun s => ?_)
    split
    · exact (Moves.noBurst s).to
    · exact .discardBurst ..
  | trackClear =>
    exact request_sameEnable e (fun _ => withAnt_moves fun _ => check_moves (okWith_moves (.clearTrack ..)))
  | groupPlan =>
    exact serve_sameEnable e (fun _ => withGroup_moves fun _ => withCode_moves fun _ => check_moves
      (planChecked_moves ..))
  | groupArm =>
    exact request_sameEnable e (fun _ => withGroup_moves fun _ => check_moves (check_moves (check_moves
      (armUncovered_moves ..))))
  | groupCancel => exact request_sameEnable e (fun _ => withGroup_moves fun _ => cancelGroup_moves ..)
  | groupRead =>
    refine serve_sameEnable (ps := []) e (fun s => withGroup_moves fun g => ?_)
    dsimp only
    split
    · exact .refl ..
    · exact .refl ..
  | holdPlace => exact request_sameEnable e (fun _ => askPlacement_moves _)
  | lockPlace => exact request_sameEnable e (fun _ => askPlacement_moves _)
  | holdRemove => exact request_sameEnable e (fun _ => removeFor_moves ..)
  | lockRemove tag sender slot =>
    cases sender with
    | pendant =>
      exact request_sameEnable (ps := removeParts) e (fun s => withEntry_moves fun _ => check_moves (takeOut_moves ..))
    | safety => exact request_sameEnable (ps := removeParts) e (fun s => removeFor_moves ..)
  | forceRemove => exact request_sameEnable e (fun _ => withEntry_moves fun _ => check_moves (forceOut_moves ..))
  | localClaim =>
    refine request_sameEnable (ps := [.permits] ++ (queueParts ++ [.authority])) e (fun s => ?_)
    split
    · exact check_moves (check_moves (permitted_moves fun s => okWith_moves (Moves.claimLocal ..).to))
    · exact okWith_moves (.refl ..)
  | localRelease => exact request_sameEnable e (fun _ => okWith_moves (.ite (.refl ..) (.endLocal ..)))
  | jog =>
    exact request_sameEnable e (fun _ => withCode_moves fun _ => withCode_moves fun _ => check_moves (askJog_moves ..))
  | heatSet =>
    exact request_sameEnable e (fun _ => withHeatAnt_moves fun _ => withCode_moves fun _ => withCode_moves fun _ =>
      askHeat_moves ..)
  | iceFloor =>
    exact request_sameEnable e (fun _ => withAnt_moves fun _ => withCode_moves fun _ => okWith_moves (.setFloor ..))
  | weather => exact serve_sameEnable e (fun _ => check_moves (okWith_moves (.report ..)))
  | stowDemandOn => exact request_sameEnable e (fun _ => okWith_moves (.setSafety ..))
  | stowDemandOff => exact request_sameEnable e (fun _ => okWith_moves (.setSafety ..))
  | stowRelease =>
    exact request_sameEnable e (fun _ => check_moves (check_moves (check_moves (okWith_moves
      (Follows.forEach (fun s a => Follows.releaseStow s a) _ _)))))
  | allStop => exact request_sameEnable e (fun _ => okWith_moves (.stopAll ..))
  | permitWrite =>
    refine serve_sameEnable (ps := [.permits, .store]) e (fun s => ?_)
    split
    · exact askDefault_moves ..
    · exact askPermit_moves ..
  | permitWriteDefault => exact serve_sameEnable e (fun _ => askDefault_moves ..)
  | burstTimeout =>
    refine occurAlone_sameEnable (ps := [.burst, .tracks, .queues]) e ?_
    split
    · exact .refl ..
    · exact .terminateBurst ..
  | queuePrepare => exact occur_sameEnable e (.prepareQueue ..)
  | queueStarting => exact occurAlone_sameEnable e (.startingQueue ..)
  | queueRunStart =>
    refine occur_sameEnable (ps := runParts) e ?_
    split
    · exact .refl ..
    · exact .startRun ..
  | queueLate => exact occur_sameEnable e (.haltQueue ..)
  | segmentComplete => exact occur_sameEnable e ((Moves.completeSegments ..).trans (Moves.interpolate ..).to)
  | groupStart => exact occur_sameEnable e (.startGroup ..)
  | groupStartGraceExpiry => exact occur_sameEnable e (.haltGroup ..)
  | groupDone => exact occur_sameEnable e (.finishGroup ..)
  | groupSettleLimit => exact occur_sameEnable e (.haltGroup ..)
  | pendantSilenceExpiry => exact occur_sameEnable e (.endLocal ..)
  | jogDeadman => exact occur_sameEnable e (Follows.endJog ..)
  | forceRemovalTimerExpiry =>
    exact occurAlone_sameEnable e ((Moves.modHorn_any ..).trans (Moves.refreshHorn ..).to)
  | warningTimerExpiry =>
    exact occurAlone_sameEnable (ps := [.stow, .horns]) e ((Moves.modStow ..).to.trans (Moves.refreshHorn ..).to)
  | servoStep => exact occurAlone_sameEnable e (.servo ..)
  | profileEnd =>
    refine occur_sameEnable (ps := [.places] ++ pinParts) e ?_
    split
    · exact .refl ..
    · exact (Moves.endProfile ..).to.trans (Moves.arriveIfDriving ..).to
  | stopEnd =>
    refine occur_sameEnable (ps := [.drives, .places, .feed]) e ?_
    split
    · exact .refl ..
    · exact .finishStop ..
  | busUp => exact occur_sameEnable e (Follows.bringUp ..)
  | prechargeTimeout => exact occur_sameEnable e (.failPrecharge ..)
  | busOutOfBand => exact occur_sameEnable e (.loseBand ..)
  | busBackInBand =>
    refine occur_sameEnable (ps := followParts) e (Follows.trans ?_ (.runFieldTimers ..))
    exact .modAnt fun _ => ⟨rfl, rfl⟩
  | holdingCurrentReached i =>
    refine occur_sameEnable (ps := [.field] ++ followParts) e ?_
    have field := (Moves.modAxisIn s i AxisInputs.reachCurrent).to (qs := [.field] ++ followParts)
    exact .ite (field.trans (Follows.startHolding ..).to) field
  | torqueUpTimeout => exact occur_sameEnable e (.faultAxis ..)
  | brakeReleaseConfirmed i =>
    refine occur_sameEnable (ps := [.field] ++ followParts) e ?_
    have field := (Moves.modAxisIn s i AxisInputs.makeReleased).to (qs := [.field] ++ followParts)
    exact .ite (field.trans (Follows.confirmRelease ..).to) field
  | releaseCheckTimeout => exact occur_sameEnable e (.faultAxis ..)
  | brakeSetConfirmed i =>
    refine occur_sameEnable (ps := [.field] ++ followParts) e ?_
    have field := (Moves.modAxisIn s i AxisInputs.makeSet).to (qs := [.field] ++ followParts)
    exact .ite (field.trans (Follows.enterAxis ..).to) field
  | brakeSetTimeout => exact occur_sameEnable e (.faultAxis ..)
  | idleBrakeExpiry => exact occur_sameEnable e (Follows.stopAxis ..)
  | encoderDisagreementFault => exact occur_sameEnable e (.faultAxis ..)
  | encoderFaultReport i c =>
    refine occur_sameEnable (ps := [.field, .axisSettings] ++ haltParts) e ?_
    have field := ((Moves.modAxisIn s i fun io => AxisInputs.setReport io c true).to
      (qs := [.field, .axisSettings] ++ haltParts)).trans (Moves.runFieldTimers _ i.ant).to
    have marked := field.trans (Moves.markActed _ i c).to
    exact .ite (marked.trans (.activeReported ..)) marked
  | encoderReportCleared =>
    exact occur_sameEnable (ps := [.field, .drives]) e ((Moves.modAxisIn ..).to.trans (Moves.runFieldTimers ..).to)
  | followingFault => exact occur_sameEnable e (.faultAxis ..)
  | limitSwitchTripped =>
    exact occur_sameEnable (ps := [.field] ++ haltParts) e ((Moves.modAxisIn ..).to.trans (Moves.faultAxis ..).to)
  | amplifierFault i =>
    refine occur_sameEnable (ps := [.field] ++ haltParts) e ?_
    have field := (Moves.modAxisIn s i AxisInputs.failAmplifier).to (qs := [.field] ++ haltParts)
    exact .ite (field.trans (Moves.faultAxis ..).to) field
  | windSample => exact occur_sameEnable e (.sampleWind ..)
  | anemometerStuck => exact occur_sameEnable e (.sampleWind ..)
  | windDisagreementMark => exact occur_sameEnable e (.sampleWind ..)
  | windClassRise => exact occur_sameEnable e (.sampleWind ..)
  | windClassFall => exact occur_sameEnable e (.sampleWind ..)
  | safetySilence => exact occur_sameEnable e (.addSilence s)
  | waveStart =>
    refine occur_sameEnable (ps := pinParts) e ?_
    split
    · exact .refl ..
    · exact .startWave ..
  | pinWarmingTimeout =>
    exact occur_sameEnable (ps := pinParts) e ((Moves.endForce ..).to.trans (Follows.goPinFailed ..).to)
  | pinInSwitchMade a =>
    refine occur_sameEnable (ps := [.field] ++ followParts) e ?_
    have field := (Moves.modAntIn s a fun v => { v with pinIn := true }).to (qs := [.field] ++ followParts)
    exact .ite (field.trans (Follows.goStowed ..).to) field
  | pinInsertTimeout => exact occur_sameEnable e (Follows.goPinFailed ..)
  | pinInSwitchOpened a =>
    refine occurAlone_sameEnable (ps := [.field, .stow]) e ?_
    have field := (Moves.modAntIn s a fun v => { v with pinIn := false }).to (qs := [.field, .stow])
    exact .ite (field.trans (Moves.modStow ..).to) field
  | pinOutSwitchMade a =>
    refine occurAlone_sameEnable (ps := [.field, .stow]) e ?_
    have field := (Moves.modAntIn s a fun v => { v with pinOut := true }).to (qs := [.field, .stow])
    exact .ite (field.trans (Moves.modStow ..).to) field
  | pinWithdrawTimeout => exact occurAlone_sameEnable e (.modStow ..)
  | heaterStep => exact occur_sameEnable e (.heaterStep ..)
  | heaterFrameStart => exact occur_sameEnable e (.heaterStep ..)
  | weatherStale => exact occurAlone_sameEnable e (.runAllIceTimers s)
  | wetTimerExpiry => exact occur_sameEnable e (.setTracked ..)
  | freezeTimerExpiry => exact occur_sameEnable e (.setTracked ..)
  | thawTimerExpiry => exact occur_sameEnable e (.setTracked ..)
  | grantQueueTimeout =>
    refine occur_sameEnable (ps := followParts) e ?_
    split
    · exact .refl ..
    · exact Follows.trans (.withdraw ..) (.needLost ..)
  | shedHalfCheck =>
    exact occurAlone_sameEnable (ps := [.feed]) e (.modFeed (fun _ => ⟨rfl, rfl, rfl, rfl⟩) id)
  | shedExpiry =>
    exact occurAlone_sameEnable (ps := [.feed, .zones]) e
      (((Moves.expireShed s).to.trans (Moves.raise ..).to).trans (.restore _))
  | restorationStep => exact occurAlone_sameEnable e (.restore s)
  | storeSupplyLow =>
    exact occurAlone_sameEnable (ps := [.field, .store]) e
      ((Moves.setField s _).to.trans (Moves.modStore (Store.alike_followSupply ..)).to)
  | storeWriteStart => exact occurAlone_sameEnable e ((Moves.startWrite s).trans (.noteEmptied _))
  | storeWriteComplete => exact occurAlone_sameEnable e (.completeWrite s)
  | storeHeadWaitExpiry =>
    exact occurAlone_sameEnable (ps := [.store]) e
      (Moves.trans (.modStore ⟨rfl, rfl, rfl, rfl, rfl⟩) (Moves.raise ..).to)

end Sys2Proof.Machine
end

