-- ==== Sys2Proof/Proofs/NoticeEnable.lean ====
section
/-! PROOFS. NOTICE_ENABLE (R198): what it makes of its own link's record, and the statement on the enables. -/

namespace Sys2Proof.Machine

variable {s : State} {l : Link} {tag : Byte}

/-! ### The link as the taking of the frame leaves it (R121, R188) -/

theorem State.takeFrame_own (s : State) (l : Link) : (s.takeFrame l).link l =
    ((s.link l).take s.now).setFlags (Link.mask l) (s.heardFlags l) := by
  rw [State.takeFrame_link, if_pos rfl]

/-- Where the enable stays on, the event's one notice tells of the WIND that the taking of the frame set (R196). -/
theorem LinkRecord.conclude_notice_early (p r : LinkRecord) (c w : FlagWord) :
    (p.conclude r c w w).notice =
      if p.enable = true ∧ r.enable = true ∧ p.flags ||| (w &&& c) ≠ p.flags then some ⟨r.sequence + 1, r.flags⟩
      else r.notice := by
  rw [LinkRecord.conclude_notice, LinkRecord.conclude_flags_early, BitVec.or_self]

/-- The end of SILENCE changes the flag word exactly where WIND was clear (R121, R195). -/
theorem or_heardFlags_ne_self_iff (s : State) (l : Link) (w : FlagWord) :
    w ||| s.heardFlags l ≠ w ↔ (decide (l = .safety) && s.wind.silence && !w.getLsbD 36) = true := by
  rw [State.heardFlags]
  cases decide (l = .safety) && s.wind.silence with
  | false => simp [wordIf]
  | true =>
    rw [wordIf, if_pos rfl, Ne, or_stationFlag_eq_self_iff]
    simp [StationFlag.bit]

/-- NOTICE_ENABLE on a wide link, as a change of its own record that puts the enable where it is asked to be and keeps
flags and sequence (R198). -/
theorem noticeEnable_link (on : Bool) {f : LinkRecord → LinkRecord} (sets : ∀ r, (f r).enable = on)
    (flags : ∀ r, (f r).flags = r.flags) (sequence : ∀ r, (f r).sequence = r.sequence) (wide : ∀ p, l ≠ .pendant p)
    (taken : s.takes l .noticeEnable tag) (hr : s.scratch.raised = 0) (he : s.scratch.early = 0) :
    let word := (s.link l).flags ||| s.heardFlags l
    ∃ t, serve l .noticeEnable tag s (fun s => okWith (.notice on (s.link l).flags) (s.modLink l f)) = .next t
      ∧ t.replied l .noticeEnable tag .ok (.notice on word) ∧ (t.link l).enable = on ∧ (t.link l).flags = word
      ∧ (t.link l).notice =
          if (s.link l).enable = true ∧ on = true ∧ word ≠ (s.link l).flags then
            some ⟨(s.link l).sequence + 1, word⟩
          else (f ((s.takeFrame l).link l)).notice := by
  intro word
  have opened : Kind.noticeEnable.openTo l = true := by
    cases l with
    | pendant p => exact absurd rfl (wide p)
    | operations => rfl
    | safety => rfl
  have masked := and_mask_of_wide wide (s.heardFlags l)
  have heard : ((s.takeFrame l).link l).flags = word := by
    rw [State.takeFrame_own, LinkRecord.setFlags, masked]; rfl
  have counted : ((s.takeFrame l).link l).sequence = (s.link l).sequence := by rw [State.takeFrame_own]; rfl
  obtain ⟨t, ran, link⟩ := serve_ownLink (b := fun r => .notice on r.flags) (f := f) opened taken hr he
  rw [heard] at link
  refine ⟨t, ran, ?_, ?_, ?_, ?_⟩
  · rw [State.replied, link, LinkRecord.conclude_reply]; rfl
  · rw [link, LinkRecord.conclude_enable]; exact sets _
  · rw [link, LinkRecord.conclude_flags_early]; exact (flags _).trans heard
  · rw [link, LinkRecord.conclude_notice_early, masked]
    simp only [LinkRecord.answer, sets, flags, sequence, heard, counted, word]

/-- A pendant's enable stays on whatever happens (R186, R198). -/
theorem exec_keeps_pendant_enable {c : Instr} {t : State} {p : Ant} (e : exec c s = .next t)
    (on : (s.link (.pendant p)).enable = true) : (t.link (.pendant p)).enable = true := by
  cases h : setsEnable c with
  | false => exact Eq.trans (exec_sameEnable h e) on
  | true =>
    cases c with
    | powerOn => exact (powerOn_enable e _).trans (Links.initial_pendant_enable p)
    | noticeEnableOn => exact Eq.trans (noticeEnable_sameEnable e) on
    | noticeEnableOff => exact Eq.trans (noticeEnable_sameEnable e) on
    | _ => cases h

/-- Settles O16: NOTICE_ENABLE changes its own link's record alone, and no other command but POWER_ON sets an enable. -/
theorem noticeEnableSetsItsLink : Obligations.NoticeEnableSetsItsLink := by
  refine ⟨fun s l tag wide taken hr he => ?wide, fun s p tag taken c hc => ?pendant,
    fun c s t p => exec_keeps_pendant_enable, fun s => ?powerOn, fun s tag _ => ?restart⟩
  case wide =>
    intro ended word told
    have kept : ((s.takeFrame l).link l).notice = (s.link l).notice := by rw [State.takeFrame_own]; rfl
    obtain ⟨t, ran, replied, enable, flags, notice⟩ := noticeEnable_link true (f := fun r => { r with enable := true })
      (fun _ => rfl) (fun _ => rfl) (fun _ => rfl) wide taken hr he
    obtain ⟨u, ranOff, repliedOff, enableOff, flagsOff, noticeOff⟩ := noticeEnable_link false
      (f := fun r => { r with enable := false, notice := none, noticeFirst := false })
      (fun _ => rfl) (fun _ => rfl) (fun _ => rfl) wide taken hr he
    have tells : ((s.link l).enable = true ∧ true = true ∧ (s.link l).flags ||| s.heardFlags l ≠ (s.link l).flags)
        ↔ told = true := by
      rw [or_heardFlags_ne_self_iff]
      simp only [told, ended, Bool.and_eq_true]
      tauto
    exact ⟨⟨t, ran, replied, enable, flags, notice.trans (if_congr tells rfl kept)⟩,
      u, ranOff, repliedOff, enableOff, flagsOff, noticeOff.trans (if_neg fun h => Bool.false_ne_true h.2.1)⟩
  case pendant =>
    have closed : Kind.noticeEnable.openTo (.pendant p) = false := rfl
    obtain rfl | rfl : c = .noticeEnableOn (.pendant p) tag ∨ c = .noticeEnableOff (.pendant p) tag := by
      simpa using hc
    · exact serve_notOpen _ closed taken
    · exact serve_notOpen _ closed taken
  case powerOn =>
    have enables := powerOn_enable (s := s) rfl
    exact ⟨_, rfl, enables .operations, enables .safety, fun p =>
      (enables (.pendant p)).trans (Links.initial_pendant_enable p)⟩
  case restart => exact ⟨_, rfl, fun l => restart_sameEnable rfl⟩

end Sys2Proof.Machine
end

