-- ==== Sys2Proof/Proofs/Steps.lean ====
section
/-! PROOFS. The step: the front command (O1); on an empty queue a millisecond and the paced steps due (O2); and the part
after reset (O3). -/

namespace Sys2Proof.Machine

/-- Settles O1: the step is read off the queue's front. -/
theorem stepRunsTheFrontCommand : Obligations.StepRunsTheFrontCommand := by
  intro s c rest front
  rw [step, front]

/-! ### The paced steps -/

/-- A step that falls due at a pace (R2). -/
def isPaced : Instr → Bool
  | .servoStep _ | .windSample _ _ | .heaterStep _ _ => true
  | _ => false

theorem mem_dueIf {b : Bool} {c d : Instr} : d ∈ dueIf b c ↔ b = true ∧ d = c := by
  cases b <;> simp [dueIf]

variable {s : State} {c : Instr}

theorem dueAtQueue_unpaced {a : Ant} {b : Bool} (h : c ∈ s.dueAtQueue b a) : isPaced c = false := by
  simp only [State.dueAtQueue, List.mem_append, mem_dueIf] at h
  rcases h with (((⟨_, rfl⟩ | ⟨_, rfl⟩) | ⟨_, rfl⟩) | ⟨_, rfl⟩) | ⟨_, rfl⟩ <;> rfl

theorem dueAtGroup_unpaced {g : GroupId} {b : Bool} (h : c ∈ s.dueAtGroup b g) : isPaced c = false := by
  simp only [State.dueAtGroup, List.mem_append, mem_dueIf] at h
  rcases h with ((⟨_, rfl⟩ | ⟨_, rfl⟩) | ⟨_, rfl⟩) | ⟨_, rfl⟩ <;> rfl

theorem endingsOf_unpaced {i : AxisId} (h : c ∈ s.endingsOf i) : isPaced c = false := by
  simp only [State.endingsOf, List.mem_append, mem_dueIf] at h
  rcases h with ⟨_, rfl⟩ | ⟨_, rfl⟩ <;> rfl

theorem dueAtPad_unpaced {a : Ant} (h : c ∈ s.dueAtPad a) : isPaced c = false := by
  simp only [State.dueAtPad, List.mem_append, mem_dueIf] at h
  rcases h with ((⟨_, rfl⟩ | ⟨_, rfl⟩) | ⟨_, rfl⟩) | ⟨_, rfl⟩ <;> rfl

theorem dueAtBus_unpaced {a : Ant} (h : c ∈ s.dueAtBus a) : isPaced c = false := by
  simp only [State.dueAtBus, List.mem_append, mem_dueIf] at h
  rcases h with ((⟨_, rfl⟩ | ⟨_, rfl⟩) | ⟨_, rfl⟩) | ⟨_, rfl⟩ <;> rfl

theorem switchEvents_unpaced {i : AxisId} (h : c ∈ s.switchEvents i) : isPaced c = false := by
  simp only [State.switchEvents, List.mem_append, mem_dueIf] at h
  rcases h with ((((⟨_, rfl⟩ | ⟨_, rfl⟩) | ⟨_, rfl⟩) | ⟨_, rfl⟩) | ⟨_, rfl⟩) | ⟨_, rfl⟩ <;> rfl

theorem dueAtAxis_unpaced {i : AxisId} (h : c ∈ s.dueAtAxis i) : isPaced c = false := by
  simp only [State.dueAtAxis, List.mem_append, mem_dueIf] at h
  rcases h with (((((((h | ⟨_, rfl⟩) | ⟨_, rfl⟩) | ⟨_, rfl⟩) | ⟨_, rfl⟩) | ⟨_, rfl⟩) | ⟨_, rfl⟩) | ⟨_, rfl⟩) | ⟨_, rfl⟩
  case inl => exact switchEvents_unpaced h
  all_goals rfl

theorem dueAtPin_unpaced {a : Ant} (h : c ∈ s.dueAtPin a) : isPaced c = false := by
  simp only [State.dueAtPin, List.mem_append, mem_dueIf] at h
  rcases h with ((((⟨_, rfl⟩ | ⟨_, rfl⟩) | ⟨_, rfl⟩) | ⟨_, rfl⟩) | ⟨_, rfl⟩) | ⟨_, rfl⟩ <;> rfl

theorem dueAtIce_unpaced {a : Ant} (h : c ∈ s.dueAtIce a) : isPaced c = false := by
  simp only [State.dueAtIce, List.mem_append, mem_dueIf] at h
  rcases h with (⟨_, rfl⟩ | ⟨_, rfl⟩) | ⟨_, rfl⟩ <;> rfl

theorem dueAtFeed_unpaced (h : c ∈ s.dueAtFeed) : isPaced c = false := by
  simp only [State.dueAtFeed, List.mem_append, List.mem_flatMap, mem_dueIf] at h
  rcases h with ((⟨_, _, _, rfl⟩ | ⟨_, rfl⟩) | ⟨_, rfl⟩) | ⟨_, rfl⟩ <;> rfl

theorem dueAtStore_unpaced (h : c ∈ s.dueAtStore) : isPaced c = false := by
  simp only [State.dueAtStore, List.mem_append, mem_dueIf] at h
  rcases h with (⟨_, rfl⟩ | ⟨_, rfl⟩) | ⟨_, rfl⟩ <;> rfl

/-- What the three paces call for at the epoch (R2). -/
def State.pacedDue (s : State) (c : Instr) : Prop :=
  s.atServo = true ∧ c = .servoStep s.field
  ∨ fallsAt s.pace.wind 1000 s.now = true ∧ c = .windSample s.field.anem1 s.field.anem2
  ∨ fallsAt s.pace.heater 250 s.now = true ∧ ∃ z, c = s.heaterCommand z

theorem mem_dueNow_of_pacedDue (h : s.pacedDue c) : c ∈ s.dueNow := by
  simp only [State.dueNow, State.dueAtServo, State.dueAtWind, State.dueAtHeat, List.mem_append, mem_dueIf]
  obtain ⟨servo, rfl⟩ | ⟨wind, rfl⟩ | ⟨heat, z, rfl⟩ := h
  · simp [servo]
  · simp [wind]
  · simp [heat, ZoneId.mem_all]

theorem pacedDue_of_mem_dueNow (h : c ∈ s.dueNow) (p : isPaced c = true) : s.pacedDue c := by
  have not {q : Prop} (k : isPaced c = false) : q := by simp [p] at k
  simp only [State.dueNow, List.mem_append, List.mem_flatMap, mem_dueIf] at h
  rcases h with ((((((((((⟨_, rfl⟩ | ⟨_, _, h⟩) | ⟨_, _, h⟩) | h) | ⟨_, _, h⟩) | ⟨_, _, h⟩) | ⟨_, _, h⟩) | h) |
    ⟨_, _, h⟩) | h) | h) | h
  · exact not rfl
  · exact not (dueAtQueue_unpaced h)
  · exact not (dueAtGroup_unpaced h)
  · cases servo : s.atServo with
    | false => simp [State.dueAtServo, servo] at h
    | true =>
      simp only [State.dueAtServo, servo, if_true, List.mem_append, List.mem_flatMap, List.mem_singleton] at h
      obtain ⟨_, _, h⟩ | rfl := h
      · exact not (endingsOf_unpaced h)
      · exact .inl ⟨servo, rfl⟩
  · exact not (dueAtPad_unpaced h)
  · exact not (dueAtBus_unpaced h)
  · exact not (dueAtAxis_unpaced h)
  · simp only [State.dueAtWind, List.mem_append, mem_dueIf] at h
    obtain (⟨wind, rfl⟩ | ⟨_, rfl⟩) | ⟨_, rfl⟩ := h
    · exact .inr (.inl ⟨wind, rfl⟩)
    · exact not rfl
    · exact not rfl
  · exact not (dueAtPin_unpaced h)
  · simp only [State.dueAtHeat, List.mem_append, mem_dueIf, List.mem_flatMap] at h
    obtain (h | ⟨_, rfl⟩) | ⟨_, _, h⟩ := h
    · cases heat : fallsAt s.pace.heater 250 s.now with
      | false => simp [heat] at h
      | true =>
        simp only [heat, if_true, List.mem_map] at h
        obtain ⟨z, _, rfl⟩ := h
        exact .inr (.inr ⟨heat, z, rfl⟩)
    · exact not rfl
    · exact not (dueAtIce_unpaced h)
  · exact not (dueAtFeed_unpaced h)
  · exact not (dueAtStore_unpaced h)

/-- Settles O2: the state idles, and what falls due of the paced steps is what the paces call for. -/
theorem emptyQueuePassesAMillisecond : Obligations.EmptyQueuePassesAMillisecond := by
  intro s empty
  have due (c : Instr) (p : isPaced c = true) : c ∈ s.advance.dueNow ↔ s.advance.pacedDue c :=
    ⟨fun h => pacedDue_of_mem_dueNow h p, mem_dueNow_of_pacedDue⟩
  refine ⟨s.idle, by rw [step, empty], fun off => by simp [State.idle, off], fun on => ?_⟩
  have idles : s.idle = { s.advance with pending := s.advance.dueNow } := by simp [State.idle, on, empty]
  rw [idles]
  have falls {ph : Epoch} {n : Int} : (s.advance.now - ph) % n = 0 ↔ fallsAt ph n s.advance.now = true := by
    simp [fallsAt]
  refine ⟨rfl, rfl, ?servo, fun h => ?own, ?wind, fun z => ?heat⟩
  case servo =>
    refine falls.trans ⟨fun h => ⟨s.field, (due _ rfl).mpr (.inl ⟨h, rfl⟩)⟩, fun ⟨io, h⟩ => ?_⟩
    obtain ⟨servo, _⟩ | ⟨_, k⟩ | ⟨_, _, k⟩ := (due _ rfl).mp h
    · exact servo
    all_goals cases k
  case own => exact (due _ rfl).mpr (.inl ⟨falls.mp h, rfl⟩)
  case wind =>
    refine falls.trans ⟨fun h => (due _ rfl).mpr (.inr (.inl ⟨h, rfl⟩)), fun h => ?_⟩
    obtain ⟨_, k⟩ | ⟨wind, _⟩ | ⟨_, _, k⟩ := (due _ rfl).mp h
    · cases k
    · exact wind
    · cases k
  case heat =>
    refine falls.trans ⟨fun h => (due _ rfl).mpr (.inr (.inr ⟨h, z, rfl⟩)), fun h => ?_⟩
    obtain ⟨_, k⟩ | ⟨_, k⟩ | ⟨heat, _⟩ := (due _ rfl).mp h
    · cases k
    · cases k
    · exact heat

/-! ### The part after reset -/

theorem queuesOrdered_of_noSegments {s : State} (h : ∀ a, (s.track a).segments = []) : s.QueuesOrdered := by
  constructor <;> simp [h, Track.stagedSegments]

theorem reset_segments (a : Ant) : (State.reset.track a).segments = [] := by cases a <;> rfl

theorem bounded_reset : State.reset.Bounded := by
  constructor
  case segments => exact fun a => by simp [reset_segments]
  case counts => exact fun l => by cases l with
    | pendant n => cases n <;> decide
    | _ => decide
  all_goals decide

theorem lawful_reset : State.reset.Lawful where
  axes i := by obtain ⟨a, x⟩ := i; cases a <;> cases x <;> constructor <;> decide
  bounded := bounded_reset
  table := by
    have empty (n : Nat) : State.reset.locks.slot n = none := by
      show ((List.replicate 24 none)[n]?).getD none = (none : Option LockEntry)
      cases h : (List.replicate 24 (none : Option LockEntry))[n]? with
      | none => rfl
      | some e => exact (List.mem_replicate.mp (List.mem_of_getElem? h)).2
    exact ⟨by decide, fun n => by simp [empty, show State.reset.locks.order = [] from rfl], by decide⟩
  store := by constructor <;> decide

theorem guarded_reset : State.reset.Guarded := by
  constructor
  case boundOnce => exact fun g _ _ h => by cases g <;> cases h
  case members => exact fun _ h => by cases h
  case taken => exact fun h => absurd h (by decide)
  all_goals exact fun a => by cases a <;> decide

theorem tidy_reset : State.reset.Tidy where
  heaters z := by obtain ⟨a, c⟩ := z; cases a <;> cases c <;> exact ⟨rfl, by decide +kernel⟩
  queued := by decide
  overflowed := by decide
  written _ h := by cases h
  scratch := rfl

theorem withinLimit_reset : State.reset.WithinLimit where
  load := by decide +kernel
  stored := by decide
  written _ _ h := by cases h
  once g := by cases g <;> decide

theorem powerUp_reset : State.reset.losePower.powerUp = State.reset := by decide +kernel

/-- Settles O3: the invariants hold of the empty collections, and a power-on of the factory store is evaluated. -/
theorem resetIsAFreshPart : Obligations.ResetIsAFreshPart :=
  ⟨lawful_reset, guarded_reset, tidy_reset, withinLimit_reset, queuesOrdered_of_noSegments reset_segments,
    by unfold KeysOnce; decide +kernel, congrArg Host.Outcome.next powerUp_reset⟩

end Sys2Proof.Machine
end

