-- ==== Sys2Proof/Proofs/Wire.lean ====
section
/-! PROOFS. The wire (R187, R207 to R209): bytes, frames, segment records and codes read back as written (O11), and a
receiver takes or discards what stands at its front (O12). -/

namespace Sys2Proof.Machine

/-! ### Bytes (R207) -/

@[simp] theorem length_leBytes (k n : Nat) : (leBytes k n).length = k := by
  induction k generalizing n with
  | zero => rfl
  | succ k ih => simp [leBytes, ih]

theorem toNat_byteOf (n : Nat) : (byteOf n).toNat = n % 256 := BitVec.toNat_ofNat n 8

theorem leNat_leBytes (k n : Nat) : leNat (leBytes k n) = n % 256 ^ k := by
  induction k generalizing n with
  | zero => simp [leBytes, leNat, Nat.mod_one]
  | succ k ih => rw [leBytes, leNat, ih, toNat_byteOf, Nat.pow_succ', Nat.mod_mul]

theorem leNat_leBytes_of_lt {k n : Nat} (h : n < 256 ^ k) : leNat (leBytes k n) = n := by
  rw [leNat_leBytes, Nat.mod_eq_of_lt h]

theorem length_positionBytes (p : Mdeg) : (positionBytes p).length = 4 := length_leBytes ..

theorem positionOf_positionBytes {p : Mdeg} (low : -2147483648 ≤ p) (high : p < 2147483648) :
    positionOf (positionBytes p) = p := by
  rw [positionOf, positionBytes, leNat_leBytes_of_lt (BitVec.isLt _), BitVec.ofNat_toNat, BitVec.setWidth_eq,
    BitVec.toInt_ofInt_eq_self (by decide) low high]

/-! ### Frames (R187, R208) -/

theorem toNat_byteOf_of_lt {n : Nat} (h : n < 256) : (byteOf n).toNat = n := by
  rw [toNat_byteOf, Nat.mod_eq_of_lt h]

theorem receive_marker (len : Byte) (after : List Byte) :
    receive (marker :: len :: after) =
      if 240 < len.toNat then .discard
      else if after.length < len.toNat + 4 then .incomplete
      else if leNat ((after.drop (len.toNat + 2)).take 2) = (crc16 (len :: after.take (len.toNat + 2))).toNat then
        match after with
        | kind :: tag :: more => .frame ⟨kind, tag, more.take len.toNat⟩ (more.drop (len.toNat + 2))
        | _ => .discard
      else .discard := by
  simp only [receive, ne_eq, not_true_eq_false, if_false] <;> rfl

theorem receive_frameBytes (kind tag : Byte) {body : List Byte} (rest : List Byte) (short : body.length ≤ 240) :
    receive (frameBytes kind tag body ++ rest) = .frame ⟨kind, tag, body⟩ rest := by
  have len : (byteOf body.length).toNat = body.length := toNat_byteOf_of_lt (by omega)
  have crc (x : BitVec 16) : leNat (leBytes 2 x.toNat) = x.toNat := leNat_leBytes_of_lt x.isLt
  simp only [frameBytes, List.cons_append, List.append_assoc]
  rw [receive_marker, len, if_neg (by omega), if_neg (by simp; omega)]
  have covered (tail : List Byte) : (kind :: tag :: (body ++ tail)).take (body.length + 2) = kind :: tag :: body := by
    simp
  have sent (tail : List Byte) : (kind :: tag :: (body ++ tail)).drop (body.length + 2) = tail := by simp
  have two (x : Nat) : (leBytes 2 x ++ rest).take 2 = leBytes 2 x := List.take_left' (length_leBytes ..)
  rw [covered, sent, two, if_pos (crc _)]
  simp [← List.drop_drop, List.drop_left' (length_leBytes 2 _)]

/-! ### Segment records (R209) -/

theorem length_segmentBytes (r : SegmentRecord) : r.bytes.length = 16 := by
  simp [SegmentRecord.bytes, length_positionBytes]

/-- The word of duration and flags, in two bytes (R209). -/
def SegmentRecord.word (r : SegmentRecord) : Nat :=
  r.duration % 16384 + (if r.reserved then 16384 else 0) + (if r.last then 32768 else 0)

theorem SegmentRecord.word_reads {r : SegmentRecord} (h : r.duration < 16384) :
    r.word < 256 ^ 2 ∧ r.word % 16384 = r.duration ∧ decide (r.word / 16384 % 2 = 1) = r.reserved
      ∧ decide (r.word / 32768 % 2 = 1) = r.last := by
  unfold SegmentRecord.word
  cases r.reserved <;> cases r.last <;> simp <;> omega

theorem segmentOf_bytes {r : SegmentRecord} (start : r.start < 281474976710656) (duration : r.duration < 16384)
    (az : -2147483648 ≤ r.azEnd ∧ r.azEnd < 2147483648) (el : -2147483648 ≤ r.elEnd ∧ r.elEnd < 2147483648) :
    segmentOf r.bytes = r := by
  obtain ⟨fits, count, reserved, last⟩ := SegmentRecord.word_reads duration
  have epoch : leNat (r.bytes.take 6) = r.start := by
    rw [← leNat_leBytes_of_lt (k := 6) start]; simp [SegmentRecord.bytes]
  have flags : leNat ((r.bytes.drop 6).take 2) = r.word := by
    rw [← leNat_leBytes_of_lt fits]; simp [SegmentRecord.bytes, SegmentRecord.word]
  have azEnd : positionOf ((r.bytes.drop 8).take 4) = r.azEnd := by
    rw [SegmentRecord.bytes, List.append_assoc, List.drop_left' (by simp),
      List.take_left' (length_positionBytes _), positionOf_positionBytes az.1 az.2]
  have elEnd : positionOf ((r.bytes.drop 12).take 4) = r.elEnd := by
    rw [SegmentRecord.bytes, List.drop_left' (by simp [length_positionBytes]),
      List.take_of_length_le (length_positionBytes _).le, positionOf_positionBytes el.1 el.2]
  rw [segmentOf, epoch, flags, azEnd, elEnd, count, reserved, last]

/-! ### Codes (R208, R209) -/

theorem Kind.ofCode_code (k : Kind) : Kind.ofCode k.code = some k := by cases k <;> decide

theorem Kind.msb_code (k : Kind) : k.code.msb = false := by cases k <;> decide

theorem Kind.msb_replyKind (k : Kind) : (replyKind k.code).msb = true := by cases k <;> decide

theorem Kind.setWidth_replyKind (k : Kind) : (replyKind k.code).setWidth 7 = k.code.setWidth 7 := by
  cases k <;> decide

theorem Property.ofCode_code (p : Property) : Property.ofCode p.code = some p := by cases p <;> rfl

theorem Compare.ofCode_code (p : Compare) : Compare.ofCode p.code = some p := by cases p <;> rfl

/-- Every reply status. -/
def Status.all : List Status :=
  [.ok, .clamped, .accepted, .paused, .terminated, .count, .crc, .busy, .range, .lockout, .permit, .local_, .group,
   .stowing, .halted, .noTime, .budget, .tooLong, .full, .notHolder, .notFound, .badState, .encoder, .active, .wind,
   .demand, .anchor, .config, .badKind]

theorem Status.find_code (c : Status) : Status.all.find? (fun d => decide (d.code = c.code)) = some c := by
  cases c <;> decide

theorem Status.code_inj {c d : Status} (h : c.code = d.code) : c = d :=
  Option.some.inj (by rw [← c.find_code, h, d.find_code])

/-! ### Replies (R208) -/

theorem length_partOf_le (content : List Byte) (part : Nat) : (partOf content part).length ≤ 237 := by
  rw [partOf, List.length_take]; omega

/-- Settles O11: each record is read back by its own round trip, and a reply is a frame whose body is cut to 240 bytes. -/
theorem wireRecordsReadBack : Obligations.WireRecordsReadBack := by
  refine ⟨fun kind tag body rest short => receive_frameBytes kind tag rest short,
    fun r start duration azLow azHigh elLow elHigh =>
      ⟨segmentOf_bytes start duration ⟨azLow, azHigh⟩ ⟨elLow, elHigh⟩, length_segmentBytes r⟩,
    fun k => ⟨k.ofCode_code, k.msb_code⟩, Property.ofCode_code, Compare.ofCode_code, fun _ _ => Status.code_inj,
    fun k tag st body rest => ⟨?bit, ?kind, body.wire.take 239, ?frame, ?short, ?empty, ?part, ?count, ?words⟩⟩
  case bit => exact k.msb_replyKind
  case kind => exact k.setWidth_replyKind
  case frame => exact receive_frameBytes _ _ _ (by simp [Reply.payload])
  case short => simp
  case empty => rintro rfl; rfl
  case part =>
    rintro part parts content link view (rfl | rfl)
    all_goals
      exact List.take_of_length_le (by
        have := length_partOf_le content part
        simp only [ReplyBody.wire, List.length_cons]; omega)
  case count => rintro part parts rfl; rfl
  case words => rintro before after rfl; exact List.take_of_length_le (by simp [ReplyBody.wire])

end Sys2Proof.Machine
end

