-- ==== Sys2Proof/Proofs/Receivers.lean ====
section
/-! PROOFS. Frames on a link (R187 to R189, R196, R197): a receiver takes, drops or discards them, and they leave in order
(O12); the Link Front's own refusals (O13); and CHANGES_ACK (O15). -/

namespace Sys2Proof.Machine

variable {s t : State} {l k : Link}

/-! ### A receiver hunts, takes and discards (R187) -/

theorem receive_cons_of_ne {m : Byte} (h : m ≠ marker) (rest : List Byte) : receive (m :: rest) = .hunt := by
  simp [receive, h]

theorem receiveAll_nil (n : Nat) {r : LinkRecord} (h : r.rx = []) : receiveAll n r = r := by
  cases n with
  | zero => rfl
  | succ n => rw [receiveAll, h]; rfl

theorem receiveAll_noise {noise : List Byte} (h : ∀ b ∈ noise, b ≠ marker) (n : Nat) (r : LinkRecord)
    (rest : List Byte) :
    receiveAll (noise.length + n) { r with rx := noise ++ rest } = receiveAll n { r with rx := rest } := by
  induction noise with
  | nil => simp
  | cons b noise ih =>
    have hunts : receive (b :: (noise ++ rest)) = .hunt := receive_cons_of_ne (h b (by simp)) _
    rw [List.length_cons, Nat.add_right_comm, receiveAll]
    simp only [List.cons_append, hunts]
    exact ih fun c hc => h c (by simp [hc])

theorem receiveAll_discard {n : Nat} {r : LinkRecord} {m : Byte} {rest : List Byte}
    (h : receive (m :: rest) = .discard) :
    receiveAll (n + 1) { r with rx := m :: rest } =
      receiveAll n { r with rx := rest, discarded := min 65535 (r.discarded + 1) } := by
  rw [receiveAll, h]; rfl

/-- A frame behind noise: it waits, or is dropped where one waits. -/
theorem LinkRecord.receiveBytes_frame {r : LinkRecord} (empty : r.rx = []) {noise : List Byte}
    (h : ∀ b ∈ noise, b ≠ marker) (kind tag : Byte) {body : List Byte} (short : body.length ≤ 240) :
    r.receiveBytes (noise ++ frameBytes kind tag body) =
      if r.waiting.isSome then { r with dropped := min 65535 (r.dropped + 1) }
      else { r with waiting := some ⟨kind, tag, body⟩ } := by
  obtain ⟨n, fuel⟩ : ∃ n, (frameBytes kind tag body).length = n + 1 := ⟨_, rfl⟩
  have found := receive_frameBytes kind tag [] short
  rw [List.append_nil] at found
  rw [LinkRecord.receiveBytes, empty, List.nil_append, List.length_append, List.length_nil, Nat.zero_add,
    receiveAll_noise h, fuel, receiveAll, found]
  obtain ⟨rx, waiting, _⟩ := r
  cases empty
  cases waiting <;> exact receiveAll_nil n rfl

theorem receive_long {len : Byte} (h : 240 < len.toNat) (after : List Byte) :
    receive (marker :: len :: after) = .discard := by
  rw [receive_marker, if_pos h]

theorem receive_badCrc {len : Byte} {after : List Byte} (whole : len.toNat + 4 ≤ after.length)
    (crc : leNat ((after.drop (len.toNat + 2)).take 2) ≠ (crc16 (len :: after.take (len.toNat + 2))).toNat) :
    receive (marker :: len :: after) = .discard := by
  rw [receive_marker, if_neg (not_lt.mpr whole), if_neg crc, ite_self]

/-- A discarded frame behind noise: it is counted, and the receiver hunts again behind its marker. -/
theorem LinkRecord.receiveBytes_discard {r : LinkRecord} (empty : r.rx = []) {noise after : List Byte}
    (h : ∀ b ∈ noise, b ≠ marker) {len : Byte} (bad : receive (marker :: len :: after) = .discard) :
    r.receiveBytes (noise ++ marker :: len :: after) =
      { r with discarded := min 65535 (r.discarded + 1) }.receiveBytes (len :: after) := by
  rw [LinkRecord.receiveBytes, LinkRecord.receiveBytes]
  simp only [empty, List.length_append, List.length_nil, Nat.zero_add, List.nil_append, List.length_cons]
  rw [receiveAll_noise h, receiveAll_discard bad]

theorem marker_ne_of_long {len : Byte} (h : 240 < len.toNat) : len ≠ marker := by
  rintro rfl
  exact absurd h (by decide)

theorem LinkRecord.receiveBytes_noise {r : LinkRecord} (empty : r.rx = []) {noise : List Byte}
    (h : ∀ b ∈ noise, b ≠ marker) : r.receiveBytes noise = r := by
  rw [LinkRecord.receiveBytes, empty, List.nil_append, List.length_nil, Nat.zero_add]
  have all := receiveAll_noise h 0 r []
  rw [List.append_nil, Nat.add_zero] at all
  rw [all]
  obtain ⟨rx, _⟩ := r
  cases empty
  rfl

/-! ### Frames come and go (R187, R188, R196) -/

theorem exec_frameReceived (on : s.powered = true) (bytes : List Byte) :
    exec (.frameReceived l bytes) s = .next (s.modLink l fun r => r.receiveBytes bytes) :=
  congrArg Host.Outcome.next (if_pos on)

theorem State.modLink_congr {f g : LinkRecord → LinkRecord} (h : f (s.link l) = g (s.link l)) :
    s.modLink l f = s.modLink l g := by
  rw [State.modLink, State.modLink]; exact congrArg (fun r => { s with links := s.links.set l r }) h

theorem State.modLink_modLink (f g : LinkRecord → LinkRecord) :
    (s.modLink l f).modLink l g = s.modLink l (g ∘ f) := by
  simp only [State.modLink]
  cases l <;> simp [Links.set, Links.get, Six.set_set]

/-- A frame behind noise that is discarded at once: it is counted, and the receiver hunts behind its marker. -/
theorem exec_frameReceived_discard (on : s.powered = true) (empty : (s.link l).rx = []) {noise after : List Byte}
    (h : ∀ b ∈ noise, b ≠ marker) {len : Byte} (bad : receive (marker :: len :: after) = .discard) :
    exec (.frameReceived l (noise ++ marker :: len :: after)) s = exec (.frameReceived l (len :: after))
      (s.modLink l fun r => { r with discarded := min 65535 (r.discarded + 1) }) := by
  rw [exec_frameReceived on, exec_frameReceived (s := s.modLink l _) on, State.modLink_modLink]
  exact congrArg _ (State.modLink_congr (LinkRecord.receiveBytes_discard empty h bad))

theorem settle_links (s : State) : s.settle.links = s.links := (Follows.settle s).touches.same .links (by decide)

/-- A reply leaves its link, also the one to a RESTART, after which a formation is tried (R128, R188). -/
theorem exec_replySent (on : s.powered = true) (leaves : (s.link l).replyLeaves = true) :
    ∃ t, exec (.replySent l) s = .next t ∧ (t.link l).reply = none
      ∧ (l ≠ .safety → t = s.modLink l fun r => { r with reply := none }) := by
  refine ⟨_, rfl, ?_⟩
  rw [onPower, if_pos on, if_pos leaves]
  dsimp only
  split
  next h =>
    refine ⟨?_, fun wide => absurd h.1 wide⟩
    rw [event, announce_link, LinkRecord.conclude_reply, State.link, settle_links]
    exact congrArg LinkRecord.reply ((State.link_modLink s l l fun r => { r with reply := none }).trans (if_pos rfl))
  next => exact ⟨by rw [State.link_modLink, if_pos rfl], fun _ => rfl⟩

/-- Settles O12: a reception is judged at the receiver's front, and what leaves is one change of the link's record. -/
theorem framesComeAndGo : Obligations.FramesComeAndGo := by
  refine ⟨fun s l noise on empty h => ⟨fun kind tag body short => ?frame, fun len long => ?long,
    fun len after bad => ?bad⟩, fun s l on => ⟨fun some first => ?reply, fun some first => ?notice⟩⟩
  case frame =>
    exact ⟨_, exec_frameReceived on _, State.modLink_congr (LinkRecord.receiveBytes_frame empty h kind tag short)⟩
  case long =>
    refine ⟨_, (exec_frameReceived_discard on empty h (receive_long long [])).trans
      (exec_frameReceived (s := s.modLink l _) on _), ?_⟩
    rw [State.modLink_modLink]
    exact State.modLink_congr (LinkRecord.receiveBytes_noise (noise := [len])
      (r := { s.link l with discarded := min 65535 ((s.link l).discarded + 1) }) empty
      (by simpa using marker_ne_of_long long))
  case bad =>
    refine exec_frameReceived_discard on empty h ?_
    obtain long | ⟨whole, crc⟩ := bad
    · exact receive_long long after
    · exact receive_badCrc whole crc
  case reply => exact exec_replySent on (by rw [LinkRecord.replyLeaves, some, first]; rfl)
  case notice =>
    have leaves : (s.link l).noticeLeaves = true := by
      rw [LinkRecord.noticeLeaves, some]
      obtain none | first := first
      · simp [none]
      · simp [first]
    exact ⟨_, rfl, by rw [onPower, if_pos on, if_pos leaves]⟩

/-! ### The Link Front's own refusals (R189) -/

/-- The end of an event leaves all of a link's record but its flags and its notices (R195, R196). -/
theorem LinkRecord.conclude_traffic (p r : LinkRecord) (c e w : FlagWord) : (p.conclude r c e w).traffic = r.traffic := by
  unfold LinkRecord.conclude; dsimp only; split <;> rfl

/-- An unknown kind, or one outside its link's column. -/
theorem frontRefusal_badKind {kind : Byte} {body : List Byte}
    (h : Kind.ofCode kind = none ∨ ∃ k, Kind.ofCode kind = some k ∧ k.openTo l = false) :
    frontRefusal l kind body = some .badKind := by
  obtain unknown | ⟨k, known, closed⟩ := h
  · rw [frontRefusal, unknown]
  · rw [frontRefusal, known]; simp [closed]

theorem frontRefusal_range {kind : Byte} {body : List Byte} {k : Kind} (known : Kind.ofCode kind = some k)
    (opened : k.openTo l = true) (misfit : bodyLengthFits k body = false) :
    frontRefusal l kind body = some .range := by
  rw [frontRefusal, known]; simp [opened, misfit]

/-- A frame that the Link Front refuses is taken and answered. -/
theorem exec_badKind {kind tag : Byte} {body : List Byte} {c : Status} (on : s.powered = true)
    (may : s.mayTake l kind tag (fun b => decide (b = body)) = true) (refused : frontRefusal l kind body = some c) :
    ∃ t, exec (.badKind l kind tag body) s = .next t
      ∧ (t.link l).traffic = (((s.link l).take s.now).answer ⟨replyKind kind, tag, c, .empty⟩).traffic := by
  refine ⟨_, rfl, ?_⟩
  simp only [onPower, on, if_true, refused, may, announce_link, LinkRecord.conclude_traffic]
  simp only [takeAndAnswer, refuse, State.answer, State.link_modLink, if_true, State.takeFrame_own]
  rfl

/-- Settles O13: the code is that of the first of the Link Front's checks, and the frame is taken like any other. -/
theorem unknownRequestsAreRefused : Obligations.UnknownRequestsAreRefused := by
  intro s l kind tag body on may c h
  have refused : frontRefusal l kind body = some c := by
    obtain ⟨rfl, h⟩ | ⟨rfl, k, known, opened, misfit⟩ := h
    · exact frontRefusal_badKind h
    · refine frontRefusal_range known opened ?_
      obtain (⟨rfl, h⟩ | ⟨rfl, h⟩) | ⟨rfl, h⟩ | ⟨rfl, h⟩ := or_assoc.mpr misfit <;> simpa [bodyLengthFits] using h
  obtain ⟨t, ran, traffic⟩ := exec_badKind on may refused
  simp only [LinkRecord.traffic, Prod.mk.injEq] at traffic
  obtain ⟨_, waiting, reply, taken, _, _, _, silence⟩ := traffic
  exact ⟨t, ran, reply, waiting, taken, silence⟩

/-! ### CHANGES_ACK (R197) -/

theorem getLsbD_ackedWord (carried old values mask : FlagWord) (i : Nat) :
    (ackedWord carried old values mask).getLsbD i =
      if mask.getLsbD i && carried.getLsbD i then values.getLsbD i else old.getLsbD i := by
  have bits : (ackedWord carried old values mask).getLsbD i = (old.getLsbD i && (decide (i < 40)
      && !(mask.getLsbD i && carried.getLsbD i)) || values.getLsbD i && (mask.getLsbD i && carried.getLsbD i)) := by
    rw [ackedWord, BitVec.getLsbD_or, BitVec.getLsbD_and, BitVec.getLsbD_not, BitVec.getLsbD_and, BitVec.getLsbD_and,
      BitVec.getLsbD_and]
  rw [bits]
  by_cases h : i < 40
  · cases mask.getLsbD i && carried.getLsbD i <;> simp [h]
  · simp [BitVec.getLsbD_of_ge _ _ (not_lt.mp h)]

/-- Only Safety's frames end a SILENCE source, and Safety carries every flag (R121, R195). -/
theorem State.heardFlags_and_mask (s : State) (l : Link) : s.heardFlags l &&& Link.mask l = s.heardFlags l := by
  by_cases h : l = .safety
  · subst h; exact and_mask_of_wide (fun _ => Link.noConfusion) _
  · simp [State.heardFlags, h, wordIf]

/-- What a request that changes its own link's record alone leaves of another link: WIND, where the taking of the frame
ended a SILENCE source (R121). -/
theorem serve_otherLink {kind : Kind} {tag : Byte} {fits : List Byte → Bool} {b : LinkRecord → ReplyBody}
    {f : LinkRecord → LinkRecord} (hopen : kind.openTo l = true) (taken : s.takes l kind tag fits)
    (hr : s.scratch.raised = 0) (he : s.scratch.early = 0) (other : k ≠ l)
    (ran : serve l kind tag s (fun s => okWith (b (s.link l)) (s.modLink l f)) fits = .next t) :
    t.link k = (s.link k).conclude ((s.link k).setFlags (Link.mask k) (s.heardFlags l)) (Link.mask k)
      (s.heardFlags l) (s.heardFlags l) := by
  obtain ⟨powered, may⟩ := taken
  cases ran
  let u := ((s.takeFrame l).modLink l f).answer l kind.code tag .ok (b ((s.takeFrame l).link l))
  have served : takeAndAnswer l kind.code tag s
      (dispatch l kind fun s => okWith (b (s.link l)) (s.modLink l f)) = u := by
    simp only [takeAndAnswer, dispatch, hopen, if_true, okWith]; rfl
  have marks : u.scratch = { s.scratch with early := s.scratch.early ||| s.heardFlags l } := rfl
  have changes : changesBetween s u = s.heardFlags l := changesBetween_takeFrame s l
  have record : u.link k = (s.link k).setFlags (Link.mask k) (s.heardFlags l) := by
    simp only [u, State.answer, State.link_modLink, if_neg other, State.takeFrame_link]
  have noFlags (w : FlagWord) : 0 ||| w = w := BitVec.zero_or
  simp only [onPower, powered, may, if_true, served, announce_link, marks, changes, record, hr, he, noFlags]

theorem zero_and_word (w : FlagWord) : 0 &&& w = 0 := BitVec.zero_and

theorem or_zero_word (w : FlagWord) : w ||| 0 = w := BitVec.or_zero

theorem LinkRecord.setFlags_zero (r : LinkRecord) (c : FlagWord) : r.setFlags c 0 = r := by
  rw [LinkRecord.setFlags, zero_and_word, or_zero_word]

theorem LinkRecord.conclude_zero (p r : LinkRecord) (c : FlagWord) : p.conclude r c 0 0 = r := by
  rw [LinkRecord.conclude, zero_and_word, LinkRecord.setFlags_zero, or_zero_word, zero_and_word, or_zero_word]
  exact if_neg fun h => h.2.2 rfl

/-- Settles O15: the request changes its own link's record alone, and what the taking of its frame set comes before. -/
theorem changesAckWritesItsLink : Obligations.ChangesAckWritesItsLink := by
  intro s l tag values mask taken hr he ended old told
  let f (r : LinkRecord) : LinkRecord := { r with flags := ackedWord (Link.mask l) r.flags values mask }
  let b (r : LinkRecord) : ReplyBody := .words r.flags (ackedWord (Link.mask l) r.flags values mask)
  have heard : ((s.takeFrame l).link l).flags = old := by
    rw [State.takeFrame_own, LinkRecord.setFlags, State.heardFlags_and_mask]; rfl
  obtain ⟨t, ran, link⟩ := serve_ownLink (b := b) (f := f) rfl taken hr he
  have kept : ((s.takeFrame l).link l).enable = (s.link l).enable ∧ ((s.takeFrame l).link l).sequence = (s.link l).sequence
      ∧ ((s.takeFrame l).link l).notice = (s.link l).notice := by rw [State.takeFrame_own]; exact ⟨rfl, rfl, rfl⟩
  obtain ⟨enable, sequence, notice⟩ := kept
  refine ⟨t, ackedWord (Link.mask l) old values mask, ran, ?_, ?_, getLsbD_ackedWord _ _ _ _, ?_, fun h k other => ?_,
    fun h k other => ?_⟩
  · rw [State.replied, link, LinkRecord.conclude_reply]
    simp [LinkRecord.answer, b, heard]
  · rw [link, LinkRecord.conclude_flags_early]
    simp [LinkRecord.answer, f, heard]
  · rw [link, LinkRecord.conclude_notice_early, State.heardFlags_and_mask]
    have tells : ((s.link l).enable = true ∧ (s.link l).enable = true ∧ (s.link l).flags ||| s.heardFlags l ≠ (s.link l).flags)
        ↔ told = true := by
      rw [or_heardFlags_ne_self_iff]
      simp only [told, ended, Bool.and_eq_true]
      tauto
    simp only [LinkRecord.answer, f, enable, sequence, notice, heard]
    exact if_congr tells rfl rfl
  · rw [serve_otherLink (b := b) (f := f) rfl taken hr he other ran]
    have none : s.heardFlags l = 0 := by rw [State.heardFlags, show (decide (l = .safety) && s.wind.silence) = false from h]; rfl
    rw [none, LinkRecord.setFlags_zero, LinkRecord.conclude_zero]
  · rw [serve_otherLink (b := b) (f := f) rfl taken hr he other ran, LinkRecord.conclude_flags_early,
      LinkRecord.setFlags, State.heardFlags, show (decide (l = .safety) && s.wind.silence) = true from h]
    rfl

end Sys2Proof.Machine
end

