-- ==== Sys2Proof/Proofs/Clock.lean ====
section
/-! PROOFS. Power and the clock: TIME_SET where Operations has a silence timer (O17), and POWER_LOSS (O21). -/

namespace Sys2Proof.Machine

/-- The fresh part with a silence timer on Operations, which the rules never give that link (R186). -/
def State.timedOperations : State := State.reset.modLink .operations fun r => { r with silence := some (-5) }

theorem admits_timedOperations : State.timedOperations.admits (.timeSet 1 0) = true := by decide +kernel

theorem intervals_timedOperations (t : State) (h : exec (.timeSet 1 0) State.timedOperations = .next t) :
    t.intervals ≠ State.timedOperations.intervals := by
  have ran : t = (onPower State.timedOperations fun s => if s.mayTake .operations Kind.timeSet.code 1
      (bodyLengthFits .timeSet) then announce s (takeAndAnswer .operations Kind.timeSet.code 1 s
        (dispatch .operations .timeSet fun s => check s (!s.clockBusy) .busy (okWith (.epochs s.now 0) (s.setClock 0))))
      else s) := by injection h with h; exact h.symm
  rw [ran]
  decide +kernel

/-- Refutes O17: the statement's state may have a silence timer on Operations, and the taking of the TIME_SET's own frame
restarts it, so that interval does not keep the time it has run. -/
theorem not_timeSetKeepsIntervals : ¬ Obligations.TimeSetKeepsIntervals := by
  intro h
  obtain ⟨t, ran, _, _, intervals, _⟩ := h State.timedOperations 1 0 admits_timedOperations
  exact intervals_timedOperations t ran intervals

end Sys2Proof.Machine
end

