-- ==== Sys2Proof/Proofs/Books.lean ====
section
/-! PROOFS. The books (R157, R158): what an entry in them makes of the load. -/

namespace Sys2Proof.Machine

variable {s : State}

/-! ### Sums of which one figure, or each figure, changes -/

theorem sumOf_congr {α : Type} {xs : List α} {f g : α → Nat} (h : ∀ x ∈ xs, g x = f x) : sumOf xs g = sumOf xs f := by
  rw [sumOf_eq_sum, sumOf_eq_sum, List.map_congr_left h]

theorem sumOf_le {α : Type} {xs : List α} {f g : α → Nat} (h : ∀ x ∈ xs, g x ≤ f x) : sumOf xs g ≤ sumOf xs f := by
  rw [sumOf_eq_sum, sumOf_eq_sum]
  exact List.sum_le_sum h

/-- Where one figure of a sum changes, the sum changes by it. -/
theorem sumOf_change {α : Type} [DecidableEq α] {xs : List α} (once : xs.Nodup) {x : α} (hx : x ∈ xs) {f g : α → Nat}
    (h : ∀ y, y ≠ x → g y = f y) : sumOf xs g + f x = sumOf xs f + g x := by
  induction xs with
  | nil => cases hx
  | cons y xs ih =>
    obtain ⟨hy, once⟩ := List.nodup_cons.1 once
    simp only [sumOf_cons]
    by_cases e : y = x
    · subst e
      have rest : sumOf xs g = sumOf xs f := sumOf_congr fun z hz => h z fun k => hy (k ▸ hz)
      omega
    · have rest := ih once ((List.mem_cons.1 hx).resolve_left (Ne.symm e))
      have head := h y e
      omega

theorem AxisId.mem_all (i : AxisId) : i ∈ AxisId.all := by
  obtain ⟨a, x⟩ := i
  cases a <;> cases x <;> decide

theorem AxisId.all_nodup : AxisId.all.Nodup := by decide

theorem GroupId.mem_all (g : GroupId) : g ∈ GroupId.all := by cases g <;> decide

theorem GroupId.all_nodup : GroupId.all.Nodup := by decide

theorem Ant.mem_all (a : Ant) : a ∈ Ant.all := by cases a <;> decide

theorem Ant.all_nodup : Ant.all.Nodup := by decide

/-! ### Entries -/

/-- What the Arbiter has granted a group. -/
def State.groupWatts (s : State) (g : GroupId) : Nat := ((s.feed.groups.get g).map GroupGrant.watts).getD 0

theorem State.load_eq (s : State) : s.load = s.feed.base + (sumOf AxisId.all (fun i => (s.standing i).watts)
    + sumOf GroupId.all s.groupWatts + sumOf Ant.all s.earlierWave) + s.committed := rfl

/-- A standing grant replaced changes the load by the difference. -/
theorem State.load_setStanding (s : State) (i : AxisId) (g : Standing) :
    (s.setStanding i g).load + (s.standing i).watts = s.load + g.watts := by
  have change := sumOf_change AxisId.all_nodup (AxisId.mem_all i) (f := fun j => (s.standing j).watts)
    (g := fun j => ((s.setStanding i g).standing j).watts)
    fun j e => by simp only [State.standing_setStanding, if_neg e]
  have own : ((s.setStanding i g).standing i).watts = g.watts := by simp [State.standing_setStanding]
  have load : (s.setStanding i g).load = s.feed.base
      + (sumOf AxisId.all (fun j => ((s.setStanding i g).standing j).watts)
        + sumOf GroupId.all s.groupWatts + sumOf Ant.all s.earlierWave) + s.committed := rfl
  rw [s.load_eq, load]
  omega

/-- The grant of a group replaced. -/
def State.setGroupGrant (s : State) (g : GroupId) (v : Option GroupGrant) : State :=
  s.modFeed fun f => { f with groups := f.groups.set g v }

/-- The grant of a wave member replaced. -/
def State.setWaveGrant (s : State) (a : Ant) (v : Option WaveGrant) : State :=
  s.modFeed fun f => { f with waves := f.waves.set a v }

theorem State.load_setGroupGrant (s : State) (g : GroupId) (v : Option GroupGrant) :
    (s.setGroupGrant g v).load + s.groupWatts g = s.load + (v.map GroupGrant.watts).getD 0 := by
  have other (h : GroupId) (e : h ≠ g) : (s.setGroupGrant g v).groupWatts h = s.groupWatts h := by
    simp [State.groupWatts, State.setGroupGrant, e]
  have own : (s.setGroupGrant g v).groupWatts g = (v.map GroupGrant.watts).getD 0 := by
    simp [State.groupWatts, State.setGroupGrant]
  have change := sumOf_change GroupId.all_nodup (GroupId.mem_all g) other
  have load : (s.setGroupGrant g v).load = s.feed.base + (sumOf AxisId.all (fun i => (s.standing i).watts)
      + sumOf GroupId.all (s.setGroupGrant g v).groupWatts + sumOf Ant.all s.earlierWave) + s.committed := rfl
  rw [s.load_eq, load]
  omega

theorem State.load_setWaveGrant (s : State) (a : Ant) (v : Option WaveGrant) :
    (s.setWaveGrant a v).load + s.earlierWave a = s.load + (v.map WaveGrant.watts).getD 0 := by
  have other (b : Ant) (e : b ≠ a) : (s.setWaveGrant a v).earlierWave b = s.earlierWave b := by
    simp [State.earlierWave, State.setWaveGrant, e]
  have own : (s.setWaveGrant a v).earlierWave a = (v.map WaveGrant.watts).getD 0 := by
    simp [State.earlierWave, State.setWaveGrant]
  have change := sumOf_change Ant.all_nodup (Ant.mem_all a) other
  have load : (s.setWaveGrant a v).load = s.feed.base + (sumOf AxisId.all (fun i => (s.standing i).watts)
      + sumOf GroupId.all s.groupWatts + sumOf Ant.all (s.setWaveGrant a v).earlierWave) + s.committed := rfl
  rw [s.load_eq, load]
  omega

/-- A zone replaced changes the load by the difference of its draws. -/
theorem State.load_setZone (s : State) (z : ZoneId) (v : Zone) :
    (s.setZone z v).load + (s.zone z).committed = s.load + v.committed := by
  have other (y : ZoneId) (e : y ≠ z) : ((s.setZone z v).zone y).committed = (s.zone y).committed :=
    congrArg Zone.committed ((s.zone_modZone z y fun _ => v).trans (if_neg e))
  have own : ((s.setZone z v).zone z).committed = v.committed :=
    congrArg Zone.committed ((s.zone_modZone z z fun _ => v).trans (if_pos rfl))
  have change := sumOf_change ZoneId.all_nodup (ZoneId.mem_all z) other
  have load : (s.setZone z v).load = s.feed.base + s.driveGrants
      + sumOf ZoneId.all (fun y => ((s.setZone z v).zone y).committed) := rfl
  have before : s.load = s.feed.base + s.driveGrants + sumOf ZoneId.all (fun y => (s.zone y).committed) := rfl
  rw [before, load]
  omega

/-! ### Conversions (R168) -/

theorem State.load_convertAxis_le (s : State) (c : GrantCover) (i : AxisId) (h : Nat) :
    (s.convertAxis c i h).load ≤ s.load + h := by
  unfold State.convertAxis
  split
  · exact le_trans (Nat.le_add_right _ _) (s.load_setStanding i ⟨h, h⟩).le
  · exact Nat.le_add_right _ _

theorem forEach_convertAxis_load_le (c : GrantCover) (xs : List (AxisId × Nat)) (s : State) :
    (forEach xs (fun s p => s.convertAxis c p.1 p.2) s).load ≤ s.load + (xs.map Prod.snd).sum := by
  induction xs generalizing s with
  | nil => exact Nat.le_add_right _ _
  | cons p xs ih =>
    have head := s.load_convertAxis_le c p.1 p.2
    have rest := ih (s.convertAxis c p.1 p.2)
    simp only [forEach, List.foldl_cons, List.map_cons, List.sum_cons] at rest ⊢
    omega

/-- A conversion adds no more than the grant held (R158, log 32). -/
theorem State.load_convertGrant_le (s : State) (c : GrantCover) (w : Nat) (hs : List (AxisId × Nat)) :
    (s.convertGrant c w hs).load ≤ s.load + w :=
  (forEach_convertAxis_load_le ..).trans (Nat.add_le_add_left (shares_sum ..) _)

theorem State.convertAxis_grants (s : State) (c : GrantCover) (i : AxisId) (h : Nat) :
    (s.convertAxis c i h).feed.groups = s.feed.groups ∧ (s.convertAxis c i h).feed.waves = s.feed.waves := by
  unfold State.convertAxis
  split <;> exact ⟨rfl, rfl⟩

theorem State.convertGrant_groups (s : State) (c : GrantCover) (w : Nat) (hs : List (AxisId × Nat)) :
    (s.convertGrant c w hs).feed.groups = s.feed.groups :=
  forEach_keeps (f := fun s (p : AxisId × Nat) => s.convertAxis c p.1 p.2) (fun t => t.feed.groups)
    (fun s p => (s.convertAxis_grants c p.1 p.2).1) _ s

theorem State.convertGrant_waves (s : State) (c : GrantCover) (w : Nat) (hs : List (AxisId × Nat)) :
    (s.convertGrant c w hs).feed.waves = s.feed.waves :=
  forEach_keeps (f := fun s (p : AxisId × Nat) => s.convertAxis c p.1 p.2) (fun t => t.feed.waves)
    (fun s p => (s.convertAxis_grants c p.1 p.2).2) _ s

/-- A release never raises the load (R168). -/
theorem State.load_releaseGroupGrant_le (s : State) (g : GroupId) : (s.releaseGroupGrant g).load ≤ s.load := by
  unfold State.releaseGroupGrant
  split
  · exact le_rfl
  next v hv =>
    have converted := s.load_convertGrant_le (.group g) v.watts v.holds
    have removed := (s.convertGrant (.group g) v.watts v.holds).load_setGroupGrant g none
    have held : (s.convertGrant (.group g) v.watts v.holds).groupWatts g = v.watts := by
      rw [State.groupWatts, State.convertGrant_groups, hv]; rfl
    have none_ : ((none : Option GroupGrant).map GroupGrant.watts).getD 0 = 0 := rfl
    show ((s.convertGrant (.group g) v.watts v.holds).setGroupGrant g none).load ≤ s.load
    omega

theorem State.load_releaseWaveGrant_le (s : State) (a : Ant) : (s.releaseWaveGrant a).load ≤ s.load := by
  unfold State.releaseWaveGrant
  split
  · exact le_rfl
  next v hv =>
    have converted := s.load_convertGrant_le .wave v.watts [(⟨a, .az⟩, v.holds.az), (⟨a, .el⟩, v.holds.el)]
    have removed := (s.convertGrant .wave v.watts
      [(⟨a, .az⟩, v.holds.az), (⟨a, .el⟩, v.holds.el)]).load_setWaveGrant a none
    have held : (s.convertGrant .wave v.watts
        [(⟨a, .az⟩, v.holds.az), (⟨a, .el⟩, v.holds.el)]).earlierWave a = v.watts := by
      rw [State.earlierWave, State.convertGrant_waves, hv]; rfl
    have none_ : ((none : Option WaveGrant).map WaveGrant.watts).getD 0 = 0 := rfl
    show ((s.convertGrant .wave v.watts
      [(⟨a, .az⟩, v.holds.az), (⟨a, .el⟩, v.holds.el)]).setWaveGrant a none).load ≤ s.load
    omega

theorem State.load_lowerWaveGrant_le (s : State) (a : Ant) : (s.lowerWaveGrant a).load ≤ s.load := by
  unfold State.lowerWaveGrant
  split
  · exact le_rfl
  next v hv =>
    let low : WaveGrant := { v with isHold := true, watts := min v.watts (v.holds.az + v.holds.el) }
    have lowered := s.load_setWaveGrant a (some low)
    have held := State.earlierWave_some hv
    have less : ((some low).map WaveGrant.watts).getD 0 ≤ v.watts := Nat.min_le_left ..
    show (s.setWaveGrant a (some low)).load ≤ s.load
    omega

/-- An axis's own share of a grant leaves the grant as it comes to the axis (R160, log 33). -/
theorem State.load_ownGrant_le (s : State) (i : AxisId) : (s.ownGrant i).load ≤ s.load := by
  unfold State.ownGrant
  split
  next g _ =>
    split
    · exact le_rfl
    next v hv =>
      split
      · have converted := s.load_convertAxis_le (.group g) i (min (v.hold i) v.watts)
        have kept := (s.convertAxis_grants (.group g) i (min (v.hold i) v.watts)).1
        have replaced := (s.convertAxis (.group g) i (min (v.hold i) v.watts)).load_setGroupGrant g
          (some (v.without i))
        have held : (s.convertAxis (.group g) i (min (v.hold i) v.watts)).groupWatts g = v.watts := by
          rw [State.groupWatts, kept, hv]; rfl
        have left : ((some (v.without i)).map GroupGrant.watts).getD 0 = v.watts - min (v.hold i) v.watts := rfl
        show ((s.convertAxis (.group g) i (min (v.hold i) v.watts)).setGroupGrant g (some (v.without i))).load ≤ _
        omega
      · exact le_rfl
  · split
    · exact le_rfl
    next v hv =>
      split
      · have converted := s.load_convertAxis_le .wave i (min (v.holds.get i.ax) v.watts)
        have kept := (s.convertAxis_grants .wave i (min (v.holds.get i.ax) v.watts)).2
        have replaced := (s.convertAxis .wave i (min (v.holds.get i.ax) v.watts)).load_setWaveGrant i.ant
          (some (v.without i.ax))
        have held : (s.convertAxis .wave i (min (v.holds.get i.ax) v.watts)).earlierWave i.ant = v.watts := by
          rw [State.earlierWave, kept, hv]; rfl
        have left : ((some (v.without i.ax)).map WaveGrant.watts).getD 0
            = v.watts - min (v.holds.get i.ax) v.watts := rfl
        show ((s.convertAxis .wave i (min (v.holds.get i.ax) v.watts)).setWaveGrant i.ant
          (some (v.without i.ax))).load ≤ _
        omega
      · exact le_rfl
  · exact le_rfl

end Sys2Proof.Machine
end

