-- ==== Sys2Proof/Proofs/Records.lean ====
section
/-! PROOFS. The records of the store (R199 to R201): what their CRCs, marks and contents are once one is written or marked;
the writes that wait; a placement in the table; and POWER_LOSS (O21). -/

namespace Sys2Proof.Machine

variable {st : Store} {id : RecordId} {b : Bool}

/-! ### One record of the store -/

/-- The store has a record of the name. -/
def Store.has (st : Store) : RecordId → Bool
  | .lockout n => decide (n < st.lockouts.length)
  | .permit n => decide (n < st.permits.length)
  | _ => true

theorem getElem?_map_modAt {α β : Type} (xs : List α) (n m : Nat) (f : α → α) (g : α → β) :
    ((modAt xs n f)[m]?).map g = if n = m ∧ m < xs.length then (xs[m]?).map (g ∘ f) else (xs[m]?).map g := by
  rw [modAt_getElem?]
  by_cases e : m = n
  · subst e
    by_cases h : m < xs.length
    · simp [h]
    · simp [h]
  · simp [e, Ne.symm e]

theorem axisCell_set {α : Type} (x : Six (PerAxis α)) (i j : AxisId) (v : α) :
    ((x.set i.ant ((x.get i.ant).set i.ax v)).get j.ant).get j.ax =
      if i = j then v else (x.get j.ant).get j.ax := by
  obtain ⟨a, p⟩ := i
  obtain ⟨b, q⟩ := j
  by_cases h : b = a
  · subst h
    simp [eq_comm]
  · simp [h, Ne.symm h]

theorem zoneCell_set {α : Type} (x : Six (Trio α)) (i j : ZoneId) (v : α) :
    ((x.set i.ant ((x.get i.ant).set i.cls v)).get j.ant).get j.cls =
      if i = j then v else (x.get j.ant).get j.cls := by
  obtain ⟨a, p⟩ := i
  obtain ⟨b, q⟩ := j
  by_cases h : b = a
  · subst h
    simp [eq_comm]
  · simp [h, Ne.symm h]

/-- A reading of one list element, or its default where the list has none, once another element is changed. -/
theorem getD_map_modAt {α β : Type} (xs : List α) (n m : Nat) (f : α → α) (g : α → β) (d : β) :
    (((modAt xs n f)[m]?).map g).getD d =
      if n = m ∧ m < xs.length then ((xs[m]?).map (g ∘ f)).getD d else ((xs[m]?).map g).getD d := by
  rw [getElem?_map_modAt, apply_ite (Option.getD · d)]

theorem Store.goodOf_put (v : RecordValue) : (st.put v b).goodOf id = if v.id = id ∧ st.has id then b else st.goodOf id := by
  cases v with
  | station r => cases id <;> rfl
  | wind r => cases id <;> rfl
  | axis i r =>
    cases id with
    | axis j =>
      simp only [Store.put, Store.goodOf, axisCell_set, RecordValue.id, RecordId.axis.injEq, Store.has, and_true]
      exact apply_ite Stored.good ..
    | _ => rfl
  | zone z r =>
    cases id with
    | zone y =>
      simp only [Store.put, Store.goodOf, zoneCell_set, RecordValue.id, RecordId.zone.injEq, Store.has, and_true]
      exact apply_ite Stored.good ..
    | _ => rfl
  | lockout n r =>
    cases id with
    | lockout m =>
      simp only [Store.put, Store.goodOf, getD_map_modAt, RecordValue.id, RecordId.lockout.injEq, Store.has,
        decide_eq_true_eq]
      exact if_ctx_congr Iff.rfl (fun h => by simp [List.getElem?_eq_getElem h.2]) fun _ => rfl
    | _ => rfl
  | permit n r =>
    cases id with
    | permit m =>
      simp only [Store.put, Store.goodOf, getD_map_modAt, RecordValue.id, RecordId.permit.injEq, Store.has,
        decide_eq_true_eq]
      exact if_ctx_congr Iff.rfl (fun h => by simp [List.getElem?_eq_getElem h.2]) fun _ => rfl
    | _ => rfl

theorem Store.mark_put (v : RecordValue) : (st.put v b).mark id = st.mark id := by
  cases v with
  | station r => cases id <;> rfl
  | wind r => cases id <;> rfl
  | axis i r =>
    cases id with
    | axis j =>
      simp only [Store.put, Store.mark, axisCell_set]
      split
      next e => rw [e]
      next => rfl
    | _ => rfl
  | zone z r =>
    cases id with
    | zone y =>
      simp only [Store.put, Store.mark, zoneCell_set]
      split
      next e => rw [e]
      next => rfl
    | _ => rfl
  | lockout n r =>
    cases id with
    | lockout m => simp only [Store.put, Store.mark, getD_map_modAt]; exact ite_self _
    | _ => rfl
  | permit n r =>
    cases id with
    | permit m => simp only [Store.put, Store.mark, getD_map_modAt]; exact ite_self _
    | _ => rfl

theorem Store.goodOf_setMark (i : RecordId) : (st.setMark i b).goodOf id = st.goodOf id := by
  cases i with
  | station => cases id <;> rfl
  | wind => cases id <;> rfl
  | axis i =>
    cases id with
    | axis j =>
      simp only [Store.setMark, Store.goodOf, axisCell_set]
      split
      next e => rw [e]
      next => rfl
    | _ => rfl
  | zone z =>
    cases id with
    | zone y =>
      simp only [Store.setMark, Store.goodOf, zoneCell_set]
      split
      next e => rw [e]
      next => rfl
    | _ => rfl
  | lockout n =>
    cases id with
    | lockout m => simp only [Store.setMark, Store.goodOf, getD_map_modAt]; exact ite_self _
    | _ => rfl
  | permit n =>
    cases id with
    | permit m => simp only [Store.setMark, Store.goodOf, getD_map_modAt]; exact ite_self _
    | _ => rfl

theorem Store.mark_setMark (i : RecordId) :
    (st.setMark i b).mark id = if i = id ∧ st.has id then b else st.mark id := by
  cases i with
  | station => cases id <;> rfl
  | wind => cases id <;> rfl
  | axis i =>
    cases id with
    | axis j =>
      simp only [Store.setMark, Store.mark, axisCell_set, RecordId.axis.injEq, Store.has, and_true]
      exact apply_ite Stored.mark ..
    | _ => rfl
  | zone z =>
    cases id with
    | zone y =>
      simp only [Store.setMark, Store.mark, zoneCell_set, RecordId.zone.injEq, Store.has, and_true]
      exact apply_ite Stored.mark ..
    | _ => rfl
  | lockout n =>
    cases id with
    | lockout m =>
      simp only [Store.setMark, Store.mark, getD_map_modAt, RecordId.lockout.injEq, Store.has, decide_eq_true_eq]
      exact if_ctx_congr Iff.rfl (fun h => by simp [List.getElem?_eq_getElem h.2]) fun _ => rfl
    | _ => rfl
  | permit n =>
    cases id with
    | permit m =>
      simp only [Store.setMark, Store.mark, getD_map_modAt, RecordId.permit.injEq, Store.has, decide_eq_true_eq]
      exact if_ctx_congr Iff.rfl (fun h => by simp [List.getElem?_eq_getElem h.2]) fun _ => rfl
    | _ => rfl

/-- The records of chapter 11 are those of a store of 24 slots and 32 entries. -/
theorem Store.has_iff (slots : st.lockouts.length = 24) (entries : st.permits.length = 32) :
    st.has id = true ↔ id ∈ RecordId.all := by
  have axes (i : AxisId) : i ∈ AxisId.all := AxisId.mem_all i
  cases id <;> simp [Store.has, RecordId.all, slots, entries, ZoneId.mem_all, axes]

/-! ### A queued write (R199, R200, R202) -/

/-- A write of the record waits, in the queue or in the overflow list. -/
def Store.waits (st : Store) (id : RecordId) : Bool := st.queued id || st.overflows id

theorem Store.owes_iff : st.owes id ↔ st.waits id = true ∧ st.mark id = false := by
  rw [Store.owes, Store.waits, Bool.or_eq_true]

/-- The change of a record, before its write joins the queue. -/
def Store.changed (st : Store) (id : RecordId) : Store := (st.setMark id false).noteChange id

theorem Store.mark_noteChange (i : RecordId) : (st.noteChange i).mark id = st.mark id := by
  unfold Store.noteChange; split
  · rfl
  · split
    · cases id <;> rfl
    · rfl

theorem Store.goodOf_noteChange (i : RecordId) : (st.noteChange i).goodOf id = st.goodOf id := by
  unfold Store.noteChange; split
  · rfl
  · split
    · cases id <;> rfl
    · rfl

theorem Store.alike_changed (st : Store) (id : RecordId) : st.Alike (st.changed id) :=
  (st.alike_setMark id false).trans (Store.alike_noteChange _ id)

theorem Store.waits_of_alike {u : Store} (h : st.Alike u) : u.waits id = st.waits id := by
  rw [Store.waits, Store.waits, Store.queued, Store.queued, Store.overflows, Store.overflows, h.queue, h.overflow]

theorem Store.mark_changed (i : RecordId) :
    (st.changed i).mark id = if i = id ∧ st.has id then false else st.mark id :=
  (Store.mark_noteChange i).trans (Store.mark_setMark i)

theorem Store.mark_queueWrite (i : RecordId) (now : Epoch) (good : Bool) :
    (st.queueWrite i now good).mark id = if i = id ∧ st.has id then false else st.mark id := by
  rw [← Store.mark_changed i]
  unfold Store.queueWrite
  dsimp only
  split
  · rfl
  split
  · cases id <;> rfl
  · cases i <;> cases id <;> rfl

theorem Store.goodOf_queueWrite (i : RecordId) (now : Epoch) (good : Bool) :
    (st.queueWrite i now good).goodOf id = st.goodOf id := by
  have changed : (st.changed i).goodOf id = st.goodOf id :=
    (Store.goodOf_noteChange i).trans (Store.goodOf_setMark i)
  unfold Store.queueWrite
  dsimp only
  split
  · exact changed
  split
  · rw [← changed]; cases id <;> rfl
  · rw [← changed]; cases i <;> cases id <;> rfl

/-- A write that waits goes on waiting. -/
theorem Store.waits_queueWrite (h : st.waits id = true) (i : RecordId) (now : Epoch) (good : Bool) :
    (st.queueWrite i now good).waits id = true := by
  have waits : (st.changed i).waits id = true := (Store.waits_of_alike (st.alike_changed i)).trans h
  rw [Store.waits, Bool.or_eq_true, Store.queued, Store.overflows, List.any_eq_true, List.any_eq_true] at waits ⊢
  unfold Store.queueWrite
  dsimp only
  split
  · exact waits
  split
  · exact waits.imp_left fun ⟨r, hr, k⟩ => ⟨r, List.mem_append_left _ hr, k⟩
  · cases i with
    | lockout n => exact waits.imp_right fun ⟨r, hr, k⟩ => ⟨r, List.mem_append_left _ hr, k⟩
    | _ => exact waits

/-- The write of a record that is not refused waits; a slot's always does (R202). -/
theorem Store.waits_queueWrite_self (h : st.refuses id = false ∨ ∃ n, id = .lockout n) (now : Epoch) (good : Bool) :
    (st.queueWrite id now good).waits id = true := by
  have alike := st.alike_changed id
  have same : (st.changed id).waits id = st.waits id := Store.waits_of_alike alike
  rw [Store.queueWrite]
  split
  next waits => exact waits
  next idle =>
    split
    next room => simp [Store.waits, Store.queued, Store.join]
    next full =>
      obtain refuses | ⟨n, rfl⟩ := h
      · have idle : st.waits id = false := by rw [← same]; exact Bool.eq_false_iff.mpr idle
        have long : ¬st.queue.length < 32 := by rw [← alike.queue]; exact full
        rw [Store.waits, Bool.or_eq_false_iff] at idle
        simp [Store.refuses, idle, long] at refuses
      · simp [Store.waits, Store.overflows, Store.joinOverflow]

/-- A queued write is owed (R199, R200). -/
theorem Store.owes_queueWrite_self (h : st.refuses id = false ∨ ∃ n, id = .lockout n) (has : st.has id = true)
    (now : Epoch) (good : Bool) : (st.queueWrite id now good).owes id :=
  Store.owes_iff.mpr ⟨Store.waits_queueWrite_self h now good, by rw [Store.mark_queueWrite, if_pos ⟨rfl, has⟩]⟩

/-- An owed write stays owed while others are queued. -/
theorem Store.owes_queueWrite (h : st.owes id) (i : RecordId) (now : Epoch) (good : Bool) :
    (st.queueWrite i now good).owes id := by
  obtain ⟨waits, mark⟩ := Store.owes_iff.mp h
  refine Store.owes_iff.mpr ⟨Store.waits_queueWrite waits i now good, ?_⟩
  rw [Store.mark_queueWrite, mark, ite_self]

/-! ### A placement in the table (R94) -/

theorem Locks.judge_merged {l : Locks} {p : Placement} {n : Nat} {c : Bool} (h : l.judge p = .merged n c) :
    (∃ e, l.slot n = some e ∧ p.keyOf e = true)
      ∧ c = decide ((l.slot n).map (fun e => e.merge p) ≠ l.slot n) := by
  unfold Locks.judge at h
  split at h
  next m key =>
    cases h
    exact ⟨Locks.findKey_spec key, rfl⟩
  next => split at h <;> cases h

theorem Locks.judge_created {l : Locks} {p : Placement} {n : Nat} (h : l.judge p = .created n) :
    l.findKey p = none ∧ n < l.slots.length ∧ l.slot n = none := by
  unfold Locks.judge at h
  split at h
  next => cases h
  next none =>
    split at h
    next m empty =>
      cases h
      exact ⟨none, Locks.emptySlot_spec empty⟩
    next => cases h

/-- The table is not full while a slot is empty. -/
theorem Locks.judge_ne_full {l : Locks} {n : Nat} (short : n < l.slots.length) (empty : l.slot n = none) (p : Placement) :
    l.judge p ≠ .full := by
  unfold Locks.judge
  split
  · exact Placed.noConfusion
  split
  · exact Placed.noConfusion
  next noKey noEmpty =>
    have := List.findIdx?_eq_none_iff.mp noEmpty l.slots[n] (List.getElem_mem short)
    rw [Locks.slot, List.getElem?_eq_getElem short] at empty
    rw [show l.slots[n] = none from empty] at this
    exact absurd this (by decide)

theorem slot_placeEntry_merged {s : State} {p : Placement} {n : Nat} {c : Bool} (h : s.locks.judge p = .merged n c)
    (m : Nat) : (s.placeEntry p).locks.slot m =
      if m = n then (s.locks.slot n).map (fun e => e.merge p) else s.locks.slot m := by
  obtain ⟨⟨e, at_, _⟩, c_⟩ := Locks.judge_merged h
  have short : n < s.locks.slots.length := Locks.slot_length (by rw [at_]; rfl)
  rw [State.placeEntry, h]
  cases c with
  | true =>
    refine (Locks.slot_setSlot ..).trans ?_
    simp [short]
  | false =>
    have same := of_decide_eq_false c_.symm
    rw [not_not.mp same]
    show s.locks.slot m = _
    split
    next here => rw [here]
    next => rfl

theorem slot_placeEntry_created {s : State} {p : Placement} {n : Nat} (h : s.locks.judge p = .created n) (m : Nat) :
    (s.placeEntry p).locks.slot m =
      if m = n then some (p.entry s.now s.store.nextCreation) else s.locks.slot m := by
  obtain ⟨_, short, _⟩ := Locks.judge_created h
  rw [State.placeEntry, h]
  refine (Locks.slot_setSlot ..).trans ?_
  simp [short]

/-! ### POWER_LOSS (R201) -/

/-- Losing power makes bad the CRC of the record being written, and of no other. -/
theorem Store.goodOf_lose (has : st.has id = true)
    (named : ∀ w, st.writing = some w → w.value.id = w.record) :
    st.lose.goodOf id = (st.goodOf id && decide (st.writing.map Writing.record ≠ some id)) := by
  unfold Store.lose
  cases writing : st.writing with
  | none => simp only [Option.map_none, ne_eq, reduceCtorEq, not_false_eq_true, decide_true, Bool.and_true]; rfl
  | some w =>
    show (st.put w.value false).goodOf id = _
    rw [Store.goodOf_put, named w writing]
    by_cases e : w.record = id
    · simp [e, has]
    · simp [e]

/-- Every command but POWER_ON does nothing without power (log 7). -/
theorem exec_eq_onPower {c : Instr} (h : c ≠ .powerOn) (s : State) : ∃ f, exec c s = .next (onPower s f) := by
  cases c with
  | powerOn => exact absurd rfl h
  | _ => exact ⟨_, rfl⟩

/-- Settles O21: losing the store is one write with a bad CRC, and every other command runs on power alone. -/
theorem powerLossKeepsTheStore : Obligations.PowerLossKeepsTheStore := by
  refine ⟨fun s on bounded tidy => ⟨s.losePower, congrArg Host.Outcome.next (if_pos on), rfl, rfl, rfl, rfl,
    fun id known => ?_, fun idle => ?_⟩, fun s c off other => ?_⟩
  · exact Store.goodOf_lose ((Store.has_iff bounded.lockouts bounded.permitRecords).mpr known)
      fun w writing => (tidy.written w writing).2
  · show s.store.lose = _
    rw [Store.lose, idle]
    cases h : s.store; simp_all
  · obtain ⟨f, ran⟩ := exec_eq_onPower other s
    rw [ran, onPower, off]
    rfl

end Sys2Proof.Machine
end

