-- ==== Sys2Proof/Proofs/PowerOn.lean ====
section
/-! PROOFS. POWER_ON (R203, R204): the store's records in force (O18), every block's power-on values (O19), and the
RESTORE_LOST entry (O20). -/

namespace Sys2Proof.Machine

variable {s t : State} {st : Store}

/-! ### What a power-on runs on -/

/-- The part as a POWER_ON finds it: without power, and so with any write in progress lost (R201, log 10). -/
def State.unpowered (s : State) : State := if s.powered then s.losePower else s

theorem exec_powerOn (s : State) : exec .powerOn s = .next s.unpowered.powerUp := by
  show Host.Outcome.next (if s.powered then s.losePower.powerUp else s.powerUp) = _
  rw [State.unpowered]; split <;> rfl

theorem State.unpowered_store (s : State) : s.unpowered.store = if s.powered then s.store.lose else s.store := by
  rw [State.unpowered]; split <;> rfl

theorem State.unpowered_field (s : State) : s.unpowered.field = s.field := by
  rw [State.unpowered]; split <;> rfl

/-- The part with its records loaded and the RESTORE_LOST entry placed (R203). -/
def State.restored (s : State) : State := s.booted.restoreLockouts s.store.badSlots

theorem State.powerUp_eq (s : State) : s.powerUp = s.restored.flagBad := rfl

/-- The RESTORE_LOST entry reaches the table and the store alone. -/
theorem restored_same {p : Part} (h : p ∉ [Part.lockTable, .store]) : p.same s.booted s.restored :=
  (Moves.restoreLockouts s.booted s.store.badSlots).touches.same p h

theorem flagBad_same {p : Part} (h : p ∉ [Part.links]) : p.same s s.flagBad := (Moves.flagBad s).touches.same p h

theorem State.flagBad_eq (s : State) : s.flagBad = { s with links := s.flagBad.links } := by
  rw [State.flagBad]; split <;> rfl

/-! ### The bad list (R203) -/

theorem Store.bad_setMark (id : RecordId) (b : Bool) : (st.setMark id b).bad = st.bad := by cases id <;> rfl

theorem Store.bad_noteChange (id : RecordId) : (st.noteChange id).bad = st.bad := by
  unfold Store.noteChange; split
  · rfl
  · split <;> rfl

theorem Store.bad_queueWrite (id : RecordId) (now : Epoch) (good : Bool) : (st.queueWrite id now good).bad = st.bad := by
  have marked : ((st.setMark id false).noteChange id).bad = st.bad :=
    (Store.bad_noteChange _).trans (Store.bad_setMark _ _)
  unfold Store.queueWrite
  dsimp only
  split
  · exact marked
  split
  · exact marked
  · cases id <;> exact marked

/-- What a queued write and the next creation number leave of the store, the RESTORE_LOST entry leaves. -/
theorem restoreLockouts_store {P : Store → Prop} (write : ∀ st id now good, P st → P (st.queueWrite id now good))
    (next : ∀ st, P st → P { st with nextCreation := st.nextCreation + 1 }) (bad : List Nat) (h : P s.store) :
    P (s.restoreLockouts bad).store := by
  have place (p : Placement) : P (s.placeEntry p).store := by
    unfold State.placeEntry
    split
    · exact h
    · split
      · exact write _ _ _ _ h
      · exact h
    · exact write _ _ _ _ (next _ h)
  have slot (u : State) (n : Option Nat) (k : P u.store) : P (u.queueSlot n).store := by
    cases n
    · exact k
    · exact write _ _ _ _ k
  have each (ns : List Nat) (u : State) (k : P u.store) :
      P (forEach ns (fun s n => s.queueWrite (.lockout n)) u).store := by
    induction ns generalizing u with
    | nil => exact k
    | cons n ns ih => exact ih _ (write _ _ _ _ k)
  unfold State.restoreLockouts
  split
  · exact h
  · exact each _ _ (slot _ _ (place _))

theorem restored_bad (s : State) : s.restored.store.bad = s.store.badList :=
  restoreLockouts_store (P := fun st => st.bad = s.store.badList) (fun _ _ _ _ => (Store.bad_queueWrite ..).trans)
    (fun _ => id) _ rfl

theorem Store.writing_queueWrite (id : RecordId) (now : Epoch) (good : Bool) (h : st.writing = none) :
    (st.queueWrite id now good).writing = none := by
  have marked : (st.setMark id false).writing = none := by cases id <;> exact h
  have noted : ((st.setMark id false).noteChange id).writing = none := by rw [Store.noteChange, marked]; exact marked
  unfold Store.queueWrite
  dsimp only
  split
  · exact noted
  split
  · exact noted
  · cases id <;> exact noted

theorem restored_writing (s : State) : s.restored.store.writing = none :=
  restoreLockouts_store (P := fun st => st.writing = none) (fun _ _ _ _ h => Store.writing_queueWrite _ _ _ h)
    (fun _ => id) _ rfl

theorem all_goodOf_iff (st : Store) : st.badList = [] ↔ RecordId.all.all st.goodOf = true := by
  simp [Store.badList, List.filter_eq_nil_iff]

/-- The STORE flag stands exactly where a record is bad; the power-on's own links have no flag (R186, R203). -/
theorem powerUp_flags (s : State) (l : Link) : (s.powerUp.link l).flags =
    if RecordId.all.all s.store.goodOf then 0 else stationFlag .store &&& Link.mask l := by
  have fresh : (s.restored.link l).flags = 0 := by
    have links : s.restored.links = .initial := restored_same (p := .links) (by decide)
    rw [State.link, links]
    cases l with
    | pendant p => exact congrArg LinkRecord.flags (Six.get_const ..)
    | _ => rfl
  rw [State.powerUp_eq, State.flagBad, restored_bad]
  cases h : RecordId.all.all s.store.goodOf with
  | true => rw [(all_goodOf_iff _).mpr h]; exact fresh
  | false =>
    have bad : s.store.badList.isEmpty = false := by
      rw [Bool.eq_false_iff, Ne, List.isEmpty_iff, all_goodOf_iff, h]; exact Bool.false_ne_true
    rw [bad, if_neg Bool.false_ne_true, if_neg Bool.false_ne_true, State.setFlags, State.link, Links.get_map]
    show (s.restored.link l).flags ||| _ = _
    rw [fresh]; exact BitVec.zero_or

/-! ### The permit table (R175, R203) -/

theorem mem_lostFrom {α : Type} {xs : List (Stored α)} {k n : Nat} :
    n ∈ lostFrom k xs ↔ ∃ m r, n = k + m ∧ xs[m]? = some r ∧ r.good = false := by
  induction xs generalizing k with
  | nil => simp [lostFrom]
  | cons x xs ih =>
    have later : (∃ m r, n = k + 1 + m ∧ xs[m]? = some r ∧ r.good = false)
        ↔ ∃ m r, n = k + (m + 1) ∧ (x :: xs)[m + 1]? = some r ∧ r.good = false := by
      simp [Nat.add_assoc, Nat.add_comm 1]
    have split_ : (∃ m r, n = k + m ∧ (x :: xs)[m]? = some r ∧ r.good = false)
        ↔ n = k ∧ x.good = false ∨ ∃ m r, n = k + (m + 1) ∧ (x :: xs)[m + 1]? = some r ∧ r.good = false := by
      constructor
      · rintro ⟨_ | m, r, e, h, bad⟩
        · obtain rfl : x = r := by simpa using h
          exact .inl ⟨e, bad⟩
        · exact .inr ⟨m, r, e, h, bad⟩
      · rintro (⟨e, bad⟩ | ⟨m, r, e, h, bad⟩)
        · exact ⟨0, x, e, rfl, bad⟩
        · exact ⟨m + 1, r, e, h, bad⟩
    rw [split_, ← later, ← ih, lostFrom]
    cases x.good <;> simp

theorem mem_lost_iff (st : Store) (n : Nat) :
    n ∈ st.loadPermits.lost ↔ ∃ r : Stored PermitRecord, st.permits[n]? = some r ∧ r.good = false := by
  refine mem_lostFrom.trans ⟨?_, fun ⟨r, h⟩ => ⟨n, r, (Nat.zero_add n).symm, h⟩⟩
  rintro ⟨m, r, e, h⟩
  rw [Nat.zero_add] at e
  exact ⟨r, e ▸ h⟩

theorem loadPermit_refusals (r : Stored PermitRecord) : (loadPermit r).refusals = 0 := rfl

theorem loadPermit_record {r : Stored PermitRecord} (good : r.good = true) : (loadPermit r).record = r.contents := by
  simp [loadPermit, PermitEntry.record, Stored.orElse, good]

theorem loadPermit_inUse {r : Stored PermitRecord} (bad : r.good = false) : (loadPermit r).inUse = false := by
  simp [loadPermit, Stored.orElse, bad, PermitRecord.unused]

/-! ### The lockout table (R203) -/

theorem pairwise_insertByCreation {key : Nat → Nat} {xs : List Nat} (h : xs.Pairwise fun m n => key m ≤ key n) (n : Nat) :
    (insertByCreation key n xs).Pairwise fun m n => key m ≤ key n := by
  induction xs with
  | nil => simp [insertByCreation]
  | cons m rest ih =>
    obtain ⟨first, tail⟩ := List.pairwise_cons.mp h
    unfold insertByCreation
    split
    next lt =>
      refine List.pairwise_cons.mpr ⟨fun k hk => ?_, h⟩
      rcases List.mem_cons.mp hk with rfl | hk
      · exact lt.le
      · exact lt.le.trans (first k hk)
    next ge =>
      refine List.pairwise_cons.mpr ⟨fun k hk => ?_, ih tail⟩
      rcases List.mem_cons.mp ((insertByCreation_perm key n rest).mem_iff.mp hk) with rfl | hk
      · exact not_lt.mp ge
      · exact first k hk

/-- The key by which the occupied slots are ordered. -/
def creationIn (slots : List (Option LockEntry)) (n : Nat) : Nat :=
  (((slots[n]?).getD none).map LockEntry.creation).getD 0

theorem orderOf_sorted (slots : List (Option LockEntry)) :
    (orderOf slots).Pairwise fun m n => creationIn slots m ≤ creationIn slots n := by
  have fold (ns acc : List Nat) (h : acc.Pairwise fun m n => creationIn slots m ≤ creationIn slots n) :
      (ns.foldl (fun acc n => if ((slots[n]?).getD none).isSome then insertByCreation (creationIn slots) n acc else acc)
        acc).Pairwise fun m n => creationIn slots m ≤ creationIn slots n := by
    induction ns generalizing acc with
    | nil => exact h
    | cons n ns ih =>
      rw [List.foldl_cons]
      refine ih _ ?_
      split
      · exact pairwise_insertByCreation h n
      · exact h
  exact fold _ [] .nil

theorem mem_loaded_order (st : Store) (n : Nat) :
    n ∈ st.loadLocks.order ↔ (st.loadLocks.slot n).isSome = true := by
  refine ((orderOf_perm st.restoredSlots).mem_iff (a := n)).trans ?_
  simp only [List.mem_filter, List.mem_range]
  exact ⟨fun h => h.2, fun h => ⟨Locks.slot_length (l := st.loadLocks) h, h⟩⟩

theorem good_getElem? (st : Store) (h : ∀ n, st.goodOf (.lockout n) = true) {n : Nat} {r : Stored (Option LockEntry)}
    (at_ : st.lockouts[n]? = some r) : r.good = true := by
  have good := h n
  rwa [Store.goodOf, at_] at good

theorem restoredSlots_of_good (st : Store) (h : ∀ n, st.goodOf (.lockout n) = true) :
    st.restoredSlots = st.lockouts.map Stored.contents := by
  refine List.map_congr_left fun r hr => ?_
  obtain ⟨n, at_⟩ := List.getElem?_of_mem hr
  rw [Stored.orElse, good_getElem? st h at_, if_pos rfl]

theorem badSlots_of_good (st : Store) (h : ∀ n, st.goodOf (.lockout n) = true) : st.badSlots = [] := by
  rw [List.eq_nil_iff_forall_not_mem]
  intro n hn
  obtain ⟨m, r, _, at_, bad⟩ := mem_lostFrom.mp hn
  rw [good_getElem? st h at_] at bad
  exact Bool.noConfusion bad

theorem restored_of_good (h : ∀ n, s.store.goodOf (.lockout n) = true) : s.restored = s.booted := by
  rw [State.restored, badSlots_of_good _ h]; rfl

/-! ### The drives and zones with their records (R5, R139) -/

/-- The power-on leaves every part but the table, the store and the links as it was loaded. -/
theorem powerUp_same {p : Part} (h : p ∉ [Part.lockTable, .store, .links]) : p.same s.booted s.powerUp :=
  (((Moves.restoreLockouts s.booted s.store.badSlots).to (qs := [Part.lockTable, .store, .links])).trans
    ((Moves.flagBad _).to (qs := [Part.lockTable, .store, .links]))).touches.same p h

theorem powerUp_axis (s : State) (i : AxisId) : s.powerUp.axis i = s.store.loadAxisUnit s.field i := by
  have drives : s.powerUp.ants = s.booted.ants := powerUp_same (p := .drives) (by decide)
  rw [State.axis, drives]
  obtain ⟨a, x⟩ := i
  have loaded : s.booted.ants.get a = s.store.loadAntenna s.field a := Six.get_of ..
  rw [loaded]
  cases x <;> rfl

theorem powerUp_zone (s : State) (z : ZoneId) : s.powerUp.zone z = .initial (s.store.loadZone z) := by
  have zones : s.powerUp.heat.zones = s.booted.heat.zones := powerUp_same (p := .zones) (by decide)
  rw [State.zone, zones]
  obtain ⟨a, c⟩ := z
  have loaded : s.booted.heat.zones.get a = s.store.loadZones a := Six.get_of ..
  rw [loaded]
  cases c <;> rfl

/-- Settles O18: what the power-on loads stands in every part but the table, the store and the links; the bad list is that
of the CRCs, and with good LOCKOUT records the table is the loaded one. -/
theorem powerOnLoadsTheStore : Obligations.PowerOnLoadsTheStore := by
  intro s
  refine ⟨_, exec_powerOn s, ?_⟩
  rw [← s.unpowered_store]
  generalize s.unpowered = s
  have drives : s.powerUp.ants = s.booted.ants := powerUp_same (p := .drives) (by decide)
  have permits : s.powerUp.permits = s.store.loadPermits := powerUp_same (p := .permits) (by decide)
  have wind : s.powerUp.wind = .initial (s.store.wind.orElse .factory) := powerUp_same (p := .wind) (by decide)
  have feed : s.powerUp.feed = .initial (s.store.station.orElse .factory) := powerUp_same (p := .feed) (by decide)
  refine ⟨?bad, fun i => ?axis, fun a => ?config, fun z => ?zone, ?wind, ?station, ?entries, fun n r at_ => ?entry,
    fun n => ?lost, powerUp_flags s, fun good => ?locks⟩
  case bad => rw [State.powerUp_eq, State.flagBad_eq]; exact restored_bad s
  case axis => rw [powerUp_axis]; rfl
  case config =>
    rw [drives]
    exact congrArg Antenna.configInvalid (Six.get_of ..)
  case zone => rw [powerUp_zone]; rfl
  case wind => rw [wind]; rfl
  case station => rw [State.stationRecord, feed, permits]; rfl
  case entries => rw [permits]; exact List.length_map ..
  case entry =>
    refine ⟨loadPermit r, ?_, rfl, loadPermit_record, loadPermit_inUse⟩
    rw [permits]
    show (List.map _ _)[n]? = _
    rw [List.getElem?_map, at_]; rfl
  case lost => rw [permits]; exact mem_lost_iff ..
  case locks =>
    have table : s.powerUp.locks = s.store.loadLocks := by
      rw [State.powerUp_eq, State.flagBad_eq]; exact congrArg State.locks (restored_of_good good)
    have store : s.powerUp.store = s.store.opened := by
      rw [State.powerUp_eq, State.flagBad_eq]; exact congrArg State.store (restored_of_good good)
    refine ⟨table ▸ restoredSlots_of_good _ good, fun e _ => ?effective, fun n short => ?mark, ?once, fun n => ?listed, ?old⟩
    case effective => simp [State.entryEffective, powerUp_axis, Store.loadAxisUnit, Axis.initial, AxisState.locked]
    case mark =>
      rw [store]
      have at_ : s.store.lockouts[n]? = some s.store.lockouts[n] := List.getElem?_eq_getElem short
      show (((List.map _ _)[n]?).map Stored.mark).getD false = true
      rw [List.getElem?_map, at_]
      exact good_getElem? _ good at_
    case once => rw [table]; exact (orderOf_perm _).nodup_iff.mpr ((List.nodup_range ..).filter _)
    case listed => rw [table]; exact mem_loaded_order ..
    case old =>
      rw [table]
      refine (orderOf_sorted s.store.restoredSlots).imp fun {m n} le d e hd he => ?_
      rwa [creationIn, creationIn, show (s.store.restoredSlots[m]?).getD none = some d from hd,
        show (s.store.restoredSlots[n]?).getD none = some e from he] at le

/-! ### Every block at power-on (R204) -/

/-- A power-on field of an antenna's drives. -/
theorem powerUp_ant (s : State) (a : Ant) : s.powerUp.ants.get a = s.store.loadAntenna s.field a := by
  have drives : s.powerUp.ants = s.booted.ants := powerUp_same (p := .drives) (by decide)
  rw [drives]; exact Six.get_of ..

theorem powerUp_link (s : State) (l : Link) :
    s.powerUp.link l = { Links.initial.get l with flags := (s.powerUp.link l).flags } := by
  have links : s.restored.links = .initial := restored_same (p := .links) (by decide)
  rw [State.powerUp_eq, State.flagBad]
  split
  · rw [State.link, links]
  · rw [State.setFlags, State.link, Links.get_map, links]; rfl

theorem Links.initial_get (l : Link) : (Links.initial.get l).enable = (match l with | .pendant _ => true | _ => false)
    ∧ (Links.initial.get l).reply = none ∧ (Links.initial.get l).notice = none ∧ (Links.initial.get l).taken = 0 := by
  cases l with
  | pendant p => rw [show Links.initial.get (.pendant p) = _ from Six.get_const ..]; exact ⟨rfl, rfl, rfl, rfl⟩
  | _ => exact ⟨rfl, rfl, rfl, rfl⟩

/-- Settles O19: the power-on's parts are the loaded ones. -/
theorem powerOnStartsEveryBlock : Obligations.PowerOnStartsEveryBlock := by
  intro s
  refine ⟨_, exec_powerOn s, ?_⟩
  simp only [State.axisIn, ← s.unpowered_field]
  generalize s.unpowered = s
  have tracks : s.powerUp.tracks = .const .initial := powerUp_same (p := .tracks) (by decide)
  have authorities : s.powerUp.locks.authority = .const .initial := powerUp_same (p := .authorities) (by decide)
  have stow : s.powerUp.stow = s.booted.stow := powerUp_same (p := .stow) (by decide)
  have ice : s.powerUp.heat.ice = .const .initial := powerUp_same (p := .ice) (by decide)
  have groups : s.powerUp.groups = s.booted.groups := powerUp_same (p := .groups) (by decide)
  have wind : s.powerUp.wind = .initial (s.store.wind.orElse .factory) := powerUp_same (p := .wind) (by decide)
  have feed : s.powerUp.feed = .initial (s.store.station.orElse .factory) := powerUp_same (p := .feed) (by decide)
  refine ⟨powerUp_same (p := .power) (by decide), powerUp_same (p := .clock) (by decide),
    powerUp_same (p := .field) (by decide), fun i => ?_, fun i => ?_, fun a => ?ant, powerUp_same (p := .burst) (by decide),
    fun g => ?group, ?wind, ?calm, ?wave, fun z => ?zone, powerUp_same (p := .weather) (by decide), ?grants, ?queue, ?shed,
    ?writing, fun l => ?link⟩
  · rw [powerUp_axis]; rfl
  · rw [powerUp_axis]; exact ⟨rfl, rfl, rfl⟩
  case ant =>
    refine ⟨by rw [powerUp_ant]; rfl, by rw [powerUp_ant]; rfl, ?_, ?_, ?_, ?_, ?_⟩
    · rw [State.track, tracks, Six.get_const]
    · rw [State.remote, authorities, Six.get_const]; rfl
    · rw [State.jog, authorities, Six.get_const]; rfl
    · rw [State.stowOf, stow]
      exact congrArg StowRecord.state (Six.get_of ..)
    · rw [State.ice, ice, Six.get_const]; exact ⟨rfl, rfl⟩
  case group => rw [groups]; cases g <;> rfl
  case wind => rw [wind]; rfl
  case calm => rw [wind]; rfl
  case wave => rw [stow]; rfl
  case zone => rw [powerUp_zone]; exact ⟨rfl, rfl, rfl, rfl⟩
  case grants => rw [State.driveGrants]; simp only [State.standing, feed]; rfl
  case queue => rw [feed]; rfl
  case shed => rw [feed]; rfl
  case writing => rw [State.powerUp_eq, State.flagBad_eq]; exact restored_writing s
  case link => rw [powerUp_link]; exact Links.initial_get l

/-! ### The RESTORE_LOST entry (R203) -/

theorem locks_queueWrites (ns : List Nat) (s : State) :
    (forEach ns (fun s n => s.queueWrite (.lockout n)) s).locks = s.locks := by
  induction ns generalizing s with
  | nil => rfl
  | cons n ns ih => exact ih _

theorem owes_queueWrites {id : RecordId} {s : State} (h : s.store.owes id) (ns : List Nat) :
    (forEach ns (fun s n => s.queueWrite (.lockout n)) s).store.owes id := by
  induction ns generalizing s with
  | nil => exact h
  | cons n ns ih => exact ih (Store.owes_queueWrite h ..)

theorem has_queueWrite (i id : RecordId) (now : Epoch) (good : Bool) : (st.queueWrite i now good).has id = st.has id := by
  obtain ⟨_, slots, entries⟩ := Store.queueWrite_sizes st i now good
  cases id <;> simp [Store.has, slots, entries]

/-- Each slot of the list is owed a write once its own has been queued. -/
theorem owes_of_mem_queueWrites {s : State} {n : Nat} {ns : List Nat} (h : n ∈ ns)
    (has : s.store.has (.lockout n) = true) :
    (forEach ns (fun s n => s.queueWrite (.lockout n)) s).store.owes (.lockout n) := by
  induction ns generalizing s with
  | nil => cases h
  | cons m ns ih =>
    obtain rfl | h := List.mem_cons.mp h
    · exact owes_queueWrites (Store.owes_queueWrite_self (.inr ⟨n, rfl⟩) has ..) ns
    · exact ih h ((has_queueWrite ..).trans has)

/-- The RESTORE_LOST entry, placed or merged (R94, R203). -/
structure LockEntry.Lost (e : LockEntry) : Prop where
  scope : e.scope = none
  cover : e.cover = ⟨true, true, true⟩
  cls : e.cls = .safety
  holder : e.holder = .safety
  reason : e.reason = some 255

/-- Where a slot's record is bad, the RESTORE_LOST entry takes a slot, and every other slot stays as it was loaded. -/
theorem restorePlacement_slot {l : Locks} {n : Nat} (short : n < l.slots.length) (empty : l.slot n = none) (s : State)
    (at_ : s.locks = l) : ∃ m e, (l.judge restorePlacement).slot = some m ∧ m < l.slots.length
      ∧ (s.placeEntry restorePlacement).locks.slot m = some e ∧ e.Lost
      ∧ ∀ k, k ≠ m → (s.placeEntry restorePlacement).locks.slot k = l.slot k := by
  subst at_
  cases h : s.locks.judge restorePlacement with
  | full => exact absurd h (Locks.judge_ne_full short empty _)
  | merged m c =>
    obtain ⟨⟨e, at_, key⟩, _⟩ := Locks.judge_merged h
    simp only [Placement.keyOf, Bool.and_eq_true, decide_eq_true_eq] at key
    obtain ⟨⟨⟨scope, cls⟩, holder⟩, _⟩ := key
    refine ⟨m, e.merge restorePlacement, rfl, Locks.slot_length (by rw [at_]; rfl), ?_,
      ⟨scope, ?_, cls, holder, rfl⟩, fun k other => ?_⟩
    · rw [slot_placeEntry_merged h, if_pos rfl, at_]; rfl
    · simp [LockEntry.merge, coverUnion, restorePlacement]
    · rw [slot_placeEntry_merged h, if_neg other]
  | created m =>
    refine ⟨m, restorePlacement.entry s.now s.store.nextCreation, rfl, (Locks.judge_created h).2.1, ?_,
      ⟨rfl, rfl, rfl, rfl, rfl⟩, fun k other => ?_⟩
    · rw [slot_placeEntry_created h, if_pos rfl]
    · rw [slot_placeEntry_created h, if_neg other]

/-- An entry that locks the whole station covers every axis and every heater. -/
theorem covered_of_lost {s : State} {n : Nat} {e : LockEntry} (at_ : s.locks.slot n = some e) (lost : e.Lost) :
    (∀ i, s.axisCovered i = true) ∧ ∀ z, s.lockCap z = some 0 := by
  have mem : e ∈ s.locks.entries := (Locks.mem_entries ..).mpr ⟨n, at_⟩
  have reaches (a : Ant) : e.reaches a = true := by rw [LockEntry.reaches, lost.scope]
  refine ⟨fun i => List.any_eq_true.mpr ⟨e, mem, ?_⟩, fun z => if_pos (List.any_eq_true.mpr ⟨e, mem, ?_⟩)⟩
  · rw [LockEntry.coversAxis, lost.cover, reaches]; cases i.ax <;> rfl
  · rw [lost.cover, reaches]; rfl

theorem lockouts_unpowered (s : State) : s.unpowered.store.lockouts.length = s.store.lockouts.length := by
  rw [State.unpowered_store]
  split
  · rw [Store.lose]
    cases s.store.writing with
    | none => rfl
    | some w => exact (Store.alike_put ..).lockouts
  · rfl

/-- The table of a power-on that has found a bad LOCKOUT record. -/
theorem powerUp_locks (s : State) (bad : s.store.badSlots ≠ []) :
    s.powerUp.locks = (s.booted.placeEntry restorePlacement).locks := by
  rw [State.powerUp_eq, State.flagBad_eq]
  show s.restored.locks = _
  rw [State.restored, State.restoreLockouts, if_neg (by simpa using bad), locks_queueWrites]
  cases (s.booted.locks.judge restorePlacement).slot <;> rfl

theorem mem_badSlots (st : Store) (n : Nat) : n ∈ st.badSlots ↔ st.goodOf (.lockout n) = false := by
  refine mem_lostFrom.trans ?_
  constructor
  · rintro ⟨m, r, e, at_, bad⟩
    rw [Nat.zero_add] at e
    rw [e, Store.goodOf, at_]; exact bad
  · intro h
    cases at_ : st.lockouts[n]? with
    | none => rw [Store.goodOf, at_] at h; cases h
    | some r => exact ⟨n, r, (Nat.zero_add n).symm, at_, by rwa [Store.goodOf, at_] at h⟩

theorem loadLocks_slot (st : Store) (n : Nat) {r : Stored (Option LockEntry)} (at_ : st.lockouts[n]? = some r) :
    st.loadLocks.slot n = if r.good then r.contents else none := by
  show ((st.lockouts.map fun r => r.orElse none)[n]?).getD none = _
  rw [List.getElem?_map, at_]; rfl

/-- The slot of the RESTORE_LOST entry and every bad slot are owed a write (R203). -/
theorem powerUp_owes {s : State} {n : Nat} (bad : s.store.badSlots ≠ []) (has : n < s.store.lockouts.length)
    (h : (s.booted.locks.judge restorePlacement).slot = some n ∨ n ∈ s.store.badSlots) :
    s.powerUp.store.owes (.lockout n) := by
  have grown (st : Store) (h : st.has (.lockout n) = true) : { st with nextCreation := st.nextCreation + 1 }.has (.lockout n) = true := h
  have opened : s.booted.store.has (.lockout n) = true := by
    show decide (n < (List.map _ s.store.lockouts).length) = true
    rw [List.length_map]; exact decide_eq_true has
  have placed : (s.booted.placeEntry restorePlacement).store.has (.lockout n) = true := by
    unfold State.placeEntry
    split
    · exact opened
    · split
      · exact (has_queueWrite ..).trans opened
      · exact opened
    · exact (has_queueWrite ..).trans (grown _ opened)
  rw [State.powerUp_eq, State.flagBad_eq]
  show s.restored.store.owes _
  rw [State.restored, State.restoreLockouts, if_neg (by simpa using bad)]
  obtain slot | mem := h
  · rw [slot]
    exact owes_queueWrites (Store.owes_queueWrite_self (.inr ⟨n, rfl⟩) placed ..) _
  · refine owes_of_mem_queueWrites mem ?_
    cases (s.booted.locks.judge restorePlacement).slot
    · exact placed
    · exact (has_queueWrite ..).trans placed

/-- Settles O20: a bad record's slot is loaded empty, so the RESTORE_LOST entry has a place. -/
theorem badLockoutLocksTheStation : Obligations.BadLockoutLocksTheStation := by
  intro s bounded st found
  obtain ⟨k, short, lost⟩ := found
  have stored : s.unpowered.store = st := s.unpowered_store
  have slots : s.unpowered.store.lockouts.length = 24 := (lockouts_unpowered s).trans bounded.lockouts
  have ran := exec_powerOn s
  rw [← stored] at lost ⊢
  generalize s.unpowered = u at lost slots ran ⊢
  have bad : k ∈ u.store.badSlots := (mem_badSlots ..).mpr lost
  have some_ : u.store.badSlots ≠ [] := List.ne_nil_of_mem bad
  have table : u.booted.locks.slots.length = 24 := (List.length_map ..).trans slots
  have empty : u.booted.locks.slot k = none := by
    have at_ : u.store.lockouts[k]? = some (u.store.lockouts[k]'(slots ▸ short)) := List.getElem?_eq_getElem _
    refine (loadLocks_slot _ _ at_).trans ?_
    rw [Store.goodOf, at_] at lost
    exact if_neg (Bool.eq_false_iff.mp lost)
  obtain ⟨n, e, slot, low, at_, is, others⟩ := restorePlacement_slot (table ▸ short) empty u.booted rfl
  rw [← powerUp_locks u some_] at at_ others
  rw [table] at low
  obtain ⟨axes, zones⟩ := covered_of_lost at_ is
  refine ⟨_, n, e, ran, low, at_, is.scope, is.cover, is.cls, is.holder, is.reason, ?_, axes, zones, ?_,
    fun m short lost => ?_, fun m r other loaded => ?_⟩
  · simp [State.entryEffective, powerUp_axis, Store.loadAxisUnit, Axis.initial, AxisState.locked]
  · exact powerUp_owes some_ (slots ▸ low) (.inl slot)
  · exact powerUp_owes some_ (slots ▸ short) (.inr ((mem_badSlots ..).mpr lost))
  · rw [others m other]; exact loadLocks_slot _ _ loaded

end Sys2Proof.Machine
end

