-- ==== Sys2Proof/Proofs/Marked.lean ====
section
/-! PROOFS. Statements that name the flags an event sets, of a state that may already carry the marks of an earlier event
(`EveryStepKeepsTidy` rules such a state out, their hypotheses do not). What stands in `Scratch.early` counts as set when
the frame was taken, so the end of the event sets it on no link (R121, R195): each of these statements fails of a part
with every flag marked (O23, O36, O39, O40, O41, O46, O52, O55, O58). -/

namespace Sys2Proof.Machine

/-! ### A part with every flag marked early -/

/-- The part with every flag marked as set when a frame was taken. -/
def State.marked (s : State) : State := { s with scratch := { s.scratch with early := BitVec.allOnes 40 } }

/-- A command runs to a state in which Operations has not every flag of a word. -/
def unflaggedAfter (c : Instr) (s : State) (w : FlagWord) : Bool :=
  match exec c s with
  | .next t => decide ((t.link .operations).flags &&& w ≠ w)
  | _ => false

theorem not_flagged {c : Instr} {s t : State} {w : FlagWord} (h : unflaggedAfter c s w = true)
    (ran : exec c s = .next t) : ¬ t.flagged w := by
  intro flagged
  have wide : w &&& Link.mask .operations = w := and_mask_of_wide (fun _ => Link.noConfusion) w
  have set := flagged .operations
  rw [wide] at set
  rw [unflaggedAfter, ran] at h
  exact of_decide_eq_true h set

/-! ### The states of the refutations -/

/-- A head wait past 10 s. -/
def State.longHeadWait : State := { State.reset with store := { State.reset.store with headWait := some (-10000) } }.marked

/-- A queue with one segment of antenna 0, in a run state, the pause noted. -/
def State.withSegment (g : Segment) (run : RunState) : State :=
  (State.reset.modTrack .n0 fun t => { t with segments := [g], run := run, pauseReported := true }).marked

/-- A segment that starts at an epoch and ends 10 ms later where it began. -/
def stillSegment (e : Epoch) (last : Bool) (state : SegState) : Segment :=
  ⟨e, 10, ⟨0, 45000⟩, ⟨0, 45000⟩, last, state⟩

/-- A burst open for antenna 0 with one STAGED segment. -/
def State.stagedBurst : State :=
  { State.withSegment (stillSegment 0 false .staged) .idle with burst := { Burst.initial with ant := some .n0 } }

/-- A segment of more than AZ's speed, at which a run halts CONFIG (R62). -/
def fastSegment : Segment := ⟨0, 10, ⟨0, 45000⟩, ⟨90000, 45000⟩, false, .queued⟩

/-- A run of antenna 0 about to start on that segment: both axes hold. -/
def State.fastRun : State :=
  (State.withSegment fastSegment .starting).modAnt .n0 fun v =>
    { v with bus := .up, axes := v.axes.map fun _ x => { x with state := .holding } }

/-- A LAST segment of antenna 0 completes at a servo step. -/
def State.lastDone : State := State.withSegment (stillSegment (-10) true .active) .running

/-- A shed that expires. -/
def State.shedOut : State :=
  { State.reset with feed := { State.reset.feed with shed := ⟨true, some true, false, some 0, none⟩ } }.marked

/-- A queue of antenna 0 that waits. -/
def State.waitingQueue : State := State.withSegment (stillSegment 0 false .queued) .waiting

theorem waitingQueue_live : (State.waitingQueue.track .n0).empty = false := by decide

/-! ### The refutations -/

/-- Refutes O23: a head wait past 10 s sets STORE on no link where STORE is marked early. -/
theorem not_writesReachTheStore : ¬ Obligations.WritesReachTheStore := by
  intro h
  obtain ⟨_, _, _, expires⟩ := h.1 State.longHeadWait rfl
  obtain ⟨t, ran, flagged, _⟩ := expires (-10000) rfl (by decide) rfl
  exact not_flagged (by decide +kernel) ran flagged

/-- Refutes O36: a BURST_ABORT frees a slot of a queue with the pause noted, and sets TRACK on no link where TRACK is marked
early. -/
theorem not_burstDataStagesInOrder : ¬ Obligations.BurstDataStagesInOrder := by
  intro h
  obtain ⟨_, frees, _⟩ := h
  obtain ⟨t, ran⟩ : ∃ t, exec (.burstAbort 1) State.stagedBurst = .next t := ⟨_, rfl⟩
  have freed : (t.track .n0).segments = [] := by injection ran with ran; rw [← ran]; decide +kernel
  have row := frees State.stagedBurst t (.burstAbort 1) .n0 1 0 0 (by simp) ran rfl (by rw [freed]; decide)
  rw [freed, if_pos (by decide)] at row
  exact not_flagged (by decide +kernel) ran row.2

/-- Refutes O39: TRACK_CLEAR sets TRACK on no link where TRACK is marked early. -/
theorem not_queuesPrepareOrHalt : ¬ Obligations.QueuesPrepareOrHalt := by
  intro h
  obtain ⟨t, ran, _, _, flagged, _⟩ := h.1.1 State.reset.marked 1 .n0 (by decide +kernel)
  exact not_flagged (by decide +kernel) ran flagged

/-- Refutes O40: a run that halts CONFIG at its start sets TRACK on no link where TRACK is marked early. -/
theorem not_runsStartOnTheirSegment : ¬ Obligations.RunsStartOnTheirSegment := by
  intro h
  obtain ⟨t, ran, config, _⟩ := h State.fastRun .n0 fastSegment [] rfl (by decide +kernel) rfl
  exact not_flagged (by decide +kernel) ran (config rfl (by decide +kernel)).flag

/-- Refutes O41: a run that completes its LAST segment sets TRACK on no link where TRACK is marked early. -/
theorem not_segmentsCompleteInTurn : ¬ Obligations.SegmentsCompleteInTurn := by
  intro h
  obtain ⟨t, ran, last, _⟩ := (h State.lastDone .n0 rfl).2 (stillSegment (-10) true .active) [] (by decide +kernel)
    (by decide +kernel) rfl (by simp)
  obtain ⟨_, _, _, flagged, _⟩ := last rfl
  exact not_flagged (by decide +kernel) ran flagged

/-- Refutes O46: a LOCAL_CLAIM halts a queue and sets TRACK on no link where TRACK is marked early. -/
theorem not_localControlComesAndGoes : ¬ Obligations.LocalControlComesAndGoes := by
  intro h
  obtain ⟨t, ran, _, _, claimed, _⟩ := (h State.waitingQueue 1 .n0).1 (by decide +kernel)
  exact not_flagged (by decide +kernel) ran ((claimed rfl).2.1 waitingQueue_live).flag

/-- Refutes O52: an ALL_STOP halts a queue and sets TRACK on no link where TRACK is marked early. -/
theorem not_safetyReleasesAndStops : ¬ Obligations.SafetyReleasesAndStops := by
  intro h
  obtain ⟨t, ran, _, queues, _⟩ := (h State.waitingQueue 1).2 (by decide +kernel)
  exact not_flagged (by decide +kernel) ran ((queues .n0).1 waitingQueue_live).flag

/-- Refutes O55: a HEAT_SET sets HEAT on no link where HEAT is marked early. -/
theorem not_zonesTakeTheirFigures : ¬ Obligations.ZonesTakeTheirFigures := by
  intro h
  obtain ⟨t, _, ran, _, _, _, _, _, _, flagged⟩ :=
    (h State.reset.marked 1 ⟨.n0, .pin⟩).2 (.operations 0) .auto none rfl (by decide +kernel)
  exact not_flagged (by decide +kernel) ran flagged

/-- Refutes O58: a shed's expiry sets BUDGET on no link where BUDGET is marked early. -/
theorem not_feedKeepsItsBooks : ¬ Obligations.FeedKeepsItsBooks := by
  intro h
  obtain ⟨_, _, shed⟩ := h State.shedOut
  obtain ⟨t, ran, _, expired, _⟩ := shed _ (List.mem_cons_self ..) rfl ⟨rfl, 0, rfl, by decide⟩
  exact not_flagged (by decide +kernel) ran (expired rfl).2

end Sys2Proof.Machine
end

