-- ==== Sys2Proof/Proofs/WindClasses.lean ====
section
/-! PROOFS. The Wind Monitor's sample (R115 to R120): its figures stand as the sample formed them once the event is
over, since what follows an event and its notices leave the wind alone. -/

namespace Sys2Proof.Machine

variable {s t : State}

/-! ### What an event adds to its cause -/

/-- What follows the cause of an event changes the follow-on parts and the links alone. -/
theorem event_moves (s : State) (body : State → State) :
    Moves (.links :: followParts) (body s) (event s body) :=
  (Follows.settle _).to.trans (Moves.announce ..).to

theorem event_same {p : Part} (s : State) (body : State → State) (h : p ∉ .links :: followParts) :
    p.same (body s) (event s body) := (event_moves s body).touches.same p h

/-- A row that is due runs its event. -/
theorem occur_due {due : Bool} {body : State → State} (on : s.powered = true) (h : due = true) :
    occur s due body = .next (event s body) := by rw [occur, onPower, if_pos on, if_pos h]

/-! ### The wind of an event -/

theorem State.takeAll_wind (s : State) : s.takeAll.wind = s.wind := (Moves.takeAll s).touches.same .wind (by decide)

theorem State.takeAll_field (s : State) : s.takeAll.field = s.field := (Moves.takeAll s).touches.same .field (by decide)

@[simp] theorem State.changeWind_wind (s : State) (f : Wind → Wind) : (s.changeWind f).wind = f s.wind := by
  unfold State.changeWind
  dsimp only
  split
  · exact State.takeAll_wind _
  · rfl

@[simp] theorem State.changeWind_field (s : State) (f : Wind → Wind) : (s.changeWind f).field = s.field := by
  unfold State.changeWind
  dsimp only
  split
  · exact State.takeAll_field _
  · rfl

theorem sampled_wind (s : State) (r1 r2 : Int) :
    (event s fun s => s.sampleWind r1 r2).wind = s.wind.sample s.stationIce r1 r2 :=
  (event_same (p := .wind) s _ (by decide)).trans (by simp [State.sampleWind])

theorem sampled_field (s : State) (r1 r2 : Int) :
    (event s fun s => s.sampleWind r1 r2).field = { s.field with anem1 := r1, anem2 := r2 } :=
  (event_same (p := .field) s _ (by decide)).trans (by simp [State.sampleWind])

/-! ### The class changes its own items alone -/

/-- The Wind Monitor but for its class and fall count. -/
def Wind.unclassed (w : Wind) : Wind := { w with cls := .calm, fall := 0 }

theorem Wind.classify_unclassed (w : Wind) : w.classify.unclassed = w.unclassed := by
  unfold Wind.classify
  split
  · rfl
  · unfold Wind.countFall
    split
    · rfl
    · split
      · rfl
      · split <;> rfl

/-- A sample but for the class it gives. -/
theorem Wind.sample_unclassed (w : Wind) (ice : IceClass) (r1 r2 : Int) : (w.sample ice r1 r2).unclassed =
    ((((w.judge r1 r2).formThresholds ice).formSample r1 r2).countRises).unclassed := Wind.classify_unclassed _

/-- An item that the class does not touch is that of the judged and counted sample. -/
theorem Wind.sample_item {α : Type} (f : Wind → α) (own : ∀ w, f w.unclassed = f w) (w : Wind) (ice : IceClass)
    (r1 r2 : Int) : f (w.sample ice r1 r2) =
      f ((((w.judge r1 r2).formThresholds ice).formSample r1 r2).countRises) := by
  rw [← own (w.sample ice r1 r2), Wind.sample_unclassed, own]

/-! ### Gust and mean -/

theorem foldl_max_spec (x : Int) (xs : List Int) :
    xs.foldl max x ∈ x :: xs ∧ ∀ y ∈ x :: xs, y ≤ xs.foldl max x := List.max?_eq_some_iff.mp (List.max?_cons')

/-- The gust is the greatest of the last three samples (R117). -/
theorem Wind.gust_spec {w : Wind} (h : w.window ≠ []) : ∃ g, w.gust = some g
    ∧ g ∈ w.window.drop (w.window.length - 3) ∧ ∀ y ∈ w.window.drop (w.window.length - 3), y ≤ g := by
  have last : (w.window.drop (w.window.length - 3)) = (w.window.reverse.take 3).reverse := by
    rw [List.reverse_take, List.reverse_reverse, List.length_reverse]
  match e : w.window.reverse with
  | [] => exact absurd (List.reverse_eq_nil_iff.mp e) h
  | x :: rest =>
    refine ⟨(rest.take 2).foldl max x, by simp [Wind.gust, e], ?_, fun y hy => ?_⟩
    · rw [last, e, List.mem_reverse]; exact (foldl_max_spec ..).1
    · rw [last, e, List.mem_reverse] at hy; exact (foldl_max_spec ..).2 y hy

/-- The mean is the window's sum by its number, rounded down (R117). -/
theorem Wind.mean_spec {w : Wind} (h : w.window ≠ []) : ∃ m, w.mean = some m
    ∧ m * w.window.length ≤ w.window.sum ∧ w.window.sum < (m + 1) * w.window.length := by
  have pos : (0 : Int) < w.window.length := by
    exact_mod_cast List.length_pos_iff.mpr h
  refine ⟨w.window.sum / w.window.length, ?_, Int.ediv_mul_le _ pos.ne', Int.lt_ediv_add_one_mul_self _ pos⟩
  unfold Wind.mean
  split
  next e => exact absurd e h
  next => rw [List.sum_eq_foldl]

/-! ### The condition of a class -/

/-- A class's condition on a non-empty window (R118). -/
theorem Wind.meets_iff {w : Wind} (h : w.window ≠ []) (p : Pair) : w.meets p = true ↔
    (∃ m, w.mean = some m ∧ p.mean ≤ m) ∨ ∃ g, w.gust = some g ∧ p.gust ≤ g := by
  obtain ⟨g, hg, -⟩ := Wind.gust_spec h
  obtain ⟨m, hm, -⟩ := Wind.mean_spec h
  simp [Wind.meets, hg, hm]

theorem nextRise_pos (n : Nat) : nextRise true n = min 65535 (n + 1) := rfl

theorem joinWindow_eq (xs : List Int) (x : Int) :
    joinWindow xs x = (if 600 ≤ xs.length then xs.tail else xs) ++ [x] := by
  unfold joinWindow; split <;> rfl

theorem joinWindow_ne_nil (xs : List Int) (x : Int) : joinWindow xs x ≠ [] := by
  rw [joinWindow_eq]; simp

/-! ### The sample's figures -/

/-- The Wind Monitor of a sample before its class is judged. -/
def Wind.counted (w : Wind) (ice : IceClass) (r1 r2 : Int) : Wind :=
  (((w.judge r1 r2).formThresholds ice).formSample r1 r2).countRises

theorem Wind.sample_eq (w : Wind) (ice : IceClass) (r1 r2 : Int) :
    w.sample ice r1 r2 = (w.counted ice r1 r2).classify := rfl

/-- STUCK, RANGE and HEALTHY as one condition (R115). -/
theorem Channel.nextHealth_eq (c : Channel) (r : Int) (run other : Nat) : c.nextHealth r run other =
    if r < 0 ∨ 800 < r then .range
    else if run = 300 ∧ other < 300 ∨ c.health = .stuck ∧ run ≠ 1 then .stuck else .healthy := by
  unfold Channel.nextHealth outOfRange
  grind

theorem stationSample_eq (h1 h2 : Health) (r1 r2 gust : Int) : stationSample h1 h2 r1 r2 gust =
    if h1 = .healthy ∧ h2 = .healthy then max r1 r2 else if h1 = .healthy then r1
    else if h2 = .healthy then r2 else gust := by
  cases h1 <;> cases h2 <;> rfl

/-- Settles O48: what a sample counts stands after its event, and each of its rows is that sample (log 15). -/
theorem windSamplesJudgeTheChannels : Obligations.WindSamplesJudgeTheChannels := by
  refine ⟨fun s => ⟨_, exec_powerOn s, ?_⟩, fun s r1 r2 on => ?_⟩
  · have wind : s.unpowered.powerUp.wind = s.unpowered.booted.wind := powerUp_same (p := .wind) (by decide)
    rw [wind]; rfl
  intro run health
  have wind := sampled_wind s r1 r2
  have same {α : Type} (f : Wind → α) (own : ∀ w, f w.unclassed = f w) :
      f (event s fun s => s.sampleWind r1 r2).wind = f (s.wind.counted s.stationIce r1 r2) := by
    rw [wind, Wind.sample_item f own]; rfl
  have ne : (event s fun s => s.sampleWind r1 r2).wind.window ≠ [] := by
    rw [same Wind.window fun _ => rfl]; exact joinWindow_ne_nil _ _
  have row {due : Bool} (h : due = true) : occur s due (fun s => s.sampleWind r1 r2) = _ := occur_due on h
  have ch1 : (event s fun s => s.sampleWind r1 r2).wind.ch1
      = ⟨some r1, health s.wind.ch1 s.wind.ch2 r1 r2, run s.wind.ch1 r1⟩ := by
    rw [same Wind.ch1 fun _ => rfl]; exact congrArg (Channel.mk _ · _) (Channel.nextHealth_eq ..)
  have ch2 : (event s fun s => s.sampleWind r1 r2).wind.ch2
      = ⟨some r2, health s.wind.ch2 s.wind.ch1 r2 r1, run s.wind.ch2 r2⟩ := by
    rw [same Wind.ch2 fun _ => rfl]; exact congrArg (Channel.mk _ · _) (Channel.nextHealth_eq ..)
  let judged := s.wind.judge r1 r2
  refine ⟨_, stationSample judged.ch1.health judged.ch2.health r1 r2 (max 50 (s.wind.record.stow.gust
    - 20 * iceSteps s.stationIce)), row rfl, sampled_field s r1 r2, ch1, ch2, ?window,
    ⟨?sample, ?count, ?mark, ?degraded⟩, ?figures, fun ch h => ⟨row h, ?stuck⟩, fun h => ⟨row h, ?marked⟩,
    fun h => ⟨row h, ?rises⟩, fun h => ⟨row h, ?falls⟩⟩
  case window => rw [same Wind.window fun _ => rfl]; exact joinWindow_eq ..
  case sample =>
    rw [same Wind.ch1 fun _ => rfl, same Wind.ch2 fun _ => rfl]; exact stationSample_eq ..
  case count =>
    rw [same Wind.disagreeCount fun _ => rfl, same Wind.ch1 fun _ => rfl, same Wind.ch2 fun _ => rfl]
    rfl
  case mark =>
    rw [same Wind.disagreeMark fun _ => rfl, same Wind.disagreeCount fun _ => rfl]
    exact (Bool.and_eq_true_iff.trans (and_congr decide_eq_true_iff (Bool.or_eq_true_iff.trans
      (or_congr Iff.rfl decide_eq_true_iff))))
  case degraded =>
    rw [same Wind.degraded fun _ => rfl, same Wind.ch1 fun _ => rfl, same Wind.ch2 fun _ => rfl]
    exact Bool.and_eq_true_iff.trans (and_congr decide_eq_true_iff decide_eq_true_iff)
  case figures =>
    obtain ⟨gust, hgust, greatest⟩ := Wind.gust_spec ne
    obtain ⟨mean, hmean, rounded⟩ := Wind.mean_spec ne
    exact ⟨gust, mean, hgust, hmean, greatest, rounded⟩
  case stuck => rw [wind]; exact of_decide_eq_true (Bool.and_eq_true_iff.mp h).2
  case marked => rw [wind]; exact (Bool.and_eq_true_iff.mp h).2
  case rises => rw [wind]; exact of_decide_eq_true h
  case falls => rw [wind]; exact of_decide_eq_true h

/-! ### The class of a sample -/

/-- A rise count counts the samples that meet its class's condition in a row (R119). -/
theorem nextRise_counts {meets : Bool} {holds : Prop} (h : meets = true ↔ holds) (n : Nat) :
    (holds → nextRise meets n = min 65535 (n + 1)) ∧ (¬holds → nextRise meets n = 0) := by
  rw [← h]
  cases meets
  · exact ⟨nofun, fun _ => rfl⟩
  · exact ⟨fun _ => rfl, fun n => absurd rfl n⟩

/-- The class of a sample whose counts are formed (R119, R120). -/
theorem Wind.classify_spec (w : Wind) :
    if w.cls.num < 3 ∧ w.record.filter ≤ w.riseStow then w.classify.cls = .stow ∧ w.classify.fall = 0
    else if w.cls.num < 2 ∧ w.record.filter ≤ w.riseStrong then w.classify.cls = .strong ∧ w.classify.fall = 0
    else if w.cls.num < 1 ∧ w.record.filter ≤ w.riseBreezy then w.classify.cls = .breezy ∧ w.classify.fall = 0
    else if w.cls = .calm then w.classify.cls = .calm
    else if w.holdsClass = true then w.classify.cls = w.cls ∧ w.classify.fall = 0
    else if w.fall + 1 < w.record.holdDown then w.classify.cls = w.cls ∧ w.classify.fall = w.fall + 1
    else w.classify.cls.num + 1 = w.cls.num ∧ w.classify.fall = 0 := by
  have down (c : WindClass) (h : c ≠ .calm) : c.down.num + 1 = c.num := by
    cases c
    · exact absurd rfl h
    all_goals rfl
  unfold Wind.classify Wind.risesTo Wind.countFall
  grind

/-- Settles O49: the sample's counts and class follow its conditions, formed at the thresholds of the ice (R118). -/
theorem windClassRisesAndFalls : Obligations.WindClassRisesAndFalls := by
  intro s r1 r2 on
  have wind := sampled_wind s r1 r2
  have same {α : Type} (f : Wind → α) (own : ∀ w, f w.unclassed = f w) :
      f (event s fun s => s.sampleWind r1 r2).wind = f (s.wind.counted s.stationIce r1 r2) := by
    rw [wind, Wind.sample_item f own]; rfl
  refine ⟨_, occur_due on rfl, ?_⟩
  intro w r low meets counts
  let formed := (((w.judge r1 r2).formThresholds s.stationIce).formSample r1 r2)
  have ne : formed.window ≠ [] := joinWindow_ne_nil _ _
  have holds (p : Pair) : formed.meets ⟨low p.mean, low p.gust⟩ = true ↔ meets p := by
    rw [Wind.meets_iff ne]
    show _ ↔ ((∃ m, _ = some m ∧ _) ∨ ∃ g, _ = some g ∧ _)
    rw [same Wind.mean fun _ => rfl, same Wind.gust fun _ => rfl]; rfl
  refine ⟨?breezy, ?strong, ?stow, ?force, ?record, ?safety, ?silence, ?cls⟩
  case breezy => show counts _ _ _; rw [same Wind.riseBreezy fun _ => rfl]; exact nextRise_counts (holds _) _
  case strong => rw [same Wind.riseStrong fun _ => rfl]; exact nextRise_counts (holds _) _
  case stow => rw [same Wind.riseStow fun _ => rfl]; exact nextRise_counts (holds _) _
  case force => rw [same Wind.inForce fun _ => rfl]; rfl
  case record => rw [same Wind.record fun _ => rfl]; rfl
  case safety => rw [same Wind.safety fun _ => rfl]; rfl
  case silence => rw [same Wind.silence fun _ => rfl]; rfl
  case cls =>
    have spec := Wind.classify_spec (s.wind.counted s.stationIce r1 r2)
    rw [← Wind.sample_eq, ← wind, ← same Wind.riseStow fun _ => rfl, ← same Wind.riseStrong fun _ => rfl,
      ← same Wind.riseBreezy fun _ => rfl] at spec
    split
    next up => exact (if_pos up).mp spec
    next up =>
    replace spec := (if_neg up).mp spec
    split
    next up => exact (if_pos up).mp spec
    next up =>
    replace spec := (if_neg up).mp spec
    split
    next up => exact (if_pos up).mp spec
    next up =>
    replace spec := (if_neg up).mp spec
    split
    next calm => exact (if_pos calm).mp spec
    next calm =>
    replace spec := (if_neg calm).mp spec
    intro pair
    have own : (s.wind.counted s.stationIce r1 r2).holdsClass = true ↔ meets pair := by
      refine Iff.trans (b := formed.meets ⟨low pair.mean, low pair.gust⟩ = true) ?_ (holds pair)
      show (match w.cls with | .calm => _ | .breezy => _ | .strong => _ | .stow => _) = true ↔ _
      cases e : w.cls
      · exact absurd e calm
      all_goals simp only [pair, e]; rfl
    refine ⟨fun h => (if_pos (own.mpr h)).mp spec, fun h fall => ?_, fun h fall => ?_⟩
    · exact (if_pos fall).mp ((if_neg (h ∘ own.mp)).mp spec)
    · exact (if_neg (Nat.not_lt.mpr fall)).mp ((if_neg (h ∘ own.mp)).mp spec)

end Sys2Proof.Machine
end

