-- ==== Sys2Proof/Proofs/Levels.lean ====
section
/-! PROOFS. The requested level of a zone is its mode's (R145 to R148). -/

namespace Sys2Proof.Machine

/-- A quotient rounded up is the least whose product reaches the dividend. -/
theorem ceilDiv_bounds {n d : Nat} (h : 0 < d) : n ≤ ceilDiv n d * d ∧ ceilDiv n d * d < n + d := by
  have low : (n + d - 1) / d * d ≤ n + d - 1 := Nat.div_mul_le_self ..
  have high := Nat.lt_div_mul_add (a := n + d - 1) h
  unfold ceilDiv
  omega

/-- Between its bounds the thermostat gives 1 to N, N times the distance over B rounded up (R146). -/
theorem thermostat_between {frame band : Nat} {setpoint t : Int} (cold : setpoint - band < t) (warm : t < setpoint)
    (h : 0 < frame) : 1 ≤ thermostat frame setpoint band t ∧ thermostat frame setpoint band t ≤ frame
      ∧ (frame : Int) * (setpoint - t) ≤ thermostat frame setpoint band t * band
      ∧ ((thermostat frame setpoint band t : Int) - 1) * band < frame * (setpoint - t) := by
  obtain ⟨d, hd⟩ := Int.eq_ofNat_of_zero_le (sub_nonneg.mpr warm.le)
  have level : thermostat frame setpoint band t = ceilDiv (frame * d) band := by
    rw [thermostat, if_neg (not_le.mpr cold), if_neg (not_le.mpr warm), hd, Int.toNat_natCast]
  obtain ⟨low, high⟩ := ceilDiv_bounds (n := frame * d) (d := band) (by omega)
  have asked : 0 < frame * d := Nat.mul_pos h (by omega)
  have within : frame * d ≤ frame * band := Nat.mul_le_mul_left _ (by omega)
  rw [level]
  refine ⟨Nat.pos_of_mul_pos_right (asked.trans_le low), ?_, ?_, ?_⟩
  · have : ceilDiv (frame * d) band * band < (frame + 1) * band := by rw [Nat.add_one_mul]; omega
    exact Nat.lt_succ_iff.mp (Nat.lt_of_mul_lt_mul_right this)
  · rw [hd]; exact_mod_cast low
  · rw [hd, sub_mul, one_mul, sub_lt_iff_lt_add]; exact_mod_cast high

/-- Settles O54: the mode's branches, and AUTO's by the sensor. -/
theorem requestedLevelsFollowTheMode : Obligations.RequestedLevelsFollowTheMode := by
  intro z ice
  have unforced (h : z.forced = false) : z.wanted ice =
      match z.mode with | .off => 0 | .manual => min z.manual z.frame | .auto => z.autoLevel ice :=
    (if_neg (by rw [h]; exact Bool.false_ne_true)).trans (by cases z.mode <;> rfl)
  refine ⟨fun h => if_pos h, fun h => ?_⟩
  rw [unforced h]
  refine ⟨fun off => by rw [off], fun manual => by rw [manual], fun auto bad => ?_, fun temp auto good read => ?_⟩
  · rw [auto]; simp only [Zone.autoLevel, bad]
  · intro setpoint
    have level : z.autoLevel ice = thermostat z.frame setpoint z.band temp := by
      simp only [Zone.autoLevel, good, read]; rfl
    rw [auto]
    dsimp only
    rw [level]
    refine ⟨fun cold => if_pos cold, fun cold warm => ?_, thermostat_between⟩
    rw [thermostat, if_neg (not_le.mpr cold), if_pos warm]

end Sys2Proof.Machine
end

