-- ==== Sys2Proof/Proofs/SegmentRules.lean ====
section
/-! PROOFS. The checks of a segment are exactly its inequalities, and its failure is the first of them (R52 to R54). -/

namespace Sys2Proof.Machine

variable {s : State}

theorem Ant.all_axes (a : Ant) (p : AxisId → Bool) : a.axes.all p = true ↔ ∀ ax, p ⟨a, ax⟩ = true := by
  rw [List.all_eq_true]
  refine ⟨fun h ax => h _ ?_, fun h i hi => ?_⟩
  · cases ax <;> simp [Ant.axes]
  · obtain rfl : i.ant = a := by
      rcases List.mem_cons.mp hi with rfl | hi
      · rfl
      · rw [List.mem_singleton.mp hi]
    exact h i.ax

/-- The wind halves the speed in STRONG and STOW (R31). -/
theorem windDerated_eq (c : WindClass) (v : Nat) :
    windDerated c v = if c = .strong ∨ c = .stow then max 1 (v / 2) else v := by cases c <;> rfl

/-- The ice takes its share of the EL acceleration (R31). -/
theorem iceDerated_eq (ax : AxisName) (c : IceClass) (x : Nat) : iceDerated ax c x =
    if ax = .az then x else match c with | .none => x | .light => max 1 (3 * x / 4) | .heavy => max 1 (x / 2) := by
  cases ax <;> cases c <;> rfl

theorem ChainTail.follows_iff (t : ChainTail) (now : Epoch) (r : SegmentRecord) : t.follows now r = true ↔
    (t.end_ = none → now + 100 < r.start) ∧ ∀ e, t.end_ = some e → t.last = false ∧ (r.start : Int) = e := by
  unfold ChainTail.follows
  cases t.end_ <;> simp

theorem ChainTail.before_eq (t : ChainTail) (d : Nat) (ax : AxisName) :
    t.before d ax = if t.end_ = none then (0, d) else t.prev.get ax := by
  unfold ChainTail.before
  cases t.end_ <;> simp

/-- The first of five checks that fails names its cause. -/
theorem firstFailure {b1 b2 b3 b4 : Bool} {p1 p2 p3 p4 p5 : Prop} {full : Prop} [Decidable full]
    (h1 : b1 = true ↔ p1) (h2 : b2 = true ↔ p2) (h3 : b3 = true ↔ p3) (h4 : b4 = true ↔ p4) (h5 : ¬full ↔ p5) :
    let cause : Option SegCause := if !b1 then some .contiguity else if !b2 then some .limit
      else if !b3 then some .speed else if !b4 then some .accel else if full then some .full else none
    (cause = none ↔ p1 ∧ p2 ∧ p3 ∧ p4 ∧ p5) ∧ (cause = some .contiguity ↔ ¬p1) ∧ (cause = some .limit ↔ p1 ∧ ¬p2)
      ∧ (cause = some .speed ↔ p1 ∧ p2 ∧ ¬p3) ∧ (cause = some .accel ↔ p1 ∧ p2 ∧ p3 ∧ ¬p4)
      ∧ (cause = some .full ↔ p1 ∧ p2 ∧ p3 ∧ p4 ∧ ¬p5) := by
  rw [← h1, ← h2, ← h3, ← h4, ← h5]
  cases b1
  · simp
  cases b2
  · simp
  cases b3
  · simp
  cases b4
  · simp
  · by_cases full <;> simp_all

/-- Settles O37: each check is its inequality, and the first that fails is the cause. -/
theorem segmentChecksAreTheInequalities : Obligations.SegmentChecksAreTheInequalities := by
  intro s a tail r g v acc d delta prev contiguous within slow gentle room
  have speed (ax : AxisName) : s.limitV ⟨a, ax⟩ = v ⟨a, ax⟩ := windDerated_eq ..
  have accel (ax : AxisName) : s.limitA ⟨a, ax⟩ = acc ⟨a, ax⟩ := iceDerated_eq ..
  have fails := firstFailure (p1 := contiguous) (p2 := within) (p3 := slow) (p4 := gentle) (p5 := room)
    (tail.follows_iff s.now r)
    ((Ant.all_axes a fun i => (s.axis i).record.holds (r.endOf i.ax)).trans (forall_congr' fun ax => ?holds))
    ((Ant.all_axes a fun i => speedPasses (s.limitV i) (tail.delta r i.ax) r.duration).trans
      (forall_congr' fun ax => ?speeds))
    ((Ant.all_axes a fun i => accelPasses (s.limitA i) (tail.delta r i.ax) r.duration (tail.before r.duration i.ax)
        && stopPasses (s.limitA i) (tail.delta r i.ax) r.duration r.last).trans (forall_congr' fun ax => ?accels))
    (full := (s.track a).free = 0) ?free
  · obtain ⟨h1, h2, h3, h4, h5, h6⟩ := fails
    refine ⟨h1, h2, h3, h4, h5, h6, (Ant.all_axes a _).trans (forall_congr' fun ax => ?_),
      (Ant.all_axes a _).trans (forall_congr' fun ax => decide_eq_true_iff)⟩
    simp only [Bool.and_eq_true, decide_eq_true_eq, and_assoc]; rfl
  case holds => simp only [AxisRecord.holds, Bool.and_eq_true, decide_eq_true_eq]
  case speeds => rw [speed, speedPasses, decide_eq_true_iff]; rfl
  case accels =>
    rw [accel, tail.before_eq, accelPasses, stopPasses, Bool.and_eq_true_iff, Bool.or_eq_true_iff,
      decide_eq_true_iff, decide_eq_true_iff, Bool.not_eq_true', ← Bool.not_eq_true, ← imp_iff_not_or]
    rfl
  case free => simp only [Track.free, room]; omega

end Sys2Proof.Machine
end

