-- ==== Sys2Proof/Proofs/ProfileTimes.lean ====
section
/-! PROOFS. The arithmetic of one distance: the reachable peak is the root (R33), the profile time falls with the speed
(R34), and the halving search finds the smallest speed that arrives (R36). -/

namespace Sys2Proof.Machine

/-! ### The root -/

/-- The halving search keeps the root between its bounds. -/
theorem isqrtSearch_eq {n fuel lo hi : Nat} (low : lo * lo ≤ n) (high : n < hi * hi) (enough : hi ≤ lo + fuel) :
    isqrtSearch n fuel lo hi = Nat.sqrt n := by
  induction fuel generalizing lo hi with
  | zero =>
    have := Nat.mul_le_mul enough enough
    simp only [Nat.add_zero] at this
    omega
  | succ fuel ih =>
    rw [isqrtSearch]
    split
    next near =>
      refine Nat.eq_sqrt.mpr ⟨low, high.trans_le (Nat.mul_le_mul near near)⟩
    next far =>
      split
      next below => exact ih below high (by omega)
      next above => exact ih low (not_le.mp above) (by omega)

theorem isqrt_eq (n : Nat) : isqrt n = Nat.sqrt n :=
  isqrtSearch_eq (Nat.zero_le n) ((Nat.lt_succ_self n).trans_le (Nat.le_mul_self _)) (by omega)

theorem reach_eq (a d : Nat) : reach a d = Nat.sqrt (a * d) := isqrt_eq _

/-! ### The peak -/

variable {a d v : Nat}

theorem reach_pos (ha : 0 < a) (hd : 0 < d) : 0 < reach a d := by
  rw [reach_eq]; exact Nat.sqrt_pos.mpr (Nat.mul_pos ha hd)

theorem peakAt_pos (ha : 0 < a) (hd : 0 < d) (hv : 0 < v) : 0 < peakAt a d v := lt_min hv (reach_pos ha hd)

theorem peakAt_mono {u : Nat} (h : v ≤ u) : peakAt a d v ≤ peakAt a d u := min_le_min_right _ h

/-- The peak's square is within the product of acceleration and distance. -/
theorem peakAt_sq_le (a d v : Nat) : peakAt a d v * peakAt a d v ≤ a * d := by
  have h : peakAt a d v ≤ reach a d := min_le_right ..
  rw [reach_eq] at h
  exact (Nat.mul_le_mul h h).trans (Nat.sqrt_le _)

/-! ### The profile time -/

theorem profileTime_eq (hd : 0 < d) : profileTime a d v =
    ceilDiv (1000 * (d * a + peakAt a d v * peakAt a d v)) (peakAt a d v * a) := if_neg hd.ne'

/-- The quotient rounded up is the least multiple that reaches the dividend. -/
theorem ceilDiv_le_iff {n m t : Nat} (h : 0 < m) : ceilDiv n m ≤ t ↔ n ≤ t * m := by
  obtain ⟨low, high⟩ := ceilDiv_bounds (n := n) h
  constructor
  · intro le
    exact low.trans (Nat.mul_le_mul_right _ le)
  · intro le
    have : ceilDiv n m * m < (t + 1) * m := by rw [Nat.add_one_mul]; omega
    exact Nat.lt_succ_iff.mp (Nat.lt_of_mul_lt_mul_right this)

/-- A profile of a peak is over by a time that covers its distance and its ramps (R34). -/
theorem profileTime_le_iff (ha : 0 < a) (hd : 0 < d) (hv : 0 < v) {t : Nat} : profileTime a d v ≤ t ↔
    1000 * (d * a + peakAt a d v * peakAt a d v) ≤ t * (peakAt a d v * a) := by
  rw [profileTime_eq hd, ceilDiv_le_iff (Nat.mul_pos (peakAt_pos ha hd hv) ha)]

/-- The profile time does not rise with the speed (R36). -/
theorem profileTime_anti (ha : 0 < a) (hd : 0 < d) (hv : 0 < v) {u : Nat} (h : v ≤ u) :
    profileTime a d u ≤ profileTime a d v := by
  rw [profileTime_le_iff ha hd (hv.trans_le h)]
  have arrives := (profileTime_le_iff ha hd hv).mp (le_refl (profileTime a d v))
  have low := peakAt_pos ha hd hv
  have wide : peakAt a d v ≤ peakAt a d u := peakAt_mono h
  have root := peakAt_sq_le a d u
  generalize profileTime a d v = t at *
  generalize peakAt a d v = w at *
  generalize peakAt a d u = x at *
  -- the times are `d / w + w / a` at the peak `w`: they differ by `(x - w) (d a - w x)` over `w x a`
  have gain : (d * a + x * x) * w ≤ (d * a + w * w) * x := by
    obtain ⟨k, rfl⟩ := Nat.exists_eq_add_of_le wide
    have : w * (w + k) ≤ a * d := (Nat.mul_le_mul_right _ wide).trans root
    nlinarith [Nat.mul_le_mul_left k this]
  refine Nat.le_of_mul_le_mul_right ?_ low
  calc 1000 * (d * a + x * x) * w = 1000 * ((d * a + x * x) * w) := by ring
    _ ≤ 1000 * ((d * a + w * w) * x) := Nat.mul_le_mul_left _ gain
    _ = (1000 * (d * a + w * w)) * x := by ring
    _ ≤ t * (w * a) * x := Nat.mul_le_mul_right _ arrives
    _ = t * (x * a) * w := by ring

/-! ### The synchronized speed -/

/-- The halving search finds the smallest argument whose time fits, between one that does not and one that does. -/
theorem slowestSearch_spec {time : Nat → Nat} {tg fuel lo hi : Nat} (wide : lo < hi) (enough : hi ≤ lo + fuel)
    (fits : time hi ≤ tg) (below : ∀ u, 1 ≤ u → u ≤ lo → tg < time u)
    (falls : ∀ u v, 1 ≤ u → u ≤ v → time v ≤ time u) :
    lo < slowestSearch time tg fuel lo hi ∧ slowestSearch time tg fuel lo hi ≤ hi
      ∧ time (slowestSearch time tg fuel lo hi) ≤ tg
      ∧ ∀ u, 1 ≤ u → u < slowestSearch time tg fuel lo hi → tg < time u := by
  induction fuel generalizing lo hi with
  | zero => omega
  | succ fuel ih =>
    rw [slowestSearch]
    split
    next near => exact ⟨wide, le_rfl, fits, fun u one lt => below u one (by omega)⟩
    next far =>
      split
      next fit =>
        obtain ⟨h1, h2, h3⟩ := ih (by omega) (by omega) fit below
        exact ⟨h1, by omega, h3⟩
      next unfit =>
        obtain ⟨h1, h2, h3⟩ := ih (by omega) (by omega) fits fun u one le =>
          (not_le.mp unfit).trans_le (falls u _ one le)
        exact ⟨by omega, h2, h3⟩

/-- The synchronized speed is the smallest that arrives in the group time (R36). -/
theorem slowest_spec (ha : 0 < a) (hd : 0 < d) (hv : 0 < v) {tg : Nat} (fits : profileTime a d v ≤ tg) :
    1 ≤ slowest a d v tg ∧ slowest a d v tg ≤ v ∧ profileTime a d (slowest a d v tg) ≤ tg
      ∧ ∀ u, 1 ≤ u → u < slowest a d v tg → tg < profileTime a d u :=
  slowestSearch_spec hv (by omega) fits (by omega) fun _ _ one le => profileTime_anti ha hd one le

/-- A longer group time asks no greater speed. -/
theorem slowest_anti (ha : 0 < a) (hd : 0 < d) (hv : 0 < v) {tg th : Nat} (fits : profileTime a d v ≤ tg)
    (le : tg ≤ th) : slowest a d v th ≤ slowest a d v tg := by
  obtain ⟨one, -, arrives, -⟩ := slowest_spec ha hd hv fits
  obtain ⟨-, -, -, least⟩ := slowest_spec ha hd hv (fits.trans le)
  by_contra more
  have := least _ one (not_le.mp more)
  omega

end Sys2Proof.Machine
end

