-- ==== Sys2Proof/Proofs/Motions.lean ====
section
/-! PROOFS. What a servo step commands stays on its course: profiles (R43, R44), stops (R17), jogs (R111) and segments
(R63). -/

namespace Sys2Proof.Machine

/-! ### A profile's distance

Over the denominator `2000000 w²`, the distance of a profile is the floor of one function of `x = w a t`, with
`W = 1000 w²` where the ramp ends, `D = 1000 d a` where the cruise ends and `D + W` where the profile does. -/

/-- The numerator of a profile's distance. -/
def profileRise (W D x : Nat) : Nat :=
  if D + W ≤ x then 2 * W * D
  else if D < x then 2 * W * D - (D + W - x) * (D + W - x)
  else if W < x then W * (2 * x - W)
  else x * x

theorem profileRise_le (W D x : Nat) (h : W ≤ D) : profileRise W D x ≤ 2 * W * D := by
  have ramp : W * W ≤ W * D := Nat.mul_le_mul_left _ h
  unfold profileRise
  split
  · exact le_rfl
  · split
    · exact Nat.sub_le ..
    · split
      · calc W * (2 * x - W) ≤ W * (2 * D) := Nat.mul_le_mul_left _ (by omega)
          _ = 2 * W * D := by ring
      · calc x * x ≤ W * W := Nat.mul_le_mul (by omega) (by omega)
          _ ≤ 2 * W * D := by rw [Nat.mul_assoc]; omega

/-- Before the profile slows down it has risen no further than after (R43). -/
theorem profileRise_cruise_le {W D x : Nat} (h : W ≤ D) (hx : x ≤ D) :
    profileRise W D x ≤ 2 * W * D - W * W := by
  have ramp : W * W ≤ W * D := Nat.mul_le_mul_left _ h
  unfold profileRise
  split
  next end_ =>
    obtain rfl : W = 0 := by omega
    simp
  · rw [if_neg (by omega)]
    split
    · calc W * (2 * x - W) ≤ W * (2 * D - W) := Nat.mul_le_mul_left _ (by omega)
        _ = 2 * W * D - W * W := by rw [Nat.mul_sub]; ring_nf
    · calc x * x ≤ W * W := Nat.mul_le_mul (by omega) (by omega)
        _ ≤ 2 * W * D - W * W := by rw [Nat.mul_assoc]; omega

/-- The numerator rises with the time. -/
theorem profileRise_mono {W D x y : Nat} (h : W ≤ D) (le : x ≤ y) : profileRise W D x ≤ profileRise W D y := by
  by_cases past : D + W ≤ y
  · exact (profileRise_le W D x h).trans_eq (if_pos past).symm
  by_cases slow : D < y
  · rw [profileRise.eq_def W D y, if_neg past, if_pos slow]
    by_cases slowing : D < x
    · rw [profileRise, if_neg (by omega), if_pos slowing]
      exact Nat.sub_le_sub_left (Nat.mul_le_mul (by omega) (by omega)) _
    · exact (profileRise_cruise_le h (not_lt.mp slowing)).trans
        (Nat.sub_le_sub_left (Nat.mul_le_mul (by omega) (by omega)) _)
  rw [profileRise.eq_def W D x, if_neg (by omega), if_neg (by omega), profileRise, if_neg past, if_neg slow]
  by_cases cruise : W < x
  · rw [if_pos cruise, if_pos (by omega)]
    exact Nat.mul_le_mul_left _ (by omega)
  rw [if_neg cruise]
  split
  · exact Nat.mul_le_mul (not_lt.mp cruise) (by omega)
  · exact Nat.mul_le_mul le le

variable {a d w : Nat}

/-- A whole less a quotient rounded up is a quotient rounded down. -/
theorem sub_ceilDiv (n q m : Nat) (hm : 0 < m) (h : q ≤ n * m) : n - ceilDiv q m = (n * m - q) / m := by
  refine eq_of_forall_le_iff fun k => ?_
  have small : ceilDiv q m ≤ n := (ceilDiv_le_iff hm).mpr h
  rw [Nat.le_div_iff_mul_le hm]
  by_cases le : k ≤ n
  · have least := ceilDiv_le_iff (n := q) (t := n - k) hm
    have := Nat.mul_le_mul_right m le
    rw [Nat.sub_mul] at least
    omega
  · have := Nat.mul_lt_mul_of_pos_right (not_le.mp le) hm
    omega

/-- The distance of a profile is the floor of its numerator. -/
theorem trapezoid_fst (ha : 0 < a) (hw : 0 < w) (root : w * w ≤ a * d) (t : Nat) : (trapezoid d w a t).1 =
    profileRise (1000 * (w * w)) (1000 * d * a) (w * a * t) / (2000000 * (w * w) * a) := by
  have pos : 0 < 2000000 * (w * w) * a := by positivity
  have ends : 1000 * (d * a + w * w) ≤ w * a * t ↔ 1000 * d * a + 1000 * (w * w) ≤ w * a * t := by
    rw [show 1000 * (d * a + w * w) = 1000 * d * a + 1000 * (w * w) by ring]
  have slows : 1000 * d < w * t ↔ 1000 * d * a < w * a * t := by
    rw [show w * a * t = w * t * a by ring, Nat.mul_lt_mul_right ha]
  have cruises : 1000 * w < a * t ↔ 1000 * (w * w) < w * a * t := by
    rw [show w * a * t = a * t * w by ring, ← Nat.mul_assoc, Nat.mul_lt_mul_right hw]
  unfold trapezoid profileRise
  simp only [ends, slows, cruises]
  split
  next h =>
    rw [show 2 * (1000 * (w * w)) * (1000 * d * a) = d * (2000000 * (w * w) * a) by ring, Nat.mul_div_cancel _ pos]
  next h =>
  split
  next slow =>
    have q : 1000 * (d * a + w * w) - w * a * t = 1000 * d * a + 1000 * (w * w) - w * a * t := by
      rw [show 1000 * (d * a + w * w) = 1000 * d * a + 1000 * (w * w) by ring]
    dsimp only
    rw [sub_ceilDiv d _ _ pos ?_, q]
    · congr 2; ring
    · rw [q]
      calc _ ≤ (1000 * (w * w)) * (1000 * (w * w)) := Nat.mul_le_mul (by omega) (by omega)
        _ ≤ (1000 * (w * w)) * (1000 * (a * d)) := Nat.mul_le_mul_left _ (Nat.mul_le_mul_left _ root)
        _ ≤ d * (2000000 * (w * w) * a) := by nlinarith [Nat.zero_le (w * w * (a * d))]
  next fast =>
  split
  next cruise =>
    dsimp only
    rw [← Nat.mul_div_mul_left _ _ (show 0 < 1000 * (w * w) by positivity),
      show 1000 * (w * w) * (2000 * a) = 2000000 * (w * w) * a by ring, show 2 * a * w * t = 2 * (w * a * t) by ring]
  next ramp =>
    dsimp only
    rw [← Nat.mul_div_mul_left (a * (t * t)) _ (show 0 < w * w * a by positivity),
      show w * w * a * 2000000 = 2000000 * (w * w) * a by ring, show w * w * a * (a * (t * t)) = w * a * t * (w * a * t) by ring]

/-- The speed of a profile never passes its peak. -/
theorem trapezoid_snd_le (d w a t : Nat) : (trapezoid d w a t).2 ≤ w := by
  unfold trapezoid
  split
  · exact Nat.zero_le _
  split
  next slow =>
    refine Nat.div_le_of_le_mul ?_
    have scaled : 1000 * d * a ≤ w * t * a := Nat.mul_le_mul_right a slow.le
    have : 1000 * (d * a + w * w) = 1000 * d * a + 1000 * w * w := by ring
    have : w * a * t = w * t * a := by ring
    omega
  split
  · exact le_rfl
  next ramp => exact Nat.div_le_of_le_mul (not_lt.mp ramp)

/-- The phases of a profile at its peak (R43, R44). -/
theorem trapezoid_phases (ha : 0 < a) (hd : 0 < d) (hw : 0 < w) (root : w * w ≤ a * d) (t : Nat) :
    (a * t ≤ 1000 * w → trapezoid d w a t = (a * t ^ 2 / 2000000, a * t / 1000))
    ∧ (1000 * w < a * t → w * t ≤ 1000 * d →
      trapezoid d w a t = ((2 * a * w * t - 1000 * w ^ 2) / (2000 * a), w))
    ∧ (1000 * d < w * t → w * a * t < 1000 * (d * a + w ^ 2) →
      let q := 1000 * (d * a + w ^ 2) - w * a * t
      trapezoid d w a t =
        (d - (q ^ 2 + 2000000 * w ^ 2 * a - 1) / (2000000 * w ^ 2 * a), q / (1000 * w)))
    ∧ (1000 * (d * a + w ^ 2) ≤ w * a * t → trapezoid d w a t = (d, 0)) := by
  have over_ : w * a * t = w * t * a := by ring
  have ramped : w * a * t = a * t * w := by ring
  have whole : 0 < d * a := Nat.mul_pos hd ha
  simp only [pow_two]
  refine ⟨fun ramp => ?_, fun past cruise => ?_, fun past slow => ?_, fun done => if_pos done⟩
  · have x : a * t * w ≤ 1000 * w * w := Nat.mul_le_mul_right w ramp
    have cruise : w * t ≤ 1000 * d := by
      refine Nat.le_of_mul_le_mul_right ?_ ha
      calc w * t * a = a * t * w := by ring
        _ ≤ 1000 * (w * w) := by rw [← Nat.mul_assoc]; exact x
        _ ≤ 1000 * (a * d) := Nat.mul_le_mul_left _ root
        _ = 1000 * d * a := by ring
    rw [trapezoid, if_neg, if_neg (not_lt.mpr cruise), if_neg (not_lt.mpr ramp)]
    rw [ramped, Nat.mul_add, ← Nat.mul_assoc 1000 w w]
    omega
  · have x : w * t * a ≤ 1000 * d * a := Nat.mul_le_mul_right a cruise
    rw [trapezoid, if_neg, if_neg (not_lt.mpr cruise), if_pos past]
    rw [over_, Nat.mul_add, ← Nat.mul_assoc 1000 d a]
    have : 0 < w * w := by positivity
    omega
  · rw [trapezoid, if_neg (not_le.mpr slow), if_pos past]
    rfl

/-! ### Stops (R17) -/

/-- The distance that a stop from a velocity has run, over its denominator, against all it can run. -/
theorem stop_run_le {v a t : Nat} (h : t * a < 1000 * v) :
    (2000 * v * t - a * (t * t)) * a ≤ 1000000 * (v * v) := by
  have low : a * (t * t) ≤ 2000 * v * t := by nlinarith
  zify [low]
  nlinarith [sq_nonneg ((1000 * v : Int) - a * t)]

theorem stop_run_mono {v a t u : Nat} (h : u * a < 1000 * v) (le : t ≤ u) :
    2000 * v * t - a * (t * t) ≤ 2000 * v * u - a * (u * u) := by
  obtain ⟨k, rfl⟩ := Nat.exists_eq_add_of_le le
  have step : a * (k * (t + (t + k))) ≤ 2000 * v * k := calc
    a * (k * (t + (t + k))) ≤ a * (k * (2 * (t + k))) := Nat.mul_le_mul_left _ (Nat.mul_le_mul_left _ (by omega))
    _ = 2 * ((t + k) * a) * k := by ring
    _ ≤ 2000 * v * k := Nat.mul_le_mul_right _ (by omega)
  have grown : a * ((t + k) * (t + k)) = a * (t * t) + a * (k * (t + (t + k))) := by ring
  have : 2000 * v * (t + k) = 2000 * v * t + 2000 * v * k := by ring
  omega

/-- The distance of a stop rises until it rests. -/
theorem StopRecord.motion_spec (r : StopRecord) (ha : 0 < r.accel) (t u : Nat) :
    (r.motion t).1 ≤ r.velocity.natAbs * r.velocity.natAbs / (2 * r.accel)
    ∧ (r.motion t).2 ≤ r.velocity.natAbs ∧ (t ≤ u → (r.motion t).1 ≤ (r.motion u).1) := by
  have runs {x : Nat} (h : ¬r.duration ≤ x) : x * r.accel < 1000 * r.velocity.natAbs := by
    rwa [StopRecord.duration, ceilDiv_le_iff ha, not_le] at h
  have short (x : Nat) : (r.motion x).1 ≤ r.velocity.natAbs * r.velocity.natAbs / (2 * r.accel) := by
    unfold StopRecord.motion
    split
    · exact le_rfl
    next h =>
      refine (Nat.le_div_iff_mul_le (by omega)).mpr (Nat.le_of_mul_le_mul_left ?_ (show 0 < 1000000 by omega))
      have floor := Nat.div_mul_le_self (2000 * r.velocity.natAbs * x - r.accel * (x * x)) 2000000
      calc _ = _ / 2000000 * 2000000 * r.accel := by ring
        _ ≤ _ := (Nat.mul_le_mul_right _ floor).trans (stop_run_le (runs h))
  refine ⟨short t, ?_, fun le => ?_⟩
  · unfold StopRecord.motion
    split
    · exact Nat.zero_le _
    · exact Nat.sub_le ..
  · by_cases rest : r.duration ≤ u
    · rw [StopRecord.motion.eq_def r u, if_pos rest]; exact short t
    · have now := runs rest
      rw [StopRecord.motion, if_neg (by omega), StopRecord.motion, if_neg rest]
      exact Nat.div_le_div_right (stop_run_mono now le)

/-- A controlled stop ends at the soft limit it would pass (R17). -/
theorem StopRecord.eval_spec (r : StopRecord) (x : AxisRecord) (now : Epoch) (soft : x.softLow ≤ x.softHigh) :
    let place := r.rawPosition now
    x.softLow ≤ (r.eval x now).1 ∧ (r.eval x now).1 ≤ x.softHigh
    ∧ (x.softLow ≤ place → place ≤ x.softHigh → r.eval x now =
      (place, signed (decide (0 ≤ r.velocity)) (r.motion (now - r.start).toNat).2))
    ∧ (x.softHigh < place → r.eval x now = (x.softHigh, 0))
    ∧ (place < x.softLow → r.eval x now = (x.softLow, 0)) := by
  intro place
  have clamped : r.eval x now = if place < x.softLow then (x.softLow, 0) else if x.softHigh < place then (x.softHigh, 0)
      else (place, signed (decide (0 ≤ r.velocity)) (r.motion (now - r.start).toNat).2) := by
    unfold StopRecord.eval StopRecord.beyond clampSoft clampInt
    grind
  rw [clamped]
  refine ⟨?_, ?_, fun low high => ?_, fun high => ?_, fun low => if_pos low⟩
  · split
    · exact le_rfl
    · split
      · exact soft
      · exact not_lt.mp ‹_›
  · split
    · exact soft
    · split
      · exact le_rfl
      · exact not_lt.mp ‹_›
  · rw [if_neg (not_lt.mpr low), if_neg (not_lt.mpr high)]
  · rw [if_neg (not_lt.mpr (soft.trans high.le)), if_pos high]

/-! ### Jogs (R111) -/

/-- A jog runs on its ramp until it passes a soft limit, and stays there. -/
theorem jogEval_spec (x : AxisRecord) (d : Direction) (speed : Nat) (r : JogRamp) (here : Mdeg) (now : Epoch) :
    let m := rampMotion r.accel speed (now - r.start).toNat
    let place := r.position + signed (decide (d = .plus)) m.1
    (r.atLimit = true → jogEval x d speed r here now = (here, 0, true))
    ∧ (r.atLimit = false → r.position = jogLimit x d → jogEval x d speed r here now = (jogLimit x d, 0, true))
    ∧ (r.atLimit = false → r.position ≠ jogLimit x d → x.softLow ≤ x.softHigh →
      (x.softLow ≤ place → place ≤ x.softHigh →
        jogEval x d speed r here now = (place, signed (decide (d = .plus)) m.2, false))
      ∧ (x.softHigh < place → jogEval x d speed r here now = (x.softHigh, 0, true))
      ∧ (place < x.softLow → jogEval x d speed r here now = (x.softLow, 0, true))) := by
  intro m place
  have passed : x.limitPassed place =
      if x.softHigh < place then some x.softHigh else if place < x.softLow then some x.softLow else none := rfl
  refine ⟨fun at_ => if_pos at_, fun free start => ?_, fun free start soft => ⟨fun low high => ?_, fun high => ?_,
    fun low => ?_⟩⟩
  · rw [jogEval, if_neg (by rw [free]; exact Bool.false_ne_true), if_pos start]
  · rw [if_neg (not_lt.mpr high), if_neg (not_lt.mpr low)] at passed
    rw [jogEval, if_neg (by rw [free]; exact Bool.false_ne_true), if_neg start]
    simp only [m, place] at passed ⊢
    rw [passed]
  · rw [if_pos high] at passed
    rw [jogEval, if_neg (by rw [free]; exact Bool.false_ne_true), if_neg start]
    simp only [m, place] at passed ⊢
    rw [passed]
  · rw [if_neg (not_lt.mpr (low.le.trans soft)), if_pos low] at passed
    rw [jogEval, if_neg (by rw [free]; exact Bool.false_ne_true), if_neg start]
    simp only [m, place] at passed ⊢
    rw [passed]

/-! ### Segments (R63) -/

/-- A segment is interpolated from its start to its end, rounded toward the start. -/
theorem Segment.eval_spec (g : Segment) (ax : AxisName) (now : Epoch) (pos : 0 < g.duration) :
    let sign (n : Int) : Int := if 0 ≤ g.delta ax then n else -n
    (g.start ≤ now → now ≤ g.start + (g.duration : Int) →
      (g.eval ax now).1 = g.startPos.get ax + sign (((g.delta ax).natAbs : Int) * (now - g.start) / g.duration))
    ∧ (g.eval ax now).2 = sign (1000 * ((g.delta ax).natAbs : Int) / g.duration)
    ∧ (now ≤ g.start → (g.eval ax now).1 = g.startPos.get ax)
    ∧ (g.finish ≤ now → (g.eval ax now).1 = g.endPos.get ax)
    ∧ ((g.eval ax now).1 - g.startPos.get ax).natAbs ≤ (g.delta ax).natAbs := by
  intro sign
  have signs (n : Nat) : signed (decide (0 ≤ g.delta ax)) n = sign n := by
    simp only [signed, sign, decide_eq_true_eq]
  obtain ⟨t, ht⟩ : ∃ t, t = min (now - g.start).toNat g.duration := ⟨_, rfl⟩
  have position : (g.eval ax now).1 = g.startPos.get ax + sign (((g.delta ax).natAbs * t / g.duration : Nat)) := by
    rw [ht]; exact congrArg (_ + ·) (signs _)
  have span : g.endPos.get ax = g.startPos.get ax + sign (g.delta ax).natAbs := by
    simp only [sign, Segment.delta]; unfold Mdeg; grind
  unfold Epoch Segment.finish at *
  rw [position]
  refine ⟨fun low high => ?_, ?_, fun early => ?_, fun late => ?_, ?_⟩
  · obtain rfl : t = (now - g.start).toNat := by omega
    rw [Int.natCast_ediv, Nat.cast_mul, Int.toNat_of_nonneg (by omega)]
  · exact (signs _).trans (by rw [Int.natCast_ediv, Nat.cast_mul]; rfl)
  · obtain rfl : t = 0 := by omega
    simp [sign]
  · obtain rfl : t = g.duration := by omega
    rw [span, Nat.mul_div_cancel _ pos]
  · have short : (g.delta ax).natAbs * t / g.duration ≤ (g.delta ax).natAbs :=
      Nat.div_le_of_le_mul (by rw [Nat.mul_comm]; exact Nat.mul_le_mul_right _ (by omega))
    rw [add_sub_cancel_left]
    simp only [sign]
    split
    · exact short
    · rw [Int.natAbs_neg]; exact short

theorem signed_decide (p : Prop) [Decidable p] (n : Nat) : signed (decide p) n = if p then (n : Int) else -n := by
  simp only [signed, decide_eq_true_eq]

/-- Settles O33: the arithmetic of one distance, and each motion phase by phase. -/
theorem motionsKeepTheirCourse : Obligations.MotionsKeepTheirCourse := by
  refine ⟨fun a d v tg ha hd hv => ⟨reach_eq a d, ?_, fun u => profileTime_anti ha hd hv, slowest_spec ha hd hv⟩,
    fun d a v t u ha hd hv => ?_, fun p now => rfl, fun r t u ha => ?_, fun r x now soft => ?_,
    fun x d speed r here now => ?_, fun g ax now pos => Segment.eval_spec g ax now pos⟩
  · rw [profileTime_eq hd, ceilDiv, peakAt, reach_eq]
  · intro w
    have hw : 0 < w := peakAt_pos ha hd hv
    have root : w * w ≤ a * d := peakAt_sq_le a d v
    have phases := trapezoid_phases ha hd hw root t
    obtain ⟨ramp, cruise, slow, done⟩ := phases
    have run := trapezoid_fst ha hw root
    refine ⟨?_, trapezoid_snd_le d w a t, fun le => ?_, fun arrived => done ?_, ramp, cruise, slow, done⟩
    · rw [run]
      refine Nat.div_le_of_le_mul ((profileRise_le _ _ _ ?_).trans_eq (by ring))
      rw [Nat.mul_assoc, Nat.mul_comm d]; exact Nat.mul_le_mul_left _ root
    · rw [run, run]
      refine Nat.div_le_div_right (profileRise_mono ?_ (Nat.mul_le_mul_left _ le))
      rw [Nat.mul_assoc, Nat.mul_comm d]; exact Nat.mul_le_mul_left _ root
    · rw [pow_two, Nat.mul_comm (w * a)]; exact (profileTime_le_iff ha hd hv).mp arrived
  · obtain ⟨short, slow, rises⟩ := r.motion_spec ha t u
    refine ⟨short, slow, rises, rfl, fun runs => ?_, fun rest => if_pos rest⟩
    rw [StopRecord.motion, if_neg (not_le.mpr runs), pow_two]
  · intro sign m place
    have signs (n : Nat) : signed (decide (0 ≤ r.velocity)) n = sign n := signed_decide ..
    have spec := r.eval_spec x now soft
    dsimp only at spec
    rw [StopRecord.rawPosition, signs, signs] at spec
    exact spec
  · intro t sign limit ramp m
    have signs (n : Nat) : signed (decide (d = .plus)) n = sign n := signed_decide ..
    have bound : jogLimit x d = limit := by cases d <;> rfl
    have motion : ramp = (r.position + sign (rampMotion r.accel speed t).1, sign (rampMotion r.accel speed t).2) := by
      simp only [ramp, rampMotion, pow_two]
      split <;> rfl
    have spec := jogEval_spec x d speed r here now
    dsimp only at spec
    rw [bound, signs, signs] at spec
    rw [motion]
    exact spec

end Sys2Proof.Machine
end

