-- ==== Sys2Proof/Proofs/Plans.lean ====
section
/-! PROOFS. A group plan takes the first derate step that fits (R38 to R40). -/

namespace Sys2Proof.Machine

/-! ### Group times -/

theorem le_roundUp100 (n : Nat) : n ≤ roundUp100 n := by
  rw [roundUp100, Nat.mul_comm]; exact (ceilDiv_bounds (by omega)).1

theorem roundUp100_mono {m n : Nat} (h : m ≤ n) : roundUp100 m ≤ roundUp100 n :=
  Nat.mul_le_mul_left _ (ceilDiv_mono _ h)

theorem roundUp100_mod (n : Nat) : roundUp100 n % 100 = 0 := Nat.mul_mod_right ..

theorem roundUp100_of_mod {n : Nat} (h : n % 100 = 0) : roundUp100 n = n := by
  unfold roundUp100 ceilDiv; omega

theorem stepTime_zero {tg0 : Nat} (h : tg0 % 100 = 0) : stepTime tg0 0 = tg0 := by
  rw [stepTime, Nat.add_zero, Nat.mul_div_cancel _ (by omega), roundUp100_of_mod h]

theorem stepTime_mono (tg0 : Nat) {j k : Nat} (h : j ≤ k) : stepTime tg0 j ≤ stepTime tg0 k :=
  roundUp100_mono (Nat.div_le_div_right (Nat.mul_le_mul_left _ (by omega)))

/-! ### The figures of an axis against a group time -/

/-- An axis's course as the engine computes it: its Tmin is the profile time at its speed (R35). -/
def AxisPlan.Charted (p : AxisPlan) : Prop :=
  0 < p.distance → 0 < p.v ∧ 0 < p.a ∧ p.tmin = some (profileTime p.a p.distance p.v)

variable {p : AxisPlan} {r : AxisRecord} {tg : Nat}

/-- An axis that has the time arrives in it, at its slowest speed, with its demand (R36, R37). -/
theorem AxisPlan.against_spec (charted : p.Charted) (time : ∀ t, p.tmin = some t → t ≤ tg) :
    let q := p.against r tg
    q.time ≤ tg
    ∧ (q.distance = 0 → q.vstar = none ∧ q.peak = none ∧ q.time = 0 ∧ q.demand = r.hold)
    ∧ (0 < q.distance → ∃ v w, q.vstar = some v ∧ q.peak = some w ∧ 1 ≤ v ∧ v ≤ q.v
      ∧ q.time = profileTime q.a q.distance v
      ∧ (∀ u, 1 ≤ u → u < v → tg < profileTime q.a q.distance u)
      ∧ w = min v (Nat.sqrt (q.a * q.distance))
      ∧ q.demand = r.hold + (r.coeff * w + 999) / 1000) := by
  intro q
  by_cases still : p.distance = 0
  · have stays : q = { p with vstar := none, peak := none, time := 0, demand := r.hold } := if_pos still
    rw [stays]
    exact ⟨Nat.zero_le _, fun _ => ⟨rfl, rfl, rfl, rfl⟩, fun go => absurd still go.ne'⟩
  · have go : 0 < p.distance := Nat.pos_of_ne_zero still
    obtain ⟨hv, ha, tmin⟩ := charted go
    obtain ⟨one, most, arrives, least⟩ := slowest_spec ha go hv (time _ tmin)
    have runs : q = { p with
        vstar := some (slowest p.a p.distance p.v tg)
        peak := some (peakAt p.a p.distance (slowest p.a p.distance p.v tg))
        time := profileTime p.a p.distance (slowest p.a p.distance p.v tg)
        demand := powerAt r.hold r.coeff (peakAt p.a p.distance (slowest p.a p.distance p.v tg)) } := if_neg still
    rw [runs]
    exact ⟨arrives, fun none => absurd none still, fun _ =>
      ⟨_, _, rfl, rfl, one, most, rfl, least, by rw [peakAt, reach_eq], rfl⟩⟩

/-- A longer group time asks no more power (R39). -/
theorem AxisPlan.demand_anti (charted : p.Charted) (time : ∀ t, p.tmin = some t → t ≤ tg) {th : Nat} (le : tg ≤ th) :
    (p.against r th).demand ≤ (p.against r tg).demand := by
  unfold AxisPlan.against
  split
  · exact le_rfl
  next still =>
    have go : 0 < p.distance := Nat.pos_of_ne_zero still
    obtain ⟨hv, ha, tmin⟩ := charted go
    refine Nat.add_le_add_left (ceilDiv_mono _ (Nat.mul_le_mul_left _ (peakAt_mono ?_))) _
    exact slowest_anti ha go hv (time _ tmin) le

/-! ### The greatest Tmin -/

variable {ms : List Member} {m : Member}

/-- The greater Tmin of a member's axes. -/
def Member.tmin (m : Member) : Nat := max (m.plans.az.tmin.getD 0) (m.plans.el.tmin.getD 0)

theorem greatestTmin_eq (ms : List Member) : greatestTmin ms = (ms.map Member.tmin).foldl max 0 := by
  rw [List.foldl_map]; rfl

theorem tmin_le_greatest (hm : m ∈ ms) (ax : AxisName) {t : Nat} (h : (m.plans.get ax).tmin = some t) :
    t ≤ greatestTmin ms := by
  have own : t ≤ m.tmin := by
    cases ax
    · exact (Option.getD_eq_iff.mpr (.inl h)).symm.le.trans (le_max_left ..)
    · exact (Option.getD_eq_iff.mpr (.inl h)).symm.le.trans (le_max_right ..)
  rw [greatestTmin_eq]
  exact own.trans ((List.max?_eq_some_iff.mp (List.max?_cons' (x := 0))).2 _
    (List.mem_cons_of_mem _ (List.mem_map_of_mem hm)))

/-- A greatest Tmin above 0 is some member axis's (R35). -/
theorem greatestTmin_attained (pos : 0 < greatestTmin ms) :
    ∃ m ∈ ms, ∃ ax, (m.plans.get ax).tmin = some (greatestTmin ms) := by
  have top := (List.max?_eq_some_iff.mp (List.max?_cons' (x := 0) (xs := ms.map Member.tmin))).1
  rw [← greatestTmin_eq] at top
  rcases List.mem_cons.mp top with zero | mem
  · exact absurd zero pos.ne'
  obtain ⟨m, hm, own⟩ := List.mem_map.mp mem
  have attained {o : Option Nat} (h : o.getD 0 = greatestTmin ms) : o = some (greatestTmin ms) := by
    cases o
    · exact absurd h pos.ne
    · exact congrArg some h
  rcases max_choice (m.plans.az.tmin.getD 0) (m.plans.el.tmin.getD 0) with h | h
  · exact ⟨m, hm, .az, attained (h.symm.trans own)⟩
  · exact ⟨m, hm, .el, attained (h.symm.trans own)⟩

/-! ### The axis a plan refused for length names -/

/-- One axis comes no later than another in axis count order: by antenna, and AZ before EL. -/
def AxisId.NoLater (i j : AxisId) : Prop := i.ant.num < j.ant.num ∨ i.ant = j.ant ∧ (i.ax = .az ∨ j.ax = .el)

theorem AxisId.all_pairwise : AxisId.all.Pairwise AxisId.NoLater := by
  unfold AxisId.NoLater; decide +kernel

theorem AxisId.noLater_refl (i : AxisId) : AxisId.NoLater i i := by
  refine .inr ⟨rfl, ?_⟩
  cases i.ax <;> simp

/-- The first of an ordered list that meets a test comes no later than any that meets it. -/
theorem find?_first {α : Type} {R : α → α → Prop} {q : α → Bool} {xs : List α} {x y : α} (sorted : xs.Pairwise R)
    (self : R x x) (found : xs.find? q = some x) (hy : y ∈ xs) (passes : q y = true) : R x y := by
  obtain ⟨-, as, bs, rfl, fails⟩ := List.find?_eq_some_iff_append.mp found
  rcases List.mem_append.mp hy with h | h
  · have := fails y h
    rw [passes] at this
    exact absurd this Bool.false_ne_true
  · rcases List.mem_cons.mp h with rfl | h
    · exact self
    · exact (List.pairwise_cons.mp (List.pairwise_append.mp sorted).2.1).1 y h

/-- The plans of a group whose antennas differ are those of its members, in axis count order. -/
theorem mem_countOrder (once : (ms.map Member.ant).Nodup) {i : AxisId} {q : AxisPlan} :
    (i, q) ∈ countOrder ms ↔ ∃ m ∈ ms, m.ant = i.ant ∧ q = m.plans.get i.ax := by
  have only {m n : Member} (hm : m ∈ ms) (hn : n ∈ ms) : m.ant = n.ant → m = n := List.inj_on_of_nodup_map once hm hn
  have found (a : Ant) (m : Member) :
      ms.find? (fun m => decide (m.ant = a)) = some m ↔ m ∈ ms ∧ m.ant = a := by
    refine ⟨fun h => ⟨List.mem_of_find?_eq_some h, by simpa using List.find?_some h⟩, fun ⟨hm, own⟩ => ?_⟩
    obtain ⟨n, hn⟩ := Option.isSome_iff_exists.mp
      ((List.find?_isSome (p := fun m : Member => decide (m.ant = a))).mpr ⟨m, hm, decide_eq_true own⟩)
    rw [hn, only (List.mem_of_find?_eq_some hn) hm (by simpa [own] using List.find?_some hn)]
  rw [countOrder, List.mem_filterMap]
  constructor
  · rintro ⟨j, -, h⟩
    obtain ⟨m, hm, same⟩ := Option.map_eq_some_iff.mp h
    obtain ⟨rfl, rfl⟩ := Prod.mk.inj same
    obtain ⟨hm, own⟩ := (found _ m).mp hm
    exact ⟨m, hm, own, rfl⟩
  · rintro ⟨m, hm, own, rfl⟩
    exact ⟨i, AxisId.mem_all i, Option.map_eq_some_iff.mpr ⟨m, (found _ m).mpr ⟨hm, own⟩, rfl⟩⟩

/-- A plan refused for length names the first axis of the greatest Tmin (R40). -/
theorem slowestAxis_spec (once : (ms.map Member.ant).Nodup) (pos : 0 < greatestTmin ms) : ∃ i,
    slowestAxis ms = some i ∧ (∃ m ∈ ms, m.ant = i.ant ∧ (m.plans.get i.ax).tmin = some (greatestTmin ms))
      ∧ ∀ m ∈ ms, ∀ ax, (m.plans.get ax).tmin = some (greatestTmin ms) → AxisId.NoLater i ⟨m.ant, ax⟩ := by
  have sorted : (countOrder ms).Pairwise fun x y => AxisId.NoLater x.1 y.1 := by
    refine List.Pairwise.filterMap _ (fun i j le x hx y hy => ?_) AxisId.all_pairwise
    obtain ⟨_, -, rfl⟩ := Option.map_eq_some_iff.mp hx
    obtain ⟨_, -, rfl⟩ := Option.map_eq_some_iff.mp hy
    exact le
  have listed {m : Member} (hm : m ∈ ms) (ax : AxisName) : (⟨m.ant, ax⟩, m.plans.get ax) ∈ countOrder ms :=
    (mem_countOrder once).mpr ⟨m, hm, rfl, rfl⟩
  obtain ⟨m, hm, ax, top⟩ := greatestTmin_attained pos
  obtain ⟨⟨i, q⟩, hq⟩ := Option.isSome_iff_exists.mp ((List.find?_isSome
    (p := fun x : AxisId × AxisPlan => decide (x.2.tmin = some (greatestTmin ms)))).mpr
    ⟨_, listed hm ax, decide_eq_true top⟩)
  obtain ⟨n, hn, own, rfl⟩ := (mem_countOrder once).mp (List.mem_of_find?_eq_some hq)
  refine ⟨i, by rw [slowestAxis, hq]; rfl, ⟨n, hn, own, by simpa using List.find?_some hq⟩, fun k hk ax h => ?_⟩
  exact find?_first (R := fun x y : AxisId × AxisPlan => AxisId.NoLater x.1 y.1) sorted (AxisId.noLater_refl i) hq (listed hk ax) (decide_eq_true h)

/-! ### Derating (R39) -/

variable {record : AxisId → AxisRecord} {potential : Int} {tg0 : Nat}

/-- The demand of the members at a derate step. -/
def stepDemand (record : AxisId → AxisRecord) (ms : List Member) (tg0 k : Nat) : Nat :=
  demandOf (planAgainst record ms (stepTime tg0 k))

/-- Every member axis's course is the engine's own. -/
def Charted (ms : List Member) : Prop := ∀ m ∈ ms, ∀ ax, (m.plans.get ax).Charted

theorem mapPlans_get (f : AxisId → AxisPlan → AxisPlan) (m : Member) (ax : AxisName) :
    (m.mapPlans f).plans.get ax = f ⟨m.ant, ax⟩ (m.plans.get ax) := by cases ax <;> rfl

/-- A later step asks no more power. -/
theorem stepDemand_anti (charted : Charted ms) (time : greatestTmin ms ≤ tg0) (whole : tg0 % 100 = 0) {j k : Nat}
    (le : j ≤ k) : stepDemand record ms tg0 k ≤ stepDemand record ms tg0 j := by
  have from0 : tg0 ≤ stepTime tg0 j := (stepTime_zero whole).symm.le.trans (stepTime_mono tg0 (Nat.zero_le j))
  have each (m : Member) (hm : m ∈ ms) (ax : AxisName) :
      ((m.plans.get ax).against (record ⟨m.ant, ax⟩) (stepTime tg0 k)).demand
        ≤ ((m.plans.get ax).against (record ⟨m.ant, ax⟩) (stepTime tg0 j)).demand :=
    AxisPlan.demand_anti (charted m hm ax)
      (fun t h => (tmin_le_greatest hm ax h).trans (time.trans from0)) (stepTime_mono tg0 le)
  unfold stepDemand demandOf planAgainst
  rw [sumOf_eq_sum, sumOf_eq_sum, List.map_map, List.map_map]
  exact List.sum_le_sum fun m hm => Nat.add_le_add (each m hm .az) (each m hm .el)

/-- What derating from a step on answers (R39). -/
theorem derate_spec (fuel k : Nat) (end_ : fuel + k = 31) (pos : 1 ≤ k)
    (below : stepTime tg0 (k - 1) ≤ 600000) (short : ∀ j, j < k → potential < stepDemand record ms tg0 j) :
    (∃ n, k ≤ n ∧ n ≤ 30 ∧ stepTime tg0 n ≤ 600000 ∧ (stepDemand record ms tg0 n : Int) ≤ potential
      ∧ (∀ j, j < n → potential < stepDemand record ms tg0 j)
      ∧ derate record ms tg0 potential fuel k (stepDemand record ms tg0 (k - 1)) = .success tg0 n (stepTime tg0 n)
        (stepDemand record ms tg0 n) (planAgainst record ms (stepTime tg0 n)))
    ∨ ∃ n, n ≤ 30 ∧ stepTime tg0 n ≤ 600000 ∧ (∀ j, j ≤ n → potential < stepDemand record ms tg0 j)
      ∧ (∀ j, j ≤ 30 → stepTime tg0 j ≤ 600000 → j ≤ n)
      ∧ derate record ms tg0 potential fuel k (stepDemand record ms tg0 (k - 1))
        = .budget tg0 (stepDemand record ms tg0 n) potential := by
  induction fuel generalizing k with
  | zero => exact .inr ⟨k - 1, by omega, below, fun j h => short j (by omega), fun j h _ => by omega, rfl⟩
  | succ fuel ih =>
    rw [derate]
    split
    next long =>
      refine .inr ⟨k - 1, by omega, below, fun j h => short j (by omega), fun j _ fits => ?_, rfl⟩
      by_contra more
      have := stepTime_mono tg0 (show k ≤ j by omega)
      omega
    next fits =>
      dsimp only
      split
      next affords => exact .inl ⟨k, le_rfl, by omega, not_lt.mp fits, affords, short, rfl⟩
      next lacks =>
        have next_ := ih (k + 1) (by omega) (by omega) (not_lt.mp fits) fun j h => by
          rcases Nat.lt_succ_iff_lt_or_eq.mp h with h | rfl
          · exact short j h
          · exact not_le.mp lacks
        rcases next_ with ⟨n, le, rest⟩ | rest
        · exact .inl ⟨n, by omega, rest⟩
        · exact .inr rest

/-- The plan takes the first step that fits, or has none (R38 to R40). -/
theorem planGroup_spec (h : tg0 = roundUp100 (greatestTmin ms)) (fits : tg0 ≤ 600000) :
    (∃ n, n ≤ 30 ∧ stepTime tg0 n ≤ 600000 ∧ (stepDemand record ms tg0 n : Int) ≤ potential
      ∧ (∀ j, j < n → potential < stepDemand record ms tg0 j)
      ∧ planGroup record ms potential = .success tg0 n (stepTime tg0 n) (stepDemand record ms tg0 n)
        (planAgainst record ms (stepTime tg0 n)))
    ∨ ∃ n, n ≤ 30 ∧ stepTime tg0 n ≤ 600000 ∧ (∀ j, j ≤ n → potential < stepDemand record ms tg0 j)
      ∧ (∀ j, j ≤ 30 → stepTime tg0 j ≤ 600000 → j ≤ n ∨ tg0 = 0)
      ∧ planGroup record ms potential = .budget tg0 (stepDemand record ms tg0 n) potential := by
  have first : stepTime tg0 0 = tg0 := stepTime_zero (h ▸ roundUp100_mod _)
  have demand : demandOf (planAgainst record ms tg0) = stepDemand record ms tg0 0 := by rw [stepDemand, first]
  rw [planGroup, ← h, if_neg (not_lt.mpr fits), demand]
  split
  next affords => exact .inl ⟨0, by omega, first.trans_le fits, affords, fun j h => by omega, by rw [first]⟩
  next lacks =>
    have none_ (j : Nat) (le : j < 1) : potential < stepDemand record ms tg0 j := by
      obtain rfl : j = 0 := by omega
      exact not_le.mp lacks
    split
    next zero => exact .inr ⟨0, by omega, first.trans_le fits, fun j h => none_ j (by omega), fun _ _ _ => .inr zero, rfl⟩
    next => 
      rcases derate_spec 30 1 rfl le_rfl (first.trans_le fits) none_ with ⟨n, -, rest⟩ | ⟨n, h1, h2, h3, h4, h5⟩
      · exact .inl ⟨n, rest⟩
      · exact .inr ⟨n, h1, h2, h3, fun j h k => .inl (h4 j h k), h5⟩

/-- Settles O34: the first fitting step with each axis's figures, and what a refusal names. -/
theorem plansTakeTheFirstFittingStep : Obligations.PlansTakeTheFirstFittingStep := by
  intro record ms potential charted
  replace charted : Charted ms := charted
  obtain ⟨tg0, h⟩ : ∃ tg0, tg0 = roundUp100 (greatestTmin ms) := ⟨_, rfl⟩
  have time : greatestTmin ms ≤ tg0 := h ▸ le_roundUp100 _
  have whole : tg0 % 100 = 0 := h ▸ roundUp100_mod _
  have later (k : Nat) : tg0 ≤ stepTime tg0 k := (stepTime_zero whole).symm.le.trans (stepTime_mono tg0 (Nat.zero_le k))
  by_cases long : 600000 < tg0
  · rw [planGroup, ← h, if_pos long]
    refine ⟨long, rfl, fun once => ?_⟩
    have pos : 0 < greatestTmin ms := by
      by_contra zero
      rw [h, Nat.eq_zero_of_not_pos zero] at long
      exact absurd long (by decide)
    exact slowestAxis_spec once pos
  rcases planGroup_spec (record := record) (potential := potential) h (not_lt.mp long) with
    ⟨n, hn, fits, affords, first, plan⟩ | ⟨n, hn, fits, lacks, all, plan⟩
  · rw [plan]
    refine ⟨h, hn, rfl, roundUp100_mod _, fits, later n, rfl, rfl, affords, fun m hm ax => ?_, ?_, first⟩
    · obtain ⟨m, known, rfl⟩ := List.mem_map.mp hm
      dsimp only
      rw [mapPlans_get]
      exact AxisPlan.against_spec (charted m known ax)
        fun t tmin => (tmin_le_greatest known ax tmin).trans (time.trans (later n))
    · exact sumOf_eq_sum ..
  · rw [plan]
    refine ⟨rfl, h, fun j hj short => ?_, n, hn, fits, rfl⟩
    rcases all j hj short with le | zero
    · exact ⟨lacks j le, stepDemand_anti charted time whole le⟩
    · have same : stepTime tg0 j = stepTime tg0 n := by rw [zero, stepTime, stepTime, Nat.zero_mul, Nat.zero_mul]
      rw [same]
      exact ⟨lacks n le_rfl, le_rfl⟩

end Sys2Proof.Machine
end

