-- ==== Sys2Proof/Proofs/Decisions.lean ====
section
/-! PROOFS. How a request is decided: its owner goes through the checks of its rule in their order, and answers the
first that fails, or does what the request asks (R189, R190). -/

namespace Sys2Proof.Machine

variable {c : Instr} {s u : State} {rows : List (Bool × Status)} {r : Answer} {P : Answer → Prop} {x : Status}

/-! ### Refusals -/

/-- A refusal with a code: it has no effect but for the count at the permit table and a jog record whose failure is
reported. -/
structure Refused (c : Instr) (u : State) (x : Status) (r : Answer) : Prop where
  status : r.status = x
  permit : x = .permit → ∃ m q, (subjectsOf c).find? (fun p => !u.admitted p.2) = some (m, q)
    ∧ r = u.permitRefused m (u.verdict q).2
  other : x ≠ .permit → r.state = u
    ∨ ∃ tag p ax dir speed f, c = .jog tag p ax dir speed ∧ u.jogFailure p = some f ∧ x = f.status
      ∧ r.state = u.clearJog p

theorem Refused.plain (h : x ≠ .permit) (b : ReplyBody) : Refused c u x (refuseWith u x b) :=
  ⟨rfl, fun e => absurd e h, fun _ => .inl rfl⟩

/-- An answer is what the rows decide: the first that fails refuses, and where none does the answer is as asked. -/
structure Decided (c : Instr) (u : State) (rows : List (Bool × Status)) (r : Answer) (P : Answer → Prop) : Prop where
  passes : firstFailing rows = none → P r
  refuses : ∀ x, firstFailing rows = some x → Refused c u x r

theorem Decided.done (h : P r) : Decided c u [] r P := ⟨fun _ => h, nofun⟩

theorem Decided.fails (h : Refused c u x r) (rest : List (Bool × Status)) : Decided c u ((false, x) :: rest) r P :=
  ⟨nofun, fun _ e => Option.some.inj e ▸ h⟩

/-- A row that holds leaves the answer to the rows behind it. -/
theorem Decided.row {b : Bool} (hf : b = false → Refused c u x r) (ht : b = true → Decided c u rows r P) :
    Decided c u ((b, x) :: rows) r P := by
  cases b
  · exact .fails (hf rfl) rows
  · exact ⟨(ht rfl).passes, (ht rfl).refuses⟩

theorem Decided.check {b : Bool} (h : Decided c u rows r P) (hx : x ≠ .permit := by decide) :
    Decided c u ((b, x) :: rows) (check u b x r) P := by
  refine .row (fun e => ?_) fun e => ?_
  · rw [e]; exact .plain hx .empty
  · rw [e]; exact h

theorem Decided.mono {Q : Answer → Prop} (h : Decided c u rows r P) (hq : P r → Q r) : Decided c u rows r Q :=
  ⟨hq ∘ h.passes, h.refuses⟩

/-! ### Arguments -/

theorem Decided.withAnt {n : Nat} {rows : Ant → List (Bool × Status)} {go : Ant → Answer}
    (h : ∀ a, Ant.ofNat? n = some a → Decided c u (rows a) (go a) P) :
    Decided c u (antChecks n rows) (withAnt u n go) P := by
  unfold antChecks Machine.withAnt
  cases e : Ant.ofNat? n
  · exact .fails (.plain (by decide) .empty) []
  · exact h _ e

theorem Decided.withCode {α : Type} {v : Option α} {rows : α → List (Bool × Status)} {go : α → Answer}
    (h : ∀ a, v = some a → Decided c u (rows a) (go a) P) : Decided c u (codeChecks v rows) (withCode u v go) P := by
  unfold codeChecks Machine.withCode
  cases v
  · exact .fails (.plain (by decide) .empty) []
  · exact h _ rfl

theorem Decided.withGroup {n : Nat} {rows : GroupId → List (Bool × Status)} {go : GroupId → Answer}
    (h : ∀ g, GroupId.ofNat? n = some g → Decided c u (rows g) (go g) P) :
    Decided c u (codeChecks (GroupId.ofNat? n) rows) (withGroup u n go) P := by
  unfold codeChecks Machine.withGroup
  cases e : GroupId.ofNat? n
  · exact .fails (.plain (by decide) .empty) []
  · exact h _ e

/-! ### The permit table -/

theorem verdict_admitted {q : Subject} (h : u.admitted q = true) : ∃ n, u.verdict q = (.allow, n) :=
  ⟨(u.verdict q).2, Prod.ext (of_decide_eq_true h) rfl⟩

theorem verdict_refused {q : Subject} (h : u.admitted q = false) : u.verdict q = (.refuse, (u.verdict q).2) := by
  refine Prod.ext ?_ rfl
  have other := of_decide_eq_false h
  cases e : (u.verdict q).1
  · exact absurd e other
  · rfl

theorem permitted_of_admitted {q : Subject} {m : Option Ant} {go : State → Answer} (h : u.admitted q = true) :
    u.permitted q m go = go u := by
  obtain ⟨n, e⟩ := verdict_admitted h
  rw [State.permitted, e]

theorem permitted_of_refused {q : Subject} {m : Option Ant} {go : State → Answer} (h : u.admitted q = false) :
    u.permitted q m go = u.permitRefused m (u.verdict q).2 := by
  unfold State.permitted
  rw [verdict_refused h]

/-- The permit row of a request with one subject (R176). -/
theorem Decided.permitted {q : Subject} {m : Option Ant} {go : State → Answer} (only : subjectsOf c = [(m, q)])
    (h : Decided c u rows (go u) P) : Decided c u ((u.admitted q, .permit) :: rows) (u.permitted q m go) P := by
  refine .row (fun e => ?_) fun e => ?_
  · rw [permitted_of_refused e]
    refine ⟨rfl, fun _ => ⟨m, q, ?_, rfl⟩, fun n => absurd rfl n⟩
    rw [only, List.find?_cons_of_pos]
    rw [e]; rfl
  · rw [permitted_of_admitted e]; exact h

/-! ### The taking of the frame -/

/-- The end of a request that was answered: what follows is settled where the request acts on other blocks. -/
def Answer.finish (r : Answer) (settles : Bool) (s : State) (l : Link) (k : Kind) (tag : Byte) : State :=
  match settles with
  | true => announce s (r.state.answer l k.code tag r.status r.body).settle
  | false => announce s (r.state.answer l k.code tag r.status r.body)

/-- What a request makes of a state: its link takes the frame, its owner decides, and what follows is settled where
the request acts on other blocks. -/
def Served (settles : Bool) (c : Instr) (s : State) (P : State → Answer → Prop) : Prop :=
  ∀ l k tag, requestOf c = some (l, k, tag) → s.takes l k tag (fitsOf c) →
    ∃ r : Answer, exec c s = .next (r.finish settles s l k tag)
      ∧ Decided c (s.takeFrame l) (checksOf (s.takeFrame l) c) r (P (s.takeFrame l))

variable {l : Link} {k : Kind} {tag : Byte} {owner : State → Answer} {fits : List Byte → Bool}
  {Q : State → Answer → Prop}

/-- A request whose effect reaches other blocks. -/
theorem Served.request (e : exec c s = request l k tag s owner fits) (of : requestOf c = some (l, k, tag))
    (own : fitsOf c = fits) (open_ : k.openTo l = true) (h : ∀ u, Decided c u (checksOf u c) (owner u) (Q u)) :
    Served true c s Q := by
  intro l' k' tag' of' takes
  obtain ⟨rfl, rfl, rfl⟩ : l = l' ∧ k = k' ∧ tag = tag' := by
    have := of.symm.trans of'
    simpa using this
  rw [own] at takes
  refine ⟨owner (s.takeFrame l), ?_, h _⟩
  have decided : dispatch l k owner = owner := funext fun u => if_pos open_
  rw [e, Machine.request, onPower, if_pos takes.1, if_pos takes.2, decided]
  rfl

/-- A request whose effect stays within its owner, decided from its link's column on. -/
theorem Served.front (e : exec c s = serve l k tag s owner fits) (of : requestOf c = some (l, k, tag))
    (own : fitsOf c = fits) (h : ∀ u, Decided c u (checksOf u c) (dispatch l k owner u) (Q u)) : Served false c s Q := by
  intro l' k' tag' of' takes
  obtain ⟨rfl, rfl, rfl⟩ : l = l' ∧ k = k' ∧ tag = tag' := by
    have := of.symm.trans of'
    simpa using this
  rw [own] at takes
  refine ⟨dispatch l k owner (s.takeFrame l), ?_, h _⟩
  rw [e, Machine.serve, onPower, if_pos takes.1, if_pos takes.2]
  rfl

/-- A request whose effect stays within its owner. -/
theorem Served.serve (e : exec c s = serve l k tag s owner fits) (of : requestOf c = some (l, k, tag))
    (own : fitsOf c = fits) (open_ : k.openTo l = true) (h : ∀ u, Decided c u (checksOf u c) (owner u) (Q u)) :
    Served false c s Q :=
  .front e of own fun u => by rw [dispatch, if_pos open_]; exact h u

/-! ### What the checks read -/

/-- A scan reads the properties of its subject alone. -/
theorem scan_congr {t : State} {q : Subject} (h : ∀ p, t.property q p = s.property q p) (es : List PermitEntry) (n : Nat)
    (m : BitVec 32) (skip : Bool) : t.scan q es n m skip = s.scan q es n m skip := by
  have tests (e : PermitEntry) (m : BitVec 32) : t.testEntry q e m = s.testEntry q e m := by
    simp only [State.testEntry, h]
  induction es generalizing n m skip with
  | nil => rfl
  | cons e es ih => simp only [State.scan, tests, ih]

theorem Wind.heard_cls (w : Wind) (l : Link) : (w.heard l).cls = w.cls := by unfold Wind.heard; split <;> rfl

theorem verdict_takeFrame (s : State) (l : Link) (q : Subject) : (s.takeFrame l).verdict q = s.verdict q := by
  have same (p : Property) : (s.takeFrame l).property q p = s.property q p := by
    cases p
    case windClass => exact congrArg (fun c => some (c.num : Int)) (Wind.heard_cls s.wind l)
    all_goals rfl
  unfold State.verdict
  rw [scan_congr same]
  rfl

theorem admitted_takeFrame (s : State) (l : Link) (q : Subject) : (s.takeFrame l).admitted q = s.admitted q := by
  rw [State.admitted, verdict_takeFrame, State.admitted]

/-- The plan's checks read nothing that the taking of a frame changes. -/
theorem planChecks_takeFrame (s : State) (ms : List Proposed) :
    planChecks (s.takeFrame .operations) ms = planChecks s ms := by
  have courses : (s.takeFrame .operations).courses ms = s.courses ms := rfl
  have fails : (s.takeFrame .operations).planFails ms = s.planFails ms := rfl
  simp only [planChecks, admitted_takeFrame, courses, fails]
  rfl

/-- The checks read nothing that the taking of the request's own frame changes. -/
theorem checksOf_takeFrame (of : requestOf c = some (l, k, tag)) : checksOf (s.takeFrame l) c = checksOf s c := by
  cases c <;> cases of
  case lockRemove sender _ => cases sender <;> rfl
  case heatSet sender _ _ _ =>
    simp only [checksOf, heatChecks, admitted_takeFrame]
    cases sender <;> rfl
  case burstOpen => simp only [checksOf, openChecks, admitted_takeFrame]; rfl
  case groupPlan => simp only [checksOf, planChecks_takeFrame]; rfl
  case localClaim => simp only [checksOf, admitted_takeFrame]; rfl
  case jog => simp only [checksOf, jogChecks, admitted_takeFrame]; rfl
  all_goals rfl

/-- An admitted request does what it asks. -/
theorem Served.admitted {b : Bool} (h : Served b c s Q) (ok : s.admits c = true) :
    ∃ l k tag r, requestOf c = some (l, k, tag) ∧ s.powered = true
      ∧ exec c s = .next (r.finish b s l k tag)
      ∧ Q (s.takeFrame l) r := by
  unfold State.admits at ok
  split at ok
  · exact absurd ok Bool.false_ne_true
  next l k tag of =>
    simp only [Bool.and_eq_true, Option.isNone_iff_eq_none] at ok
    obtain ⟨⟨on, takes⟩, passes⟩ := ok
    obtain ⟨r, e, decided⟩ := h l k tag of ⟨on, takes⟩
    refine ⟨l, k, tag, r, of, on, e, decided.passes ?_⟩
    rw [checksOf_takeFrame of]; exact passes

end Sys2Proof.Machine
end

