-- ==== Sys2Proof/Proofs/Requests.lean ====
section
/-! PROOFS. Each request against its checks: what it does where none of them refuses it. -/

namespace Sys2Proof.Machine

variable {s : State} {tag : Byte} {n : Nat}

/-! ### Links and clock -/

theorem noticeEnableOn_served (l : Link) : Served false (.noticeEnableOn l tag) s fun _ _ => True :=
  .front rfl rfl rfl fun _ => .check (.done trivial)

theorem noticeEnableOff_served (l : Link) : Served false (.noticeEnableOff l tag) s fun _ _ => True :=
  .front rfl rfl rfl fun _ => .check (.done trivial)

theorem timeSet_served (epoch : Nat) : Served false (.timeSet tag epoch) s fun _ _ => True :=
  .serve rfl rfl rfl rfl fun _ => .check (.done trivial)

/-! ### Axes -/

theorem axisEnableOn_served : Served true (.axisEnableOn tag n) s fun u r =>
    ∃ a, Ant.ofNat? n = some a ∧ r = okWith .empty (u.enableBus a) :=
  .request rfl rfl rfl rfl fun _ => .withAnt fun a ha =>
    .check (.check (.check (.check (.done ⟨a, ha, rfl⟩))))

theorem axisEnableHold_served : Served true (.axisEnableHold tag n) s fun u r =>
    ∃ a, Ant.ofNat? n = some a ∧ r = okWith .empty (forEach a.axes (fun s i => s.addClaim i .operations) u) :=
  .request rfl rfl rfl rfl fun _ => .withAnt fun a ha =>
    .check (.check (.check (.check (.done ⟨a, ha, rfl⟩))))

theorem axisEnableOff_served : Served true (.axisEnableOff tag n) s fun u r =>
    ∃ a, Ant.ofNat? n = some a ∧ r = okWith .empty (u.disable a) :=
  .request rfl rfl rfl rfl fun _ => .withAnt fun a ha =>
    .check (.check (.check (.check (.done ⟨a, ha, rfl⟩))))

theorem driveReset_served : Served true (.driveReset tag n) s fun u r =>
    ∃ a, Ant.ofNat? n = some a ∧ r = ⟨if ((u.resetDrives a).faultList a).isEmpty then .ok else .badState,
      .faults ((u.resetDrives a).faultList a), u.resetDrives a⟩ :=
  .request rfl rfl rfl rfl fun _ => .withAnt fun a ha => .done ⟨a, ha, rfl⟩

theorem encoderSelect_served (x : Option AxisName) (e : Option Enc) : Served false (.encoderSelect tag n x e) s
    fun u r => ∃ a ax c, Ant.ofNat? n = some a ∧ x = some ax ∧ e = some c
      ∧ r = okWith .empty (u.modAxis ⟨a, ax⟩ fun v => { v with active := c }) :=
  .serve rfl rfl rfl rfl fun _ => .withAnt fun a ha => .withCode fun ax hx => .withCode fun c hc =>
    .check (.check (.done ⟨a, ax, c, ha, hx, hc, rfl⟩))

theorem encoderDisable_served (x : Option AxisName) (e : Option Enc) : Served false (.encoderDisable tag n x e) s
    fun u r => ∃ a ax c, Ant.ofNat? n = some a ∧ x = some ax ∧ e = some c
      ∧ r = okWith .empty ((u.modAxis ⟨a, ax⟩ fun v => v.setEnabled c false).runFieldTimers a) :=
  .serve rfl rfl rfl rfl fun _ => .withAnt fun a ha => .withCode fun ax hx => .withCode fun c hc =>
    .check (.done ⟨a, ax, c, ha, hx, hc, rfl⟩)

theorem encoderRestore_served (x : Option AxisName) (e : Option Enc) : Served false (.encoderRestore tag n x e) s
    fun u r => ∃ a ax c, Ant.ofNat? n = some a ∧ x = some ax ∧ e = some c
      ∧ r = okWith .empty ((u.modAxis ⟨a, ax⟩ fun v => v.setEnabled c true).runFieldTimers a) :=
  .serve rfl rfl rfl rfl fun _ => .withAnt fun a ha => .withCode fun ax hx => .withCode fun c hc =>
    .done ⟨a, ax, c, ha, hx, hc, rfl⟩

theorem configWriteAxis_served (x : Option AxisName) (f : AxisFigures) : Served false (.configWriteAxis tag n x f) s
    fun u r => ∃ a ax, Ant.ofNat? n = some a ∧ x = some ax
      ∧ r = okOrClamped (decide ((AxisFigures.clamp f ax).figures ≠ f)) (.axisRecord (AxisFigures.clamp f ax))
        (u.writeAxis ⟨a, ax⟩ (AxisFigures.clamp f ax)) :=
  .serve rfl rfl rfl rfl fun _ => .withAnt fun a ha => .withCode fun ax hx =>
    .check (.check (.check (.done ⟨a, ax, ha, hx, rfl⟩)))

/-! ### Feed and zones -/

theorem antChecks_of {a : Ant} (h : Ant.ofNat? n = some a) (rows : Ant → List (Bool × Status)) :
    antChecks n rows = rows a := by rw [antChecks, h]

theorem configWriteStation_served (f : StationFigures) : Served true (.configWriteStation tag f) s fun _ _ => True :=
  .request rfl rfl rfl rfl fun u => .row
    (fun h => by rw [if_neg (by rw [h]; exact Bool.false_ne_true)]; exact .plain (by decide) _)
    fun h => by rw [if_pos h]; exact .check (.done trivial)

theorem configWriteZone_served (c : Option ZoneClass) (f : ZoneFigures) : Served true (.configWriteZone tag n c f) s
    fun _ _ => True :=
  .request rfl rfl rfl rfl fun _ => .withAnt fun _ _ => .withCode fun _ _ => .check (.check (.done trivial))

theorem heatSet_served (k : HeatSender) (c : Option ZoneClass) (m : Option HeatMode) (level : Option Nat) :
    Served true (.heatSet tag k c m level) s fun _ _ => True := by
  cases k with
  | operations n =>
    refine .request rfl rfl rfl rfl fun u => .withAnt fun a ha => .withCode fun c hc => .withCode fun m hm => ?_
    refine .check (.permitted ?_ (.check (.done trivial)))
    show (Ant.ofNat? n).toList.map _ = _
    rw [show Ant.ofNat? n = some a from ha]; rfl
  | pendant n =>
    have own : Ant.ofNat? n.num = some n := by cases n <;> rfl
    refine .request rfl rfl rfl rfl fun u => ?_
    show Decided _ u (antChecks n.num _) _ _
    rw [antChecks_of own]
    refine .withCode fun c hc => .withCode fun m hm => .check (.permitted ?_ (.check (.done trivial)))
    show (Ant.ofNat? n.num).toList.map _ = _
    rw [own]; rfl

/-! ### Ice, weather and stow -/

theorem iceFloor_served (c : Option IceClass) : Served true (.iceFloor tag n c) s fun u r =>
    ∃ a x, Ant.ofNat? n = some a ∧ c = some x ∧ r = okWith ((u.setFloor a x).iceReply a) (u.setFloor a x) :=
  .request rfl rfl rfl rfl fun _ => .withAnt fun a ha => .withCode fun x hx => .done ⟨a, x, ha, hx, rfl⟩

theorem weather_served (temp : Int) (wet : Bool) : Served false (.weather tag temp wet) s fun u r =>
    r = okWith .empty (u.report temp wet) :=
  .serve rfl rfl rfl rfl fun _ => .check (.done rfl)

theorem configWriteWind_served (f : WindFigures) : Served true (.configWriteWind tag f) s fun u r =>
    ∃ v, WindFigures.accepted f = some v
      ∧ r = okOrClamped (decide (WindFigures.clamp f ≠ f)) (.windRecord v) (u.writeWind v) := by
  refine .request rfl rfl rfl rfl fun u => .row (fun h => ?_) fun h => ?_
  · rw [Option.isSome_eq_false_iff, Option.isNone_iff_eq_none] at h
    rw [h]; exact .plain (by decide) _
  · obtain ⟨v, hv⟩ := Option.isSome_iff_exists.mp h
    simp only [hv]
    exact .check (.done ⟨v, rfl, rfl⟩)

theorem stowDemandOn_served : Served true (.stowDemandOn tag) s fun u r =>
    r = okWith (u.setSafety true).sources (u.setSafety true) :=
  .request rfl rfl rfl rfl fun _ => .done rfl

theorem stowDemandOff_served : Served true (.stowDemandOff tag) s fun u r =>
    r = okWith (u.setSafety false).sources (u.setSafety false) :=
  .request rfl rfl rfl rfl fun _ => .done rfl

theorem stowRelease_served : Served true (.stowRelease tag) s fun _ _ => True :=
  .request rfl rfl rfl rfl fun _ => .check (.check (.check (.done trivial)))

theorem allStop_served : Served true (.allStop tag) s fun _ _ => True :=
  .request rfl rfl rfl rfl fun _ => .done trivial

/-! ### The permit table -/

theorem permitWriteDefault_served (v : Option Verdict) : Served false (.permitWriteDefault tag v) s fun _ _ => True := by
  refine .serve rfl rfl rfl rfl fun u => .row (fun h => ?_) fun h => ?_
  · rw [Option.isSome_eq_false_iff, Option.isNone_iff_eq_none] at h
    rw [h]; exact .plain (by decide) _
  · obtain ⟨w, rfl⟩ := Option.isSome_iff_exists.mp h
    exact .check (.done trivial)

theorem permitWrite_served (p : PermitArg) : Served false (.permitWrite tag p) s fun _ _ => True := by
  refine .serve rfl rfl rfl rfl fun u => ?_
  rw [checksOf]
  split
  · exact .check (.done trivial)
  · refine .row (fun h => ?_) fun h => ?_
    · rw [Option.isSome_eq_false_iff, Option.isNone_iff_eq_none] at h
      rw [State.askPermit, h]; exact .plain (by decide) _
    · obtain ⟨e, he⟩ := Option.isSome_iff_exists.mp h
      rw [State.askPermit, he]
      exact .check (.done trivial)

/-! ### Tracking -/

theorem burstOpen_served (anchor : Option (PerAxis Mdeg)) : Served false (.burstOpen tag n anchor) s fun u r =>
    ∃ a, Ant.ofNat? n = some a ∧ r = okWith (.free (u.track a).free) (u.openBurst a anchor) := by
  refine .serve rfl rfl rfl rfl fun u => .withAnt fun a ha => ?_
  refine .check (.check (.check (.check (.check (.check (.check (.check (.check (.check (.check (.permitted ?_
    (.done ⟨a, ha, rfl⟩))))))))))))
  show (Ant.ofNat? n).toList.map _ = _
  rw [ha]; rfl

theorem trackClear_served : Served true (.trackClear tag n) s fun _ _ => True :=
  .request rfl rfl rfl rfl fun _ => .withAnt fun _ _ => .check (.done trivial)

/-! ### Local control -/

theorem localClaim_served (p : Ant) : Served true (.localClaim tag p) s fun _ _ => True := by
  refine .request rfl rfl rfl (by cases p <;> rfl) fun u => ?_
  rw [checksOf]
  split
  · exact .check (.check (.permitted rfl (.done trivial)))
  · exact .done trivial

theorem localRelease_served (p : Ant) : Served true (.localRelease tag p) s fun _ _ => True :=
  .request rfl rfl rfl (by cases p <;> rfl) fun _ => .done trivial

/-- The rows of a JOG from the FAULTED check on: a record's failure is reported in the place of the permit check. -/
theorem jog_decided {c : Instr} {u : State} {p : Ant} {x : Option AxisName} {d : Option Direction} {v : Int}
    (hc : c = .jog tag p x d v) (i : AxisId) (own : i.ant = p) (dir : Direction) (speed : Nat) :
    Decided c u (jogChecks u i dir) (u.askJog i dir speed) fun r => r = u.takeJog i dir speed := by
  refine .check (.check (.check (.row (fun h => ?_) fun h => ?_)))
  · rw [Bool.not_eq_false'] at h
    rw [if_pos h, State.jogFaulted]
    split
    next faulted =>
      exact ⟨rfl, nofun, fun _ => .inr ⟨tag, p, x, d, v, .faulted, hc, own ▸ faulted.1, rfl, own ▸ rfl⟩⟩
    next => exact .plain (by decide) _
  · rw [Bool.not_eq_true'] at h
    rw [if_neg (by rw [h]; exact Bool.false_ne_true)]
    refine .check (.check ?_)
    unfold State.jogPermitted
    cases e : u.jogFailure i.ant with
    | some f =>
      have other : f.status ≠ .permit := by cases f <;> decide
      show Decided c u [(false, f.status)] ⟨f.status, .empty, u.clearJog i.ant⟩ _
      refine Decided.fails (x := f.status) ⟨rfl, fun h => absurd h other, fun _ => .inr ?_⟩ []
      exact ⟨tag, p, x, d, v, f, hc, own ▸ e, rfl, own ▸ rfl⟩
    | none => exact .permitted (by rw [hc, ← own]; rfl) (.done rfl)

theorem jog_served (p : Ant) (x : Option AxisName) (d : Option Direction) (v : Int) :
    Served true (.jog tag p x d v) s fun u r =>
      ∃ ax dir, x = some ax ∧ d = some dir ∧ 1 ≤ v ∧ r = u.takeJog ⟨p, ax⟩ dir v.toNat := by
  refine .request rfl rfl rfl (by cases p <;> rfl) fun u => .withCode fun ax hx => .withCode fun dir hd => ?_
  refine .row (fun h => ?_) fun h => ?_
  · rw [h]; exact .plain (by decide) .empty
  · rw [h]
    exact (jog_decided rfl ⟨p, ax⟩ rfl dir v.toNat).mono fun e => ⟨ax, dir, hx, hd, of_decide_eq_true h, e⟩

/-! ### Groups -/

/-- A plan's members are refused with a code of R74. -/
theorem planFails_status {u : State} {ms : List Proposed} {f : Ant × Status × Option AxisName}
    (h : u.planFails ms = some f) : f.2.1 ≠ .permit := by
  obtain ⟨m, -, hm⟩ := List.exists_of_findSome?_eq_some h
  obtain ⟨row, hr, rfl⟩ := Option.map_eq_some_iff.mp hm
  obtain ⟨o, ho, e⟩ := List.exists_of_findSome?_eq_some hr
  have ant {b : Bool} {c : Status} (n : c ≠ .permit) (g : antRow b c = some row) : row.1 ≠ .permit := by
    unfold antRow at g
    split at g
    · cases g; exact n
    · cases g
  have axis {fails : AxisName → Bool} {c : Status} (n : c ≠ .permit) (g : axisRow fails c = some row) :
      row.1 ≠ .permit := by
    obtain ⟨ax, -, rfl⟩ := Option.map_eq_some_iff.mp g
    exact n
  replace e : o = some row := e
  subst e
  simp only [State.memberRows, List.mem_cons, List.not_mem_nil, or_false] at ho
  rcases ho with g | g | g | g | g | g | g | g | g
  · exact ant (by decide) g.symm
  · exact ant (by decide) g.symm
  · exact ant (by decide) g.symm
  · exact ant (by decide) g.symm
  · exact axis (by decide) g.symm
  · exact ant (by decide) g.symm
  · exact ant (by decide) g.symm
  · exact axis (by decide) g.symm
  · exact axis (by decide) g.symm

/-- The engine's answer is the last check of a plan (R40). -/
theorem planInto_decided {c : Instr} {u : State} (g : GroupId) (ms : List Proposed) :
    Decided c u
      (match planGroup (fun i => (u.axis i).record) (u.courses ms) (u.potential (ms.flatMap fun m => m.ant.axes)) with
      | .success _ _ _ _ _ => []
      | .tooLong _ _ => [(false, .tooLong)]
      | .budget _ _ _ => [(false, .budget)])
      (u.planInto g ms) fun r => ∃ tg0 step tg demand members,
        planGroup (fun i => (u.axis i).record) (u.courses ms) (u.potential (ms.flatMap fun m => m.ant.axes))
          = .success tg0 step tg demand members
        ∧ r = okWith (.plan tg0 step tg demand members)
          (u.modGroup g fun _ => plannedGroup tg0 step tg demand members) := by
  unfold State.planInto
  split
  next h => rw [h]; exact .done ⟨_, _, _, _, _, rfl, rfl⟩
  next h => rw [h]; exact .fails (.plain (by decide) _) []
  next h => rw [h]; exact .fails (.plain (by decide) _) []

/-- The permit table is asked member by member (R182). -/
theorem planPermitted_decided {c : Instr} {u : State} {rest : List (Bool × Status)} {go : State → Answer}
    {P : Answer → Prop} (h : Decided c u rest (go u) P) (ms before : List Proposed)
    (subjects : subjectsOf c = (before ++ ms).map fun m => (some m.ant, planSubject m))
    (passed : ∀ m ∈ before, u.admitted (planSubject m) = true) :
    Decided c u (ms.map (fun m => (u.admitted (planSubject m), .permit)) ++ rest) (u.planPermitted ms go) P := by
  induction ms generalizing before with
  | nil => exact h
  | cons m ms ih =>
    refine .row (fun e => ?_) fun e => ?_
    · rw [State.planPermitted, permitted_of_refused e]
      refine ⟨rfl, fun _ => ⟨some m.ant, planSubject m, ?_, rfl⟩, fun n => absurd rfl n⟩
      refine List.find?_eq_some_iff_append.mpr ⟨by rw [e]; rfl, _, _, subjects.trans List.map_append, fun p hp => ?_⟩
      obtain ⟨k, hk, rfl⟩ := List.mem_map.mp hp
      rw [passed k hk]; rfl
    · rw [State.planPermitted, permitted_of_admitted e]
      refine ih (before ++ [m]) (by simpa using subjects) fun k hk => ?_
      rcases List.mem_append.mp hk with hk | hk
      · exact passed k hk
      · rw [List.mem_singleton.mp hk]; exact e

theorem groupPlan_served (ms : List MemberArg) : Served false (.groupPlan tag n ms) s fun u r =>
    ∃ g ps tg0 step tg demand members, GroupId.ofNat? n = some g ∧ proposedMembers ms = some ps
      ∧ planGroup (fun i => (u.axis i).record) (u.courses ps) (u.potential (ps.flatMap fun m => m.ant.axes))
          = .success tg0 step tg demand members
      ∧ r = okWith (.plan tg0 step tg demand members)
          (u.modGroup g fun _ => plannedGroup tg0 step tg demand members) := by
  refine .serve rfl rfl rfl rfl fun u => .withGroup fun g hg => .withCode fun ps hp => .check ?_
  unfold planChecks State.planChecked
  cases e : u.planFails ps with
  | some f => exact .fails (.plain (planFails_status e) _) []
  | none =>
    refine planPermitted_decided ((planInto_decided g ps).mono ?_) ps [] ?_ nofun
    · rintro ⟨tg0, step, tg, demand, members, h, hr⟩
      exact ⟨g, ps, tg0, step, tg, demand, members, hg, hp, h, hr⟩
    · rw [List.nil_append, subjectsOf, hp]; rfl

theorem groupArm_served (start : Nat) : Served true (.groupArm tag n start) s fun u r =>
    ∃ g, GroupId.ofNat? n = some g ∧ (u.groups.get g).state = .planned
      ∧ (let folded := sumOf (u.groups.get g).axes u.foldable
         let f := u.fit (u.groups.get g).demand folded false
         f ≠ .short ∧ r = okWith (.armed start (u.groups.get g).demand) (u.armGroup g start f folded)) := by
  refine .request rfl rfl rfl rfl fun u => .withGroup fun g hg => .row (fun h => ?_) fun planned => ?_
  · rw [h]; exact .plain (by decide) .empty
  rw [planned]
  refine .check (.check (.row (fun h => ?_) fun h => .row (fun h' => ?_) fun h' => .done ?_))
  · obtain ⟨i, hi⟩ := Option.isSome_iff_exists.mp (by simpa using h)
    rw [State.armUncovered, hi]
    exact .plain (by decide) _
  · rw [Option.isNone_iff_eq_none] at h
    rw [State.armUncovered, h]
    have short := not_not.mp (of_decide_eq_false h')
    simp only [State.armGranted, short]
    exact .plain (by decide) _
  · rw [Option.isNone_iff_eq_none] at h
    rw [State.armUncovered, h]
    have fits := of_decide_eq_true h'
    refine ⟨g, hg, of_decide_eq_true planned, fits, ?_⟩
    simp only [State.armGranted]

theorem groupCancel_served : Served true (.groupCancel tag n) s fun u r =>
    ∃ g, GroupId.ofNat? n = some g ∧ (u.groups.get g).state ≠ .empty ∧ (u.groups.get g).releasing = false
      ∧ r = okWith .empty (match (u.groups.get g).state with
        | .armed => (u.releaseGroup g).emptyGroup g
        | .running => u.haltGroup g .cancel none
        | _ => u.emptyGroup g) := by
  refine .request rfl rfl rfl rfl fun u => .withGroup fun g hg => ?_
  have spec : u.cancelGroup g = check u (decide ((u.groups.get g).state ≠ .empty)) .notFound
      (check u (!(u.groups.get g).releasing) .busy (okWith .empty (match (u.groups.get g).state with
        | .armed => (u.releaseGroup g).emptyGroup g
        | .running => u.haltGroup g .cancel none
        | _ => u.emptyGroup g))) := by
    unfold State.cancelGroup check Group.releasing
    cases e : (u.groups.get g).state <;> cases (u.groups.get g).held <;> rfl
  rw [spec]
  refine .row (fun h => ?_) fun h => ?_
  · rw [h]; exact .plain (by decide) .empty
  rw [h]
  refine .row (fun h' => ?_) fun h' => ?_
  · rw [h']; exact .plain (by decide) .empty
  · rw [h']
    exact .done ⟨g, hg, of_decide_eq_true h, by simpa using h', rfl⟩

theorem groupRead_served (part : Nat) : Served false (.groupRead tag n part) s fun u r =>
    ∃ g, GroupId.ofNat? n = some g
      ∧ (let data := (u.groups.get g).bytes g u.now u.axis
         part < partCount data.length ∧ r = okWith (.bytes part (partCount data.length) (partOf data part)) u) := by
  refine .serve rfl rfl rfl rfl fun u => .withGroup fun g hg => .row (fun h => ?_) fun h => ?_
  · simp only [if_neg (of_decide_eq_false h)]
    exact .plain (by decide) _
  · simp only [if_pos (of_decide_eq_true h)]
    exact .done ⟨g, hg, of_decide_eq_true h, rfl⟩

/-! ### Lockouts -/

/-- A placement that is not refused (R93, R94). -/
def PlacementTaken (u : State) (p : Placement) (r : Answer) : Prop :=
  let t := (u.placeEntry p).applyCover u (u.locks.judge p).slot p.scope
  (∃ n e, u.locks.judge p = .merged n e ∧ r = okWith (t.placedReply n true) t)
    ∨ ∃ n, u.locks.judge p = .created n ∧ r = okWith (t.placedReply n false) t

theorem askPlacement_decided {c : Instr} {u : State} (p : Option Placement) :
    Decided c u (placeChecks u p) (u.askPlacement p) fun r => ∃ q, p = some q ∧ PlacementTaken u q r := by
  cases p with
  | none => exact .fails (.plain (by decide) _) []
  | some p =>
    refine .row (fun h => ?_) fun h => ?_
    · rw [State.askPlacement, h]; exact .plain (by decide) .empty
    simp only [State.askPlacement, h, if_true, State.placeLock]
    refine .row (fun h' => ?_) fun h' => ?_
    · have full := not_not.mp (of_decide_eq_false h')
      rw [full]; exact .plain (by decide) .empty
    · have takes := of_decide_eq_true h'
      refine .done ⟨p, rfl, ?_⟩
      unfold PlacementTaken
      cases e : u.locks.judge p with
      | full => exact absurd e takes
      | merged n d => exact .inl ⟨n, d, rfl, rfl⟩
      | created n => exact .inr ⟨n, rfl, rfl⟩

theorem holdPlace_served (cover : CoverSet) (reason : Option Nat) : Served true (.holdPlace tag n cover reason) s
    fun u r => ∃ q, operationsPlacement n cover reason = some q ∧ PlacementTaken u q r :=
  .request rfl rfl rfl rfl fun _ => askPlacement_decided _

theorem lockPlace_served (k : LockSender) (cover : CoverSet) (reason : Option Nat) :
    Served true (.lockPlace tag k cover reason) s fun u r =>
      ∃ q, lockPlacement k cover reason = some q ∧ PlacementTaken u q r :=
  .request rfl rfl rfl (by cases k with | safety => rfl | pendant p => cases p <;> rfl) fun _ => askPlacement_decided _

/-- A removal goes by the slot's entry, the entry's own checks, and the slot's write (R98). -/
theorem withEntry_decided {c : Instr} {u : State} {slot : Nat} {rows : LockEntry → List (Bool × Status)}
    {go : LockEntry → Answer} {P : Answer → Prop}
    (h : ∀ e, slot < 24 → u.locks.slot slot = some e →
      Decided c u (rows e ++ [(u.storable (.lockout slot), .full)]) (go e) P) :
    Decided c u (removeChecks u slot rows) (withEntry u slot go) P := by
  refine .row (fun le => ?_) fun le => ?_
  · rw [withEntry, withSlot, if_neg (of_decide_eq_false le)]; exact .plain (by decide) .empty
  · rw [withEntry, withSlot, if_pos (of_decide_eq_true le)]
    cases e : u.locks.slot slot with
    | none => exact .fails (.plain (by decide) .empty) []
    | some entry => exact h entry (of_decide_eq_true le) e

/-- A removal that is not refused (R98). -/
def RemovalTaken (u : State) (slot : Nat) (entry : LockEntry → Prop) (r : Answer) : Prop :=
  ∃ e, slot < 24 ∧ u.locks.slot slot = some e ∧ entry e
    ∧ r = okWith (.removed (u.entryView slot e)) (u.removeEntry slot e)

theorem removeFor_decided {c : Instr} {u : State} (slot : Nat) (t : LockTarget) (cls : LockClass) :
    Decided c u (removeChecks u slot fun e => [(LockTarget.names t e.scope, .notFound), (decide (e.cls = cls), .notHolder)])
      (u.removeFor slot t cls) (RemovalTaken u slot fun e => LockTarget.names t e.scope = true ∧ e.cls = cls) := by
  refine withEntry_decided fun e le he => .row (fun h => ?_) fun h => .row (fun h' => ?_) fun h' => ?_
  · rw [h]; exact .plain (by decide) .empty
  · rw [h, h']; exact .plain (by decide) .empty
  · rw [h, h']; exact .check (.done ⟨e, le, he, ⟨h, of_decide_eq_true h'⟩, rfl⟩)

theorem holdRemove_served (slot : Nat) : Served true (.holdRemove tag slot n) s fun u r =>
    RemovalTaken u slot (fun e => LockTarget.names (.antenna n) e.scope = true ∧ e.cls = .operations) r :=
  .request rfl rfl rfl rfl fun _ => removeFor_decided ..

theorem lockRemove_served (k : UnlockSender) (slot : Nat) : Served true (.lockRemove tag k slot) s fun u r =>
    RemovalTaken u slot (fun _ => True) r := by
  cases k with
  | safety t =>
    refine .request rfl rfl rfl rfl fun u => (removeFor_decided slot t .safety).mono ?_
    exact fun ⟨e, le, he, _, hr⟩ => ⟨e, le, he, trivial, hr⟩
  | pendant p badge =>
    refine .request rfl rfl rfl (by cases p <;> rfl) fun u => withEntry_decided fun e le he => ?_
    have rows : (decide (e.cls = .personnel) && decide (e.holder = .pendant p) && decide (e.badge = some badge))
        = decide (e.cls = .personnel ∧ e.holder = .pendant p ∧ e.badge = some badge) := by
      rw [Bool.decide_and, Bool.decide_and, Bool.and_assoc]
    rw [rows]
    exact .check (.check (.done ⟨e, le, he, trivial, rfl⟩))

theorem forceRemove_served (slot : Nat) (t : LockTarget) : Served true (.forceRemove tag slot t) s fun u r =>
    ∃ e, slot < 24 ∧ u.locks.slot slot = some e
      ∧ r = okWith (.removed (u.entryView slot e)) ((u.removeEntry slot e).warnRemoved e.scope) :=
  .request rfl rfl rfl rfl fun _ => withEntry_decided fun e le he => .check (.check (.done ⟨e, le, he, rfl⟩))

/-! ### Every request -/

variable {c : Instr} {l : Link} {k : Kind}

/-- Every request with checks is decided by them. -/
theorem request_served (of : requestOf c = some (l, k, tag)) : ∃ b P, Served b c s P := by
  cases c <;> try cases of
  case noticeEnableOn => exact ⟨_, _, noticeEnableOn_served _⟩
  case noticeEnableOff => exact ⟨_, _, noticeEnableOff_served _⟩
  case timeSet => exact ⟨_, _, timeSet_served _⟩
  case axisEnableOn => exact ⟨_, _, axisEnableOn_served⟩
  case axisEnableHold => exact ⟨_, _, axisEnableHold_served⟩
  case axisEnableOff => exact ⟨_, _, axisEnableOff_served⟩
  case driveReset => exact ⟨_, _, driveReset_served⟩
  case encoderSelect => exact ⟨_, _, encoderSelect_served _ _⟩
  case encoderDisable => exact ⟨_, _, encoderDisable_served _ _⟩
  case encoderRestore => exact ⟨_, _, encoderRestore_served _ _⟩
  case configWriteAxis => exact ⟨_, _, configWriteAxis_served _ _⟩
  case configWriteStation => exact ⟨_, _, configWriteStation_served _⟩
  case configWriteZone => exact ⟨_, _, configWriteZone_served _ _⟩
  case configWriteWind => exact ⟨_, _, configWriteWind_served _⟩
  case burstOpen => exact ⟨_, _, burstOpen_served _⟩
  case trackClear => exact ⟨_, _, trackClear_served⟩
  case groupPlan => exact ⟨_, _, groupPlan_served _⟩
  case groupArm => exact ⟨_, _, groupArm_served _⟩
  case groupCancel => exact ⟨_, _, groupCancel_served⟩
  case groupRead => exact ⟨_, _, groupRead_served _⟩
  case holdPlace => exact ⟨_, _, holdPlace_served _ _⟩
  case lockPlace => exact ⟨_, _, lockPlace_served _ _ _⟩
  case holdRemove => exact ⟨_, _, holdRemove_served _⟩
  case lockRemove => exact ⟨_, _, lockRemove_served _ _⟩
  case forceRemove => exact ⟨_, _, forceRemove_served _ _⟩
  case localClaim => exact ⟨_, _, localClaim_served _⟩
  case localRelease => exact ⟨_, _, localRelease_served _⟩
  case jog => exact ⟨_, _, jog_served _ _ _ _⟩
  case heatSet => exact ⟨_, _, heatSet_served _ _ _ _⟩
  case iceFloor => exact ⟨_, _, iceFloor_served _⟩
  case weather => exact ⟨_, _, weather_served _ _⟩
  case stowDemandOn => exact ⟨_, _, stowDemandOn_served⟩
  case stowDemandOff => exact ⟨_, _, stowDemandOff_served⟩
  case stowRelease => exact ⟨_, _, stowRelease_served⟩
  case allStop => exact ⟨_, _, allStop_served⟩
  case permitWrite => exact ⟨_, _, permitWrite_served _⟩
  case permitWriteDefault => exact ⟨_, _, permitWriteDefault_served _⟩

theorem State.answer_own (s : State) (l : Link) (k tag : Byte) (st : Status) (b : ReplyBody) :
    ((s.answer l k tag st b).link l).reply = some ⟨replyKind k, tag, st, b⟩ := by
  rw [State.answer, State.link_modLink, if_pos rfl]; rfl

theorem announce_reply (s t : State) (l : Link) : ((announce s t).link l).reply = (t.link l).reply := by
  rw [announce_link, LinkRecord.conclude_reply]

/-- The answer stands as the reply on the request's link (R188). -/
theorem Answer.finish_replied (r : Answer) (b : Bool) (s : State) (l : Link) (k : Kind) (tag : Byte) :
    (r.finish b s l k tag).replied l k tag r.status r.body := by
  cases b
  · exact (announce_reply ..).trans (State.answer_own ..)
  · rw [State.replied, Answer.finish, announce_reply, State.link, settle_links]
    exact State.answer_own ..

/-- What the end of a request can change beyond its answer. -/
theorem Answer.finish_moves (r : Answer) (b : Bool) (s : State) (l : Link) (k : Kind) (tag : Byte) :
    Moves (.links :: followParts) r.state (r.finish b s l k tag) := by
  have answered : Moves (.links :: followParts) r.state (r.state.answer l k.code tag r.status r.body) :=
    (Moves.answer ..).to
  cases b
  · exact answered.trans (Moves.announce ..).to
  · exact (answered.trans (Follows.settle _).to).trans (Moves.announce ..).to

/-- Settles O10: each request against the rows of its rule; a refusal is the answer of the first that fails. -/
theorem requestsAreCheckedInOrder : Obligations.RequestsAreCheckedInOrder := by
  intro c s l k tag x of takes refused
  obtain ⟨b, P, served⟩ := request_served (s := s) of
  obtain ⟨r, run, decided⟩ := served l k tag of takes
  have no := decided.refuses x (by rw [checksOf_takeFrame of]; exact refused)
  have failure (p : Ant) : (s.takeFrame l).jogFailure p = s.jogFailure p := rfl
  refine ⟨_, r.state, r.body, run, ?_, ?_, fun permit => ?_, fun other => ?_, ?_⟩
  · rw [← no.status]; exact r.finish_replied ..
  · rw [← no.status]
    cases b
    · exact .inl rfl
    · exact .inr rfl
  · obtain ⟨m, q, first, answer⟩ := no.permit permit
    simp only [admitted_takeFrame] at first
    refine ⟨m, q, first, ?_⟩
    rw [answer, verdict_takeFrame]
    refine ⟨rfl, congrArg (ReplyBody.permitRefusal m _) ?_⟩
    have mark (n : Option Nat) (lost : List Nat) : (n.isNone && !lost.isEmpty) = decide (n = none ∧ lost ≠ []) := by
      cases n <;> cases lost <;> simp
    exact mark _ _
  · rcases no.other other with same | ⟨tag', p, ax, dir, speed, f, hc, hf, hx, same⟩
    · exact .inl same
    · obtain rfl : tag' = tag := by rw [hc] at of; cases of; rfl
      exact .inr ⟨p, ax, dir, speed, f, hc, hf, hx, same⟩
  · have effect : Moves (.permits :: followParts) (s.takeFrame l) r.state := by
      by_cases permit : x = .permit
      · obtain ⟨m, q, -, answer⟩ := no.permit permit
        rw [answer]; exact (Moves.countRefusal ..).to
      · rcases no.other permit with same | ⟨_, p, _, _, _, _, -, -, -, same⟩
        · rw [same]; exact .refl ..
        · rw [same]; exact (Follows.clearJog ..).to
    have links : Part.links ∈ linkParts l := links_mem l (List.mem_singleton_self _)
    refine (((Moves.takeFrame s l).mono (List.subset_append_left ..)).trans (effect.mono ?_ |>.trans
      ((r.finish_moves b s l k tag).mono ?_))).touches
    · exact List.subset_append_right ..
    · exact List.cons_subset.mpr ⟨List.mem_append_left _ links,
        List.Subset.trans (List.subset_cons_self ..) (List.subset_append_right ..)⟩

end Sys2Proof.Machine
end

