-- ==== Sys2Proof/Proofs/Admitted.lean ====
section
/-! PROOFS. What an admitted request leaves: its reply, and the parts that what follows it keeps. -/

namespace Sys2Proof.Machine

variable {s t : State} {c : Instr} {l : Link} {k : Kind} {tag : Byte} {r : Answer} {b : Bool}

@[simp] theorem Ant.ofNat?_num (a : Ant) : Ant.ofNat? a.num = some a := by cases a <;> rfl

/-! ### Its checks have passed -/

theorem firstFailing_none {rows : List (Bool × Status)} : firstFailing rows = none ↔ ∀ p ∈ rows, p.1 = true := by
  induction rows with
  | nil => simp [firstFailing]
  | cons p rows ih =>
    obtain ⟨b, c⟩ := p
    cases b <;> simp [firstFailing, ih]

/-- No check of an admitted request fails. -/
theorem State.admits_rows (h : s.admits c = true) : ∀ p ∈ checksOf s c, p.1 = true := by
  unfold State.admits at h
  split at h
  · exact absurd h Bool.false_ne_true
  · simp only [Bool.and_eq_true, Option.isNone_iff_eq_none] at h
    exact firstFailing_none.mp h.2

theorem State.admits_powered (h : s.admits c = true) : s.powered = true := by
  unfold State.admits at h
  split at h
  · exact absurd h Bool.false_ne_true
  · simp only [Bool.and_eq_true] at h
    exact h.1.1

/-! ### Its reply -/

theorem Answer.finish_answers (of : requestOf c = some (l, k, tag)) :
    (r.finish b s l k tag).answers c r.status r.body = true := by
  unfold State.answers
  rw [of]
  exact decide_eq_true (r.finish_replied ..)

/-! ### What it leaves -/

/-- An answer that nothing follows changes the links alone. -/
theorem Answer.finish_serve (r : Answer) (s : State) (l : Link) (k : Kind) (tag : Byte) :
    Moves [.links] r.state (r.finish false s l k tag) := (Moves.answer ..).trans (Moves.announce ..)

theorem Answer.finish_serve_same {p : Part} (r : Answer) (s : State) (l : Link) (k : Kind) (tag : Byte)
    (h : p ∉ [Part.links]) : p.same r.state (r.finish false s l k tag) := (r.finish_serve s l k tag).touches.same p h

theorem Answer.finish_same {p : Part} (r : Answer) (s : State) (l : Link) (k : Kind) (tag : Byte)
    (h : p ∉ .links :: followParts) : p.same r.state (r.finish true s l k tag) :=
  (r.finish_moves true s l k tag).touches.same p h

theorem Answer.finish_axis (r : Answer) (s : State) (l : Link) (k : Kind) (tag : Byte) (i : AxisId) :
    (r.finish false s l k tag).axis i = r.state.axis i :=
  congrArg (fun v : Six Antenna => (v.get i.ant).axes.get i.ax) (r.finish_serve_same (p := .drives) s l k tag (by decide))

/-- What follows an answer keeps every steady axis, and everything else that its rules leave alone. -/
theorem Still.links {s t : State} (ha : t.ants = s.ants) (hq : t.feed.queue = s.feed.queue)
    (hs : t.stow.records = s.stow.records) (hg : t.groups = s.groups)
    (hl : t.locks.authority = s.locks.authority) (hz : t.heat.zones = s.heat.zones) : Still noAxis s t :=
  .away ha (fun i h => by simpa only [State.waits, hq] using h) hs hg hl hz

theorem Still.answer (s : State) (l : Link) (k tag : Byte) (st : Status) (b : ReplyBody) :
    Still noAxis s (s.answer l k tag st b) := .links rfl rfl rfl rfl rfl rfl

theorem Still.announce (s t : State) : Still noAxis t (announce s t) := .links rfl rfl rfl rfl rfl rfl

theorem Answer.finish_calm (r : Answer) (s : State) (l : Link) (k : Kind) (tag : Byte) :
    Calm r.state (r.finish true s l k tag) :=
  ((Still.answer ..).calm_none.trans (Calm.settle _)).trans (Still.announce ..).calm_none

theorem event_congr {f g : State → State} (h : f s = g s) : event s f = event s g := by rw [event, event, h]

theorem event_calm (s : State) (body : State → State) : Calm (body s) (event s body) :=
  (Calm.settle _).trans (Still.announce ..).calm_none

end Sys2Proof.Machine
end

