-- ==== Sys2Proof/Proofs/Figures.lean ====
section
/-! PROOFS. The requests that set one block's own items: BURST_OPEN (R51), the encoder rows (R20 to R23) and an AXIS
record's figures (R8, R30). -/

namespace Sys2Proof.Machine

variable {s t : State}

/-- Settles O35: the channel as it opens; nothing follows it. -/
theorem burstOpensOnTheChannel : Obligations.BurstOpensOnTheChannel := by
  intro s tag a anchor c ok
  obtain ⟨l, k, tag', r, of, on, run, a', known, hr⟩ := (burstOpen_served anchor).admitted ok
  obtain rfl : a' = a := by simpa using known.symm
  subst hr
  have same {p : Part} (r : Answer) := r.finish_serve_same (p := p) s l k tag'
  refine ⟨_, (s.track a').openingTail anchor, run, Answer.finish_answers of, same (p := .burst) _ (by decide),
    fun p empty given => ?_, fun g last => ?_, same (p := .tracks) _ (by decide), same (p := .drives) _ (by decide),
    same (p := .permits) _ (by decide)⟩
  · rw [Track.openingTail, Track.lastLive, empty, given]; exact ⟨rfl, rfl⟩
  · rw [Track.openingTail, Track.lastLive, last]; exact ⟨rfl, rfl, rfl⟩

/-! ### Encoders (R20 to R23) -/

theorem Axis.setEnabled_enabled (x : Axis) (e : Enc) (b : Bool) : (x.setEnabled e b).enabledA = (if e = .a then b else x.enabledA)
    ∧ (x.setEnabled e b).enabledB = (if e = .b then b else x.enabledB) := by cases e <;> exact ⟨rfl, rfl⟩

theorem Axis.setEnabled_kept (x : Axis) (e : Enc) (b : Bool) : (x.setEnabled e b).active = x.active
    ∧ (x.setEnabled e b).state = x.state ∧ (x.setEnabled e b).disagreeTimer = x.disagreeTimer := by
  cases e <;> exact ⟨rfl, rfl, rfl⟩

/-- The disagreement timers of an antenna's axes follow their encoders (R20). -/
theorem State.axis_runFieldTimers (s : State) (a : Ant) (i : AxisId) :
    (s.runFieldTimers a).axis i = if i.ant = a then (s.axis i).runDisagree (s.axisIn i) s.now else s.axis i := by
  obtain ⟨b, x⟩ := i
  by_cases h : b = a
  · subst h
    rw [if_pos rfl]
    simp only [State.runFieldTimers, State.axis_modAnt, if_pos]
    cases x <;> rfl
  · rw [if_neg h]
    simp only [State.runFieldTimers, State.axis_modAnt, if_neg h]

theorem Axis.runDisagree_settings (x : Axis) (io : AxisInputs) (now : Epoch) :
    (x.runDisagree io now).settings = x.settings := rfl

/-- An axis with an encoder's enabled item set, once its timer follows (R20, R23). -/
theorem State.axis_setEnabled (s : State) (i : AxisId) (e : Enc) (b : Bool) (j : AxisId) :
    ((s.modAxis i fun v => v.setEnabled e b).runFieldTimers i.ant).axis j =
      if j = i then ((s.axis i).setEnabled e b).runDisagree (s.axisIn i) s.now
      else if j.ant = i.ant then (s.axis j).runDisagree (s.axisIn j) s.now else s.axis j := by
  rw [State.axis_runFieldTimers, State.axis_modAxis]
  by_cases h : j = i
  · subst h; rw [if_pos rfl, if_pos rfl, if_pos rfl]; rfl
  · rw [if_neg h, if_neg h]; rfl

/-- DISABLE and RESTORE set an encoder's enabled item (R23). -/
theorem encoderEnabled {s t : State} (i : AxisId) (e : Enc) (b : Bool)
    (h : ∀ j, t.axis j = ((s.modAxis i fun v => v.setEnabled e b).runFieldTimers i.ant).axis j) :
    (t.axis i).enabledA = (if e = .a then b else (s.axis i).enabledA)
    ∧ (t.axis i).enabledB = (if e = .b then b else (s.axis i).enabledB)
    ∧ (t.axis i).active = (s.axis i).active ∧ (t.axis i).state = (s.axis i).state
    ∧ (t.axis i).disagreeTimer = (if (t.axis i).disagree (s.axisIn i)
        then some ((s.axis i).disagreeTimer.getD s.now) else none)
    ∧ ∀ j, j ≠ i → (t.axis j).settings = (s.axis j).settings := by
  obtain ⟨ea, eb⟩ := (s.axis i).setEnabled_enabled e b
  obtain ⟨active, state, timer⟩ := (s.axis i).setEnabled_kept e b
  have own := (h i).trans (State.axis_setEnabled s i e b i)
  rw [if_pos rfl] at own
  rw [own]
  refine ⟨ea, eb, active, state, ?_, fun j hj => ?_⟩
  · rw [← timer]; rfl
  · rw [h j, State.axis_setEnabled, if_neg hj]
    split
    · exact Axis.runDisagree_settings ..
    · rfl

/-! ### Reports (R20, R21) -/

theorem AxisInputs.setReport_reports (io : AxisInputs) (e : Enc) (b : Bool) :
    (AxisInputs.setReport io e b).reportA = (if e = .a then b else io.reportA)
    ∧ (AxisInputs.setReport io e b).reportB = (if e = .b then b else io.reportB) := by cases e <;> exact ⟨rfl, rfl⟩

theorem Axis.healthy_setReport_other (x : Axis) (io : AxisInputs) (e : Enc) (b : Bool) :
    x.healthy (AxisInputs.setReport io e b) e.other = x.healthy io e.other := by cases e <;> rfl

theorem event_settings (s : State) (body : State → State) (i : AxisId) :
    ((event s body).axis i).settings = ((body s).axis i).settings :=
  (event_same (p := .axisSettings) s body (by decide)).1 i

theorem event_axisIn (s : State) (body : State → State) (i : AxisId) :
    (event s body).axisIn i = (body s).axisIn i :=
  congrArg (fun io : FieldInputs => (io.ants.get i.ant).axes.get i.ax) (event_same (p := .field) s body (by decide))

theorem State.axisIn_modAxisIn (s : State) (i : AxisId) (f : AxisInputs → AxisInputs) :
    (s.modAxisIn i f).axisIn i = f (s.axisIn i) := by
  simp [State.modAxisIn, State.modAntIn, State.axisIn]

/-- The state in which a report has come in and is marked acted on (R20, R21). -/
def State.reported (s : State) (i : AxisId) (e : Enc) : State :=
  ((s.modAxisIn i fun io => AxisInputs.setReport io e true).runFieldTimers i.ant).modAxis i fun x => x.markActed e

theorem State.reported_axisIn (s : State) (i : AxisId) (e : Enc) :
    (s.reported i e).axisIn i = AxisInputs.setReport (s.axisIn i) e true :=
  State.axisIn_modAxisIn s i fun io => AxisInputs.setReport io e true

theorem Axis.markActed_settings (x : Axis) (e : Enc) : (x.markActed e).settings = x.settings := by cases e <;> rfl

theorem State.reported_settings (s : State) (i : AxisId) (e : Enc) (j : AxisId) :
    ((s.reported i e).axis j).settings = (s.axis j).settings := by
  have timed (j : AxisId) : (((s.modAxisIn i fun io => AxisInputs.setReport io e true).runFieldTimers i.ant).axis
      j).settings = (s.axis j).settings := by
    rw [State.axis_runFieldTimers]
    split
    · exact Axis.runDisagree_settings ..
    · rfl
  rw [State.reported, State.axis_modAxis]
  split
  next h => subst h; exact (Axis.markActed_settings ..).trans (timed _)
  next => exact timed j

/-- The health of an encoder reads the settings of its axis alone. -/
theorem Axis.healthy_congr {x y : Axis} (h : y.settings = x.settings) (io : AxisInputs) (e : Enc) :
    y.healthy io e = x.healthy io e := by
  obtain ⟨-, -, a, b, -⟩ : y.record = x.record ∧ y.recordWritten = x.recordWritten ∧ y.enabledA = x.enabledA
      ∧ y.enabledB = x.enabledB ∧ y.active = x.active := by simpa [Axis.settings] using h
  cases e
  · rw [Axis.healthy, Axis.healthy, a]
  · rw [Axis.healthy, Axis.healthy, b]

theorem Axis.active_congr {x y : Axis} (h : y.settings = x.settings) : y.active = x.active :=
  congrArg (fun v : AxisRecord × Bool × Bool × Bool × Enc => v.2.2.2.2) h

/-- A report that does not fault its axis marks its encoder, and switches off it where it was active (R21). -/
theorem exec_encoderFaultReport {s : State} {i : AxisId} {e : Enc} (on : s.powered = true)
    (h : (s.axis i).active ≠ e ∨ (s.axis i).healthy (s.axisIn i) e.other = true) :
    exec (.encoderFaultReport i e) s = .next (event s fun s =>
      if (s.axis i).active = e then (s.reported i e).modAxis i fun x => { x with active := x.active.other }
      else s.reported i e) := by
  refine (occur_due on rfl).trans (congrArg Host.Outcome.next (event_congr ?_))
  show (if ((s.reported i e).axis i).active = e then (s.reported i e).activeReported i else s.reported i e) = _
  have active := Axis.active_congr (s.reported_settings i e i)
  rw [active]
  split
  next own =>
    have well := h.resolve_left (not_not.mpr own)
    rw [State.activeReported, active, own, Axis.healthy_congr (s.reported_settings i e i), State.reported_axisIn,
      Axis.healthy_setReport_other, if_pos well]
  next => rfl

/-! ### AXIS records (R8, R30) -/

theorem clampInt_eq {lo hi : Int} (h : lo ≤ hi) (x : Int) : clampInt lo hi x = max lo (min hi x) := by
  unfold clampInt; grind

theorem clampNat_eq {lo hi : Nat} (h : lo ≤ hi) (x : Int) : (clampNat lo hi x : Int) = max (lo : Int) (min (hi : Int) x) := by
  rw [clampNat, clampInt_eq (by exact_mod_cast h), Int.toNat_of_nonneg]
  exact (Int.natCast_nonneg lo).trans (le_max_left ..)

/-- Every figure of an AXIS record is set into its range (R8, R30). -/
theorem AxisFigures.clamp_figures (f : AxisFigures) (x : AxisName) : (AxisFigures.clamp f x).figures =
    ⟨max 1 (min (if x = .az then 3000 else 1500) f.vmax), max 1 (min (if x = .az then 2000 else 1000) f.amax),
      max (if x = .az then -270000 else 2000) (min (if x = .az then 270000 else 90500) f.softLow),
      max (if x = .az then -270000 else 2000) (min (if x = .az then 270000 else 90500) f.softHigh),
      max 0 (min 3000 f.hold), max 0 (min 5000 f.coeff), max 50 (min 5000 f.followLimit),
      max 10 (min 600 f.idle)⟩ := by
  cases x
  all_goals
    simp only [AxisRecord.figures, AxisFigures.clamp, hardware]
    rw [clampNat_eq (by decide), clampNat_eq (by decide), clampNat_eq (by decide), clampNat_eq (by decide),
      clampNat_eq (by decide), clampNat_eq (by decide), clampInt_eq (by decide), clampInt_eq (by decide)]
    rfl

theorem Antenna.validate_axes (v : Antenna) : v.validate.axes = v.axes := by
  unfold Antenna.validate; split <;> rfl

theorem Antenna.validate_configInvalid (v : Antenna) : v.validate.configInvalid =
    (v.configInvalid && !(v.axes.az.recordWritten && v.axes.el.recordWritten)) := by
  unfold Antenna.validate
  split
  next h => rw [h]; simp
  next h => rw [Bool.not_eq_true] at h; rw [h]; simp

/-- An axis whose record has been written (R8). -/
def Axis.written (r : AxisRecord) (x : Axis) : Axis := { x with record := r, recordWritten := true }

theorem State.axis_writeAxis (s : State) (i j : AxisId) (r : AxisRecord) : (s.writeAxis i r).axis j =
    if j = i then (s.axis i).written r else s.axis j := by
  show ((s.modAxis i (Axis.written r)).modAnt i.ant Antenna.validate).axis j = _
  rw [State.axis_modAnt, Antenna.validate_axes, ← State.axis_modAxis s i j]
  split
  next h => rw [State.axis, h]
  next => rfl

theorem State.configInvalid_writeAxis (s : State) (i : AxisId) (r : AxisRecord) :
    ((s.writeAxis i r).ants.get i.ant).configInvalid =
      ((s.ants.get i.ant).configInvalid && !(s.axis ⟨i.ant, i.ax.other⟩).recordWritten) := by
  have written : (s.writeAxis i r).ants.get i.ant = Antenna.validate ((s.modAxis i (Axis.written r)).ants.get i.ant) :=
    (Six.get_set ..).trans (if_pos rfl)
  have own : (s.modAxis i (Axis.written r)).ants.get i.ant =
      { s.ants.get i.ant with axes := (s.ants.get i.ant).axes.set i.ax ((s.axis i).written r) } :=
    (Six.get_set ..).trans (if_pos rfl)
  rw [written, Antenna.validate_configInvalid, own]
  obtain ⟨a, x⟩ := i
  cases x
  · simp [PerAxis.set, AxisName.other, State.axis, PerAxis.get, Axis.written]
  · simp [PerAxis.set, AxisName.other, State.axis, PerAxis.get, Axis.written]

/-- Settles O27: each row's own change; what follows it keeps every setting. -/
theorem encodersAndFiguresAreSet : Obligations.EncodersAndFiguresAreSet := by
  refine ⟨fun s tag a x e => ⟨fun ok => ?select, fun c hc ok => ?enable, fun on => ⟨fun h => ?report, ?cleared⟩⟩,
    fun s tag a x f => ?figures⟩
  case select =>
    obtain ⟨l, k, tag', r, of, -, run, a', x', e', ha, hx, he, hr⟩ := (encoderSelect_served _ _).admitted ok
    obtain rfl : a' = a := by simpa using ha.symm
    cases hx; cases he; subst hr
    refine ⟨_, run, Answer.finish_answers of, ?_, fun j hj => ?_⟩
    · rw [Answer.finish_axis]; exact (State.axis_modAxis ..).trans (if_pos rfl)
    · rw [Answer.finish_axis]; exact (State.axis_modAxis ..).trans (if_neg hj)
  case enable =>
    have enabled {r : Answer} {l : Link} {k : Kind} (b : Bool)
        (h : r = okWith .empty (((s.takeFrame l).modAxis ⟨a, x⟩ fun v => v.setEnabled e b).runFieldTimers a)) :=
      encoderEnabled (s := s) (t := r.finish false s l k tag) ⟨a, x⟩ e b fun j => by
        rw [Answer.finish_axis, h]
        exact (State.axis_setEnabled (s.takeFrame l) ⟨a, x⟩ e b j).trans (State.axis_setEnabled s ⟨a, x⟩ e b j).symm
    rcases List.mem_cons.mp hc with rfl | hc
    · obtain ⟨l, k, tag', r, of, -, run, a', x', e', ha, hx, he, hr⟩ := (encoderDisable_served _ _).admitted ok
      obtain rfl : a' = a := by simpa using ha.symm
      cases hx; cases he; cases of
      exact ⟨_, run, hr ▸ Answer.finish_answers rfl, enabled false hr⟩
    · obtain rfl := List.mem_singleton.mp hc
      obtain ⟨l, k, tag', r, of, -, run, a', x', e', ha, hx, he, hr⟩ := (encoderRestore_served _ _).admitted ok
      obtain rfl : a' = a := by simpa using ha.symm
      cases hx; cases he; cases of
      exact ⟨_, run, hr ▸ Answer.finish_answers rfl, enabled true hr⟩
  case report =>
    have reports : (event s fun s => if (s.axis ⟨a, x⟩).active = e then
        (s.reported ⟨a, x⟩ e).modAxis ⟨a, x⟩ fun v => { v with active := v.active.other }
        else s.reported ⟨a, x⟩ e).axisIn ⟨a, x⟩ = AxisInputs.setReport (s.axisIn ⟨a, x⟩) e true := by
      rw [event_axisIn]
      split
      · exact State.reported_axisIn ..
      · exact State.reported_axisIn ..
    refine ⟨_, exec_encoderFaultReport on h, ?_, ?_, ?_, fun j hj => ?_⟩
    · rw [reports, (AxisInputs.setReport_reports ..).1]; cases e <;> simp
    · rw [reports, (AxisInputs.setReport_reports ..).2]; cases e <;> simp
    · have kept := State.reported_settings s ⟨a, x⟩ e ⟨a, x⟩
      rw [event_settings]
      split
      next own =>
        rw [State.axis_modAxis, if_pos rfl]
        simp only [Axis.settings, Prod.mk.injEq] at kept ⊢
        obtain ⟨h1, h2, h3, h4, h5⟩ := kept
        exact ⟨h1, h2, h3, h4, by rw [h5, own]⟩
      next => exact kept
    · rw [event_settings]
      split
      · rw [State.axis_modAxis, if_neg hj]; exact State.reported_settings ..
      · exact State.reported_settings ..
  case cleared =>
    refine ⟨_, occur_due on rfl, ?_, ?_, fun j => ?_⟩
    · rw [event_axisIn]
      refine (congrArg AxisInputs.reportA (State.axisIn_modAxisIn s ⟨a, x⟩ fun io => AxisInputs.setReport io e false)).trans ?_
      rw [(AxisInputs.setReport_reports ..).1]
      cases e <;> simp
    · rw [event_axisIn]
      refine (congrArg AxisInputs.reportB (State.axisIn_modAxisIn s ⟨a, x⟩ fun io => AxisInputs.setReport io e false)).trans ?_
      rw [(AxisInputs.setReport_reports ..).2]
      cases e <;> simp
    · rw [event_settings, State.axis_runFieldTimers]
      split
      · exact Axis.runDisagree_settings ..
      · rfl
  case figures =>
    intro c i ok
    have rows := State.admits_rows ok
    obtain ⟨l, k, tag', r, of, -, run, a', x', ha, hx, hr⟩ := (configWriteAxis_served _ _).admitted ok
    obtain rfl : a' = a := by simpa using ha.symm
    cases hx; subst hr
    have stores : (s.store.refuses (.axis i)) = false := by
      have row := rows (s.storable (.axis i), .full) (by simp [c, checksOf, antChecks, codeChecks, i])
      simpa [State.storable] using row
    have same {p : Part} (r : Answer) := r.finish_serve_same (p := p) s l k tag'
    refine ⟨_, AxisFigures.clamp f x, run, ?_, AxisFigures.clamp_figures f x, ?_, ?_, ?_, fun j hj => ?_⟩
    · rw [Answer.finish_axis]; exact (State.axis_writeAxis ..).trans (if_pos rfl)
    · have answered := Answer.finish_answers (b := false) (s := s) of
        (r := okOrClamped (decide ((AxisFigures.clamp f x).figures ≠ f)) (.axisRecord (AxisFigures.clamp f x))
          ((s.takeFrame l).writeAxis ⟨a', x⟩ (AxisFigures.clamp f x)))
      by_cases same : (AxisFigures.clamp f x).figures = f
      · rw [if_pos same]; simpa [okOrClamped, same] using answered
      · rw [if_neg same]; simpa [okOrClamped, same] using answered
    · exact (congrArg (fun v : Six Antenna => (v.get a').configInvalid) (same (p := .drives) _ (by decide))).trans
        (State.configInvalid_writeAxis ..)
    · rw [same (p := .store) _ (by decide)]
      exact Store.owes_queueWrite_self (.inl stores) rfl ..
    · rw [Answer.finish_axis]; exact (State.axis_writeAxis ..).trans (if_neg hj)

end Sys2Proof.Machine
end

