-- ==== Sys2Proof/Proofs/WindRequests.lean ====
section
/-! PROOFS. The requests and timers that make the stow demand (R121, R122, R133). -/

namespace Sys2Proof.Machine

variable {s : State}

/-! ### The WIND record (R122) -/

theorem Pair.clamp_eq (p : Pair) : Pair.clamp p = ⟨max 50 (min 800 p.mean), max 50 (min 800 p.gust)⟩ := by
  rw [Pair.clamp, clampInt_eq (by decide), clampInt_eq (by decide)]

theorem filterMap_length_eq {α β : Type} {f : α → Option β} {g : β → α} (back : ∀ x y, f x = some y → g y = x)
    {xs : List α} (h : (xs.filterMap f).length = xs.length) : (xs.filterMap f).map g = xs := by
  induction xs with
  | nil => rfl
  | cons x xs ih =>
    have most := List.length_filterMap_le f xs
    cases e : f x with
    | none =>
      rw [List.filterMap_cons_none e, List.length_cons] at h
      omega
    | some y =>
      rw [List.filterMap_cons_some e] at h ⊢
      rw [List.map_cons, back x y e, ih (by simpa using h)]

/-- A stow order spells every antenna once (R122). -/
theorem stowOrder_spec {ns : List Nat} {order : List Ant} (h : stowOrder ns = some order) :
    order.map Ant.num = ns ∧ ∀ a, a ∈ order := by
  unfold stowOrder at h
  dsimp only at h
  split at h
  · rename_i whole
    obtain ⟨six, all⟩ := whole
    cases h
    have every (a : Ant) : a ∈ ns.filterMap Ant.ofNat? := by
      simpa using List.all_eq_true.mp all a (Ant.mem_all a)
    have many : 6 ≤ (ns.filterMap Ant.ofNat?).length :=
      Ant.all_nodup.length_le_of_subset fun a _ => every a
    have most := List.length_filterMap_le Ant.ofNat? ns
    refine ⟨filterMap_length_eq (fun n a h => ?_) (by omega), every⟩
    unfold Ant.ofNat? at h
    split at h <;> cases h <;> rfl
  · cases h

/-- A WIND record that is accepted has its figures in their ranges, rising from class to class (R122). -/
theorem WindFigures.accepted_spec {f : WindFigures} {r : WindRecord} (h : WindFigures.accepted f = some r) :
    (r.breezy = Pair.clamp f.breezy ∧ r.strong = Pair.clamp f.strong ∧ r.stow = Pair.clamp f.stow)
    ∧ r.filter = f.filter ∧ r.filter ∈ [1, 2, 4, 8] ∧ r.order.map Ant.num = f.order ∧ (∀ a, a ∈ r.order)
    ∧ (r.holdDown : Int) = max 300 (min 3600 f.holdDown) ∧ (r.silence : Int) = max 10 (min 120 f.silence)
    ∧ r.elevation = max 85000 (min 90000 f.elevation)
    ∧ (r.breezy.mean ≤ r.strong.mean ∧ r.strong.mean ≤ r.stow.mean)
    ∧ (r.breezy.gust ≤ r.strong.gust ∧ r.strong.gust ≤ r.stow.gust) := by
  unfold WindFigures.accepted at h
  dsimp only at h
  split at h
  · rename_i fits
    simp only [Bool.and_eq_true, pairRises, filterAllowed, Bool.or_eq_true, decide_eq_true_eq] at fits
    obtain ⟨⟨filter, low⟩, high⟩ := fits
    obtain ⟨order, spells, rfl⟩ := Option.map_eq_some_iff.mp h
    obtain ⟨same, every⟩ := stowOrder_spec spells
    have ranged (lo hi : Int) (le : lo ≤ hi) (pos : 0 ≤ lo) (x : Int) :
        ((clampInt lo hi x).toNat : Int) = max lo (min hi x) := by
      rw [clampInt_eq le, Int.toNat_of_nonneg (pos.trans (le_max_left ..))]
    refine ⟨⟨rfl, rfl, rfl⟩, rfl, ?_, same, every, ranged 300 3600 (by decide) (by decide) _,
      ranged 10 120 (by decide) (by decide) _, clampInt_eq (by decide) _, ⟨low.1, high.1⟩, low.2, high.2⟩
    show (WindFigures.clamp f).filter ∈ _
    simpa [or_assoc] using filter
  · cases h

/-! ### The demand -/

theorem Answer.finish_wind (r : Answer) (b : Bool) (s : State) (l : Link) (k : Kind) (tag : Byte) :
    (r.finish b s l k tag).wind = r.state.wind := (r.finish_moves b s l k tag).touches.same .wind (by decide)

/-- A frame taken on Safety ends SILENCE (R121). -/
theorem State.takeFrame_safety_wind (s : State) : (s.takeFrame .safety).wind = { s.wind with silence := false } := rfl

/-- The silence timer that a frame has restarted has not run out (R121, R192). -/
theorem safetySilent_takeFrame {s t : State} (wind : t.wind.silence = false) (now : t.now = s.now)
    (timer : (t.link .safety).silence = restartSilence s.now (s.link .safety).silence)
    (long : 0 < t.wind.record.silence) : t.safetySilent = false := by
  unfold State.safetySilent
  rw [timer, now, wind]
  unfold restartSilence passed
  cases (s.link .safety).silence
  · rfl
  · simp; omega

/-- A WIND record taken from a frame leaves no SILENCE standing (R121, R122; log 31). -/
theorem writeWind_wind (s : State) (r : WindRecord) (long : 0 < r.silence) :
    ((s.takeFrame .safety).writeWind r).wind = { s.wind with record := r, silence := false }
      ∧ ((s.takeFrame .safety).writeWind r).store
        = s.store.queueWrite .wind s.now s.field.supplyGood := by
  have quiet : (({ s.takeFrame .safety with wind := { (s.takeFrame .safety).wind with record := r } }).queueWrite
      .wind).safetySilent = false := by
    refine safetySilent_takeFrame (s := s) rfl rfl ?_ long
    show ((s.takeFrame .safety).link .safety).silence = _
    rw [State.takeFrame_own]
    rfl
  rw [State.writeWind]
  dsimp only
  rw [if_neg (by rw [quiet]; exact Bool.false_ne_true)]
  exact ⟨rfl, rfl⟩

/-- STOW_DEMAND sets the SAFETY source, and answers with the set (R133). -/
theorem setSafety_demand {s : State} {c : Instr} {l : Link} {k : Kind} {tag : Byte} {r : Answer} {v : Bool}
    (of : requestOf c = some (l, k, tag)) (safety : l = .safety)
    (hr : r = okWith ((s.takeFrame l).setSafety v).sources ((s.takeFrame l).setSafety v)) :
    (r.finish true s l k tag).wind = { s.wind with safety := v, silence := false }
      ∧ (r.finish true s l k tag).answers c .ok (.sources (decide (s.wind.cls = .stow)) v false) = true := by
  subst safety hr
  have wind : ((s.takeFrame .safety).setSafety v).wind = { s.wind with safety := v, silence := false } :=
    State.changeWind_wind ..
  refine ⟨(Answer.finish_wind ..).trans wind, ?_⟩
  have answered := Answer.finish_answers (b := true) (s := s) of
    (r := okWith ((s.takeFrame .safety).setSafety v).sources ((s.takeFrame .safety).setSafety v))
  simpa only [okWith, State.sources, wind] using answered

/-- Settles O51: each source as its request or timer leaves it; what follows an event leaves the wind alone. -/
theorem sourcesMakeTheDemand : Obligations.SourcesMakeTheDemand := by
  intro s tag
  refine ⟨fun c hc ok => ?demand, fun e on silent timer due => ?silence, fun f ok => ?record⟩
  case demand =>
    rcases List.mem_cons.mp hc with rfl | hc
    · obtain ⟨l, k, tag', r, of, -, run, hr⟩ := stowDemandOn_served.admitted ok
      exact ⟨_, run, setSafety_demand of (by cases of; rfl) hr⟩
    · obtain rfl := List.mem_singleton.mp hc
      obtain ⟨l, k, tag', r, of, -, run, hr⟩ := stowDemandOff_served.admitted ok
      exact ⟨_, run, setSafety_demand of (by cases of; rfl) hr⟩
  case silence =>
    have passes : s.safetySilent = true := by
      rw [State.safetySilent, silent, timer]
      exact decide_eq_true due
    refine ⟨_, occur_due on passes, (event_same (p := .wind) s _ (by decide)).trans ?_⟩
    exact State.changeWind_wind ..
  case record =>
    have rows := State.admits_rows ok
    have stores : s.store.refuses .wind = false := by
      have row := rows (s.storable .wind, .full) (by simp [checksOf])
      simpa [State.storable] using row
    obtain ⟨l, k, tag', r, of, -, run, v, accepted, rfl⟩ := (configWriteWind_served f).admitted ok
    obtain ⟨⟨breezy, strong, stow⟩, filter, allowed, order, every, hold, silence, rest⟩ :=
      WindFigures.accepted_spec accepted
    have answered := Answer.finish_answers (b := true) (s := s) of
      (r := okOrClamped (decide (WindFigures.clamp f ≠ f)) (.windRecord v) ((s.takeFrame l).writeWind v))
    obtain rfl : l = .safety := by cases of; rfl
    obtain ⟨wind, store⟩ := writeWind_wind s v (by omega)
    refine ⟨_, v, run, (Answer.finish_wind ..).trans wind, ?_, ?_, filter, allowed, order, every, hold, silence, rest.1,
      rest.2.1, rest.2.2, ?_⟩
    · by_cases same : WindFigures.clamp f = f
      · rw [if_pos same]; simpa [okOrClamped, same] using answered
      · rw [if_neg same]; simpa [okOrClamped, same] using answered
    · exact ⟨breezy.trans (Pair.clamp_eq _), strong.trans (Pair.clamp_eq _), stow.trans (Pair.clamp_eq _)⟩
    · rw [Answer.finish_same (p := .store) _ _ _ _ _ (by decide)]
      show Store.owes ((s.takeFrame .safety).writeWind v).store _
      rw [store]
      exact Store.owes_queueWrite_self (.inl stores) rfl ..

end Sys2Proof.Machine
end

