-- ==== Sys2Proof/Proofs/IceWeather.lean ====
section
/-! PROOFS. Ice and weather (R151 to R154). -/

namespace Sys2Proof.Machine

variable {s t : State}

/-! ### Requested levels formed afresh -/

/-- What a zone asks for follows its settings and its request's figures alone (R145 to R148). -/
theorem Zone.wanted_congr {u v : Zone} (set : v.settings = u.settings) (asked : v.requests = u.requests)
    (c : IceClass) : v.wanted c = u.wanted c := by
  simp only [Zone.settings, Zone.requests, Prod.mk.injEq] at set asked
  obtain ⟨hr, hm, hl⟩ := set
  obtain ⟨read, well, force, -, -⟩ := asked
  simp only [Zone.record, ZoneRecord.mk.injEq] at hr
  obtain ⟨-, frame, -, idle, melt, band, -⟩ := hr
  simp only [Zone.wanted, Zone.autoLevel, *]

theorem Zone.lowerTo_keeps (v : Zone) (c : Nat) :
    (v.lowerTo c).settings = v.settings ∧ (v.lowerTo c).requests = v.requests := by
  unfold Zone.lowerTo
  split <;> exact ⟨rfl, rfl⟩

/-- The zone asks for what its mode wants (R145 to R148). -/
def State.Formed (s : State) (z : ZoneId) : Prop := (s.zone z).requested = (s.zone z).wanted (s.iceClass z.ant)

theorem State.Formed.congr {z : ZoneId} (h : s.Formed z) (set : (t.zone z).settings = (s.zone z).settings)
    (asked : (t.zone z).requests = (s.zone z).requests) (ice : t.iceClass z.ant = s.iceClass z.ant) : t.Formed z := by
  have same : (t.zone z).requested = (s.zone z).requested := congrArg (fun q => q.2.2.2.1) asked
  rw [State.Formed, same, Zone.wanted_congr set asked, ice]
  exact h

theorem State.ice_of_same (h : Part.ice.same s t) : t.ice = s.ice := by
  funext a
  unfold State.ice
  rw [show t.heat.ice = s.heat.ice from h]

theorem State.iceClass_congr (h : t.ice = s.ice) (a : Ant) : t.iceClass a = s.iceClass a := by
  unfold State.iceClass
  rw [h]

theorem State.lowerZone_keeps (s : State) (b : Bool) (z y : ZoneId) :
    ((s.lowerZone b z).zone y).settings = (s.zone y).settings
    ∧ ((s.lowerZone b z).zone y).requests = (s.zone y).requests
    ∧ (s.lowerZone b z).ice = s.ice := by
  have marked (u : State) (d : Bool) : (u.markFreedIf d).zone = u.zone ∧ (u.markFreedIf d).ice = u.ice := by
    cases d <;> exact ⟨rfl, rfl⟩
  unfold State.lowerZone
  dsimp only
  rw [(marked _ _).1, (marked _ _).2]
  refine ⟨?_, ?_, rfl⟩ <;> rw [State.zone_modZone] <;> split
  · rename_i h; subst h; exact (Zone.lowerTo_keeps ..).1
  · rfl
  · rename_i h; subst h; exact (Zone.lowerTo_keeps ..).2
  · rfl

theorem State.formLevel_formed (s : State) (z : ZoneId) : (s.formLevel z).Formed z := by
  unfold State.Formed
  rw [State.formLevel, State.zone_modZone, if_pos rfl, State.iceClass_modZone]
  rfl

theorem State.Formed.kept {z : ZoneId} (h : s.Formed z) (set : Part.zoneSettings.same s t)
    (asked : Part.zoneRequests.same s t) (ice : Part.ice.same s t) : t.Formed z :=
  h.congr (set z) (asked z) (by unfold State.iceClass; rw [State.ice_of_same ice])

theorem State.refreshZone_formed (s : State) (z : ZoneId) : (s.refreshZone z).Formed z :=
  let ⟨set, asked, ice⟩ := (s.formLevel z).lowerZone_keeps true z z
  (s.formLevel_formed z).congr set asked (State.iceClass_congr ice _)

theorem State.refreshZone_others (s : State) {z y : ZoneId} (h : y ≠ z) :
    ((s.refreshZone z).zone y).settings = (s.zone y).settings
    ∧ ((s.refreshZone z).zone y).requests = (s.zone y).requests
    ∧ (s.refreshZone z).ice = s.ice := by
  obtain ⟨set, asked, ice⟩ := (s.formLevel z).lowerZone_keeps true z y
  rw [State.formLevel, State.zone_modZone, if_neg h] at set asked
  exact ⟨set, asked, ice⟩

theorem State.refreshZone_keepsFormed {z y : ZoneId} (h : s.Formed y) : (s.refreshZone z).Formed y := by
  by_cases e : y = z
  · subst e; exact s.refreshZone_formed y
  · obtain ⟨set, asked, ice⟩ := s.refreshZone_others e
    exact h.congr set asked (State.iceClass_congr ice _)

/-- A change of an antenna's ice class forms its zones' levels afresh (R154). -/
theorem State.refreshZones_formed (s : State) (a : Ant) (k : ZoneClass) : (s.refreshZones a).Formed ⟨a, k⟩ := by
  cases k
  case pin => exact State.refreshZone_keepsFormed (State.refreshZone_keepsFormed (State.refreshZone_formed ..))
  case gear => exact State.refreshZone_keepsFormed (State.refreshZone_formed ..)
  case surface => exact State.refreshZone_formed ..

/-! ### The ice timers (R152, R153) -/

/-- The ice figures of an antenna once its timers follow their conditions. -/
def State.timed (s : State) (a : Ant) : Ice :=
  { s.ice a with wetTimer := runWhile s.now (s.wetHolds a) (s.ice a).wetTimer
                 freezeTimer := runWhile s.now (s.freezeHolds a) (s.ice a).freezeTimer
                 thawTimer := runWhile s.now (s.thawHolds a) (s.ice a).thawTimer }

theorem State.runIceTimers_ice (s : State) (a b : Ant) :
    (s.runIceTimers b).ice a = if a = b then s.timed b else s.ice a := s.ice_modIce b a _

theorem runWhile_twice (now : Epoch) (b : Bool) (x : Timer) : runWhile now b (runWhile now b x) = runWhile now b x := by
  cases b <;> cases x <;> rfl

/-- Running the timers of an antenna again, or another's, changes nothing of them. -/
theorem State.timed_runIceTimers (s : State) (a b : Ant) : (s.runIceTimers b).timed a = s.timed a := by
  have ice := s.runIceTimers_ice a b
  unfold State.timed State.wetHolds State.freezeHolds State.thawHolds
  rw [ice]
  split
  · rename_i h
    subst h
    simp only [State.timed, Ice.mk.injEq, true_and]
    exact ⟨runWhile_twice .., runWhile_twice .., runWhile_twice ..⟩
  · rfl

theorem runEvery_ice (as : List Ant) (s : State) (a : Ant) :
    (forEach as (fun s b => s.runIceTimers b) s).ice a = if a ∈ as then s.timed a else s.ice a := by
  induction as generalizing s with
  | nil => rfl
  | cons b as ih =>
    rw [show forEach (b :: as) (fun s b => s.runIceTimers b) s
      = forEach as (fun s b => s.runIceTimers b) (s.runIceTimers b) from rfl, ih, State.timed_runIceTimers,
      State.runIceTimers_ice]
    by_cases rest : a ∈ as
    · simp [rest]
    · by_cases first : a = b
      · subst first; simp
      · simp [rest, first]

theorem State.runAllIceTimers_ice (s : State) (a : Ant) : s.runAllIceTimers.ice a = s.timed a := by
  rw [State.runAllIceTimers, runEvery_ice, if_pos (Ant.mem_all a)]

/-- A tracked class is set with fresh timers, and forms the levels afresh (R152 to R154). -/
theorem State.setTracked_ice (s : State) (a : Ant) (c : IceClass) :
    (s.setTracked a c).ice a = State.timed
      (s.modIce a fun i => { i with tracked := c, wetTimer := none, freezeTimer := none, thawTimer := none }) a := by
  refine (congrArg (·.get a) ((Moves.afterIceChange _ a).touches.same .ice (by decide))).trans ?_
  exact (State.runIceTimers_ice _ a a).trans (if_pos rfl)

/-- The figures of an antenna given a tracked class now, its timers fresh (R152, R153). -/
def State.restarted (s : State) (a : Ant) (c : IceClass) : Ice :=
  ⟨c, (s.ice a).floor, if c = .none ∧ s.coldWet = true then some s.now else none,
    if c = .light ∧ s.coldWet = true ∧ (s.zone ⟨a, .surface⟩).frozen = true then some s.now else none,
    if c ≠ .none ∧ s.precipInUse = false ∧ (s.zone ⟨a, .surface⟩).thawed = true then some s.now else none⟩

theorem State.setTracked_restarted (s : State) (a : Ant) (c : IceClass) :
    (s.setTracked a c).ice a = s.restarted a c := by
  rw [State.setTracked_ice]
  unfold State.timed State.wetHolds State.freezeHolds State.thawHolds
  simp only [State.ice_modIce, if_pos, State.zone_modIce]
  have same {f : Ice → Ice} : (s.modIce a f).coldWet = s.coldWet ∧ (s.modIce a f).precipInUse = s.precipInUse
      ∧ (s.modIce a f).now = s.now := ⟨rfl, rfl, rfl⟩
  simp [State.restarted, runWhile, same.1, same.2.1, same.2.2, and_assoc]

theorem State.setTracked_formed (s : State) (a : Ant) (c : IceClass) (k : ZoneClass) :
    (s.setTracked a c).Formed ⟨a, k⟩ := by
  unfold State.setTracked State.afterIceChange
  exact State.refreshZones_formed ..

/-- A timer that has run its time gives the antenna its class, its timers start afresh, and so do the levels of its
zones (R152 to R154). -/
theorem tracked_event (s : State) (a : Ant) (c : IceClass) :
    (event s fun s => s.setTracked a c).ice a = s.restarted a c
    ∧ ∀ k, (event s fun s => s.setTracked a c).Formed ⟨a, k⟩ := by
  have same {p} := event_same (p := p) s (fun s => s.setTracked a c)
  have ice := State.ice_of_same (same (p := .ice) (by decide))
  refine ⟨(congrFun ice a).trans (s.setTracked_restarted a c), fun k => ?_⟩
  have set := same (p := .zoneSettings) (by decide)
  have asked := same (p := .zoneRequests) (by decide)
  exact (s.setTracked_formed a c k).congr (set _) (asked _) (State.iceClass_congr ice a)

theorem tracked_row (s : State) (a : Ant) {c x : IceClass} (h : c = x) {i : Instr}
    (run : exec i s = .next (event s fun s => s.setTracked a c)) :
    ∃ t, exec i s = .next t ∧ (t.ice a).tracked = x ∧ (t.ice a).floor = (s.ice a).floor
      ∧ (t.ice a).wetTimer = (if x = .none ∧ s.coldWet = true then some s.now else none)
      ∧ (t.ice a).freezeTimer = (if x = .light ∧ s.coldWet = true
          ∧ (s.zone ⟨a, .surface⟩).frozen = true then some s.now else none)
      ∧ (t.ice a).thawTimer = (if x ≠ .none ∧ s.precipInUse = false
          ∧ (s.zone ⟨a, .surface⟩).thawed = true then some s.now else none)
      ∧ ∀ k, (t.zone ⟨a, k⟩).requested = (t.zone ⟨a, k⟩).wanted (t.iceClass a) := by
  subst h
  obtain ⟨ice, formed⟩ := tracked_event s a c
  refine ⟨_, run, ?_⟩
  rw [ice]
  exact ⟨rfl, rfl, rfl, rfl, rfl, formed⟩

theorem passed_of {now : Epoch} {x : Timer} {ms : Int} (h : ∃ e, x = some e ∧ e + ms ≤ now) :
    passed now x ms = true := by
  obtain ⟨e, rfl, run⟩ := h
  exact decide_eq_true run

theorem setFloor_ice (s : State) (a : Ant) (c : IceClass) : (s.setFloor a c).ice a = { s.ice a with floor := c } := by
  have set : (s.modIce a fun i => { i with floor := c }).ice a = { s.ice a with floor := c } :=
    (State.ice_modIce ..).trans (if_pos rfl)
  unfold State.setFloor
  dsimp only
  split
  · exact set
  · exact (congrArg (·.get a) ((Moves.afterIceChange _ a).touches.same .ice (by decide))).trans set

theorem setFloor_formed (s : State) (a : Ant) (c : IceClass) (h : iceMax (s.ice a).tracked c ≠ s.iceClass a)
    (k : ZoneClass) : (s.setFloor a c).Formed ⟨a, k⟩ := by
  have set : (s.modIce a fun i => { i with floor := c }).iceClass a = iceMax (s.ice a).tracked c := by
    unfold State.iceClass
    rw [State.ice_modIce, if_pos rfl]
  unfold State.setFloor
  dsimp only
  rw [if_neg (set ▸ h)]
  exact State.refreshZones_formed ..

/-- An ICE_FLOOR sets the floor and forms the levels afresh where the class changes (R154). -/
theorem floor_request {tag : Byte} {a : Ant} {c : IceClass} (ok : s.admits (.iceFloor tag a.num (some c)) = true) :
    ∃ t, exec (.iceFloor tag a.num (some c)) s = .next t ∧ t.ice a = { s.ice a with floor := c }
      ∧ t.answers (.iceFloor tag a.num (some c)) .ok (.ice (s.ice a).tracked c (iceMax (s.ice a).tracked c)) = true
      ∧ (iceMax (s.ice a).tracked c ≠ s.iceClass a → ∀ k,
          (t.zone ⟨a, k⟩).requested = (t.zone ⟨a, k⟩).wanted (iceMax (s.ice a).tracked c)) := by
  obtain ⟨l, k, tag', r, of, on, run, a', c', ha, hc, hr⟩ := (iceFloor_served (some c)).admitted ok
  obtain rfl : a' = a := by simpa using ha.symm
  obtain rfl : c = c' := Option.some.inj hc
  subst hr
  have ice : ((s.takeFrame l).setFloor a' c).ice a' = { s.ice a' with floor := c } := setFloor_ice ..
  have body : ((s.takeFrame l).setFloor a' c).iceReply a' = .ice (s.ice a').tracked c (iceMax (s.ice a').tracked c) := by
    unfold State.iceReply State.iceClass
    rw [ice]
  rw [body] at run
  have same {p} (h : p ∉ .links :: followParts) := Answer.finish_same (p := p)
    (okWith (.ice (s.ice a').tracked c (iceMax (s.ice a').tracked c)) ((s.takeFrame l).setFloor a' c)) s l k tag' h
  have kept := (congrFun (State.ice_of_same (same (p := .ice) (by decide))) a').trans ice
  refine ⟨_, run, kept, Answer.finish_answers of, fun changed k => ?_⟩
  have formed : ((s.takeFrame l).setFloor a' c).Formed ⟨a', k⟩ := setFloor_formed (s.takeFrame l) a' c changed k
  have out := formed.kept (same (p := .zoneSettings) (by decide)) (same (p := .zoneRequests) (by decide))
    (same (p := .ice) (by decide))
  unfold State.Formed State.iceClass at out
  rw [kept] at out
  exact out

theorem State.precipInUse_known {w : Weather} (known : s.heat.weather = some w) :
    s.precipInUse = (w.stale s.now || w.precip) := by
  unfold State.precipInUse
  rw [known]

/-- The wet timer of an antenna follows a report (R151, R152). -/
theorem State.timed_wet {w : Weather} (known : s.heat.weather = some w) (a : Ant) :
    (s.timed a).wetTimer = if (s.ice a).tracked = .none ∧ w.temp ≤ 10 ∧ s.precipInUse = true
      then some ((s.ice a).wetTimer.getD s.now) else none := by
  have cold : s.coldWet = (decide (w.temp ≤ 10) && s.precipInUse) := by
    unfold State.coldWet
    rw [known]
  simp [State.timed, State.wetHolds, runWhile, cold]

/-- A report stands as the weather since now, and the wet timers follow it (R151, R152). -/
theorem report_request {tag : Byte} {temp : Int} {precip : Bool} (a : Ant) (ok : s.admits (.weather tag temp precip) = true) :
    ∃ t, exec (.weather tag temp precip) s = .next t ∧ t.answers (.weather tag temp precip) .ok .empty = true
      ∧ t.heat.weather = some ⟨temp, precip, s.now⟩ ∧ (t.ice a).tracked = (s.ice a).tracked
      ∧ (t.ice a).wetTimer = (if (s.ice a).tracked = .none ∧ temp ≤ 10 ∧ precip = true
          then some ((s.ice a).wetTimer.getD s.now) else none) := by
  obtain ⟨l, k, tag', r, of, on, run, hr⟩ := (weather_served temp precip).admitted ok
  subst hr
  have same {p} (h : p ∉ [.links]) := Answer.finish_serve_same (p := p)
    (okWith .empty ((s.takeFrame l).report temp precip)) s l k tag' h
  have known := same (p := .weather) (by decide)
  have ice := (congrFun (State.ice_of_same (same (p := .ice) (by decide))) a).trans (State.runAllIceTimers_ice _ a)
  have kept : ((s.takeFrame l).report temp precip).heat.weather = some ⟨temp, precip, s.now⟩ :=
    (Moves.runAllIceTimers _).touches.same .weather (by decide)
  have fresh : Weather.stale ⟨temp, precip, s.now⟩ s.now = false := by
    rw [Weather.stale, sub_self]; rfl
  refine ⟨_, run, Answer.finish_answers of, known.trans kept, ?_, ?_⟩
  · rw [ice]; rfl
  · rw [ice, State.timed_wet rfl, State.precipInUse_known rfl]
    exact congrArg (fun b => if (s.ice a).tracked = .none ∧ temp ≤ 10 ∧ (b || precip) = true
      then some ((s.ice a).wetTimer.getD s.now) else none) fresh

/-- A stale report leaves the precipitation taken as given, and the timers follow it (R151). -/
theorem stale_event {w : Weather} (a : Ant) (on : s.powered = true) (known : s.heat.weather = some w)
    (old : 120000 < s.now - w.epoch) :
    ∃ t, exec .weatherStale s = .next t ∧ t.precipInUse = true ∧ (t.ice a).thawTimer = none
      ∧ (t.ice a).wetTimer = (if (s.ice a).tracked = .none ∧ w.temp ≤ 10
          then some ((s.ice a).wetTimer.getD s.now) else none) := by
  have stale : w.stale s.now = true := decide_eq_true old
  have due : s.weatherStale = true := by
    unfold State.weatherStale
    rw [known]
    exact stale
  have moved : Moves [.ice] s s.runAllIceTimers := .runAllIceTimers s
  have given : s.precipInUse = true := by rw [State.precipInUse_known known, stale]; rfl
  have told := (Moves.announce s s.runAllIceTimers).touches
  have ice := (congrFun (State.ice_of_same (told.same .ice (by decide))) a).trans (s.runAllIceTimers_ice a)
  have weather := ((told.same .weather (by decide)).trans (moved.touches.same .weather (by decide))).trans known
  have now := (told.same .clock (by decide)).trans (moved.touches.same .clock (by decide))
  refine ⟨announce s s.runAllIceTimers, ?_, ?_, ?_, ?_⟩
  · rw [show exec .weatherStale s = occurAlone s s.weatherStale fun s => s.runAllIceTimers from rfl, occurAlone,
      onPower, if_pos on, if_pos due]
  · rw [State.precipInUse_known weather, State.now, now]
    exact (congrArg (· || w.precip) stale).trans (Bool.true_or _)
  · rw [ice, State.timed, State.thawHolds, given]
    simp [runWhile]
  · rw [ice, State.timed_wet known, given]
    simp

/-- Settles O57: each row through the figures it leaves to its antenna, with the levels formed from them. -/
theorem iceFollowsTheWeather : Obligations.IceFollowsTheWeather := by
  unfold Obligations.IceFollowsTheWeather
  intro s tag a
  refine ⟨fun c => floor_request, fun row hrow on due => ?_, fun temp precip => report_request a,
    fun w on known old => stale_event a on known old⟩
  simp only [List.mem_cons, List.not_mem_nil, or_false] at hrow
  obtain rfl | rfl | rfl := hrow <;> dsimp only at due ⊢
  · obtain ⟨dry, wet, ran⟩ := due
    have late : s.wetOver a = true := by rw [State.wetOver, State.wetHolds, dry, wet, passed_of ran]; rfl
    exact tracked_row s a rfl (occur_due on late)
  · obtain ⟨light, wet, cold, ran⟩ := due
    have late : s.freezeOver a = true := by
      rw [State.freezeOver, State.freezeHolds, light, wet, cold, passed_of ran]; rfl
    exact tracked_row s a rfl (occur_due on late)
  · obtain ⟨iced, dry, warm, ran⟩ := due
    have down : iceDown (s.ice a).tracked = if (s.ice a).tracked = .heavy then .light else .none := by
      cases (s.ice a).tracked <;> rfl
    have late : s.thawOver a = true := by
      rw [State.thawOver, State.thawHolds, decide_eq_true iced, dry, warm, passed_of ran]; rfl
    exact tracked_row s a down ((occur_due on late).trans (congrArg _ (event_congr rfl)))

end Sys2Proof.Machine
end

