-- ==== Sys2Proof/Proofs/BurstEnds.lean ====
section
/-! PROOFS. BURST_CLOSE and BURST_ABORT (R57 to R59). -/

namespace Sys2Proof.Machine

variable {s t : State} {l : Link} {k : Kind} {tag : Byte}

/-! ### Requests that no check precedes -/

/-- A request that reaches other blocks answers by its owner's rule and settles what follows. -/
theorem request_takes (takes : s.takes l k tag) (open_ : k.openTo l = true) (owner : State → Answer) :
    request l k tag s owner = .next ((owner (s.takeFrame l)).finish true s l k tag) := by
  have decided : dispatch l k owner = owner := funext fun u => if_pos open_
  rw [request, onPower, if_pos takes.1, if_pos takes.2, decided]
  rfl

theorem serve_takes (takes : s.takes l k tag) (open_ : k.openTo l = true) (owner : State → Answer) :
    serve l k tag s owner = .next ((owner (s.takeFrame l)).finish false s l k tag) := by
  have decided : dispatch l k owner = owner := funext fun u => if_pos open_
  rw [serve, onPower, if_pos takes.1, if_pos takes.2, decided]
  rfl

/-! ### The channel and the queue once a burst ends -/

theorem State.slotsFreed_track (s : State) (a : Ant) :
    ((s.slotsFreed a).track a).segments = (s.track a).segments ∧ ((s.slotsFreed a).track a).run = (s.track a).run := by
  unfold State.slotsFreed
  split
  · rw [show ∀ u : State, (u.raise (antFlag .track a)).track = u.track from fun _ => rfl, State.track_modTrack, if_pos rfl]
    exact ⟨rfl, rfl⟩
  · exact ⟨rfl, rfl⟩

/-- A discarded burst leaves the channel closed and what is QUEUED or ACTIVE (R57, R58). -/
theorem State.discardBurst_spec (s : State) (a : Ant) :
    (s.discardBurst a).burst = s.burst.closed ∧ ((s.discardBurst a).track a).segments = (s.track a).live
    ∧ ((s.discardBurst a).track a).run = (s.track a).run := by
  refine ⟨(Moves.discardStaged _ a).touches.same .burst (by decide), ?_, ?_⟩
  · refine (State.slotsFreed_track _ a).1.trans ?_
    rw [State.track_modTrack, if_pos rfl]
    rfl
  · refine (State.slotsFreed_track _ a).2.trans ?_
    rw [State.track_modTrack, if_pos rfl]
    rfl

theorem Track.live_of_discarded {q r : Track} (h : r.segments = q.live) : r.live = q.live ∧ r.stagedSegments = [] := by
  rw [Track.live, Track.stagedSegments, h]
  refine ⟨by rw [Track.live, List.filter_filter]; simp, ?_⟩
  rw [Track.live, List.filter_filter]
  simp

/-- A queue that halts leaves a closed channel as it is (R59). -/
theorem State.haltQueue_burst (s : State) (a : Ant) (r : HaltReason) (closed : s.burst.ant = none) :
    (s.haltQueue a r).burst = s.burst := by
  unfold State.haltQueue
  split
  · rfl
  have let_go : ((s.modTrack a fun t => t.halt r).releaseRun a).burst = s.burst :=
    (Follows.releaseRun _ a).touches.same .burst (by decide)
  have kept : (((s.modTrack a fun t => t.halt r).releaseRun a).terminateBurst a r.termination).burst = s.burst := by
    unfold State.terminateBurst
    rw [if_neg (by rw [let_go, closed]; exact nofun), let_go]
  exact ((Moves.slotsFreed _ a).touches.same .burst (by decide)).trans kept

theorem State.beginQueue_burst (s : State) (a : Ant) (first : Epoch) (closed : s.burst.ant = none) :
    (s.beginQueue a first).burst = s.burst := by
  have prepared : (s.prepareQueue a).burst = s.burst := by
    unfold State.prepareQueue
    dsimp only
    split
    · exact State.haltQueue_burst _ a _ closed
    · exact (Follows.forEach (fun s i => Follows.addClaim s i .queue) _ _).touches.same .burst (by decide)
  unfold State.beginQueue
  dsimp only
  split
  · rfl
  · split
    · split
      · exact (State.haltQueue_burst _ a _ (prepared ▸ closed)).trans prepared
      · exact prepared
    · exact prepared

/-! ### The commit (R57) -/

/-- The segments of a queue once the STAGED ones are QUEUED. -/
def Track.queued (q : Track) : List Segment :=
  q.segments.map fun (g : Segment) => if g.state = .staged then { g with state := .queued } else g

/-- The first start epoch after a commit is that of the queue's head. -/
theorem Track.commit_firstStart (q : Track) : q.commit.firstStart = q.queued.head?.map Segment.start := by
  have all : q.commit.live = q.queued := by
    refine List.filter_eq_self.mpr fun g hg => ?_
    obtain ⟨g', -, rfl⟩ := List.mem_map.mp hg
    split
    · rfl
    · rename_i h; exact decide_eq_true h
  rw [Track.firstStart, all]

theorem State.commitBurst_burst (s : State) (a : Ant) : (s.commitBurst a).burst = s.burst.closed := by
  unfold State.commitBurst
  dsimp only
  split
  · rfl
  · split
    · exact State.beginQueue_burst _ a _ rfl
    · rfl

/-- The state of a commit before its queue begins. -/
def State.burstCommitted (s : State) (a : Ant) : State := ({ s with burst := s.burst.closed }).modTrack a Track.commit

theorem State.burstCommitted_track (s : State) (a : Ant) :
    ((s.burstCommitted a).track a).segments = (s.track a).queued ∧ ((s.burstCommitted a).track a).run = (s.track a).run
    ∧ ((s.burstCommitted a).track a).firstStart = (s.track a).queued.head?.map Segment.start := by
  have h : (s.burstCommitted a).track a = (s.track a).commit := by
    rw [State.burstCommitted, State.track_modTrack, if_pos rfl]
    rfl
  rw [h]
  exact ⟨rfl, rfl, Track.commit_firstStart _⟩

theorem State.commitBurst_running (s : State) (a : Ant) (h : (s.track a).run ≠ .idle) :
    s.commitBurst a = s.burstCommitted a := by
  unfold State.commitBurst
  rw [decide_eq_false h]
  dsimp only
  split <;> rfl

theorem State.commitBurst_idle (s : State) (a : Ant) {g : Segment} (idle : (s.track a).run = .idle)
    (head : (s.track a).queued.head? = some g) : s.commitBurst a = (s.burstCommitted a).beginQueue a g.start := by
  have first : (({ s with burst := s.burst.closed } : State).modTrack a Track.commit |>.track a).firstStart
      = some g.start := by
    rw [show (({ s with burst := s.burst.closed } : State).modTrack a Track.commit) = s.burstCommitted a from rfl,
      (s.burstCommitted_track a).2.2, head]
    rfl
  unfold State.commitBurst
  dsimp only
  rw [first, decide_eq_true idle]
  rfl

/-! ### A queue begins (R57, R60) -/

theorem Track.of_plain {q r : Track} (h : q.plain = r.plain) : q.segments = r.segments ∧ q.run = r.run := by
  have segments := congrArg Track.segments h
  have run := congrArg Track.run h
  exact ⟨segments, run⟩

theorem AxisState.cause_none {x : AxisState} (h : x.isFaulted = false) : x.cause = none := by
  cases x
  case faulted => cases h
  all_goals rfl

theorem State.faultedAxis_none {a : Ant} (h : s.anyFaulted a = false) : s.faultedAxis a = none := by
  obtain ⟨az, el⟩ := Bool.or_eq_false_iff.mp h
  unfold State.faultedAxis
  rw [show (s.axis ⟨a, .az⟩).state.cause = none from AxisState.cause_none az,
    show (s.axis ⟨a, .el⟩).state.cause = none from AxisState.cause_none el]
  rfl

theorem State.prepareQueue_track {a : Ant} (h : s.anyFaulted a = false) :
    ((s.prepareQueue a).track a).segments = (s.track a).segments ∧ ((s.prepareQueue a).track a).run = .preparing := by
  have none_ : (s.modTrack a fun t => { t with run := .preparing }).faultedAxis a = none := State.faultedAxis_none h
  have claimed := (Follows.forEach (fun s i => Follows.addClaim s i .queue) a.axes
    (s.modTrack a fun t => { t with run := .preparing })).touches.same .queues (by decide) a
  rw [State.track_modTrack, if_pos rfl] at claimed
  have e : s.prepareQueue a = forEach a.axes (fun s i => s.addClaim i .queue)
      (s.modTrack a fun t => { t with run := .preparing }) := by
    unfold State.prepareQueue
    rw [show s.faultedAxis a = none from none_]
  rw [e]
  exact Track.of_plain claimed

theorem State.beginQueue_track {a : Ant} {first : Epoch} :
    (s.now + 2000 < first → ((s.beginQueue a first).track a).segments = (s.track a).segments
      ∧ ((s.beginQueue a first).track a).run = .waiting)
    ∧ (s.now < first → first ≤ s.now + 2000 → s.anyFaulted a = false →
      ((s.beginQueue a first).track a).segments = (s.track a).segments
      ∧ ((s.beginQueue a first).track a).run = .preparing) := by
  unfold State.beginQueue
  refine ⟨fun later => ?_, fun ahead near well => ?_⟩
  · rw [if_pos later, State.track_modTrack, if_pos rfl]
    exact ⟨rfl, rfl⟩
  · rw [if_neg (not_lt.mpr near)]
    dsimp only
    rw [if_neg fun h => absurd h.2 (not_le.mpr ahead)]
    exact State.prepareQueue_track well

/-! ### The answers -/

/-- What a request that reaches other blocks leaves of the channel and of a queue. -/
theorem Answer.finish_queue (r : Answer) (s : State) (l : Link) (k : Kind) (tag : Byte) (a : Ant) :
    (r.finish true s l k tag).burst = r.state.burst
    ∧ ((r.finish true s l k tag).track a).segments = (r.state.track a).segments
    ∧ ((r.finish true s l k tag).track a).run = (r.state.track a).run := by
  exact ⟨r.finish_same (p := .burst) s l k tag (by decide),
    Track.of_plain (r.finish_same (p := .queues) s l k tag (by decide) a)⟩

/-- A first error decides the close (R57). -/
theorem State.closeBurst_erred {a : Ant} {count : Nat} {crc : BitVec 32} {n : Nat} {c : SegCause}
    (e : s.burst.firstError = some (n, c)) :
    s.closeBurst a count crc = ⟨if c = .full then .full else .range, .segError n c, s.discardBurst a⟩ := by
  unfold State.closeBurst
  rw [e]
  cases c <;> rfl

/-- With no first error the count decides, and then the CRC (R57). -/
theorem State.closeBurst_counted {a : Ant} {count : Nat} {crc : BitVec 32} (clean : s.burst.firstError = none)
    (bad : ¬(count = s.burst.received ∧ crc = crc32Value s.burst.crc)) :
    s.closeBurst a count crc = if count ≠ s.burst.received then ⟨.count, .count s.burst.received, s.discardBurst a⟩
      else ⟨.crc, .empty, s.discardBurst a⟩ := by
  unfold State.closeBurst
  rw [clean]
  dsimp only
  split
  · rfl
  · rename_i all
    rw [if_pos fun sum => bad ⟨not_not.mp all, sum⟩]

theorem State.closeBurst_good {a : Ant} {count : Nat} {crc : BitVec 32} (clean : s.burst.firstError = none)
    (all : count = s.burst.received) (sum : crc = crc32Value s.burst.crc) :
    s.closeBurst a count crc = okWith (.count (s.track a).stagedSegments.length) (s.commitBurst a) := by
  unfold State.closeBurst
  rw [clean, if_neg (not_not.mpr all), if_neg (not_not.mpr sum)]

theorem State.closeBurst_closes (s : State) (a : Ant) (count : Nat) (crc : BitVec 32) :
    (s.closeBurst a count crc).state.burst = s.burst.closed := by
  have kept : (s.discardBurst a).burst = s.burst.closed := (s.discardBurst_spec a).1
  cases e : s.burst.firstError with
  | some x => rw [State.closeBurst_erred (n := x.1) (c := x.2) e]; exact kept
  | none =>
    by_cases good : count = s.burst.received ∧ crc = crc32Value s.burst.crc
    · rw [State.closeBurst_good e good.1 good.2]; exact s.commitBurst_burst a
    · rw [State.closeBurst_counted e good]; split <;> exact kept

/-- The reply and the queue of a close that is no commit (R57). -/
theorem burstClose_bad {a : Ant} {count : Nat} {crc : BitVec 32} (s u : State) (l : Link) (k : Kind) (tag : Byte)
    (bad : ¬(u.burst.firstError = none ∧ count = u.burst.received ∧ crc = crc32Value u.burst.crc)) {t : State}
    (ht : t = (u.closeBurst a count crc).finish true s l k tag) :
    ((t.track a).live = (u.track a).live ∧ (t.track a).stagedSegments = [] ∧ (t.track a).run = (u.track a).run)
    ∧ (∀ n c, u.burst.firstError = some (n, c) →
        t.replied l k tag (if c = .full then .full else .range) (.segError n c))
    ∧ (u.burst.firstError = none → if count ≠ u.burst.received then t.replied l k tag .count (.count u.burst.received)
        else t.replied l k tag .crc .empty) := by
  have discarded : (u.closeBurst a count crc).state = u.discardBurst a := by
    cases e : u.burst.firstError with
    | some x => rw [State.closeBurst_erred (n := x.1) (c := x.2) e]
    | none => rw [State.closeBurst_counted e fun h => bad ⟨e, h⟩]; split <;> rfl
  obtain ⟨-, segments, run⟩ := (u.closeBurst a count crc).finish_queue s l k tag a
  obtain ⟨-, live, same⟩ := u.discardBurst_spec a
  rw [← ht, discarded] at segments run
  obtain ⟨left, none_⟩ := Track.live_of_discarded (segments.trans live)
  have replied := (u.closeBurst a count crc).finish_replied true s l k tag
  rw [← ht] at replied
  refine ⟨⟨left, none_, run.trans same⟩, fun n c e => ?_, fun clean => ?_⟩
  · rw [State.closeBurst_erred e] at replied
    exact replied
  · rw [State.closeBurst_counted clean fun h => bad ⟨clean, h⟩] at replied
    split
    · rename_i h; rw [if_pos h] at replied; exact replied
    · rename_i h; rw [if_neg h] at replied; exact replied

/-- With no burst open the termination record answers, and is cleared (R59). -/
theorem State.noBurst_spec (s : State) :
    (s.noBurst.state.tracks = s.tracks ∧ s.noBurst.state.burst.ant = s.burst.ant)
    ∧ (s.burst.termination = none → s.noBurst.status = .badState ∧ s.noBurst.body = .empty)
    ∧ ∀ a r, s.burst.termination = some (a, r) → s.noBurst.status = .terminated ∧ s.noBurst.body = .terminated r
        ∧ s.noBurst.state.burst.termination = none := by
  unfold State.noBurst
  cases s.burst.termination with
  | none => exact ⟨⟨rfl, rfl⟩, fun _ => ⟨rfl, rfl⟩, nofun⟩
  | some x => exact ⟨⟨rfl, rfl⟩, nofun, fun a r h => by cases h; exact ⟨rfl, rfl, rfl⟩⟩

/-- Settles O38: the close by the first thing wrong with its burst, the abort by whether one is open. -/
theorem burstsCloseAndAbortInOrder : Obligations.BurstsCloseAndAbortInOrder := by
  refine ⟨fun s tag count crc a takes opened => ?_, fun s tag takes => ?_⟩
  · have run : exec (.burstClose tag count crc) s
        = .next (((s.takeFrame .operations).closeBurst a count crc).finish true s .operations .burstClose tag) := by
      refine (request_takes takes (by decide) _).trans ?_
      rw [show (s.takeFrame .operations).burst.ant = some a from opened]
    obtain ⟨burst, segments, go⟩ := ((s.takeFrame .operations).closeBurst a count crc).finish_queue s .operations
      .burstClose tag a
    rw [State.closeBurst_closes] at burst
    refine ⟨_, run, congrArg Burst.ant burst, congrArg Burst.staged burst, congrArg Burst.lastFrame burst,
      fun bad => ?_, fun good => ?_⟩
    · obtain ⟨⟨live, none_, kept⟩, erred, counted⟩ := burstClose_bad s (s.takeFrame .operations) .operations .burstClose
        tag bad rfl
      refine ⟨live, none_, kept, ?_⟩
      cases e : s.burst.firstError with
      | none => exact counted e
      | some x =>
        obtain ⟨n, c⟩ := x
        have h := erred n c e
        cases c <;> exact h
    · obtain ⟨clean, all, sum⟩ := good
      have replied := ((s.takeFrame .operations).closeBurst a count crc).finish_replied true s .operations .burstClose tag
      have e := State.closeBurst_good (s := s.takeFrame .operations) (a := a) clean all sum
      rw [e] at run replied segments go
      rw [e]
      obtain ⟨queued, kept, -⟩ := (s.takeFrame .operations).burstCommitted_track a
      refine ⟨replied, fun running => ?_, fun g head idle => ?_⟩
      · have same := State.commitBurst_running (s.takeFrame .operations) a running
        exact ⟨segments.trans ((congrArg (fun u : State => (u.track a).segments) same).trans queued),
          go.trans ((congrArg (fun u : State => (u.track a).run) same).trans kept)⟩
      · have begun := State.commitBurst_idle (s.takeFrame .operations) a idle head
        have whole {r : RunState} (h : (((s.takeFrame .operations).burstCommitted a).beginQueue a g.start |>.track a).segments
              = (((s.takeFrame .operations).burstCommitted a).track a).segments
            ∧ (((s.takeFrame .operations).burstCommitted a).beginQueue a g.start |>.track a).run = r) :=
          And.intro (segments.trans ((congrArg (fun u : State => (u.track a).segments) begun).trans (h.1.trans queued)))
            (go.trans ((congrArg (fun u : State => (u.track a).run) begun).trans h.2))
        have ways := State.beginQueue_track (s := (s.takeFrame .operations).burstCommitted a) (a := a) (first := g.start)
        exact ⟨fun later => whole (ways.1 later), fun ahead near well => whole (ways.2 ahead near well)⟩
  · cases opened : s.burst.ant with
    | none =>
      have run : exec (.burstAbort tag) s
          = .next ((s.takeFrame .operations).noBurst.finish false s .operations .burstAbort tag) := by
        refine (serve_takes takes (by decide) _).trans ?_
        rw [show (s.takeFrame .operations).burst.ant = none from opened]
      obtain ⟨⟨queues, channel⟩, silent, ended⟩ := (s.takeFrame .operations).noBurst_spec
      have same {p : Part} := (s.takeFrame .operations).noBurst.finish_serve_same (p := p) s .operations .burstAbort tag
      have replied := (s.takeFrame .operations).noBurst.finish_replied false s .operations .burstAbort tag
      have burst := same (p := .burst) (by decide)
      have tracks := same (p := .tracks) (by decide)
      refine ⟨_, run, (congrArg Burst.ant burst).trans (channel.trans opened), nofun, fun _ =>
        ⟨tracks.trans queues, fun e => ?_, fun a r e => ?_⟩⟩
      · obtain ⟨status, body⟩ := silent e
        rw [status, body] at replied
        exact replied
      · obtain ⟨status, body, cleared⟩ := ended a r e
        rw [status, body] at replied
        exact ⟨(congrArg Burst.termination burst).trans cleared, replied⟩
    | some a =>
      have run : exec (.burstAbort tag) s = .next ((okWith (.count s.burst.received)
          ((s.takeFrame .operations).discardBurst a)).finish false s .operations .burstAbort tag) := by
        refine (serve_takes takes (by decide) _).trans ?_
        rw [show (s.takeFrame .operations).burst.ant = some a from opened]
        rfl
      have same {p : Part} := (okWith (.count s.burst.received)
        ((s.takeFrame .operations).discardBurst a)).finish_serve_same (p := p) s .operations .burstAbort tag
      obtain ⟨burst, live, -⟩ := (s.takeFrame .operations).discardBurst_spec a
      have closed := (same (p := .burst) (by decide)).trans burst
      have tracks := same (p := .tracks) (by decide)
      refine ⟨_, run, congrArg Burst.ant closed, fun b hb => ?_, nofun⟩
      obtain rfl : a = b := Option.some.inj hb
      exact ⟨(congrArg (fun q : Six Track => (q.get a).segments) tracks).trans live, closed,
        Answer.finish_replied ..⟩

end Sys2Proof.Machine
end

