-- ==== Sys2Proof/Proofs/Stops.lean ====
section
/-! PROOFS. Stop requests on an axis that moves (R17, R18). -/

namespace Sys2Proof.Machine

variable {s t : State}

/-! ### A stop under way -/

/-- The axis is under a controlled stop of a reason toward a target (R17). -/
def Axis.Stops (x : Axis) (r : StopReason) (d : StopTarget) : Prop :=
  x.state = .stopping ∧ ∃ q, x.stop = some q ∧ q.reason = r ∧ q.target = d

theorem Axis.Stops.congr {x y : Axis} {r : StopReason} {d : StopTarget} (h : x.Stops r d) (e : y.core = x.core) :
    y.Stops r d := by
  have state := Axis.core_state e
  have stop : y.stop = x.stop := congrArg (fun c => c.2.2.2.2.2.2.1) e
  unfold Axis.Stops
  rw [state, stop]
  exact h

/-- A stop takes the axis from its motion (R18). -/
def AxisState.runs : AxisState → Bool
  | .slewing => true | .tracking => true | .jogging => true
  | _ => false

theorem AxisState.runs_not_inert {x : AxisState} (h : x.runs = true) : x.inert = false := by
  cases x
  case precharge | faulted => cases h
  all_goals rfl

/-! ### Starting one -/

theorem State.startStop_axis (s : State) (i : AxisId) (r : StopReason) (d : StopTarget) (moves : (s.axis i).velocity ≠ 0) :
    (s.startStop i r d).axis i = { s.axis i with
      stop := some ⟨r, d, s.limitA i, (s.axis i).velocity, (s.axis i).position, s.now⟩ }.enter s.now .stopping := by
  unfold State.startStop
  dsimp only
  rw [if_neg moves, State.axis_enterAxis, if_pos rfl, State.axis_modAxis, if_pos rfl]
  rfl

theorem State.startStop_queue (s : State) (i : AxisId) (r : StopReason) (d : StopTarget) (moves : (s.axis i).velocity ≠ 0) :
    (s.startStop i r d).feed.queue = s.feed.queue := by
  unfold State.startStop
  dsimp only
  rw [if_neg moves]
  unfold State.enterAxis State.changeStanding State.markFreedIf
  dsimp only
  split <;> rfl

theorem State.takeStop_runs {i : AxisId} (h : (s.axis i).state.runs = true) (r : StopReason) (d : StopTarget) :
    s.takeStop i r d = s.startStop i r d := by
  unfold State.takeStop
  cases e : (s.axis i).state
  case slewing | tracking | jogging => rfl
  all_goals rw [e] at h; cases h

theorem State.clearClaims_axis (s : State) (i j : AxisId) : ((s.clearClaims i).axis j).core = (s.axis j).core := by
  unfold State.clearClaims
  rw [State.axis_modAxis]
  split
  · rename_i h; subst h; rfl
  · rfl

/-- A stop request takes an axis from its motion into a stop of its own reason and target (R17, R18). -/
theorem State.stopAxis_runs {i : AxisId} (h : (s.axis i).state.runs = true) (moves : (s.axis i).velocity ≠ 0)
    (r : StopReason) (d : StopTarget) : ((s.stopAxis i r d).axis i).Stops r d ∧ (s.stopAxis i r d).feed.queue = s.feed.queue
      ∧ ((s.stopAxis i r d).axis i).velocity = (s.axis i).velocity
      ∧ ((s.stopAxis i r d).axis i).position = (s.axis i).position := by
  have go (u : State) (core : (u.axis i).core = (s.axis i).core) (queue : u.feed.queue = s.feed.queue) :
      ((u.takeStop i r d).axis i).Stops r d ∧ (u.takeStop i r d).feed.queue = s.feed.queue
      ∧ ((u.takeStop i r d).axis i).velocity = (s.axis i).velocity
      ∧ ((u.takeStop i r d).axis i).position = (s.axis i).position := by
    have state := Axis.core_state core
    have velocity : (u.axis i).velocity = (s.axis i).velocity := congrArg (fun c => c.2.2.1) core
    have position : (u.axis i).position = (s.axis i).position := congrArg (fun c => c.2.1) core
    have on : (u.axis i).velocity ≠ 0 := velocity ▸ moves
    rw [State.takeStop_runs (by rw [state]; exact h), State.startStop_axis _ _ _ _ on, State.startStop_queue _ _ _ _ on]
    exact ⟨⟨rfl, _, rfl, rfl, rfl⟩, queue, velocity, position⟩
  unfold State.stopAxis
  split
  · exact go s rfl rfl
  · exact go _ (s.clearClaims_axis i i) rfl

/-! ### Stops under way meet further ones (R18) -/

/-- The axis is under a stop and nothing waits for it on the feed: what follows an event leaves both. -/
def State.Stopped (s : State) (i : AxisId) (r : StopReason) (d : StopTarget) : Prop :=
  (s.axis i).Stops r d ∧ s.waits i = false

/-- The axis moves on its own course, and nothing waits for it on the feed. -/
def State.Runs (s : State) (i : AxisId) : Prop :=
  (s.axis i).state.runs = true ∧ (s.axis i).velocity ≠ 0 ∧ s.waits i = false

theorem State.Stopped.kept {p q : AxisId → Prop} {i : AxisId} {r : StopReason} {d : StopTarget} (h : s.Stopped i r d)
    (still : StillBut p q s t) (other : ¬p i) : t.Stopped i r d :=
  ⟨h.1.congr (still.core i other), still.waits i other h.2⟩

theorem State.Runs.kept {p q : AxisId → Prop} {i : AxisId} (h : s.Runs i) (still : StillBut p q s t) (other : ¬p i) :
    t.Runs i := by
  obtain ⟨runs, moves, free⟩ := h
  have core := still.core i other
  have velocity : (t.axis i).velocity = (s.axis i).velocity := congrArg (fun c => c.2.2.1) core
  exact ⟨by rw [Axis.core_state core]; exact runs, by rw [velocity]; exact moves, still.waits i other free⟩

/-- What follows an event leaves a stop under way. -/
theorem State.Stopped.calm {i : AxisId} {r : StopReason} {d : StopTarget} (h : s.Stopped i r d) (calm : Calm s t) :
    t.Stopped i r d := by
  have steady : s.steady i := ⟨h.2, by rw [h.1.1]; trivial⟩
  obtain ⟨core, after⟩ := calm.axes i steady
  exact ⟨h.1.congr core, after.1⟩

theorem State.Runs.stop {i : AxisId} (h : s.Runs i) (r : StopReason) (d : StopTarget) :
    (s.stopAxis i r d).Stopped i r d := by
  obtain ⟨runs, moves, free⟩ := h
  obtain ⟨stops, queue, -⟩ := State.stopAxis_runs runs moves r d
  exact ⟨stops, by unfold State.waits; rw [queue]; exact free⟩

/-- A further stop of no greater depth leaves a stop under way as it is. -/
theorem State.Stopped.stop {i : AxisId} {r : StopReason} {d : StopTarget} (h : s.Stopped i r d) (j : AxisId)
    (r' : StopReason) {d' : StopTarget} (same : deeper d d' = d) : (s.stopAxis j r' d').Stopped i r d := by
  by_cases e : i = j
  · subst e
    obtain ⟨⟨state, q, stop, reason, target⟩, free⟩ := h
    have go (u : State) (core : (u.axis i).core = (s.axis i).core) (queue : u.feed.queue = s.feed.queue) :
        (u.takeStop i r' d').Stopped i r d := by
      have stopping := (Axis.core_state core).trans state
      have stop' : (u.axis i).stop = some q := (congrArg (fun c => c.2.2.2.2.2.2.1) core).trans stop
      have taken : u.takeStop i r' d' = u.modAxis i fun x =>
          { x with stop := x.stop.map fun v => { v with target := deeper v.target d' } } := by
        unfold State.takeStop
        rw [stopping]
      have at_ : (u.takeStop i r' d').axis i = { u.axis i with stop := some { q with target := deeper q.target d' } } := by
        rw [taken, State.axis_modAxis, if_pos rfl, stop']
        rfl
      refine ⟨?_, ?_⟩
      · rw [at_]
        exact ⟨stopping, _, rfl, reason, by rw [target, same]⟩
      · rw [taken]
        exact (congrArg (fun xs : List Need => xs.any fun n => decide (n.axis = i)) queue).trans free
    unfold State.stopAxis
    split
    · exact go s rfl rfl
    · exact go _ (s.clearClaims_axis i i) rfl
  · exact h.kept (Still.stopAxis s j r' d') fun h => e h.1

theorem State.Stopped.stopEach {i : AxisId} {r : StopReason} {d : StopTarget} (r' : StopReason) {d' : StopTarget}
    (same : deeper d d' = d) (is : List AxisId) (h : s.Stopped i r d) :
    (forEach is (fun s j => s.stopAxis j r' d') s).Stopped i r d := by
  induction is generalizing s with
  | nil => exact h
  | cons j is ih => exact ih (h.stop j r' same)

/-- Where every axis of a list takes the stop, one of them that moves ends under it. -/
theorem State.Runs.stopEach {i : AxisId} (r : StopReason) (d : StopTarget) {is : List AxisId} (mem : i ∈ is)
    (h : s.Runs i) : (forEach is (fun s j => s.stopAxis j r d) s).Stopped i r d := by
  induction is generalizing s with
  | nil => cases mem
  | cons j is ih =>
    by_cases e : i = j
    · subst e
      exact (h.stop r d).stopEach r (by cases d <;> rfl) is
    · exact ih ((List.mem_cons.mp mem).resolve_left e) (h.kept (Still.stopAxis s j r d) fun h => e h.1)

end Sys2Proof.Machine
end

