-- ==== Sys2Proof/Proofs/GroupRequests.lean ====
section
/-! PROOFS. GROUP_PLAN, GROUP_CANCEL and GROUP_READ (R71 to R75, R89, R90). -/

namespace Sys2Proof.Machine

variable {s t : State}

/-! ### Plans (R73, R75) -/

theorem AxisPlan.against_course (p : AxisPlan) (record : AxisRecord) (tg : Nat) :
    (p.against record tg).start = p.start ∧ (p.against record tg).target = p.target := by
  unfold AxisPlan.against
  split <;> exact ⟨rfl, rfl⟩

/-- A plan that succeeds keeps its members, their targets and the ends of their courses (R38). -/
theorem planGroup_members {record : AxisId → AxisRecord} {ms planned : List Member} {potential : Int}
    {tg0 k tg demand : Nat} (h : planGroup record ms potential = .success tg0 k tg demand planned) :
    ∃ n, planned = planAgainst record ms n := by
  by_cases long : roundUp100 (greatestTmin ms) ≤ 600000
  · rcases planGroup_spec (record := record) (potential := potential) rfl long with ⟨n, -, -, -, -, plan⟩ | ⟨n, -, -, -, -, plan⟩
    · rw [plan] at h
      cases h
      exact ⟨_, rfl⟩
    · rw [plan] at h
      cases h
  · rw [planGroup, if_pos (not_le.mp long)] at h
    cases h

theorem Ant.ofNat?_spec {n : Nat} {a : Ant} (h : Ant.ofNat? n = some a) : Ant.num a = n := by
  unfold Ant.ofNat? at h
  split at h <;> cases h <;> rfl

theorem GroupId.ofNat?_num (g : GroupId) : GroupId.ofNat? g.num = some g := by cases g <;> rfl

theorem proposedMembers_spec {args : List MemberArg} {ms : List Proposed} (h : proposedMembers args = some ms) :
    ms.map (fun m => (m.ant.num, m.targets.az, m.targets.el)) = args.map fun m => (m.ant, m.azTarget, m.elTarget) := by
  unfold proposedMembers at h
  dsimp only at h
  split at h
  · rename_i whole
    cases h
    have back (x : MemberArg) (y : Proposed) (h : proposedOf x = some y) :
        (⟨y.ant.num, y.targets.az, y.targets.el⟩ : MemberArg) = x := by
      obtain ⟨a, ha, rfl⟩ := Option.map_eq_some_iff.mp h
      show (⟨Ant.num a, x.azTarget, x.elTarget⟩ : MemberArg) = x
      rw [Ant.ofNat?_spec ha]
    have same := filterMap_length_eq back whole.2.2.1
    conv => rhs; rw [← same]
    rw [List.map_map]
    rfl
  · cases h

/-- The planned members are those of the request, each axis's course running from its position to its target. -/
theorem planned_members {ms : List Proposed} {record : AxisId → AxisRecord} {n : Nat} :
    (planAgainst record (s.courses ms) n).map Member.ant = ms.map Proposed.ant
    ∧ (planAgainst record (s.courses ms) n).map (fun m => (m.ant.num, m.targets.az, m.targets.el))
        = ms.map (fun m => (m.ant.num, m.targets.az, m.targets.el))
    ∧ ∀ m ∈ planAgainst record (s.courses ms) n, ∀ ax, (m.plans.get ax).start = (s.axis ⟨m.ant, ax⟩).position
        ∧ (m.plans.get ax).target = (m.targets.get ax).getD (s.axis ⟨m.ant, ax⟩).position := by
  unfold planAgainst State.courses
  refine ⟨by simp [Member.mapPlans], by simp [Member.mapPlans], fun m hm ax => ?_⟩
  simp only [List.map_map, List.mem_map, Function.comp] at hm
  obtain ⟨m', -, rfl⟩ := hm
  have ends := AxisPlan.against_course (s.courseOf m' ax) (record ⟨m'.ant, ax⟩) n
  cases ax <;> exact ends

/-! ### Halts (R85, R89) -/

theorem State.haltGroup_running {g : GroupId} (r : GroupHalt) (c : Option (Ant × Option AxisName))
    (h : (s.groups.get g).state = .running) : s.haltGroup g r c
      = forEach (s.groups.get g).axes (fun s i => s.stopAxis i .group .holding) (s.modGroup g fun v => v.halt s.now r c) := by
  unfold State.haltGroup
  rw [h]

/-- A RUNNING group that halts stops its axes and keeps its grant (R85). -/
theorem State.haltGroup_running_group {g : GroupId} (r : GroupHalt) (c : Option (Ant × Option AxisName))
    (h : (s.groups.get g).state = .running) :
    (s.haltGroup g r c).groups.get g = (s.groups.get g).halt s.now r c := by
  rw [State.haltGroup_running r c h]
  have still : Still (fun _ => True) _ _ := Still.forEach (fun s i => (Still.stopAxis s i .group .holding).mono
    (fun _ _ => trivial) fun _ _ => trivial) (s.groups.get g).axes (s.modGroup g fun v => v.halt s.now r c)
  rw [still.groups, State.groups_get_modGroup, if_pos rfl]

/-- An axis of it that slews ends under the group's stop. -/
theorem State.haltGroup_running_axis {g : GroupId} (r : GroupHalt) (c : Option (Ant × Option AxisName))
    (h : (s.groups.get g).state = .running) {i : AxisId} (mem : i ∈ (s.groups.get g).axes) (runs : s.Runs i) :
    (s.haltGroup g r c).Stopped i .group .holding := by
  rw [State.haltGroup_running r c h]
  exact State.Runs.stopEach .group .holding mem runs

/-! ### The requests -/

theorem groupPlan_request {tag : Byte} {g : GroupId} {members : List MemberArg} {ms : List Proposed}
    (args : proposedMembers members = some ms) (ok : s.admits (.groupPlan tag g.num members) = true) :
    ∃ t tg0 k tg demand planned, exec (.groupPlan tag g.num members) s = .next t
      ∧ t.answers (.groupPlan tag g.num members) .ok (.plan tg0 k tg demand planned) = true
      ∧ planGroup (fun i => (s.axis i).record) (s.courses ms) (s.potential (ms.flatMap fun m => m.ant.axes))
          = .success tg0 k tg demand planned
      ∧ t.groups.get g = plannedGroup tg0 k tg demand planned
      ∧ ∀ h, h ≠ g → t.groups.get h = s.groups.get h := by
  obtain ⟨l, k, tag', r, of, on, run, g', ps, tg0, step, tg, demand, planned, hg, hp, plan, hr⟩ :=
    (groupPlan_served members).admitted ok
  obtain rfl : g = g' := by simpa [GroupId.ofNat?_num] using hg
  obtain rfl : ms = ps := Option.some.inj (args.symm.trans hp)
  subst hr
  have same : (s.takeFrame l).courses ms = s.courses ms := by
    unfold State.courses State.courseOf State.limitV windDerated
    rw [show (s.takeFrame l).wind.cls = s.wind.cls from s.wind.heard_cls l]
    rfl
  rw [same] at plan
  have groups := Answer.finish_serve_same (p := .groups) (okWith (.plan tg0 step tg demand planned)
    ((s.takeFrame l).modGroup g fun _ => plannedGroup tg0 step tg demand planned)) s l k tag' (by decide)
  have at_ (h : GroupId) := (congrArg (fun q : Four Group => q.get h) groups).trans
    ((s.takeFrame l).groups_get_modGroup g h _)
  exact ⟨_, tg0, step, tg, demand, planned, run, Answer.finish_answers of, plan, (at_ g).trans (if_pos rfl),
    fun h other => (at_ h).trans (if_neg other)⟩

/-- The state a GROUP_CANCEL makes by the group's state (R89). -/
def State.cancelled (s : State) (g : GroupId) : State :=
  match (s.groups.get g).state with
  | .armed => (s.releaseGroup g).emptyGroup g
  | .running => s.haltGroup g .cancel none
  | _ => s.emptyGroup g

theorem State.cancelled_running {g : GroupId} (h : (s.groups.get g).state = .running) :
    s.cancelled g = s.haltGroup g .cancel none := by
  unfold State.cancelled
  rw [h]

theorem State.cancelled_idle {g : GroupId} (h : (s.groups.get g).state ≠ .running) :
    (s.cancelled g).groups.get g = .initial := by
  have empty (u : State) : (u.emptyGroup g).groups.get g = .initial := (u.groups_get_modGroup g g _).trans (if_pos rfl)
  unfold State.cancelled
  split
  · exact empty _
  · rename_i e; exact absurd e h
  · exact empty _

theorem groupCancel_request {tag : Byte} {g : GroupId} (ok : s.admits (.groupCancel tag g.num) = true) :
    ∃ t, exec (.groupCancel tag g.num) s = .next t ∧ t.answers (.groupCancel tag g.num) .ok .empty = true
      ∧ ((s.groups.get g).state ≠ .running → t.groups.get g = .initial)
      ∧ ((s.groups.get g).state = .running →
          (t.groups.get g).plain = ((s.groups.get g).halt s.now .cancel none).plain
          ∧ ∀ i ∈ (s.groups.get g).axes, s.Runs i → t.Stopped i .group .holding) := by
  obtain ⟨l, k, tag', r, of, on, run, g', hg, -, -, hr⟩ := groupCancel_served.admitted ok
  obtain rfl : g = g' := by simpa [GroupId.ofNat?_num] using hg
  subst hr
  have calm := Answer.finish_calm (okWith .empty (State.cancelled (s.takeFrame l) g)) s l k tag'
  have plain := Answer.finish_same (p := .groupRecords) (okWith .empty (State.cancelled (s.takeFrame l) g)) s l k tag'
    (by decide) g
  refine ⟨_, run, Answer.finish_answers of, fun idle => ?_, fun running => ⟨plain.trans ?_, fun i mem runs => ?_⟩⟩
  · have empty := State.cancelled_idle (s := s.takeFrame l) idle
    have released : (((s.takeFrame l).cancelled g).groups.get g).releasing = false := by rw [empty]; rfl
    exact (calm.groups g released).trans empty
  · rw [show (okWith .empty ((s.takeFrame l).cancelled g)).state = (s.takeFrame l).cancelled g from rfl,
      State.cancelled_running (s := s.takeFrame l) running, State.haltGroup_running_group (s := s.takeFrame l) _ _ running]
    rfl
  · have stopped : ((s.takeFrame l).cancelled g).Stopped i .group .holding := by
      rw [State.cancelled_running (s := s.takeFrame l) running]
      exact State.haltGroup_running_axis (s := s.takeFrame l) .cancel none running mem runs
    exact stopped.calm calm

theorem groupRead_request {tag : Byte} {g : GroupId} {part : Nat} (ok : s.admits (.groupRead tag g.num part) = true) :
    let data := (s.groups.get g).bytes g s.now s.axis
    ∃ t, exec (.groupRead tag g.num part) s = .next t ∧ t.groups = s.groups
      ∧ t.answers (.groupRead tag g.num part) .ok (.bytes part (partCount data.length) (partOf data part)) = true := by
  obtain ⟨l, k, tag', r, of, on, run, g', hg, -, hr⟩ := (groupRead_served part).admitted ok
  obtain rfl : g = g' := by simpa [GroupId.ofNat?_num] using hg
  subst hr
  exact ⟨_, run, Answer.finish_serve_same (p := .groups) _ s l k tag' (by decide), Answer.finish_answers of⟩

/-- Settles O42: plan, cancel and read of a group by what each leaves of its record. -/
theorem groupsArePlannedAndCancelled : Obligations.GroupsArePlannedAndCancelled := by
  intro s tag g
  refine ⟨fun members ms args ok => ?_, fun ok => ?_, fun part ok => groupRead_request ok⟩
  · obtain ⟨t, tg0, k, tg, demand, planned, run, answer, plan, record, others⟩ := groupPlan_request args ok
    obtain ⟨n, rfl⟩ := planGroup_members plan
    obtain ⟨ants, targets, courses⟩ := planned_members (s := s) (ms := ms) (record := fun i => (s.axis i).record) (n := n)
    exact ⟨t, tg0, k, tg, demand, _, run, answer, plan, record, ants, targets.trans (proposedMembers_spec args), courses,
      others⟩
  · obtain ⟨t, run, answer, idle, running⟩ := groupCancel_request ok
    refine ⟨t, run, answer, idle, fun h => ⟨(running h).1, fun i mem slews moves free => ?_⟩⟩
    obtain ⟨stops, -⟩ := (running h).2 i mem ⟨by rw [slews]; rfl, moves, free⟩
    exact stops

end Sys2Proof.Machine
end

