-- ==== Sys2Proof/Proofs/Enabling.lean ====
section
/-! PROOFS. A claim and an ENABLE: what they give an antenna, and what they leave (R9, R13). -/

namespace Sys2Proof.Machine

variable {s t u : State}

/-- Enabling moves nothing but OFF axes, loses no claim and no ENABLE, and leaves a bus that is not OFF (R9, R13). -/
structure Enables (s t : State) : Prop where
  away : t = { s with ants := t.ants, feed := t.feed, scratch := t.scratch }
  queue : t.feed.queue = s.feed.queue
  core : ∀ j, (s.axis j).state ≠ .off → (t.axis j).core = (s.axis j).core
  asleep : ∀ j, (s.axis j).state = .off → (t.axis j).state = .off ∨ (t.axis j).state = .precharge
  claims : ∀ j c, (s.axis j).claims.has c = true → (t.axis j).claims.has c = true
  enable : ∀ a, (s.ants.get a).enable = true → (t.ants.get a).enable = true
  bus : ∀ a, (s.ants.get a).bus ≠ .off → (t.ants.get a).bus = (s.ants.get a).bus

theorem Enables.refl (s : State) : Enables s s :=
  ⟨rfl, rfl, fun _ _ => rfl, fun _ => .inl, fun _ _ => id, fun _ => id, fun _ _ => rfl⟩

theorem Enables.trans (h : Enables s t) (k : Enables t u) : Enables s u where
  away := by rw [k.away, h.away]
  queue := k.queue.trans h.queue
  core j off := (k.core j (by rw [Axis.core_state (h.core j off)]; exact off)).trans (h.core j off)
  asleep j off := by
    rcases h.asleep j off with still | risen
    · exact k.asleep j still
    · exact .inr ((Axis.core_state (k.core j (by rw [risen]; exact nofun))).trans risen)
  claims j c := k.claims j c ∘ h.claims j c
  enable a := k.enable a ∘ h.enable a
  bus a on := (k.bus a (by rw [h.bus a on]; exact on)).trans (h.bus a on)

theorem Enables.ite {c : Prop} [Decidable c] (h : Enables s t) (k : Enables s u) : Enables s (if c then t else u) := by
  split
  · exact h
  · exact k

theorem Enables.forEach {α : Type} {f : State → α → State} (h : ∀ s x, Enables s (f s x)) (xs : List α) (s : State) :
    Enables s (forEach xs f s) := by
  induction xs generalizing s with
  | nil => exact .refl s
  | cons x xs ih => exact (h s x).trans (ih (f s x))

/-- An update of an antenna's power that takes back neither its ENABLE nor its bus. -/
theorem Enables.modAnt {a : Ant} {f : Antenna → Antenna} (axes : ∀ v, (f v).axes = v.axes)
    (enable : (s.ants.get a).enable = true → (f (s.ants.get a)).enable = true)
    (bus : (s.ants.get a).bus ≠ .off → (f (s.ants.get a)).bus = (s.ants.get a).bus) : Enables s (s.modAnt a f) := by
  have axis (j : AxisId) : (s.modAnt a f).axis j = s.axis j := by
    rw [State.axis_modAnt]
    split
    · rw [axes]; rename_i h; rw [← h]; rfl
    · rfl
  have ants (b : Ant) : (s.modAnt a f).ants.get b = if b = a then f (s.ants.get a) else s.ants.get b := by
    simp [State.modAnt, State.setAnt]
  refine ⟨rfl, rfl, fun j _ => by rw [axis], fun j h => .inl (by rw [axis]; exact h), fun j c => by rw [axis]; exact id,
    fun b h => ?_, fun b h => ?_⟩
  · rw [ants]; split
    · rename_i e; subst e; exact enable h
    · exact h
  · rw [ants]; split
    · rename_i e; subst e; exact bus h
    · rfl

theorem Enables.runFieldTimers (s : State) (a : Ant) : Enables s (s.runFieldTimers a) := by
  have still := Still.runFieldTimers s a
  refine ⟨rfl, rfl, fun j _ => still.core j id, fun j h => .inl ?_, fun j c => ?_, fun b h => ?_, fun b _ => ?_⟩
  · rw [Axis.core_state (still.core j id)]; exact h
  · intro h
    rw [State.axis_runFieldTimers]
    split <;> exact h
  · rw [Antenna.power_enable (still.power b)]; exact h
  · exact Antenna.power_bus (still.power b)

/-- An OFF axis joins the precharge of its bus (R9). -/
theorem Enables.wake {i : AxisId} (h : (s.axis i).state = .off) : Enables s (s.enterAxis i .precharge) := by
  have still := Still.enterAxis s i .precharge
  have at_ (j : AxisId) : (s.enterAxis i .precharge).axis j = if j = i then (s.axis i).enter s.now .precharge else s.axis j :=
    State.axis_enterAxis ..
  refine ⟨?_, ?_, fun j on => still.core j ?_, fun j off => ?_, fun j c => ?_, fun b => ?_, fun b _ => ?_⟩
  · unfold State.enterAxis State.changeStanding State.markFreedIf
    dsimp only
    split <;> rfl
  · unfold State.enterAxis State.changeStanding State.markFreedIf
    dsimp only
    split <;> rfl
  · rintro rfl; exact on h
  · rw [at_]; split
    · exact .inr rfl
    · exact .inl off
  · rw [at_]; split
    · rename_i e; subst e; exact id
    · exact id
  · rw [Antenna.power_enable (still.power b)]; exact id
  · exact Antenna.power_bus (still.power b)

theorem Enables.enableBus (s : State) (a : Ant) : Enables s (s.enableBus a) := by
  have set := Enables.modAnt (s := s) (a := a) (f := fun v => { v with enable := true }) (fun _ => rfl) (fun _ => rfl)
    fun _ => rfl
  unfold State.enableBus
  dsimp only
  split
  · rename_i off
    refine .trans ?_ (.runFieldTimers ..)
    refine .trans (set.trans ?_) (Enables.forEach (fun s i => ?_) _ _)
    · exact .modAnt (fun _ => rfl) id fun on => absurd off on
    split
    · rename_i h; exact .wake h
    · exact .refl s
  · exact set

/-- An ENABLE leaves its antenna enabled on a bus that is not OFF (R9). -/
theorem State.enableBus_enabled (s : State) (a : Ant) :
    ((s.enableBus a).ants.get a).enable = true ∧ ((s.enableBus a).ants.get a).bus ≠ .off := by
  have set (f : Antenna → Antenna) (v : State) : (v.modAnt a f).ants.get a = f (v.ants.get a) := by
    simp [State.modAnt, State.setAnt]
  unfold State.enableBus
  dsimp only
  split
  · have rest (v : State) : Enables v ((Machine.forEach a.axes (fun s i =>
        if (s.axis i).state = .off then s.enterAxis i .precharge else s) v).runFieldTimers a) := by
      refine .trans (Enables.forEach (fun s i => ?_) _ _) (.runFieldTimers ..)
      split
      · rename_i h; exact .wake h
      · exact .refl s
    refine ⟨(rest _).enable a ?_, ?_⟩
    · rw [set, set]
    · rw [(rest _).bus a (by rw [set]; exact nofun), set]
      exact nofun
  · rename_i on
    exact ⟨by rw [set], on⟩

theorem Enables.addClaim (s : State) (i : AxisId) (src : ClaimSource) : Enables s (s.addClaim i src) := by
  have claim : Enables s (s.modAxis i fun x => x.addClaim s.now src) := by
    have at_ (j : AxisId) := s.axis_modAxis i j fun x => x.addClaim s.now src
    refine ⟨rfl, rfl, fun j _ => ?_, fun j off => .inl ?_, fun j c h => ?_, fun b => ?_, fun b _ => ?_⟩
    · rw [at_]; split
      · rename_i e; subst e; rfl
      · rfl
    · rw [at_]; split
      · rename_i e; subst e; exact off
      · exact off
    · rw [at_]; split
      · rename_i e; subst e
        cases c <;> cases src <;> simp_all [Axis.addClaim, Claims.has, Claims.put]
      · exact h
    · have power : ((s.modAxis i fun x => x.addClaim s.now src).ants.get b).power = _ := Antenna.power_setAxis ..
      rw [Antenna.power_enable power]; exact id
    · have power : ((s.modAxis i fun x => x.addClaim s.now src).ants.get b).power = _ := Antenna.power_setAxis ..
      exact Antenna.power_bus power
  unfold State.addClaim
  refine .ite ?_ (.refl s)
  dsimp only
  exact .ite claim (claim.trans (.enableBus ..))

/-- A claim taken stands, and but for QUEUE its antenna is enabled (R9, R13). -/
theorem State.addClaim_takes {i : AxisId} {src : ClaimSource} (h : (s.axis i).state.isFaulted = false) :
    ((s.addClaim i src).axis i).claims.has src = true
    ∧ (src ≠ .queue → ((s.addClaim i src).ants.get i.ant).enable = true ∧ ((s.addClaim i src).ants.get i.ant).bus ≠ .off) := by
  have has : ((s.modAxis i fun x => x.addClaim s.now src).axis i).claims.has src = true := by
    rw [State.axis_modAxis, if_pos rfl]
    cases src <;> rfl
  unfold State.addClaim
  rw [if_pos (by rw [State.takesClaim, h]; rfl)]
  dsimp only
  split
  · rename_i e; exact ⟨has, fun other => absurd e other⟩
  · exact ⟨(Enables.enableBus _ _).claims i src has, fun _ => State.enableBus_enabled ..⟩

end Sys2Proof.Machine
end

