-- ==== Sys2Proof/Proofs/GroupEvents.lean ====
section
/-! PROOFS. GROUP_ARM and the events of a group: start, grace, done and settle limit (R77 to R84). -/

namespace Sys2Proof.Machine

variable {s t : State}

/-! ### Arming (R77, R78) -/

theorem State.addClaims_enabled {src : ClaimSource} (other : src ≠ .queue) {is : List AxisId} {i : AxisId} (mem : i ∈ is)
    (h : (s.axis i).state.isFaulted = false) :
    ((forEach is (fun s j => s.addClaim j src) s).ants.get i.ant).enable = true
    ∧ ((forEach is (fun s j => s.addClaim j src) s).ants.get i.ant).bus ≠ .off := by
  induction is generalizing s with
  | nil => cases mem
  | cons j is ih =>
    by_cases e : i ∈ is
    · refine ih e ?_
      have grown := Enables.addClaim s j src
      by_cases off : (s.axis i).state = .off
      · rcases grown.asleep i off with still | risen
        · rw [still]; rfl
        · rw [risen]; rfl
      · rw [Axis.core_state (grown.core i off)]; exact h
    · obtain rfl : i = j := (List.mem_cons.mp mem).resolve_right e
      obtain ⟨enable, bus⟩ := (State.addClaim_takes (src := src) h).2 other
      have rest := Enables.forEach (fun s j => Enables.addClaim s j src) is (s.addClaim i src)
      exact ⟨rest.enable _ enable, by rw [show forEach (i :: is) (fun s j => s.addClaim j src) s
        = forEach is (fun s j => s.addClaim j src) (s.addClaim i src) from rfl, rest.bus _ bus]; exact bus⟩

theorem Still.grantGroup (s : State) (g : GroupId) (d : Nat) (is : List AxisId) : Still noAxis s (s.grantGroup g d is) := by
  unfold State.grantGroup
  exact (Still.forEach (fun s i => Still.foldAxis s (.group g) i) is s).trans (.modFeed fun _ => id)

/-- The state of an ARM before its members take their claims. -/
def State.grantArm (s : State) (g : GroupId) (e : Epoch) (f : Fit) (n : Nat) : State :=
  (((s.makeRoom f false).grantGroup g (s.groups.get g).demand (s.groups.get g).axes).afterGrant f n).modGroup g
    fun v => { v with state := .armed, held := true, start := some e }

theorem State.grantArm_spec (s : State) (g : GroupId) (e : Epoch) (f : Fit) (n : Nat) :
    (s.grantArm g e f n).groups.get g = { s.groups.get g with state := .armed, held := true, start := some e }
    ∧ ∀ i, ((s.grantArm g e f n).axis i).core = (s.axis i).core := by
  have still : Still noAxis s (((s.makeRoom f false).grantGroup g (s.groups.get g).demand
      (s.groups.get g).axes).afterGrant f n) :=
    ((Still.makeRoom s f false).trans (.grantGroup ..)).trans (.afterGrant ..)
  refine ⟨?_, fun i => still.core i id⟩
  rw [State.grantArm, State.groups_get_modGroup, if_pos rfl, still.groups]

theorem State.armGroup_spec (s : State) (g : GroupId) (e : Epoch) (f : Fit) (n : Nat) :
    (s.armGroup g e f n).groups.get g = { s.groups.get g with state := .armed, held := true, start := some e }
    ∧ ∀ a ∈ (s.groups.get g).ants, s.anyFaulted a = false →
        ((s.armGroup g e f n).ants.get a).bus ≠ .off ∧ ((s.armGroup g e f n).ants.get a).enable = true := by
  obtain ⟨record, core⟩ := s.grantArm_spec g e f n
  have arm : s.armGroup g e f n = forEach (s.groups.get g).axes (fun s i => s.addClaim i .group) (s.grantArm g e f n) := rfl
  refine ⟨?_, fun a mem well => ?_⟩
  · rw [arm, (Enables.forEach (fun s i => Enables.addClaim s i .group) _ _).away]
    exact record
  · obtain ⟨az, -⟩ := Bool.or_eq_false_iff.mp well
    have axis : (⟨a, .az⟩ : AxisId) ∈ (s.groups.get g).axes := List.mem_flatMap.mpr ⟨a, mem, List.mem_cons_self⟩
    have on := State.addClaims_enabled (s := s.grantArm g e f n) (src := .group) nofun axis
      (by rw [Axis.core_state (core _)]; exact az)
    exact ⟨on.2, on.1⟩

theorem Antenna.disabling_enabled {v : Antenna} (h : v.enable = true) : v.disabling = false := by
  rw [Antenna.disabling, h]
  exact Bool.and_false _

/-! ### Release and halt (R81, R83 to R87) -/

theorem State.releaseGroup_groups (s : State) (g h : GroupId) :
    (s.releaseGroup g).groups.get h = if h = g then { s.groups.get g with held := false } else s.groups.get h := by
  have still : Still noAxis _ _ := Still.forEach (fun s i => Still.dropGroup s i) (s.groups.get g).axes
    ((s.releaseGroupGrant g).modGroup g fun r => { r with held := false })
  have grant := (Still.releaseGroupGrant s g).groups
  rw [show s.releaseGroup g = forEach (s.groups.get g).axes (fun s i => s.dropClaim i .group)
    ((s.releaseGroupGrant g).modGroup g fun r => { r with held := false }) from rfl, still.groups,
    State.groups_get_modGroup, grant]

theorem State.haltGroup_armed {g : GroupId} (r : GroupHalt) (c : Option (Ant × Option AxisName))
    (h : (s.groups.get g).state = .armed) :
    (s.haltGroup g r c).groups.get g = { (s.groups.get g).halt s.now r c with held := false } := by
  unfold State.haltGroup
  rw [h]
  dsimp only
  rw [State.releaseGroup_groups, if_pos rfl, State.groups_get_modGroup, if_pos rfl]

/-! ### The start (R80) -/

/-- The axis runs a profile, and nothing waits for it on the feed. -/
def State.Slews (s : State) (i : AxisId) (p : Profile) : Prop :=
  (s.axis i).state = .slewing ∧ (s.axis i).profile = some p ∧ s.waits i = false

theorem State.Slews.kept {p q : AxisId → Prop} {i : AxisId} {c : Profile} (h : s.Slews i c) (still : StillBut p q s t)
    (other : ¬p i) : t.Slews i c := by
  obtain ⟨state, profile, free⟩ := h
  have core := still.core i other
  have same : (t.axis i).profile = (s.axis i).profile := congrArg (fun c => c.2.2.2.2.2.2.2.2) core
  exact ⟨(Axis.core_state core).trans state, same.trans profile, still.waits i other free⟩

theorem State.Slews.calm {i : AxisId} {c : Profile} (h : s.Slews i c) (calm : Calm s t) : t.Slews i c := by
  obtain ⟨state, profile, free⟩ := h
  obtain ⟨core, after⟩ := calm.axes i ⟨free, by rw [state]; trivial⟩
  have same : (t.axis i).profile = (s.axis i).profile := congrArg (fun c => c.2.2.2.2.2.2.2.2) core
  exact ⟨(Axis.core_state core).trans state, same.trans profile, after.1⟩

theorem Still.beginProfile (s : State) (i : AxisId) (p : Profile) : Still (· = i) s (s.beginProfile i p) :=
  (Still.modAxis_self ..).trans (.enterAxis ..)

theorem State.beginProfile_slews {i : AxisId} (p : Profile) (free : s.waits i = false) :
    (s.beginProfile i p).Slews i p := by
  have at_ : (s.beginProfile i p).axis i = { s.axis i with profile := some p }.enter s.now .slewing := by
    rw [State.beginProfile, State.axis_enterAxis, if_pos rfl, State.axis_modAxis, if_pos rfl]
    rfl
  refine ⟨by rw [at_]; rfl, by rw [at_]; rfl, ?_⟩
  unfold State.beginProfile
  rw [State.waits_enterAxis]
  exact free

/-- The courses of a group's start, run one after another. -/
theorem State.startEach_slews (now : Epoch) {ps : List (AxisId × AxisPlan)} (once : (ps.map Prod.fst).Nodup) {i : AxisId}
    {p : AxisPlan} (mem : (i, p) ∈ ps) (moves : p.moves = true) (free : s.waits i = false) :
    (forEach ps (fun t q => if q.2.moves then t.beginProfile q.1 (q.2.profile now) else t) s).Slews i (p.profile now) := by
  induction ps generalizing s with
  | nil => cases mem
  | cons q ps ih =>
    obtain ⟨first, rest⟩ := List.nodup_cons.mp once
    have still (u : State) (q : AxisId × AxisPlan) :
        Still (· = q.1) u (if q.2.moves then u.beginProfile q.1 (q.2.profile now) else u) :=
      .ite (.beginProfile ..) (.refl ..)
    rcases List.mem_cons.mp mem with rfl | later
    · have begun : (if p.moves then s.beginProfile i (p.profile now) else s).Slews i (p.profile now) := by
        rw [if_pos moves]
        exact State.beginProfile_slews _ free
      have others : ∀ (qs : List (AxisId × AxisPlan)) (u : State), i ∉ qs.map Prod.fst → u.Slews i (p.profile now) →
          (forEach qs (fun t q => if q.2.moves then t.beginProfile q.1 (q.2.profile now) else t) u).Slews i
            (p.profile now) := by
        intro qs
        induction qs with
        | nil => exact fun _ _ h => h
        | cons q qs ih =>
          intro u away h
          exact ih _ (fun mem => away (List.mem_cons_of_mem _ mem))
            (h.kept (still u q) fun e => away (by rw [e]; exact List.mem_cons_self))
      exact others ps _ first begun
    · have other : i ≠ q.1 := by
        rintro rfl
        exact first (List.mem_map.mpr ⟨_, later, rfl⟩)
      exact ih rest later ((still s q).waits i other free)

theorem Group.plans_once {r : Group} (h : r.ants.Nodup) : (r.plans.map Prod.fst).Nodup := by
  have ids : r.plans.map Prod.fst = r.members.flatMap fun m => [(⟨m.ant, .az⟩ : AxisId), ⟨m.ant, .el⟩] := by
    rw [Group.plans, List.map_flatMap]
    rfl
  rw [ids, List.nodup_flatMap]
  refine ⟨fun m _ => by simp, (List.pairwise_map.mp h).imp fun {m n} apart i hi hj => apart ?_⟩
  have of (x : Member) (h : i ∈ [(⟨x.ant, .az⟩ : AxisId), ⟨x.ant, .el⟩]) : i.ant = x.ant := by
    simp only [List.mem_cons, List.not_mem_nil, or_false] at h
    rcases h with rfl | rfl <;> rfl
  exact (of m hi).symm.trans (of n hj)

theorem State.startGroup_spec (s : State) (g : GroupId) :
    (s.startGroup g).groups.get g = { s.groups.get g with state := .running, start := some s.now }
    ∧ ((s.groups.get g).ants.Nodup → ∀ i p, (i, p) ∈ (s.groups.get g).plans → p.moves = true → s.waits i = false →
        (s.startGroup g).Slews i (p.profile s.now)) := by
  refine ⟨?_, fun once i p mem moves free => State.startEach_slews s.now (Group.plans_once once) mem moves free⟩
  have still : Still (fun _ => True) _ (s.startGroup g) := Still.forEach (fun u q => by
    exact .ite (StillBut.mono (Still.beginProfile ..) (fun _ _ => trivial) fun _ _ => trivial) (.refl ..)) (s.groups.get g).plans
    (s.modGroup g fun v => { v with state := .running, start := some s.now })
  rw [still.groups, State.groups_get_modGroup, if_pos rfl]

theorem occur_not {due : Bool} {body : State → State} (h : due = false) : occur s due body = .next s := by
  rw [occur, onPower]
  split
  · rw [h]; rfl
  · rfl

/-- A group record outside its releasing outlasts what follows its event. -/
theorem event_group {g : GroupId} {body : State → State} {r : Group} (h : (body s).groups.get g = r)
    (still : r.releasing = false) : (event s body).groups.get g = r :=
  ((event_calm s body).groups g (by rw [h]; exact still)).trans h

/-- Settles O43: the request through its grant and claims, each event through what it makes of the record. -/
theorem groupsArmStartAndFinish : Obligations.GroupsArmStartAndFinish := by
  refine ⟨fun s tag g start ok => ?_, fun s g on => ?_⟩
  · obtain ⟨l, k, tag', r, of, on, run, g', hg, -, -, hr⟩ := (groupArm_served start).admitted ok
    obtain rfl : g = g' := by simpa [GroupId.ofNat?_num] using hg
    subst hr
    generalize sumOf ((s.takeFrame l).groups.get g).axes (s.takeFrame l).foldable = n at run
    generalize (s.takeFrame l).fit ((s.takeFrame l).groups.get g).demand n false = f at run
    have calm := Answer.finish_calm (okWith (.armed start ((s.takeFrame l).groups.get g).demand)
      ((s.takeFrame l).armGroup g start f n)) s l k tag'
    obtain ⟨record, enabled⟩ := (s.takeFrame l).armGroup_spec g start f n
    refine ⟨_, run, Answer.finish_answers of, (calm.groups g ?_).trans record, fun a mem well => ?_⟩
    · exact (congrArg Group.releasing record).trans rfl
    · obtain ⟨bus, enable⟩ := enabled a mem well
      obtain ⟨same, -, -, kept⟩ := calm.power a (Antenna.disabling_enabled enable) (.inr bus)
      exact ⟨by rw [same]; exact bus, kept enable⟩
  · refine ⟨fun off => ?_, fun on_ starts => ?_, fun e armed start ran => ?_, fun e running settle ran => ?_,
      fun e running start ran => ?_⟩
    · exact occur_not (by rw [off]; rfl)
    · obtain ⟨record, slews⟩ := s.startGroup_spec g
      refine ⟨_, occur_due on (by rw [on_, starts]; rfl), event_group record rfl, fun once i p mem moves free => ?_⟩
      obtain ⟨state, profile, -⟩ := (slews once i p mem moves free).calm (event_calm s fun s => s.startGroup g)
      exact ⟨state, profile⟩
    · exact ⟨_, occur_due on (by rw [State.graceOver, armed, passed_of ⟨e, start, ran⟩]; rfl),
        event_group (State.haltGroup_armed _ _ armed) rfl⟩
    · have record : (s.finishGroup g).groups.get g = { s.groups.get g with
          state := .done, held := false, completion := some s.now, settleTimer := none } := by
        rw [State.finishGroup, State.groups_get_modGroup, if_pos rfl, State.releaseGroup_groups, if_pos rfl]
      exact ⟨_, occur_due on (by rw [State.groupDone, running, passed_of ⟨e, settle, ran⟩]; rfl), event_group record rfl⟩
    · refine ⟨_, occur_due on (by rw [State.settleLimit, running, passed_of ⟨e, start, ran⟩]; rfl), ?_⟩
      refine (event_same (p := .groupRecords) s _ (by decide) g).trans ?_
      exact congrArg Group.plain (State.haltGroup_running_group _ _ running)

end Sys2Proof.Machine
end

