-- ==== Sys2Proof/Proofs/TorqueBrake.lean ====
section
/-! PROOFS. The handover between torque and brake (R14, R15, R19). -/

namespace Sys2Proof.Machine

variable {s t : State} {i : AxisId}

/-! ### An axis at work through what follows -/

/-- An axis at work, for which nothing waits, keeps its state and its motion through what follows its event. -/
theorem event_core {u : State} (work : u.steady i) : ((event s fun _ => u).axis i).core = (u.axis i).core :=
  ((event_calm s fun _ => u).axes i work).1

/-- A row that is due runs its event from what its body makes of the state. -/
theorem occur_runs {due : Bool} {body : State → State} {u : State} (on : s.powered = true) (h : due = true)
    (e : body s = u) : occur s due body = .next (event s fun _ => u) :=
  (occur_due on h).trans (congrArg _ (event_congr e))

theorem Axis.core_pendingStop {x y : Axis} (h : x.core = y.core) : x.pendingStop = y.pendingStop :=
  congrArg (fun c => c.2.2.2.2.2.2.2.1) h

theorem Axis.core_releaseCheck {x y : Axis} (h : x.core = y.core) : x.releaseCheck = y.releaseCheck :=
  congrArg (fun c => c.2.2.2.2.2.1) h

theorem Axis.core_amplifier {x y : Axis} (h : x.core = y.core) : x.amplifier = y.amplifier := congrArg (fun c => c.2.2.2.1) h

theorem Axis.core_released {x y : Axis} (h : x.core = y.core) : x.released = y.released := congrArg (fun c => c.2.2.2.2.1) h

/-- A field input of an axis reaches that input alone. -/
theorem State.modAxisIn_axis (s : State) (i j : AxisId) (f : AxisInputs → AxisInputs) :
    (s.modAxisIn i f).axis j = s.axis j := rfl

theorem Axis.enter_pendingStop (x : Axis) (now : Epoch) {st : AxisState} (h : st.keepsPendingStop = true) :
    (x.enter now st).pendingStop = x.pendingStop := if_pos h

/-! ### What a handover makes of its axis -/

theorem State.goBraking_axis (s : State) (i : AxisId) (p : PendingStop) :
    (s.goBraking i p).axis i = { (s.axis i).enter s.now .braking with pendingStop := some p } := by
  rw [State.goBraking, State.axis_modAxis, if_pos rfl, State.axis_enterAxis, if_pos rfl]

theorem State.goBraking_waits (s : State) (i j : AxisId) (p : PendingStop) : (s.goBraking i p).waits j = s.waits j :=
  State.waits_enterAxis ..

theorem State.goBraking_stowOf (s : State) (i : AxisId) (p : PendingStop) (a : Ant) :
    (s.goBraking i p).stowOf a = s.stowOf a := (Still.enterAxis s i .braking).stow a

/-- An axis that brakes with nothing waiting is at work. -/
theorem State.steady_braking (state : (s.axis i).state = .braking) (free : s.waits i = false)
    (stow : (s.stowOf i.ant).state ≠ .stopping) : s.steady i := ⟨free, by rw [state]; exact stow⟩

theorem State.steady_holding (state : (s.axis i).state = .holding) (free : s.waits i = false)
    (stow : (s.stowOf i.ant).state ≠ .stopping) : s.steady i := ⟨free, by rw [state]; exact stow⟩

/-- The end of a braking that its event begins. -/
theorem event_braking {u : State} {p : PendingStop} (free : u.waits i = false)
    (stow : (u.stowOf i.ant).state ≠ .stopping) : ((event s fun _ => u.goBraking i p).axis i).state = .braking
      ∧ ((event s fun _ => u.goBraking i p).axis i).pendingStop = some p
      ∧ ((event s fun _ => u.goBraking i p).axis i).releaseCheck = none := by
  have axis := u.goBraking_axis i p
  have state : ((u.goBraking i p).axis i).state = .braking := by rw [axis]; rfl
  have core := event_core (s := s) (State.steady_braking state ((State.goBraking_waits ..).trans free)
    (by rw [State.goBraking_stowOf]; exact stow))
  rw [axis] at core
  exact ⟨Axis.core_state core, Axis.core_pendingStop core, Axis.core_releaseCheck core⟩

theorem event_input {u : State} {f : AxisInputs → AxisInputs} (moved : Part.field.same (s.modAxisIn i f) u) :
    (event s fun _ => u).axisIn i = f (s.axisIn i) := by
  rw [event_axisIn]
  refine (congrArg (fun io : FieldInputs => (io.ants.get i.ant).axes.get i.ax) moved).trans ?_
  exact State.axisIn_modAxisIn ..

/-! ### Holding current (R14) -/

theorem current_event (on : s.powered = true) (free : s.waits i = false) (stow : (s.stowOf i.ant).state ≠ .stopping)
    (up : (s.axis i).state = .torqueUp) :
    ∃ t, exec (.holdingCurrentReached i) s = .next t ∧ (t.axisIn i).current = true ∧ (t.axis i).state = .holding
      ∧ (t.axis i).amplifier = true ∧ (t.axis i).released = true ∧ (t.axis i).releaseCheck = some s.now
      ∧ (t.axis i).pendingStop = (s.axis i).pendingStop := by
  set u := s.modAxisIn i AxisInputs.reachCurrent
  have run : exec (.holdingCurrentReached i) s = .next (event s fun _ => u.startHolding i) := occur_runs on rfl (if_pos up)
  have axis : (u.startHolding i).axis i = { (s.axis i).enter s.now .holding with releaseCheck := some s.now } := by
    rw [State.startHolding, State.axis_modAxis, if_pos rfl, State.axis_enterAxis, if_pos rfl]
    rfl
  have work : (u.startHolding i).steady i := by
    refine State.steady_holding (by rw [axis]; rfl) ((State.waits_enterAxis ..).trans free) ?_
    rw [show (u.startHolding i).stowOf i.ant = (u.enterAxis i .holding).stowOf i.ant from rfl,
      (Still.enterAxis u i .holding).stow]
    exact stow
  have core := (event_core (s := s) work).trans (congrArg Axis.core axis)
  have moved : Part.field.same u (u.startHolding i) := (Follows.enterAxis u i .holding).touches.same .field (by decide)
  have input := event_input moved
  exact ⟨_, run, congrArg AxisInputs.current input, Axis.core_state core, Axis.core_amplifier core,
    Axis.core_released core, Axis.core_releaseCheck core, (Axis.core_pendingStop core).trans ((s.axis i).enter_pendingStop s.now (st := .holding) rfl)⟩

/-! ### Release (R14) -/

theorem released_event (on : s.powered = true) (free : s.waits i = false) (stow : (s.stowOf i.ant).state ≠ .stopping)
    (holds : (s.axis i).state = .holding) (checked : (s.axis i).releaseCheck.isSome = true) :
    ∃ t, exec (.brakeReleaseConfirmed i) s = .next t ∧ (t.axisIn i).releasedSwitch = true ∧ (t.axis i).releaseCheck = none
      ∧ (∀ p, (s.axis i).pendingStop = some p → (t.axis i).state = .braking ∧ (t.axis i).pendingStop = some p)
      ∧ ((s.axis i).pendingStop = none → (s.axis i).claims.any = true →
          (t.axis i).state = .holding ∧ (t.axis i).ready = true)
      ∧ ((s.axis i).pendingStop = none → (s.axis i).claims.any = false →
          (t.axis i).state = .braking ∧ (t.axis i).pendingStop = some ⟨none, .braked⟩) := by
  set u := s.modAxisIn i AxisInputs.makeReleased
  set v := u.modAxis i fun x => { x with releaseCheck := none, pendingStop := none }
  have run {w : State} (e : u.confirmRelease i = w) : exec (.brakeReleaseConfirmed i) s = .next (event s fun _ => w) :=
    occur_runs on rfl ((if_pos ⟨holds, checked⟩).trans e)
  have braking (p : PendingStop) (e : u.confirmRelease i = v.goBraking i p) :
      exec (.brakeReleaseConfirmed i) s = .next (event s fun _ => v.goBraking i p)
      ∧ ((event s fun _ => v.goBraking i p).axisIn i).releasedSwitch = true
      ∧ ((event s fun _ => v.goBraking i p).axis i).releaseCheck = none
      ∧ ((event s fun _ => v.goBraking i p).axis i).state = .braking
      ∧ ((event s fun _ => v.goBraking i p).axis i).pendingStop = some p := by
    obtain ⟨state, pending, after⟩ := event_braking (s := s) (u := v) (i := i) (p := p) free stow
    have input := event_input ((Follows.goBraking v i p).touches.same .field (by decide))
    exact ⟨run e, congrArg AxisInputs.releasedSwitch input, after, state, pending⟩
  have decided : u.confirmRelease i = match (s.axis i).stopAfterHandover with
    | none => v
    | some p => v.goBraking i p := by
    unfold State.confirmRelease
    rfl
  cases kept : (s.axis i).pendingStop with
  | some p =>
    have stop : (s.axis i).stopAfterHandover = some p := by rw [Axis.stopAfterHandover, kept]
    obtain ⟨run, input, after, state, pending⟩ := braking p (by rw [decided, stop])
    exact ⟨_, run, input, after, fun q h => by cases h; exact ⟨state, pending⟩, nofun, nofun⟩
  | none =>
    cases claimed : (s.axis i).claims.any with
    | false =>
      have stop : (s.axis i).stopAfterHandover = some ⟨none, .braked⟩ := by
        rw [Axis.stopAfterHandover, kept, claimed]; rfl
      obtain ⟨run, input, after, state, pending⟩ := braking _ (by rw [decided, stop])
      exact ⟨_, run, input, after, nofun, nofun, fun _ _ => ⟨state, pending⟩⟩
    | true =>
      have stop : (s.axis i).stopAfterHandover = none := by
        rw [Axis.stopAfterHandover, kept, claimed]; rfl
      have axis : v.axis i = { s.axis i with releaseCheck := none, pendingStop := none } := by
        rw [State.axis_modAxis, if_pos rfl]; rfl
      have state : (v.axis i).state = .holding := by rw [axis]; exact holds
      have core := event_core (s := s) (State.steady_holding state free stow)
      have same := (Axis.core_state core).trans state
      have after : ((event s fun _ => v).axis i).releaseCheck = none := (Axis.core_releaseCheck core).trans (by rw [axis])
      have moved : Part.field.same u v := rfl
      refine ⟨_, run (by rw [decided, stop]), congrArg AxisInputs.releasedSwitch (event_input moved), after, nofun,
        fun _ _ => ⟨same, ?_⟩, nofun⟩
      rw [Axis.ready, same, after]
      rfl

/-! ### Brake set (R15) -/

theorem set_event (on : s.powered = true) (free : s.waits i = false) (stow : (s.stowOf i.ant).state ≠ .stopping)
    (brakes : (s.axis i).state = .braking) (idle : (s.axis i).claims.any = false)
    (power : (s.ants.get i.ant).disabling = false) (formed : (s.stowOf i.ant).state ≠ .waiting) :
    ∃ t, exec (.brakeSetConfirmed i) s = .next t ∧ (t.axisIn i).setSwitch = true ∧ (t.axis i).state = .braked
      ∧ (t.axis i).amplifier = false ∧ (t.axis i).released = false := by
  set u := s.modAxisIn i AxisInputs.makeSet
  have run : exec (.brakeSetConfirmed i) s = .next (event s fun _ => u.enterAxis i .braked) :=
    occur_runs on rfl (if_pos brakes)
  have axis : (u.enterAxis i .braked).axis i = (s.axis i).enter s.now .braked := by
    rw [State.axis_enterAxis, if_pos rfl]
    rfl
  have still := Still.enterAxis u i .braked
  have work : (u.enterAxis i .braked).steady i := by
    refine ⟨(State.waits_enterAxis ..).trans free, ?_⟩
    rw [axis]
    refine ⟨?_, idle, ?_⟩
    · unfold State.quiet
      rw [still.stow]
      exact ⟨stow, formed⟩
    · rw [Antenna.disabling_eq (still.power i.ant)]
      exact power
  have core := (event_core (s := s) work).trans (congrArg Axis.core axis)
  have input := event_input ((Follows.enterAxis u i .braked).touches.same .field (by decide))
  exact ⟨_, run, congrArg AxisInputs.setSwitch input, Axis.core_state core, Axis.core_amplifier core,
    Axis.core_released core⟩

/-! ### Idle brake (R19) -/

theorem State.clearClaims_claims (s : State) (i : AxisId) : ((s.clearClaims i).axis i).claims = .none := by
  rw [State.clearClaims, State.axis_modAxis, if_pos rfl]

/-- A stop held for the end of a handover takes the axis down to its brake. -/
theorem Axis.holdStop_deep (x : Axis) (r : StopReason) :
    ∃ p, (x.holdStop r .braked).pendingStop = some p ∧ p.target ≠ .holding := by
  unfold Axis.holdStop
  cases x.pendingStop with
  | none => exact ⟨_, rfl, nofun⟩
  | some p =>
    refine ⟨_, rfl, ?_⟩
    dsimp only
    cases p.target <;> exact nofun

theorem idle_event (on : s.powered = true) (free : s.waits i = false) (stow : (s.stowOf i.ant).state ≠ .stopping) {e : Epoch}
    (holds : (s.axis i).state = .holding) (timer : (s.axis i).idleTimer = some e)
    (ran : e + (s.axis i).record.idle * 1000 ≤ s.now) :
    ∃ t, exec (.idleBrakeExpiry i) s = .next t
      ∧ ((s.stowOf i.ant).state ≠ .waiting → (t.axis i).claims.any = false)
      ∧ ((s.axis i).releaseCheck = none →
          (t.axis i).state = .braking ∧ (t.axis i).pendingStop = some ⟨some .idle, .braked⟩)
      ∧ ((s.axis i).releaseCheck.isSome = true → (t.axis i).state = .holding ∧
          ∃ p, (t.axis i).pendingStop = some p ∧ p.target ≠ .holding) := by
  set u := s.clearClaims i
  have core : (u.axis i).core = (s.axis i).core := s.clearClaims_axis i i
  have none_ : (u.axis i).claims.any = false := by
    rw [State.clearClaims_claims]; rfl
  have state := (Axis.core_state core).trans holds
  have check := Axis.core_releaseCheck core
  have idle {w : State} (work : w.steady i) (stays : w.stowOf i.ant = s.stowOf i.ant) (none_ : (w.axis i).claims.any = false) :
      (s.stowOf i.ant).state ≠ .waiting → ((event s fun _ => w).axis i).claims.any = false := fun formed =>
    (event_calm s fun _ => w).claims i work (.inl (by unfold State.quiet; rw [stays]; exact ⟨stow, formed⟩)) none_
  have run {w : State} (made : u.takeStop i .idle .braked = w) : exec (.idleBrakeExpiry i) s = .next (event s fun _ => w) :=
    occur_runs on (by rw [State.idleDue, holds, passed_of ⟨e, timer, ran⟩]; rfl) made
  by_cases open_ : (s.axis i).releaseCheck.isSome = true
  · have kept : u.takeStop i .idle .braked = u.modAxis i fun x => x.holdStop .idle .braked := by
      unfold State.takeStop
      rw [state]
      exact (if_neg nofun).trans (if_pos (by rw [check]; exact open_))
    set w := u.modAxis i fun x => x.holdStop .idle .braked
    have axis : w.axis i = (u.axis i).holdStop .idle .braked := by rw [State.axis_modAxis, if_pos rfl]
    have work : w.steady i := State.steady_holding (by rw [axis]; exact state) free stow
    have same := event_core (s := s) work
    refine ⟨_, run kept, idle work rfl (by rw [axis]; exact none_), fun h => ?_, fun _ =>
      ⟨(Axis.core_state same).trans (by rw [axis]; exact state), ?_⟩⟩
    · rw [h] at open_; cases open_
    · rw [Axis.core_pendingStop same, axis]
      exact (u.axis i).holdStop_deep .idle
  · have begun : u.takeStop i .idle .braked = u.goBraking i ⟨some .idle, .braked⟩ := by
      unfold State.takeStop
      rw [state]
      exact (if_neg nofun).trans (if_neg (by rw [check]; exact open_))
    have axis := u.goBraking_axis i ⟨some .idle, .braked⟩
    have work : (u.goBraking i ⟨some .idle, .braked⟩).steady i := State.steady_braking (by rw [axis]; rfl)
      ((State.goBraking_waits ..).trans free) (by rw [State.goBraking_stowOf]; exact stow)
    obtain ⟨braking, pending, -⟩ := event_braking (s := s) (u := u) (i := i) (p := ⟨some .idle, .braked⟩) free stow
    exact ⟨_, run begun, idle work (State.goBraking_stowOf ..) (by rw [axis]; exact none_), fun _ => ⟨braking, pending⟩,
      fun h => absurd h open_⟩

/-- Settles O31: each handover through the state its event puts the axis in. -/
theorem torqueAndBrakeHandOver : Obligations.TorqueAndBrakeHandOver := by
  intro s i on free stow
  exact ⟨current_event on free stow, released_event on free stow, fun brakes idle power formed =>
    set_event on free stow brakes idle power formed, fun e => idle_event on free stow⟩

end Sys2Proof.Machine
end

