-- ==== Sys2Proof/Proofs/ServoSteps.lean ====
section
/-! PROOFS. The servo step (R7, R24, R83). -/

namespace Sys2Proof.Machine

variable {s t : State}

/-! ### One update each, key by key -/

/-- What an update of one key makes of a figure, where the updates of the other keys leave it and what it is made of. -/
theorem forEach_at {κ α β : Type} {f : State → κ → State} {k : κ} {π : State → α} {ρ : State → β} {g : β → α}
    (before : ∀ s j, j ≠ k → ρ (f s j) = ρ s) (own : ∀ s, π (f s k) = g (ρ s)) (after : ∀ s j, j ≠ k → π (f s j) = π s)
    {ks : List κ} (once : ks.Nodup) (mem : k ∈ ks) (s : State) : π (forEach ks f s) = g (ρ s) := by
  have rest : ∀ (js : List κ) (u : State), k ∉ js → π (forEach js f u) = π u := by
    intro js
    induction js with
    | nil => exact fun _ _ => rfl
    | cons j js ih =>
      intro u away
      exact (ih _ fun h => away (List.mem_cons_of_mem _ h)).trans
        (after u j fun e => away (e ▸ List.mem_cons_self))
  induction ks generalizing s with
  | nil => cases mem
  | cons j js ih =>
    obtain ⟨first, later⟩ := List.nodup_cons.mp once
    by_cases e : j = k
    · subst e
      exact (rest js _ first).trans (own s)
    · exact (ih later ((List.mem_cons.mp mem).resolve_left (Ne.symm e)) _).trans (congrArg g (before s j e))

/-- A figure no update touches. -/
theorem forEach_same {κ α : Type} {f : State → κ → State} {π : State → α} (h : ∀ s j, π (f s j) = π s) (ks : List κ)
    (s : State) : π (forEach ks f s) = π s := by
  induction ks generalizing s with
  | nil => rfl
  | cons j js ih => exact (ih _).trans (h s j)

/-! ### The field at a step (R9, R10, R20) -/

/-- An antenna once the timers that follow its field inputs have run or stopped. -/
def Antenna.follow (v : Antenna) (io : AntInputs) (now : Epoch) : Antenna :=
  let w := v.runBand (!inBand io.bus) now
  { w with axes := w.axes.map fun ax x => x.runDisagree (io.axes.get ax) now }

theorem State.readField_ant (s : State) (io : FieldInputs) (a : Ant) :
    (s.readField io).ants.get a = (s.ants.get a).follow (io.ants.get a) s.now := by
  have run := forEach_at (f := fun s b => s.runFieldTimers b) (k := a) (π := fun s => s.ants.get a)
    (ρ := fun s => (s.ants.get a, s.field.ants.get a, s.now)) (g := fun p => p.1.follow p.2.1 p.2.2)
    (fun s b other => by simp [State.runFieldTimers, State.modAnt, State.setAnt, other.symm]; rfl)
    (fun s => by simp [State.runFieldTimers, State.modAnt, State.setAnt]; rfl)
    (fun s b other => by simp [State.runFieldTimers, State.modAnt, State.setAnt, other.symm])
    Ant.all_nodup (Ant.mem_all a) { s with field := io }
  exact run

theorem State.readField_axis (s : State) (io : FieldInputs) (i : AxisId) :
    (s.readField io).axis i = (s.axis i).runDisagree ((io.ants.get i.ant).axes.get i.ax) s.now := by
  obtain ⟨a, ax⟩ := i
  rw [State.axis, State.readField_ant]
  cases ax <;> rfl

/-! ### An axis at a step (R7, R24) -/

theorem State.markLimit_kept (s : State) (j i : AxisId) : (s.markLimit j).axis i = s.axis i
    ∧ (s.markLimit j).field = s.field ∧ (s.markLimit j).clock = s.clock ∧ (s.markLimit j).tracks = s.tracks
    ∧ (s.markLimit j).groups = s.groups ∧ (s.markLimit j).ants = s.ants := by
  unfold State.markLimit
  split <;> exact ⟨rfl, rfl, rfl, rfl, rfl, rfl⟩

theorem State.jogMotion_away {i : AxisId} {q : Jog} (jog : s.jog i.ant = some q) (other : q.axis ≠ i.ax) :
    s.jogMotion i = none := by
  unfold State.jogMotion
  rw [show (s.locks.authority.get i.ant).jog = some q from jog]
  exact if_neg other

theorem State.jogMotion_congr {i : AxisId} (jog : t.jog i.ant = s.jog i.ant) (axis : t.axis i = s.axis i)
    (clock : t.clock = s.clock) : t.jogMotion i = s.jogMotion i := by
  have jog' : (t.locks.authority.get i.ant).jog = (s.locks.authority.get i.ant).jog := jog
  unfold State.jogMotion State.now
  rw [jog', axis, clock]

/-- Only the jog's own axis moves by it (R111). -/
theorem State.jogMotion_own {i : AxisId} {m : Mdeg × Mdeg × Bool} (h : s.jogMotion i = some m) :
    ∃ q, s.jog i.ant = some q ∧ q.axis = i.ax := by
  cases e : s.jog i.ant with
  | none =>
    unfold State.jogMotion at h
    rw [show (s.locks.authority.get i.ant).jog = none from e] at h
    cases h
  | some q =>
    refine ⟨q, rfl, ?_⟩
    by_contra other
    rw [State.jogMotion_away e other] at h
    cases h

theorem State.jog_modJog (s : State) (a b : Ant) (f : Jog → Jog) :
    (s.modJog a f).jog b = if b = a then (s.jog a).map f else s.jog b := by
  unfold State.jog
  rw [show (s.modJog a f).locks.authority.get b = if b = a then { s.locks.authority.get a with
    jog := (s.locks.authority.get a).jog.map f } else s.locks.authority.get b from State.authority_get_modAuthority ..]
  split <;> rfl

/-- The at-limit mark of another axis leaves the jog's motion on this one. -/
theorem State.markLimit_jogMotion (s : State) {j i : AxisId} (other : j ≠ i) :
    (s.markLimit j).jogMotion i = s.jogMotion i := by
  unfold State.markLimit
  split
  · rename_i m state motion
    obtain ⟨q, jog, axis⟩ := State.jogMotion_own motion
    have set := s.jog_modJog j.ant i.ant fun q => { q with ramp := q.ramp.map fun r => { r with atLimit := m.2.2 } }
    by_cases same : i.ant = j.ant
    · have apart : q.axis ≠ i.ax := by
        rw [axis]
        intro ax
        obtain ⟨a, x⟩ := i
        obtain ⟨b, y⟩ := j
        dsimp only at same ax
        exact other (by rw [same, ax])
      rw [if_pos same, jog] at set
      rw [State.jogMotion_away set apart, State.jogMotion_away (by rw [same]; exact jog) apart]
    · rw [if_neg same] at set
      exact State.jogMotion_congr set rfl rfl
  · rfl

/-- What a servo step reads of an axis. -/
def State.reads (s : State) (i : AxisId) : Axis × Option (Mdeg × Mdeg) × AxisInputs × Epoch :=
  (s.axis i, s.motionOf i, s.axisIn i, s.now)

theorem State.motionOf_congr {i : AxisId} (axis : t.axis i = s.axis i) (field : t.field = s.field) (clock : t.clock = s.clock)
    (tracks : t.tracks = s.tracks) (jog : t.jogMotion i = s.jogMotion i) : t.motionOf i = s.motionOf i := by
  unfold State.motionOf State.axisIn State.track State.now
  rw [axis, field, clock, tracks, jog]

theorem State.servoAxis_other {j i : AxisId} (other : j ≠ i) :
    (s.servoAxis j).axis i = s.axis i ∧ (s.servoAxis j).reads i = s.reads i := by
  obtain ⟨axis, field, clock, tracks, -, -⟩ := s.markLimit_kept j i
  have kept : (s.servoAxis j).axis i = s.axis i := by
    rw [State.servoAxis, State.axis_modAxis, if_neg other.symm, axis]
  refine ⟨kept, ?_⟩
  have jog : (s.servoAxis j).jogMotion i = s.jogMotion i := by
    refine Eq.trans ?_ (s.markLimit_jogMotion other)
    unfold State.jogMotion
    rw [kept, axis]
    rfl
  have motion := State.motionOf_congr (t := s.servoAxis j) kept field clock tracks jog
  have now : (s.servoAxis j).now = s.now := congrArg (·.epoch) clock
  have input : (s.servoAxis j).axisIn i = s.axisIn i := congrArg (fun io : FieldInputs => (io.ants.get i.ant).axes.get i.ax) field
  unfold State.reads
  rw [kept, motion, now, input]

/-- An axis after a servo step, from what the step reads of it (R7, R24). -/
def served (p : Axis × Option (Mdeg × Mdeg) × AxisInputs × Epoch) : Axis :=
  (p.1.place p.2.1).checkFollowing p.2.2.1 p.2.2.2

theorem State.servoAxis_own (s : State) (i : AxisId) : (s.servoAxis i).axis i = served (s.reads i) := by
  rw [State.servoAxis, State.axis_modAxis, if_pos rfl, (s.markLimit_kept i i).1]
  rfl

theorem State.servoGroup_kept (s : State) (g : GroupId) : (s.servoGroup g).ants = s.ants
    ∧ (s.servoGroup g).field = s.field ∧ (s.servoGroup g).clock = s.clock := ⟨rfl, rfl, rfl⟩

theorem State.servo_axis (s : State) (io : FieldInputs) (i : AxisId) :
    (s.servo io).axis i = served ((s.readField io).reads i) := by
  have groups := forEach_same (f := fun s g => s.servoGroup g) (π := fun s => s.axis i) (fun _ _ => rfl) GroupId.all
    (forEach AxisId.all (fun s i => s.servoAxis i) (s.readField io))
  refine groups.trans ?_
  exact forEach_at (f := fun s j => s.servoAxis j) (k := i) (π := fun s => s.axis i) (ρ := fun s => s.reads i) (g := served)
    (fun s j other => (State.servoAxis_other other).2) (fun s => s.servoAxis_own i)
    (fun s j other => (State.servoAxis_other other).1) AxisId.all_nodup (AxisId.mem_all i) _

/-! ### Antennas and groups at a step (R9, R10, R83) -/

theorem State.servoAxis_power (s : State) (j : AxisId) (a : Ant) :
    ((s.servoAxis j).ants.get a).power = (s.ants.get a).power
    ∧ ((s.servoAxis j).ants.get a).inBandTimer = (s.ants.get a).inBandTimer
    ∧ ((s.servoAxis j).ants.get a).outBandTimer = (s.ants.get a).outBandTimer := by
  have set (u : State) (x : Axis) : ((u.setAxis j x).ants.get a).power = (u.ants.get a).power
      ∧ ((u.setAxis j x).ants.get a).inBandTimer = (u.ants.get a).inBandTimer
      ∧ ((u.setAxis j x).ants.get a).outBandTimer = (u.ants.get a).outBandTimer := by
    simp only [State.setAxis, State.setAnt, Six.get_set]
    split
    · rename_i h; subst h; exact ⟨rfl, rfl, rfl⟩
    · exact ⟨rfl, rfl, rfl⟩
  have ants := (s.markLimit_kept j j).2.2.2.2.2
  have h := set (s.markLimit j) (((s.markLimit j).axis j).place (s.motionOf j) |>.checkFollowing (s.axisIn j) s.now)
  rw [ants] at h
  exact h

theorem State.servo_power (s : State) (io : FieldInputs) (a : Ant) :
    ((s.servo io).ants.get a).power = (s.ants.get a).power
    ∧ ((s.servo io).ants.get a).inBandTimer = ((s.ants.get a).follow (io.ants.get a) s.now).inBandTimer
    ∧ ((s.servo io).ants.get a).outBandTimer = ((s.ants.get a).follow (io.ants.get a) s.now).outBandTimer := by
  have groups := forEach_same (f := fun s g => s.servoGroup g) (π := fun s => s.ants.get a) (fun _ _ => rfl) GroupId.all
    (forEach AxisId.all (fun s i => s.servoAxis i) (s.readField io))
  have axes := forEach_same (f := fun s j => s.servoAxis j)
    (π := fun s => ((s.ants.get a).power, (s.ants.get a).inBandTimer, (s.ants.get a).outBandTimer))
    (fun s j => by obtain ⟨p, q, r⟩ := s.servoAxis_power j a; rw [p, q, r]) AxisId.all (s.readField io)
  rw [s.readField_ant] at axes
  obtain ⟨power, timers⟩ := Prod.mk.injEq .. ▸ axes
  obtain ⟨inBand, outBand⟩ := Prod.mk.injEq .. ▸ timers
  have at_ : (s.servo io).ants.get a = (forEach AxisId.all (fun s i => s.servoAxis i) (s.readField io)).ants.get a := groups
  rw [at_]
  exact ⟨power, inBand, outBand⟩

theorem State.readField_reads (s : State) (io : FieldInputs) :
    (s.readField io).field = io ∧ (s.readField io).clock = s.clock ∧ (s.readField io).tracks = s.tracks
    ∧ (s.readField io).locks = s.locks ∧ (s.readField io).groups = s.groups := by
  have h := forEach_same (f := fun s a => s.runFieldTimers a)
    (π := fun s => (s.field, s.clock, s.tracks, s.locks, s.groups)) (fun _ _ => rfl) Ant.all { s with field := io }
  simp only [Prod.mk.injEq] at h
  exact h

theorem State.servoAxes_reads (s : State) (io : FieldInputs) :
    (forEach AxisId.all (fun s i => s.servoAxis i) (s.readField io)).field = io
    ∧ (forEach AxisId.all (fun s i => s.servoAxis i) (s.readField io)).clock = s.clock
    ∧ (forEach AxisId.all (fun s i => s.servoAxis i) (s.readField io)).groups = s.groups := by
  have h := forEach_same (f := fun s j => s.servoAxis j) (π := fun s => (s.field, s.clock, s.groups)) (fun s j => by
    obtain ⟨-, field, clock, -, groups, -⟩ := s.markLimit_kept j j
    simp only [Prod.mk.injEq]
    exact ⟨field, clock, groups⟩) AxisId.all (s.readField io)
  simp only [Prod.mk.injEq] at h
  obtain ⟨field, clock, -, -, groups⟩ := s.readField_reads io
  exact ⟨h.1.trans field, h.2.1.trans clock, h.2.2.trans groups⟩

theorem State.servo_field (s : State) (io : FieldInputs) : (s.servo io).field = io :=
  (forEach_same (f := fun s g => s.servoGroup g) (π := fun s => s.field) (fun _ _ => rfl) GroupId.all _).trans
    (s.servoAxes_reads io).1

theorem State.servo_settles (s : State) (io : FieldInputs) (g : GroupId) (h : (s.groups.get g).state = .running) :
    ((s.servo io).groups.get g).settleTimer
      = runWhile s.now ((s.servo io).groupSettled (s.groups.get g)) (s.groups.get g).settleTimer := by
  set u := forEach AxisId.all (fun s i => s.servoAxis i) (s.readField io)
  obtain ⟨-, clock, groups⟩ := s.servoAxes_reads io
  have now : u.now = s.now := congrArg (·.epoch) clock
  have settled : (s.servo io).groupSettled = u.groupSettled :=
    forEach_same (f := fun s g => s.servoGroup g) (π := fun s => s.groupSettled) (fun _ _ => rfl) GroupId.all u
  have timer := forEach_at (f := fun s g => s.servoGroup g) (k := g) (π := fun s => (s.groups.get g).settleTimer)
    (ρ := fun s => (s.groups.get g, s.groupSettled, s.now))
    (g := fun p => if p.1.state = .running then runWhile p.2.2 (p.2.1 p.1) p.1.settleTimer else p.1.settleTimer)
    (fun s j other => by
      have away : (s.servoGroup j).groups.get g = s.groups.get g :=
        (State.groups_get_modGroup ..).trans (if_neg other.symm)
      exact Prod.ext away rfl)
    (fun s => by
      have own : (s.servoGroup g).groups.get g = _ := (State.groups_get_modGroup ..).trans (if_pos rfl)
      rw [own]
      split <;> rfl)
    (fun s j other => by
      have away : (s.servoGroup j).groups.get g = s.groups.get g :=
        (State.groups_get_modGroup ..).trans (if_neg other.symm)
      rw [away])
    GroupId.all_nodup (GroupId.mem_all g) u
  rw [show s.servo io = forEach GroupId.all (fun s g => s.servoGroup g) u from rfl] at settled ⊢
  rw [timer, settled, show u.groups.get g = s.groups.get g by rw [groups], now, if_pos h]

/-! ### The step -/

theorem State.readField_motionOf (s : State) (io : FieldInputs) (i : AxisId) :
    (s.readField io).reads i = ((s.axis i).runDisagree ((io.ants.get i.ant).axes.get i.ax) s.now,
      (s.readField io).motionOf i, (io.ants.get i.ant).axes.get i.ax, s.now) := by
  obtain ⟨field, clock, -⟩ := s.readField_reads io
  have now : (s.readField io).now = s.now := congrArg (·.epoch) clock
  rw [State.reads, State.readField_axis, now, State.axisIn, field]

/-- What a step commands, by the state of the axis (R7). -/
theorem State.readField_motion (s : State) (io : FieldInputs) (i : AxisId) :
    ((s.axis i).state.followsReading = true → (s.readField io).motionOf i
        = some ((s.axis i).followed ((io.ants.get i.ant).axes.get i.ax), 0))
    ∧ ((s.axis i).state = .slewing → (s.readField io).motionOf i = (s.axis i).profile.map fun p => p.eval s.now)
    ∧ ((s.axis i).state = .tracking →
        (s.readField io).motionOf i = (s.track i.ant).activeSegment.map fun g => g.eval i.ax s.now)
    ∧ ((s.axis i).state = .jogging → (s.readField io).motionOf i = (s.jogMotion i).map fun m => (m.1, m.2.1))
    ∧ ((s.axis i).state = .stopping →
        (s.readField io).motionOf i = (s.axis i).stop.map fun r => r.eval (s.axis i).record s.now)
    ∧ ((s.axis i).state = .holding ∨ (s.axis i).state = .torqueUp ∨ (s.axis i).state = .braking
        ∨ (s.axis i).state = .faulted .brakeSet → (s.readField io).motionOf i = none) := by
  obtain ⟨field, clock, tracks, locks, -⟩ := s.readField_reads io
  have now : (s.readField io).now = s.now := congrArg (·.epoch) clock
  have jog : (s.readField io).jogMotion i = s.jogMotion i := by
    unfold State.jogMotion
    rw [State.readField_axis, locks, now]
    rfl
  have motion : (s.readField io).motionOf i = match (s.axis i).state with
      | .slewing => (s.axis i).profile.map fun p => p.eval s.now
      | .tracking => (s.track i.ant).activeSegment.map fun g => g.eval i.ax s.now
      | .jogging => (s.jogMotion i).map fun m => (m.1, m.2.1)
      | .stopping => (s.axis i).stop.map fun r => r.eval (s.axis i).record s.now
      | st => if st.followsReading then some ((s.axis i).followed ((io.ants.get i.ant).axes.get i.ax), 0) else none := by
    unfold State.motionOf State.track State.axisIn
    rw [jog, State.readField_axis, now, tracks, field]
    dsimp only
    rw [show ((s.axis i).runDisagree ((io.ants.get i.ant).axes.get i.ax) s.now).state = (s.axis i).state from rfl]
    cases (s.axis i).state <;> rfl
  rw [motion]
  refine ⟨fun follows => ?_, fun e => by rw [e], fun e => by rw [e], fun e => by rw [e], fun e => by rw [e], fun e => ?_⟩
  · cases e : (s.axis i).state <;> rw [e] at follows <;> exact if_pos follows
  · rcases e with e | e | e | e <;> rw [e] <;> rfl

theorem Axis.place_kept (x : Axis) (m : Option (Mdeg × Mdeg)) : (x.place m).state = x.state
    ∧ (x.place m).record = x.record ∧ (x.place m).followTimer = x.followTimer ∧ (x.place m).active = x.active
    ∧ (x.place m).disagreeTimer = x.disagreeTimer := by
  unfold Axis.place
  split <;> exact ⟨rfl, rfl, rfl, rfl, rfl⟩

theorem runWhile_and (now : Epoch) (b : Bool) (p : Prop) [Decidable p] (x : Timer) :
    runWhile now (b && decide p) x = if b = true ∧ p then some (x.getD now) else none := by simp [runWhile]

/-- Settles O28: what the step makes of each axis, antenna and group, one update after another. -/
theorem servoStepMovesTheAxes : Obligations.ServoStepMovesTheAxes := by
  intro s io on
  have told := (Moves.announce s (s.servo io)).touches
  have run : exec (.servoStep io) s = .next (announce s (s.servo io)) := by
    refine (show exec (.servoStep io) s = occurAlone s true fun s => s.servo io from rfl).trans ?_
    rw [occurAlone, onPower, if_pos on, if_pos rfl]
  have ants : (announce s (s.servo io)).ants = (s.servo io).ants := told.same .drives (by decide)
  have field : (announce s (s.servo io)).field = io := (told.same .field (by decide)).trans (s.servo_field io)
  have groups : (announce s (s.servo io)).groups = (s.servo io).groups := told.same .groups (by decide)
  refine ⟨_, run, field, fun i => ?_, fun a => ?_, fun g running => ?_⟩
  · have axis : (announce s (s.servo io)).axis i
        = served ((s.axis i).runDisagree ((io.ants.get i.ant).axes.get i.ax) s.now, (s.readField io).motionOf i,
          (io.ants.get i.ant).axes.get i.ax, s.now) := by
      rw [← State.readField_motionOf, ← State.servo_axis]
      exact congrArg (fun v : Six Antenna => (v.get i.ant).axes.get i.ax) ants
    have input : (announce s (s.servo io)).axisIn i = (io.ants.get i.ant).axes.get i.ax := by rw [State.axisIn, field]
    obtain ⟨follows, slews, tracks, jogs, stops, stays⟩ := s.readField_motion io i
    rw [axis, input]
    obtain ⟨state, record, timer, active, disagree⟩ := ((s.axis i).runDisagree ((io.ants.get i.ant).axes.get i.ax)
      s.now).place_kept ((s.readField io).motionOf i)
    have placed {m : Mdeg × Mdeg} (h : (s.readField io).motionOf i = some m) : ∀ x : Axis,
        ((x.place ((s.readField io).motionOf i)).position, (x.place ((s.readField io).motionOf i)).velocity) = m := by
      rw [h]; exact fun _ => rfl
    refine ⟨state, fun h => ?_, fun p h e => placed (by rw [slews h, e]; rfl) _,
      fun g h e => placed (by rw [tracks h, e]; rfl) _, fun r h e => placed (by rw [stops h, e]; rfl) _,
      fun m h e => placed (by rw [jogs h, e]; rfl) _, fun h => ?_, ?_, ?_, ?_⟩
    · have m := placed (follows h) ((s.axis i).runDisagree ((io.ants.get i.ant).axes.get i.ax) s.now)
      obtain ⟨position, velocity⟩ := Prod.mk.injEq .. ▸ m
      exact ⟨velocity, position⟩
    · have none_ := stays h
      unfold served
      rw [none_]
      exact ⟨rfl, rfl⟩
    · rfl
    · have known : (served ((s.axis i).runDisagree ((io.ants.get i.ant).axes.get i.ax) s.now, (s.readField io).motionOf i,
          (io.ants.get i.ant).axes.get i.ax, s.now)).followTimer = runWhile s.now _ _ := rfl
      rw [known, state, record, timer, runWhile_and]
      rfl
    · refine disagree.trans ?_
      rfl
  · rw [ants, field]
    obtain ⟨power, inTimer, outTimer⟩ := s.servo_power io a
    refine ⟨inTimer.trans ?_, outTimer.trans ?_, Antenna.power_bus power, Antenna.power_outOfBand power⟩
    · simp [Antenna.follow, Antenna.runBand, runWhile, inBand]
    · simp [Antenna.follow, Antenna.runBand, runWhile, inBand, imp_iff_not_or]
  · rw [groups]
    refine (s.servo_settles io g running).trans ?_
    have settled : (announce s (s.servo io)).groupSettled = (s.servo io).groupSettled := by
      unfold State.groupSettled State.axisSettled State.axis State.axisIn
      rw [ants, field, s.servo_field io]
    rw [settled]
    rfl

end Sys2Proof.Machine
end

