-- ==== Sys2Proof/Proofs/DriveResets.lean ====
section
/-! PROOFS. DRIVE_RESET (R27). -/

namespace Sys2Proof.Machine

variable {s t : State}

/-! ### No stop faults an axis (R18) -/

theorem State.endStop_cause (s : State) (i : AxisId) (r : StopReason) (d : StopTarget) :
    ((s.endStop i r d).axis i).state.cause = none := by
  have braking (p : PendingStop) : ((s.goBraking i p).axis i).state.cause = none := by
    rw [State.goBraking_axis]; rfl
  cases d with
  | holding => rw [State.endStop, State.axis_enterAxis, if_pos rfl]; rfl
  | braked => exact braking _
  | off => exact braking _

theorem State.startStop_cause (s : State) (i : AxisId) (r : StopReason) (d : StopTarget) :
    ((s.startStop i r d).axis i).state.cause = none := by
  unfold State.startStop
  dsimp only
  split
  · exact State.endStop_cause ..
  · rw [State.axis_enterAxis, if_pos rfl]; rfl

theorem State.takeStop_cause (s : State) (i : AxisId) (r : StopReason) (d : StopTarget) :
    ((s.takeStop i r d).axis i).state.cause = (s.axis i).state.cause := by
  have hold : ((s.modAxis i fun x => x.holdStop r d).axis i).state = (s.axis i).state := by
    rw [State.axis_modAxis, if_pos rfl]; rfl
  unfold State.takeStop
  cases e : (s.axis i).state with
  | off | precharge | braked | faulted => dsimp only; rw [e]
  | torqueUp =>
    dsimp only
    split
    · rw [e]
    · rw [hold, e]
  | holding =>
    dsimp only
    split
    · rw [e]
    · split
      · rw [hold, e]
      · rw [State.goBraking_axis]; rfl
  | slewing | tracking | jogging => exact State.startStop_cause ..
  | stopping => dsimp only; rw [State.axis_modAxis, if_pos rfl]; exact congrArg AxisState.cause e
  | braking => dsimp only; rw [hold, e]

/-- A stop request faults no axis, and frees none that is FAULTED. -/
theorem State.stopAxis_cause (s : State) (i j : AxisId) (r : StopReason) (d : StopTarget) :
    ((s.stopAxis i r d).axis j).state.cause = (s.axis j).state.cause := by
  by_cases e : j = i
  · subst e
    unfold State.stopAxis
    split
    · exact State.takeStop_cause ..
    · rw [State.takeStop_cause, Axis.core_state (s.clearClaims_axis j j)]
  · rw [Axis.core_state ((Still.stopAxis s i r d).core j fun h => e h.1)]

theorem State.stopBoth_cause (s : State) (a : Ant) (j : AxisId) (r : StopReason) (d : StopTarget) :
    ((s.stopBoth a r d).axis j).state.cause = (s.axis j).state.cause :=
  forEach_same (f := fun s i => s.stopAxis i r d) (π := fun s => (s.axis j).state.cause)
    (fun s i => s.stopAxis_cause i j r d) a.axes s

/-! ### The reset of an antenna (R27) -/

/-- The axes of an antenna once each has been reset. -/
def State.resetAxes (s : State) (a : Ant) : State := forEach a.axes (fun s i => s.resetAxis i) s

/-- What a reset reads of an axis (R25, R27). -/
def State.resetReads (s : State) (i : AxisId) : Axis × Option FaultCause × BusState × AxisInputs × Epoch :=
  (s.axis i, s.firstCause i, (s.ants.get i.ant).bus, s.axisIn i, s.now)

/-- A reset axis, from what the reset reads of it. -/
def resetOf (p : Axis × Option FaultCause × BusState × AxisInputs × Epoch) : Axis :=
  if p.1.state.isFaulted then
    match p.2.1 with
    | some c => p.1.enter p.2.2.2.2 (.faulted c)
    | none => (p.1.enter p.2.2.2.2 (if p.2.2.1 = .up then .braked else .off)).pickEncoder p.2.2.2.1
  else p.1

theorem State.firstCause_congr {i : AxisId} (axis : t.axis i = s.axis i) (input : t.axisIn i = s.axisIn i)
    (power : (t.ants.get i.ant).power = (s.ants.get i.ant).power) : t.firstCause i = s.firstCause i := by
  have same : t.causePresent i = s.causePresent i := by
    funext c
    unfold State.causePresent
    dsimp only
    rw [axis, input, Antenna.power_bus power, Antenna.power_outOfBand power]
  rw [State.firstCause, same]
  rfl

theorem Still.resetAxis (s : State) (i : AxisId) : Still (· = i) s (s.resetAxis i) := by
  unfold State.resetAxis
  refine .ite ?_ (.refl ..)
  split
  · exact .enterAxis ..
  · exact (Still.enterAxis ..).trans (.modAxis_self ..)

theorem State.resetAxis_own (s : State) (i : AxisId) : (s.resetAxis i).axis i = resetOf (s.resetReads i) := by
  unfold State.resetAxis resetOf State.resetReads
  dsimp only
  split
  · cases s.firstCause i with
    | some c => exact (State.axis_enterAxis ..).trans (if_pos rfl)
    | none =>
      refine (State.axis_modAxis ..).trans ((if_pos rfl).trans ?_)
      rw [State.axis_enterAxis, if_pos rfl]
  · rfl

theorem State.resetAxis_other {j i : AxisId} (other : j ≠ i) :
    (s.resetAxis j).axis i = s.axis i ∧ (s.resetAxis j).resetReads i = s.resetReads i := by
  have kept : (s.resetAxis j).axis i = s.axis i := by
    unfold State.resetAxis
    split
    · split
      · rw [State.axis_enterAxis, if_neg other.symm]
      · rw [State.axis_modAxis, if_neg other.symm, State.axis_enterAxis, if_neg other.symm]
    · rfl
  have moved := (Moves.resetAxis s j).touches
  have input : (s.resetAxis j).axisIn i = s.axisIn i :=
    congrArg (fun io : FieldInputs => (io.ants.get i.ant).axes.get i.ax) (moved.same .field (by decide))
  have power := (Still.resetAxis s j).power i.ant
  have now : (s.resetAxis j).now = s.now := congrArg (·.epoch) (moved.same .clock (by decide))
  refine ⟨kept, ?_⟩
  rw [State.resetReads, kept, State.firstCause_congr kept input power, Antenna.power_bus power, input, now]
  rfl

theorem State.resetAxes_axis (s : State) (i : AxisId) : (s.resetAxes i.ant).axis i = resetOf (s.resetReads i) :=
  forEach_at (f := fun s j => s.resetAxis j) (k := i) (π := fun s => s.axis i) (ρ := fun s => s.resetReads i) (g := resetOf)
    (fun _ _ other => (State.resetAxis_other other).2) (fun s => s.resetAxis_own i)
    (fun _ _ other => (State.resetAxis_other other).1) (ks := i.ant.axes) (by simp [Ant.axes])
    (by obtain ⟨a, x⟩ := i; cases x <;> simp [Ant.axes]) s

/-- After the reset an axis is FAULTED for its first cause present, if it was FAULTED and one is (R27). -/
theorem State.resetAxes_cause (s : State) (i : AxisId) : ((s.resetAxes i.ant).axis i).state.cause
    = if (s.axis i).state.isFaulted then s.firstCause i else none := by
  rw [State.resetAxes_axis]
  unfold resetOf State.resetReads
  dsimp only
  split
  · cases s.firstCause i with
    | some c => rfl
    | none =>
      dsimp only
      have picked (x : Axis) (io : AxisInputs) : (x.pickEncoder io).state = x.state := by
        unfold Axis.pickEncoder; split <;> rfl
      rw [picked]
      cases (s.ants.get i.ant).bus <;> rfl
  · rename_i well
    exact AxisState.cause_none (Bool.eq_false_iff.mpr well)

/-- A DRIVE_FAILED stow is let go only where no axis is FAULTED (R127). -/
theorem State.redrive_spec (s : State) (a : Ant) : (∀ i, ((s.redrive a).axis i).state.cause = (s.axis i).state.cause)
    ∧ (s.anyFaulted a = true ∨ (s.stowOf a).state ≠ .driveFailed → s.redrive a = s) := by
  unfold State.redrive
  split
  · rename_i frees
    refine ⟨fun i => ?_, fun h => ?_⟩
    · split
      · exact State.stopBoth_cause (s.setStow a .blocked) a i .blocked .braked
      · rfl
    · rcases h with faulted | other
      · rw [frees.2] at faulted; cases faulted
      · exact absurd frees.1 other
  · exact ⟨fun _ => rfl, fun _ => rfl⟩

/-! ### Needs of an axis that takes no torque (R166) -/

/-- An axis whose waiting needs are all void stays as it is through what follows. -/
theorem State.settle_core {i : AxisId} (void : ∀ n ∈ s.feed.queue, n.axis = i → s.needVoid n = true)
    (rest : ∀ t : State, t.axis i = s.axis i → t.waits i = false → t.stow = s.stow → t.ants = s.ants → t.steady i) :
    (s.settle.axis i).core = (s.axis i).core :=
  ((Calm.settleRest s).axes i (State.steady_withdrawVoid void rest)).1.trans ((Still.withdrawVoid s).core i id)

theorem State.settle_faulted {i : AxisId} (h : (s.axis i).state.isFaulted = true) :
    (s.settle.axis i).core = (s.axis i).core := by
  refine State.settle_core (fun n _ at_ => ?_) fun t axis free _ _ => ⟨free, ?_⟩
  · rw [State.needVoid, at_, h, Bool.or_true]
    rfl
  · rw [axis]
    cases e : (s.axis i).state <;> rw [e] at h <;> trivial

/-- An axis that stands without claims, on a bus that is not being taken down and with no stow about, stays so. -/
theorem State.settle_down {i : AxisId} (down : (s.axis i).state = .off ∨ (s.axis i).state = .braked)
    (idle : (s.axis i).claims.any = false) (quiet : s.quiet i.ant) (power : (s.ants.get i.ant).disabling = false) :
    (s.settle.axis i).core = (s.axis i).core := by
  refine State.settle_core (fun n _ at_ => ?_) fun t axis free stow ants => ⟨free, ?_⟩
  · rw [State.needVoid, at_, idle]
    rfl
  · have quiet' : t.quiet i.ant := by
      unfold State.quiet State.stowOf
      rw [stow]
      exact quiet
    rcases down with e | e <;> rw [axis, e]
    · exact quiet'
    · exact ⟨quiet', idle, by rw [ants]; exact power⟩

/-! ### The request (R27) -/

/-- The axes a DRIVE_RESET leaves FAULTED, each with its cause. -/
def State.leftFaulted (s : State) (a : Ant) : List (AxisId × FaultCause) :=
  a.axes.filterMap fun i => if (s.axis i).state.isFaulted then (s.firstCause i).map fun c => (i, c) else none

theorem State.resetDrives_cause (s : State) (i : AxisId) : ((s.resetDrives i.ant).axis i).state.cause
    = if (s.axis i).state.isFaulted then s.firstCause i else none := by
  refine Eq.trans ?_ (s.resetAxes_cause i)
  rw [show s.resetDrives i.ant = if (s.resetAxes i.ant).wind.active then (s.resetAxes i.ant).redrive i.ant
    else s.resetAxes i.ant from rfl]
  split
  · exact (State.redrive_spec _ _).1 i
  · rfl

theorem State.faultList_resetDrives (s : State) (a : Ant) : (s.resetDrives a).faultList a = s.leftFaulted a := by
  unfold State.faultList State.leftFaulted
  refine List.filterMap_congr fun i mem => ?_
  obtain rfl : i.ant = a := by
    simp only [Ant.axes, List.mem_cons, List.not_mem_nil, or_false] at mem
    rcases mem with rfl | rfl <;> rfl
  rw [State.resetDrives_cause]
  split <;> rfl

theorem AxisState.faulted_of_cause {x : AxisState} {c : FaultCause} (h : x.cause = some c) : x = .faulted c := by
  cases x
  case faulted k => exact congrArg AxisState.faulted (Option.some.inj h)
  all_goals cases h

/-- Where an axis stays FAULTED or the stow is not DRIVE_FAILED, the reset is that of the axes alone. -/
theorem State.resetDrives_eq {a : Ant} (h : (s.resetAxes a).anyFaulted a = true ∨ (s.stowOf a).state ≠ .driveFailed) :
    s.resetDrives a = s.resetAxes a := by
  have stow : (s.resetAxes a).stowOf a = s.stowOf a :=
    forEach_same (f := fun s j => s.resetAxis j) (π := fun s => s.stowOf a) (fun s j => (Still.resetAxis s j).stow a) a.axes s
  rw [show s.resetDrives a = if (s.resetAxes a).wind.active then (s.resetAxes a).redrive a else s.resetAxes a from rfl]
  split
  · exact (State.redrive_spec _ a).2 (by rw [stow]; exact h)
  · rfl

/-- A freed axis of an UNSTOWED antenna (R27). -/
theorem resetOf_freed {x : Axis} {io : AxisInputs} {b : BusState} {now : Epoch} (faulted : x.state.isFaulted = true) :
    (resetOf (x, none, b, io, now)).state = (if b = .up then .braked else .off)
    ∧ (resetOf (x, none, b, io, now)).claims = x.claims
    ∧ (resetOf (x, none, b, io, now)).active = (if x.healthy io x.active = false ∧ x.healthy io x.active.other = true
        then x.active.other else x.active) := by
  have healthy (st : AxisState) (e : Enc) : (x.enter now st).healthy io e = x.healthy io e := by cases e <;> rfl
  have picked (y : Axis) : (y.pickEncoder io).state = y.state ∧ (y.pickEncoder io).claims = y.claims
      ∧ (y.pickEncoder io).active = if y.healthy io y.active = false ∧ y.healthy io y.active.other = true
        then y.active.other else y.active := by
    unfold Axis.pickEncoder
    cases y.healthy io y.active <;> cases y.healthy io y.active.other <;> exact ⟨rfl, rfl, rfl⟩
  rw [resetOf, if_pos faulted]
  obtain ⟨state, claims, active⟩ := picked (x.enter now (if b = .up then .braked else .off))
  refine ⟨state, claims, active.trans ?_⟩
  rw [healthy, healthy]
  rfl

theorem State.resetAxes_freed {i : AxisId} (faulted : (s.axis i).state.isFaulted = true) (free : s.firstCause i = none) :
    ((s.resetAxes i.ant).axis i).state = (if (s.ants.get i.ant).bus = .up then .braked else .off)
    ∧ ((s.resetAxes i.ant).axis i).claims = (s.axis i).claims
    ∧ ((s.resetAxes i.ant).axis i).active = (if (s.axis i).healthy (s.axisIn i) (s.axis i).active = false
        ∧ (s.axis i).healthy (s.axisIn i) (s.axis i).active.other = true
      then (s.axis i).active.other else (s.axis i).active) := by
  rw [State.resetAxes_axis, State.resetReads, free]
  exact resetOf_freed faulted

theorem State.resetAxes_still (s : State) (a : Ant) : Still (fun _ => True) s (s.resetAxes a) :=
  Still.forEach (fun s i => StillBut.mono (Still.resetAxis s i) (fun _ _ => trivial) fun _ _ => trivial) a.axes s

theorem State.resetDrives_active (s : State) (i : AxisId) :
    ((s.resetDrives i.ant).axis i).active = ((s.resetAxes i.ant).axis i).active := by
  have redriven := ((Follows.redrive (s.resetAxes i.ant) i.ant).touches.same .axisSettings (by decide)).1 i
  rw [show s.resetDrives i.ant = if (s.resetAxes i.ant).wind.active then (s.resetAxes i.ant).redrive i.ant
    else s.resetAxes i.ant from rfl]
  split
  · exact congrArg (fun x => x.2.2.2.2) redriven
  · rfl

/-- Settles O26: each axis through its own reset, which no later row of the event touches. -/
theorem driveResetLooksForCauses : Obligations.DriveResetLooksForCauses := by
  intro s tag a ok
  obtain ⟨l, k, tag', r, of, on, run, a', ha, hr⟩ := driveReset_served.admitted ok
  obtain rfl : a' = a := by simpa using ha.symm
  rw [State.faultList_resetDrives] at hr
  set u := s.takeFrame l
  subst hr
  set r : Answer := ⟨if (u.leftFaulted a').isEmpty then .ok else .badState, .faults (u.leftFaulted a'), u.resetDrives a'⟩
  have answers : (r.finish true s l k tag').answers (.driveReset tag (Ant.num a')) r.status r.body = true :=
    Answer.finish_answers of
  have kept {i : AxisId} (settled : ((r.state.answer l k.code tag' r.status r.body).settle.axis i).core
      = ((r.state.answer l k.code tag' r.status r.body).axis i).core) :
      ((r.finish true s l k tag').axis i).core = ((u.resetDrives a').axis i).core :=
    ((Still.announce ..).core i id).trans settled
  refine ⟨_, run, ?_, fun ax faulted => ⟨fun c first => ?_, fun none_ => ⟨?_, fun unstowed idle enabled => ?_⟩⟩⟩
  · have status : r.status = if u.leftFaulted a' = [] then .ok else .badState := by
      show (if (u.leftFaulted a').isEmpty then Status.ok else .badState) = _
      cases u.leftFaulted a' <;> rfl
    rw [status] at answers
    exact answers
  · have cause : ((u.resetDrives a').axis ⟨a', ax⟩).state.cause = some c :=
      (State.resetDrives_cause u ⟨a', ax⟩).trans ((if_pos faulted).trans first)
    have state := AxisState.faulted_of_cause cause
    exact (Axis.core_state (kept (State.settle_faulted (by
      rw [show ((r.state.answer l k.code tag' r.status r.body).axis ⟨a', ax⟩).state = .faulted c from state]; rfl)))).trans state
  · have settings := (r.finish_same (p := .axisSettings) s l k tag' (by decide)).1 ⟨a', ax⟩
    exact (congrArg (fun x => x.2.2.2.2) settings).trans
      ((State.resetDrives_active u ⟨a', ax⟩).trans (State.resetAxes_freed (s := u) (i := ⟨a', ax⟩) faulted none_).2.2)
  · obtain ⟨state, claims, -⟩ := State.resetAxes_freed (s := u) (i := ⟨a', ax⟩) faulted none_
    have alone : u.resetDrives a' = u.resetAxes a' := State.resetDrives_eq (.inr (by
      rw [show (u.stowOf a').state = .unstowed from unstowed]; exact nofun))
    have still := u.resetAxes_still a'
    have at_ : ((u.resetDrives a').axis ⟨a', ax⟩) = (u.resetAxes a').axis ⟨a', ax⟩ := by rw [alone]
    have down : ((u.resetDrives a').axis ⟨a', ax⟩).state = if (s.ants.get a').bus = .up then .braked else .off := by
      rw [at_]; exact state
    refine (Axis.core_state (kept (State.settle_down ?_ ?_ ?_ ?_))).trans down
    · show ((u.resetDrives a').axis ⟨a', ax⟩).state = .off ∨ ((u.resetDrives a').axis ⟨a', ax⟩).state = .braked
      rw [down]
      split
      · exact .inr rfl
      · exact .inl rfl
    · show ((u.resetDrives a').axis ⟨a', ax⟩).claims.any = false
      rw [at_, claims]
      exact idle
    · show ((u.resetDrives a').stowOf a').state ≠ .stopping ∧ ((u.resetDrives a').stowOf a').state ≠ .waiting
      rw [alone, still.stow, show (u.stowOf a').state = .unstowed from unstowed]
      exact ⟨nofun, nofun⟩
    · show ((u.resetDrives a').ants.get a').disabling = false
      rw [alone, Antenna.disabling_eq (still.power a')]
      show (s.ants.get a').disabling = false
      rw [Antenna.disabling]
      cases e : (s.ants.get a').bus
      case up => rw [enabled e]; rfl
      all_goals rfl

end Sys2Proof.Machine
end

