-- ==== Sys2Proof/Proofs/Halts.lean ====
section
/-! PROOFS. What the halt of a queue, a burst and a group leaves, and whom its stops reach (R59, R66, R76, R85, R86). -/

namespace Sys2Proof.Machine

variable {s t u : State}

/-! ### Stops toward HOLDING (R18) -/

/-- A stop toward HOLDING changes the axis: it moves on its own course, or it brakes with no stop kept. -/
def Axis.Pliable (x : Axis) : Prop := x.state.runs = true ∨ x.state = .braking ∧ x.pendingStop = none

theorem Axis.Pliable.congr {x y : Axis} (h : x.Pliable) (e : y.core = x.core) : y.Pliable := by
  unfold Axis.Pliable
  rw [Axis.core_state e, Axis.core_pendingStop e]
  exact h

theorem deeper_holding (d : StopTarget) : deeper d .holding = d := by cases d <;> rfl

/-- A stop toward HOLDING leaves every axis but its own, and its own where it is not pliable. -/
theorem Still.stopHolding (s : State) (i : AxisId) (r : StopReason) :
    StillBut (fun j => j = i ∧ (s.axis i).Pliable) (· = i) s (s.stopAxis i r .holding) := by
  have keep {f : Axis → Axis} (claims : ∀ x, (f x).claims = x.claims)
      (core : ¬(s.axis i).Pliable → (f (s.axis i)).core = (s.axis i).core) :
      StillBut (fun j => j = i ∧ (s.axis i).Pliable) (· = i) s (s.modAxis i f) := by
    refine { core := fun j e => ?_, claims := fun j _ => ?_, keeps := fun j _ c _ => ?_, waits := fun _ _ => id,
             power := fun _ => Antenna.power_setAxis .., stow := fun _ => rfl, groups := rfl, jogs := fun _ => rfl,
             zones := fun _ => .refl _ }
    · rw [State.axis_modAxis]; split
      · rename_i h; subst h; exact core fun p => e ⟨rfl, p⟩
      · rfl
    · rw [State.axis_modAxis]; split
      · rename_i e; subst e; rw [claims]; exact id
      · exact id
    · rw [State.axis_modAxis]; split
      · rename_i e; subst e; rw [claims]; exact id
      · exact id
  have start (h : (s.axis i).state.runs = true) :
      StillBut (fun j => j = i ∧ (s.axis i).Pliable) (· = i) s (s.startStop i r .holding) :=
    StillBut.mono (Still.startStop s i r .holding) (fun _ e => ⟨e, .inl h⟩) fun _ e => e
  rw [State.stopAxis, if_pos rfl]
  unfold State.takeStop
  cases e : (s.axis i).state with
  | off | precharge | braked | faulted | torqueUp | holding => exact StillBut.mono (Still.refl noAxis s) (fun _ => False.elim) fun _ => False.elim
  | slewing | tracking | jogging => exact start (by rw [e]; rfl)
  | stopping =>
    refine keep (fun _ => rfl) fun _ => ?_
    have same : ((s.axis i).stop.map fun q => { q with target := deeper q.target .holding }) = (s.axis i).stop := by
      cases (s.axis i).stop with
      | none => rfl
      | some q => rw [Option.map_some, deeper_holding]
    rw [Axis.core, same]
    rfl
  | braking =>
    refine keep (fun _ => rfl) fun stiff => ?_
    have same : ((s.axis i).holdStop r .holding).pendingStop = (s.axis i).pendingStop := by
      unfold Axis.holdStop
      cases p : (s.axis i).pendingStop with
      | none => exact absurd (.inr ⟨e, p⟩) stiff
      | some q => dsimp only; rw [deeper_holding]
    rw [Axis.core, same]
    rfl

/-- Whom the stops of a halt in a state reach. -/
def State.pliable (s : State) (j : AxisId) : Prop := (s.axis j).Pliable

/-- The stops of a halt: nothing watched changes, but at the pliable axes and in the claims. -/
abbrev Halts (s t : State) : Prop := StillBut s.pliable (fun _ => True) s t

theorem Halts.trans (h : Halts s t) (k : Halts t u) : Halts s u := by
  refine StillBut.trans h (StillBut.mono k (fun j p => ?_) fun _ => id)
  by_contra stiff
  exact stiff (p.congr (h.core j stiff).symm)

theorem Halts.forEach {α : Type} {f : State → α → State} (h : ∀ s x, Halts s (f s x)) (xs : List α) (s : State) :
    Halts s (forEach xs f s) := by
  induction xs generalizing s with
  | nil => exact StillBut.mono (Still.refl noAxis s) (fun _ => False.elim) fun _ => False.elim
  | cons x xs ih => exact (h s x).trans (ih (f s x))

theorem Halts.of_still {q : AxisId → Prop} (h : StillBut noAxis q s t) : Halts s t :=
  h.mono (fun _ => False.elim) fun _ _ => trivial

theorem Halts.refl (s : State) : Halts s s := .of_still (Still.refl noAxis s)

theorem Halts.ite {c : Prop} [Decidable c] (h : Halts s t) (k : Halts s u) : Halts s (if c then t else u) := by
  split
  · exact h
  · exact k

theorem Halts.stopHolding (s : State) (i : AxisId) (r : StopReason) : Halts s (s.stopAxis i r .holding) :=
  (Still.stopHolding s i r).mono (fun j h => by obtain ⟨rfl, p⟩ := h; exact p) fun _ _ => trivial

/-! ### Queues and bursts (R59, R66) -/

theorem Still.fallToHold (s : State) (i : AxisId) : Still noAxis s (s.fallToHold i) := .changeStanding ..

theorem Still.filterQueue (s : State) (p : Need → Bool) :
    Still noAxis s (s.modFeed fun f => { f with queue := f.queue.filter p }) :=
  .modFeed fun _ h => (List.mem_filter.1 h).1

theorem Still.dropRaise (s : State) (i : AxisId) : Still noAxis s (s.dropRaise i) := by
  unfold State.dropRaise
  have h := (Still.filterQueue s fun n => !(decide (n.axis = i) && decide (n.kind = .track))).trans (.noteRaise _ i .none)
  dsimp only
  split
  · exact h.trans (.fallToHold ..)
  · exact h

theorem Halts.releaseRun (s : State) (a : Ant) : Halts s (s.releaseRun a) := by
  refine Halts.forEach (fun s i => ?_) a.axes s
  have dropped : Halts s ((s.dropClaim i .queue).dropRaise i) :=
    (Halts.of_still (Still.dropOne s i .queue)).trans (Halts.of_still (Still.dropRaise _ i))
  exact dropped.trans (.ite (.stopHolding ..) (.refl _))

theorem Still.slotsFreed (s : State) (a : Ant) : Still noAxis s (s.slotsFreed a) := by
  unfold State.slotsFreed
  exact .ite ((Still.modTrack ..).trans (.raise ..)) (.refl ..)

theorem Still.setBurst (s : State) (b : Burst) : Still noAxis s { s with burst := b } :=
  .away rfl (fun _ => id) rfl rfl rfl rfl

theorem Still.terminateBurst (s : State) (a : Ant) (r : TermReason) : Still noAxis s (s.terminateBurst a r) := by
  unfold State.terminateBurst
  refine .ite ?_ (.refl ..)
  exact (((Still.setBurst ..).trans ((Still.modTrack ..).trans (.slotsFreed ..))).trans (.setBurst ..)).trans (.raiseIf ..)

theorem Halts.haltQueue (s : State) (a : Ant) (r : HaltReason) : Halts s (s.haltQueue a r) := by
  have halted : Halts s (s.modTrack a fun t => t.halt r) := .of_still (Still.modTrack ..)
  have released := halted.trans (.releaseRun _ a)
  have ended := released.trans (.of_still (Still.terminateBurst _ a r.termination))
  have freed := ended.trans (.of_still (Still.slotsFreed _ a))
  exact .ite (.refl s) (freed.trans (.of_still (Still.raise ..)))

/-- The record of a queue that a halt has taken what was QUEUED or ACTIVE off (R66). -/
structure Track.Gone (q p : Track) (r : HaltReason) : Prop where
  halted : q.halted = true
  reason : q.haltReason = some r
  run : q.run = .idle
  live : q.live = []
  first : q.firstAbandoned = p.firstStart
  abandoned : q.abandoned = min countTop (p.abandoned + p.live.length)

theorem Track.Gone.plain {q q' p p' : Track} {r : HaltReason} (h : q.Gone p r) (e : q'.plain = q.plain)
    (f : p'.plain = p.plain) : q'.Gone p' r := by
  have halted := congrArg Track.halted e
  have reason := congrArg Track.haltReason e
  have run := congrArg Track.run e
  have live := congrArg Track.live e
  have first := congrArg Track.firstAbandoned e
  have abandoned := congrArg Track.abandoned e
  have start := congrArg Track.firstStart f
  have count := congrArg (fun v : Track => min countTop (v.abandoned + v.live.length)) f
  exact ⟨halted.trans h.halted, reason.trans h.reason, run.trans h.run, live.trans h.live, first.trans (h.first.trans start.symm),
    abandoned.trans (h.abandoned.trans count.symm)⟩

theorem Track.gone_halt (q : Track) (r : HaltReason) : (q.halt r).Gone q r :=
  ⟨rfl, rfl, rfl, by simp [Track.halt, Track.live, Track.stagedSegments], rfl, rfl⟩

theorem Track.Gone.slotsFreed {p : Track} {r : HaltReason} {a : Ant} (h : (s.track a).Gone p r) :
    ((s.slotsFreed a).track a).Gone p r := by
  unfold State.slotsFreed
  split
  · rw [show ∀ v : State, (v.raise (antFlag .track a)).track a = v.track a from fun _ => rfl, State.track_modTrack, if_pos rfl]
    exact ⟨h.halted, h.reason, h.run, h.live, h.first, h.abandoned⟩
  · exact h

theorem Track.Gone.discardBurst {p : Track} {r : HaltReason} {a : Ant} (h : (s.track a).Gone p r) :
    ((s.discardBurst a).track a).Gone p r := by
  refine Track.Gone.slotsFreed ?_
  rw [State.track_modTrack, if_pos rfl]
  refine ⟨h.halted, h.reason, h.run, ?_, h.first, h.abandoned⟩
  rw [Track.live, List.filter_filter]
  exact List.filter_eq_nil_iff.mpr fun g hg both =>
    absurd (List.filter_eq_nil_iff.mp h.live g hg) (not_not.mpr (by simp_all))

theorem State.raiseIf_kept (s : State) (b : Bool) (w : FlagWord) :
    (s.raiseIf b w).tracks = s.tracks ∧ (s.raiseIf b w).burst = s.burst := by
  unfold State.raiseIf
  split <;> exact ⟨rfl, rfl⟩

theorem Track.Gone.terminateBurst {p : Track} {r : HaltReason} {a : Ant} (h : (s.track a).Gone p r) (k : TermReason) :
    ((s.terminateBurst a k).track a).Gone p r := by
  unfold State.terminateBurst
  split
  · rw [State.track, (State.raiseIf_kept _ _ _).1]
    exact h.discardBurst
  · exact h

/-- A terminated burst is closed and leaves its reason (R59). -/
theorem State.terminateBurst_spec (s : State) (a : Ant) (r : TermReason) :
    (s.terminateBurst a r).burst.ant ≠ some a
    ∧ (s.burst.ant = some a → (s.terminateBurst a r).burst.termination = some (a, r))
    ∧ (s.burst.ant ≠ some a → s.terminateBurst a r = s) := by
  unfold State.terminateBurst
  split
  · rename_i open_
    rw [(State.raiseIf_kept _ _ _).2]
    refine ⟨?_, fun _ => rfl, fun h => absurd open_ h⟩
    dsimp only
    rw [(s.discardBurst_spec a).1]
    exact nofun
  · rename_i shut
    exact ⟨shut, fun h => absurd h shut, fun _ => rfl⟩

/-- What the halt of a queue, and the end of a burst for its antenna, leave (R59, R66). -/
structure State.QueueGone (s t : State) (a : Ant) (r : HaltReason) : Prop where
  queue : (s.track a).empty = false → (t.track a).Gone (s.track a) r
  burst : t.burst.ant ≠ some a
  terminated : s.burst.ant = some a → t.burst.termination = some (a, r.termination)

/-- It outlasts what leaves the queues and the channel, and is told of the queue and the channel before alone. -/
theorem State.QueueGone.kept {a : Ant} {r : HaltReason} (h : s.QueueGone t a r) {s' t' : State}
    (before : Part.queues.same s' s) (opened : Part.burst.same s' s) (after : Part.queues.same t t')
    (closed : Part.burst.same t t') : s'.QueueGone t' a r := by
  have opened' : s.burst = s'.burst := opened
  have closed' : t'.burst = t.burst := closed
  have empty := congrArg Track.empty (before a)
  refine ⟨fun busy => (h.queue (empty.trans busy)).plain (after a) (before a).symm, by rw [closed']; exact h.burst,
    fun open_ => by rw [closed']; exact h.terminated (by rw [opened']; exact open_)⟩

theorem State.haltQueue_gone (s : State) (a : Ant) (r : HaltReason) :
    s.QueueGone ((s.haltQueue a r).terminateBurst a r.termination) a r := by
  cases busy : (s.track a).empty with
  | true =>
    have same : s.haltQueue a r = s := if_pos busy
    rw [same]
    obtain ⟨shut, ended, -⟩ := s.terminateBurst_spec a r.termination
    exact ⟨fun h => (by rw [busy] at h; cases h), shut, ended⟩
  | false =>
    set v := s.modTrack a fun t => t.halt r
    have halted : s.haltQueue a r
        = (((v.releaseRun a).terminateBurst a r.termination).slotsFreed a).raise (antFlag .track a) :=
      if_neg (by rw [busy]; exact nofun)
    have moved := (Follows.releaseRun v a).touches
    have gone : (v.track a).Gone (s.track a) r := by
      rw [State.track_modTrack, if_pos rfl]
      exact Track.gone_halt ..
    have released : ((v.releaseRun a).track a).Gone (s.track a) r := gone.plain (moved.same .queues (by decide) a) rfl
    have burst : (v.releaseRun a).burst = s.burst := moved.same .burst (by decide)
    obtain ⟨shut, ended, -⟩ := (v.releaseRun a).terminateBurst_spec a r.termination
    have freed : (s.haltQueue a r).burst = ((v.releaseRun a).terminateBurst a r.termination).burst := by
      rw [halted]
      exact (Moves.slotsFreed _ a).touches.same .burst (by decide)
    have once : (s.haltQueue a r).terminateBurst a r.termination = s.haltQueue a r :=
      ((s.haltQueue a r).terminateBurst_spec a r.termination).2.2 (by rw [freed]; exact shut)
    rw [once]
    refine ⟨fun _ => ?_, by rw [freed]; exact shut, fun open_ => by rw [freed]; exact ended (by rw [burst]; exact open_)⟩
    rw [halted]
    exact (released.terminateBurst r.termination).slotsFreed

end Sys2Proof.Machine
end

