-- ==== Sys2Proof/Proofs/Wanes.lean ====
section
/-! PROOFS. What follows an event gives no axis a claim but STOW, takes no failure back from a jog, starts a jog only where
its raise was asked or could have been, faults no axis, makes none ready, and moves the state of a stow record only where
the antenna was STOPPING. -/

namespace Sys2Proof.Machine

variable {s t u : State}

theorem Claims.has_put (c : Claims) (src k : ClaimSource) (b : Bool) :
    (c.put src b).has k = if k = src then b else c.has k := by
  cases src <;> cases k <;> rfl

/-- The bus of an antenna is UP and in band (R10). -/
def State.live (s : State) (a : Ant) : Bool := decide ((s.ants.get a).bus = .up) && !(s.ants.get a).outOfBand

/-- A jog is the one it was, and its phase is as it was, or the jog has started: its raise was asked, or its axis was ready for one. -/
def Jog.Goes (j k : Jog) (ready sound : Prop) : Prop :=
  k.core = j.core ∧ (k.phase = j.phase ∨ k.phase = .running ∧ (j.phase = .raising ∨ ready ∧ sound))

/-- What the event's end may give and take: no claim but STOW comes, a jog that has failed keeps its failure, a jog starts
only where its axis stands ready, no axis is faulted or made ready, and a stow record keeps its state, unless it is
STOPPING, and its pin. -/
structure Wanes (s t : State) : Prop where
  claims : ∀ i c, c ≠ .stow → (t.axis i).claims.has c = true → (s.axis i).claims.has c = true := by
    exact fun _ _ _ => id
  jogs : ∀ a j, s.jog a = some j → j.failure.isSome = true → ∃ k, t.jog a = some k ∧ k.failure = j.failure := by
    exact fun _ j h _ => ⟨j, h, rfl⟩
  phases : ∀ a j, s.jog a = some j → ∃ k, t.jog a = some k
      ∧ j.Goes k ((s.axis ⟨a, j.axis⟩).ready = true ∧ s.live a = true) (∀ x, (t.axis ⟨a, x⟩).state.isFaulted = false) := by
    exact fun _ j h => ⟨j, h, rfl, .inl rfl⟩
  ready : ∀ i, (t.axis i).ready = true → (s.axis i).ready = true := by exact fun _ => id
  faults : ∀ i, (t.axis i).state.isFaulted = true → (s.axis i).state.isFaulted = true := by exact fun _ => id
  live : ∀ a, t.live a = true → s.live a = true := by exact fun _ => id
  stow : ∀ a, (s.stowOf a).state ≠ .stopping → (t.stowOf a).state = (s.stowOf a).state := by exact fun _ _ => rfl
  pin : ∀ a, (t.stowOf a).pinIn = (s.stowOf a).pinIn ∧ (t.stowOf a).pinTimer = (s.stowOf a).pinTimer
    ∧ (t.stowOf a).warmingTimer = (s.stowOf a).warmingTimer := by exact fun _ => ⟨rfl, rfl, rfl⟩

theorem Wanes.refl (s : State) : Wanes s s := {}

theorem Wanes.trans (h : Wanes s t) (k : Wanes t u) : Wanes s u where
  claims i c other := h.claims i c other ∘ k.claims i c other
  jogs a j is failed := by
    obtain ⟨m, mid, same⟩ := h.jogs a j is failed
    obtain ⟨n, last, again⟩ := k.jogs a m mid (by rw [same]; exact failed)
    exact ⟨n, last, again.trans same⟩
  phases a j is := by
    obtain ⟨m, mid, core, phase⟩ := h.phases a j is
    obtain ⟨n, last, core', phase'⟩ := k.phases a m mid
    have axis : m.axis = j.axis := congrArg Prod.fst core
    have sound (clear : ∀ x, (t.axis ⟨a, x⟩).state.isFaulted = false) (x : AxisName) :
        (u.axis ⟨a, x⟩).state.isFaulted = false := by
      by_contra faulted
      rw [Bool.not_eq_false] at faulted
      exact Bool.false_ne_true ((clear x).symm.trans (k.faults _ faulted))
    refine ⟨n, last, core'.trans core, ?_⟩
    rcases phase with same | ⟨run, why⟩
    · rcases phase' with same' | ⟨run', why'⟩
      · exact .inl (same'.trans same)
      · refine .inr ⟨run', ?_⟩
        rw [same, axis] at why'
        exact why'.imp id fun ⟨⟨ready, live⟩, clear⟩ => ⟨⟨h.ready _ ready, h.live _ live⟩, clear⟩
    · refine .inr ⟨phase'.elim (fun same' => same'.trans run) And.left, ?_⟩
      exact why.imp id fun ⟨ready, clear⟩ => ⟨ready, sound clear⟩
  ready i := h.ready i ∘ k.ready i
  faults i := h.faults i ∘ k.faults i
  live a := h.live a ∘ k.live a
  stow a other := by
    have first := h.stow a other
    exact (k.stow a (by rw [first]; exact other)).trans first
  pin a := by
    obtain ⟨p, q, r⟩ := h.pin a
    obtain ⟨p', q', r'⟩ := k.pin a
    exact ⟨p'.trans p, q'.trans q, r'.trans r⟩

theorem Wanes.ite {c : Prop} [Decidable c] (h : c → Wanes s t) (k : ¬c → Wanes s u) : Wanes s (if c then t else u) := by
  split
  · rename_i e; exact h e
  · rename_i e; exact k e

theorem Wanes.either {c : Prop} [Decidable c] (h : Wanes s t) (k : Wanes s u) : Wanes s (if c then t else u) :=
  .ite (fun _ => h) fun _ => k

theorem Wanes.forEach {α : Type} {f : State → α → State} (h : ∀ s x, Wanes s (f s x)) (xs : List α) (s : State) :
    Wanes s (Machine.forEach xs f s) := by
  induction xs generalizing s with
  | nil => exact .refl s
  | cons x xs ih => exact (h s x).trans (ih _)

/-! ### Single updates -/

theorem Wanes.modAxis {i : AxisId} {f : Axis → Axis}
    (h : ∀ c, c ≠ .stow → (f (s.axis i)).claims.has c = true → (s.axis i).claims.has c = true)
    (ready : (f (s.axis i)).ready = true → (s.axis i).ready = true := by exact id)
    (faults : (f (s.axis i)).state.isFaulted = true → (s.axis i).state.isFaulted = true := by exact id) :
    Wanes s (s.modAxis i f) where
  ready j := by
    rw [State.axis_modAxis]; split
    · rename_i e; subst e; exact ready
    · exact id
  faults j := by
    rw [State.axis_modAxis]; split
    · rename_i e; subst e; exact faults
    · exact id
  live b := by
    unfold State.live State.modAxis State.setAxis State.setAnt
    dsimp only
    rw [Six.get_set]
    split
    · rename_i e; subst e; exact id
    · exact id
  claims j c other := by
    rw [State.axis_modAxis]; split
    · rename_i e; subst e; exact h c other
    · exact id

theorem Wanes.of_axis {i : AxisId} (same : t.axis i = s.axis i) :
    (∀ c, c ≠ .stow → (t.axis i).claims.has c = true → (s.axis i).claims.has c = true)
      ∧ ((t.axis i).ready = true → (s.axis i).ready = true)
      ∧ ((t.axis i).state.isFaulted = true → (s.axis i).state.isFaulted = true) := by
  rw [same]
  exact ⟨fun _ _ => id, id, id⟩

theorem Wanes.modAnt {a : Ant} {f : Antenna → Antenna} (h : ∀ v, (f v).axes = v.axes)
    (live : ∀ v, (f v).bus = .up → (f v).outOfBand = false → v.bus = .up ∧ v.outOfBand = false) :
    Wanes s (s.modAnt a f) := by
  have same (i : AxisId) : (s.modAnt a f).axis i = s.axis i := by
    unfold State.axis
    rw [State.ants_get_modAnt]; split
    · rename_i e; rw [h, e]
    · rfl
  exact {
    claims := fun i => (Wanes.of_axis (same i)).1
    ready := fun i => (Wanes.of_axis (same i)).2.1
    faults := fun i => (Wanes.of_axis (same i)).2.2
    live := fun b => by
      unfold State.live
      rw [State.ants_get_modAnt]
      split
      · rename_i e
        subst e
        simpa using live (s.ants.get b)
      · exact id }

theorem Wanes.setFeed (s : State) (f : Feed) : Wanes s { s with feed := f } := {}
theorem Wanes.modFeed (s : State) (f : Feed → Feed) : Wanes s (s.modFeed f) := {}
theorem Wanes.setStanding (s : State) (i : AxisId) (g : Standing) : Wanes s (s.setStanding i g) := {}
theorem Wanes.raise (s : State) (w : FlagWord) : Wanes s (s.raise w) := {}
theorem Wanes.raiseIf (s : State) (b : Bool) (w : FlagWord) : Wanes s (s.raiseIf b w) := .either (.raise ..) (.refl s)
theorem Wanes.markFreed (s : State) : Wanes s s.markFreed := {}
theorem Wanes.markFreedIf (s : State) (b : Bool) : Wanes s (s.markFreedIf b) := .either (.markFreed s) (.refl s)
theorem Wanes.markForm (s : State) : Wanes s s.markForm := {}
theorem Wanes.clearMarks (s : State) : Wanes s s.clearMarks := {}
theorem Wanes.modTrack (s : State) (a : Ant) (f : Track → Track) : Wanes s (s.modTrack a f) := {}
theorem Wanes.modZone (s : State) (z : ZoneId) (f : Zone → Zone) : Wanes s (s.modZone z f) := {}
theorem Wanes.modHorn (s : State) (a : Ant) (f : Horn → Horn) : Wanes s (s.modHorn a f) where
  jogs b j is _ := by
    refine ⟨j, ?_, rfl⟩
    rw [← is]
    rfl
theorem Wanes.modGroup (s : State) (g : GroupId) (f : Group → Group) : Wanes s (s.modGroup g f) := {}
theorem Wanes.setWave (s : State) (w : Option Wave) : Wanes s (s.setWave w) := {}

theorem Wanes.modStow {a : Ant} {f : StowRecord → StowRecord}
    (h : (s.stowOf a).state ≠ .stopping → (f (s.stowOf a)).state = (s.stowOf a).state)
    (pin : (f (s.stowOf a)).pinIn = (s.stowOf a).pinIn ∧ (f (s.stowOf a)).pinTimer = (s.stowOf a).pinTimer
      ∧ (f (s.stowOf a)).warmingTimer = (s.stowOf a).warmingTimer) : Wanes s (s.modStow a f) where
  stow b other := by
    rw [State.stowOf_modStow]; split
    · rename_i e; subst e; exact h other
    · rfl
  pin b := by
    rw [State.stowOf_modStow]; split
    · rename_i e; subst e; exact pin
    · exact ⟨rfl, rfl, rfl⟩

/-- A jog's record changes, but neither the failure it has nor its phase. -/
theorem Wanes.modJog {a : Ant} {f : Jog → Jog} (h : ∀ j, j.failure.isSome = true → (f j).failure = j.failure)
    (same : ∀ j, (f j).core = j.core ∧ (f j).phase = j.phase) : Wanes s (s.modJog a f) where
  phases b j is := by
    rw [State.jog_modJog]; split
    · rename_i e
      subst e
      exact ⟨f j, by rw [is]; rfl, (same j).1, .inl (same j).2⟩
    · exact ⟨j, is, rfl, .inl rfl⟩
  jogs b j is failed := by
    rw [State.jog_modJog]; split
    · rename_i e
      subst e
      exact ⟨f j, by rw [is]; rfl, h j failed⟩
    · exact ⟨j, is, rfl⟩

/-! ### Axes, claims and stops -/

theorem Wanes.changeStanding (s : State) (i : AxisId) (g : Standing) : Wanes s (s.changeStanding i g) :=
  (Wanes.setStanding ..).trans (.markFreedIf ..)

theorem Wanes.enterAxis (s : State) (i : AxisId) (st : AxisState) (down : st ≠ .holding ∧ st.isFaulted = false := by decide) :
    Wanes s (s.enterAxis i st) := by
  refine (Wanes.modAxis (fun _ _ => id) (fun ready => ?_) fun faulted => ?_).trans (.changeStanding ..)
  · exact absurd (of_decide_eq_true (Bool.and_eq_true_iff.1 ready).1) down.1
  · exact absurd (down.2.symm.trans faulted) Bool.false_ne_true

theorem Wanes.setCover (s : State) (i : AxisId) (c : GrantCover) :
    Wanes s (s.modAxis i fun x => { x with cover := c }) := .modAxis fun _ _ => id

theorem Wanes.clearClaims (s : State) (i : AxisId) : Wanes s (s.clearClaims i) :=
  .modAxis fun c _ has => by cases c <;> cases has

theorem Wanes.dropClaim (s : State) (i : AxisId) (src : ClaimSource) : Wanes s (s.dropClaim i src) := by
  refine .modAxis fun c _ has => ?_
  rw [show ((s.axis i).dropClaim s.now src).claims = (s.axis i).claims.put src false from rfl, Claims.has_put] at has
  split at has
  · cases has
  · exact has

theorem Wanes.dropClaims (s : State) (a : Ant) (src : ClaimSource) : Wanes s (s.dropClaims a src) :=
  .forEach (fun s i => .dropClaim s i src) _ s

theorem Wanes.goBraking (s : State) (i : AxisId) (p : PendingStop) : Wanes s (s.goBraking i p) :=
  (Wanes.enterAxis ..).trans (.modAxis fun _ _ => id)

theorem Wanes.endStop (s : State) (i : AxisId) (r : StopReason) {d : StopTarget} (deep : d ≠ .holding) :
    Wanes s (s.endStop i r d) := by
  cases d with
  | holding => exact absurd rfl deep
  | braked | off => exact .goBraking ..

theorem Wanes.startStop (s : State) (i : AxisId) (r : StopReason) {d : StopTarget} (deep : d ≠ .holding) :
    Wanes s (s.startStop i r d) := by
  have started : Wanes s ((s.modAxis i fun x =>
      { x with stop := some ⟨r, d, s.limitA i, (s.axis i).velocity, (s.axis i).position, s.now⟩ }).enterAxis i .stopping) :=
    (Wanes.modAxis fun _ _ => id).trans (.enterAxis ..)
  exact .either (started.trans (.endStop _ i r deep)) started

theorem Wanes.holdStop (s : State) (i : AxisId) (r : StopReason) (d : StopTarget) :
    Wanes s (s.modAxis i fun x => x.holdStop r d) := .modAxis fun _ _ => id

theorem Wanes.takeStop (s : State) (i : AxisId) (r : StopReason) {d : StopTarget} (deep : d ≠ .holding) :
    Wanes s (s.takeStop i r d) := by
  unfold State.takeStop
  split
  · exact .refl s
  · exact .refl s
  · exact .refl s
  · exact .refl s
  · exact .either (.refl s) (.holdStop ..)
  · exact .either (.refl s) (.either (.holdStop ..) (.goBraking ..))
  · exact .startStop s i r deep
  · exact .startStop s i r deep
  · exact .startStop s i r deep
  · exact .modAxis fun _ _ => id
  · exact .holdStop ..

theorem Wanes.stopAxis (s : State) (i : AxisId) (r : StopReason) {d : StopTarget} (deep : d ≠ .holding) :
    Wanes s (s.stopAxis i r d) :=
  (Wanes.either (.refl s) (.clearClaims s i)).trans (.takeStop _ i r deep)

theorem Wanes.stopBoth (s : State) (a : Ant) (r : StopReason) {d : StopTarget} (deep : d ≠ .holding := by decide) :
    Wanes s (s.stopBoth a r d) :=
  .forEach (fun s i => .stopAxis s i r deep) _ s

theorem Wanes.runFieldTimers (s : State) (a : Ant) : Wanes s (s.runFieldTimers a) := by
  have same (i : AxisId) : ((s.runFieldTimers a).axis i).claims = (s.axis i).claims
      ∧ ((s.runFieldTimers a).axis i).ready = (s.axis i).ready
      ∧ ((s.runFieldTimers a).axis i).state = (s.axis i).state := by
    unfold State.axis State.runFieldTimers
    rw [State.ants_get_modAnt]; split
    · rename_i e; rw [← e]
      obtain ⟨b, ax⟩ := i
      cases ax <;> exact ⟨rfl, rfl, rfl⟩
    · exact ⟨rfl, rfl, rfl⟩
  exact {
    claims := fun i c _ => by rw [(same i).1]; exact id
    ready := fun i => by rw [(same i).2.1]; exact id
    faults := fun i => by rw [(same i).2.2]; exact id
    live := fun b => by
      unfold State.live State.runFieldTimers
      rw [State.ants_get_modAnt]
      split
      · rename_i e; subst e; exact id
      · exact id }

theorem Wanes.enableBus (s : State) (a : Ant) : Wanes s (s.enableBus a) := by
  have enabled : Wanes s (s.modAnt a fun v => { v with enable := true }) :=
    .modAnt (fun _ => rfl) fun _ up band => ⟨up, band⟩
  refine .either (enabled.trans ?_) enabled
  refine Wanes.trans ?_ (.runFieldTimers ..)
  refine Wanes.trans ?_ (.forEach (fun s i => .either (.enterAxis ..) (.refl s)) _ _)
  exact .modAnt (fun _ => rfl) fun _ up => nomatch up

theorem Wanes.addStow (s : State) (i : AxisId) : Wanes s (s.addClaim i .stow) := by
  refine .either ?_ (.refl s)
  refine Wanes.trans (.modAxis (fun c other has => ?_)) (.either (.refl _) (.enableBus ..))
  rw [show ((s.axis i).addClaim s.now .stow).claims = (s.axis i).claims.put .stow true from rfl, Claims.has_put,
    if_neg other] at has
  exact has

/-! ### Grants -/

theorem Wanes.lowerZone (s : State) (o : Bool) (z : ZoneId) : Wanes s (s.lowerZone o z) :=
  (Wanes.modZone ..).trans (.markFreedIf ..)

theorem Wanes.imposeShed (s : State) (o g d : Bool) : Wanes s (s.imposeShed o g d) := by
  unfold State.imposeShed
  dsimp only
  refine Wanes.trans (Wanes.trans ?_ (.forEach (fun s z => ?_) _ _)) (.raiseIf ..)
  · exact .modFeed ..
  · exact Wanes.trans (.modZone ..) (.lowerZone ..)

theorem Wanes.needTest (s : State) : Wanes s s.needTest := by
  unfold State.needTest
  split
  · exact .refl ..
  · exact .either (.imposeShed ..) (.refl ..)

theorem Wanes.makeRoom (s : State) (f : Fit) (d : Bool) : Wanes s (s.makeRoom f d) := by
  unfold State.makeRoom
  split
  · exact .imposeShed ..
  · exact .imposeShed ..
  · exact .refl ..

theorem Wanes.afterGrant (s : State) (f : Fit) (n : Nat) : Wanes s (s.afterGrant f n) := by
  unfold State.afterGrant
  split
  · exact (Wanes.needTest ..).trans (.markFreedIf ..)
  · exact .markFreed ..

theorem Wanes.noteRaise (s : State) (i : AxisId) (r : RaiseState) : Wanes s (s.noteRaise i r) := .modTrack ..

/-- A jog starts on an axis that is ready for it (R110). -/
theorem Wanes.startJog (s : State) (i : AxisId) : Wanes s (s.startJog i) := by
  refine .ite (fun may => ?_) fun _ => .changeStanding ..
  obtain ⟨⟨ready, power⟩, named⟩ : ((s.axis i).ready = true ∧ s.ready i.ant = true)
      ∧ (s.locks.authority.get i.ant).jogs i.ax = true := by simpa [and_assoc] using may
  obtain ⟨live, clear⟩ : s.live i.ant = true ∧ ∀ x, (s.axis ⟨i.ant, x⟩).state.isFaulted = false := by
    obtain ⟨live, clear⟩ := Bool.and_eq_true_iff.1 power
    obtain ⟨az, el⟩ := Bool.or_eq_false_iff.1 (Bool.not_eq_true' _ ▸ clear)
    exact ⟨live, fun x => by cases x; exacts [az, el]⟩
  have entered := Wanes.enterAxis s i .jogging
  have same : (s.enterAxis i .jogging).jog = s.jog := by
    unfold State.enterAxis State.changeStanding State.markFreedIf
    dsimp only
    split <;> rfl
  let r : JogRamp := ⟨s.now, (s.axis i).position, s.jogA i, false⟩
  exact { entered with
    jogs := fun b j is failed => by
      rw [State.jog_modJog, same]
      split
      · rename_i e
        subst e
        exact ⟨{ j with phase := .running, ramp := some r }, by rw [is]; rfl, rfl⟩
      · exact ⟨j, is, rfl⟩
    phases := fun b j is => by
      rw [State.jog_modJog, same]
      split
      next own =>
        subst own
        refine ⟨{ j with phase := .running, ramp := some r }, by rw [is]; rfl, rfl, .inr ⟨rfl, .inr ⟨?_, fun x => ?_⟩⟩⟩
        · have ax : j.axis = i.ax := by
            unfold Authority.jogs at named
            rw [show (s.locks.authority.get i.ant).jog = some j from is] at named
            exact of_decide_eq_true named
          rw [ax]
          exact ⟨ready, live⟩
        · by_contra faulted
          exact Bool.false_ne_true ((clear x).symm.trans (entered.faults _ (Bool.not_eq_false _ ▸ faulted)))
      next => exact ⟨j, is, rfl, .inl rfl⟩ }

theorem Wanes.convertAxis (s : State) (c : GrantCover) (i : AxisId) (h : Nat) : Wanes s (s.convertAxis c i h) :=
  .either ((Wanes.setStanding ..).trans (.setCover ..)) (.refl s)

theorem Wanes.convertGrant (s : State) (c : GrantCover) (w : Nat) (hs : List (AxisId × Nat)) :
    Wanes s (s.convertGrant c w hs) :=
  .forEach (fun s (p : AxisId × Nat) => .convertAxis s c p.1 p.2) _ s

theorem Wanes.ownGrant (s : State) (i : AxisId) : Wanes s (s.ownGrant i) := by
  unfold State.ownGrant
  split
  · split
    · exact .refl ..
    · exact .either ((Wanes.convertAxis ..).trans (.modFeed ..)) (.refl ..)
  · split
    · exact .refl ..
    · exact .either ((Wanes.convertAxis ..).trans (.modFeed ..)) (.refl ..)
  · exact .refl ..

theorem Wanes.grantNeed (s : State) (n : Need) : Wanes s (s.grantNeed n) := by
  unfold State.grantNeed
  split
  · exact (Wanes.setStanding ..).trans ((Wanes.setCover ..).trans (.enterAxis ..))
  · exact ((Wanes.ownGrant ..).trans (.setStanding ..)).trans (.noteRaise ..)
  · exact ((Wanes.ownGrant ..).trans (.setStanding ..)).trans (.startJog ..)

theorem Wanes.failJogBudget (s : State) (i : AxisId) : Wanes s (s.failJogBudget i) := by
  refine .either (.modJog (fun j failed => ?_) fun _ => ⟨rfl, rfl⟩) (.refl s)
  obtain ⟨f, is⟩ := Option.isSome_iff_exists.mp failed
  rw [is]
  rfl

theorem Wanes.needLost (s : State) (n : Need) : Wanes s (s.needLost n) := by
  unfold State.needLost
  split
  · exact (Wanes.dropClaim ..).trans ((Wanes.dropClaim ..).trans ((Wanes.dropClaim ..).trans
      ((Wanes.failJogBudget ..).trans ((Wanes.raise ..).trans (.raise ..)))))
  · exact (Wanes.noteRaise ..).trans (.raise ..)
  · exact (Wanes.dropClaim ..).trans ((Wanes.failJogBudget ..).trans ((Wanes.raise ..).trans (.raise ..)))

theorem Wanes.admitNeed (s : State) (n : Need) (f : Fit) : Wanes s (s.admitNeed n f) :=
  (Wanes.makeRoom ..).trans ((Wanes.grantNeed ..).trans (.afterGrant ..))

theorem Wanes.askNeed (s : State) (i : AxisId) (k : NeedKind) (w : Nat) : Wanes s (s.askNeed i k w) :=
  .either (.admitNeed ..) (.either (.modFeed ..) (.needLost ..))

theorem Wanes.offerQueue (n : Nat) (s : State) : Wanes s (s.offerQueue n) := by
  induction n generalizing s with
  | zero => exact .refl ..
  | succ n ih =>
    unfold State.offerQueue
    split
    · exact .refl ..
    · exact .either (.refl ..) (((Wanes.modFeed ..).trans (.admitNeed ..)).trans (ih _))

theorem Wanes.withdrawVoid (s : State) : Wanes s s.withdrawVoid :=
  (Wanes.modFeed ..).trans (.forEach (fun s _ => .either (.noteRaise ..) (.refl s)) _ _)

theorem Wanes.releaseGroup (s : State) (g : GroupId) : Wanes s (s.releaseGroup g) := by
  have grant : Wanes s (s.releaseGroupGrant g) := by
    unfold State.releaseGroupGrant
    split
    · exact .refl ..
    · exact ((Wanes.convertGrant ..).trans (.modFeed ..)).trans (.markFreed ..)
  exact (grant.trans (.modGroup ..)).trans (.forEach (fun s i => .dropClaim s i .group) _ _)

theorem Wanes.releaseWaveGrant (s : State) (a : Ant) : Wanes s (s.releaseWaveGrant a) := by
  unfold State.releaseWaveGrant
  split
  · exact .refl ..
  · exact ((Wanes.convertGrant ..).trans (.modFeed ..)).trans (.markFreed ..)

theorem Wanes.foldAxis (s : State) (c : GrantCover) (i : AxisId) : Wanes s (s.foldAxis c i) :=
  Wanes.trans (Wanes.trans (.setStanding s i ⟨0, 0⟩) (.modFeed ..)) (.either (.setCover ..) (.refl _))

theorem Wanes.grantWave (s : State) (a : Ant) (d : Nat) : Wanes s (s.grantWave a d) := by
  unfold State.grantWave
  exact (Wanes.forEach (fun s i => .foldAxis s .wave i) a.axes s).trans (.modFeed ..)

/-! ### The stow -/

theorem Wanes.refreshHorn (s : State) (a : Ant) : Wanes s (s.refreshHorn a) := .modHorn ..

theorem Wanes.setWarning (s : State) (a : Ant) (t : Timer) : Wanes s (s.setWarning a t) :=
  Wanes.trans (t := s.modStow a fun r => { r with warningTimer := t }) (.modStow (fun _ => rfl) ⟨rfl, rfl, rfl⟩)
    (.refreshHorn ..)

theorem Wanes.stowAtRest (s : State) (a : Ant) : Wanes s (s.stowAtRest a) := by
  refine .ite (fun rest => ?_) fun _ => .refl s
  have moved (st : StowState) : Wanes s (s.setStow a st) := .modStow (fun h => absurd rest.1 h) ⟨rfl, rfl, rfl⟩
  exact .either ((moved _).trans (.stopBoth ..)) (.either (moved _) ((moved _).trans (.markForm ..)))

theorem Wanes.admitToWave (s : State) (a : Ant) (f : Fit) : Wanes s (s.admitToWave a f) := by
  unfold State.admitToWave
  refine Wanes.trans ?_ (.forEach (fun s i => .addStow s i) _ _)
  refine Wanes.trans ?_ (.either (.refl _) (.setWarning ..))
  refine Wanes.trans ?_ (.modStow (fun _ => rfl) ⟨rfl, rfl, rfl⟩)
  refine Wanes.trans (Wanes.trans (.makeRoom s f true) ?_) (.afterGrant ..)
  exact .grantWave ..

theorem Wanes.walkWave (xs : List Ant) (s : State) : Wanes s (s.walkWave xs).2 := by
  induction xs generalizing s with
  | nil => exact .refl ..
  | cons a rest ih =>
    unfold State.walkWave
    split
    · exact ih s
    · split
      · exact .refl ..
      · exact (Wanes.admitToWave ..).trans (ih _)

theorem Wanes.formWave (s : State) : Wanes s s.formWave :=
  .either (.refl s) (.either (.walkWave ..) ((Wanes.walkWave ..).trans (.setWave ..)))

/-! ### All that follows -/

theorem Wanes.endDisable (s : State) (a : Ant) : Wanes s (s.endDisable a) := by
  refine .either (Wanes.trans ?_ (.forEach (fun s i => .either (.enterAxis ..) (.refl s)) _ _)) (.refl s)
  exact .modAnt (fun _ => rfl) fun _ up => nomatch up

theorem Wanes.seekTorque (s : State) (i : AxisId) : Wanes s (s.seekTorque i) := by
  have under (c : GrantCover) : Wanes s (s.torqueUnder i c) := (Wanes.setCover ..).trans (.enterAxis ..)
  unfold State.seekTorque
  refine .either (.either ?_ (.either (.either (under _) (.refl s)) (.either (.refl s) (.askNeed ..)))) (.refl s)
  split
  · exact under _
  · exact .refl s

theorem Wanes.offer (s : State) : Wanes s s.offer :=
  .either (((Wanes.clearMarks s).trans (.formWave _)).trans (.offerQueue ..))
    (.either ((Wanes.clearMarks s).trans (.formWave _)) (.refl s))

theorem Wanes.offerFreed (n : Nat) (s : State) : Wanes s (s.offerFreed n) := by
  induction n generalizing s with
  | zero => exact .refl s
  | succ n ih => exact .either ((Wanes.offer s).trans (ih _)) (.refl s)

theorem Wanes.seekAll (s : State) : Wanes s s.seekAll :=
  .forEach (fun s i => .either ((Wanes.offerFreed 4 s).trans (.seekTorque _ i)) (.refl s)) _ s

theorem Wanes.followUp (s : State) : Wanes s s.followUp := by
  unfold State.followUp
  refine Wanes.trans ?_ (.forEach (fun s a => .either (.releaseWaveGrant ..) (.refl s)) _ _)
  refine Wanes.trans ?_ (.forEach (fun s g => .either (.releaseGroup ..) (.refl s)) _ _)
  refine Wanes.trans ?_ (.forEach (fun s a => .stowAtRest s a) _ _)
  exact Wanes.trans (.withdrawVoid s) (.forEach (fun s a => .endDisable s a) _ _)

theorem Wanes.settle (s : State) : Wanes s s.settle := by
  have rounds (n : Nat) (s : State) : Wanes s (s.settleRounds n) := by
    induction n generalizing s with
    | zero => exact .refl s
    | succ n ih =>
      unfold State.settleRounds
      exact (((Wanes.followUp s).trans (.seekAll _)).trans (.offer _)).trans (ih _)
  exact rounds 4 s

theorem Wanes.announce (s₀ s : State) : Wanes s (Machine.announce s₀ s) := {}

/-- What follows the body of an event wanes. -/
theorem event_wanes (s : State) (body : State → State) : Wanes (body s) (event s body) :=
  (Wanes.settle _).trans (.announce ..)

end Sys2Proof.Machine
end

