-- ==== Sys2Proof/Proofs/Faults.lean ====
section
/-! PROOFS. The one fault stop, by every row that takes an axis (R25, R26). -/

namespace Sys2Proof.Machine

variable {s t u : State}

/-! ### The group that binds an antenna (R85, R86) -/

/-- Nothing watched but the groups changes, but at the pliable axes and in the claims. -/
abbrev Drops (s t : State) : Prop := Halts { s with groups := t.groups } t

theorem Halts.drops (h : Halts s t) : Drops s t := { h with groups := rfl }

theorem Halts.regroup (h : Halts s t) (gs : Four Group) : Halts { s with groups := gs } { t with groups := gs } :=
  { h with groups := rfl }

theorem Drops.trans (h : Drops s t) (k : Drops t u) : Drops s u := by
  have first : Halts { s with groups := u.groups } { t with groups := u.groups } := Halts.regroup h u.groups
  exact Halts.trans first k

theorem Drops.modGroup (s : State) (g : GroupId) (f : Group → Group) : Drops s (s.modGroup g f) := Halts.refl _

theorem Drops.releaseGroup (s : State) (g : GroupId) : Drops s (s.releaseGroup g) := by
  have grant : Drops s (s.releaseGroupGrant g) := (Halts.of_still (Still.releaseGroupGrant s g)).drops
  have dropped : Drops _ (s.releaseGroup g) := (Halts.forEach (fun s i => .of_still (Still.dropGroup s i))
    (s.groups.get g).axes ((s.releaseGroupGrant g).modGroup g fun r => { r with held := false })).drops
  exact (grant.trans (.modGroup ..)).trans dropped

theorem Drops.haltGroup (s : State) (g : GroupId) (r : GroupHalt) (c : Option (Ant × Option AxisName)) :
    Drops s (s.haltGroup g r c) := by
  have halted : Drops s (s.modGroup g fun v => v.halt s.now r c) := .modGroup ..
  unfold State.haltGroup
  dsimp only
  split
  · exact halted
  · exact halted.trans (.releaseGroup ..)
  · exact halted.trans (Halts.forEach (fun s i => .stopHolding s i .group) _ _).drops
  · exact (Halts.refl s).drops

theorem Drops.haltGroupOf (s : State) (a : Ant) (r : GroupHalt) (x : Option AxisName) : Drops s (s.haltGroupOf a r x) := by
  unfold State.haltGroupOf
  split
  · exact (Halts.refl s).drops
  · exact .haltGroup ..

/-- The group that bound the antenna is HALTED with its reason and its cause. -/
def State.GroupHalted (s t : State) (a : Ant) (r : GroupHalt) (x : Option AxisName) : Prop :=
  ∀ g, s.boundGroup a = some g → (t.groups.get g).state = .halted ∧ (t.groups.get g).haltReason = some r
    ∧ (t.groups.get g).causing = some (a, x)

theorem State.GroupHalted.kept {a : Ant} {r : GroupHalt} {x : Option AxisName} (h : s.GroupHalted t a r x)
    (after : Part.groupRecords.same t u) : s.GroupHalted u a r x := by
  intro g bound
  obtain ⟨state, reason, cause⟩ := h g bound
  have same := after g
  exact ⟨(congrArg Group.state same).trans state, (congrArg Group.haltReason same).trans reason,
    (congrArg Group.causing same).trans cause⟩

theorem State.haltGroupOf_halted (s : State) (a : Ant) (r : GroupHalt) (x : Option AxisName) :
    s.GroupHalted (s.haltGroupOf a r x) a r x := by
  intro g bound
  have found : ((s.groups.get g).binds && (s.groups.get g).has a) = true :=
    List.find?_some (p := fun g => (s.groups.get g).binds && (s.groups.get g).has a) bound
  have binds := (Bool.and_eq_true_iff.mp found).1
  have run : s.haltGroupOf a r x = s.haltGroup g r (some (a, x)) := by
    unfold State.haltGroupOf
    rw [bound]
  rw [run]
  cases state : (s.groups.get g).state with
  | empty | done | halted => rw [Group.binds, state] at binds; cases binds
  | planned =>
    have halt : s.haltGroup g r (some (a, x)) = s.modGroup g fun v => v.halt s.now r (some (a, x)) := by
      unfold State.haltGroup
      rw [state]
    rw [halt, State.groups_get_modGroup, if_pos rfl]
    exact ⟨rfl, rfl, rfl⟩
  | armed => rw [State.haltGroup_armed r _ state]; exact ⟨rfl, rfl, rfl⟩
  | running => rw [State.haltGroup_running_group r _ state]; exact ⟨rfl, rfl, rfl⟩

/-! ### Queue, burst and group let go -/

theorem State.QueueGone.later {a : Ant} {r : HaltReason} (h : s.QueueGone t a r) (after : Part.queues.same t u)
    (closed : Part.burst.same t u) : s.QueueGone u a r := h.kept (fun _ => rfl) rfl after closed

/-- What a halt of queue, burst and group leaves, in the words of the statement. -/
theorem State.QueueGone.letGo {a : Ant} {r : HaltReason} {h : GroupHalt} {x : Option AxisName} (gone : s.QueueGone t a r)
    (group : s.GroupHalted t a h x) : s.LetGo t a r h where
  queue busy := by
    have q := gone.queue busy
    exact ⟨q.halted, q.reason, q.run, q.live, q.first, q.abandoned⟩
  burst := gone.burst
  terminated := gone.terminated
  group g bound := ⟨(group g bound).1, (group g bound).2.1⟩

/-! ### The jog and the stow (R112, R127) -/

theorem Halts.leaveJog (s : State) (i : AxisId) : Halts s (s.leaveJog i) := by
  have left : Halts s ((s.dropClaim i .jog).modFeed fun f =>
      { f with queue := f.queue.filter fun n => !(decide (n.axis = i) && decide (n.kind = .jog)) }) :=
    (Halts.of_still (Still.dropOne s i .jog)).trans (.of_still (Still.filterQueue ..))
  exact .ite (left.trans (.of_still (Still.fallToHold ..))) left

theorem Halts.failJogFault (s : State) (a : Ant) : Halts s (s.failJogFault a) := by
  unfold State.failJogFault
  split
  · exact .refl s
  · rename_i j _
    have failed : Halts s (s.modJog a fun j => { j with failure := some .faulted }) := .of_still (Still.modJog fun _ => rfl)
    exact failed.trans (.leaveJog _ ⟨a, j.axis⟩)

theorem State.leaveJog_jog (s : State) (i : AxisId) (a : Ant) : (s.leaveJog i).jog a = s.jog a
    ∧ ((s.leaveJog i).axis i).claims.jog = false := by
  set u := (s.dropClaim i .jog).modFeed fun f =>
    { f with queue := f.queue.filter fun n => !(decide (n.axis = i) && decide (n.kind = .jog)) }
  have claims : (u.axis i).claims.jog = false := by
    rw [show u.axis i = (s.dropClaim i .jog).axis i from rfl, State.dropClaim, State.axis_modAxis, if_pos rfl]
    rfl
  have fallen : (u.fallToHold i).locks = u.locks ∧ (u.fallToHold i).ants = u.ants := by
    unfold State.fallToHold State.changeStanding State.markFreedIf
    split <;> exact ⟨rfl, rfl⟩
  unfold State.leaveJog
  change State.jog (if (u.axis i).state = .holding then u.fallToHold i else u) a = _
    ∧ (State.axis (if (u.axis i).state = .holding then u.fallToHold i else u) i).claims.jog = false
  split
  · exact ⟨congrArg (fun l : Locks => (l.authority.get a).jog) fallen.1,
      (congrArg (fun v : Six Antenna => ((v.get i.ant).axes.get i.ax).claims.jog) fallen.2).trans claims⟩
  · exact ⟨rfl, claims⟩

/-- A jog of the antenna has failed FAULTED and holds no claim (R110, R112). -/
def State.JogFailed (s t : State) (a : Ant) : Prop :=
  ∀ j, s.jog a = some j → (∃ k, t.jog a = some k ∧ k.failure = some .faulted)
    ∧ (t.axis ⟨a, j.axis⟩).claims.has .jog = false

theorem State.JogFailed.wanes {a : Ant} (h : s.JogFailed t a) (k : Wanes t u) : s.JogFailed u a := by
  intro j is
  obtain ⟨⟨m, mid, failed⟩, none⟩ := h j is
  obtain ⟨n, last, same⟩ := k.jogs a m mid (by rw [failed]; rfl)
  refine ⟨⟨n, last, same.trans failed⟩, ?_⟩
  by_contra has
  rw [k.claims ⟨a, j.axis⟩ .jog (by decide) (by simpa using has)] at none
  cases none

theorem State.failJogFault_failed (s : State) (a : Ant) : s.JogFailed (s.failJogFault a) a := by
  intro j is
  have run : s.failJogFault a = (s.modJog a fun j => { j with failure := some .faulted }).leaveJog ⟨a, j.axis⟩ := by
    unfold State.failJogFault
    rw [is]
  obtain ⟨jog, claims⟩ := (s.modJog a fun j => { j with failure := some .faulted }).leaveJog_jog ⟨a, j.axis⟩ a
  rw [run]
  refine ⟨⟨{ j with failure := some .faulted }, ?_, rfl⟩, claims⟩
  rw [jog, State.jog_modJog, if_pos rfl, is]
  rfl

/-- What the Stow Controller makes of a fault: a change of its own records, then STOW claims dropped, or, beside the
pin, the antenna put down (R127). -/
theorem State.stowFaulted_spec (s : State) (a : Ant) : ∃ u : State, u = { s with stow := u.stow, scratch := u.scratch }
    ∧ (s.stowFaulted a = u ∨ s.stowFaulted a = u.dropClaims a .stow
      ∨ ((s.stowOf a).state = .pinWarming ∨ (s.stowOf a).state = .pinInserting) ∧ s.stowFaulted a = u.putDown a)
    ∧ ((s.stowOf a).state = .stopping ∨ (s.stowOf a).state = .waiting ∨ (s.stowOf a).state = .driving →
      (u.stowOf a).state = .driveFailed)
    ∧ (¬((s.stowOf a).state = .stopping ∨ (s.stowOf a).state = .waiting ∨ (s.stowOf a).state = .driving) → u = s) := by
  have failed (v : State) : ((v.setStow a .driveFailed).stowOf a).state = .driveFailed := by
    rw [State.setStow, State.stowOf_modStow, if_pos rfl]
  have left : s.leaveWave a = { s with stow := (s.leaveWave a).stow, scratch := (s.leaveWave a).scratch } := by
    unfold State.leaveWave
    dsimp only
    split
    · rfl
    · split <;> rfl
  unfold State.stowFaulted
  cases e : (s.stowOf a).state with
  | stopping =>
    exact ⟨s.setStow a .driveFailed, rfl, .inl rfl, fun _ => failed s, fun h => absurd (.inl rfl) h⟩
  | waiting =>
    refine ⟨(if (s.stowOf a).member then s.leaveWave a else s).setStow a .driveFailed, ?_, .inr (.inl rfl), fun _ => failed _,
      fun h => absurd (.inr (.inl rfl)) h⟩
    split
    · rw [left]
      rfl
    · rfl
  | driving =>
    exact ⟨s.setStow a .driveFailed, rfl, .inr (.inl rfl), fun _ => failed s, fun h => absurd (.inr (.inr rfl)) h⟩
  | pinWarming => exact ⟨s, rfl, .inr (.inr ⟨.inl rfl, rfl⟩), by simp, fun _ => rfl⟩
  | pinInserting => exact ⟨s, rfl, .inr (.inr ⟨.inr rfl, rfl⟩), by simp, fun _ => rfl⟩
  | unstowed | blocked | driveFailed | stowed | pinFailed | pinWithdrawing =>
    exact ⟨s, rfl, .inl rfl, by simp, fun _ => rfl⟩

/-! ### The other axis (R18, R26) -/

theorem State.OtherStopped.congr {i : AxisId} (h : s.OtherStopped t i) (core : (u.axis i).core = (t.axis i).core) :
    s.OtherStopped u i := by
  have state := Axis.core_state core
  have stop : (u.axis i).stop = (t.axis i).stop := congrArg (fun c => c.2.2.2.2.2.2.1) core
  have pending := Axis.core_pendingStop core
  constructor
  · rw [state, stop]; exact h.moving
  · rw [state, stop]; exact h.stopping
  · rw [state, pending]; exact h.still

/-- An axis at rest is taken into a stop that ends at once (R17). -/
theorem State.startStop_still (s : State) (i : AxisId) (r : StopReason) (still : (s.axis i).velocity = 0) :
    ((s.startStop i r .holding).axis i).state = .holding := by
  unfold State.startStop
  dsimp only
  rw [if_pos still, State.endStop, State.axis_enterAxis, if_pos rfl]
  rfl

/-- A stop toward HOLDING takes a moving axis, and leaves it where no further one changes it. -/
theorem State.stopHolding_spec (s : State) (i : AxisId) : s.OtherStopped (s.stopAxis i .fault .holding) i
    ∧ ¬((s.stopAxis i .fault .holding).axis i).Pliable := by
  rw [State.stopAxis, if_pos rfl]
  have start (h : (s.axis i).state.runs = true) : s.OtherStopped (s.takeStop i .fault .holding) i
      ∧ ¬((s.takeStop i .fault .holding).axis i).Pliable := by
    rw [State.takeStop_runs h]
    have no (x : AxisState) (e : x.runs = false) (k : (s.axis i).state = x) : False := by rw [k, e] at h; cases h
    by_cases rest : (s.axis i).velocity = 0
    · have ends := s.startStop_still i .fault rest
      refine ⟨⟨fun _ => ⟨fun k => absurd rest k, fun _ => ends⟩, fun k => (no _ rfl k).elim, fun k => ?_⟩, ?_⟩
      · rcases k with k | k | k <;> exact (no _ rfl k).elim
      · unfold Axis.Pliable
        rw [ends]
        simp [AxisState.runs]
    · have axis := s.startStop_axis i .fault .holding rest
      refine ⟨⟨fun _ => ⟨fun _ => ?_, fun k => absurd k rest⟩, fun k => (no _ rfl k).elim, fun k => ?_⟩, ?_⟩
      · rw [axis]
        exact ⟨rfl, rfl⟩
      · rcases k with k | k | k <;> exact (no _ rfl k).elim
      · rw [axis]
        unfold Axis.Pliable
        simp [AxisState.runs, Axis.enter]
  have keep (same : s.takeStop i .fault .holding = s) (runs : (s.axis i).state.runs = false) (brakes : (s.axis i).state ≠ .braking) :
      s.OtherStopped (s.takeStop i .fault .holding) i ∧ ¬((s.takeStop i .fault .holding).axis i).Pliable := by
    rw [same]
    refine ⟨⟨fun k => ?_, fun k => ⟨k, rfl⟩, fun k => ⟨rfl, fun _ => rfl⟩⟩, ?_⟩
    · rcases k with k | k | k <;> rw [k] at runs <;> cases runs
    · unfold Axis.Pliable
      simp [runs, brakes]
  cases e : (s.axis i).state with
  | off | precharge | braked | faulted | torqueUp | holding =>
    exact keep (by simp only [State.takeStop, e, if_pos]) (by rw [e]; rfl) (by rw [e]; exact nofun)
  | slewing | tracking | jogging => exact start (by rw [e]; rfl)
  | stopping =>
    have axis : (s.takeStop i .fault .holding).axis i = s.axis i := by
      have same (o : Option StopRecord) : (o.map fun q => { q with target := deeper q.target .holding }) = o := by
        cases o with
        | none => rfl
        | some q => rw [Option.map_some, deeper_holding]
      simp only [State.takeStop, e]
      rw [State.axis_modAxis, if_pos rfl, same]
    refine ⟨⟨fun k => ?_, fun k => by rw [axis]; exact ⟨k, rfl⟩, fun _ => by rw [axis]; exact ⟨rfl, fun _ => rfl⟩⟩, ?_⟩
    · rcases k with k | k | k <;> rw [e] at k <;> cases k
    · rw [axis]
      unfold Axis.Pliable
      rw [e]
      simp [AxisState.runs]
  | braking =>
    have axis : (s.takeStop i .fault .holding).axis i = (s.axis i).holdStop .fault .holding := by
      simp only [State.takeStop, e]
      rw [State.axis_modAxis, if_pos rfl]
    have kept (h : (s.axis i).pendingStop.isSome = true) :
        ((s.axis i).holdStop .fault .holding).pendingStop = (s.axis i).pendingStop := by
      obtain ⟨p, is⟩ := Option.isSome_iff_exists.mp h
      unfold Axis.holdStop
      rw [is]
      dsimp only
      rw [deeper_holding]
    have held : ((s.axis i).holdStop .fault .holding).pendingStop ≠ none := by
      unfold Axis.holdStop
      cases (s.axis i).pendingStop <;> exact nofun
    refine ⟨⟨fun k => ?_, fun k => (by rw [e] at k; cases k), fun _ => (by rw [axis]; exact ⟨rfl, fun k => kept (k e)⟩)⟩, ?_⟩
    · rcases k with k | k | k <;> rw [e] at k <;> cases k
    · rw [axis]
      rintro (runs | ⟨-, none⟩)
      · rw [show ((s.axis i).holdStop .fault .holding).state = (s.axis i).state from rfl, e] at runs
        cases runs
      · exact held none

/-! ### The whole fault stop -/

theorem State.faultStop_spec (s : State) (i : AxisId) (c : FaultCause) : Still (· = i) s (s.faultStop i c)
    ∧ ((s.faultStop i c).axis i).core = ((s.axis i).enter s.now (.faulted c)).core
    ∧ ((s.faultStop i c).axis i).claims = .none ∧ (s.faultStop i c).axis i.other = s.axis i.other := by
  have other : i.other ≠ i := by
    obtain ⟨a, ax⟩ := i
    cases ax <;> exact nofun
  refine ⟨((Still.clearClaims s i).mono (fun _ => False.elim) fun _ => id).trans (Still.enterAxis ..), ?_, ?_, ?_⟩
  · rw [State.faultStop, State.axis_enterAxis, if_pos rfl, State.clearClaims, State.axis_modAxis, if_pos rfl]
    rfl
  · rw [State.faultStop, State.axis_enterAxis, if_pos rfl, State.clearClaims, State.axis_modAxis, if_pos rfl]
    rfl
  · rw [State.faultStop, State.axis_enterAxis, if_neg other, State.clearClaims, State.axis_modAxis, if_neg other]

end Sys2Proof.Machine
end

