-- ==== Sys2Proof/Proofs/FaultRows.lean ====
section
/-! PROOFS. Every fault row takes its axis by the one fault stop (R25, R26). -/

namespace Sys2Proof.Machine

variable {s t u : State} {i : AxisId} {c : FaultCause}

theorem AxisId.other_ne (i : AxisId) : i.other ≠ i := by
  obtain ⟨a, ax⟩ := i
  cases ax <;> exact nofun

/-- An axis that waits for its bus or is FAULTED stays as it is under the stops of a halt. -/
theorem Axis.stiff_inert {x : Axis} (h : x.state.inert = true) : ¬x.Pliable := by
  rintro (runs | ⟨brakes, -⟩)
  · rw [AxisState.runs_not_inert runs] at h
    cases h
  · rw [brakes] at h
    cases h

theorem Axis.stiff_faulted {x : Axis} (h : x.state = .faulted c) : ¬x.Pliable := Axis.stiff_inert (by rw [h]; rfl)

/-- A FAULTED axis without claims. -/
def State.Felled (s : State) (i : AxisId) (x : Axis) (c : FaultCause) : Prop :=
  (s.axis i).core = (x.enter 0 (.faulted c)).core ∧ (s.axis i).claims.any = false

theorem State.Felled.state {x : Axis} (h : s.Felled i x c) : (s.axis i).state = .faulted c := Axis.core_state h.1

theorem State.Felled.kept {x : Axis} {p q : AxisId → Prop} (h : s.Felled i x c) (still : StillBut p q s t) (other : ¬p i) :
    t.Felled i x c := ⟨(still.core i other).trans h.1, still.claims i other h.2⟩

theorem State.Felled.event {x : Axis} (h : u.Felled i x c) : (Machine.event s fun _ => u).Felled i x c := by
  have faulted : (u.axis i).state.isFaulted = true := by rw [h.state]; rfl
  have rest := Still.withdrawVoid u
  have steady : u.withdrawVoid.steady i := by
    refine State.steady_withdrawVoid (fun n _ at_ => ?_) fun t axis free _ _ => ⟨free, ?_⟩
    · rw [State.needVoid, at_, faulted, Bool.or_true]
      rfl
    · rw [axis, h.state]
      trivial
  have calm : Calm u.withdrawVoid (Machine.event s fun _ => u) := (Calm.settleRest u).trans (Still.announce ..).calm_none
  refine ⟨(calm.axes i steady).1.trans ((rest.core i id).trans h.1), ?_⟩
  refine calm.claims i steady (.inr ?_) (rest.claims i id h.2)
  rw [Axis.core_state (rest.core i id)]
  exact faulted

/-- What the hand-over of a fault does but for the Stow Controller's part (R26). -/
def State.handed (s : State) (i : AxisId) (c : FaultCause) : State :=
  ((((s.stopAxis i.other .fault .holding).haltQueue i.ant (.fault i.ax c)).terminateBurst i.ant .fault).haltGroupOf i.ant
    (.fault c) (some i.ax)).failJogFault i.ant

theorem State.handOnFault_handed (s : State) (i : AxisId) (c : FaultCause) :
    s.handOnFault i c = (s.handed i c).stowFaulted i.ant := rfl

/-- What it leaves: the other axis under its stop, the rest of the antenna let go. -/
theorem State.handed_spec (s : State) (i : AxisId) (c : FaultCause) : Drops s (s.handed i c)
    ∧ Drops (s.stopAxis i.other .fault .holding) (s.handed i c) ∧ s.QueueGone (s.handed i c) i.ant (.fault i.ax c)
    ∧ s.GroupHalted (s.handed i c) i.ant (.fault c) (some i.ax) ∧ s.JogFailed (s.handed i c) i.ant := by
  set u := s.stopAxis i.other .fault .holding
  set v := (u.haltQueue i.ant (.fault i.ax c)).terminateBurst i.ant .fault
  set w := v.haltGroupOf i.ant (.fault c) (some i.ax)
  have stopped : Halts s u := .stopHolding ..
  have halted : Halts u v := (Halts.haltQueue ..).trans (.of_still (Still.terminateBurst ..))
  have freed : Drops v w := .haltGroupOf ..
  have failed : Halts w (s.handed i c) := .failJogFault ..
  have later : Drops u (s.handed i c) := (halted.drops.trans freed).trans failed.drops
  have first := Follows.stopAxis s i.other .fault .holding
  have second := Moves.haltGroupOf v i.ant (.fault c) (some i.ax)
  have third := Follows.failJogFault w i.ant
  have gone : s.QueueGone v i.ant (.fault i.ax c) := (u.haltQueue_gone i.ant (.fault i.ax c)).kept
    (first.touches.same .queues (by decide)) (first.touches.same .burst (by decide)) (fun _ => rfl) rfl
  have gone' : s.QueueGone w i.ant (.fault i.ax c) :=
    gone.later (second.touches.same .queues (by decide)) (second.touches.same .burst (by decide))
  have groups : v.groups = s.groups := halted.groups.trans stopped.groups
  have bound (g : GroupId) (h : s.boundGroup i.ant = some g) : v.boundGroup i.ant = some g := by
    unfold State.boundGroup
    rw [groups]
    exact h
  have group : s.GroupHalted w i.ant (.fault c) (some i.ax) := fun g h =>
    v.haltGroupOf_halted i.ant (.fault c) (some i.ax) g (bound g h)
  have jogs : (w.jog i.ant).map Jog.core = (s.jog i.ant).map Jog.core :=
    (freed.jogs i.ant).trans ((halted.jogs i.ant).trans (stopped.jogs i.ant))
  refine ⟨stopped.drops.trans later, later,
    gone'.later (third.touches.same .queues (by decide)) (third.touches.same .burst (by decide)),
    group.kept (third.touches.same .groupRecords (by decide)), fun j is => ?_⟩
  rw [is] at jogs
  obtain ⟨k, mid, core⟩ := Option.map_eq_some_iff.mp jogs
  have after := w.failJogFault_failed i.ant k mid
  rw [show k.axis = j.axis from congrArg (fun q => q.1) core] at after
  exact after

/-- The Stow Controller's part (R127). -/
theorem State.stowFaulted_still (s : State) (a : Ant) : ∃ w : Stow,
    StillBut (fun j => ((s.stowOf a).state = .pinWarming ∨ (s.stowOf a).state = .pinInserting) ∧ s.movable a j)
      (fun _ => True) { s with stow := w } (s.stowFaulted a)
    ∧ Wanes { s with stow := w } (s.stowFaulted a)
    ∧ ((s.stowOf a).state = .stopping ∨ (s.stowOf a).state = .waiting ∨ (s.stowOf a).state = .driving →
      ((s.stowFaulted a).stowOf a).state = .driveFailed)
    ∧ ((s.stowFaulted a).stowOf a).state ≠ .stopping
    ∧ (¬((s.stowOf a).state = .stopping ∨ (s.stowOf a).state = .waiting ∨ (s.stowOf a).state = .driving) →
      (s.stowFaulted a).stowOf a = s.stowOf a) := by
  obtain ⟨u, shape, cases, failed, other⟩ := s.stowFaulted_spec a
  have away : StillBut noAxis (fun _ => True) { s with stow := u.stow } u := by
    rw [shape]
    exact StillBut.mono (Still.scratch ..) (fun _ => id) fun _ => False.elim
  have wane : Wanes { s with stow := u.stow } u := by
    rw [shape]
    exact {}
  have moved : (u.stowOf a).state ≠ .stopping := by
    by_cases h : (s.stowOf a).state = .stopping ∨ (s.stowOf a).state = .waiting ∨ (s.stowOf a).state = .driving
    · rw [failed h]
      exact nofun
    · rw [other h]
      exact fun k => h (.inl k)
  refine ⟨u.stow, ?_⟩
  rcases cases with e | e | ⟨pin, e⟩
  · rw [e]
    exact ⟨StillBut.mono away (fun _ => False.elim) fun _ => id, wane, failed, moved, fun h => by rw [other h]⟩
  · have dropped : StillBut noAxis (fun _ => True) u (u.dropClaims a .stow) :=
      have drop (v : State) (j : AxisId) : StillBut noAxis (fun _ => True) v (v.dropClaim j .stow) :=
        StillBut.mono (Still.dropOne v j .stow) (fun _ => id) fun _ _ => trivial
      (drop u ⟨a, .az⟩).trans (drop _ ⟨a, .el⟩)
    rw [e]
    exact ⟨StillBut.mono (away.trans dropped) (fun _ => False.elim) fun _ => id, wane.trans (.dropClaims ..), failed, moved,
      fun h => by rw [other h]; rfl⟩
  · have down := Still.stopBoth u a .stow .braked
    have same : u = s := other (by rcases pin with p | p <;> rw [p] <;> simp)
    rw [e]
    have stow : (u.putDown a).stowOf a = u.stowOf a := down.stow a
    refine ⟨?_, wane.trans (.stopBoth ..), by rw [stow]; exact failed, by rw [stow]; exact moved,
      fun _ => stow.trans (by rw [same])⟩
    refine StillBut.trans (StillBut.mono away (fun _ => False.elim) fun _ => id) (StillBut.mono down (fun j h => ⟨pin, ?_⟩) fun _ _ => trivial)
    rw [same] at h
    exact h

/-- The states in which an axis has yielded to a stop toward HOLDING. -/
def AxisState.yields : AxisState → Prop
  | .stopping => True | .holding => True | .torqueUp => True | .braking => True
  | _ => False

theorem State.steady_yields (free : s.waits i = false) (h : AxisState.yields (s.axis i).state)
    (stow : (s.stowOf i.ant).state ≠ .stopping) : s.steady i := by
  refine ⟨free, ?_⟩
  cases e : (s.axis i).state <;> rw [e] at h
  case stopping => trivial
  case holding | torqueUp | braking => exact stow
  all_goals exact h.elim

/-- What the stop makes of the other axis lasts where an axis that has yielded stays as it is. -/
theorem State.OtherStopped.lasts (h : s.OtherStopped t i)
    (keep : AxisState.yields (t.axis i).state → (u.axis i).core = (t.axis i).core) : s.OtherStopped u i := by
  by_cases work : AxisState.yields (t.axis i).state
  · exact h.congr (keep work)
  · refine ⟨fun k => ?_, fun k => ?_, fun k => ?_⟩
    · by_cases rest : (s.axis i).velocity = 0
      · exact absurd (by rw [(h.moving k).2 rest]; trivial) work
      · exact absurd (by rw [((h.moving k).1 rest).1]; trivial) work
    · exact absurd (by rw [(h.stopping k).1]; trivial) work
    · refine absurd ?_ work
      rw [(h.still k).1]
      rcases k with k | k | k <;> rw [k] <;> trivial

/-- A stop request withdraws no need and asks none. -/
theorem State.waits_stopAxis (s : State) (i j : AxisId) (r : StopReason) (d : StopTarget) :
    (s.stopAxis i r d).waits j = s.waits j := by
  have start (v : State) : (v.startStop i r d).waits j = v.waits j := by
    unfold State.startStop
    dsimp only
    split
    · cases d with
      | holding => exact (State.waits_enterAxis ..).trans (State.waits_enterAxis ..)
      | braked | off => exact (State.goBraking_waits ..).trans (State.waits_enterAxis ..)
    · exact State.waits_enterAxis ..
  have take (v : State) : (v.takeStop i r d).waits j = v.waits j := by
    unfold State.takeStop
    cases (v.axis i).state with
    | off | precharge | braked | faulted | stopping | braking => rfl
    | slewing | tracking | jogging => exact start v
    | torqueUp => dsimp only; split <;> rfl
    | holding =>
      dsimp only
      split
      · rfl
      · split
        · rfl
        · exact State.goBraking_waits ..
  rw [State.stopAxis, take]
  split <;> rfl

/-- A fault that takes an axis fells it, and decides a stow under way; buses and the axes that are FAULTED already stay. -/
theorem State.faultAxis_fells (takes : faultTakes (s.axis i).state c = true) :
    (s.faultAxis i c).Felled i (s.axis i) c
    ∧ (∀ a, ((s.faultAxis i c).ants.get a).power = (s.ants.get a).power)
    ∧ (((s.faultAxis i c).stowOf i.ant).state ≠ .stopping ∧ ((s.faultAxis i c).stowOf i.ant).state ≠ .waiting)
    ∧ ((s.stowOf i.ant).state = .unstowed → (s.faultAxis i c).stowOf i.ant = s.stowOf i.ant)
    ∧ ∀ j, j ≠ i → (s.axis j).state.inert = true → ((s.faultAxis i c).axis j).core = (s.axis j).core := by
  have run : s.faultAxis i c = ((s.faultStop i c).handed i c).stowFaulted i.ant := if_pos takes
  rw [run]
  set v := s.faultStop i c
  set w := v.handed i c
  obtain ⟨felled, core, none, -⟩ := s.faultStop_spec i c
  obtain ⟨laid, -⟩ := v.handed_spec i c
  obtain ⟨y, still, -, failed, moved, kept⟩ := w.stowFaulted_still i.ant
  have stow (a : Ant) : w.stowOf a = s.stowOf a := (laid.stow a).trans (felled.stow a)
  have inert {j : AxisId} (h : (w.axis j).state.inert = true) : ¬w.movable i.ant j := by
    rintro ⟨-, inert⟩
    rw [h] at inert
    cases inert
  have fallen : v.Felled i (s.axis i) c := ⟨core, by rw [none]; rfl⟩
  have fallen' : w.Felled i (s.axis i) c :=
    State.Felled.kept (s := { v with groups := w.groups }) fallen laid (Axis.stiff_faulted fallen.state)
  refine ⟨State.Felled.kept (s := { w with stow := y }) fallen' still fun h => inert (by rw [fallen'.state]; rfl) h.2,
    fun a => (still.power a).trans ((laid.power a).trans (felled.power a)), ⟨moved, ?_⟩, ?_, fun j other h => ?_⟩
  · by_cases h : (w.stowOf i.ant).state = .stopping ∨ (w.stowOf i.ant).state = .waiting ∨ (w.stowOf i.ant).state = .driving
    · rw [failed h]
      exact nofun
    · rw [kept h]
      exact fun k => h (.inr (.inl k))
  · rw [← stow]
    intro h
    exact kept (by rw [h]; simp)
  · have first := felled.core j other
    have waiting : (v.axis j).state.inert = true := by rw [Axis.core_state first]; exact h
    have second : (w.axis j).core = (v.axis j).core := laid.core j (Axis.stiff_inert waiting)
    have idle : (w.axis j).state.inert = true := by rw [Axis.core_state second, Axis.core_state first]; exact h
    exact (still.core j fun h => inert idle h.2).trans (second.trans first)

/-- The whole fault stop of an axis it takes (R25, R26). -/
theorem State.faultAxis_stopped {s₀ : State} (takes : faultTakes (s.axis i).state c = true) :
    s.FaultStopped (event s₀ fun _ => s.faultAxis i c) i c := by
  have run : s.faultAxis i c = ((s.faultStop i c).handed i c).stowFaulted i.ant := if_pos takes
  rw [run]
  set v := s.faultStop i c
  set w := v.handed i c
  set u := w.stowFaulted i.ant
  set t := event s₀ fun _ => u
  obtain ⟨felled, -, -, aside⟩ := s.faultStop_spec i c
  obtain ⟨laid, later, gone, group, jog⟩ := v.handed_spec i c
  obtain ⟨y, still, wane, failed, moved, -⟩ := w.stowFaulted_still i.ant
  have follow : Follows w u := Follows.stowFaulted w i.ant
  have first := Follows.faultStop s i c
  have gone' : s.QueueGone u i.ant (.fault i.ax c) := (gone.kept (first.touches.same .queues (by decide))
    (first.touches.same .burst (by decide)) (fun _ => rfl) rfl).later (follow.touches.same .queues (by decide))
    (follow.touches.same .burst (by decide))
  have bound (g : GroupId) (h : s.boundGroup i.ant = some g) : v.boundGroup i.ant = some g := by
    unfold State.boundGroup
    rw [felled.groups]
    exact h
  have group' : s.GroupHalted t i.ant (.fault c) (some i.ax) := fun g h =>
    ((group.kept (follow.touches.same .groupRecords (by decide))).kept
      (event_same (p := .groupRecords) s₀ (fun _ => u) (by decide))) g (bound g h)
  have stow (a : Ant) : w.stowOf a = s.stowOf a := (laid.stow a).trans (felled.stow a)
  have last : t.Felled i (s.axis i) c := State.Felled.event (run ▸ (State.faultAxis_fells takes).1)
  have jogs : (v.jog i.ant).map Jog.core = (s.jog i.ant).map Jog.core := felled.jogs i.ant
  have jogs' : (t.jog i.ant).map Jog.core = (s.jog i.ant).map Jog.core :=
    ((event_calm s₀ fun _ => u).jogs i.ant).trans ((still.jogs i.ant).trans ((laid.jogs i.ant).trans jogs))
  have lost : v.JogFailed t i.ant := (State.JogFailed.wanes (t := { w with stow := y }) jog wane).wanes (event_wanes s₀ fun _ => u)
  have other : s.OtherStopped (v.stopAxis i.other .fault .holding) i.other
      ∧ ¬((v.stopAxis i.other .fault .holding).axis i.other).Pliable := by
    obtain ⟨stops, stiff⟩ := v.stopHolding_spec i.other
    have now : v.now = s.now := congrArg Clock.epoch (first.touches.same .clock (by decide))
    have ice : v.iceClass i.other.ant = s.iceClass i.other.ant :=
      State.iceClass_congr (State.ice_of_same (first.touches.same .ice (by decide))) _
    refine ⟨⟨?_, ?_, ?_⟩, stiff⟩
    · have moving := stops.moving
      unfold State.limitA at moving ⊢
      rw [ice, now, aside] at moving
      exact moving
    · rw [← aside]; exact stops.stopping
    · rw [← aside]; exact stops.still
  obtain ⟨stops, stiff⟩ := other
  have core (warming : (s.stowOf i.ant).state ≠ .pinWarming) (inserting : (s.stowOf i.ant).state ≠ .pinInserting)
      (free : s.waits i.other = false) (work : AxisState.yields ((v.stopAxis i.other .fault .holding).axis i.other).state) :
      (t.axis i.other).core = ((v.stopAxis i.other .fault .holding).axis i.other).core := by
    have clear : ¬(((w.stowOf i.ant).state = .pinWarming ∨ (w.stowOf i.ant).state = .pinInserting)
        ∧ w.movable i.ant i.other) := by
      rw [stow]
      rintro ⟨h | h, -⟩
      · exact warming h
      · exact inserting h
    have kept : (u.axis i.other).core = ((v.stopAxis i.other .fault .holding).axis i.other).core :=
      (still.core i.other clear).trans (later.core i.other stiff)
    have free' : (v.stopAxis i.other .fault .holding).waits i.other = false :=
      (State.waits_stopAxis ..).trans (felled.waits i.other (AxisId.other_ne i) free)
    have steady : u.steady i.other := by
      refine State.steady_yields (still.waits i.other clear (later.waits i.other stiff free')) ?_ moved
      rw [Axis.core_state kept]
      exact work
    exact ((event_calm s₀ fun _ => u).axes i.other steady).1.trans kept
  have wanes := event_wanes s₀ fun _ => u
  refine
    { state := last.state, amplifier := ?_, released := Axis.core_released last.1
      still := congrArg (fun c => c.2.2.1) last.1, stop := congrArg (fun c => c.2.2.2.2.2.2.1) last.1, claims := last.2
      letGo := ?_, causing := fun g h => (group' g h).2.2, stow := fun h => ?_, other := fun warming inserting free => ?_
      jog := fun j is => ?_ }
  · refine (Axis.core_amplifier last.1).trans ?_
    cases c <;> rfl
  · exact (gone'.later (event_same s₀ (fun _ => u) (by decide)) (event_same s₀ (fun _ => u) (by decide))).letGo group'
  · rw [← stow] at h
    rw [wanes.stow i.ant moved]
    exact failed h
  · exact stops.lasts fun work => core warming inserting free work
  · rw [is] at jogs jogs'
    obtain ⟨j', mid, same⟩ := Option.map_eq_some_iff.mp jogs
    obtain ⟨⟨k, last, failed⟩, claim⟩ := lost j' mid
    rw [last] at jogs'
    refine ⟨k, last, Option.some.inj jogs', failed, ?_⟩
    rw [show j'.axis = j.axis from congrArg (fun q => q.1) same] at claim
    exact claim

/-! ### The rows -/

/-- A change that reaches nothing the fault stop reads. -/
structure Unread (s v : State) : Prop where
  still : Still noAxis s v
  tracks : v.tracks = s.tracks := by rfl
  burst : v.burst = s.burst := by rfl
  locks : v.locks = s.locks := by rfl
  now : v.now = s.now := by rfl
  limit : ∀ j, v.limitA j = s.limitA j := by exact fun _ => rfl

theorem State.OtherStopped.unread {v : State} (h : v.OtherStopped t i) (same : Unread s v) : s.OtherStopped t i := by
  have core := same.still.core i id
  have state := Axis.core_state core
  have position : (v.axis i).position = (s.axis i).position := congrArg (fun c => c.2.1) core
  have velocity : (v.axis i).velocity = (s.axis i).velocity := congrArg (fun c => c.2.2.1) core
  have stop : (v.axis i).stop = (s.axis i).stop := congrArg (fun c => c.2.2.2.2.2.2.1) core
  have pending := Axis.core_pendingStop core
  obtain ⟨moving, stopping, still⟩ := h
  rw [state, position, velocity, same.limit, same.now] at moving
  rw [state, stop] at stopping
  rw [state, pending] at still
  exact ⟨moving, stopping, still⟩

theorem State.FaultStopped.unread {v : State} (h : v.FaultStopped t i c) (same : Unread s v) : s.FaultStopped t i c := by
  have track (a : Ant) : v.track a = s.track a := congrArg (Six.get · a) same.tracks
  have bound (a : Ant) : v.boundGroup a = s.boundGroup a := by
    unfold State.boundGroup
    rw [same.still.groups]
  have jog (a : Ant) : v.jog a = s.jog a := congrArg (fun l : Locks => (l.authority.get a).jog) same.locks
  obtain ⟨queue, shut, ended, group⟩ := h.letGo
  have causing := h.causing
  have stow := h.stow
  have other := h.other
  have jogs := h.jog
  rw [track] at queue
  rw [same.burst] at ended
  rw [bound] at group causing
  rw [same.still.stow] at stow other
  rw [jog] at jogs
  exact
    { state := h.state, amplifier := h.amplifier, released := h.released, still := h.still, stop := h.stop
      claims := h.claims, letGo := ⟨queue, shut, ended, group⟩, causing := causing, stow := stow
      other := fun warming inserting free => (other warming inserting (same.still.waits _ id free)).unread same
      jog := jogs }

/-- A row that faults the axis runs the fault stop on what its inputs make of the state. -/
theorem fault_row {s v : State} {due : Bool} {body : State → State} (on : s.powered = true) (h : due = true)
    (e : body s = v.faultAxis i c) (same : Unread s v) (takes : faultTakes (s.axis i).state c = true) :
    ∃ t, occur s due body = .next t ∧ s.FaultStopped t i c := by
  have takes' : faultTakes (v.axis i).state c = true := by
    rw [Axis.core_state (same.still.core i id)]
    exact takes
  exact ⟨_, occur_runs on h e, (State.faultAxis_stopped takes').unread same⟩

theorem Unread.refl (s : State) : Unread s s := ⟨Still.refl noAxis s, rfl, rfl, rfl, rfl, fun _ => rfl⟩

theorem Unread.modAxisIn (s : State) (i : AxisId) (f : AxisInputs → AxisInputs) : Unread s (s.modAxisIn i f) :=
  { still := .away rfl (fun _ => id) rfl rfl rfl rfl }

theorem Unread.trans (h : Unread s t) (k : Unread t u) : Unread s u :=
  ⟨h.still.trans k.still, k.tracks.trans h.tracks, k.burst.trans h.burst, k.locks.trans h.locks, k.now.trans h.now,
    fun j => (k.limit j).trans (h.limit j)⟩

theorem Axis.markActed_core (x : Axis) (e : Enc) : (x.markActed e).core = x.core := by cases e <;> rfl

theorem Axis.markActed_claims (x : Axis) (e : Enc) : (x.markActed e).claims = x.claims := by cases e <;> rfl

/-- The report of an encoder reaches nothing the fault stop reads. -/
theorem Unread.reported (s : State) (i : AxisId) (e : Enc) : Unread s (s.reported i e) := by
  have marked (v : State) : Still noAxis v (v.modAxis i fun x => x.markActed e) :=
    .modAxis (fun x => x.markActed_core e) (fun x h => by rw [x.markActed_claims e]; exact h)
      fun x _ _ h => by rw [x.markActed_claims e]; exact h
  refine ⟨((Unread.modAxisIn s i _).still.trans (Still.runFieldTimers _ i.ant)).trans (marked _), rfl, rfl, rfl, rfl, fun j => ?_⟩
  have record : ((s.reported i e).axis j).record = (s.axis j).record :=
    congrArg (fun v : AxisRecord × Bool × Bool × Bool × Enc => v.1) (s.reported_settings i e j)
  unfold State.limitA
  rw [record]
  rfl

/-- Settles O32: every row by the one fault stop. -/
theorem faultsStopTheAxis : Obligations.FaultsStopTheAxis := by
  intro s c i k on row takes
  cases c
  case torqueUpTimeout j | releaseCheckTimeout j | brakeSetTimeout j | encoderDisagreementFault j | followingFault j =>
    obtain ⟨due, is⟩ := Option.ite_none_right_eq_some.mp row
    cases is
    exact fault_row on due rfl (.refl s) takes
  case limitSwitchTripped j b =>
    cases row
    exact fault_row on rfl rfl (.modAxisIn ..) takes
  case amplifierFault j =>
    obtain ⟨amp, is⟩ := Option.ite_none_right_eq_some.mp row
    cases is
    exact fault_row on rfl (if_pos amp) (.modAxisIn ..) takes
  case encoderFaultReport j e =>
    obtain ⟨⟨active, ill⟩, is⟩ := Option.ite_none_right_eq_some.mp row
    cases is
    have settings := s.reported_settings i e i
    refine fault_row on rfl ?_ (.reported s i e) takes
    show (if ((s.reported i e).axis i).active = e then (s.reported i e).activeReported i else s.reported i e) = _
    rw [Axis.active_congr settings, if_pos active, State.activeReported, Axis.active_congr settings, active,
      Axis.healthy_congr settings, State.reported_axisIn, Axis.healthy_setReport_other, ill]
    exact if_neg nofun
  all_goals cases row

end Sys2Proof.Machine
end

