-- ==== Sys2Proof/Proofs/Buses.lean ====
section
/-! PROOFS. The rows of the bus: up, precharge timeout, out of band and back (R9, R10). -/

namespace Sys2Proof.Machine

variable {s t u : State} {i : AxisId} {a : Ant}

/-! ### An axis with its amplifier on, under the fault of the other (R10, R18) -/

/-- The amplifier is enabled, and the loss of the bus takes the axis. -/
def Axis.Live (x : Axis) : Prop := x.amplifier = true ∧ faultTakes x.state .precharge = true

theorem Axis.Live.congr {x y : Axis} (h : x.Live) (e : y.core = x.core) : y.Live :=
  ⟨(Axis.core_amplifier e).trans h.1, by rw [Axis.core_state e]; exact h.2⟩

theorem Axis.Lawful.live {x : Axis} (h : x.Lawful) (on : x.amplifier = true) : x.Live := by
  refine ⟨on, ?_⟩
  rw [h.amplifier] at on
  cases e : x.state with
  | faulted k =>
    cases k
    case brakeSet => rfl
    all_goals rw [e] at on; cases on
  | _ => rfl

/-- A stop request takes no amplifier off. -/
theorem Axis.Live.takeStop (h : (s.axis i).Live) (r : StopReason) (d : StopTarget) : ((s.takeStop i r d).axis i).Live := by
  have start : ((s.startStop i r d).axis i).Live := by
    unfold State.startStop
    dsimp only
    split
    · cases d with
      | holding => rw [State.endStop, State.axis_enterAxis, if_pos rfl]; exact ⟨rfl, rfl⟩
      | braked | off =>
        show ((State.goBraking _ i _).axis i).Live
        rw [State.goBraking_axis]
        exact ⟨rfl, rfl⟩
    · rw [State.axis_enterAxis, if_pos rfl]; exact ⟨rfl, rfl⟩
  have held : ((s.modAxis i fun x => x.holdStop r d).axis i).Live := by
    rw [State.axis_modAxis, if_pos rfl]
    exact h
  unfold State.takeStop
  cases e : (s.axis i).state with
  | off | precharge | braked | faulted => exact h
  | slewing | tracking | jogging => exact start
  | stopping => dsimp only; rw [State.axis_modAxis, if_pos rfl]; exact h
  | braking => exact held
  | torqueUp =>
    dsimp only
    split
    · exact h
    · exact held
  | holding =>
    dsimp only
    split
    · exact h
    · split
      · exact held
      · rw [State.goBraking_axis]
        exact ⟨rfl, rfl⟩

theorem Axis.Live.stopAxis {j : AxisId} (h : (s.axis j).Live) (i : AxisId) (r : StopReason) (d : StopTarget) :
    ((s.stopAxis i r d).axis j).Live := by
  by_cases e : j = i
  · subst e
    refine Axis.Live.takeStop ?_ r d
    split
    · exact h
    · exact h.congr (s.clearClaims_axis j j)
  · exact h.congr ((Still.stopAxis s i r d).core j fun k => e k.1)

theorem Axis.Live.stowFaulted {j : AxisId} (h : (s.axis j).Live) (a : Ant) : ((s.stowFaulted a).axis j).Live := by
  obtain ⟨u, shape, cases, -⟩ := s.stowFaulted_spec a
  have same : (u.axis j).Live := by rw [shape]; exact h
  rcases cases with e | e | ⟨-, e⟩ <;> rw [e]
  · exact same
  · exact same.congr (((Still.dropOne _ ⟨a, .el⟩ .stow).core j id).trans ((Still.dropOne u ⟨a, .az⟩ .stow).core j id))
  · exact (same.stopAxis ⟨a, .az⟩ .stow .braked).stopAxis ⟨a, .el⟩ .stow .braked

/-- The fault stop of an axis leaves the other axis's amplifier on. -/
theorem State.faultAxis_live {c : FaultCause} (h : (s.axis i.other).Live) : ((s.faultAxis i c).axis i.other).Live := by
  by_cases takes : faultTakes (s.axis i).state c = true
  · have run : s.faultAxis i c = ((s.faultStop i c).handed i c).stowFaulted i.ant := if_pos takes
    obtain ⟨-, -, -, aside⟩ := s.faultStop_spec i c
    obtain ⟨-, later, -⟩ := (s.faultStop i c).handed_spec i c
    obtain ⟨-, stiff⟩ := (s.faultStop i c).stopHolding_spec i.other
    have first : ((s.faultStop i c).axis i.other).Live := by rw [aside]; exact h
    rw [run]
    exact ((first.stopAxis i.other .fault .holding).congr (later.core i.other stiff)).stowFaulted i.ant
  · rw [show s.faultAxis i c = s from if_neg takes]
    exact h

/-! ### Both axes faulted in turn -/

theorem State.faultAxis_refused {c : FaultCause} (h : ¬faultTakes (s.axis i).state c = true) : s.faultAxis i c = s := if_neg h

/-- A fault, taken or not, leaves the buses, an UNSTOWED antenna's stow record, and a stow record that nothing decides
undecided. -/
theorem State.faultAxis_keeps (s : State) (i : AxisId) (c : FaultCause) :
    (∀ b, ((s.faultAxis i c).ants.get b).power = (s.ants.get b).power)
    ∧ ((s.stowOf i.ant).state = .unstowed → (s.faultAxis i c).stowOf i.ant = s.stowOf i.ant)
    ∧ (s.quiet i.ant → (s.faultAxis i c).quiet i.ant)
    ∧ ∀ j, j ≠ i → (s.axis j).state.inert = true → ((s.faultAxis i c).axis j).core = (s.axis j).core := by
  by_cases takes : faultTakes (s.axis i).state c = true
  · obtain ⟨-, power, quiet, unstowed, inert⟩ := State.faultAxis_fells takes
    exact ⟨power, unstowed, fun _ => quiet, inert⟩
  · rw [State.faultAxis_refused takes]
    exact ⟨fun _ => rfl, fun _ => rfl, id, fun _ _ _ => rfl⟩

/-- The loss of the bus: the axes that `p` tells are faulted, AZ first. -/
theorem State.faultBoth_spec (s : State) (a : Ant) (p : State → AxisId → Prop) [∀ v i, Decidable (p v i)]
    (takes : ∀ ax, p s ⟨a, ax⟩ → faultTakes (s.axis ⟨a, ax⟩).state .precharge = true)
    (lasts : p s ⟨a, .el⟩ → p (s.faultAxis ⟨a, .az⟩ .precharge) ⟨a, .el⟩
      ∧ faultTakes ((s.faultAxis ⟨a, .az⟩ .precharge).axis ⟨a, .el⟩).state .precharge = true)
    {u : State} (h : forEach a.axes (fun s i => if p s i then s.faultAxis i .precharge else s) s = u) :
    (∀ ax, p s ⟨a, ax⟩ → (u.axis ⟨a, ax⟩).state = .faulted .precharge ∧ u.quiet a)
    ∧ (∀ b, (u.ants.get b).power = (s.ants.get b).power)
    ∧ ((s.stowOf a).state = .unstowed → u.stowOf a = s.stowOf a) := by
  set v := if p s ⟨a, .az⟩ then s.faultAxis ⟨a, .az⟩ .precharge else s
  have last : u = if p v ⟨a, .el⟩ then v.faultAxis ⟨a, .el⟩ .precharge else v := h.symm
  have first : (∀ b, (v.ants.get b).power = (s.ants.get b).power)
      ∧ ((s.stowOf a).state = .unstowed → v.stowOf a = s.stowOf a)
      ∧ (p s ⟨a, .az⟩ → (v.axis ⟨a, .az⟩).state = .faulted .precharge ∧ v.quiet a)
      ∧ (p s ⟨a, .el⟩ → p v ⟨a, .el⟩ ∧ faultTakes (v.axis ⟨a, .el⟩).state .precharge = true) := by
    obtain ⟨power, unstowed, -, -⟩ := s.faultAxis_keeps ⟨a, .az⟩ .precharge
    by_cases due : p s ⟨a, .az⟩
    · obtain ⟨felled, -, quiet, -⟩ := State.faultAxis_fells (takes .az due)
      rw [show v = s.faultAxis ⟨a, .az⟩ .precharge from if_pos due]
      exact ⟨power, unstowed, fun _ => ⟨felled.state, quiet⟩, lasts⟩
    · rw [show v = s from if_neg due]
      exact ⟨fun _ => rfl, fun _ => rfl, fun h => absurd h due, fun h => ⟨h, takes .el h⟩⟩
  obtain ⟨power, unstowed, az, el⟩ := first
  obtain ⟨power', unstowed', quiet', inert'⟩ := v.faultAxis_keeps ⟨a, .el⟩ .precharge
  by_cases due : p v ⟨a, .el⟩
  · rw [last, if_pos due]
    refine ⟨fun ax h => ?_, fun b => (power' b).trans (power b), fun h => ?_⟩
    · cases ax with
      | az =>
        obtain ⟨faulted, quiet⟩ := az h
        exact ⟨(Axis.core_state (inert' ⟨a, .az⟩ nofun (by rw [faulted]; rfl))).trans faulted, quiet' quiet⟩
      | el =>
        obtain ⟨felled, -, quiet, -⟩ := State.faultAxis_fells (el h).2
        exact ⟨felled.state, quiet⟩
    · exact (unstowed' (by rw [unstowed h]; exact h)).trans (unstowed h)
  · rw [last, if_neg due]
    refine ⟨fun ax h => ?_, power, unstowed⟩
    cases ax with
    | az => exact az h
    | el => exact absurd (el h).1 due

/-! ### The rows -/

/-- What follows an event leaves an enabled bus. -/
theorem event_power {body : State → State} {v : Antenna} (h : ((body s).ants.get a).power = v.power)
    (up : v.bus = .up) (enable : v.enable = true) :
    ((event s body).ants.get a).bus = .up ∧ ((event s body).ants.get a).outOfBand = v.outOfBand
    ∧ ((event s body).ants.get a).prechargeStart = v.prechargeStart := by
  have bus := (Antenna.power_bus h).trans up
  obtain ⟨b, o, p, -⟩ := (event_calm s body).power a
    (Antenna.disabling_enabled ((Antenna.power_enable h).trans enable)) (.inr (by rw [bus]; exact nofun))
  exact ⟨b.trans bus, o.trans (Antenna.power_outOfBand h), p.trans (Antenna.power_prechargeStart h)⟩

/-- Up: the bus is UP, and each PRECHARGE axis BRAKED (R9). -/
theorem State.bringUp_spec (s : State) (a : Ant) :
    ((s.bringUp a).ants.get a).power = (BusState.up, (s.ants.get a).enable, (s.ants.get a).outOfBand, none)
    ∧ (∀ b, (s.bringUp a).stowOf b = s.stowOf b)
    ∧ ∀ ax, (s.axis ⟨a, ax⟩).state = .precharge → ((s.bringUp a).axis ⟨a, ax⟩).state = .braked
      ∧ ((s.bringUp a).axis ⟨a, ax⟩).claims = (s.axis ⟨a, ax⟩).claims := by
  set v := s.modAnt a fun v => { v with bus := .up, prechargeStart := none, inBandTimer := none }
  set rise : State → AxisId → State := fun s i => if (s.axis i).state = .precharge then s.enterAxis i .braked else s
  have run : s.bringUp a = (forEach a.axes rise v).runFieldTimers a := rfl
  have still : Still (fun _ => True) v (forEach a.axes rise v) := Still.forEach (fun s i =>
    .ite (StillBut.mono (Still.enterAxis s i .braked) (fun _ _ => trivial) fun _ _ => trivial) (.refl ..)) a.axes v
  have timed := Still.runFieldTimers (forEach a.axes rise v) a
  refine ⟨?_, fun b => ?_, fun ax waiting => ?_⟩
  · rw [run]
    refine (timed.power a).trans ((still.power a).trans ?_)
    rw [State.ants_get_modAnt, if_pos rfl]
    rfl
  · rw [run]
    exact (timed.stow b).trans (still.stow b)
  · set i : AxisId := ⟨a, ax⟩
    have axis : v.axis i = s.axis i := by rw [State.axis_modAnt, if_pos rfl]; rfl
    have others (u : State) (j : AxisId) (h : j ≠ i) : (rise u j).axis i = u.axis i := by
      show (if (u.axis j).state = .precharge then u.enterAxis j .braked else u).axis i = u.axis i
      split
      · rw [State.axis_enterAxis, if_neg h.symm]
      · rfl
    have risen : ((forEach a.axes rise v).axis i).state = .braked
        ∧ ((forEach a.axes rise v).axis i).claims = (s.axis i).claims := by
      have at_ := forEach_at (k := i) (f := rise) (π := fun u => ((u.axis i).state, (u.axis i).claims))
        (ρ := fun u => ((u.axis i).state, (u.axis i).claims))
        (g := fun p => (if p.1 = .precharge then .braked else p.1, p.2)) (fun u j h => by rw [others u j h])
        (fun u => ?_) (fun u j h => by rw [others u j h]) (ks := a.axes) (by cases a <;> decide) (by cases ax <;> simp [Ant.axes, i]) v
      · rw [axis, waiting, if_pos rfl] at at_
        exact ⟨congrArg Prod.fst at_, congrArg Prod.snd at_⟩
      · show (((if (u.axis i).state = .precharge then u.enterAxis i .braked else u).axis i).state,
          ((if (u.axis i).state = .precharge then u.enterAxis i .braked else u).axis i).claims) = _
        split
        · rw [State.axis_enterAxis, if_pos rfl]; rfl
        · rfl
    rw [run, State.axis_runFieldTimers, if_pos rfl]
    exact risen

/-- The flags and notices of an event reach no axis. -/
theorem announce_axis (s₀ s : State) (i : AxisId) : (announce s₀ s).axis i = s.axis i := rfl

theorem event_axis (s : State) (body : State → State) (i : AxisId) : (event s body).axis i = (body s).settle.axis i :=
  announce_axis ..

theorem event_faulted {body : State → State} {c : FaultCause} (h : ((body s).axis i).state = .faulted c) :
    ((event s body).axis i).state = .faulted c := by
  rw [event_axis]
  exact (Axis.core_state (State.settle_faulted (by rw [h]; rfl))).trans h

theorem State.busDue_of {b : Bool} {x : Timer} {ms : Int} {e : Epoch} (h : b = true) (k : x = some e) (l : e + ms ≤ s.now) :
    (b && passed s.now x ms) = true := by
  rw [h, passed_of ⟨e, k, l⟩]
  rfl

theorem busUp_row (on : s.powered = true) (due : s.busUpDue a = true) (enable : (s.ants.get a).enable = true) :
    ∃ t, exec (.busUp a) s = .next t ∧ (t.ants.get a).bus = .up ∧ (t.ants.get a).prechargeStart = none
      ∧ ((s.stowOf a).state ≠ .stopping → (s.stowOf a).state ≠ .waiting → ∀ ax,
          (s.axis ⟨a, ax⟩).state = .precharge → (s.axis ⟨a, ax⟩).claims.any = false →
          (t.axis ⟨a, ax⟩).state = .braked) := by
  obtain ⟨power, stow, risen⟩ := s.bringUp_spec a
  obtain ⟨bus, -, start⟩ := event_power (s := s) (body := fun s => s.bringUp a)
    (v := { s.ants.get a with bus := .up, prechargeStart := none }) power rfl enable
  refine ⟨_, occur_due on due, bus, start, fun rest wait ax state idle => ?_⟩
  obtain ⟨braked, claims⟩ := risen ax state
  rw [event_axis]
  have kept := Axis.core_state (State.settle_down (s := s.bringUp a) (i := ⟨a, ax⟩) (.inr braked) (by rw [claims]; exact idle)
    (State.quiet.of_stow (s := s) ⟨rest, wait⟩ (stow a))
    (Antenna.disabling_enabled ((Antenna.power_enable (v := _) (w := { s.ants.get a with bus := .up, prechargeStart := none })
      power).trans enable)))
  exact kept.trans braked

theorem prechargeTimeout_row (on : s.powered = true) (due : s.prechargeDue a = true) :
    ∃ t, exec (.prechargeTimeout a) s = .next t
      ∧ (∀ ax, (s.axis ⟨a, ax⟩).state = .precharge →
          (t.axis ⟨a, ax⟩).state = .faulted .precharge ∧ (t.ants.get a).bus = .off)
      ∧ ((s.stowOf a).state = .unstowed → (t.ants.get a).bus = .off) := by
  set v := s.modAnt a Antenna.busOff
  have axis (ax : AxisName) : v.axis ⟨a, ax⟩ = s.axis ⟨a, ax⟩ := by rw [State.axis_modAnt, if_pos rfl]; rfl
  obtain ⟨faulted, power, unstowed⟩ := v.faultBoth_spec a (fun v i => (v.axis i).state = .precharge)
    (fun ax h => by rw [h]; rfl)
    (fun h => by
      obtain ⟨-, -, -, inert⟩ := v.faultAxis_keeps ⟨a, .az⟩ .precharge
      have kept := Axis.core_state (inert ⟨a, .el⟩ nofun (by rw [h]; rfl))
      rw [kept, h]
      exact ⟨rfl, rfl⟩) (u := s.failPrecharge a) rfl
  have run : exec (.prechargeTimeout a) s = .next (event s fun s => s.failPrecharge a) := occur_due on due
  set u := s.failPrecharge a
  have off : (u.ants.get a).bus = .off ∧ (u.ants.get a).disabling = false := by
    have bus : (u.ants.get a).bus = .off := by
      rw [Antenna.power_bus (power a), State.ants_get_modAnt, if_pos rfl]
      rfl
    exact ⟨bus, by rw [Antenna.disabling, bus]; rfl⟩
  have stays (quiet : u.quiet a) : ((event s fun s => s.failPrecharge a).ants.get a).bus = .off :=
    ((event_calm s fun s => s.failPrecharge a).power a off.2 (.inl quiet)).1.trans off.1
  refine ⟨_, run, fun ax h => ?_, fun h => stays ?_⟩
  · obtain ⟨state, quiet⟩ := faulted ax (by rw [axis]; exact h)
    exact ⟨event_faulted state, stays quiet⟩
  · have same := unstowed h
    unfold State.quiet
    rw [same, show (v.stowOf a).state = .unstowed from h]
    exact ⟨nofun, nofun⟩

theorem busOutOfBand_row (on : s.powered = true) (due : s.outOfBandDue a = true) (up : (s.ants.get a).bus = .up)
    (enable : (s.ants.get a).enable = true) (lawful : s.axesLawful) :
    ∃ t, exec (.busOutOfBand a) s = .next t ∧ (t.ants.get a).outOfBand = true ∧ t.ready a = false
      ∧ ∀ ax, (s.axis ⟨a, ax⟩).amplifier = true → (t.axis ⟨a, ax⟩).state = .faulted .precharge := by
  set v := (s.modAnt a fun v => { v with outOfBand := true }).runFieldTimers a
  have core (i : AxisId) : (v.axis i).core = (s.axis i).core := by
    refine ((Still.runFieldTimers _ a).core i id).trans ?_
    rw [State.axis_modAnt]
    split
    · rename_i e; rw [← e]; rfl
    · rfl
  have live (ax : AxisName) (h : (v.axis ⟨a, ax⟩).amplifier = true) : (v.axis ⟨a, ax⟩).Live :=
    ((lawful ⟨a, ax⟩).live ((Axis.core_amplifier (core _)).symm.trans h)).congr (core _)
  obtain ⟨faulted, power, -⟩ := v.faultBoth_spec a (fun v i => (v.axis i).amplifier = true)
    (fun ax h => (live ax h).2) (fun h => State.faultAxis_live (i := ⟨a, .az⟩) (live .el h)) (u := s.loseBand a) rfl
  have run : exec (.busOutOfBand a) s = .next (event s fun s => s.loseBand a) := occur_due on due
  have power' : ((s.loseBand a).ants.get a).power = { s.ants.get a with outOfBand := true }.power := by
    refine (power a).trans (((Still.runFieldTimers _ a).power a).trans ?_)
    rw [State.ants_get_modAnt, if_pos rfl]
  obtain ⟨-, out, -⟩ := event_power (s := s) (body := fun s => s.loseBand a) power' up enable
  refine ⟨_, run, out, ?_, fun ax h => ?_⟩
  · rw [State.ready, Antenna.ready, out]
    simp
  · obtain ⟨state, -⟩ := faulted ax ((Axis.core_amplifier (core _)).trans h)
    exact event_faulted state

theorem busBackInBand_row (on : s.powered = true) (due : s.backInBandDue a = true) (up : (s.ants.get a).bus = .up)
    (enable : (s.ants.get a).enable = true) :
    ∃ t, exec (.busBackInBand a) s = .next t ∧ (t.ants.get a).outOfBand = false ∧ (t.ants.get a).bus = .up := by
  set body := fun s : State => (s.modAnt a fun v => { v with outOfBand := false, inBandTimer := none }).runFieldTimers a
  have power : ((body s).ants.get a).power = { s.ants.get a with outOfBand := false, inBandTimer := none }.power := by
    refine ((Still.runFieldTimers _ a).power a).trans ?_
    rw [State.ants_get_modAnt, if_pos rfl]
  obtain ⟨bus, out, -⟩ := event_power (s := s) (body := body) power up enable
  exact ⟨_, occur_due on due, out, bus⟩

/-- Settles O30: the rows of the bus, each through what it makes of the bus and its axes. -/
theorem busFollowsItsBand : Obligations.BusFollowsItsBand := by
  intro s a on
  refine ⟨fun e bus enable timer late => busUp_row on ?_ enable, fun e bus start late => prechargeTimeout_row on ?_,
    fun e bus enable out timer late lawful => busOutOfBand_row on ?_ bus enable lawful,
    fun e bus enable out timer late => busBackInBand_row on ?_ bus enable⟩
  · exact State.busDue_of (by rw [bus]; rfl) timer late
  · exact State.busDue_of (by rw [bus]; rfl) start late
  · exact State.busDue_of (by rw [bus, out]; rfl) timer late
  · exact State.busDue_of (by rw [bus, out]; rfl) timer late

end Sys2Proof.Machine
end

