-- ==== Sys2Proof/Proofs/ProfileEnds.lean ====
section
/-! PROOFS. The end of a profile and of a stop at a servo step, and the arrival of a stowing antenna (R17, R45, R131). -/

namespace Sys2Proof.Machine

variable {s t : State} {i : AxisId} {a : Ant}

theorem occur_idle {due : Bool} {body : State → State} (on : s.powered = true) (h : due = false) :
    occur s due body = .next s := by
  rw [occur, onPower, if_pos on, h]
  rfl

theorem event_position (s : State) (body : State → State) (i : AxisId) :
    ((event s body).axis i).position = ((body s).axis i).position := (event_same (p := .places) s body (by decide) i).1

/-! ### Arrival (R131) -/

theorem State.lowerWaveGrant_kept (s : State) (a : Ant) : (s.lowerWaveGrant a).stow = s.stow
    ∧ (s.lowerWaveGrant a).heat = s.heat ∧ (s.lowerWaveGrant a).field = s.field := by
  unfold State.lowerWaveGrant
  split <;> exact ⟨rfl, rfl, rfl⟩

theorem State.refreshZone_stow (s : State) (z : ZoneId) : (s.refreshZone z).stow = s.stow := by
  unfold State.refreshZone State.lowerZone State.markFreedIf
  dsimp only
  split <;> rfl

theorem State.goInserting_state (s : State) (a : Ant) : ((s.goInserting a).stowOf a).state
    = if (s.field.ants.get a).pinIn then .stowed else .pinInserting := by
  unfold State.goInserting
  dsimp only
  split
  · rw [State.goStowed, State.putDown, (Still.stopBoth _ a .stow .braked).stow, State.stowOf_modStow, if_pos rfl]
  · rw [State.stowOf_modStow, if_pos rfl]

theorem State.goWarming_state (s : State) (a : Ant) : ((s.goWarming a).stowOf a).state = .pinWarming := by
  have stow : (s.goWarming a).stow = (s.modStow a fun r => { r with state := .pinWarming, warmingTimer := some s.now }).stow :=
    State.refreshZone_stow ..
  rw [State.stowOf, stow]
  show ((s.modStow a fun r => { r with state := .pinWarming, warmingTimer := some s.now }).stowOf a).state = _
  rw [State.stowOf_modStow, if_pos rfl]

theorem State.arrive_state (s : State) (a : Ant) : ((s.arrive a).stowOf a).state
    = if (s.zone ⟨a, .pin⟩).readsAtLeast 0 then (if (s.field.ants.get a).pinIn then .stowed else .pinInserting)
      else .pinWarming := by
  obtain ⟨-, heat, field⟩ := s.lowerWaveGrant_kept a
  have zone : (s.lowerWaveGrant a).zone ⟨a, .pin⟩ = s.zone ⟨a, .pin⟩ := congrArg (fun h : Heat => (h.zones.get a).get .pin) heat
  unfold State.arrive
  dsimp only
  rw [zone]
  split
  · rw [State.goInserting_state, field]
  · exact State.goWarming_state ..

/-- The pin states outlast what follows. -/
theorem event_pin {body : State → State} {x : StowState} (h : ((body s).stowOf a).state = x) (rest : x ≠ .stopping) :
    ((event s body).stowOf a).state = x := by
  rw [(event_wanes s body).stow a (by rw [h]; exact rest), h]

/-! ### Profiles (R45) -/

theorem State.endProfile_axis (s : State) (i : AxisId) (p : Profile) : (s.endProfile i p).axis i
    = { s.axis i with position := p.target, velocity := 0 }.enter s.now .holding := by
  rw [State.endProfile, State.axis_enterAxis, if_pos rfl, State.axis_modAxis, if_pos rfl]
  rfl

theorem profileEnd_row {p : Profile} (on : s.powered = true) (servo : s.atServo = true) (ends : s.profileOver i = some p) :
    ∃ t, exec (.profileEnd i) s = .next t ∧ (t.axis i).position = p.target
      ∧ (i.ax = .az ∨ (s.stowOf i.ant).state ≠ .driving → s.waits i = false → (s.stowOf i.ant).state ≠ .stopping →
          (t.axis i).state = .holding ∧ (t.axis i).velocity = 0)
      ∧ (i.ax = .el → (s.stowOf i.ant).state = .driving → (t.stowOf i.ant).state =
          if (s.zone ⟨i.ant, .pin⟩).readsAtLeast 0 then
            (if (s.field.ants.get i.ant).pinIn then .stowed else .pinInserting)
          else .pinWarming) := by
  set u := s.endProfile i p
  have axis := s.endProfile_axis i p
  have moved : Still (· = i) s u := (Still.modAxis_self ..).trans (.enterAxis ..)
  have follow : Moves _ s u := Moves.endProfile s i p
  have run : exec (.profileEnd i) s = .next (event s fun _ => u.arriveIfDriving i) :=
    occur_runs on (by rw [servo, ends]; rfl) (by simp only [ends]; rfl)
  refine ⟨_, run, ?_, fun aside free rest => ?_, fun el drives => ?_⟩
  · rw [event_position]
    have kept := ((Moves.arriveIfDriving u i).touches.same .places (by decide) i).1
    rw [kept, axis]
    rfl
  · have same : u.arriveIfDriving i = u := if_neg fun h => by
      rcases aside with az | no
      · rw [h.1] at az; cases az
      · exact no ((congrArg StowRecord.state (moved.stow i.ant)).symm.trans h.2)
    have work : u.steady i := by
      refine State.steady_holding (by rw [axis]; rfl) ((State.waits_enterAxis ..).trans free) ?_
      rw [moved.stow]
      exact rest
    have core := event_core (s := s) work
    rw [same]
    rw [axis] at core
    exact ⟨Axis.core_state core, congrArg (fun c => c.2.2.1) core⟩
  · have run' : u.arriveIfDriving i = u.arrive i.ant :=
      if_pos ⟨el, (congrArg StowRecord.state (moved.stow i.ant)).trans drives⟩
    have zone := congrArg (fun z => Zone.readsAtLeast z 0) (show u.zone ⟨i.ant, .pin⟩ = s.zone ⟨i.ant, .pin⟩ from
      congrArg (fun h : Six (Trio Zone) => (h.get i.ant).get .pin) (follow.touches.same .zones (by decide)))
    have field : (u.field.ants.get i.ant).pinIn = (s.field.ants.get i.ant).pinIn :=
      congrArg (fun f : FieldInputs => (f.ants.get i.ant).pinIn) (follow.touches.same .field (by decide))
    have state := u.arrive_state i.ant
    rw [zone, field] at state
    rw [run']
    refine event_pin state ?_
    split
    · split <;> exact nofun
    · exact nofun

/-! ### Stops (R17) -/

theorem stopOver_stopping {r : StopRecord} (h : s.stopOver i = some r) : (s.axis i).state = .stopping := by
  unfold State.stopOver at h
  split at h
  · assumption
  · cases h

theorem State.finishStop_axis (s : State) (i : AxisId) (r : StopRecord) :
    ((s.finishStop i r).axis i).position = (r.eval (s.axis i).record s.now).1 ∧ ((s.finishStop i r).axis i).velocity = 0
    ∧ (r.target = .holding → ((s.finishStop i r).axis i).state = .holding)
    ∧ (r.target ≠ .holding → ((s.finishStop i r).axis i).state = .braking
        ∧ ((s.finishStop i r).axis i).pendingStop = some ⟨some r.reason, r.target⟩)
    ∧ (s.finishStop i r).waits i = s.waits i := by
  set v := s.modAxis i fun x => { x with position := (r.eval x.record s.now).1, velocity := 0 }
  have axis : v.axis i = { s.axis i with position := (r.eval (s.axis i).record s.now).1, velocity := 0 } := by
    rw [State.axis_modAxis, if_pos rfl]
  have down (h : r.target ≠ .holding) : s.finishStop i r = v.goBraking i ⟨some r.reason, r.target⟩ := by
    show v.endStop i r.reason r.target = _
    cases e : r.target with
    | holding => exact absurd e h
    | braked | off => rfl
  by_cases h : r.target = .holding
  · have rest : s.finishStop i r = v.enterAxis i .holding := by
      show v.endStop i r.reason r.target = _
      rw [h]
      rfl
    have at_ : (v.enterAxis i .holding).axis i = (v.axis i).enter v.now .holding := by rw [State.axis_enterAxis, if_pos rfl]
    rw [rest, at_, axis]
    exact ⟨rfl, rfl, fun _ => rfl, fun k => absurd h k, State.waits_enterAxis ..⟩
  · rw [down h, State.goBraking_axis, axis]
    exact ⟨rfl, rfl, fun k => absurd k h, fun _ => ⟨rfl, rfl⟩, State.goBraking_waits ..⟩

theorem stopEnd_row {r : StopRecord} (on : s.powered = true) (servo : s.atServo = true) (ends : s.stopOver i = some r) :
    ∃ t, exec (.stopEnd i) s = .next t ∧ (t.axis i).position = (r.eval (s.axis i).record s.now).1
      ∧ (s.waits i = false → (s.stowOf i.ant).state ≠ .stopping → (t.axis i).velocity = 0
          ∧ (r.target = .holding → (t.axis i).state = .holding)
          ∧ (r.target ≠ .holding → (t.axis i).state = .braking
              ∧ (t.axis i).pendingStop = some ⟨some r.reason, r.target⟩)) := by
  set u := s.finishStop i r
  obtain ⟨position, velocity, hold, down, wait⟩ := s.finishStop_axis i r
  have run : exec (.stopEnd i) s = .next (event s fun _ => u) :=
    occur_runs on (by rw [servo, ends]; rfl) (by simp only [ends]; rfl)
  refine ⟨_, run, (event_position ..).trans position, fun free rest => ?_⟩
  have stow : u.stowOf i.ant = s.stowOf i.ant := ((Still.modAxis_self s i _).trans (Still.endStop _ i r.reason r.target)).stow _
  have work : u.steady i := by
    refine State.steady_yields (wait.trans free) ?_ (by rw [stow]; exact rest)
    by_cases h : r.target = .holding
    · rw [hold h]; trivial
    · rw [(down h).1]; trivial
  have core := event_core (s := s) work
  refine ⟨(congrArg (fun c => c.2.2.1) core).trans velocity, fun h => (Axis.core_state core).trans (hold h), fun h => ?_⟩
  exact ⟨(Axis.core_state core).trans (down h).1, (Axis.core_pendingStop core).trans (down h).2⟩

/-- Settles O29: each row by what it makes of its axis, the arrival by what it makes of the stow record. -/
theorem profilesAndStopsEnd : Obligations.ProfilesAndStopsEnd := by
  intro s i on
  refine ⟨fun off => ⟨occur_idle on ?_, occur_idle on ?_⟩, fun servo p ends => profileEnd_row on servo ends,
    fun r servo ends => stopEnd_row on servo ends⟩
  · rw [off]; rfl
  · rw [off]; rfl

end Sys2Proof.Machine
end

