-- ==== Sys2Proof/Proofs/Removals.lean ====
section
/-! PROOFS. HOLD_REMOVE, LOCK_REMOVE and FORCE_REMOVE (R98, R99). -/

namespace Sys2Proof.Machine

variable {s t u : State} {a : Ant} {n : Nat} {e : LockEntry}

/-- What follows an answer wanes. -/
theorem Answer.finish_wanes (r : Answer) (s : State) (l : Link) (k : Kind) (tag : Byte) :
    Wanes r.state (r.finish true s l k tag) := by
  have answered : Wanes r.state (r.state.answer l k.code tag r.status r.body) := {}
  exact (answered.trans (.settle _)).trans (.announce ..)

/-! ### The Stow Controller hears of a removal (R98, R125) -/

/-- Only the antenna's own stow record changes, and the mark of a formation. -/
theorem State.coverRemoved_shape (s : State) (a : Ant) : ∃ w : Stow, ∃ v : Scratch,
    s.coverRemoved a = { s with stow := w, scratch := v } ∧ ∀ b, b ≠ a → w.records.get b = s.stow.records.get b := by
  have set (x : StowState) (b : Ant) (h : b ≠ a) : (s.setStow a x).stowOf b = s.stowOf b := by
    rw [State.setStow, State.stowOf_modStow, if_neg h]
  unfold State.coverRemoved State.unblock
  split
  · split
    · split
      · exact ⟨_, _, rfl, set .driveFailed⟩
      · exact ⟨_, _, rfl, set .waiting⟩
    · exact ⟨_, _, rfl, fun _ _ => rfl⟩
  · exact ⟨_, _, rfl, fun _ _ => rfl⟩

/-- What the Stow Controller reads of an antenna at a removal. -/
def State.blockReads (s : State) (a : Ant) : StowState × Bool × Bool × Bool :=
  ((s.stowOf a).state, s.wind.active, s.covered a, s.anyFaulted a)

/-- What a removal makes of the stow state. -/
def unblocked (p : StowState × Bool × Bool × Bool) : StowState :=
  if p.2.1 = true ∧ p.1 = .blocked ∧ p.2.2.1 = false then (if p.2.2.2 then .driveFailed else .waiting) else p.1

theorem State.coverRemoved_state (s : State) (a : Ant) : ((s.coverRemoved a).stowOf a).state = unblocked (s.blockReads a) := by
  have set (x : StowState) : ((s.setStow a x).stowOf a).state = x := by
    rw [State.setStow, State.stowOf_modStow, if_pos rfl]
  unfold State.coverRemoved State.unblock unblocked State.blockReads
  dsimp only
  by_cases active : s.wind.active = true
  · rw [if_pos active]
    by_cases free : (s.stowOf a).state = .blocked ∧ s.covered a = false
    · rw [if_pos free, if_pos (show s.wind.active = true ∧ (s.stowOf a).state = .blocked ∧ s.covered a = false from
        ⟨active, free⟩)]
      split
      · exact set _
      · exact set _
    · rw [if_neg free, if_neg fun h => free h.2]
  · rw [if_neg active, if_neg fun h => active h.1]

theorem State.coverRemoved_other {b : Ant} (h : b ≠ a) : (s.coverRemoved a).blockReads b = s.blockReads b := by
  obtain ⟨w, v, shape, same⟩ := s.coverRemoved_shape a
  rw [shape]
  unfold State.blockReads
  exact congrArg (fun r : StowRecord => (r.state, s.wind.active, s.covered b, s.anyFaulted b)) (same b h)

theorem scopeAnts_reaches (e : LockEntry) (a : Ant) : a ∈ scopeAnts e.scope ↔ e.reaches a = true := by
  unfold scopeAnts LockEntry.reaches
  cases e.scope with
  | none => cases a <;> decide
  | some b => simp [eq_comm]

theorem scopeAnts_nodup (x : Option Ant) : (scopeAnts x).Nodup := by
  cases x with
  | none => decide
  | some b => exact List.nodup_singleton b

/-! ### The table and the store (R98, R99) -/

/-- The state of a removal before the Stow Controller hears of it. -/
def State.emptySlot (s : State) (n : Nat) : State :=
  State.queueWrite { s with locks := { s.locks.setSlot n none with
    order := (s.locks.setSlot n none).order.filter fun m => decide (m ≠ n) } } (.lockout n)

theorem State.removeEntry_eq (s : State) (n : Nat) (e : LockEntry) :
    s.removeEntry n e = forEach (scopeAnts e.scope) (fun s a => s.coverRemoved a) (s.emptySlot n) := rfl

/-- The write of a slot is owed once it is queued. -/
theorem Store.owes_lockout (st : Store) (n : Nat) (now : Epoch) (good : Bool) :
    (st.queueWrite (.lockout n) now good).owes (.lockout n) := by
  refine Store.owes_iff.mpr ⟨Store.waits_queueWrite_self (.inr ⟨n, rfl⟩) now good, ?_⟩
  rw [Store.mark_queueWrite]
  split
  · rfl
  · rename_i absent
    have short : ¬n < st.lockouts.length := fun h => absent ⟨rfl, decide_eq_true h⟩
    rw [Store.mark, List.getElem?_eq_none (not_lt.mp short)]
    rfl

/-- The Stow Controller hears of a removal in its own records alone. -/
theorem coverRemoved_each (as : List Ant) (s : State) : ∃ w : Stow, ∃ v : Scratch,
    forEach as (fun s a => s.coverRemoved a) s = { s with stow := w, scratch := v } := by
  induction as generalizing s with
  | nil => exact ⟨_, _, rfl⟩
  | cons a as ih =>
    obtain ⟨w, v, one, -⟩ := s.coverRemoved_shape a
    obtain ⟨w', v', rest⟩ := ih (s.coverRemoved a)
    refine ⟨w', v', rest.trans ?_⟩
    rw [one]

/-- A removal leaves its slot empty, its write owed, and unblocks what the entry alone blocked. -/
theorem State.removeEntry_spec (s : State) (n : Nat) (e : LockEntry) :
    (∃ w v, s.removeEntry n e = { s.emptySlot n with stow := w, scratch := v })
    ∧ ∀ a, e.reaches a = true → ((s.removeEntry n e).stowOf a).state = unblocked ((s.emptySlot n).blockReads a) := by
  refine ⟨coverRemoved_each _ _, fun a reaches => ?_⟩
  rw [State.removeEntry_eq]
  refine forEach_at (k := a) (f := fun s a => s.coverRemoved a) (π := fun s => (s.stowOf a).state) (ρ := fun s => s.blockReads a)
    (g := unblocked) (fun u b h => State.coverRemoved_other h.symm) (fun u => u.coverRemoved_state a) (fun u b h => ?_)
    (scopeAnts_nodup _) ((scopeAnts_reaches e a).mpr reaches) _
  exact congrArg Prod.fst (State.coverRemoved_other (s := u) h.symm)

/-! ### The requests -/

/-- The pad horns of a forced removal (R99). -/
theorem State.warnRemoved_spec (s : State) (e : LockEntry) :
    (∃ h, s.warnRemoved e.scope = { s with locks := { s.locks with horns := h } })
    ∧ ∀ a, e.reaches a = true → ((s.warnRemoved e.scope).locks.horns.get a).forceTimer = some s.now := by
  have one (u : State) (b : Ant) : ∃ h, u.startForceTimer b = { u with locks := { u.locks with horns := h } } := ⟨_, rfl⟩
  have each (as : List Ant) (u : State) : ∃ h,
      forEach as (fun s a => s.startForceTimer a) u = { u with locks := { u.locks with horns := h } } := by
    induction as generalizing u with
    | nil => exact ⟨_, rfl⟩
    | cons a as ih =>
      obtain ⟨h, rest⟩ := ih (u.startForceTimer a)
      exact ⟨h, rest⟩
  refine ⟨each _ _, fun a reaches => ?_⟩
  have own (u : State) (b : Ant) : ((u.startForceTimer b).locks.horns.get a).forceTimer
      = if a = b then some u.now else (u.locks.horns.get a).forceTimer := by
    unfold State.startForceTimer State.refreshHorn State.modHorn
    dsimp only
    rw [Six.get_set, Six.get_set]
    split
    · rw [if_pos rfl]
      exact Horn.play_forceTimer ..
    · rename_i h
      rw [Six.get_set, if_neg h]
  refine forEach_at (k := a) (f := fun s a => s.startForceTimer a) (π := fun s => (s.locks.horns.get a).forceTimer)
    (ρ := fun s => s.now) (g := some) (fun u b h => rfl) (fun u => (own u a).trans (if_pos rfl))
    (fun u b h => (own u b).trans (if_neg h.symm)) (scopeAnts_nodup _) ((scopeAnts_reaches e a).mpr reaches) s

/-- What a removal leaves once its answer is out and what follows is settled, from the taken state `u`. -/
theorem removal_finished {s u : State} {v : State} (l : Link) (k : Kind) (tag : Byte) (b : ReplyBody) (entry : u.locks.slot n = some e)
    (shape : ∃ h, v = { u.removeEntry n e with locks := { (u.removeEntry n e).locks with horns := h } }) :
    let t := (okWith b v).finish true s l k tag
    t.locks.slot n = none ∧ t.locks.order = u.locks.order.filter (fun m => decide (m ≠ n))
    ∧ (∀ m, m ≠ n → t.locks.slot m = u.locks.slot m) ∧ t.store.owes (.lockout n)
    ∧ ∀ a, e.reaches a = true → t.wind.active = true → (u.stowOf a).state = .blocked → t.covered a = false →
        (t.stowOf a).state = if u.anyFaulted a then .driveFailed else .waiting := by
  intro t
  obtain ⟨h, rfl⟩ := shape
  obtain ⟨⟨w, x, emptied⟩, stow⟩ := u.removeEntry_spec n e
  have same {p : Part} (away : p ∉ .links :: followParts) := Answer.finish_same (p := p)
    (okWith b { u.removeEntry n e with locks := { (u.removeEntry n e).locks with horns := h } }) s l k tag away
  obtain ⟨slots, order⟩ : t.locks.slots = (u.removeEntry n e).locks.slots ∧ t.locks.order = (u.removeEntry n e).locks.order :=
    same (p := .lockTable) (by decide)
  have store : t.store = (u.removeEntry n e).store := same (p := .store) (by decide)
  have wind : t.wind = (u.removeEntry n e).wind := same (p := .wind) (by decide)
  have slots' : t.locks.slots = (u.locks.setSlot n none).slots := by rw [slots, emptied]; rfl
  have slot (m : Nat) : t.locks.slot m = (u.locks.setSlot n none).slot m := by
    rw [Locks.slot, slots']
    rfl
  have inside : n < u.locks.slots.length := by
    by_contra out
    rw [Locks.slot, List.getElem?_eq_none (not_lt.mp out)] at entry
    cases entry
  refine ⟨?_, ?_, fun m other => ?_, ?_, fun a reaches active blocked free => ?_⟩
  · rw [slot, Locks.slot_setSlot, if_pos ⟨rfl, inside⟩]
  · rw [order, emptied]
    rfl
  · rw [slot, Locks.slot_setSlot, if_neg fun k => other k.1]
  · rw [store, emptied]
    exact Store.owes_lockout ..
  · have wanes := (okWith b { u.removeEntry n e with locks := { (u.removeEntry n e).locks with horns := h } }).finish_wanes
      s l k tag
    have made : ((u.removeEntry n e).stowOf a).state = if u.anyFaulted a then .driveFailed else .waiting := by
      rw [stow a reaches, unblocked]
      refine (if_pos ⟨?_, blocked, ?_⟩).trans rfl
      · rw [wind, emptied] at active
        exact active
      · unfold State.covered State.axisCovered Locks.entries at free
        rw [slots'] at free
        exact free
    refine (wanes.stow a ?_).trans made
    refine fun k => ?_
    have k' : ((u.removeEntry n e).stowOf a).state = .stopping := k
    rw [made] at k'
    split at k' <;> cases k'

/-- Settles O45: each removal by what its request makes of the table, the store, the stow and the horns. -/
theorem removalsFreeTheSlot : Obligations.RemovalsFreeTheSlot := by
  intro s tag n c kind ok
  have view (l : Link) (e : LockEntry) :
      (s.takeFrame l).entryView n e = ⟨n, e, s.entryEffective e, s.store.mark (.lockout n)⟩ := rfl
  have plain {l : Link} {k : Kind} {tag' : Byte} {e : LockEntry} (of : requestOf c = some (l, k, tag'))
      (entry : s.locks.slot n = some e) (silent : ¬∃ target, c = .forceRemove tag n target)
      (run : exec c s = .next ((okWith (.removed ((s.takeFrame l).entryView n e)) ((s.takeFrame l).removeEntry n e)).finish
        true s l k tag')) :
      ∃ t e, exec c s = .next t ∧ s.locks.slot n = some e ∧ t.locks.slot n = none
        ∧ t.answers c .ok (.removed ⟨n, e, s.entryEffective e, s.store.mark (.lockout n)⟩) = true
        ∧ t.locks.order = s.locks.order.filter (fun m => decide (m ≠ n))
        ∧ (∀ m, m ≠ n → t.locks.slot m = s.locks.slot m) ∧ t.store.owes (.lockout n)
        ∧ ∀ a, e.reaches a = true →
          ((∃ target, c = .forceRemove tag n target) → (t.locks.horns.get a).forceTimer = some s.now)
          ∧ (t.wind.active = true → (s.stowOf a).state = .blocked → t.covered a = false →
              (t.stowOf a).state = if s.anyFaulted a then .driveFailed else .waiting) := by
    obtain ⟨empty, order, others, owes, stow⟩ := removal_finished (s := s) (u := s.takeFrame l)
      (v := (s.takeFrame l).removeEntry n e) l k tag' (.removed ((s.takeFrame l).entryView n e)) entry ⟨((s.takeFrame l).removeEntry n e).locks.horns, rfl⟩
    exact ⟨_, e, run, entry, empty, (by rw [← view l e]; exact Answer.finish_answers of), order, others, owes,
      fun a reaches => ⟨fun h => absurd h silent, stow a reaches⟩⟩
  rcases kind with ⟨a, rfl⟩ | ⟨k, rfl⟩ | ⟨target, rfl⟩
  · obtain ⟨l, k, tag', r, of, on, run, e, -, entry, -, rfl⟩ := (holdRemove_served n).admitted ok
    exact plain of entry nofun run
  · obtain ⟨l, k', tag', r, of, on, run, e, -, entry, -, rfl⟩ := (lockRemove_served k n).admitted ok
    exact plain of entry nofun run
  · obtain ⟨l, k, tag', r, of, on, run, e, -, entry, rfl⟩ := (forceRemove_served n target).admitted ok
    obtain ⟨⟨h, shape⟩, timer⟩ := ((s.takeFrame l).removeEntry n e).warnRemoved_spec e
    obtain ⟨empty, order, others, owes, stow⟩ := removal_finished (s := s) (u := s.takeFrame l) l k tag'
      (.removed ((s.takeFrame l).entryView n e)) entry ⟨h, shape⟩
    refine ⟨_, e, run, entry, empty, (by rw [← view l e]; exact Answer.finish_answers of), order, others, owes,
      fun a reaches => ⟨fun _ => ?_, stow a reaches⟩⟩
    have kept := Answer.finish_same (p := .hornTimers) (okWith (.removed ((s.takeFrame l).entryView n e))
      (((s.takeFrame l).removeEntry n e).warnRemoved e.scope)) s l k tag' (by decide) a
    refine kept.trans ((timer a reaches).trans ?_)
    obtain ⟨⟨w, x, emptied⟩, -⟩ := (s.takeFrame l).removeEntry_spec n e
    rw [emptied]
    rfl

end Sys2Proof.Machine
end

