-- ==== Sys2Proof/Proofs/StatusReadRows.lean ====
section
/-! PROOFS. STATUS_READ: what each selector shows, and where it is refused (R138, R191, R208). -/

namespace Sys2Proof.Machine

variable {s : State} {l : Link} {tag : Byte} {part : Nat} {fits : List Byte → Bool}

/-- A STATUS_READ that its link takes is answered by its owner. -/
theorem read_takes (takes : s.takes l .statusRead tag fits) (owner : State → Answer) :
    serve l .statusRead tag s owner fits = .next ((owner (s.takeFrame l)).finish false s l .statusRead tag) := by
  have decided : dispatch l .statusRead owner = owner := funext fun u => if_pos (by cases l <;> rfl)
  rw [serve, onPower, if_pos takes.1, if_pos takes.2, decided]
  rfl

/-- A content is answered with its part, or with the part count where there is no such part (R208). -/
theorem show_shown (s : State) (l : Link) (tag : Byte) (sel : Selector) (part : Nat) (v : Content) :
    s.shows (((s.takeFrame l).show l sel part v).finish false s l .statusRead tag) l tag part v := by
  refine ⟨Config.statusRestBytes (selectorPlace sel) (s.takeFrame l).freeCount, ?_⟩
  have data : (s.takeFrame l).contentBytes l sel v = ((s.takeFrame l).link l).figures.bytes ++ v.bytes
    ++ Config.statusRestBytes (selectorPlace sel) (s.takeFrame l).freeCount := rfl
  have replied := ((s.takeFrame l).show l sel part v).finish_replied false s l .statusRead tag
  dsimp only
  rw [← data]
  split
  next fits =>
    have answer : (s.takeFrame l).show l sel part v = okWith (.status part (partCount ((s.takeFrame l).contentBytes l sel v).length)
        (partOf ((s.takeFrame l).contentBytes l sel v) part) ((s.takeFrame l).link l).figures v) (s.takeFrame l).useFree :=
      if_neg (not_le.mpr fits)
    rw [answer] at replied ⊢
    exact replied
  next past =>
    have answer : (s.takeFrame l).show l sel part v = refuseWith (s.takeFrame l).useFree .range
        (.partCount part (partCount ((s.takeFrame l).contentBytes l sel v).length)) := if_pos (not_lt.mp past)
    rw [answer] at replied ⊢
    exact replied

/-- A selector open to the link shows its content. -/
theorem statusRead_shown {sel : Selector} (takes : s.takes l .statusRead tag (statusReadFits sel none part))
    (open_ : selectorOpenTo sel l = true) (content : State → Content) :
    ∃ t, statusRead l tag sel part s content = .next t ∧ s.shows t l tag part (content (s.takeFrame l)) := by
  refine ⟨_, read_takes takes _, ?_⟩
  rw [if_pos open_]
  exact show_shown ..

/-- A selector that is not open to the link is BAD_KIND (R189). -/
theorem statusRead_shut {sel : Selector} (takes : s.takes l .statusRead tag (statusReadFits sel none part))
    (shut : selectorOpenTo sel l = false) (content : State → Content) :
    ∃ t, statusRead l tag sel part s content = .next t ∧ t.replied l .statusRead tag .badKind .empty := by
  refine ⟨_, read_takes takes _, ?_⟩
  rw [shut]
  exact Answer.finish_replied ..

/-- The antenna a read is of: the pendant's own, or the one its body names (R191). -/
def ReadsAnt (l : Link) (n : Nat) (a : Ant) : Prop :=
  match l with
  | .pendant p => a = p
  | _ => n = a.num

/-- A read of one antenna shows the one it names, or the pendant's own (R191). -/
theorem statusReadOf_shown {sel : Selector} {n : Nat} {a : Ant} (own : ReadsAnt l n a)
    (takes : s.takes l .statusRead tag (statusReadFits sel (readAnt l n) part)) (open_ : selectorOpenTo sel l = true)
    (content : State → Ant → Content) :
    ∃ t, statusReadOf l tag sel n part s content = .next t ∧ s.shows t l tag part (content (s.takeFrame l) a) := by
  refine ⟨_, read_takes takes _, ?_⟩
  rw [if_pos open_]
  cases l with
  | pendant p =>
    obtain rfl : a = p := own
    exact show_shown ..
  | operations | safety =>
    obtain rfl : n = a.num := own
    dsimp only
    rw [withAnt, Ant.ofNat?_num]
    exact show_shown ..

/-- A read of no antenna of 0..5 is refused RANGE. -/
theorem statusReadOf_range {sel : Selector} {n : Nat} (takes : s.takes l .statusRead tag (statusReadFits sel (some n) part))
    (wide : ∀ p, l ≠ .pendant p) (high : 5 < n) (open_ : selectorOpenTo sel l = true) (content : State → Ant → Content) :
    ∃ t, statusReadOf l tag sel n part s content = .next t ∧ t.replied l .statusRead tag .range .empty := by
  have out : Ant.ofNat? n = none := by
    unfold Ant.ofNat?
    split
    case h_7 => rfl
    all_goals omega
  have named : readAnt l n = some n := by
    cases l with
    | pendant p => exact absurd rfl (wide p)
    | operations | safety => rfl
  refine ⟨_, read_takes (fits := statusReadFits sel (readAnt l n) part) (by rw [named]; exact takes) _, ?_⟩
  rw [if_pos open_]
  cases l with
  | pendant p => exact absurd rfl (wide p)
  | operations | safety =>
    dsimp only
    rw [withAnt, out]
    exact Answer.finish_replied ..

/-- Settles O14: each selector by what it shows and the links it is open to. -/
theorem statusReadsShowTheState : Obligations.StatusReadsShowTheState := by
  intro s l tag part u asked shown refused
  have wide {sel : Selector} (h : ∀ p, l ≠ .pendant p) : selectorOpenTo sel l = true := by
    cases l with
    | pendant p => exact absurd rfl (h p)
    | operations | safety => cases sel <;> rfl
  have every {sel : Selector} (h : ∀ p, selectorOpenTo sel (.pendant p) = true) : selectorOpenTo sel l = true := by
    cases l with
    | pendant p => exact h p
    | operations | safety => cases sel <;> rfl
  have row {sel : Selector} {content : State → Content} (h : ∀ p, selectorOpenTo sel (.pendant p) = false)
      (takes : asked sel none) :
      ((∀ p, l ≠ .pendant p) → ∃ t, statusRead l tag sel part s content = .next t ∧ s.shows t l tag part (content u))
      ∧ ((∃ p, l = .pendant p) → ∃ t, statusRead l tag sel part s content = .next t
          ∧ t.replied l .statusRead tag .badKind .empty) :=
    ⟨fun k => statusRead_shown takes (wide k) content, fun ⟨p, k⟩ => statusRead_shut takes (k ▸ h p) content⟩
  refine ⟨fun n a own => ⟨fun takes => statusReadOf_shown own takes (every fun _ => rfl) _,
      fun takes => statusReadOf_shown own takes (every fun _ => rfl) _⟩,
    fun n high link => ⟨fun takes => statusReadOf_range takes link high (wide link) _,
      fun takes => statusReadOf_range takes link high (wide link) _⟩,
    fun takes => statusRead_shown takes (every fun _ => rfl) _, fun takes => statusRead_shown takes (every fun _ => rfl) _,
    fun takes => statusRead_shown takes (every fun _ => rfl) _, fun x mem takes => ?_⟩
  simp only [List.mem_cons, List.not_mem_nil, or_false] at mem
  rcases mem with rfl | rfl | rfl | rfl
  · exact row (content := fun s => .group s.groupsView) (fun _ => rfl) takes
  · exact row (content := fun s => .budget s.budgetView) (fun _ => rfl) takes
  · exact row (content := fun s => .store s.storeView) (fun _ => rfl) takes
  · exact row (content := fun s => .permit s.permitView) (fun _ => rfl) takes

end Sys2Proof.Machine
end

