-- ==== Sys2Proof/Proofs/ReleasingGroup.lean ====
section
/-! PROOFS. GROUP_ARM of a group whose member antenna also stands in a releasing group, which R72 shuts out of every
reachable state but the statement does not (O60): the release of the other group takes the claim GROUP off its axes in
the same event (R85), and a BRAKED axis with a claim left asks its own hold figure (R13). -/

namespace Sys2Proof.Machine

/-- Antenna 0 as a group member that stays where it stands. -/
def restingMember : Member :=
  let p : AxisPlan := AxisPlan.course 0 0 1 1 0
  ⟨.n0, ⟨none, none⟩, ⟨p, p⟩⟩

/-- Antenna 0 in a PLANNED group and in one that is releasing, with READY true and its AZ kept up by Operations. -/
def State.twiceBound : State :=
  let s := State.reset.modAnt .n0 fun v =>
    { v with bus := .up, enable := true, axes := v.axes.map fun _ x =>
        { x with state := .braked, claims := ⟨true, false, false, false, false⟩ } }
  { s with
    clock := { s.clock with synced := true }
    groups := (s.groups.set .g0 { Group.initial with state := .planned, members := [restingMember] }).set .g1
      { Group.initial with state := .halted, held := true, members := [restingMember] } }

/-- Whether the ARM of group 0 leaves the AZ of antenna 0 a standing grant. -/
def standsAfterArm (s : State) : Bool :=
  match exec (.groupArm 1 0 1000) s with
  | .next t => decide (t.standing ⟨.n0, .az⟩ ≠ ⟨0, 0⟩)
  | _ => false

/-- Refutes O60: after the ARM of a group whose member antenna a releasing group names too, the member's AZ holds a
standing grant of its own beside the group's. -/
theorem not_grantsAreQueuedHeldAndConverted : ¬ Obligations.GrantsAreQueuedHeldAndConverted := by
  intro h
  obtain ⟨_, _, _, arm, _⟩ := h
  obtain ⟨t, ran, _, members⟩ := arm State.twiceBound 1 .g0 1000 (by decide +kernel)
  have folded := (members ⟨.n0, .az⟩ (by decide) rfl).1
  have stands : standsAfterArm State.twiceBound = true := by decide +kernel
  rw [standsAfterArm, show exec (.groupArm 1 0 1000) State.twiceBound = .next t from ran] at stands
  exact of_decide_eq_true stands folded

end Sys2Proof.Machine
end

