-- ==== Sys2Proof/Proofs/RestingTooLate.lean ====
section
/-! PROOFS. Four STOPPING antennas whose hold needs wait in the grant queue for axes that still move, which no run of the
model reaches but the statements do not rule out (O5, O44, O50). A grant takes a moving axis to TORQUE_UP, so its antenna
is at rest in the middle of the event; each antenna that rests is BLOCKED, which frees the room of the next one's grant
(R125, R165). What follows an event has four rounds, and the fourth antenna rests in the last: it is left STOPPING. -/

namespace Sys2Proof.Machine

/-- The antennas that come to rest one after the other. -/
def lateAnts : List Ant := [.n0, .n1, .n2, .n3]

/-- An antenna whose EL slews and whose AZ holds. -/
def lateAntenna (v : Antenna) : Antenna :=
  let claimed (x : Axis) (st : AxisState) : Axis :=
    { x with state := st, claims := ⟨true, false, false, false, false⟩ }
  { v with bus := .up, enable := true, axes := ⟨claimed v.axes.az .holding, claimed v.axes.el .slewing⟩ }

/-- An antenna of the chain: STOPPING, its AZ on a grant of 100 W above its hold figure. -/
def State.lateAnt (s : State) (a : Ant) : State :=
  ((s.modAnt a lateAntenna).setStow a .stopping).setStanding ⟨a, .az⟩ ⟨100, 0⟩

/-- The four antennas under a STATION entry, a need of 100 W for each EL in the grant queue, and no room. -/
def State.cascade : State :=
  let s := forEach lateAnts State.lateAnt State.reset
  let cover : LockEntry := ⟨none, ⟨true, true, false⟩, .safety, .safety, none, none, 0, 0⟩
  { s with
    locks := { s.locks with slots := modAt s.locks.slots 0 fun _ => some cover, order := [0] }
    feed := { s.feed with
      limit := s.load
      queue := lateAnts.map fun a => ⟨⟨a, .el⟩, .hold, 100, 0⟩ } }

/-- Operations locks AZ of the fourth antenna, which frees the first 100 W. -/
def cascadeHold : Instr := .holdPlace 1 3 ⟨true, false, false⟩ none

/-- What it asks for. -/
def cascadePlacement : Placement := ⟨some .n3, ⟨true, false, false⟩, .operations, .operations, none, none⟩

/-- Whether a command leaves the fourth antenna STOPPING and at rest, under a lockout and with no FAULTED axis. -/
def restsTooLate (c : Instr) (s : State) : Bool :=
  match exec c s with
  | .next t => decide ((t.stowOf .n3).state = .stopping) && !t.moving .n3
      && [AxisName.az, .el].all fun ax => !(t.axis ⟨.n3, ax⟩).state.isFaulted
  | _ => false

theorem cascade_restsTooLate : restsTooLate cascadeHold State.cascade = true := by decide +kernel

/-- What a run that rests too late shows of the antenna. -/
theorem restsTooLate_spec {c : Instr} {s t : State} (late : restsTooLate c s = true) (ran : exec c s = .next t) :
    (t.stowOf .n3).state = .stopping ∧ t.moving .n3 = false ∧ ∀ ax, (t.axis ⟨.n3, ax⟩).state.isFaulted = false := by
  rw [restsTooLate, ran] at late
  simp only [Bool.and_eq_true, decide_eq_true_eq, Bool.not_eq_true', List.all_cons, List.all_nil] at late
  obtain ⟨⟨stopping, still⟩, az, el, _⟩ := late
  exact ⟨stopping, still, fun ax => by cases ax <;> assumption⟩

/-- Authority, groups, queues and stow are apart, and every STOPPING antenna moves. -/
theorem cascade_guarded : ({ State.cascade with pending := [cascadeHold] } : State).Guarded where
  taken active := absurd active (by decide +kernel)
  localFree a := by cases a <;> decide +kernel
  jogLocal a := by cases a <;> decide +kernel
  boundFree a := by cases a <;> decide +kernel
  boundOnce g _ _ binds := absurd binds (by cases g <;> decide +kernel)
  queueFree a := by cases a <;> decide +kernel
  members w hw := nomatch hw
  stopping a := by cases a <;> decide +kernel

/-- Refutes O5: the fourth antenna stays STOPPING at rest. -/
theorem not_everyStepKeepsGuarded : ¬ Obligations.EveryStepKeepsGuarded := by
  intro h
  have late : restsTooLate cascadeHold { State.cascade with pending := [] } = true := by decide +kernel
  cases ran : exec cascadeHold { State.cascade with pending := [] } with
  | next t =>
    obtain ⟨stopping, still, _⟩ := restsTooLate_spec late ran
    have moves := (h _ t cascade_guarded ran).stopping .n3 stopping
    exact absurd (still.symm.trans moves) (by decide)
  | fault => rw [restsTooLate, ran] at late; cases late
  | refused => rw [restsTooLate, ran] at late; cases late

/-- Refutes O44: the placement covers AZ of the fourth antenna, which is at rest and not BLOCKED. -/
theorem not_placementsLockAtOnce : ¬ Obligations.PlacementsLockAtOnce := by
  intro h
  obtain ⟨t, n, e, merged, _, ran, _, _, _, ⟨scope, _⟩, ifMerged, ifNew, _, _, covers, _⟩ :=
    h State.cascade 1 cascadeHold cascadePlacement (.inl ⟨_, _, _, rfl, rfl⟩) (by decide +kernel)
  have unmerged : merged = false := by
    cases merged with
    | false => rfl
    | true =>
      have new : State.cascade.locks.findKey cascadePlacement = none := by decide +kernel
      exact nomatch new.symm.trans (ifMerged rfl).1
  have cover : e.cover = cascadePlacement.cover := (ifNew unmerged).2.2.2.1
  have fresh : e.coversAxis ⟨.n3, .az⟩ = true := by
    rw [LockEntry.coversAxis, LockEntry.reaches, scope, cover]; rfl
  obtain ⟨_, _, _, _, _, stow, _⟩ := covers ⟨.n3, .az⟩ fresh fun _ is => absurd (unmerged.symm.trans is) (by decide)
  obtain ⟨stopping, still, _⟩ := restsTooLate_spec cascade_restsTooLate ran
  have blocked := congrArg StowRecord.state stow.record
  have was : (State.cascade.stowOf .n3).state = .stopping := by decide +kernel
  rw [stopping, was, still] at blocked
  exact absurd blocked (by decide)

/-- Refutes O50: the fourth antenna comes to rest in the event and stays STOPPING. -/
theorem not_demandTakesEveryAntenna : ¬ Obligations.DemandTakesEveryAntenna := by
  intro h
  have late := cascade_restsTooLate
  cases ran : exec cascadeHold State.cascade with
  | next t =>
    obtain ⟨stopping, still, sound⟩ := restsTooLate_spec late ran
    have rests := (h.1 cascadeHold State.cascade t .n3 ran (by decide) (by decide +kernel) (by decide +kernel)).2
      fun ⟨ax, faulted, _⟩ => by rw [sound ax] at faulted; cases faulted
    rw [stopping, still] at rests
    revert rests
    cases t.covered .n3 <;> cases t.anyFaulted .n3 <;> decide
  | fault => rw [restsTooLate, ran] at late; cases late
  | refused => rw [restsTooLate, ran] at late; cases late

end Sys2Proof.Machine
end

