-- ==== Sys2Proof/Proofs/Keeps.lean ====
section
/-! PROOFS. What every operation keeps beyond the parts it names: the flags set at once, the feed limit (R158), the
heaters below their ceilings (R139, R141), the order of the segment queues (R48), the names in the store (R199) and the
keys of the lockout table (R92). -/

namespace Sys2Proof.Machine

variable {s t u : State}

/-! ### What is kept -/

/-- The base load of every good STATION record that the store holds or is writing is within its limit (R159, R203). -/
def Store.StationFits (st : Store) : Prop :=
  (st.station.good = true → st.station.contents.base ≤ st.station.contents.limit)
    ∧ ∀ w r, st.writing = some w → w.value = .station r → r.base ≤ r.limit

/-- The load is within the limit (R158), no group names an antenna twice (R74), and the STATION records fit. -/
def State.Afford (s : State) : Prop :=
  s.load ≤ s.feed.limit ∧ (∀ g, (s.groups.get g).ants.Nodup) ∧ s.store.StationFits

theorem State.withinLimit_iff (s : State) : s.WithinLimit ↔ s.Afford :=
  ⟨fun h => ⟨h.load, h.once, h.stored, h.written⟩, fun ⟨load, once, stored, written⟩ => ⟨load, stored, written, once⟩⟩

/-- The zone does not stand above its ceiling, and its contactor follows its level (R139, R141). -/
def State.HeaterDriven (s : State) (z : ZoneId) : Prop := (s.zone z).driven ∧ (s.zone z).effective ≤ s.ceiling z

/-- The store's waiting writes name its own records, and a write in progress carries its record's contents (R199, R200). -/
def State.StoreNamed (s : State) : Prop :=
  s.locks.slots.length = 24 ∧ (∀ id ∈ s.store.queue, id ∈ RecordId.all) ∧ (∀ n ∈ s.store.overflow, n < 24)
    ∧ ∀ w, s.store.writing = some w → w.record ∈ RecordId.all ∧ w.value.id = w.record

theorem State.QueuesOrdered.of_same (ht : t.tracks = s.tracks) (hb : t.burst = s.burst) (h : s.QueuesOrdered) :
    t.QueuesOrdered := by
  have track (a : Ant) : t.track a = s.track a := congrArg (Six.get · a) ht
  exact h.of_infix (fun a => track a ▸ List.infix_rfl) (fun _ _ => congrArg Burst.ant hb) fun a g k l =>
    ⟨hb ▸ k, track a ▸ l, congrArg Burst.tail hb⟩

/-- What an operation within an event keeps beside the ceilings of the heaters: it leaves the links, sets no flag at once
and keeps the feed limit, the contactors, the order of the queues, the names in the store and the keys of the lockout
table. -/
structure Loosens (s t : State) : Prop where
  links : t.links = s.links := by rfl
  early : t.scratch.early = s.scratch.early := by rfl
  afford : s.Afford → t.Afford := by exact id
  driven : ∀ z, (s.zone z).driven → (t.zone z).driven := by exact fun _ => id
  queues : s.QueuesOrdered → t.QueuesOrdered := by exact State.QueuesOrdered.of_same rfl rfl
  names : s.StoreNamed → t.StoreNamed := by exact id
  keys : KeysOnce s.locks.slots → KeysOnce t.locks.slots := by exact id

/-- An operation within an event that keeps the heaters below their ceilings too. -/
structure Keeps (s t : State) : Prop extends Loosens s t where
  heaters : ∀ z, s.HeaterDriven z → t.HeaterDriven z := by exact fun _ => id

theorem Keeps.refl (s : State) : Keeps s s := {}

theorem Loosens.trans (h : Loosens s t) (k : Loosens t u) : Loosens s u where
  links := k.links.trans h.links
  early := k.early.trans h.early
  afford := k.afford ∘ h.afford
  driven z := k.driven z ∘ h.driven z
  queues := k.queues ∘ h.queues
  names := k.names ∘ h.names
  keys := k.keys ∘ h.keys

theorem Keeps.trans (h : Keeps s t) (k : Keeps t u) : Keeps s u :=
  { h.toLoosens.trans k.toLoosens with heaters := fun z => k.heaters z ∘ h.heaters z }

theorem Keeps.ite {c : Prop} [Decidable c] (h : Keeps s t) (k : Keeps s u) : Keeps s (if c then t else u) := by
  split
  · exact h
  · exact k

theorem Keeps.forEach {α : Type} {f : State → α → State} (h : ∀ s x, Keeps s (f s x)) (xs : List α) (s : State) :
    Keeps s (forEach xs f s) := by
  induction xs generalizing s with
  | nil => exact .refl s
  | cons x xs ih => exact (h s x).trans (ih _)

/-! ### Single updates -/

theorem Keeps.setAnts (s : State) (v : Six Antenna) : Keeps s { s with ants := v } := {}

theorem Keeps.modAxis (s : State) (i : AxisId) (f : Axis → Axis) : Keeps s (s.modAxis i f) := .setAnts ..

theorem Keeps.modAnt (s : State) (a : Ant) (f : Antenna → Antenna) : Keeps s (s.modAnt a f) := .setAnts ..

theorem Keeps.raise (s : State) (w : FlagWord) : Keeps s (s.raise w) := {}

theorem Keeps.raiseIf (s : State) (b : Bool) (w : FlagWord) : Keeps s (s.raiseIf b w) := .ite (.raise ..) (.refl s)

theorem Keeps.markFreed (s : State) : Keeps s s.markFreed := {}

theorem Keeps.markFreedIf (s : State) (b : Bool) : Keeps s (s.markFreedIf b) := .ite (.markFreed s) (.refl s)

theorem Keeps.markForm (s : State) : Keeps s s.markForm := {}

theorem Keeps.clearMarks (s : State) : Keeps s s.clearMarks := {}

/-- An entry in the books that takes no more than the room. -/
theorem Keeps.setFeed {f : Feed} (h : s.load ≤ s.feed.limit → ({ s with feed := f } : State).load ≤ f.limit) :
    Keeps s { s with feed := f } where
  afford k := ⟨h k.1, k.2⟩

/-- Items of the Arbiter that are no grant and no figure. -/
theorem Keeps.modFeed {f : Feed → Feed} (h : ∀ v, (f v).limit = v.limit ∧ (f v).base = v.base
      ∧ (f v).standing = v.standing ∧ (f v).groups = v.groups ∧ (f v).waves = v.waves) :
    Keeps s (s.modFeed f) := by
  obtain ⟨limit, base, standing, groups, waves⟩ := h s.feed
  refine .setFeed fun k => ?_
  have load : (s.modFeed f).load = s.load := by
    simp only [State.load, State.driveGrants, State.standing, State.modFeed, base, standing, groups, waves]; rfl
  exact limit.symm ▸ load.le.trans k

theorem Keeps.filterQueue (s : State) (p : Need → Bool) :
    Keeps s (s.modFeed fun v => { v with queue := v.queue.filter p }) := .modFeed fun _ => ⟨rfl, rfl, rfl, rfl, rfl⟩

/-- A standing grant that takes no more than the room and what stood (R158). -/
theorem Keeps.setStanding {i : AxisId} {g : Standing}
    (h : s.load ≤ s.feed.limit → s.load + g.watts ≤ s.feed.limit + (s.standing i).watts) :
    Keeps s (s.setStanding i g) :=
  .setFeed fun k => by
    have change := s.load_setStanding i g
    have room := h k
    show (s.setStanding i g).load ≤ s.feed.limit
    omega

theorem Keeps.changeStanding {i : AxisId} {g : Standing} (h : g.watts ≤ (s.standing i).watts) :
    Keeps s (s.changeStanding i g) :=
  (Keeps.setStanding fun k => by omega).trans (.markFreedIf ..)

theorem Keeps.modHorn (s : State) (a : Ant) (f : Horn → Horn) : Keeps s (s.modHorn a f) := {}

/-- The ice figures are read by no ceiling. -/
theorem Keeps.modIce (s : State) (a : Ant) (f : Ice → Ice) : Keeps s (s.modIce a f) := {}

theorem Keeps.modStow (s : State) (a : Ant) (f : StowRecord → StowRecord) : Keeps s (s.modStow a f) := {}

theorem Keeps.modAuthority (s : State) (a : Ant) (f : Authority → Authority) : Keeps s (s.modAuthority a f) := {}

theorem Keeps.setWave (s : State) (w : Option Wave) : Keeps s (s.setWave w) := {}

end Sys2Proof.Machine
end

