-- ==== Sys2Proof/Proofs/KeepsDrives.lean ====
section
/-! PROOFS. The drives and the feed: stops, the shed and every grant keep what `Keeps` tells. A grant is made only where
admission found the room for it (R158, R161). -/

namespace Sys2Proof.Machine

variable {s t u : State}

/-! ### Axes and stops -/

theorem standingIn_le (st : AxisState) (g : Standing) : (standingIn st g).watts ≤ g.watts := by
  unfold standingIn
  split
  · exact le_rfl
  · exact le_rfl
  · exact Nat.min_le_left ..
  · exact Nat.min_le_left ..
  · exact Nat.min_le_left ..
  · exact Nat.min_le_left ..
  · exact Nat.min_le_left ..
  · exact Nat.min_le_left ..
  · exact Nat.zero_le _

theorem Keeps.enterAxis (s : State) (i : AxisId) (st : AxisState) : Keeps s (s.enterAxis i st) :=
  (Keeps.modAxis s i fun x => x.enter s.now st).trans (.changeStanding (standingIn_le ..))

theorem Keeps.clearClaims (s : State) (i : AxisId) : Keeps s (s.clearClaims i) := .modAxis ..

theorem Keeps.goBraking (s : State) (i : AxisId) (p : PendingStop) : Keeps s (s.goBraking i p) :=
  (Keeps.enterAxis ..).trans (.modAxis ..)

theorem Keeps.endStop (s : State) (i : AxisId) (r : StopReason) (d : StopTarget) : Keeps s (s.endStop i r d) := by
  cases d
  · exact .enterAxis ..
  · exact .goBraking ..
  · exact .goBraking ..

theorem Keeps.startStop (s : State) (i : AxisId) (r : StopReason) (d : StopTarget) :
    Keeps s (s.startStop i r d) := by
  have started (p : StopRecord) : Keeps s ((s.modAxis i fun x => { x with stop := some p }).enterAxis i .stopping) :=
    (Keeps.modAxis ..).trans (.enterAxis ..)
  exact .ite ((started _).trans (.endStop ..)) (started _)

theorem Keeps.takeStop (s : State) (i : AxisId) (r : StopReason) (d : StopTarget) : Keeps s (s.takeStop i r d) := by
  unfold State.takeStop
  split
  · exact .refl s
  · exact .refl s
  · exact .refl s
  · exact .refl s
  · exact .ite (.refl s) (.modAxis ..)
  · exact .ite (.refl s) (.ite (.modAxis ..) (.goBraking ..))
  · exact .startStop ..
  · exact .startStop ..
  · exact .startStop ..
  · exact .modAxis ..
  · exact .modAxis ..

theorem Keeps.stopAxis (s : State) (i : AxisId) (r : StopReason) (d : StopTarget) : Keeps s (s.stopAxis i r d) :=
  (Keeps.ite (.refl s) (.clearClaims s i)).trans (.takeStop ..)

theorem Keeps.stopBoth (s : State) (a : Ant) (r : StopReason) (d : StopTarget) : Keeps s (s.stopBoth a r d) :=
  .forEach (fun s i => .stopAxis s i r d) _ s

theorem Keeps.runFieldTimers (s : State) (a : Ant) : Keeps s (s.runFieldTimers a) := .modAnt ..

theorem Keeps.enableBus (s : State) (a : Ant) : Keeps s (s.enableBus a) := by
  have flagged := Keeps.modAnt s a fun v => { v with enable := true }
  have entered (s : State) (i : AxisId) : Keeps s (if (s.axis i).state = .off then s.enterAxis i .precharge else s) :=
    .ite (.enterAxis ..) (.refl s)
  exact .ite (flagged.trans (((Keeps.modAnt ..).trans (.forEach entered a.axes _)).trans (.runFieldTimers ..))) flagged

theorem Keeps.addClaim (s : State) (i : AxisId) (src : ClaimSource) : Keeps s (s.addClaim i src) := by
  have claimed := Keeps.modAxis s i fun x => x.addClaim s.now src
  exact .ite (.ite claimed (claimed.trans (.enableBus ..))) (.refl s)

theorem Keeps.dropClaim (s : State) (i : AxisId) (src : ClaimSource) : Keeps s (s.dropClaim i src) := .modAxis ..

theorem Keeps.dropClaims (s : State) (a : Ant) (src : ClaimSource) : Keeps s (s.dropClaims a src) :=
  .forEach (fun s i => .dropClaim s i src) _ s

/-! ### Zones that are lowered -/

/-- A ceiling hangs on its zone and on the lockout table alone. -/
theorem State.ceiling_congr {z : ZoneId} (hz : t.zone z = s.zone z) (hl : t.locks = s.locks) :
    t.ceiling z = s.ceiling z := by
  rw [State.ceiling, State.ceiling, State.lockCap, State.lockCap, State.heatCovered, State.heatCovered, hz, hl]

theorem State.modZone_modZone (s : State) (z : ZoneId) (f g : Zone → Zone) :
    (s.modZone z f).modZone z g = s.modZone z fun v => g (f v) := by
  have own : (s.modZone z f).zone z = f (s.zone z) := by simp
  rw [State.modZone, own]
  simp only [State.modZone, State.setZone, Six.set_set, Six.get_set, if_pos]
  congr 3
  cases z.cls <;> rfl

/-- A zone that stays driven, and for whose rise there is room. -/
theorem Loosens.modZone {z : ZoneId} {f : Zone → Zone}
    (room : s.load ≤ s.feed.limit → s.load + (f (s.zone z)).committed ≤ s.feed.limit + (s.zone z).committed)
    (driven : (s.zone z).driven → (f (s.zone z)).driven) : Loosens s (s.modZone z f) where
  afford k := by
    have change := s.load_setZone z (f (s.zone z))
    have fits := room k.1
    refine ⟨?_, k.2⟩
    show (s.setZone z (f (s.zone z))).load ≤ s.feed.limit
    omega
  driven y k := by
    by_cases e : y = z
    · subst e; simpa using driven k
    · simpa [e] using k

/-- A zone that stays driven and below its ceiling, and for whose rise there is room. -/
theorem Keeps.modZone {z : ZoneId} {f : Zone → Zone}
    (room : s.load ≤ s.feed.limit → s.load + (f (s.zone z)).committed ≤ s.feed.limit + (s.zone z).committed)
    (driven : (s.zone z).driven → (f (s.zone z)).driven)
    (ceiling : (s.zone z).effective ≤ s.ceiling z → (f (s.zone z)).effective ≤ (s.modZone z f).ceiling z) :
    Keeps s (s.modZone z f) :=
  { Loosens.modZone room driven with
    heaters := fun y k => by
      by_cases e : y = z
      · subst e
        have own : (s.modZone y f).zone y = f (s.zone y) := by simp
        exact ⟨own ▸ driven k.1, own ▸ ceiling k.2⟩
      · have other : (s.modZone z f).zone y = s.zone y := by simp [e]
        rw [State.HeaterDriven, State.ceiling_congr other rfl, other]
        exact k }

/-- A zone whose level does not rise, and that stays driven and below its ceiling. -/
theorem Keeps.lowered {z : ZoneId} {f : Zone → Zone} (watts : (f (s.zone z)).committed ≤ (s.zone z).committed)
    (driven : (s.zone z).driven → (f (s.zone z)).driven)
    (ceiling : (s.zone z).effective ≤ s.ceiling z → (f (s.zone z)).effective ≤ (s.modZone z f).ceiling z) :
    Keeps s (s.modZone z f) := .modZone (fun _ => by omega) driven ceiling

theorem Zone.lowerTo_committed_le (v : Zone) (c : Nat) : (v.lowerTo c).committed ≤ v.committed := by
  rw [Zone.committed, Zone.lowerTo_wattsAt, Zone.lowerTo_effective]
  exact v.wattsAt_mono (Nat.min_le_left ..)

@[simp] theorem Zone.lowerTo_requested (v : Zone) (c : Nat) : (v.lowerTo c).requested = v.requested := by
  unfold Zone.lowerTo; split <;> rfl

/-- A change of a zone that its lowering follows: the zone ends below the ceiling that the change gives it. -/
theorem Keeps.relower {z : ZoneId} {f : Zone → Zone} (o : Bool)
    (watts : (f (s.zone z)).committed = (s.zone z).committed) (driven : (s.zone z).driven → (f (s.zone z)).driven) :
    Keeps s ((s.modZone z f).lowerZone o z) := by
  have joined : ((s.modZone z f).modZone z fun v => v.lowerTo ((s.modZone z f).ceiling z))
      = s.modZone z fun v => (f v).lowerTo ((s.modZone z f).ceiling z) := s.modZone_modZone ..
  refine Keeps.trans (t := (s.modZone z f).modZone z fun v => v.lowerTo ((s.modZone z f).ceiling z)) ?_ (.markFreedIf ..)
  rw [joined]
  refine .lowered ((Zone.lowerTo_committed_le ..).trans watts.le) (fun k => Zone.driven_lowerTo _ (driven k)) fun _ => ?_
  have same : (s.modZone z fun v => (f v).lowerTo ((s.modZone z f).ceiling z)).ceiling z
      = (s.modZone z f).ceiling z := by
    simp [State.ceiling, State.lockCap, State.heatCovered]
  rw [same, Zone.lowerTo_effective]
  exact Nat.min_le_right ..

theorem Keeps.lowerZone (s : State) (o : Bool) (z : ZoneId) : Keeps s (s.lowerZone o z) := by
  refine Keeps.trans (Keeps.lowered (f := fun v => v.lowerTo (s.ceiling z)) (Zone.lowerTo_committed_le ..)
    (Zone.driven_lowerTo _) fun k => ?_) (.markFreedIf ..)
  have same : (s.modZone z fun v => v.lowerTo (s.ceiling z)).ceiling z = s.ceiling z := by
    simp [State.ceiling, State.lockCap, State.heatCovered]
  rw [same, Zone.lowerTo_effective]
  exact Nat.min_le_right ..

theorem Keeps.capZone (s : State) (o d : Bool) (z : ZoneId) : Keeps s (s.capZone o d z) := .relower o rfl id

/-! ### The shed -/

theorem Keeps.imposeShed (s : State) (o g d : Bool) : Keeps s (s.imposeShed o g d) := by
  have record (r : Shed) : Keeps s (s.modFeed fun f => { f with shed := r, cursor := none, lastStep := none }) :=
    .modFeed fun _ => ⟨rfl, rfl, rfl, rfl, rfl⟩
  exact ((record _).trans (.forEach (fun s z => .capZone s o _ z) _ _)).trans (.raiseIf ..)

theorem Keeps.needTest (s : State) : Keeps s s.needTest := by
  unfold State.needTest
  split
  · exact .refl s
  · exact .ite (.imposeShed ..) (.refl s)

theorem Keeps.makeRoom (s : State) (f : Fit) (d : Bool) : Keeps s (s.makeRoom f d) := by
  unfold State.makeRoom
  split
  · exact .imposeShed ..
  · exact .imposeShed ..
  · exact .refl s

theorem Keeps.afterGrant (s : State) (f : Fit) (n : Nat) : Keeps s (s.afterGrant f n) := by
  unfold State.afterGrant
  split
  · exact (Keeps.needTest ..).trans (.markFreedIf ..)
  · exact .markFreed ..

/-- The shed that an admission takes makes the room that it counted on (R161). -/
theorem State.fit_room {amount folded : Nat} {deep : Bool} (h : s.fit amount folded deep ≠ .short) :
    (amount : Int) ≤ (s.makeRoom (s.fit amount folded deep) deep).freeRoom + folded := by
  unfold State.fit at h ⊢
  split
  next direct => exact direct
  next direct =>
    rw [if_neg direct] at h
    split
    next surface =>
      have frees := s.imposeShed_freeRoom false false deep
      show (amount : Int) ≤ (s.imposeShed false false deep).freeRoom + folded
      omega
    next surface =>
      rw [if_neg surface] at h
      split
      next both =>
        have frees := s.imposeShed_freeRoom false true deep
        show (amount : Int) ≤ (s.imposeShed false true deep).freeRoom + folded
        omega
      next both => exact absurd (if_neg both) h

/-! ### Needs -/

theorem Keeps.modJog (s : State) (a : Ant) (f : Jog → Jog) : Keeps s (s.modJog a f) := .modAuthority ..

theorem Keeps.fallToHold (s : State) (i : AxisId) : Keeps s (s.fallToHold i) := .changeStanding (standingIn_le ..)

theorem Keeps.startJog (s : State) (i : AxisId) : Keeps s (s.startJog i) :=
  .ite ((Keeps.enterAxis ..).trans (.modJog ..)) (.fallToHold ..)

theorem State.QueuesOrdered.of_segments (h : s.QueuesOrdered) (ht : ∀ a, (t.track a).segments = (s.track a).segments)
    (hb : t.burst = s.burst) : t.QueuesOrdered :=
  h.of_infix (fun a => ht a ▸ List.infix_rfl) (fun _ _ => congrArg Burst.ant hb) fun a _ k l =>
    ⟨hb ▸ k, ht a ▸ l, congrArg Burst.tail hb⟩

/-- Items of a queue beside its segments. -/
theorem Keeps.modTrack {a : Ant} {f : Track → Track} (h : ∀ q, (f q).segments = q.segments) :
    Keeps s (s.modTrack a f) := by
  have same (b : Ant) : ((s.modTrack a f).track b).segments = (s.track b).segments := by
    rw [State.track_modTrack]
    split
    next e => rw [h, e]
    · rfl
  exact { queues := fun k => k.of_segments same rfl }

theorem Keeps.noteRaise (s : State) (i : AxisId) (r : RaiseState) : Keeps s (s.noteRaise i r) := .modTrack fun _ => rfl

/-- Drives and books change together, to no greater load: what a conversion does. -/
theorem Keeps.of_draw (shape : t = { s with
      ants := t.ants, feed := t.feed, scratch := { s.scratch with freed := t.scratch.freed } })
    (limit : t.feed.limit = s.feed.limit) (load : t.load ≤ s.load) : Keeps s t := by
  generalize t.ants = v at shape
  generalize hf : t.feed = f at shape limit
  generalize t.scratch.freed = b at shape
  subst shape
  exact { afford := fun k => ⟨(load.trans k.1).trans limit.ge, k.2⟩ }

theorem State.convertAxis_shape (s : State) (c : GrantCover) (i : AxisId) (h : Nat) : s.convertAxis c i h =
    { s with ants := (s.convertAxis c i h).ants, feed := (s.convertAxis c i h).feed } := by
  unfold State.convertAxis
  split <;> rfl

theorem State.convertAxis_limit (s : State) (c : GrantCover) (i : AxisId) (h : Nat) :
    (s.convertAxis c i h).feed.limit = s.feed.limit := by
  unfold State.convertAxis
  split <;> rfl

theorem forEach_convertAxis_shape (c : GrantCover) (xs : List (AxisId × Nat)) (s : State) :
    let t := forEach xs (fun s p => s.convertAxis c p.1 p.2) s
    t = { s with ants := t.ants, feed := t.feed } := by
  induction xs generalizing s with
  | nil => rfl
  | cons p xs ih =>
    have rest := ih (s.convertAxis c p.1 p.2)
    dsimp only [forEach, List.foldl_cons] at rest ⊢
    rw [s.convertAxis_shape c p.1 p.2] at rest
    rw [s.convertAxis_shape c p.1 p.2]
    exact rest

theorem State.convertGrant_shape (s : State) (c : GrantCover) (w : Nat) (hs : List (AxisId × Nat)) :
    s.convertGrant c w hs = { s with ants := (s.convertGrant c w hs).ants, feed := (s.convertGrant c w hs).feed } :=
  forEach_convertAxis_shape ..

theorem State.convertGrant_limit (s : State) (c : GrantCover) (w : Nat) (hs : List (AxisId × Nat)) :
    (s.convertGrant c w hs).feed.limit = s.feed.limit :=
  forEach_keeps (f := fun s (p : AxisId × Nat) => s.convertAxis c p.1 p.2) (fun t => t.feed.limit)
    (fun s p => s.convertAxis_limit c p.1 p.2) _ s

theorem Keeps.ownGrant (s : State) (i : AxisId) : Keeps s (s.ownGrant i) := by
  refine .of_draw ?_ ?_ (s.load_ownGrant_le i)
  · unfold State.ownGrant
    split
    · split
      · rfl
      · split
        · rw [State.convertAxis_shape]; rfl
        · rfl
    · split
      · rfl
      · split
        · rw [State.convertAxis_shape]; rfl
        · rfl
    · rfl
  · unfold State.ownGrant
    split
    · split
      · rfl
      · split
        · exact State.convertAxis_limit ..
        · rfl
    · split
      · rfl
      · split
        · exact State.convertAxis_limit ..
        · rfl
    · rfl

theorem Keeps.addStanding {i : AxisId} {w : Nat} (h : s.load ≤ s.feed.limit → s.load + w ≤ s.feed.limit) :
    Keeps s (s.addStanding i w) :=
  .setStanding fun k => by have room := h k; dsimp only; omega

/-- A grant for which there is room (R160, R161). -/
theorem Keeps.grantNeed {n : Need} (h : s.load + n.watts ≤ s.feed.limit) : Keeps s (s.grantNeed n) := by
  have raised : Keeps s ((s.ownGrant n.axis).addStanding n.axis n.watts) := by
    have less := s.load_ownGrant_le n.axis
    have same : (s.ownGrant n.axis).feed.limit = s.feed.limit :=
      ((Follows.ownGrant s n.axis).touches.same .figures (by decide)).1
    exact (Keeps.ownGrant ..).trans (.addStanding fun _ => by omega)
  unfold State.grantNeed
  split
  · have granted : Keeps s (s.setStanding n.axis ⟨n.watts, n.watts⟩) := .setStanding fun _ => by dsimp only; omega
    exact (granted.trans (.modAxis ..)).trans (.enterAxis ..)
  · exact raised.trans (.noteRaise ..)
  · exact raised.trans (.startJog ..)

/-- A need is admitted where it fits (R161). -/
theorem Keeps.admitNeed {n : Need} (h : s.fit n.watts 0 false ≠ .short) :
    Keeps s (s.admitNeed n (s.fit n.watts 0 false)) := by
  have room := State.fit_room h
  refine ((Keeps.makeRoom s _ false).trans (.grantNeed ?_)).trans (.afterGrant ..)
  simp only [State.freeRoom] at room
  omega

theorem Keeps.failJogBudget (s : State) (i : AxisId) : Keeps s (s.failJogBudget i) := .ite (.modJog ..) (.refl s)

theorem Keeps.needLost (s : State) (n : Need) : Keeps s (s.needLost n) := by
  unfold State.needLost
  split
  · exact (((((Keeps.dropClaim ..).trans (.dropClaim ..)).trans (.dropClaim ..)).trans (.failJogBudget ..)).trans
      (.raise ..)).trans (.raise ..)
  · exact (Keeps.noteRaise ..).trans (.raise ..)
  · exact (((Keeps.dropClaim ..).trans (.failJogBudget ..)).trans (.raise ..)).trans (.raise ..)

theorem Keeps.joinQueue (s : State) (n : Need) : Keeps s (s.joinQueue n) :=
  .ite (.modFeed fun _ => ⟨rfl, rfl, rfl, rfl, rfl⟩) (.needLost ..)

theorem Keeps.askNeed (s : State) (i : AxisId) (k : NeedKind) (w : Nat) : Keeps s (s.askNeed i k w) := by
  unfold State.askNeed
  dsimp only
  split
  next h => exact .admitNeed h.2
  · exact .joinQueue ..

theorem Keeps.offerQueue (n : Nat) (s : State) : Keeps s (s.offerQueue n) := by
  induction n generalizing s with
  | zero => exact .refl s
  | succ n ih =>
    unfold State.offerQueue
    split
    · exact .refl s
    next m rest _ =>
      split
      · exact .refl s
      next fits =>
        have left : Keeps s (s.modFeed fun f => { f with queue := rest }) := .modFeed fun _ => ⟨rfl, rfl, rfl, rfl, rfl⟩
        exact (left.trans (.admitNeed fits)).trans (ih _)

theorem Keeps.withdraw (s : State) (i : AxisId) : Keeps s (s.withdraw i) := .filterQueue ..

theorem Keeps.forgetRaise (s : State) (n : Need) : Keeps s (s.forgetRaise n) := .ite (.noteRaise ..) (.refl s)

theorem Keeps.withdrawVoid (s : State) : Keeps s s.withdrawVoid :=
  (Keeps.filterQueue s fun n => !s.needVoid n).trans (.forEach (fun s n => .forgetRaise s n) _ _)

/-! ### Group and wave grants -/

theorem Keeps.releaseGroupGrant (s : State) (g : GroupId) : Keeps s (s.releaseGroupGrant g) := by
  refine .of_draw ?_ ?_ (s.load_releaseGroupGrant_le g)
  · unfold State.releaseGroupGrant
    split
    · rfl
    · rw [State.convertGrant_shape]; rfl
  · unfold State.releaseGroupGrant
    split
    · rfl
    · exact State.convertGrant_limit ..

theorem Keeps.releaseWaveGrant (s : State) (a : Ant) : Keeps s (s.releaseWaveGrant a) := by
  refine .of_draw ?_ ?_ (s.load_releaseWaveGrant_le a)
  · unfold State.releaseWaveGrant
    split
    · rfl
    · rw [State.convertGrant_shape]; rfl
  · unfold State.releaseWaveGrant
    split
    · rfl
    · exact State.convertGrant_limit ..

theorem Keeps.lowerWaveGrant (s : State) (a : Ant) : Keeps s (s.lowerWaveGrant a) := by
  refine .of_draw ?_ ?_ (s.load_lowerWaveGrant_le a)
  · unfold State.lowerWaveGrant
    split <;> rfl
  · unfold State.lowerWaveGrant
    split <;> rfl

theorem Keeps.foldAxis (s : State) (c : GrantCover) (i : AxisId) : Keeps s (s.foldAxis c i) := by
  have ended : Keeps s (s.setStanding i ⟨0, 0⟩) := .setStanding fun _ => by dsimp only; omega
  have left := ended.trans (.withdraw _ i)
  exact .ite (left.trans (.modAxis ..)) left

/-- A folded axis leaves the load without its standing grant (R167). -/
theorem State.load_foldAxis (s : State) (c : GrantCover) (i : AxisId) :
    (s.foldAxis c i).load + (s.standing i).watts = s.load := by
  have change := s.load_setStanding i ⟨0, 0⟩
  have same : (s.foldAxis c i).load = (s.setStanding i ⟨0, 0⟩).load := by
    unfold State.foldAxis
    dsimp only
    split <;> rfl
  rw [same]
  exact change

theorem State.standing_foldAxis (s : State) (c : GrantCover) (i j : AxisId) :
    (s.foldAxis c i).standing j = if j = i then ⟨0, 0⟩ else s.standing j := by
  have same : (s.foldAxis c i).standing j = (s.setStanding i ⟨0, 0⟩).standing j := by
    unfold State.foldAxis
    dsimp only
    split <;> rfl
  rw [same, State.standing_setStanding]

/-- Axes folded one after the other leave the load without any of their standing grants. -/
theorem forEach_foldAxis_load (c : GrantCover) {xs : List AxisId} (once : xs.Nodup) (s : State) :
    (forEach xs (fun s i => s.foldAxis c i) s).load + sumOf xs (fun i => (s.standing i).watts) = s.load := by
  induction xs generalizing s with
  | nil => rfl
  | cons i xs ih =>
    obtain ⟨fresh, once⟩ := List.nodup_cons.1 once
    have rest := ih once (s.foldAxis c i)
    have kept : sumOf xs (fun j => ((s.foldAxis c i).standing j).watts) = sumOf xs (fun j => (s.standing j).watts) :=
      sumOf_congr fun j hj => by rw [State.standing_foldAxis, if_neg fun e : j = i => fresh (e ▸ hj)]
    have head := s.load_foldAxis c i
    rw [sumOf_cons]
    show (forEach xs (fun s i => s.foldAxis c i) (s.foldAxis c i)).load + _ = _
    omega

theorem State.foldable_le (s : State) (i : AxisId) : s.foldable i ≤ (s.standing i).watts := by
  unfold State.foldable
  split
  · exact le_rfl
  · exact Nat.zero_le _

theorem forEach_foldAxis_books (c : GrantCover) (xs : List AxisId) (s : State) :
    let t := forEach xs (fun s i => s.foldAxis c i) s
    t.feed.limit = s.feed.limit ∧ t.feed.groups = s.feed.groups ∧ t.feed.waves = s.feed.waves := by
  refine ⟨forEach_keeps (fun t => t.feed.limit) (fun s i => ?_) xs s,
    forEach_keeps (fun t => t.feed.groups) (fun s i => ?_) xs s, forEach_keeps (fun t => t.feed.waves) (fun s i => ?_) xs s⟩
  all_goals
    unfold State.foldAxis
    dsimp only
    split <;> rfl

theorem Keeps.foldAxes (s : State) (c : GrantCover) (xs : List AxisId) :
    Keeps s (Machine.forEach xs (fun s i => s.foldAxis c i) s) := .forEach (fun s i => .foldAxis s c i) xs s

/-- Grants entered where they take no more than the room, in a part that keeps to its limit. -/
theorem Keeps.thenFeed {f : Feed} (h : Keeps s t)
    (room : s.Afford → ({ t with feed := f } : State).load ≤ f.limit) : Keeps s { t with feed := f } :=
  { h with
    afford := fun k => ⟨room k, (h.afford k).2⟩
    queues := fun k => State.QueuesOrdered.of_same (s := t) rfl rfl (h.queues k) }

/-- A group's grant takes the place of what its axes stood on (R78, R167). -/
theorem Keeps.grantGroup {g : GroupId} {demand : Nat} {xs : List AxisId} (once : s.Afford → xs.Nodup)
    (h : (demand : Int) ≤ s.freeRoom + sumOf xs s.foldable) : Keeps s (s.grantGroup g demand xs) := by
  refine (Keeps.foldAxes s (.group g) xs).thenFeed fun k => ?_
  let folded := Machine.forEach xs (fun s i => s.foldAxis (.group g) i) s
  let grant : GroupGrant := ⟨demand, xs.map fun i => (i, (s.axis i).record.hold)⟩
  have load : folded.load + sumOf xs (fun i => (s.standing i).watts) = s.load :=
    forEach_foldAxis_load (.group g) (once k) s
  have replaced := folded.load_setGroupGrant g (some grant)
  have limit : folded.feed.limit = s.feed.limit := (forEach_foldAxis_books (.group g) xs s).1
  have less : sumOf xs s.foldable ≤ sumOf xs (fun i => (s.standing i).watts) := sumOf_le fun i _ => s.foldable_le i
  have watts : ((some grant).map GroupGrant.watts).getD 0 = demand := rfl
  show (folded.setGroupGrant g (some grant)).load ≤ folded.feed.limit
  simp only [State.freeRoom] at h
  omega

theorem Ant.axes_nodup (a : Ant) : a.axes.Nodup := by cases a <;> decide

/-- A wave's grant takes the place of what its axes stood on (R167). -/
theorem Keeps.grantWave {a : Ant} {demand : Nat}
    (h : (demand : Int) ≤ s.freeRoom + (s.foldable ⟨a, .az⟩ + s.foldable ⟨a, .el⟩ : Nat)) :
    Keeps s (s.grantWave a demand) := by
  refine (Keeps.forEach (fun s i => .foldAxis s .wave i) a.axes s).trans (.setFeed fun _ => ?_)
  let folded := Machine.forEach a.axes (fun s i => s.foldAxis .wave i) s
  let grant : WaveGrant := ⟨false, demand, ⟨(s.axis ⟨a, .az⟩).record.hold, (s.axis ⟨a, .el⟩).record.hold⟩⟩
  have load : folded.load + sumOf a.axes (fun i => (s.standing i).watts) = s.load :=
    forEach_foldAxis_load .wave (Ant.axes_nodup a) s
  have both : sumOf a.axes (fun i => (s.standing i).watts)
      = (s.standing ⟨a, .az⟩).watts + (s.standing ⟨a, .el⟩).watts := by simp [sumOf, Ant.axes]
  have replaced := folded.load_setWaveGrant a (some grant)
  have limit : folded.feed.limit = s.feed.limit := (forEach_foldAxis_books .wave a.axes s).1
  have az := s.foldable_le ⟨a, .az⟩
  have el := s.foldable_le ⟨a, .el⟩
  have watts : ((some grant).map WaveGrant.watts).getD 0 = demand := rfl
  show (folded.setWaveGrant a (some grant)).load ≤ folded.feed.limit
  simp only [State.freeRoom] at h
  omega

/-- A group record that keeps its members, or loses them (R74). -/
theorem Keeps.modGroup {g : GroupId} {f : Group → Group}
    (ants : (s.groups.get g).ants.Nodup → (f (s.groups.get g)).ants.Nodup) : Keeps s (s.modGroup g f) where
  afford k := by
    refine ⟨k.1, fun h => ?_, k.2.2⟩
    rw [State.groups_get_modGroup]
    split
    · exact ants (k.2.1 g)
    · exact k.2.1 h

theorem Keeps.releaseGroup (s : State) (g : GroupId) : Keeps s (s.releaseGroup g) :=
  ((Keeps.releaseGroupGrant s g).trans (.modGroup id)).trans (.forEach (fun s i => .dropClaim s i .group) _ _)

end Sys2Proof.Machine
end

