-- ==== Sys2Proof/Proofs/KeepsQueues.lean ====
section
/-! PROOFS. The segment queues, the burst channel and the runs keep what `Keeps` tells (R48, R57 to R66). -/

namespace Sys2Proof.Machine

variable {s t u : State}

/-! ### Queues that keep their order (R48) -/

/-- What the order of a queue reads of a segment beside its state. -/
def Segment.course (g : Segment) : Epoch × Nat × PerAxis Mdeg × PerAxis Mdeg := (g.start, g.duration, g.startPos, g.endPos)

/-- Segments that change in their states alone keep their order where the states do. -/
theorem State.QueuesOrdered.of_courses (h : s.QueuesOrdered)
    (hc : ∀ a, (t.track a).segments.map Segment.course = (s.track a).segments.map Segment.course)
    (ho : ∀ a, (t.track a).segments.Pairwise fun g h => g.state.rank ≤ h.state.rank ∧ h.state ≠ .active)
    (hs : ∀ a, (t.track a).stagedSegments ≠ [] → t.burst.ant = some a)
    (hb : ∀ a, t.burst.ant = some a → s.burst.ant = some a ∧ t.burst.tail = s.burst.tail) : t.QueuesOrdered where
  order := ho
  staged := hs
  follows a := by
    let behind (c d : Epoch × Nat × PerAxis Mdeg × PerAxis Mdeg) : Prop := d.1 = c.1 + c.2.1 ∧ d.2.2.1 = c.2.2.2
    have before := (List.isChain_map (R := behind) Segment.course).2 (h.follows a)
    exact (List.isChain_map (R := behind) Segment.course).1 (hc a ▸ before)
  lasts a g hg := by
    obtain ⟨f, hf, same⟩ := List.mem_map.1 (hc a ▸ List.mem_map_of_mem (f := Segment.course) hg)
    have duration : f.duration = g.duration := congrArg (fun c => c.2.1) same
    exact duration ▸ h.lasts a f hf
  rises a := by
    let before (c d : Epoch × Nat × PerAxis Mdeg × PerAxis Mdeg) : Prop := c.1 < d.1
    have rises := (List.pairwise_map (R := before) (f := Segment.course)).2 (h.rises a)
    exact (List.pairwise_map (R := before)).1 (hc a ▸ rises)
  tail a g k l := by
    obtain ⟨open_, tail⟩ := hb a k
    have last : ((s.track a).segments.map Segment.course).getLast? = some g.course := by
      rw [← hc a, List.getLast?_map, l]; rfl
    rw [List.getLast?_map] at last
    obtain ⟨f, hf, same⟩ := Option.map_eq_some_iff.1 last
    obtain ⟨e, he, ends, pos⟩ := h.tail a f open_ hf
    have finish : f.finish = g.finish := congrArg (fun c => c.1 + (c.2.1 : Int)) same
    exact ⟨e, tail.trans he, finish ▸ ends, pos.trans (congrArg (fun c => c.2.2.2) same)⟩

/-- One queue changes, and keeps its order. -/
theorem Keeps.setTrack {a : Ant} {f : Track → Track} (order : s.QueuesOrdered → (s.modTrack a f).QueuesOrdered) :
    Keeps s (s.modTrack a f) where
  queues := order

/-- A queue changed in the states of its segments alone: its order holds where they keep to it. -/
theorem State.QueuesOrdered.restate {a : Ant} {f : Track → Track} (h : s.QueuesOrdered)
    (courses : (f (s.track a)).segments.map Segment.course = (s.track a).segments.map Segment.course)
    (order : (f (s.track a)).segments.Pairwise fun g h => g.state.rank ≤ h.state.rank ∧ h.state ≠ .active)
    (staged : (f (s.track a)).stagedSegments ≠ [] → (s.track a).stagedSegments ≠ []) :
    (s.modTrack a f).QueuesOrdered := by
  refine h.of_courses (fun b => ?_) (fun b => ?_) (fun b hb => ?_) fun b hb => ⟨hb, rfl⟩
  · rw [State.track_modTrack]
    split
    next e => exact e ▸ courses
    · rfl
  · rw [State.track_modTrack]
    split
    next e => exact e ▸ order
    · exact h.order b
  · rw [State.track_modTrack] at hb
    split at hb
    next e => exact e ▸ h.staged a (staged hb)
    · exact h.staged b hb

/-- The head of an ordered queue may be ACTIVE (R48, R61). -/
theorem State.QueuesOrdered.activateHead {a : Ant} {f : Track → Track} (h : s.QueuesOrdered)
    (hf : (f (s.track a)).segments = (s.track a).activateHead.segments) : (s.modTrack a f).QueuesOrdered := by
  have order := h.order a
  refine h.restate ?_ ?_ ?_
  all_goals
    simp only [Track.stagedSegments, hf]
    unfold Track.activateHead
    split
  · rfl
  next g rest e => rw [e]; rfl
  next e => exact e ▸ order
  next g rest e =>
    rw [e, List.pairwise_cons] at order
    exact List.pairwise_cons.2 ⟨fun h hh => ⟨Nat.zero_le _, (order.1 h hh).2⟩, order.2⟩
  · exact id
  next g rest e =>
    intro k none_
    rw [e, List.filter_eq_nil_iff] at none_
    refine k (List.filter_eq_nil_iff.2 fun x hx => ?_)
    obtain rfl | hx := List.mem_cons.1 hx
    · simp
    · exact none_ x (List.mem_cons_of_mem _ hx)

/-! ### The burst channel -/

theorem Keeps.slotsFreed (s : State) (a : Ant) : Keeps s (s.slotsFreed a) := by
  unfold State.slotsFreed
  have told : Keeps s (s.modTrack a fun t => { t with pauseReported := false }) := .modTrack fun _ => rfl
  exact .ite (told.trans (.raise ..)) (.refl s)

theorem State.slotsFreed_segments (s : State) (a b : Ant) :
    ((s.slotsFreed a).track b).segments = (s.track b).segments := by
  unfold State.slotsFreed
  split
  · show (((s.modTrack a fun t => { t with pauseReported := false }).track b)).segments = _
    rw [State.track_modTrack]
    split
    next e => exact e ▸ rfl
    · rfl
  · rfl

theorem State.slotsFreed_burst (s : State) (a : Ant) : (s.slotsFreed a).burst = s.burst := by
  unfold State.slotsFreed
  split <;> rfl

/-- QUEUED and ACTIVE segments stand before the STAGED ones (R48). -/
theorem live_append_staged {gs : List Segment}
    (h : gs.Pairwise fun g h => g.state.rank ≤ h.state.rank ∧ h.state ≠ .active) :
    (gs.filter fun g => decide (g.state ≠ .staged)) ++ (gs.filter fun g => decide (g.state = .staged)) = gs := by
  induction h with
  | nil => rfl
  | @cons g gs head _ ih =>
    by_cases k : g.state = .staged
    · have behind (x : Segment) (hx : x ∈ gs) : x.state = .staged := by
        have rank := (head x hx).1
        rw [k] at rank
        cases e : x.state with
        | staged => rfl
        | active => rw [e] at rank; exact absurd rank (by decide)
        | queued => rw [e] at rank; exact absurd rank (by decide)
      have none_ : gs.filter (fun g => decide (g.state ≠ .staged)) = [] :=
        List.filter_eq_nil_iff.2 fun x hx => by simp [behind x hx]
      have all : gs.filter (fun g => decide (g.state = .staged)) = gs :=
        List.filter_eq_self.2 fun x hx => by simp [behind x hx]
      rw [List.filter_cons_of_neg (by simp [k]), List.filter_cons_of_pos (by simp [k]), none_, all]; rfl
    · simpa [k] using ih

theorem State.QueuesOrdered.split (h : s.QueuesOrdered) (a : Ant) :
    (s.track a).live ++ (s.track a).stagedSegments = (s.track a).segments := live_append_staged (h.order a)

theorem Track.stagedSegments_of_live {q : Track} (h : q.segments = q.live) : q.stagedSegments = [] := by
  rw [Track.stagedSegments, h]
  refine List.filter_eq_nil_iff.2 fun g hg => ?_
  have k := (List.mem_filter.1 hg).2
  simpa using k

/-- The queues and the channel change, and the queues keep their order. -/
theorem Keeps.setQueues {v : Six Track} {b : Burst}
    (queues : s.QueuesOrdered → ({ s with tracks := v, burst := b } : State).QueuesOrdered) :
    Keeps s { s with tracks := v, burst := b } where
  queues := queues

/-- A queue without its STAGED segments. -/
def Track.unstaged (q : Track) : Track := { q with segments := q.live }

/-- The channel closed and what is STAGED discarded, where the burst is the antenna's (R57 to R59). -/
theorem Keeps.discardBurst {a : Ant} (h : s.burst.ant = some a) : Keeps s (s.discardBurst a) := by
  let t : State := ({ s with burst := s.burst.closed } : State).modTrack a Track.unstaged
  have track (b : Ant) : t.track b = if b = a then (s.track a).unstaged else s.track b := State.track_modTrack ..
  have staged (k : s.QueuesOrdered) (b : Ant) : (t.track b).stagedSegments = [] := by
    rw [track]
    split
    next e =>
      refine Track.stagedSegments_of_live ?_
      exact (List.filter_eq_self.2 fun g hg => (List.mem_filter.1 hg).2).symm
    next e =>
      by_contra some_
      exact e (Option.some.inj ((k.staged b some_).symm.trans h))
  have closed : Keeps s t := by
    refine .setQueues fun k => k.of_infix (fun b => ?_) (fun b hb => absurd (staged k b) hb) fun b g hb => nomatch hb
    show (t.track b).segments <:+: _
    rw [track]
    split
    next e => exact ⟨[], (s.track a).stagedSegments, e ▸ k.split a⟩
    · exact List.infix_rfl
  exact closed.trans (.slotsFreed t a)

theorem Keeps.setBurst {b : Burst} (ant : b.ant = s.burst.ant) (tail : b.tail = s.burst.tail) :
    Keeps s { s with burst := b } :=
  .setQueues (v := s.tracks) fun k => k.of_infix (fun _ => List.infix_rfl) (fun _ _ => ant)
    fun _ _ hb l => ⟨ant ▸ hb, l, tail⟩

theorem Keeps.terminateBurst (s : State) (a : Ant) (r : TermReason) : Keeps s (s.terminateBurst a r) := by
  unfold State.terminateBurst
  split
  next h =>
    have noted : Keeps s { s.discardBurst a with burst := { (s.discardBurst a).burst with termination := some (a, r) } } :=
      (Keeps.discardBurst h).trans (.setBurst rfl rfl)
    exact noted.trans (.raiseIf ..)
  · exact .refl s

/-! ### Leaving a run -/

theorem Keeps.dropRaise (s : State) (i : AxisId) : Keeps s (s.dropRaise i) := by
  have asked := (Keeps.filterQueue s fun n => !(decide (n.axis = i) && decide (n.kind = .track))).trans
    (.noteRaise _ i .none)
  exact .ite (asked.trans (.fallToHold ..)) asked

theorem Keeps.stopTracking (s : State) (i : AxisId) : Keeps s (s.stopTracking i) := .ite (.stopAxis ..) (.refl s)

theorem Keeps.releaseRun (s : State) (a : Ant) : Keeps s (s.releaseRun a) :=
  .forEach (fun s i => ((Keeps.dropClaim s i .queue).trans (.dropRaise ..)).trans (.stopTracking ..)) _ s

/-- A halted queue keeps its STAGED segments (R66). -/
theorem Keeps.haltTrack (s : State) (a : Ant) (r : HaltReason) : Keeps s (s.modTrack a fun t => t.halt r) := by
  have segments (b : Ant) : ((s.modTrack a fun t => t.halt r).track b).segments =
      if b = a then (s.track a).stagedSegments else (s.track b).segments := by
    rw [State.track_modTrack]
    split <;> rfl
  refine .setTrack fun k => k.of_infix (fun b => ?_) (fun _ _ => rfl) fun b g hb l => ?_
  · rw [segments]
    split
    next e => exact ⟨(s.track a).live, [], by rw [List.append_nil, e]; exact k.split a⟩
    · exact List.infix_rfl
  · rw [segments] at l
    split at l
    next e =>
      subst e
      refine ⟨hb, ?_, rfl⟩
      rw [← k.split b, List.getLast?_append, l]; rfl
    · exact ⟨hb, l, rfl⟩

theorem Keeps.haltQueue (s : State) (a : Ant) (r : HaltReason) : Keeps s (s.haltQueue a r) := by
  refine .ite (.refl s) ?_
  exact ((((Keeps.haltTrack s a r).trans (.releaseRun ..)).trans (.terminateBurst ..)).trans (.slotsFreed ..)).trans
    (.raise ..)

/-! ### Preparing and running -/

theorem Keeps.setRun (s : State) (a : Ant) (r : RunState) : Keeps s (s.modTrack a fun t => { t with run := r }) :=
  .modTrack fun _ => rfl

theorem Keeps.prepareQueue (s : State) (a : Ant) : Keeps s (s.prepareQueue a) := by
  unfold State.prepareQueue
  dsimp only
  split
  · exact (Keeps.setRun ..).trans (.haltQueue ..)
  · exact (Keeps.setRun ..).trans (.forEach (fun s i => .addClaim s i .queue) _ _)

theorem Keeps.startingQueue (s : State) (a : Ant) : Keeps s (s.startingQueue a) := .setRun ..

theorem Keeps.beginQueue (s : State) (a : Ant) (first : Epoch) : Keeps s (s.beginQueue a first) := by
  have prepared := Keeps.prepareQueue s a
  have starting := prepared.trans (.startingQueue _ a)
  exact .ite (.setRun ..) (.ite (.ite (starting.trans (.haltQueue ..)) starting) prepared)

theorem Keeps.followSegment (s : State) (g : Segment) (i : AxisId) : Keeps s (s.followSegment g i) :=
  .ite (.modAxis ..) (.refl s)

theorem Keeps.interpolate (s : State) (a : Ant) : Keeps s (s.interpolate a) := by
  unfold State.interpolate
  split
  · exact .refl s
  · exact .ite (.forEach (fun s i => .followSegment s _ i) _ s) (.refl s)

/-- The head of a queue becomes ACTIVE (R61, R63). -/
theorem Keeps.activate {a : Ant} {f : Track → Track}
    (hf : (f (s.track a)).segments = (s.track a).activateHead.segments) : Keeps s (s.modTrack a f) :=
  .setTrack fun k => k.activateHead hf

theorem Keeps.landOn (s : State) (g : Segment) (v : AxisName → Mdeg) (i : AxisId) : Keeps s (s.landOn g v i) :=
  .modAxis ..

theorem Keeps.endRun (s : State) (a : Ant) (g : Segment) : Keeps s (s.endRun a g) := by
  refine ((Keeps.setRun s a .idle).trans (.forEach (fun s i => ?_) _ _)).trans (.raise ..)
  exact .ite (((Keeps.landOn ..).trans (.enterAxis ..)).trans (.dropClaim ..)) (.dropClaim ..)

theorem Keeps.underrun (s : State) (a : Ant) (g : Segment) : Keeps s (s.underrun a g) := by
  have counted : Keeps s (s.modTrack a fun t => { t with run := .idle, underruns := satAdd countTop t.underruns 1 }) :=
    .modTrack fun _ => rfl
  refine (counted.trans (.forEach (fun s i => ?_) _ _)).trans (.raise ..)
  exact .ite (((Keeps.landOn ..).trans (.dropClaim ..)).trans (.stopAxis ..)) (.dropClaim ..)

theorem Keeps.popSegment (s : State) (a : Ant) : Keeps s (s.popSegment a) := by
  refine Keeps.trans (.setTrack fun k => k.of_infix (fun b => ?_) (fun _ _ => rfl) fun b g hb l => ⟨hb, ?_, rfl⟩)
    (.slotsFreed ..)
  · rw [State.track_modTrack]
    split
    next e => exact e ▸ (List.tail_suffix _).isInfix
    · exact List.infix_rfl
  · rw [State.track_modTrack] at l
    split at l
    next e =>
      subst e
      cases own : (s.track b).segments with
      | nil => simp [own] at l
      | cons x xs =>
        simp only [own, List.tail_cons] at l
        rw [List.getLast?_cons, l]; rfl
    · exact l

theorem Keeps.afterSegment (s : State) (a : Ant) (g : Segment) : Keeps s (s.afterSegment a g) := by
  refine .ite (.endRun ..) ?_
  split
  · exact .underrun ..
  · exact .ite (.activate rfl) (.haltQueue ..)

theorem Keeps.completeSegments (n : Nat) (s : State) (a : Ant) : Keeps s (s.completeSegments a n) := by
  induction n generalizing s with
  | zero => exact .refl s
  | succ n ih =>
    unfold State.completeSegments
    split
    · exact .refl s
    · exact ((Keeps.popSegment ..).trans (.afterSegment ..)).trans (ih _)

theorem Keeps.enterRun (s : State) (a : Ant) : Keeps s (s.enterRun a) := by
  have entered : Keeps s (Machine.forEach a.axes (fun s i => s.enterAxis i .tracking) s) :=
    .forEach (fun s i => .enterAxis s i .tracking) _ s
  have started := entered.trans
    (.activate (a := a) (f := fun q => { q.activateHead with run := .running, raises := ⟨.none, .none⟩ }) rfl)
  exact ((started.trans (.completeSegments 65 _ a)).trans (.interpolate _ a)).trans (.raise ..)

end Sys2Proof.Machine
end

