-- ==== Sys2Proof/Proofs/KeepsStow.lean ====
section
/-! PROOFS. Groups, local control, heaters, pins, waves and what follows an event keep what `Keeps` tells (R72 to R89,
R105 to R112, R123 to R132, R165). -/

namespace Sys2Proof.Machine

variable {s t u : State}

/-! ### Groups -/

theorem Keeps.askRaise (s : State) (i : AxisId) : Keeps s (s.askRaise i) :=
  .ite ((Keeps.noteRaise ..).trans (.askNeed ..)) (.refl s)

theorem Keeps.beginProfile (s : State) (i : AxisId) (p : Profile) : Keeps s (s.beginProfile i p) :=
  (Keeps.modAxis ..).trans (.enterAxis ..)

theorem Keeps.haltGroup (s : State) (g : GroupId) (r : GroupHalt) (c : Option (Ant × Option AxisName)) :
    Keeps s (s.haltGroup g r c) := by
  have halted : Keeps s (s.modGroup g fun v => v.halt s.now r c) := .modGroup id
  unfold State.haltGroup
  dsimp only
  split
  · exact halted
  · exact halted.trans (.releaseGroup ..)
  · exact halted.trans (.forEach (fun s i => .stopAxis s i .group .holding) _ _)
  · exact .refl s

theorem Keeps.haltGroupOf (s : State) (a : Ant) (r : GroupHalt) (x : Option AxisName) :
    Keeps s (s.haltGroupOf a r x) := by
  unfold State.haltGroupOf
  split
  · exact .refl s
  · exact .haltGroup ..

theorem Keeps.emptyGroup (s : State) (g : GroupId) : Keeps s (s.emptyGroup g) := .modGroup fun _ => .nil

theorem Keeps.releaseIfStill (s : State) (g : GroupId) : Keeps s (s.releaseIfStill g) := .ite (.releaseGroup ..) (.refl s)

/-! ### Local control -/

theorem Keeps.leaveJog (s : State) (i : AxisId) : Keeps s (s.leaveJog i) := by
  have left := (Keeps.dropClaim s i .jog).trans
    (.filterQueue _ fun n => !(decide (n.axis = i) && decide (n.kind = .jog)))
  exact .ite (left.trans (.fallToHold ..)) left

theorem Keeps.endJog (s : State) (a : Ant) (stop : Option (StopReason × StopTarget)) : Keeps s (s.endJog a stop) := by
  unfold State.endJog
  split
  · exact .refl s
  · have left (i : AxisId) : Keeps s ((s.modAuthority a fun v => { v with jog := none }).leaveJog i) :=
      (Keeps.modAuthority ..).trans (.leaveJog ..)
    dsimp only
    split
    · exact left _
    · exact .ite ((left _).trans (.stopAxis ..)) (left _)

theorem Keeps.failJogFault (s : State) (a : Ant) : Keeps s (s.failJogFault a) := by
  unfold State.failJogFault
  split
  · exact .refl s
  · exact (Keeps.modJog ..).trans (.leaveJog ..)

theorem Keeps.toRemote (s : State) (a : Ant) : Keeps s (s.toRemote a) := .modAuthority ..

theorem Keeps.endLocal (s : State) (a : Ant) : Keeps s (s.endLocal a) := (Keeps.toRemote s a).trans (.endJog ..)

theorem Keeps.refreshHorn (s : State) (a : Ant) : Keeps s (s.refreshHorn a) := .modHorn ..

theorem Keeps.startForceTimer (s : State) (a : Ant) : Keeps s (s.startForceTimer a) :=
  (Keeps.modHorn ..).trans (.refreshHorn ..)

/-! ### Heaters -/

theorem Keeps.refreshZone (s : State) (z : ZoneId) : Keeps s (s.refreshZone z) := .relower true rfl id

theorem Keeps.refreshZones (s : State) (a : Ant) : Keeps s (s.refreshZones a) :=
  .forEach (fun s z => .refreshZone s z) _ s

theorem Keeps.lowerZones (s : State) (a : Ant) : Keeps s (s.lowerZones a) :=
  .forEach (fun s z => .lowerZone s true z) _ s

theorem Keeps.runIceTimers (s : State) (a : Ant) : Keeps s (s.runIceTimers a) := .modIce ..

theorem Keeps.runAllIceTimers (s : State) : Keeps s s.runAllIceTimers := .forEach (fun s a => .runIceTimers s a) _ s

/-- A change of a zone that its requested level reads, with the level formed afresh (R142, R148). -/
theorem Keeps.reform {z : ZoneId} {f : Zone → Zone} (watts : (f (s.zone z)).committed = (s.zone z).committed)
    (driven : (s.zone z).driven → (f (s.zone z)).driven) : Keeps s ((s.modZone z f).refreshZone z) := by
  have joined : (s.modZone z f).formLevel z = s.modZone z fun v => { f v with requested := (f v).wanted (s.iceClass z.ant) } :=
    s.modZone_modZone ..
  rw [State.refreshZone, joined]
  exact .relower true watts driven

theorem Keeps.startForce (s : State) (a : Ant) : Keeps s (s.startForce a) := .reform rfl id

theorem Keeps.endForce (s : State) (a : Ant) : Keeps s (s.endForce a) := .reform rfl id

/-! ### Stow records -/


/-! ### The pin -/

theorem Keeps.setStow (s : State) (a : Ant) (st : StowState) : Keeps s (s.setStow a st) := .modStow ..

theorem Keeps.setWarning (s : State) (a : Ant) (t : Timer) : Keeps s (s.setWarning a t) :=
  (Keeps.modStow ..).trans (.refreshHorn ..)

theorem Keeps.goBlocked (s : State) (a : Ant) : Keeps s (s.goBlocked a) := (Keeps.setStow ..).trans (.stopBoth ..)

theorem Keeps.goWaiting (s : State) (a : Ant) : Keeps s (s.goWaiting a) := (Keeps.setStow ..).trans (.markForm _)

theorem Keeps.putDown (s : State) (a : Ant) : Keeps s (s.putDown a) := .stopBoth ..

theorem Keeps.goStowed (s : State) (a : Ant) : Keeps s (s.goStowed a) := (Keeps.modStow ..).trans (.putDown ..)

theorem Keeps.goPinFailed (s : State) (a : Ant) : Keeps s (s.goPinFailed a) := (Keeps.modStow ..).trans (.putDown ..)

theorem Keeps.goInserting (s : State) (a : Ant) : Keeps s (s.goInserting a) :=
  .ite ((Keeps.modStow ..).trans (.goStowed ..)) (.modStow ..)

theorem Keeps.goWarming (s : State) (a : Ant) : Keeps s (s.goWarming a) := (Keeps.modStow ..).trans (.startForce ..)

theorem Keeps.goWithdrawing (s : State) (a : Ant) : Keeps s (s.goWithdrawing a) := .ite (.modStow ..) (.modStow ..)

theorem Keeps.arrive (s : State) (a : Ant) : Keeps s (s.arrive a) := by
  have lowered := Keeps.lowerWaveGrant s a
  exact .ite (lowered.trans (.goInserting ..)) (lowered.trans (.goWarming ..))

theorem Keeps.warmed (s : State) (a : Ant) : Keeps s (s.warmed a) :=
  .ite ((Keeps.endForce ..).trans (.goInserting ..)) (.refl s)

/-! ### Waves -/

theorem Keeps.leaveWave (s : State) (a : Ant) : Keeps s (s.leaveWave a) := by
  have left := Keeps.modStow s a fun r => { r with member := false }
  unfold State.leaveWave
  dsimp only
  split
  · exact left
  · exact .ite ((left.trans (.setWave ..)).trans (.markForm _)) (left.trans (.setWave ..))

theorem State.capZone_ants (s : State) (o d : Bool) (z : ZoneId) : (s.capZone o d z).ants = s.ants :=
  State.markFreedIf_keeps State.ants _ _ rfl

theorem State.imposeShed_ants (s : State) (o g d : Bool) : (s.imposeShed o g d).ants = s.ants := by
  unfold State.imposeShed State.raiseIf
  dsimp only
  split
  · exact forEach_keeps State.ants (fun s z => s.capZone_ants o _ z) _ _
  · exact forEach_keeps State.ants (fun s z => s.capZone_ants o _ z) _ _

/-- The room that a shed makes takes nothing from the axes (R162). -/
theorem State.foldable_makeRoom (s : State) (f : Fit) (d : Bool) (i : AxisId) :
    (s.makeRoom f d).foldable i = s.foldable i := by
  have shed (o g d : Bool) : (s.imposeShed o g d).foldable i = s.foldable i := by
    have axis : (s.imposeShed o g d).axis i = s.axis i := by rw [State.axis, State.imposeShed_ants]; rfl
    have standing : (s.imposeShed o g d).standing i = s.standing i := by rw [State.standing, State.imposeShed_feed]; rfl
    rw [State.foldable, axis, standing]; rfl
  unfold State.makeRoom
  split
  · exact shed ..
  · exact shed ..
  · rfl

/-- An antenna that waits is admitted where its demand fits (R128, R161). -/
theorem Keeps.admitToWave {a : Ant} (h : s.stowFit a ≠ .short) : Keeps s (s.admitToWave a (s.stowFit a)) := by
  have room := State.fit_room h
  let t := s.makeRoom (s.stowFit a) true
  have fits : (s.stowDemand a : Int) ≤ t.freeRoom + (t.foldable ⟨a, .az⟩ + t.foldable ⟨a, .el⟩ : Nat) := by
    simp only [t, State.foldable_makeRoom]
    exact room
  have granted : Keeps s (t.grantWave a (s.stowDemand a)) := (Keeps.makeRoom s _ true).trans (.grantWave fits)
  have offered := granted.trans (.afterGrant _ (s.stowFit a)
    ((s.foldable ⟨a, .az⟩) + (s.foldable ⟨a, .el⟩) + s.earlierWave a))
  have marked := offered.trans (.modStow _ a fun r => { r with member := true })
  exact (marked.trans (.ite (.refl _) (.setWarning _ a _))).trans (.forEach (fun s i => .addClaim s i .stow) _ _)

theorem Keeps.walkWave (xs : List Ant) (s : State) : Keeps s (s.walkWave xs).2 := by
  induction xs generalizing s with
  | nil => exact .refl s
  | cons a xs ih =>
    unfold State.walkWave
    split
    · exact ih s
    · split
      · exact .refl s
      next fits => exact (Keeps.admitToWave fits).trans (ih _)

theorem Keeps.formWave (s : State) : Keeps s s.formWave := by
  have walked := Keeps.walkWave s.wind.record.order s
  exact .ite (.refl s) (.ite walked (walked.trans (.setWave ..)))

theorem Keeps.startMember (s : State) (m : WaveMember) : Keeps s (s.startMember m) := by
  have driven := Keeps.modStow s m.ant fun r => { r with state := .driving, member := false }
  exact .ite (driven.trans (.arrive ..)) (driven.trans (.beginProfile ..))

theorem Keeps.sendBack (s : State) (a : Ant) : Keeps s (s.sendBack a) := (Keeps.leaveWave s a).trans (.dropClaims ..)

theorem Keeps.startWave (s : State) (w : Wave) : Keeps s (s.startWave w) := by
  refine .ite ?_ (.forEach (fun s (m : WaveMember) => .sendBack s m.ant) _ s)
  exact ((Keeps.setWave s none).trans (.forEach (fun s m => .startMember s m) _ _)).trans (.markForm _)

theorem Keeps.releaseIfOver (s : State) (a : Ant) : Keeps s (s.releaseIfOver a) := .ite (.releaseWaveGrant ..) (.refl s)

/-! ### Cover, faults and the demand -/

theorem Keeps.stowAtRest (s : State) (a : Ant) : Keeps s (s.stowAtRest a) :=
  .ite (.ite (.goBlocked ..) (.ite (.setStow ..) (.goWaiting ..))) (.refl s)

theorem Keeps.stowCovered (s : State) (a : Ant) : Keeps s (s.stowCovered a) := by
  unfold State.stowCovered
  split
  · exact (Keeps.ite (.leaveWave ..) (.refl s)).trans (.goBlocked ..)
  · exact .goBlocked ..
  · exact .stopBoth ..
  · exact .stopBoth ..
  · exact .refl s

theorem Keeps.unblock (s : State) (a : Ant) : Keeps s (s.unblock a) :=
  .ite (.ite (.setStow ..) (.goWaiting ..)) (.refl s)

theorem Keeps.coverRemoved (s : State) (a : Ant) : Keeps s (s.coverRemoved a) := .ite (.unblock ..) (.refl s)

theorem Keeps.stowFaulted (s : State) (a : Ant) : Keeps s (s.stowFaulted a) := by
  unfold State.stowFaulted
  split
  · exact .setStow ..
  · exact ((Keeps.ite (.leaveWave ..) (.refl s)).trans (.setStow ..)).trans (.dropClaims ..)
  · exact (Keeps.setStow ..).trans (.dropClaims ..)
  · exact .putDown ..
  · exact .putDown ..
  · exact .refl s

theorem Keeps.redrive (s : State) (a : Ant) : Keeps s (s.redrive a) :=
  .ite (.ite (.goBlocked ..) (.goWaiting ..)) (.refl s)

theorem Keeps.giveUpLocal (s : State) (a : Ant) : Keeps s (s.giveUpLocal a) :=
  .ite (((Keeps.toRemote ..).trans (.endJog ..)).trans (.setWarning ..)) (.endJog ..)

theorem Keeps.takeAntenna (s : State) (a : Ant) : Keeps s (s.takeAntenna a) := by
  have taken := ((((Keeps.setStow s a .stopping).trans (.haltGroupOf _ a .stow none)).trans
    (.haltQueue _ a .stow)).trans (.terminateBurst _ a .stow)).trans (.giveUpLocal _ a)
  exact .ite (taken.trans (.stopBoth ..)) (taken.trans (.stopBoth ..))

theorem Keeps.takeByState (s : State) (a : Ant) : Keeps s (s.takeByState a) := by
  unfold State.takeByState
  split
  · exact .takeAntenna ..
  · exact .goInserting ..
  · exact .unblock ..
  · exact .redrive ..
  · exact .refl s

theorem Keeps.takeAll (s : State) : Keeps s s.takeAll := (Keeps.forEach (fun s a => .takeByState s a) _ s).trans (.markForm _)

theorem Keeps.setWind (s : State) (w : Wind) : Keeps s { s with wind := w } := {}

theorem Keeps.changeWind (s : State) (f : Wind → Wind) : Keeps s (s.changeWind f) :=
  .ite ((Keeps.setWind ..).trans (.takeAll _)) (.setWind ..)

/-! ### What follows an event -/

theorem Keeps.endDisable (s : State) (a : Ant) : Keeps s (s.endDisable a) :=
  .ite ((Keeps.modAnt ..).trans (.forEach (fun _ _ => .ite (.enterAxis ..) (.refl _)) _ _)) (.refl s)

theorem Keeps.followUp (s : State) : Keeps s s.followUp :=
  ((((Keeps.withdrawVoid s).trans (.forEach (fun s a => .endDisable s a) _ _)).trans
    (.forEach (fun s a => .stowAtRest s a) _ _)).trans (.forEach (fun s g => .releaseIfStill s g) _ _)).trans
    (.forEach (fun s a => .releaseIfOver s a) _ _)

theorem Keeps.torqueUnder (s : State) (i : AxisId) (c : GrantCover) : Keeps s (s.torqueUnder i c) :=
  (Keeps.modAxis ..).trans (.enterAxis ..)

theorem Keeps.seekTorque (s : State) (i : AxisId) : Keeps s (s.seekTorque i) := by
  refine .ite (.ite ?_ (.ite (.ite (.torqueUnder ..) (.refl s)) (.ite (.refl s) (.askNeed ..)))) (.refl s)
  split
  · exact .torqueUnder ..
  · exact .refl s

theorem Keeps.offer (s : State) : Keeps s s.offer := by
  have formed := (Keeps.clearMarks s).trans (.formWave _)
  exact .ite (formed.trans (.offerQueue ..)) (.ite formed (.refl s))

theorem Keeps.offerFreed (n : Nat) (s : State) : Keeps s (s.offerFreed n) := by
  induction n generalizing s with
  | zero => exact .refl s
  | succ n ih => exact .ite ((Keeps.offer s).trans (ih _)) (.refl s)

theorem Keeps.seekInTurn (s : State) (i : AxisId) : Keeps s (s.seekInTurn i) :=
  .ite ((Keeps.offerFreed 4 s).trans (.seekTorque ..)) (.refl s)

theorem Keeps.settleRounds (n : Nat) (s : State) : Keeps s (s.settleRounds n) := by
  induction n generalizing s with
  | zero => exact .refl s
  | succ n ih =>
    have sought : Keeps s s.followUp.seekAll := (Keeps.followUp s).trans (.forEach (fun s i => .seekInTurn s i) _ _)
    unfold State.settleRounds
    exact (sought.trans (.offer _)).trans (ih _)

theorem Keeps.settle (s : State) : Keeps s s.settle := .settleRounds 4 s

end Sys2Proof.Machine
end

