-- ==== Sys2Proof/Proofs/KeepsRows.lean ====
section
/-! PROOFS. What the requests and the events of each chapter do to the part keeps what `Keeps` tells. -/

namespace Sys2Proof.Machine

variable {s t u : State}

/-! ### The store (R199 to R202) -/

/-- A store that changes in its marks, waits and queue, by the names of the list alone. -/
structure Store.Requeued (ids : List RecordId) (st st' : Store) : Prop where
  station : st'.station.good = st.station.good ∧ st'.station.contents = st.station.contents := by exact ⟨rfl, rfl⟩
  queue : ∀ id ∈ st'.queue, id ∈ st.queue ∨ id ∈ ids := by exact fun _ => .inl
  overflow : ∀ n ∈ st'.overflow, n ∈ st.overflow ∨ RecordId.lockout n ∈ ids := by exact fun _ => .inl
  writing : ∀ w, st'.writing = some w → ∃ v, st.writing = some v ∧ w.record = v.record ∧ w.value = v.value := by
    exact fun w hw => ⟨w, hw, rfl, rfl⟩

variable {ids : List RecordId}

theorem Store.StationFits.alike {st st' : Store} (h : st.StationFits) (k : st.Requeued ids st') : st'.StationFits := by
  obtain ⟨good, contents⟩ := k.station
  refine ⟨fun g => contents ▸ h.1 (good ▸ g), fun w r hw hr => ?_⟩
  obtain ⟨v, hv, _, value⟩ := k.writing w hw
  exact h.2 v r hv (value ▸ hr)

theorem lockout_lt {n : Nat} (h : RecordId.lockout n ∈ RecordId.all) : n < 24 := by
  simpa [RecordId.all] using h

theorem Keeps.setStore {st : Store} (h : s.store.Requeued ids st)
    (named : s.StoreNamed → ∀ id ∈ ids, id ∈ RecordId.all) : Keeps s { s with store := st } where
  afford := fun ⟨load, once, fits⟩ => ⟨load, once, fits.alike h⟩
  names := fun k => by
    have news := named k
    obtain ⟨slots, queue, overflow, written⟩ := k
    refine ⟨slots, fun r hr => ?_, fun n hn => ?_, fun w hw => ?_⟩
    · exact (h.queue r hr).elim (queue r) (news r)
    · exact (h.overflow n hn).elim (overflow n) fun e => lockout_lt (news _ e)
    · obtain ⟨v, hv, record, value⟩ := h.writing w hw
      exact record ▸ value ▸ written v hv

theorem Keeps.setStoreMarks {st : Store} (h : s.store.Requeued [] st) : Keeps s { s with store := st } :=
  .setStore h fun _ _ k => nomatch k

theorem Store.Requeued.refl (st : Store) : st.Requeued ids st := {}

theorem Store.Requeued.trans {a b c : Store} (h : a.Requeued ids b) (k : b.Requeued ids c) : a.Requeued ids c where
  station := ⟨k.station.1.trans h.station.1, k.station.2.trans h.station.2⟩
  queue id hid := (k.queue id hid).elim (h.queue id) .inr
  overflow n hn := (k.overflow n hn).elim (h.overflow n) .inr
  writing w hw := by
    obtain ⟨v, hv, record, value⟩ := k.writing w hw
    obtain ⟨x, hx, first, same⟩ := h.writing v hv
    exact ⟨x, hx, record.trans first, value.trans same⟩

theorem Store.Requeued.setMark (st : Store) (id : RecordId) (b : Bool) : st.Requeued ids (st.setMark id b) := by
  cases id <;> exact {}

theorem Store.Requeued.noteChange (st : Store) (id : RecordId) : st.Requeued ids (st.noteChange id) := by
  unfold Store.noteChange
  split
  · exact .refl st
  next w hw =>
    split
    · exact { writing := fun v hv => ⟨w, hw, by cases hv; rfl, by cases hv; rfl⟩ }
    · exact .refl st

theorem Store.Requeued.queueWrite (st : Store) (id : RecordId) (now : Epoch) (b : Bool) :
    st.Requeued [id] (st.queueWrite id now b) := by
  have noted := (Store.Requeued.setMark (ids := [id]) st id false).trans (.noteChange _ id)
  unfold Store.queueWrite
  dsimp only
  split
  · exact noted
  · split
    · exact noted.trans { queue := fun x hx => List.mem_append.1 hx }
    · cases id with
      | lockout n =>
        refine noted.trans { overflow := fun x hx => (List.mem_append.1 hx).imp_right fun e => ?_ }
        rw [List.mem_singleton.1 e]
        exact List.mem_singleton_self _
      | _ => exact noted

theorem Keeps.queueWrite {id : RecordId} (h : s.StoreNamed → id ∈ RecordId.all) : Keeps s (s.queueWrite id) :=
  .setStore (.queueWrite ..) fun k _ e => List.mem_singleton.1 e ▸ h k

theorem RecordId.axis_mem (i : AxisId) : RecordId.axis i ∈ RecordId.all := by
  obtain ⟨a, x⟩ := i
  cases a <;> cases x <;> decide

theorem RecordId.zone_mem (z : ZoneId) : RecordId.zone z ∈ RecordId.all := by
  obtain ⟨a, c⟩ := z
  cases a <;> cases c <;> decide

theorem RecordId.lockout_mem {n : Nat} (h : n < 24) : RecordId.lockout n ∈ RecordId.all := by simp [RecordId.all, h]

theorem RecordId.permit_mem {n : Nat} (h : n < 32) : RecordId.permit n ∈ RecordId.all := by simp [RecordId.all, h]

theorem Store.Requeued.followSupply (st : Store) (now : Epoch) (b : Bool) :
    st.Requeued ids (st.followSupply now b) := by
  unfold Store.followSupply
  split
  · exact {}
  · split
    · exact .refl st
    · exact {}

theorem State.contentsOf_id (s : State) (id : RecordId) : (s.contentsOf id).id = id := by cases id <;> rfl

/-- The STATION record as it stands fits where the load does (R157, R158). -/
theorem State.contentsOf_fits {id : RecordId} {r : StationRecord} (h : s.load ≤ s.feed.limit)
    (k : s.contentsOf id = .station r) : r.base ≤ r.limit := by
  cases id with
  | station =>
    cases k
    show s.feed.base ≤ s.feed.limit
    have load : s.load = s.feed.base + s.driveGrants + s.committed := rfl
    omega
  | _ => cases k

theorem Store.drainOverflow_queue {st : Store} : ∀ id ∈ st.drainOverflow.queue, id ∈ st.queue
    ∨ ∃ n ∈ st.overflow, id = .lockout n := by
  unfold Store.drainOverflow
  split
  · exact fun _ => .inl
  next n rest e =>
    split
    · intro id hid
      obtain hid | hid := List.mem_append.1 hid
      · exact .inl hid
      · exact .inr ⟨n, by simp [e], List.mem_singleton.1 hid⟩
    · exact fun _ => .inl

theorem Store.drainOverflow_rest (st : Store) : st.drainOverflow.station = st.station
    ∧ st.drainOverflow.writing = st.writing ∧ ∀ n ∈ st.drainOverflow.overflow, n ∈ st.overflow := by
  unfold Store.drainOverflow
  split
  · exact ⟨rfl, rfl, fun _ => id⟩
  next n rest e =>
    split
    · exact ⟨rfl, rfl, fun m hm => by rw [e]; exact List.mem_cons_of_mem _ hm⟩
    · exact ⟨rfl, rfl, fun _ => id⟩

/-- A write starts with its record's contents as they stand (R200). -/
theorem Keeps.startWrite (s : State) : Keeps s s.startWrite := by
  unfold State.startWrite
  split
  · exact .refl s
  next head rest e =>
    let taken : Store := { s.store with
      queue := rest, writing := some ⟨head, s.contentsOf head, false, s.now⟩, headWait := none, waitReported := false }
    obtain ⟨station, writing, overflow⟩ := taken.drainOverflow_rest
    have written (w : Writing) (hw : taken.drainOverflow.writing = some w) :
        w.record = head ∧ w.value = s.contentsOf head := by
      rw [writing] at hw
      cases hw
      exact ⟨rfl, rfl⟩
    exact {
      afford := fun ⟨load, once, fits⟩ => by
        refine ⟨load, once, fun g => ?_, fun w r hw hr => ?_⟩
        · show taken.drainOverflow.station.contents.base ≤ taken.drainOverflow.station.contents.limit
          rw [station]
          exact fits.1 (station ▸ g)
        · exact State.contentsOf_fits load ((written w hw).2 ▸ hr)
      names := fun ⟨slots, queue, beyond, _⟩ => by
        have named : head ∈ RecordId.all := queue head (by simp [e])
        refine ⟨slots, fun x hx => ?_, fun n hn => beyond n (overflow n hn), fun w hw => ?_⟩
        · obtain hx | ⟨n, hn, rfl⟩ := Store.drainOverflow_queue x hx
          · exact queue x (e ▸ List.mem_cons_of_mem _ hx)
          · exact RecordId.lockout_mem (beyond n hn)
        · obtain ⟨record, value⟩ := written w hw
          exact ⟨record ▸ named, by rw [record, value, State.contentsOf_id]⟩ }

theorem Keeps.noteEmptied (s : State) : Keeps s s.noteEmptied := by
  have told : Keeps s (s.modStore fun st => { st with longWait := false }) :=
    .setStoreMarks {}
  exact .ite (told.trans (.raise ..)) (.refl s)

/-- What a store holds after contents were put into it: those of the STATION record only where they were its own. -/
theorem Store.put_station (st : Store) (v : RecordValue) (b : Bool) :
    (st.put v b).queue = st.queue ∧ (st.put v b).overflow = st.overflow
      ∧ ((∃ r, v = .station r ∧ (st.put v b).station.contents = r ∧ (st.put v b).station.good = b)
        ∨ (st.put v b).station = st.station) := by
  cases v with
  | station r => exact ⟨rfl, rfl, .inl ⟨r, rfl, rfl, rfl⟩⟩
  | _ => exact ⟨rfl, rfl, .inr rfl⟩

theorem Keeps.completeWrite (s : State) : Keeps s s.completeWrite := by
  unfold State.completeWrite
  split
  · exact .refl s
  next w hw =>
    let good := s.store.put w.value true
    let marked := if w.changed then good else good.setMark w.record true
    have same : good.Requeued [] marked := by
      unfold marked
      split
      · exact .refl _
      · exact .setMark ..
    obtain ⟨queue, overflow, station⟩ := s.store.put_station w.value true
    exact {
      afford := fun ⟨load, once, fits⟩ => by
        refine ⟨load, once, fun g => ?_, fun v r hv => nomatch hv⟩
        show marked.station.contents.base ≤ marked.station.contents.limit
        rw [same.station.2]
        obtain ⟨r, value, contents, _⟩ | kept := station
        · rw [contents]; exact fits.2 w r hw value
        · rw [kept]; exact fits.1 ((congrArg Stored.good kept).symm.trans (same.station.1.symm.trans g))
      names := fun ⟨slots, named, beyond, _⟩ => by
        refine ⟨slots, fun x hx => ?_, fun n hn => ?_, fun v hv => nomatch hv⟩
        · exact (same.queue x hx).elim (fun h => named x (queue ▸ h)) fun h => nomatch h
        · exact (same.overflow n hn).elim (fun h => beyond n (overflow ▸ h)) fun h => nomatch h }

end Sys2Proof.Machine
end

