-- ==== Sys2Proof/Proofs/KeepsEvents.lean ====
section
/-! PROOFS. What the events do to the part keeps what `Keeps` tells: faults, the drives' rows, the servo step, runs, groups,
the wind, the heaters' steps and the shed. -/

namespace Sys2Proof.Machine

variable {s t u : State}

/-! ### The field and the drives -/

theorem Keeps.setField (s : State) (io : FieldInputs) : Keeps s { s with field := io } := {}

theorem Keeps.modAxisIn (s : State) (i : AxisId) (f : AxisInputs → AxisInputs) : Keeps s (s.modAxisIn i f) := {}

theorem Keeps.modAntIn (s : State) (a : Ant) (f : AntInputs → AntInputs) : Keeps s (s.modAntIn a f) := {}

theorem Keeps.handOnFault (s : State) (i : AxisId) (c : FaultCause) : Keeps s (s.handOnFault i c) :=
  (((((Keeps.stopAxis ..).trans (.haltQueue ..)).trans (.terminateBurst ..)).trans (.haltGroupOf ..)).trans
    (.failJogFault ..)).trans (.stowFaulted ..)

theorem Keeps.faultAxis (s : State) (i : AxisId) (c : FaultCause) : Keeps s (s.faultAxis i c) :=
  .ite (((Keeps.clearClaims ..).trans (.enterAxis ..)).trans (.handOnFault ..)) (.refl s)

theorem Keeps.endProfile (s : State) (i : AxisId) (p : Profile) : Keeps s (s.endProfile i p) :=
  (Keeps.modAxis ..).trans (.enterAxis ..)

theorem Keeps.arriveIfDriving (s : State) (i : AxisId) : Keeps s (s.arriveIfDriving i) := .ite (.arrive ..) (.refl s)

theorem Keeps.finishStop (s : State) (i : AxisId) (r : StopRecord) : Keeps s (s.finishStop i r) :=
  (Keeps.modAxis ..).trans (.endStop ..)

theorem Keeps.bringUp (s : State) (a : Ant) : Keeps s (s.bringUp a) :=
  ((Keeps.modAnt ..).trans (.forEach (fun _ _ => .ite (.enterAxis ..) (.refl _)) _ _)).trans (.runFieldTimers ..)

theorem Keeps.failPrecharge (s : State) (a : Ant) : Keeps s (s.failPrecharge a) :=
  (Keeps.modAnt ..).trans (.forEach (fun _ _ => .ite (.faultAxis ..) (.refl _)) _ _)

theorem Keeps.loseBand (s : State) (a : Ant) : Keeps s (s.loseBand a) :=
  ((Keeps.modAnt ..).trans (.runFieldTimers ..)).trans (.forEach (fun _ _ => .ite (.faultAxis ..) (.refl _)) _ _)

theorem Keeps.startHolding (s : State) (i : AxisId) : Keeps s (s.startHolding i) :=
  (Keeps.enterAxis ..).trans (.modAxis ..)

theorem Keeps.confirmRelease (s : State) (i : AxisId) : Keeps s (s.confirmRelease i) := by
  have checked := Keeps.modAxis s i fun x => { x with releaseCheck := none, pendingStop := none }
  unfold State.confirmRelease
  dsimp only
  split
  · exact checked
  · exact checked.trans (.goBraking ..)

theorem Keeps.activeReported (s : State) (i : AxisId) : Keeps s (s.activeReported i) :=
  .ite (.modAxis ..) (.faultAxis ..)

/-! ### The servo step -/

theorem Keeps.markLimit (s : State) (i : AxisId) : Keeps s (s.markLimit i) := by
  unfold State.markLimit
  split
  · exact .modJog ..
  · exact .refl s

theorem Keeps.servoAxis (s : State) (i : AxisId) : Keeps s (s.servoAxis i) := (Keeps.markLimit ..).trans (.modAxis ..)

theorem Keeps.servoGroup (s : State) (g : GroupId) : Keeps s (s.servoGroup g) :=
  .modGroup fun once => by split <;> exact once

theorem Keeps.servo (s : State) (io : FieldInputs) : Keeps s (s.servo io) := by
  have read : Keeps s (s.readField io) :=
    ((Keeps.setField s io).trans (.forEach (fun s a => .runFieldTimers s a) Ant.all _)).trans
      (.setStoreMarks (.followSupply ..))
  exact (read.trans (.forEach (fun s i => .servoAxis s i) _ _)).trans (.forEach (fun s g => .servoGroup s g) _ _)

/-! ### Runs and groups -/

theorem Keeps.raiseAndRun (s : State) (a : Ant) : Keeps s (s.raiseAndRun a) := by
  have asked : Keeps s (Machine.forEach a.axes (fun s i => s.offerFirst.askRaise i) s) :=
    .forEach (fun s i => (Keeps.offerFreed 4 s).trans (.askRaise ..)) _ s
  exact .ite (asked.trans (.enterRun ..)) asked

theorem Keeps.startRun (s : State) (a : Ant) (g : Segment) : Keeps s (s.startRun a g) :=
  .ite (.enterRun ..) (.ite (.haltQueue ..) (.ite (.haltQueue ..) (.raiseAndRun ..)))

theorem Keeps.startGroup (s : State) (g : GroupId) : Keeps s (s.startGroup g) := by
  have running : Keeps s (s.modGroup g fun v => { v with state := .running, start := some s.now }) :=
    .modGroup fun once => once
  exact running.trans (.forEach (fun _ _ => .ite (.beginProfile ..) (.refl _)) _ _)

theorem Keeps.finishGroup (s : State) (g : GroupId) : Keeps s (s.finishGroup g) :=
  (Keeps.releaseGroup ..).trans (.modGroup fun once => once)

/-! ### Wind and weather -/

theorem Keeps.sampleWind (s : State) (r1 r2 : Int) : Keeps s (s.sampleWind r1 r2) :=
  (Keeps.setField s { s.field with anem1 := r1, anem2 := r2 }).trans
    (.changeWind { s with field := { s.field with anem1 := r1, anem2 := r2 } } fun w => w.sample s.stationIce r1 r2)

/-- A shed cap may fall under the zone's level. -/
theorem Loosens.followFloor (s : State) (z : ZoneId) : Loosens s (s.followFloor z) := by
  unfold State.followFloor
  split
  · exact .modZone (fun _ => Nat.add_le_add_right ‹_› _) id
  · exact .mk

/-- A lowered zone is below its ceiling (R142). -/
theorem State.lowerZone_driven (s : State) (o : Bool) (z : ZoneId) (h : (s.zone z).driven) :
    (s.lowerZone o z).HeaterDriven z := by
  refine (Keeps.markFreedIf (s.modZone z fun v => v.lowerTo (s.ceiling z)) _).heaters z ?_
  have own : (s.modZone z fun v => v.lowerTo (s.ceiling z)).zone z = (s.zone z).lowerTo (s.ceiling z) := by simp
  have same : (s.modZone z fun v => v.lowerTo (s.ceiling z)).ceiling z = s.ceiling z := by
    simp [State.ceiling, State.lockCap, State.heatCovered]
  rw [State.HeaterDriven, own, same, Zone.lowerTo_effective]
  exact ⟨Zone.driven_lowerTo _ h, Nat.min_le_right ..⟩

theorem State.refreshZone_driven (s : State) (z : ZoneId) (h : (s.zone z).driven) : (s.refreshZone z).HeaterDriven z := by
  refine (s.formLevel z).lowerZone_driven true z ?_
  rw [State.formLevel, State.zone_modZone, if_pos rfl]
  exact h

theorem forEach_refreshZone_driven {zs : List ZoneId} {z : ZoneId} (hz : z ∈ zs) (s : State) (h : (s.zone z).driven) :
    (forEach zs (fun s z => s.refreshZone z) s).HeaterDriven z := by
  induction zs generalizing s with
  | nil => cases hz
  | cons y ys ih =>
    obtain rfl | hz := List.mem_cons.1 hz
    · exact (Keeps.forEach (fun s z => .refreshZone s z) ys _).heaters _ (s.refreshZone_driven z h)
    · exact ih hz _ ((Keeps.refreshZone s y).driven z h)

theorem Ant.zones_mem (z : ZoneId) : z ∈ z.ant.zones := by
  obtain ⟨a, c⟩ := z
  cases c <;> simp [Ant.zones]

/-- An event that opens with what moves an antenna's ceilings, and forms its zones afresh. -/
theorem Loosens.closed {a : Ant} (h : Loosens s t) (other : ∀ z, z.ant ≠ a → s.HeaterDriven z → t.HeaterDriven z) :
    Keeps s (t.refreshZones a) :=
  { h.trans (Keeps.refreshZones t a).toLoosens with
    heaters := fun z k => by
      by_cases e : z.ant = a
      · exact e ▸ forEach_refreshZone_driven (Ant.zones_mem z) t (h.driven z k.1)
      · exact (Keeps.refreshZones t a).heaters z (other z e k) }

theorem State.followFloor_other (s : State) {z y : ZoneId} (h : y ≠ z) : (s.followFloor z).zone y = s.zone y := by
  unfold State.followFloor
  split
  · simp [h]
  · rfl

theorem State.followFloor_heaters (s : State) {z y : ZoneId} (h : y ≠ z) (k : s.HeaterDriven y) :
    (s.followFloor z).HeaterDriven y := by
  have other := s.followFloor_other h
  have locks : (s.followFloor z).locks = s.locks := by
    unfold State.followFloor
    split <;> rfl
  rw [State.HeaterDriven, State.ceiling_congr other locks, other]
  exact k

theorem Keeps.afterIceChange (s : State) (a : Ant) : Keeps s (s.afterIceChange a) :=
  (Loosens.followFloor s ⟨a, .surface⟩).closed fun _ e k => s.followFloor_heaters (fun h => e (h ▸ rfl)) k

theorem Keeps.setTracked (s : State) (a : Ant) (c : IceClass) : Keeps s (s.setTracked a c) :=
  ((Keeps.modIce ..).trans (.runIceTimers ..)).trans (.afterIceChange ..)

/-! ### Heater steps -/

theorem capped_le (n : Nat) (c : Option Nat) : capped n c ≤ n := by
  cases c
  · exact le_rfl
  · exact Nat.min_le_left ..

/-- A zone whose ceiling does not fall: the restoration of its cap (R172). -/
theorem Keeps.uncap (s : State) (z : ZoneId) : Keeps s (s.modZone z fun v => { v with shedCap := none }) := by
  have locks : (s.modZone z fun v => { v with shedCap := none }).lockCap z = s.lockCap z := rfl
  refine .lowered le_rfl id fun k => k.trans ?_
  rw [State.ceiling, State.ceiling, locks, State.zone_modZone, if_pos rfl]
  exact capped_le ..

theorem Keeps.restore (s : State) : Keeps s s.restore := by
  unfold State.restore
  split
  · exact (Keeps.uncap ..).trans (.modFeed fun _ => ⟨rfl, rfl, rfl, rfl, rfl⟩)
  · have over_ : Keeps s (s.modFeed fun f =>
        { f with shed := { f.shed with classes := none, deep := false }, cursor := none, lastStep := none }) :=
      .modFeed fun _ => ⟨rfl, rfl, rfl, rfl, rfl⟩
    exact over_.trans (.raise ..)

theorem Keeps.readSensor (s : State) (z : ZoneId) (temp : Int) : Keeps s (s.readSensor z temp) := by
  refine (Keeps.modAntIn ..).trans (.lowered le_rfl id fun k => k.trans (le_of_eq ?_))
  simp only [State.ceiling, State.lockCap, State.heatCovered, State.zone_modZone, if_pos]
  rfl

theorem Keeps.afterReading (s : State) (z : ZoneId) : Keeps s (s.afterReading z) := by
  unfold State.afterReading
  split
  · exact .runIceTimers ..
  · exact .warmed ..
  · exact .refl s

/-- The zone after its step and a frame start: a raise is whole, to the ceiling, and within the room (R141, R143). -/
theorem Keeps.advanceZone (s : State) (z : ZoneId) : Keeps s ((s.advanceZone z).modZone z Zone.drive) := by
  let t := s.modZone z fun v => { v with step := v.nextStep }
  have load : t.load = s.load := by
    have change := s.load_setZone z { s.zone z with step := (s.zone z).nextStep }
    have watts : ({ s.zone z with step := (s.zone z).nextStep } : Zone).committed = (s.zone z).committed := rfl
    show (s.setZone z { s.zone z with step := (s.zone z).nextStep }).load = s.load
    omega
  have own : t.zone z = { s.zone z with step := (s.zone z).nextStep } := by simp [t]
  have still : Keeps s (t.modZone z Zone.drive) := by
    rw [State.modZone_modZone]
    refine .modZone (fun k => Nat.add_le_add_right k _) (fun _ => rfl) fun k => k.trans (le_of_eq ?_)
    simp only [State.ceiling, State.lockCap, State.heatCovered, State.zone_modZone, if_pos]
    rfl
  unfold State.advanceZone
  dsimp only
  split
  swap
  · exact still
  unfold State.frameStart
  split
  next h =>
    have admitted : (((t.zone z).wattsAt (t.ceiling z) - (t.zone z).committed : Nat) : Int) ≤ t.freeRoom - t.reserved :=
      of_decide_eq_true h.2
    have room : t.load + (t.zone z).wattsAt (t.ceiling z) ≤ t.feed.limit + (t.zone z).committed := by
      simp only [State.freeRoom] at admitted
      omega
    rw [State.modZone_modZone, State.modZone_modZone]
    refine .modZone (fun _ => ?_) (fun _ => rfl) fun _ => le_of_eq ?_
    · rw [load, own] at room
      exact room
    · show t.ceiling z = _
      simp only [t, State.ceiling, State.lockCap, State.heatCovered, State.zone_modZone, if_pos]
      rfl
  · exact still

theorem Keeps.heaterStep (s : State) (z : ZoneId) (temp : Int) : Keeps s (s.heaterStep z temp) :=
  (((Keeps.readSensor ..).trans (.refreshZone ..)).trans (.advanceZone ..)).trans (.afterReading ..)

end Sys2Proof.Machine
end

