-- ==== Sys2Proof/Proofs/KeepsRequests.lean ====
section
/-! PROOFS. What the requests do to the part keeps what `Keeps` tells: the answers, the drives, the settings, the heaters, the
weather, the wind and the stow. -/

namespace Sys2Proof.Machine

variable {s t u : State}

/-! ### Answers -/

theorem refuse_keeps (s : State) (c : Status) : Keeps s (refuse s c).state := .refl s

theorem okWith_keeps {b : ReplyBody} (h : Keeps s t) : Keeps s (okWith b t).state := h

theorem check_keeps {b : Bool} {c : Status} {go : Answer} (h : b = true → Keeps s go.state) :
    Keeps s (check s b c go).state := by
  unfold check
  split
  next e => exact h e
  · exact .refl s

theorem withAnt_keeps {n : Nat} {go : Ant → Answer} (h : ∀ a, Keeps s (go a).state) :
    Keeps s (withAnt s n go).state := by
  unfold withAnt
  split
  · exact h _
  · exact .refl s

theorem withCode_keeps {α : Type} {c : Option α} {go : α → Answer} (h : ∀ v, c = some v → Keeps s (go v).state) :
    Keeps s (withCode s c go).state := by
  unfold withCode
  split
  next v => exact h v rfl
  · exact .refl s

theorem withAxis_keeps {n : Nat} {ax : Option AxisName} {go : AxisId → Answer} (h : ∀ i, Keeps s (go i).state) :
    Keeps s (withAxis s n ax go).state := withAnt_keeps fun _ => withCode_keeps fun _ _ => h _

theorem withGroup_keeps {n : Nat} {go : GroupId → Answer} (h : ∀ g, Keeps s (go g).state) :
    Keeps s (withGroup s n go).state := by
  unfold withGroup
  split
  · exact h _
  · exact .refl s

theorem withEntry_keeps {n : Nat} {go : LockEntry → Answer} (h : n < 24 → ∀ e, Keeps s (go e).state) :
    Keeps s (withEntry s n go).state := by
  unfold withEntry withSlot
  split
  next bound =>
    dsimp only
    split
    · exact .refl s
    · exact h bound _
  · exact .refl s

theorem withHeatAnt_keeps {h : HeatSender} {go : Ant → Answer} (k : ∀ a, Keeps s (go a).state) :
    Keeps s (withHeatAnt s h go).state := by
  unfold withHeatAnt
  split
  · exact withAnt_keeps k
  · exact k _

theorem Keeps.setPermits (s : State) (p : Permits) : Keeps s { s with permits := p } := {}

theorem Keeps.countRefusal (s : State) (n : Option Nat) : Keeps s (s.countRefusal n) := by
  unfold State.countRefusal
  split
  · exact .setPermits ..
  · exact .setPermits ..

/-- A request that the table allows goes on from the same state. -/
theorem permitted_keeps {q : Subject} {m : Option Ant} {go : State → Answer} (h : Keeps s (go s).state) :
    Keeps s (s.permitted q m go).state := by
  unfold State.permitted
  split
  · exact h
  · exact .countRefusal ..

theorem planPermitted_keeps {ms : List Proposed} {go : State → Answer} (h : Keeps s (go s).state) :
    Keeps s (s.planPermitted ms go).state := by
  induction ms with
  | nil => exact h
  | cons m rest ih => exact permitted_keeps ih

/-! ### The drives -/

theorem Keeps.disable (s : State) (a : Ant) : Keeps s (s.disable a) := by
  unfold State.disable
  split
  · exact .refl s
  · exact (Keeps.modAnt ..).trans
      (.forEach (fun _ _ => .ite ((Keeps.clearClaims ..).trans (.enterAxis ..)) (.refl _)) _ _)
  · exact (Keeps.modAnt ..).trans (.stopBoth ..)

theorem Keeps.resetAxis (s : State) (i : AxisId) : Keeps s (s.resetAxis i) := by
  unfold State.resetAxis
  split
  · split
    · exact .enterAxis ..
    · exact (Keeps.enterAxis ..).trans (.modAxis ..)
  · exact .refl s

theorem Keeps.resetDrives (s : State) (a : Ant) : Keeps s (s.resetDrives a) := by
  have each : Keeps s (Machine.forEach a.axes (fun s i => s.resetAxis i) s) := .forEach (fun s i => .resetAxis s i) _ s
  exact .ite (each.trans (.redrive ..)) each

theorem Keeps.setEnabled (s : State) (i : AxisId) (e : Enc) (b : Bool) :
    Keeps s ((s.modAxis i fun x => x.setEnabled e b).runFieldTimers i.ant) := (Keeps.modAxis ..).trans (.runFieldTimers ..)

theorem Keeps.writeAxis (s : State) (i : AxisId) (r : AxisRecord) : Keeps s (s.writeAxis i r) :=
  ((Keeps.modAxis ..).trans (.modAnt ..)).trans (.queueWrite fun _ => RecordId.axis_mem i)

/-! ### The feed's figures (R159) -/

/-- A STATION record is taken where the books fit it. -/
theorem Keeps.writeStation {r : StationRecord} (h : s.booksFit r = true) : Keeps s (s.writeStation r) := by
  have fits : r.base + s.driveGrants + s.committed ≤ r.limit := of_decide_eq_true h
  have taken : Keeps s (s.modFeed fun f => f.configure r) := .setFeed fun _ => fits
  have written := taken.trans (.queueWrite (id := .station) fun _ => by decide)
  exact (written.trans (.markFreedIf ..)).trans (.raise ..)

/-! ### Zones (R140, R150) -/

theorem Zone.wattsAt_zero (v : Zone) : v.wattsAt 0 = 0 := by
  have none_ : v.rated * 0 = 0 := Nat.mul_zero _
  rw [Zone.wattsAt, none_, ceilDiv]
  cases e : v.frame with
  | zero => simp
  | succ n => simp

/-- A zone written anew is off, one step before its frame (R140). -/
theorem Keeps.rewriteZone (s : State) (z : ZoneId) (f : ZoneFigures) :
    Keeps s (((s.modZone z fun v => v.rewrite f).followFloor z).formLevel z) := by
  let t := s.modZone z fun v => v.rewrite f
  have off : (t.zone z).effective = 0 ∧ (t.zone z).contactor = false := by simp [t, Zone.rewrite]
  have none_ : ((s.zone z).rewrite f).committed = 0 := by exact Zone.wattsAt_zero _
  have first : Loosens s t := .modZone (fun _ => by omega) fun _ => rfl
  have others {u v : State} {g : Zone → Zone} (e : v = u.modZone z g) {y : ZoneId} (k : y ≠ z)
      (h : u.HeaterDriven y) : v.HeaterDriven y := by
    have other : v.zone y = u.zone y := by simp [e, k]
    rw [State.HeaterDriven, State.ceiling_congr other (e ▸ rfl), other]
    exact h
  have floored : Loosens t (t.followFloor z) := .followFloor ..
  have stays : ((t.followFloor z).zone z).effective = 0 ∧ ((t.followFloor z).zone z).contactor = false := by
    unfold State.followFloor
    split
    · rw [State.zone_modZone, if_pos rfl]; exact off
    · exact off
  have formed : Loosens (t.followFloor z) ((t.followFloor z).formLevel z) :=
    .modZone (fun k => Nat.add_le_add_right k _) id
  refine { (first.trans floored).trans formed with heaters := fun y k => ?_ }
  by_cases e : y = z
  · subst e
    have own : (((t.followFloor y).formLevel y).zone y).effective = 0
        ∧ (((t.followFloor y).formLevel y).zone y).contactor = false := by
      rw [State.formLevel, State.zone_modZone, if_pos rfl]
      exact stays
    refine ⟨?_, own.1.trans_le (Nat.zero_le _)⟩
    rw [Zone.driven, own.1, own.2]
    rfl
  · exact others rfl e ((s.modZone z fun v => v.rewrite f).followFloor_heaters e (others rfl e k))

theorem Keeps.writeZone (s : State) (z : ZoneId) (f : ZoneFigures) : Keeps s (s.writeZone z f) :=
  (((Keeps.rewriteZone s z f).trans (.queueWrite fun _ => RecordId.zone_mem z)).trans (.markFreedIf ..)).trans
    (.raise ..)

theorem Keeps.setHeat (s : State) (z : ZoneId) (m : HeatMode) (n : Option Nat) : Keeps s (s.setHeat z m n) := by
  have formed : Keeps s ((s.modZone z fun v => v.setMode m n).refreshZone z) := .reform rfl id
  exact (Keeps.ite formed (formed.trans (.queueWrite fun _ => RecordId.zone_mem z))).trans (.raise ..)

theorem askHeat_keeps (s : State) (p : Bool) (z : ZoneId) (m : HeatMode) (n : Option Nat) :
    Keeps s (s.askHeat p z m n).state := by
  have asked : Keeps s (s.permitted ⟨p, .heatSet, z.ant, none, none⟩ none fun s =>
      check s (decide (m = (s.zone z).mode) || !s.store.refuses (.zone z)) .full
        (okOrClamped (decide ((s.zone z).frame < n.getD 0)) ((s.setHeat z m n).heatReply z) (s.setHeat z m n))).state :=
    permitted_keeps (check_keeps fun _ => .setHeat ..)
  unfold State.askHeat State.heatAuthority
  split
  · exact check_keeps fun _ => asked
  · exact check_keeps fun _ => asked

/-! ### Weather, wind and stow -/

theorem Keeps.setFloor (s : State) (a : Ant) (c : IceClass) : Keeps s (s.setFloor a c) :=
  .ite (.modIce ..) ((Keeps.modIce ..).trans (.afterIceChange ..))

theorem Keeps.setWeather (s : State) (w : Option Weather) :
    Keeps s { s with heat := { s.heat with weather := w } } := {}

theorem Keeps.report (s : State) (temp : Int) (precip : Bool) : Keeps s (s.report temp precip) :=
  (Keeps.setWeather ..).trans (.runAllIceTimers _)

theorem Keeps.setSafety (s : State) (b : Bool) : Keeps s (s.setSafety b) := .changeWind ..

theorem Keeps.addSilence (s : State) : Keeps s s.addSilence := .changeWind ..

theorem Keeps.writeWind (s : State) (r : WindRecord) : Keeps s (s.writeWind r) := by
  have written := (Keeps.setWind s { s.wind with record := r }).trans (.queueWrite (id := .wind) fun _ => by decide)
  exact .ite (written.trans (.addSilence _)) written

theorem Keeps.releaseStow (s : State) (a : Ant) : Keeps s (s.releaseStow a) := by
  have member : Keeps s (s.releaseMember a) :=
    (((Keeps.leaveWave ..).trans (.setStow ..)).trans (.dropClaims ..)).trans (.setWarning ..)
  unfold State.releaseStow
  split
  · exact .goWithdrawing ..
  · exact .goWithdrawing ..
  · exact .setStow ..
  · exact .setStow ..
  · exact .ite member (.setStow ..)
  · exact .refl s

theorem Keeps.stopAll (s : State) : Keeps s s.stopAll := by
  have ant (s : State) (a : Ant) : Keeps s (s.allStopAnt a) :=
    ((Keeps.haltQueue ..).trans (.terminateBurst ..)).trans (.endJog ..)
  have axes : Keeps s s.allStopAxes := .forEach (fun _ _ => .ite (.stopAxis ..) (.refl _)) _ s
  exact (axes.trans (.forEach (fun s g => .haltGroup s g .allStop none) _ _)).trans (.forEach ant _ _)

end Sys2Proof.Machine
end

