-- ==== Sys2Proof/Proofs/KeepsBursts.lean ====
section
/-! PROOFS. The burst requests and TRACK_CLEAR keep what `Keeps` tells (R51 to R58, R68): a burst that opens has nothing
STAGED yet, and each staged segment goes on where the one before it ends. -/

namespace Sys2Proof.Machine

variable {s t u : State} {a : Ant}

/-! ### BURST_OPEN (R51) -/

/-- With the channel closed the queues hold QUEUED and ACTIVE segments alone (R48). -/
theorem State.QueuesOrdered.live_of_closed (h : s.QueuesOrdered) (closed : s.burst.ant = none) (b : Ant) :
    (s.track b).live = (s.track b).segments := by
  have none_ : (s.track b).stagedSegments = [] := by
    by_contra some_
    exact nomatch closed.symm.trans (h.staged b some_)
  have whole := h.split b
  rw [none_, List.append_nil] at whole
  exact whole

theorem Keeps.openBurst {anchor : Option (PerAxis Mdeg)} (closed : s.burst.ant = none) :
    Keeps s (s.openBurst a anchor) where
  queues h := {
    h with
    staged := fun b some_ => nomatch closed.symm.trans (h.staged b some_)
    tail := fun b g own l => by
      cases own
      have lastLive : (s.track a).lastLive = some g := by rw [Track.lastLive, h.live_of_closed closed]; exact l
      refine ⟨⟨some g.finish, g.endPos, g.pairs, g.last⟩, ?_, rfl, rfl⟩
      show some ((s.track a).openingTail anchor) = _
      rw [Track.openingTail, lastLive] }

/-! ### BURST_DATA (R52 to R56) -/

/-- What a segment that passes its checks follows (R53). -/
theorem State.segmentFails_follows {c : ChainTail} {r : SegmentRecord} (h : s.segmentFails a c r = none) :
    c.follows s.now r = true := by
  unfold State.segmentFails at h
  split at h
  · cases h
  next ok => simpa using ok

/-- The segment goes on where the queue ends, and lasts as R52 tells. -/
theorem State.QueuesOrdered.stage {g : Segment} (h : s.QueuesOrdered) (own : s.burst.ant = some a)
    (state : g.state = .staged) (lasts : 10 ≤ g.duration ∧ g.duration ≤ 10000 ∧ g.duration % 10 = 0)
    (behind : ∀ l, (s.track a).segments.getLast? = some l → g.start = l.finish ∧ g.startPos = l.endPos) :
    (s.stageSegment a g).QueuesOrdered := by
  have track (b : Ant) : ((s.stageSegment a g).track b).segments =
      if b = a then (s.track a).segments ++ [g] else (s.track b).segments := by
    show ((s.modTrack a fun q => { q with segments := q.segments ++ [g] }).track b).segments = _
    rw [State.track_modTrack]
    split <;> rfl
  have mem (b : Ant) (x : Segment) (hx : x ∈ ((s.stageSegment a g).track b).segments) :
      x ∈ (s.track b).segments ∨ x = g := by
    rw [track] at hx
    split at hx
    next e => exact e ▸ (List.mem_append.1 hx).imp_right List.mem_singleton.1
    · exact .inl hx
  have lasts_ (b : Ant) (x : Segment) (hx : x ∈ ((s.stageSegment a g).track b).segments) :
      10 ≤ x.duration ∧ x.duration ≤ 10000 ∧ x.duration % 10 = 0 :=
    (mem b x hx).elim (h.lasts b x) fun e => e ▸ lasts
  have follows (b : Ant) : ((s.stageSegment a g).track b).segments.IsChain
      fun g h => h.start = g.finish ∧ h.startPos = g.endPos := by
    rw [track]
    split
    · refine List.isChain_append.2 ⟨h.follows a, .singleton g, fun l hl x hx => ?_⟩
      cases hx
      exact behind l hl
    · exact h.follows b
  refine { order := fun b => ?_, staged := fun b k => ?_, follows := follows, lasts := lasts_, rises := fun b => ?_,
           tail := fun b x k l => ?_ }
  · rw [track]
    split
    · refine List.pairwise_append.2 ⟨h.order a, List.pairwise_singleton .., fun x _ y hy => ?_⟩
      rw [List.mem_singleton.1 hy, state]
      exact ⟨by cases x.state <;> decide, by decide⟩
    · exact h.order b
  · by_cases e : b = a
    · exact e ▸ own
    · refine h.staged b ?_
      rwa [Track.stagedSegments, track, if_neg e] at k
  · exact starts_rise ((follows b).imp fun _ _ => And.left) fun x hx => by have := lasts_ b x hx; omega
  · have e : b = a := Option.some.inj (k.symm.trans own)
    rw [track, if_pos e, List.getLast?_concat] at l
    cases l
    exact ⟨g.tail, rfl, rfl, rfl⟩

theorem Keeps.stageSegment {g : Segment} (queues : s.QueuesOrdered → (s.stageSegment a g).QueuesOrdered) :
    Keeps s (s.stageSegment a g) where
  queues := queues

theorem State.takeSegment_ant (s : State) (a : Ant) (b : List Byte) : (s.takeSegment a b).burst.ant = s.burst.ant := by
  unfold State.takeSegment
  dsimp only
  split
  · split
    · rfl
    · rfl
  · rfl

theorem Keeps.takeSegment {b : List Byte} (own : s.burst.ant = some a) (formed : (segmentOf b).formed = true) :
    Keeps s (s.takeSegment a b) := by
  unfold State.takeSegment
  dsimp only
  have counted : Keeps s { s with burst :=
      { s.burst with received := s.burst.received + 1, crc := crc32Run s.burst.crc b } } := .setBurst rfl rfl
  split
  next c _ tail =>
    split
    next passes =>
      simp only [SegmentRecord.formed, Bool.and_eq_true, decide_eq_true_eq] at formed
      obtain ⟨⟨⟨short, long⟩, tens⟩, -⟩ := formed
      refine counted.trans (.stageSegment fun h => h.stage own rfl ⟨short, long, tens⟩ fun l hl => ?_)
      obtain ⟨e, he, ends, pos⟩ := h.tail a l own hl
      obtain rfl : c = e := Option.some.inj (tail.symm.trans he)
      have follows := (ChainTail.follows_iff ..).1 (State.segmentFails_follows passes)
      exact ⟨(follows.2 _ ends).2, pos⟩
    · exact counted.trans (.setBurst rfl rfl)
  · exact counted

theorem Keeps.takeSegments {rs : List (List Byte)} (own : s.burst.ant = some a)
    (formed : ∀ b ∈ rs, (segmentOf b).formed = true) :
    Keeps s (Machine.forEach rs (fun s b => s.takeSegment a b) s) := by
  induction rs generalizing s with
  | nil => exact .refl s
  | cons b rs ih =>
    have own' : (s.takeSegment a b).burst.ant = some a := (s.takeSegment_ant a b).trans own
    exact (Keeps.takeSegment own (formed b List.mem_cons_self)).trans
      (ih own' fun x hx => formed x (List.mem_cons_of_mem _ hx))

theorem takeData_keeps {rs : List (List Byte)} (own : s.burst.ant = some a) (h : burstMalformed rs = false) :
    Keeps s (s.takeData a rs).state := by
  have formed (b : List Byte) (hb : b ∈ rs) : (segmentOf b).formed = true := by
    have none_ := (Bool.or_eq_false_iff.1 h).2
    simpa using List.any_eq_false.1 none_ b hb
  have timed : Keeps s { s with burst := { s.burst with lastFrame := some s.now } } := .setBurst rfl rfl
  have taken := timed.trans (.takeSegments (rs := rs) own formed)
  exact .ite (taken.trans (.modTrack fun _ => rfl)) taken

theorem noBurst_keeps (s : State) : Keeps s s.noBurst.state := by
  unfold State.noBurst
  split
  · exact .refl s
  · exact .setBurst rfl rfl

theorem burstData_keeps (s : State) (body : List Byte) : Keeps s (s.burstData body).state := by
  unfold State.burstData
  split
  · exact .refl s
  · split
    · exact noBurst_keeps s
    next own =>
      split
      · exact .refl s
      next formed => exact takeData_keeps own (Bool.eq_false_iff.2 formed)

/-! ### BURST_CLOSE and BURST_ABORT (R57, R58) -/

/-- The state of a segment after a commit (R57). -/
theorem Track.commit_course (q : Track) : q.commit.segments.map Segment.course = q.segments.map Segment.course := by
  rw [Track.commit, List.map_map]
  refine List.map_congr_left fun g _ => ?_
  dsimp only [Function.comp]
  split <;> rfl

theorem Track.commit_staged (q : Track) : q.commit.stagedSegments = [] := by
  refine List.filter_eq_nil_iff.2 fun g hg => ?_
  obtain ⟨f, _, rfl⟩ := List.mem_map.1 hg
  split
  · simp
  next e => simpa using e

/-- A committed segment keeps its place before and behind the others (R48). -/
theorem committed_order {x y : Segment} (h : x.state.rank ≤ y.state.rank ∧ y.state ≠ .active) :
    let committed (g : Segment) : Segment := if g.state = .staged then { g with state := .queued } else g
    (committed x).state.rank ≤ (committed y).state.rank ∧ (committed y).state ≠ .active := by
  have state (g : Segment) : (if g.state = .staged then { g with state := .queued } else g).state
      = if g.state = .staged then .queued else g.state := by split <;> rfl
  obtain ⟨rank, idle⟩ := h
  dsimp only
  rw [state, state]
  cases ey : y.state with
  | active => exact absurd ey idle
  | queued =>
    refine ⟨?_, by decide⟩
    cases ex : x.state with
    | staged => rw [ex, ey] at rank; exact absurd rank (by decide)
    | _ => decide
  | staged => exact ⟨by cases x.state <;> decide, by decide⟩

/-- A commit closes the channel and queues what is STAGED (R57). -/
theorem Keeps.commit (own : s.burst.ant = some a) :
    Keeps s (({ s with burst := s.burst.closed } : State).modTrack a Track.commit) := by
  let t := ({ s with burst := s.burst.closed } : State).modTrack a Track.commit
  have track (b : Ant) : t.track b = if b = a then (s.track a).commit else s.track b := State.track_modTrack ..
  refine .setQueues fun h => h.of_courses (fun b => ?_) (fun b => ?_) (fun b k => absurd ?_ k) fun b k => nomatch k
  · show (t.track b).segments.map _ = _
    rw [track]
    split
    next e => exact e ▸ Track.commit_course _
    · rfl
  · show (t.track b).segments.Pairwise _
    rw [track]
    split
    · exact List.pairwise_map.2 ((h.order a).imp committed_order)
    · exact h.order b
  · show (t.track b).stagedSegments = []
    rw [track]
    split
    · exact Track.commit_staged _
    next e =>
      by_contra some_
      exact e (Option.some.inj ((h.staged b some_).symm.trans own))

theorem Keeps.commitBurst (own : s.burst.ant = some a) : Keeps s (s.commitBurst a) := by
  unfold State.commitBurst
  dsimp only
  split
  · exact .commit own
  · exact .ite ((Keeps.commit own).trans (.beginQueue ..)) (.commit own)

theorem closeBurst_keeps {n : Nat} {crc : BitVec 32} (own : s.burst.ant = some a) :
    Keeps s (s.closeBurst a n crc).state := by
  unfold State.closeBurst
  split
  · exact .discardBurst own
  · exact .discardBurst own
  · split
    · exact .discardBurst own
    · split
      · exact .discardBurst own
      · exact .commitBurst own

/-! ### TRACK_CLEAR (R68) -/

theorem Keeps.clearTrack (s : State) (a : Ant) : Keeps s (s.clearTrack a) := by
  have segments (b : Ant) : ((s.modTrack a Track.cleared).track b).segments =
      if b = a then [] else (s.track b).segments := by
    rw [State.track_modTrack]
    split <;> rfl
  have cleared : Keeps s (s.modTrack a Track.cleared) := by
    refine .setTrack fun h => h.of_infix (fun b => ?_) (fun _ _ => rfl) fun b g k l => ⟨k, ?_, rfl⟩
    · rw [segments]
      split
      · exact List.nil_infix
      · exact List.infix_rfl
    · rw [segments] at l
      split at l
      · cases l
      · exact l
  exact (Keeps.ite cleared (cleared.trans (.releaseRun ..))).trans (.raise ..)

end Sys2Proof.Machine
end

