-- ==== Sys2Proof/Proofs/KeepsTables.lean ====
section
/-! PROOFS. The requests on groups, lockouts, local control and permits keep what `Keeps` tells. -/

namespace Sys2Proof.Machine

variable {s t u : State}

/-! ### Groups (R73 to R78, R89) -/

theorem distinctAnts_nodup {ms : List Proposed} (h : distinctAnts ms = true) : (ms.map Proposed.ant).Nodup := by
  induction ms with
  | nil => exact .nil
  | cons m rest ih =>
    obtain ⟨fresh, rest_⟩ := (Bool.and_eq_true _ _).mp h
    refine List.nodup_cons.2 ⟨fun hm => ?_, ih rest_⟩
    obtain ⟨n, hn, same⟩ := List.mem_map.1 hm
    exact of_decide_eq_true (List.all_eq_true.1 fresh n hn) same

theorem proposedMembers_nodup {args : List MemberArg} {ms : List Proposed} (h : proposedMembers args = some ms) :
    (ms.map Proposed.ant).Nodup := by
  unfold proposedMembers at h
  dsimp only at h
  split at h
  next whole =>
    cases h
    exact distinctAnts_nodup whole.2.2.2
  · cases h

/-- A plan names the antennas of its request (R75). -/
theorem planInto_keeps {g : GroupId} {ms : List Proposed} (once : (ms.map Proposed.ant).Nodup) :
    Keeps s (s.planInto g ms).state := by
  unfold State.planInto
  split
  next tg0 k tg demand planned success =>
    show Keeps s (s.modGroup g fun _ => plannedGroup tg0 k tg demand planned)
    refine .modGroup fun _ => ?_
    obtain ⟨n, rfl⟩ := planGroup_members success
    have ants : (plannedGroup tg0 k tg demand (planAgainst (fun i => (s.axis i).record) (s.courses ms) n)).ants
        = ms.map Proposed.ant := by
      simp only [Group.ants, plannedGroup, planAgainst, State.courses, List.map_map]
      rfl
    exact ants ▸ once
  · exact .refl s
  · exact .refl s

theorem planChecked_keeps {g : GroupId} {ms : List Proposed} (once : (ms.map Proposed.ant).Nodup) :
    Keeps s (s.planChecked g ms).state := by
  unfold State.planChecked
  split
  · exact .refl s
  · exact planPermitted_keeps (planInto_keeps once)

theorem Group.axes_nodup {g : Group} (once : g.ants.Nodup) : g.axes.Nodup := by
  refine List.nodup_flatMap.2 ⟨fun a _ => Ant.axes_nodup a, once.imp fun {a b} apart i ha hb => apart ?_⟩
  have own (c : Ant) (h : i ∈ c.axes) : i.ant = c := by
    simp only [Ant.axes, List.mem_cons, List.not_mem_nil, or_false] at h
    exact h.elim (congrArg AxisId.ant) (congrArg AxisId.ant)
  exact (own a ha).symm.trans (own b hb)

theorem State.capZone_groups (s : State) (o d : Bool) (z : ZoneId) : (s.capZone o d z).groups = s.groups :=
  State.markFreedIf_keeps State.groups _ _ rfl

theorem State.makeRoom_groups (s : State) (f : Fit) (d : Bool) : (s.makeRoom f d).groups = s.groups := by
  have shed (o g d : Bool) : (s.imposeShed o g d).groups = s.groups := by
    unfold State.imposeShed State.raiseIf
    dsimp only
    split
    · exact forEach_keeps State.groups (fun s z => s.capZone_groups o _ z) _ _
    · exact forEach_keeps State.groups (fun s z => s.capZone_groups o _ z) _ _
  unfold State.makeRoom
  split
  · exact shed ..
  · exact shed ..
  · rfl

theorem armGranted_keeps (s : State) (g : GroupId) (e : Epoch) : Keeps s (s.armGranted g e).state := by
  unfold State.armGranted
  dsimp only
  split
  · exact .refl s
  next short =>
    let r := s.groups.get g
    let f := s.fit r.demand (sumOf r.axes s.foldable) false
    let t := s.makeRoom f false
    have made : Keeps s t := .makeRoom ..
    have room : (r.demand : Int) ≤ t.freeRoom + sumOf r.axes t.foldable := by
      have same : sumOf r.axes t.foldable = sumOf r.axes s.foldable :=
        sumOf_congr fun i _ => s.foldable_makeRoom f false i
      rw [same]
      exact State.fit_room short
    have groups : t.groups = s.groups := s.makeRoom_groups f false
    have once (k : t.Afford) : r.axes.Nodup := Group.axes_nodup (by simpa only [groups] using k.2.1 g)
    have granted : Keeps t (t.grantGroup g r.demand r.axes) := .grantGroup once room
    have armed := (granted.trans (.afterGrant _ f (sumOf r.axes s.foldable))).trans
      (.modGroup (g := g) (f := fun v => { v with state := .armed, held := true, start := some e }) id)
    exact (made.trans armed).trans (.forEach (fun s i => .addClaim s i .group) r.axes _)

theorem armUncovered_keeps (s : State) (g : GroupId) (e : Epoch) : Keeps s (s.armUncovered g e).state := by
  unfold State.armUncovered
  split
  · exact .refl s
  · exact armGranted_keeps ..

theorem cancelGroup_keeps (s : State) (g : GroupId) : Keeps s (s.cancelGroup g).state := by
  unfold State.cancelGroup
  split
  · exact .refl s
  · exact .emptyGroup ..
  · exact (Keeps.releaseGroup ..).trans (.emptyGroup ..)
  · exact .haltGroup ..
  · exact .emptyGroup ..
  · split
    · exact .refl s
    · exact .emptyGroup ..

/-! ### Lockouts (R92 to R99) -/

theorem State.heatCovered_iff (s : State) (a : Ant) : s.heatCovered a = true ↔
    ∃ n e, s.locks.slot n = some e ∧ e.cover.heat = true ∧ e.reaches a = true := by
  simp only [State.heatCovered, List.any_eq_true, Locks.mem_entries, Bool.and_eq_true]
  exact ⟨fun ⟨e, ⟨n, h⟩, k⟩ => ⟨n, e, h, k⟩, fun ⟨n, e, h, k⟩ => ⟨e, ⟨n, h⟩, k⟩⟩

/-- A zone that no further entry covers stays below its ceiling (R149). -/
theorem State.HeaterDriven.of_cover {z : ZoneId} (h : s.HeaterDriven z) (hz : t.zone z = s.zone z)
    (hc : t.heatCovered z.ant = true → s.heatCovered z.ant = true) : t.HeaterDriven z := by
  have higher : s.ceiling z ≤ t.ceiling z := by
    rw [State.ceiling, State.ceiling, hz, State.lockCap, State.lockCap]
    by_cases k : t.heatCovered z.ant = true
    · rw [if_pos k, if_pos (hc k)]
    · rw [if_neg k]
      cases (s.zone z).shedCap with
      | none => exact (capped_le ..).trans (capped_le ..)
      | some c => exact min_le_min_right c (capped_le ..)
  rw [State.HeaterDriven, hz]
  exact ⟨h.1, h.2.trans higher⟩

theorem Placement.keyOf_iff (p : Placement) (e : LockEntry) :
    p.keyOf e = true ↔ e.key = (p.scope, p.cls, p.holder, p.badge) := by
  simp [Placement.keyOf, LockEntry.key, and_assoc]

/-- The table after a change of one slot. -/
theorem Loosens.setLocks {l : Locks} (length : l.slots.length = s.locks.slots.length)
    (keys : KeysOnce s.locks.slots → KeysOnce l.slots) : Loosens s { s with locks := l } where
  names := fun ⟨slots, rest⟩ => ⟨length.trans slots, rest⟩
  keys := keys

theorem Loosens.mergeEntry {n : Nat} {p : Placement} {e : LockEntry} (at_ : s.locks.slot n = some e) :
    Loosens s (s.mergeEntry n p) := by
  refine .setLocks (modAt_length ..) fun once => Locks.keysOnce_setSlot once fun f hf m g other hg same => other ?_
  rw [at_] at hf
  cases hf
  exact s.locks.keysOnce_iff.1 once m n g e hg at_ same

theorem Loosens.createEntry {n : Nat} {p : Placement} (fresh : s.locks.findKey p = none) :
    Loosens s (s.createEntry n p) := by
  have created : Loosens s { s with locks := { s.locks.setSlot n (some (p.entry s.now s.store.nextCreation)) with
      order := s.locks.order ++ [n] } } := by
    refine .setLocks (modAt_length ..) fun once => Locks.keysOnce_setSlot once fun f hf m g _ hg same => ?_
    cases hf
    have key := (p.keyOf_iff g).2 same
    rw [Locks.findKey_none fresh hg] at key
    cases key
  exact created.trans (Keeps.setStoreMarks {}).toLoosens

theorem Loosens.placeEntry (s : State) (p : Placement) : Loosens s (s.placeEntry p) := by
  unfold State.placeEntry
  split
  · exact (Keeps.refl s).toLoosens
  next n changed judged =>
    obtain ⟨⟨e, at_, _⟩, _⟩ := Locks.judge_merged judged
    have merged : Loosens s (s.mergeEntry n p) := .mergeEntry at_
    split
    · refine merged.trans (Keeps.queueWrite fun k => RecordId.lockout_mem ?_).toLoosens
      have short := Locks.slot_length (l := s.locks) (n := n) (by rw [at_]; rfl)
      have length : (s.mergeEntry n p).locks.slots.length = s.locks.slots.length := modAt_length ..
      exact k.1 ▸ length ▸ short
    · exact (Keeps.refl s).toLoosens
  next n judged =>
    obtain ⟨fresh, short, _⟩ := Locks.judge_created judged
    have created : Loosens s (s.createEntry n p) := .createEntry fresh
    refine created.trans (Keeps.queueWrite fun k => RecordId.lockout_mem ?_).toLoosens
    have length : (s.createEntry n p).locks.slots.length = s.locks.slots.length := modAt_length ..
    exact k.1 ▸ length ▸ short

theorem State.placeEntry_zone (s : State) (p : Placement) (z : ZoneId) : (s.placeEntry p).zone z = s.zone z := by
  unfold State.placeEntry
  split
  · rfl
  · split <;> rfl
  · rfl

/-- An entry of the table after a placement stood before it, or is the placement's (R94). -/
theorem slot_placeEntry {p : Placement} {m : Nat} {e : LockEntry} (h : (s.placeEntry p).locks.slot m = some e) :
    s.locks.slot m = some e ∨ e.scope = p.scope := by
  cases judged : s.locks.judge p with
  | full => rw [State.placeEntry, judged] at h; exact .inl h
  | merged n c =>
    rw [slot_placeEntry_merged judged] at h
    split at h
    · obtain ⟨⟨f, at_, key⟩, _⟩ := Locks.judge_merged judged
      rw [at_] at h
      cases h
      exact .inr (congrArg Prod.fst ((p.keyOf_iff f).1 key))
    · exact .inl h
  | created n =>
    rw [slot_placeEntry_created judged] at h
    split at h
    · cases h
      exact .inr rfl
    · exact .inl h

/-- Antennas whose zones are lowered one after the other stand below their ceilings. -/
theorem Loosens.lowered {as : List Ant} {f : State → Ant → State} (h : Loosens s t) (each : ∀ s a, Keeps s (f s a))
    (other : ∀ z, z.ant ∉ as → s.HeaterDriven z → t.HeaterDriven z) :
    Keeps s (Machine.forEach as (fun s a => (f s a).lowerZones a) t) := by
  have step (s : State) (a : Ant) : Keeps s ((f s a).lowerZones a) := (each s a).trans (.lowerZones ..)
  have zone {zs : List ZoneId} {z : ZoneId} (hz : z ∈ zs) (s : State) (k : (s.zone z).driven) :
      (Machine.forEach zs (fun s z => s.lowerZone true z) s).HeaterDriven z := by
    induction zs generalizing s with
    | nil => cases hz
    | cons y ys ih =>
      obtain rfl | hz := List.mem_cons.1 hz
      · exact (Keeps.forEach (fun s z => .lowerZone s true z) ys _).heaters _ (s.lowerZone_driven true z k)
      · exact ih hz _ ((Keeps.lowerZone s true y).driven z k)
  have reached {as : List Ant} {z : ZoneId} (hz : z.ant ∈ as) (s : State) (k : (s.zone z).driven) :
      (Machine.forEach as (fun s a => (f s a).lowerZones a) s).HeaterDriven z := by
    induction as generalizing s with
    | nil => cases hz
    | cons a as ih =>
      obtain e | hz := List.mem_cons.1 hz
      · refine (Keeps.forEach step as _).heaters z ?_
        exact zone (e ▸ Ant.zones_mem z) _ ((each s a).driven z k)
      · exact ih hz _ ((step s a).driven z k)
  have all := Keeps.forEach step as t
  refine { h.trans all.toLoosens with heaters := fun z k => ?_ }
  by_cases e : z.ant ∈ as
  · exact reached e t (h.driven z k.1)
  · exact all.heaters z (other z e k)

theorem Keeps.handOnCover (s : State) (fresh : AxisId → Bool) (a : Ant) : Keeps s (s.handOnCover fresh a) := by
  have stopped := (((Keeps.forEach (fun s i => .stopAxis s i .lockout .braked) (newAxes fresh a) s).trans
    (.haltQueue _ a .lockout)).trans (.terminateBurst _ a .lockout)).trans (.haltGroupOf _ a .lockout none)
  unfold State.handOnCover
  refine .ite (.refl s) ?_
  dsimp only
  refine Keeps.trans ?_ (.stowCovered ..)
  split
  · exact stopped
  · exact .ite (stopped.trans (.endJog ..)) stopped

theorem placeLock_keeps (s : State) (p : Placement) : Keeps s (s.placeLock p).state := by
  have placed : Keeps s ((s.placeEntry p).applyCover s (s.locks.judge p).slot p.scope) := by
    refine (Loosens.placeEntry s p).lowered (fun s a => .handOnCover s _ a) fun z far k => ?_
    refine k.of_cover (s.placeEntry_zone p z) fun covered => ?_
    obtain ⟨n, e, at_, heat, reaches⟩ := (State.heatCovered_iff ..).1 covered
    obtain old | scope := slot_placeEntry at_
    · exact (State.heatCovered_iff ..).2 ⟨n, e, old, heat, reaches⟩
    · exact absurd ((scopeAnts_reaches e z.ant).2 reaches) (scope ▸ far)
  unfold State.placeLock
  dsimp only
  split
  · exact .refl s
  · exact placed
  · exact placed

theorem askPlacement_keeps (s : State) (p : Option Placement) : Keeps s (s.askPlacement p).state := by
  unfold State.askPlacement
  split
  · exact .refl s
  · split
    · exact placeLock_keeps ..
    · exact .refl s

/-- An emptied slot covers no zone, and has no key (R98). -/
theorem Keeps.removeEntry {n : Nat} (e : LockEntry) (short : n < 24) : Keeps s (s.removeEntry n e) := by
  let t : State := { s with locks := { s.locks.setSlot n none with
    order := s.locks.order.filter fun m => decide (m ≠ n) } }
  have emptied : Loosens s t :=
    .setLocks (modAt_length ..) fun once => Locks.keysOnce_setSlot once fun f hf => nomatch hf
  have taken : Keeps s t := { emptied with
    heaters := fun z k => k.of_cover rfl fun covered => by
      obtain ⟨m, x, at_, heat, reaches⟩ := (State.heatCovered_iff ..).1 covered
      refine (State.heatCovered_iff ..).2 ⟨m, x, ?_, heat, reaches⟩
      have slot : t.locks.slot m = if m = n ∧ n < s.locks.slots.length then none else s.locks.slot m :=
        Locks.slot_setSlot ..
      rw [slot] at at_
      split at at_
      · cases at_
      · exact at_ }
  exact (taken.trans (.queueWrite fun _ => RecordId.lockout_mem short)).trans
    (.forEach (fun s a => .coverRemoved s a) _ _)

theorem takeOut_keeps {n : Nat} (e : LockEntry) (short : n < 24) : Keeps s (s.takeOut n e).state :=
  check_keeps fun _ => .removeEntry e short

theorem removeFor_keeps (s : State) (n : Nat) (k : LockTarget) (c : LockClass) : Keeps s (s.removeFor n k c).state :=
  withEntry_keeps fun short e => check_keeps fun _ => check_keeps fun _ => takeOut_keeps e short

theorem removeOwn_keeps (s : State) (n : Nat) (p : Ant) (b : Nat) : Keeps s (s.removeOwn n p b).state :=
  withEntry_keeps fun short e => check_keeps fun _ => takeOut_keeps e short

theorem forceOut_keeps {n : Nat} (e : LockEntry) (short : n < 24) : Keeps s (s.forceOut n e).state :=
  check_keeps fun _ => (Keeps.removeEntry e short).trans (.forEach (fun s a => .startForceTimer s a) _ _)

/-! ### Local control and permits -/

theorem Keeps.claimLocal (s : State) (a : Ant) : Keeps s (s.claimLocal a) :=
  ((Keeps.modAuthority ..).trans (.haltQueue ..)).trans (.terminateBurst ..)

theorem Keeps.clearJog (s : State) (a : Ant) : Keeps s (s.clearJog a) := .modAuthority ..

theorem Keeps.holdJog (s : State) (i : AxisId) (d : Direction) (v : Nat) : Keeps s (s.holdJog i d v) := by
  unfold State.holdJog
  split
  · exact .modJog ..
  · exact (Keeps.modAuthority ..).trans (.addClaim ..)

theorem Keeps.raiseJog (s : State) (i : AxisId) : Keeps s (s.raiseJog i) :=
  .ite ((Keeps.modJog ..).trans (.askNeed ..)) (.refl s)

theorem jogReply_state (b : Bool) (i : AxisId) (s : State) : (jogReply b i s).state = s := by
  unfold jogReply
  split <;> rfl

theorem takeJog_keeps (s : State) (i : AxisId) (d : Direction) (v : Nat) : Keeps s (s.takeJog i d v).state := by
  rw [State.takeJog, jogReply_state]
  exact (Keeps.holdJog ..).trans (.raiseJog ..)

theorem jogPermitted_keeps (s : State) (i : AxisId) (d : Direction) (v : Nat) :
    Keeps s (s.jogPermitted i d v).state := by
  unfold State.jogPermitted
  split
  · exact .clearJog ..
  · exact permitted_keeps (takeJog_keeps ..)

theorem askJog_keeps (s : State) (i : AxisId) (d : Direction) (v : Nat) : Keeps s (s.askJog i d v).state := by
  refine check_keeps fun _ => check_keeps fun _ => check_keeps fun _ => ?_
  split
  · unfold State.jogFaulted
    split
    · exact .clearJog ..
    · exact .refl s
  · exact check_keeps fun _ => check_keeps fun _ => jogPermitted_keeps ..

theorem permitArgEntry_index {p : PermitArg} {e : PermitEntry} (h : permitArgEntry p = some e) : p.index < 32 := by
  unfold permitArgEntry at h
  split at h
  next short => exact short
  · cases h

theorem askPermit_keeps (s : State) (p : PermitArg) : Keeps s (s.askPermit p).state :=
  withCode_keeps fun _ he => check_keeps fun _ =>
    (Keeps.setPermits ..).trans (.queueWrite fun _ => RecordId.permit_mem (permitArgEntry_index he))

theorem askDefault_keeps (s : State) (v : Option Verdict) : Keeps s (s.askDefault v).state :=
  withCode_keeps fun _ _ => check_keeps fun _ => (Keeps.setPermits ..).trans (.queueWrite fun _ => by decide)

end Sys2Proof.Machine
end

