-- ==== Sys2Proof/Proofs/KeepsCommands.lean ====
section
/-! PROOFS. What a command keeps: the feed limit, the heaters, the queues' order, the store's names and the table's keys, the
traffic of the links it does not come over, and the flags and notices that its changes call for (R195, R196). -/

namespace Sys2Proof.Machine

variable {s t u : State} {reach : Link → Prop} {l : Link}

/-! ### What a command keeps -/

/-- A command keeps the feed limit, the heaters, the order of the queues, the names in the store and the keys. -/
structure Holds (s t : State) : Prop where
  afford : s.Afford → t.Afford
  heaters : ∀ z, s.HeaterDriven z → t.HeaterDriven z
  queues : s.QueuesOrdered → t.QueuesOrdered
  names : s.StoreNamed → t.StoreNamed
  keys : KeysOnce s.locks.slots → KeysOnce t.locks.slots

/-- It changes the traffic of the links in its reach alone. -/
structure Reaches (reach : Link → Prop) (s t : State) : Prop extends Holds s t where
  other : ∀ k, ¬ reach k → (t.link k).traffic = (s.link k).traffic

/-- Within its event it sets flags as they are set at once, on every link that carries them, and builds no notice. -/
structure Passes (reach : Link → Prop) (s t : State) : Prop extends Reaches reach s t where
  flags : ∃ w, t.scratch.early = s.scratch.early ||| w ∧ ∀ k, (t.link k).flags = (s.link k).flags ||| (w &&& Link.mask k)
  sequence : ∀ k, (t.link k).sequence = (s.link k).sequence

/-- The flags that an event's changes call for are set, none is cleared, and one notice tells of them (R195, R196). -/
structure Told (s t : State) : Prop where
  flagged : t.flagged (changesBetween s t)
  kept : ∀ k, (t.link k).flags &&& (s.link k).flags = (s.link k).flags
  notices : ∀ k, (s.link k).enable = true → (t.link k).enable = true → (t.link k).flags ≠ (s.link k).flags →
    (t.link k).notice = some ⟨(s.link k).sequence + 1, (t.link k).flags⟩ ∧ (t.link k).sequence = (s.link k).sequence + 1

/-- A whole command leaves the marks of the event, or clears them all. -/
structure Ends (reach : Link → Prop) (s t : State) : Prop extends Reaches reach s t where
  marks : t.scratch = s.scratch ∨ t.scratch = ⟨false, false, 0, 0⟩

/-- A command that tells of its changes. -/
structure Runs (reach : Link → Prop) (s t : State) : Prop extends Ends reach s t where
  told : s.scratch.early = 0 → Told s t

theorem Holds.refl (s : State) : Holds s s := ⟨id, fun _ => id, id, id, id⟩

theorem Holds.trans (h : Holds s t) (k : Holds t u) : Holds s u where
  afford := k.afford ∘ h.afford
  heaters z := k.heaters z ∘ h.heaters z
  queues := k.queues ∘ h.queues
  names := k.names ∘ h.names
  keys := k.keys ∘ h.keys

theorem Keeps.holds (h : Keeps s t) : Holds s t := ⟨h.afford, h.heaters, h.queues, h.names, h.keys⟩

theorem Keeps.passes (h : Keeps s t) : Passes reach s t := by
  have link (k : Link) : t.link k = s.link k := congrArg (Links.get · k) h.links
  refine { h.holds with other := fun k _ => by rw [link], flags := ⟨0, ?_, fun k => ?_⟩, sequence := fun k => by rw [link] }
  · simp [h.early]
  · rw [link]; simp

theorem and_or_mask (f v w c : FlagWord) : f ||| (v &&& c) ||| (w &&& c) = f ||| ((v ||| w) &&& c) := by
  ext n
  simp only [BitVec.getElem_or, BitVec.getElem_and, Bool.and_or_distrib_right, Bool.or_assoc]

theorem Passes.trans (h : Passes reach s t) (k : Passes reach t u) : Passes reach s u := by
  obtain ⟨v, early, flags⟩ := h.flags
  obtain ⟨w, early', flags'⟩ := k.flags
  refine {
    h.toHolds.trans k.toHolds with
    other := fun m far => (k.other m far).trans (h.other m far)
    flags := ⟨v ||| w, by rw [early', early, BitVec.or_assoc], fun m => ?_⟩
    sequence := fun m => (k.sequence m).trans (h.sequence m) }
  rw [flags', flags, and_or_mask]

theorem Passes.then (h : Passes reach s t) (k : Keeps t u) : Passes reach s u := h.trans k.passes

/-! ### The end of an event -/

theorem announce_changes (s t : State) : changesBetween s (announce s t) = changesBetween s t := rfl

/-- What an event's end leaves of a link's record. -/
theorem announce_traffic (s t : State) (k : Link) : ((announce s t).link k).traffic = (t.link k).traffic := by
  rw [announce_link]
  unfold LinkRecord.conclude
  dsimp only
  split <;> rfl

/-- The flags after an event are those before it, with those set at once and at its end (R195). -/
theorem or_early_late (f e w c : FlagWord) : f ||| (e &&& c) ||| ((w &&& ~~~e) &&& c) = f ||| ((e ||| w) &&& c) := by
  ext n
  simp only [BitVec.getElem_or, BitVec.getElem_and, BitVec.getElem_not]
  cases f[n] <;> cases e[n] <;> simp

/-- An event's end tells of what it changed (R195, R196). -/
theorem Passes.told (h : Passes reach s t) (none_ : s.scratch.early = 0) : Told s (announce s t) := by
  obtain ⟨w, early, flags⟩ := h.flags
  have own : t.scratch.early = w := by simp [early, none_]
  let late := t.scratch.raised ||| changesBetween s t
  have link (k : Link) : (announce s t).link k = (s.link k).conclude (t.link k) (Link.mask k) w late :=
    own ▸ announce_link s t k
  have word (k : Link) : ((announce s t).link k).flags = (s.link k).flags ||| ((w ||| late) &&& Link.mask k) := by
    rw [link, LinkRecord.conclude_flags, flags, or_early_late]
  refine ⟨fun k => ?_, fun k => ?_, fun k before after changed => ?_⟩
  · rw [announce_changes, word]
    ext n
    simp only [late, BitVec.getElem_and, BitVec.getElem_or]
    cases (changesBetween s t)[n] <;> cases (Link.mask k)[n] <;> simp
  · rw [word]
    ext n
    simp only [BitVec.getElem_and, BitVec.getElem_or]
    cases (s.link k).flags[n] <;> simp
  · have told : (s.link k).enable = true ∧ (t.link k).enable = true
        ∧ (s.link k).flags ||| ((w ||| late) &&& Link.mask k) ≠ (s.link k).flags := by
      refine ⟨before, ?_, word k ▸ changed⟩
      rwa [link, LinkRecord.conclude_enable] at after
    rw [link]
    unfold LinkRecord.conclude
    dsimp only
    rw [if_pos told]
    have sequence := h.sequence k
    refine ⟨congrArg (fun n => some (Notice.mk (n + 1) _)) sequence, congrArg (· + 1) sequence⟩

theorem Passes.runs (h : Passes reach s t) : Runs reach s (announce s t) := by
  have rest : Holds t (announce s t) := ⟨id, fun _ => id, State.QueuesOrdered.of_same rfl rfl, id, id⟩
  exact {
    h.toHolds.trans rest with
    other := fun k far => (announce_traffic s t k).trans (h.other k far)
    marks := .inr rfl
    told := h.told }

/-- A command that changes neither what the flags tell of nor a link's flags. -/
theorem Holds.silent (h : Holds s t) (other : ∀ k, ¬ reach k → (t.link k).traffic = (s.link k).traffic)
    (marks : t.scratch = s.scratch) (changes : changesBetween s t = changesBetween s s)
    (flags : ∀ k, (t.link k).flags = (s.link k).flags) : Runs reach s t where
  toReaches := { h with other := other }
  marks := .inl marks
  told _ := by
    refine ⟨fun k => ?_, fun k => ?_, fun k _ _ changed => absurd (flags k) changed⟩
    · rw [changes, changesBetween_self]; simp
    · rw [flags, BitVec.and_self]

theorem Ends.refl (s : State) : Ends reach s s := { Holds.refl s with other := fun _ _ => rfl, marks := .inl rfl }

theorem Runs.refl (s : State) : Runs reach s s := (Holds.refl s).silent (fun _ _ => rfl) rfl rfl fun _ => rfl

/-! ### Links (R187, R188) -/

/-- One link's record changes, and neither its flags nor its count of notices. -/
theorem Passes.modLink {f : LinkRecord → LinkRecord} (flags : ∀ r, (f r).flags = r.flags)
    (sequence : ∀ r, (f r).sequence = r.sequence) : Passes (· = l) s (s.modLink l f) := by
  have link (k : Link) : (s.modLink l f).link k = if k = l then f (s.link l) else s.link k := State.link_modLink ..
  refine {
    afford := id, heaters := fun _ => id, queues := .of_same rfl rfl, names := id, keys := id
    other := fun k far => by rw [link, if_neg far]
    flags := ⟨0, (BitVec.or_zero).symm, fun k => ?_⟩
    sequence := fun k => ?_ }
  · rw [link]
    split
    next e => rw [flags, e]; simp
    · simp
  · rw [link]
    split
    next e => rw [sequence, e]
    · rfl

theorem Passes.takeFrame (s : State) (l : Link) : Passes (· = l) s (s.takeFrame l) := by
  refine {
    afford := id, heaters := fun _ => id, queues := .of_same rfl rfl, names := id, keys := id
    other := fun k far => ?_
    flags := ⟨s.heardFlags l, rfl, fun k => ?_⟩
    sequence := fun k => ?_ }
  all_goals
    rw [State.takeFrame_link]
    split
  next e => exact absurd e far
  · rfl
  next e => rw [e]; rfl
  · rfl
  next e => rw [e]; rfl
  · rfl

theorem Passes.answer (s : State) (l : Link) (k tag : Byte) (c : Status) (b : ReplyBody) :
    Passes (· = l) s (s.answer l k tag c b) := .modLink (f := fun r => r.answer _) (fun _ => rfl) fun _ => rfl

/-- Taking a frame and answering it does what the owner does. -/
theorem takeAndAnswer_passes {k tag : Byte} {owner : State → Answer}
    (h : ∀ s, Passes (· = l) s (owner s).state) : Passes (· = l) s (takeAndAnswer l k tag s owner) :=
  ((Passes.takeFrame s l).trans (h _)).trans (.answer ..)

theorem dispatch_passes {k : Kind} {owner : State → Answer} (h : ∀ s, Passes (· = l) s (owner s).state) (s : State) :
    Passes (· = l) s (dispatch l k owner s).state := by
  unfold dispatch
  split
  · exact h s
  · exact (Keeps.refl s).passes

/-! ### Requests and events -/

theorem onPower_ends {f : State → State} (h : Ends reach s (f s)) (e : .next (onPower s f) = (.next t : Host.Outcome State Fault Refusal)) :
    Ends reach s t := by
  obtain rfl := Host.Outcome.next.inj e
  unfold onPower
  split
  · exact h
  · exact .refl s

theorem onPower_runs {f : State → State} (h : Runs reach s (f s)) (e : .next (onPower s f) = (.next t : Host.Outcome State Fault Refusal)) :
    Runs reach s t := by
  obtain rfl := Host.Outcome.next.inj e
  unfold onPower
  split
  · exact h
  · exact .refl s

theorem serve_runs_of {k : Kind} {tag : Byte} {owner : State → Answer} {fits : List Byte → Bool}
    (e : serve l k tag s owner fits = .next t) (h : ∀ s, Passes (· = l) s (owner s).state) : Runs (· = l) s t := by
  refine onPower_runs ?_ e
  split
  · exact (takeAndAnswer_passes (dispatch_passes h)).runs
  · exact .refl s

theorem serve_runs {k : Kind} {tag : Byte} {owner : State → Answer} {fits : List Byte → Bool}
    (e : serve l k tag s owner fits = .next t) (h : ∀ s, Keeps s (owner s).state) : Runs (· = l) s t :=
  serve_runs_of e fun s => (h s).passes

theorem request_runs {k : Kind} {tag : Byte} {owner : State → Answer} {fits : List Byte → Bool}
    (e : request l k tag s owner fits = .next t) (h : ∀ s, Keeps s (owner s).state) : Runs (· = l) s t := by
  refine onPower_runs ?_ e
  split
  · exact ((takeAndAnswer_passes (dispatch_passes fun s => (h s).passes)).then (.settle _)).runs
  · exact .refl s

theorem occur_runs_of_keeps {due : Bool} {body : State → State} (e : occur s due body = .next t) (h : Keeps s (body s)) :
    Runs reach s t := by
  refine onPower_runs ?_ e
  split
  · exact (h.passes.then (.settle _)).runs
  · exact .refl s

theorem occurAlone_runs {due : Bool} {body : State → State} (e : occurAlone s due body = .next t)
    (h : Keeps s (body s)) : Runs reach s t := by
  refine onPower_runs ?_ e
  split
  · exact h.passes.runs
  · exact .refl s

/-! ### The Link Front's own rows -/

theorem LinkRecord.receiveAll_flags (n : Nat) (r : LinkRecord) : (receiveAll n r).flags = r.flags := by
  induction n generalizing r with
  | zero => rfl
  | succ n ih =>
    unfold receiveAll
    split
    · rfl
    · exact ih _
    · exact ih _
    · split
      · exact ih _
      · exact ih _

theorem modLink_runs {f : LinkRecord → LinkRecord} (flags : ∀ r, (f r).flags = r.flags) : Runs (· = l) s (s.modLink l f) := by
  have link (k : Link) : (s.modLink l f).link k = if k = l then f (s.link l) else s.link k := State.link_modLink ..
  refine Holds.silent ⟨id, fun _ => id, .of_same rfl rfl, id, id⟩ (fun k far => by rw [link, if_neg far]) rfl rfl fun k => ?_
  rw [link]
  split
  next e => rw [flags, e]
  · rfl

theorem frameReceived_runs {bytes : List Byte} (e : execFrameReceived l bytes s = .next t) : Runs (· = l) s t :=
  onPower_runs (modLink_runs (f := fun r => r.receiveBytes bytes) fun _ => LinkRecord.receiveAll_flags ..) e

theorem badKind_runs {kind tag : Byte} {body : List Byte} (e : execBadKind l kind tag body s = .next t) :
    Runs (· = l) s t := by
  refine onPower_runs ?_ e
  split
  · exact .refl s
  · split
    · exact (takeAndAnswer_passes fun s => (refuse_keeps s _).passes).runs
    · exact .refl s

theorem replySent_runs (e : execReplySent l s = .next t) : Runs (· = l) s t := by
  refine onPower_runs ?_ e
  have sent : Passes (· = l) s (s.modLink l fun r => { r with reply := none }) := .modLink (fun _ => rfl) fun _ => rfl
  dsimp only
  split
  · split
    · exact ((sent.then (.markForm _)).then (.settle _)).runs
    · exact modLink_runs fun _ => rfl
  · exact .refl s

theorem noticeSent_runs (e : execNoticeSent l s = .next t) : Runs (· = l) s t := by
  refine onPower_runs ?_ e
  split
  · exact modLink_runs fun _ => rfl
  · exact .refl s

theorem noticeEnable_runs {tag : Byte} {b : State → ReplyBody} {f : LinkRecord → LinkRecord}
    (flags : ∀ r, (f r).flags = r.flags) (sequence : ∀ r, (f r).sequence = r.sequence)
    (e : serve l .noticeEnable tag s (fun s => okWith (b s) (s.modLink l f)) = .next t) : Runs (· = l) s t :=
  serve_runs_of e fun _ => .modLink flags sequence

theorem show_keeps (s : State) (l : Link) (sel : Selector) (part : Nat) (c : Content) :
    Keeps s (s.show l sel part c).state := by
  have used : Keeps s s.useFree := {}
  unfold State.show
  dsimp only
  split
  · exact used
  · exact used

theorem statusRead_runs {tag : Byte} {sel : Selector} {part : Nat} {view : State → Content}
    (e : statusRead l tag sel part s view = .next t) : Runs (· = l) s t := by
  refine serve_runs e fun s => ?_
  split
  · exact show_keeps ..
  · exact refuse_keeps ..

theorem statusReadOf_runs {tag : Byte} {sel : Selector} {ant part : Nat} {view : State → Ant → Content}
    (e : statusReadOf l tag sel ant part s view = .next t) : Runs (· = l) s t := by
  refine serve_runs e fun s => ?_
  split
  · split
    · exact show_keeps ..
    · exact withAnt_keeps fun _ => show_keeps ..
  · exact refuse_keeps ..

/-! ### The clock (R193, R194) -/

/-- TIME_SET moves every link's silence timer with the clock. -/
theorem Passes.setClock (s : State) (e : Epoch) : Passes (fun _ => True) s (s.setClock e) := by
  have link (k : Link) : (s.setClock e).link k = (s.link k).shift (e - s.now) := s.link_shift ..
  have written (w : Writing) (hw : (s.setClock e).store.writing = some w) :
      ∃ v, s.store.writing = some v ∧ w.record = v.record ∧ w.value = v.value := by
    obtain ⟨v, hv, rfl⟩ := Option.map_eq_some_iff.1 hw
    exact ⟨v, hv, rfl, rfl⟩
  have store : s.store.Requeued [] (s.setClock e).store := { writing := written }
  have groups (g : GroupId) : ((s.setClock e).groups.get g).ants = (s.groups.get g).ants := by cases g <;> rfl
  exact {
    afford := fun ⟨load, once, fits⟩ => ⟨load, fun g => (groups g).symm ▸ once g, fits.alike store⟩
    heaters := fun _ => id
    queues := fun h => h.of_infix (fun _ => List.infix_rfl) (fun _ _ => rfl) fun _ _ k l => ⟨k, l, rfl⟩
    names := fun k => ((Keeps.setStoreMarks store).names k)
    keys := id
    other := fun _ far => absurd trivial far
    flags := ⟨0, by exact (by simp : s.scratch.early = s.scratch.early ||| 0), fun k => by rw [link]; simp [LinkRecord.shift]⟩
    sequence := fun k => by rw [link]; rfl }

theorem Passes.widen (h : Passes reach s t) : Passes (fun _ => True) s t :=
  { h with other := fun _ far => absurd trivial far }

theorem timeSet_runs {tag : Byte} {n : Nat} (e : execTimeSet tag n s = .next t) : Runs (fun _ => True) s t := by
  refine onPower_runs ?_ e
  split
  · refine Passes.runs (((Passes.takeFrame s .operations).widen.trans ?_).trans
      (Passes.answer ..).widen)
    unfold dispatch
    split
    · unfold check
      dsimp only
      split
      · exact .setClock ..
      · exact (Keeps.refl _).passes
    · exact (Keeps.refl _).passes
  · exact .refl s

/-! ### Power (R201) -/

/-- The store after a loss of power holds its contents, and writes nothing. -/
theorem Store.lose_station (st : Store) :
    (st.lose.station = st.station ∨ st.lose.station.good = false) ∧ st.lose.queue = [] ∧ st.lose.overflow = []
      ∧ st.lose.writing = none := by
  refine ⟨?_, rfl, rfl, rfl⟩
  unfold Store.lose
  cases writing : st.writing with
  | none => exact .inl rfl
  | some w =>
    obtain ⟨-, -, ⟨_, -, -, bad⟩ | same⟩ := st.put_station w.value false
    · exact .inr bad
    · exact .inl same

theorem Store.StationFits.lose {st : Store} (h : st.StationFits) : st.lose.StationFits := by
  obtain ⟨same | bad, -, -, idle⟩ := st.lose_station
  · exact ⟨fun good => same ▸ h.1 (same ▸ good), fun w r hw => nomatch idle.symm.trans hw⟩
  · exact ⟨fun good => Bool.noConfusion (bad.symm.trans good), fun w r hw => nomatch idle.symm.trans hw⟩

theorem Holds.losePower (s : State) : Holds s s.losePower where
  afford := fun ⟨load, once, fits⟩ => ⟨load, once, fits.lose⟩
  heaters _ := id
  queues := .of_same rfl rfl
  names := fun ⟨slots, _⟩ => by
    obtain ⟨-, queue, overflow, idle⟩ := s.store.lose_station
    refine ⟨slots, fun _ h => ?_, fun _ h => ?_, fun _ h => nomatch idle.symm.trans h⟩
    · exact absurd (queue ▸ h) List.not_mem_nil
    · exact absurd (overflow ▸ h) List.not_mem_nil
  keys := id

theorem powerLoss_runs (e : execPowerLoss s = .next t) : Runs reach s t :=
  onPower_runs ((Holds.losePower s).silent (fun _ _ => rfl) rfl rfl fun _ => rfl) e

end Sys2Proof.Machine
end

