-- ==== Sys2Proof/Proofs/KeepsExec.lean ====
section
/-! PROOFS. Every command but POWER_ON, RESTART and CHANGES_ACK keeps what `Runs` tells, each by what its owner does. -/

namespace Sys2Proof.Machine

variable {s t : State}

/-- The links whose traffic a command changes: its own, or all of them by a rule of its own (R186, R193). -/
def reaches (c : Instr) (k : Link) : Prop :=
  match c with
  | .powerOn | .restart _ | .timeSet _ _ => True
  | c => linkOf c = some k

/-- The commands that set no flag by what they change: the flags are cleared, or written (R195, R197). -/
def unflagged : Instr → Bool
  | .powerOn | .restart _ | .changesAck _ _ _ _ => true
  | _ => false

theorem Runs.over {c : Instr} {l : Link} (h : Runs (· = l) s t) (own : reaches c l) : Runs (reaches c) s t :=
  { h with other := fun k far => h.other k fun e => far (e ▸ own) }

/-- Every command but POWER_ON, RESTART and CHANGES_ACK. -/
theorem exec_runs {c : Instr} (h : unflagged c = false) (e : exec c s = .next t) : Runs (reaches c) s t := by
  cases c with
  | powerOn => cases h
  | restart => cases h
  | changesAck => cases h
  | powerLoss => exact powerLoss_runs e
  | frameReceived => exact (frameReceived_runs e).over rfl
  | badKind => exact (badKind_runs e).over rfl
  | replySent => exact (replySent_runs e).over rfl
  | noticeSent => exact (noticeSent_runs e).over rfl
  | statusReadAntenna => exact (statusReadOf_runs e).over rfl
  | statusReadTrack => exact (statusReadOf_runs e).over rfl
  | statusReadGroup => exact (statusRead_runs e).over rfl
  | statusReadLockouts => exact (statusRead_runs e).over rfl
  | statusReadWind => exact (statusRead_runs e).over rfl
  | statusReadHeat => exact (statusRead_runs e).over rfl
  | statusReadBudget => exact (statusRead_runs e).over rfl
  | statusReadStore => exact (statusRead_runs e).over rfl
  | statusReadPermit => exact (statusRead_runs e).over rfl
  | noticeEnableOn =>
    exact (noticeEnable_runs (f := fun r => { r with enable := true }) (fun _ => rfl) (fun _ => rfl) e).over rfl
  | noticeEnableOff =>
    exact (noticeEnable_runs (f := fun r => { r with enable := false, notice := none, noticeFirst := false })
      (fun _ => rfl) (fun _ => rfl) e).over rfl
  | timeSet => exact timeSet_runs e
  | axisEnableOn =>
    exact (request_runs e fun _ => withAnt_keeps fun _ => check_keeps fun _ => check_keeps fun _ => check_keeps fun _ =>
      check_keeps fun _ => .enableBus ..).over rfl
  | axisEnableHold =>
    exact (request_runs e fun _ => withAnt_keeps fun _ => check_keeps fun _ => check_keeps fun _ => check_keeps fun _ =>
      check_keeps fun _ => .forEach (fun s i => .addClaim s i .operations) _ _).over rfl
  | axisEnableOff =>
    exact (request_runs e fun _ => withAnt_keeps fun _ => check_keeps fun _ => check_keeps fun _ => check_keeps fun _ =>
      check_keeps fun _ => .disable ..).over rfl
  | driveReset => exact (request_runs e fun _ => withAnt_keeps fun _ => Keeps.resetDrives ..).over rfl
  | encoderSelect =>
    exact (serve_runs e fun _ => withAxis_keeps fun _ => withCode_keeps fun _ _ => check_keeps fun _ => check_keeps fun _ =>
      Keeps.modAxis _ _ fun x => { x with active := _ }).over rfl
  | encoderDisable =>
    exact (serve_runs e fun _ => withAxis_keeps fun _ => withCode_keeps fun _ _ => check_keeps fun _ =>
      .setEnabled ..).over rfl
  | encoderRestore =>
    exact (serve_runs e fun _ => withAxis_keeps fun _ => withCode_keeps fun _ _ => Keeps.setEnabled ..).over rfl
  | configWriteAxis =>
    exact (serve_runs e fun _ => withAxis_keeps fun _ => check_keeps fun _ => check_keeps fun _ => check_keeps fun _ =>
      .writeAxis ..).over rfl
  | configWriteStation =>
    refine (request_runs e fun s => ?_).over rfl
    dsimp only
    split
    next fits => exact check_keeps fun _ => .writeStation fits
    · exact .refl s
  | configWriteZone =>
    exact (request_runs e fun _ => withAnt_keeps fun _ => withCode_keeps fun _ _ => check_keeps fun _ =>
      check_keeps fun _ => .writeZone ..).over rfl
  | configWriteWind =>
    refine (request_runs e fun s => ?_).over rfl
    split
    · exact refuse_keeps ..
    · exact check_keeps fun _ => .writeWind ..
  | burstOpen =>
    exact (serve_runs e fun _ => withAnt_keeps fun _ => check_keeps fun closed => check_keeps fun _ => check_keeps fun _ =>
      check_keeps fun _ => check_keeps fun _ => check_keeps fun _ => check_keeps fun _ => check_keeps fun _ =>
      check_keeps fun _ => check_keeps fun _ => check_keeps fun _ =>
      permitted_keeps (.openBurst (Option.isNone_iff_eq_none.1 closed))).over rfl
  | burstData => exact (serve_runs e fun s => burstData_keeps s _).over rfl
  | burstClose =>
    refine (request_runs e fun s => ?_).over rfl
    split
    · exact noBurst_keeps s
    next own => exact closeBurst_keeps own
  | burstAbort =>
    refine (serve_runs e fun s => ?_).over rfl
    split
    · exact noBurst_keeps s
    next own => exact Keeps.discardBurst own
  | trackClear => exact (request_runs e fun _ => withAnt_keeps fun _ => check_keeps fun _ => .clearTrack ..).over rfl
  | groupPlan =>
    exact (serve_runs e fun _ => withGroup_keeps fun _ => withCode_keeps fun _ named => check_keeps fun _ =>
      planChecked_keeps (proposedMembers_nodup named)).over rfl
  | groupArm =>
    exact (request_runs e fun _ => withGroup_keeps fun _ => check_keeps fun _ => check_keeps fun _ => check_keeps fun _ =>
      armUncovered_keeps ..).over rfl
  | groupCancel => exact (request_runs e fun _ => withGroup_keeps fun _ => cancelGroup_keeps ..).over rfl
  | groupRead =>
    refine (serve_runs e fun s => withGroup_keeps fun g => ?_).over rfl
    dsimp only
    split
    · exact .refl s
    · exact .refl s
  | holdPlace => exact (request_runs e fun s => askPlacement_keeps s _).over rfl
  | lockPlace tag sender => exact (request_runs e fun s => askPlacement_keeps s _).over (by cases sender <;> rfl)
  | holdRemove => exact (request_runs e fun _ => removeFor_keeps ..).over rfl
  | lockRemove tag sender slot =>
    refine (request_runs e fun s => ?_).over (by cases sender <;> rfl)
    cases sender with
    | pendant => exact removeOwn_keeps ..
    | safety => exact removeFor_keeps ..
  | forceRemove =>
    exact (request_runs e fun _ => withEntry_keeps fun short x => check_keeps fun _ => forceOut_keeps x short).over rfl
  | localClaim =>
    refine (request_runs e fun s => ?_).over rfl
    split
    · exact check_keeps fun _ => check_keeps fun _ => permitted_keeps (.claimLocal ..)
    · exact .refl s
  | localRelease => exact (request_runs e fun s => .ite (.refl s) (.endLocal ..)).over rfl
  | jog =>
    exact (request_runs e fun _ => withCode_keeps fun _ _ => withCode_keeps fun _ _ => check_keeps fun _ =>
      askJog_keeps ..).over rfl
  | heatSet tag sender =>
    exact (request_runs e fun _ => withHeatAnt_keeps fun _ => withCode_keeps fun _ _ => withCode_keeps fun _ _ =>
      askHeat_keeps ..).over (by cases sender <;> rfl)
  | iceFloor => exact (request_runs e fun _ => withAnt_keeps fun _ => withCode_keeps fun _ _ => Keeps.setFloor ..).over rfl
  | weather => exact (serve_runs e fun _ => check_keeps fun _ => .report ..).over rfl
  | stowDemandOn => exact (request_runs e fun _ => Keeps.setSafety ..).over rfl
  | stowDemandOff => exact (request_runs e fun _ => Keeps.setSafety ..).over rfl
  | stowRelease =>
    exact (request_runs e fun _ => check_keeps fun _ => check_keeps fun _ => check_keeps fun _ =>
      .forEach (fun s a => .releaseStow s a) _ _).over rfl
  | allStop => exact (request_runs e fun s => okWith_keeps (.stopAll s)).over rfl
  | permitWrite =>
    refine (serve_runs e fun s => ?_).over rfl
    split
    · exact askDefault_keeps ..
    · exact askPermit_keeps ..
  | permitWriteDefault => exact (serve_runs e fun s => askDefault_keeps s _).over rfl
  | burstTimeout =>
    refine occurAlone_runs e ?_
    split
    · exact .refl s
    · exact .terminateBurst ..
  | queuePrepare => exact occur_runs_of_keeps e (.prepareQueue ..)
  | queueStarting => exact occurAlone_runs e (.startingQueue ..)
  | queueRunStart =>
    refine occur_runs_of_keeps e ?_
    split
    · exact .refl s
    · exact .startRun ..
  | queueLate => exact occur_runs_of_keeps e (.haltQueue ..)
  | segmentComplete a =>
    refine occur_runs_of_keeps e (Keeps.trans (t := s.completeSegments a 65) ?_ (.interpolate _ a))
    exact .completeSegments ..
  | groupStart => exact occur_runs_of_keeps e (.startGroup ..)
  | groupStartGraceExpiry => exact occur_runs_of_keeps e (.haltGroup ..)
  | groupDone => exact occur_runs_of_keeps e (.finishGroup ..)
  | groupSettleLimit => exact occur_runs_of_keeps e (.haltGroup ..)
  | pendantSilenceExpiry => exact occur_runs_of_keeps e (.endLocal ..)
  | jogDeadman => exact occur_runs_of_keeps e (.endJog ..)
  | forceRemovalTimerExpiry => exact occurAlone_runs e ((Keeps.modHorn ..).trans (.refreshHorn ..))
  | warningTimerExpiry => exact occurAlone_runs e (.setWarning ..)
  | servoStep => exact occurAlone_runs e (.servo ..)
  | profileEnd =>
    refine occur_runs_of_keeps e ?_
    split
    · exact .refl s
    · exact (Keeps.endProfile ..).trans (.arriveIfDriving ..)
  | stopEnd =>
    refine occur_runs_of_keeps e ?_
    split
    · exact .refl s
    · exact .finishStop ..
  | busUp => exact occur_runs_of_keeps e (.bringUp ..)
  | prechargeTimeout => exact occur_runs_of_keeps e (.failPrecharge ..)
  | busOutOfBand => exact occur_runs_of_keeps e (.loseBand ..)
  | busBackInBand => exact occur_runs_of_keeps e ((Keeps.modAnt ..).trans (.runFieldTimers ..))
  | holdingCurrentReached =>
    exact occur_runs_of_keeps e (.ite ((Keeps.modAxisIn ..).trans (.startHolding ..)) (.modAxisIn ..))
  | torqueUpTimeout => exact occur_runs_of_keeps e (.faultAxis ..)
  | brakeReleaseConfirmed =>
    exact occur_runs_of_keeps e (.ite ((Keeps.modAxisIn ..).trans (.confirmRelease ..)) (.modAxisIn ..))
  | releaseCheckTimeout => exact occur_runs_of_keeps e (.faultAxis ..)
  | brakeSetConfirmed =>
    exact occur_runs_of_keeps e (.ite ((Keeps.modAxisIn ..).trans (.enterAxis ..)) (.modAxisIn ..))
  | brakeSetTimeout => exact occur_runs_of_keeps e (.faultAxis ..)
  | idleBrakeExpiry => exact occur_runs_of_keeps e (.stopAxis ..)
  | encoderDisagreementFault => exact occur_runs_of_keeps e (.faultAxis ..)
  | encoderFaultReport i enc =>
    have marked := ((Keeps.modAxisIn s i fun io => AxisInputs.setReport io enc true).trans
      (.runFieldTimers _ i.ant)).trans (.modAxis _ i fun x => x.markActed enc)
    exact occur_runs_of_keeps e (.ite (marked.trans (.activeReported ..)) marked)
  | encoderReportCleared => exact occur_runs_of_keeps e ((Keeps.modAxisIn ..).trans (.runFieldTimers ..))
  | followingFault => exact occur_runs_of_keeps e (.faultAxis ..)
  | limitSwitchTripped => exact occur_runs_of_keeps e ((Keeps.modAxisIn ..).trans (.faultAxis ..))
  | amplifierFault =>
    exact occur_runs_of_keeps e (.ite ((Keeps.modAxisIn ..).trans (.faultAxis ..)) (.modAxisIn ..))
  | windSample => exact occur_runs_of_keeps e (.sampleWind ..)
  | anemometerStuck => exact occur_runs_of_keeps e (.sampleWind ..)
  | windDisagreementMark => exact occur_runs_of_keeps e (.sampleWind ..)
  | windClassRise => exact occur_runs_of_keeps e (.sampleWind ..)
  | windClassFall => exact occur_runs_of_keeps e (.sampleWind ..)
  | safetySilence => exact occur_runs_of_keeps e (.addSilence s)
  | waveStart =>
    refine occur_runs_of_keeps e ?_
    split
    · exact .refl s
    · exact .startWave ..
  | pinWarmingTimeout => exact occur_runs_of_keeps e ((Keeps.endForce ..).trans (.goPinFailed ..))
  | pinInSwitchMade =>
    exact occur_runs_of_keeps e (.ite ((Keeps.modAntIn ..).trans (.goStowed ..)) (.modAntIn ..))
  | pinInsertTimeout => exact occur_runs_of_keeps e (.goPinFailed ..)
  | pinInSwitchOpened => exact occurAlone_runs e (.ite ((Keeps.modAntIn ..).trans (.modStow ..)) (.modAntIn ..))
  | pinOutSwitchMade => exact occurAlone_runs e (.ite ((Keeps.modAntIn ..).trans (.modStow ..)) (.modAntIn ..))
  | pinWithdrawTimeout => exact occurAlone_runs e (.modStow ..)
  | heaterStep => exact occur_runs_of_keeps e (.heaterStep ..)
  | heaterFrameStart => exact occur_runs_of_keeps e (.heaterStep ..)
  | weatherStale => exact occurAlone_runs e (.runAllIceTimers s)
  | wetTimerExpiry => exact occur_runs_of_keeps e (.setTracked ..)
  | freezeTimerExpiry => exact occur_runs_of_keeps e (.setTracked ..)
  | thawTimerExpiry => exact occur_runs_of_keeps e (.setTracked ..)
  | grantQueueTimeout =>
    refine occur_runs_of_keeps e ?_
    split
    · exact .refl s
    · exact (Keeps.withdraw ..).trans (.needLost ..)
  | shedHalfCheck => exact occurAlone_runs e (.modFeed fun _ => ⟨rfl, rfl, rfl, rfl, rfl⟩)
  | shedExpiry =>
    have expired : Keeps s (s.modFeed fun f => { f with shed := { f.shed with active := false, expiry := none } }) :=
      .modFeed fun _ => ⟨rfl, rfl, rfl, rfl, rfl⟩
    exact occurAlone_runs e ((expired.trans (.raise ..)).trans (.restore _))
  | restorationStep => exact occurAlone_runs e (.restore s)
  | storeSupplyLow =>
    exact occurAlone_runs e ((Keeps.setField s { s.field with supplyGood := false }).trans
      (.setStoreMarks (.followSupply ..)))
  | storeWriteStart => exact occurAlone_runs e ((Keeps.startWrite s).trans (.noteEmptied _))
  | storeWriteComplete => exact occurAlone_runs e (.completeWrite s)
  | storeHeadWaitExpiry => exact occurAlone_runs e ((Keeps.setStoreMarks {}).trans (.raise ..))

end Sys2Proof.Machine
end

