-- ==== Sys2Proof/Proofs/EveryCommand.lean ====
section
/-! PROOFS. Every command changes the parts it names alone, and keeps the law of the state. -/

namespace Sys2Proof.Machine

variable {s t : State}

/-- Every command moves the parts it names, and keeps the law of the state. -/
theorem exec_moves {c : Instr} (e : exec c s = .next t) : Moves (touched c) s t := by
  cases c with
  | powerOn => exact powerOn_moves e
  | powerLoss => exact powerLoss_moves e
  | frameReceived => exact frameReceived_moves e
  | badKind => exact badKind_moves e
  | replySent => exact replySent_moves e
  | noticeSent => exact noticeSent_moves e
  | statusReadAntenna => exact statusReadOf_moves e
  | statusReadTrack => exact statusReadOf_moves e
  | statusReadGroup => exact statusRead_moves e
  | statusReadLockouts => exact statusRead_moves e
  | statusReadWind => exact statusRead_moves e
  | statusReadHeat => exact statusRead_moves e
  | statusReadBudget => exact statusRead_moves e
  | statusReadStore => exact statusRead_moves e
  | statusReadPermit => exact statusRead_moves e
  | changesAck => exact changesAck_moves e
  | noticeEnableOn => exact noticeEnableOn_moves e
  | noticeEnableOff => exact noticeEnableOff_moves e
  | timeSet => exact timeSet_moves e
  | axisEnableOn => exact axisEnableOn_moves e
  | axisEnableHold => exact axisEnableHold_moves e
  | axisEnableOff => exact axisEnableOff_moves e
  | driveReset => exact driveReset_moves e
  | encoderSelect => exact encoderSelect_moves e
  | encoderDisable => exact encoderDisable_moves e
  | encoderRestore => exact encoderRestore_moves e
  | configWriteAxis => exact configWriteAxis_moves e
  | configWriteStation => exact configWriteStation_moves e
  | configWriteZone => exact configWriteZone_moves e
  | configWriteWind => exact configWriteWind_moves e
  | burstOpen => exact burstOpen_moves e
  | burstData => exact burstData_moves e
  | burstClose => exact burstClose_moves e
  | burstAbort => exact burstAbort_moves e
  | trackClear => exact trackClear_moves e
  | burstTimeout => exact burstTimeout_moves e
  | queuePrepare => exact queuePrepare_moves e
  | queueStarting => exact queueStarting_moves e
  | queueRunStart => exact queueRunStart_moves e
  | queueLate => exact queueLate_moves e
  | segmentComplete => exact segmentComplete_moves e
  | groupPlan => exact groupPlan_moves e
  | groupArm => exact groupArm_moves e
  | groupCancel => exact groupCancel_moves e
  | groupRead => exact groupRead_moves e
  | groupStart => exact groupStart_moves e
  | groupStartGraceExpiry => exact groupStartGraceExpiry_moves e
  | groupDone => exact groupDone_moves e
  | groupSettleLimit => exact groupSettleLimit_moves e
  | holdPlace => exact holdPlace_moves e
  | holdRemove => exact holdRemove_moves e
  | lockPlace => exact lockPlace_moves e
  | lockRemove => exact lockRemove_moves e
  | forceRemove => exact forceRemove_moves e
  | localClaim => exact localClaim_moves e
  | localRelease => exact localRelease_moves e
  | pendantSilenceExpiry => exact pendantSilenceExpiry_moves e
  | jog => exact jog_moves e
  | jogDeadman => exact jogDeadman_moves e
  | forceRemovalTimerExpiry => exact forceRemovalTimerExpiry_moves e
  | warningTimerExpiry => exact warningTimerExpiry_moves e
  | heatSet => exact heatSet_moves e
  | iceFloor => exact iceFloor_moves e
  | weather => exact weather_moves e
  | stowDemandOn => exact stowDemandOn_moves e
  | stowDemandOff => exact stowDemandOff_moves e
  | stowRelease => exact stowRelease_moves e
  | allStop => exact allStop_moves e
  | permitWrite => exact permitWrite_moves e
  | permitWriteDefault => exact permitWriteDefault_moves e
  | restart => exact restart_moves e
  | servoStep => exact servoStep_moves e
  | profileEnd => exact profileEnd_moves e
  | stopEnd => exact stopEnd_moves e
  | busUp => exact busUp_moves e
  | prechargeTimeout => exact prechargeTimeout_moves e
  | busOutOfBand => exact busOutOfBand_moves e
  | busBackInBand => exact busBackInBand_moves e
  | holdingCurrentReached => exact holdingCurrentReached_moves e
  | torqueUpTimeout => exact torqueUpTimeout_moves e
  | brakeReleaseConfirmed => exact brakeReleaseConfirmed_moves e
  | releaseCheckTimeout => exact releaseCheckTimeout_moves e
  | brakeSetConfirmed => exact brakeSetConfirmed_moves e
  | brakeSetTimeout => exact brakeSetTimeout_moves e
  | idleBrakeExpiry => exact idleBrakeExpiry_moves e
  | encoderDisagreementFault => exact encoderDisagreementFault_moves e
  | encoderFaultReport => exact encoderFaultReport_moves e
  | encoderReportCleared => exact encoderReportCleared_moves e
  | followingFault => exact followingFault_moves e
  | limitSwitchTripped => exact limitSwitchTripped_moves e
  | amplifierFault => exact amplifierFault_moves e
  | windSample => exact windSample_moves e
  | anemometerStuck => exact anemometerStuck_moves e
  | windDisagreementMark => exact windDisagreementMark_moves e
  | windClassRise => exact windClassRise_moves e
  | windClassFall => exact windClassFall_moves e
  | safetySilence => exact safetySilence_moves e
  | waveStart => exact waveStart_moves e
  | pinWarmingTimeout => exact pinWarmingTimeout_moves e
  | pinInSwitchMade => exact pinInSwitchMade_moves e
  | pinInsertTimeout => exact pinInsertTimeout_moves e
  | pinInSwitchOpened => exact pinInSwitchOpened_moves e
  | pinOutSwitchMade => exact pinOutSwitchMade_moves e
  | pinWithdrawTimeout => exact pinWithdrawTimeout_moves e
  | heaterStep => exact heaterStep_moves e
  | heaterFrameStart => exact heaterFrameStart_moves e
  | weatherStale => exact weatherStale_moves e
  | wetTimerExpiry => exact wetTimerExpiry_moves e
  | freezeTimerExpiry => exact freezeTimerExpiry_moves e
  | thawTimerExpiry => exact thawTimerExpiry_moves e
  | grantQueueTimeout => exact grantQueueTimeout_moves e
  | shedHalfCheck => exact shedHalfCheck_moves e
  | shedExpiry => exact shedExpiry_moves e
  | restorationStep => exact restorationStep_moves e
  | storeSupplyLow => exact storeSupplyLow_moves e
  | storeWriteStart => exact storeWriteStart_moves e
  | storeWriteComplete => exact storeWriteComplete_moves e
  | storeHeadWaitExpiry => exact storeHeadWaitExpiry_moves e

end Sys2Proof.Machine
end

