-- ==== Sys2Proof/Proofs/KeepsSteps.lean ====
section
/-! PROOFS. POWER_ON, RESTART and CHANGES_ACK keep what `Holds` tells, and with them every step keeps its invariants. -/

namespace Sys2Proof.Machine

variable {s t : State}

/-! ### CHANGES_ACK (R197) -/

theorem announce_holds (s t : State) : Holds t (announce s t) := ⟨id, fun _ => id, .of_same rfl rfl, id, id⟩

theorem Reaches.trans {reach : Link → Prop} {u : State} (h : Reaches reach s t) (k : Reaches reach t u) :
    Reaches reach s u :=
  { h.toHolds.trans k.toHolds with other := fun m far => (k.other m far).trans (h.other m far) }

theorem Reaches.modLink (s : State) (l : Link) (f : LinkRecord → LinkRecord) : Reaches (· = l) s (s.modLink l f) where
  afford := id
  heaters _ := id
  queues := .of_same rfl rfl
  names := id
  keys := id
  other _ far := congrArg LinkRecord.traffic ((State.link_modLink ..).trans (if_neg far))

/-- The flags of its own link are written; the other links and the part stay. -/
theorem changesAck_ends {l : Link} {tag : Byte} {v m : FlagWord} (e : execChangesAck l tag v m s = .next t) :
    Ends (· = l) s t := by
  refine onPower_ends ?_ e
  split
  · have written (s : State) : Reaches (· = l) s (dispatch l .changesAck (fun s => s.ackFlags l v m) s).state := by
      unfold dispatch
      split
      · exact .modLink s l fun r => { r with flags := ackedWord (Link.mask l) (s.link l).flags v m }
      · exact (Ends.refl s).toReaches
    have answered : Reaches (· = l) s (takeAndAnswer l Kind.changesAck.code tag s
        (dispatch l .changesAck fun s => s.ackFlags l v m)) :=
      ((Passes.takeFrame s l).toReaches.trans (written _)).trans (Passes.answer ..).toReaches
    exact {
      answered.toHolds.trans (announce_holds ..) with
      other := fun k far => (announce_traffic ..).trans (answered.other k far)
      marks := .inr rfl }
  · exact .refl s

/-! ### RESTART (R205) -/

theorem Keeps.emptyTracks (s : State) : Keeps s { s with tracks := .const .initial } := by
  have none_ (a : Ant) : ({ s with tracks := .const .initial } : State).track a = .initial := Six.get_const ..
  exact { queues := fun h => h.of_infix (fun a => by rw [none_]; exact List.nil_infix)
            (fun a k => absurd (by rw [none_]; rfl) k) fun a g _ l => by rw [none_] at l; cases l }

theorem Keeps.emptyGroups (s : State) :
    Keeps s { s with groups := ⟨.initial, .initial, .initial, .initial⟩ } where
  afford := fun ⟨load, _, fits⟩ => ⟨load, fun g => by cases g <;> exact .nil, fits⟩

theorem Keeps.restartTracks (s : State) : Keeps s s.restartTracks := by
  unfold State.restartTracks
  dsimp only
  split
  · exact .emptyTracks s
  · exact (Keeps.terminateBurst ..).trans (.emptyTracks _)

theorem Keeps.restartFeed (s : State) : Keeps s s.restartFeed := by
  have released := (Keeps.forEach (fun s g => .releaseGroupGrant s g) GroupId.all s).trans
    (.forEach (fun s a => .releaseWaveGrant s a) Ant.all _)
  exact released.trans (.modFeed (f := fun f =>
    { f with queue := [], shed := ⟨false, none, false, none, none⟩, cursor := none, lastStep := none })
    fun _ => ⟨rfl, rfl, rfl, rfl, rfl⟩)

theorem Keeps.restartAuthority (s : State) : Keeps s s.restartAuthority := {}

theorem Keeps.restartStow (s : State) : Keeps s s.restartStow := {}

/-- Every zone is formed afresh after its cap is cleared (R155). -/
theorem Keeps.restartHeat (s : State) : Keeps s s.restartHeat := by
  let t : State := { s with heat := { s.heat with zones := s.heat.zones.map fun _ p => p.map fun _ z => z.restart } }
  have zone (z : ZoneId) : t.zone z = (s.zone z).restart := by
    obtain ⟨a, c⟩ := z
    show ((s.heat.zones.map fun _ (p : Trio Zone) => p.map fun _ z => z.restart).get a).get c = _
    rw [Six.get_map]
    cases c <;> rfl
  have load : t.load = s.load := by
    have committed : t.committed = s.committed := sumOf_congr fun z _ => by rw [zone]; rfl
    exact congrArg (s.feed.base + s.driveGrants + ·) committed
  have cleared : Loosens s t := {
    afford := fun ⟨within, rest⟩ => ⟨load.le.trans within, rest⟩
    driven := fun z k => by rw [zone]; exact k }
  have formed (s : State) (z : ZoneId) : Keeps s ((s.formLevel z).lowerZone false z) := .relower false rfl id
  have lowered {zs : List ZoneId} {z : ZoneId} (hz : z ∈ zs) (s : State) (k : (s.zone z).driven) :
      (Machine.forEach zs (fun s z => (s.formLevel z).lowerZone false z) s).HeaterDriven z := by
    induction zs generalizing s with
    | nil => cases hz
    | cons y ys ih =>
      obtain rfl | hz := List.mem_cons.1 hz
      · refine (Keeps.forEach formed ys _).heaters _ ((s.formLevel z).lowerZone_driven false z ?_)
        rw [State.formLevel, State.zone_modZone, if_pos rfl]
        exact k
      · exact ih hz _ ((formed s y).driven z k)
  have every (z : ZoneId) : z ∈ ZoneId.all := by
    obtain ⟨a, c⟩ := z
    cases a <;> cases c <;> decide
  exact { cleared.trans (Keeps.forEach formed ZoneId.all t).toLoosens with
    heaters := fun z k => lowered (every z) t (cleared.driven z k.1) }

theorem Keeps.restartRounds (n : Nat) (s : State) : Keeps s (s.restartRounds n) := by
  induction n generalizing s with
  | zero => exact .refl s
  | succ n ih =>
    have sought : Keeps s (Machine.forEach AxisId.all (fun s i => s.seekTorque i) s.followUp) :=
      (Keeps.followUp s).trans (.forEach (fun s i => .seekTorque s i) _ _)
    unfold State.restartRounds
    exact (sought.trans (.clearMarks _)).trans (ih _)

theorem Keeps.restartBlocks (s : State) : Keeps s s.restartBlocks := by
  have stops : Keeps s s.restartStops := .forEach (fun s i => .stopAxis s i .restart .braked) _ s
  have motion := ((stops.trans (.restartFeed _)).trans (.restartTracks _)).trans (.emptyGroups _)
  have laid := ((motion.trans (.restartAuthority _)).trans (.restartStow _)).trans (.restartHeat _)
  unfold State.restartBlocks
  exact Keeps.trans laid (.restartRounds ..)

theorem restart_ends {tag : Byte} (e : execRestart tag s = .next t) : Ends (fun _ => True) s t := by
  refine onPower_ends ?_ e
  split
  · have blocks := (Passes.takeFrame s .safety).toHolds.trans (Keeps.restartBlocks _).holds
    have links (u : State) : Holds u (u.restartLinks.clearScratch.answer .safety Kind.restart.code tag .ok .empty) :=
      ⟨id, fun _ => id, .of_same rfl rfl, id, id⟩
    exact { blocks.trans (links _) with
      other := fun _ far => absurd trivial far
      marks := .inr rfl }
  · exact .refl s

/-! ### POWER_ON (R203) -/

theorem Keeps.queueSlots {xs : List Nat} (h : s.locks.slots.length = 24 → ∀ n ∈ xs, n < 24) :
    Keeps s (Machine.forEach xs (fun s n => s.queueWrite (.lockout n)) s) := by
  induction xs generalizing s with
  | nil => exact .refl s
  | cons n xs ih =>
    refine (Keeps.queueWrite fun k => RecordId.lockout_mem (h k.1 n List.mem_cons_self)).trans
      (ih (s := s.queueWrite (.lockout n)) fun k m hm => h k m (List.mem_cons_of_mem _ hm))

/-- A placement's slot is one of the table. -/
theorem Locks.judge_slot {l : Locks} {p : Placement} {n : Nat} (h : (l.judge p).slot = some n) : n < l.slots.length := by
  cases judged : l.judge p with
  | full => rw [judged] at h; cases h
  | merged m c =>
    rw [judged] at h
    cases h
    obtain ⟨⟨e, at_, _⟩, _⟩ := Locks.judge_merged judged
    exact Locks.slot_length (by rw [at_]; rfl)
  | created m =>
    rw [judged] at h
    cases h
    exact (Locks.judge_created judged).2.1

theorem State.placeEntry_length (s : State) (p : Placement) :
    (s.placeEntry p).locks.slots.length = s.locks.slots.length := by
  unfold State.placeEntry
  split
  · rfl
  · split
    · exact modAt_length ..
    · rfl
  · exact modAt_length ..

theorem Loosens.restored (s : State) : Loosens s.booted s.restored := by
  have length : s.booted.locks.slots.length = s.store.lockouts.length := List.length_map ..
  have placed := s.booted.placeEntry_length restorePlacement
  let t := s.booted.placeEntry restorePlacement
  have slot : Keeps t (t.queueSlot (s.booted.locks.judge restorePlacement).slot) := by
    unfold State.queueSlot
    split
    · exact .refl t
    next n judged =>
      exact .queueWrite fun k => RecordId.lockout_mem (by
        have short := Locks.judge_slot judged
        exact short.trans_eq (placed.symm.trans k.1))
  unfold State.restored State.restoreLockouts
  split
  · exact (Keeps.refl _).toLoosens
  · refine ((Loosens.placeEntry s.booted restorePlacement).trans slot.toLoosens).trans
      (Keeps.queueSlots fun k n hn => ?_).toLoosens
    obtain ⟨m, r, rfl, at_, -⟩ := mem_lostFrom.1 hn
    have short : m < s.store.lockouts.length := (List.getElem?_eq_some_iff.1 at_).1
    have same : (t.queueSlot (s.booted.locks.judge restorePlacement).slot).locks = t.locks := by
      unfold State.queueSlot
      split <;> rfl
    rw [same] at k
    have k : (s.booted.placeEntry restorePlacement).locks.slots.length = 24 := k
    omega

theorem sumOf_zero {α : Type} {xs : List α} {f : α → Nat} (h : ∀ x ∈ xs, f x = 0) : sumOf xs f = 0 := by
  rw [sumOf_eq_sum]
  exact List.sum_eq_zero fun n hn => by obtain ⟨x, hx, rfl⟩ := List.mem_map.1 hn; exact h x hx

theorem booted_zone (s : State) (z : ZoneId) : s.booted.zone z = .initial (s.store.loadZone z) := by
  obtain ⟨a, c⟩ := z
  have loaded : s.booted.heat.zones.get a = s.store.loadZones a := Six.get_of ..
  rw [State.zone, loaded]
  cases c <;> rfl

/-- A part just loaded draws its base load alone (R157). -/
theorem booted_load (s : State) : s.booted.load = (s.store.station.orElse .factory).base := by
  have standing : sumOf AxisId.all (fun i => (s.booted.standing i).watts) = 0 := by
    refine sumOf_zero fun i _ => ?_
    obtain ⟨a, x⟩ := i
    have none_ : s.booted.feed.standing.get a = ⟨⟨0, 0⟩, ⟨0, 0⟩⟩ := Six.get_const ..
    rw [State.standing, none_]
    cases x <;> rfl
  have groups : sumOf GroupId.all (fun g => ((s.booted.feed.groups.get g).map GroupGrant.watts).getD 0) = 0 :=
    sumOf_zero fun g _ => by cases g <;> rfl
  have waves : sumOf Ant.all (fun a => ((s.booted.feed.waves.get a).map WaveGrant.watts).getD 0) = 0 :=
    sumOf_zero fun a _ => by rw [show s.booted.feed.waves.get a = none from Six.get_const ..]; rfl
  have zones : s.booted.committed = 0 := sumOf_zero fun z _ => by rw [booted_zone]; exact Zone.wattsAt_zero _
  rw [State.load, State.driveGrants, standing, groups, waves, zones]
  rfl

/-- What a power-on puts in force fits (R158, R159). -/
theorem booted_afford (h : s.store.StationFits) : s.booted.Afford := by
  refine ⟨?_, fun g => by cases g <;> exact .nil, fun good => ?_, fun _ _ k => nomatch k⟩
  · rw [booted_load]
    show (s.store.station.orElse .factory).base ≤ (s.store.station.orElse .factory).limit
    unfold Stored.orElse
    split
    next good => exact h.1 good
    · decide
  · exact h.1 good

theorem booted_queues (s : State) : s.booted.QueuesOrdered :=
  queuesOrdered_of_noSegments fun a => by rw [show s.booted.track a = .initial from Six.get_const ..]; rfl

theorem Holds.flagBad (s : State) : Holds s s.flagBad := by
  rw [State.flagBad_eq]
  exact ⟨id, fun _ => id, .of_same rfl rfl, id, id⟩

theorem powerUp_afford (h : s.store.StationFits) : s.powerUp.Afford :=
  (Holds.flagBad _).afford ((Loosens.restored s).afford (booted_afford h))

theorem powerUp_queues (s : State) : s.powerUp.QueuesOrdered :=
  (Holds.flagBad _).queues ((Loosens.restored s).queues (booted_queues s))

theorem powerUp_keys (h : KeysOnce s.store.restoredSlots) : KeysOnce s.powerUp.locks.slots :=
  (Holds.flagBad _).keys ((Loosens.restored s).keys h)

theorem powerUp_heaters (s : State) (z : ZoneId) : s.powerUp.HeaterDriven z := by
  rw [State.HeaterDriven, powerUp_zone]
  exact ⟨rfl, Nat.zero_le _⟩

theorem powerUp_names (h : s.store.lockouts.length = 24) : s.powerUp.StoreNamed := by
  have length : s.booted.locks.slots.length = s.store.lockouts.length := List.length_map ..
  exact (Holds.flagBad _).names ((Loosens.restored s).names
    ⟨length.trans h, fun _ k => absurd k List.not_mem_nil, fun _ k => absurd k List.not_mem_nil, fun _ k => nomatch k⟩)

/-- No mark of a past event is left (R204). -/
theorem powerUp_scratch (s : State) : s.powerUp.scratch = ⟨false, false, 0, 0⟩ := by
  have placed : (s.booted.placeEntry restorePlacement).scratch = s.booted.scratch := by
    unfold State.placeEntry
    split
    · rfl
    · split <;> rfl
    · rfl
  have queued (s : State) (n : Option Nat) : (s.queueSlot n).scratch = s.scratch := by cases n <;> rfl
  rw [State.powerUp_eq, State.flagBad_eq]
  show s.restored.scratch = _
  unfold State.restored State.restoreLockouts
  split
  · rfl
  · have written (s : State) (n : Nat) : (s.queueWrite (.lockout n)).scratch = s.scratch := rfl
    exact (forEach_keeps State.scratch written _ _).trans ((queued ..).trans placed)

theorem unpowered_lawful (h : s.Lawful) : s.unpowered.Lawful := by
  unfold State.unpowered
  split
  · exact (Moves.losePower s).keeps h
  · exact h

theorem unpowered_fits (h : s.store.StationFits) : s.unpowered.store.StationFits := by
  rw [State.unpowered_store]
  split
  · exact h.lose
  · exact h

/-! ### Every step -/

/-- The law says nothing of the commands that wait, or of the clock. -/
theorem State.Lawful.of_pending (h : s.Lawful) (c : Clock) (p : List Instr) :
    ({ s with clock := c, pending := p } : State).Lawful :=
  h.of_same h.axes rfl rfl rfl (fun _ => le_rfl) rfl id rfl fun _ => ⟨rfl, rfl, rfl⟩

/-- What a step does: a command on the rest of the queue, or a millisecond (log 1). -/
theorem step_cases (h : step s = .next t) :
    (∃ c rest, s.pending = c :: rest ∧ exec c { s with pending := rest } = .next t)
      ∨ (s.pending = [] ∧ t = s.idle) := by
  unfold step at h
  split at h
  next none_ => exact .inr ⟨none_, (Host.Outcome.next.inj h).symm⟩
  next c rest whole => exact .inl ⟨c, rest, whole, h⟩

/-- What every command but POWER_ON keeps. -/
theorem exec_ends {c : Instr} (h : c ≠ .powerOn) (e : exec c s = .next t) : Ends (reaches c) s t := by
  cases k : unflagged c with
  | false => exact (exec_runs k e).toEnds
  | true =>
    cases c with
    | powerOn => exact absurd rfl h
    | restart => exact restart_ends e
    | changesAck l tag v m =>
      have ended := changesAck_ends e
      exact { ended with other := fun k far => ended.other k fun same => far (same ▸ rfl) }
    | _ => cases k

theorem exec_traffic {c : Instr} {l : Link} (e : exec c s = .next t) (other : ¬ reaches c l) :
    (t.link l).traffic = (s.link l).traffic :=
  (exec_ends (fun h => other (by subst h; trivial)) e).other l other

/-- Settles O8: the parts that every command touches, and the traffic of the links that it does not come over. -/
theorem commandsTouchOnlyTheirParts : Obligations.CommandsTouchOnlyTheirParts := by
  refine ⟨fun c s t e => (exec_moves e).touches, fun c s t l e other => ?_⟩
  split
  · trivial
  · trivial
  · trivial
  next on restart clock =>
    refine exec_traffic e fun own => other ?_
    cases c with
    | powerOn => exact absurd rfl on
    | restart tag => exact absurd rfl (restart tag)
    | timeSet tag n => exact absurd rfl (clock tag n)
    | _ => exact own

/-- Settles O7: an event grants within the room alone, and a power-on puts fitting figures in force. -/
theorem everyStepKeepsTheFeedLimit : Obligations.EveryStepKeepsTheFeedLimit := by
  intro s t within e
  rw [State.withinLimit_iff] at within ⊢
  obtain ⟨c, rest, -, ran⟩ | ⟨-, rfl⟩ := step_cases e
  · have start : ({ s with pending := rest } : State).Afford := within
    by_cases on : c = .powerOn
    · subst on
      obtain rfl := Host.Outcome.next.inj ((exec_powerOn _).symm.trans ran)
      exact powerUp_afford (unpowered_fits start.2.2)
    · exact (exec_ends on ran).afford start
  · unfold State.idle
    split
    · exact within
    · exact within

/-- Settles O6: an event leaves each zone below its ceiling and clears its marks, and a power-on starts every zone at 0. -/
theorem everyStepKeepsTidy : Obligations.EveryStepKeepsTidy := by
  rintro s t lawful ⟨heaters, queued, overflowed, written, marks⟩ e
  have tidy {u : State} (zones : ∀ z, u.HeaterDriven z) (names : u.StoreNamed) (marks : u.scratch = ⟨false, false, 0, 0⟩) :
      u.Tidy := ⟨zones, names.2.1, names.2.2.1, names.2.2.2, marks⟩
  have named : s.StoreNamed := ⟨lawful.bounded.slots, queued, overflowed, written⟩
  obtain ⟨c, rest, -, ran⟩ | ⟨-, rfl⟩ := step_cases e
  · by_cases on : c = .powerOn
    · subst on
      obtain rfl := Host.Outcome.next.inj ((exec_powerOn _).symm.trans ran)
      have loaded := unpowered_lawful (lawful.of_pending s.clock rest)
      exact tidy (powerUp_heaters _) (powerUp_names loaded.bounded.lockouts) (powerUp_scratch _)
    · have ended := exec_ends on ran
      exact tidy (fun z => ended.heaters z (heaters z)) (ended.names named)
        (ended.marks.elim (fun same => same.trans marks) id)
  · unfold State.idle
    split
    · exact tidy heaters named marks
    · exact tidy heaters named marks

/-- Settles O4: the law by the parts of each command, the queues' order and the keys by what it keeps. -/
theorem everyStepKeepsLawful : Obligations.EveryStepKeepsLawful := by
  refine ⟨fun s t lawful e => ?_, fun s t ordered e => ?_, fun c s t e on once => (exec_ends on e).keys once,
    fun s t e once => ?_⟩
  · obtain ⟨c, rest, -, ran⟩ | ⟨-, rfl⟩ := step_cases e
    · exact (exec_moves ran).keeps (lawful.of_pending s.clock rest)
    · unfold State.idle
      split
      · exact lawful.of_pending ..
      · exact lawful
  · obtain ⟨c, rest, -, ran⟩ | ⟨-, rfl⟩ := step_cases e
    · by_cases on : c = .powerOn
      · subst on
        obtain rfl := Host.Outcome.next.inj ((exec_powerOn _).symm.trans ran)
        exact powerUp_queues _
      · exact (exec_ends on ran).queues (State.QueuesOrdered.of_same (s := s) rfl rfl ordered)
    · unfold State.idle
      split
      · exact State.QueuesOrdered.of_same (s := s) rfl rfl ordered
      · exact ordered
  · obtain rfl := Host.Outcome.next.inj ((exec_powerOn _).symm.trans e)
    refine powerUp_keys ?_
    rw [State.unpowered_store]
    exact once

end Sys2Proof.Machine
end

