-- ==== Sys2Proof/Proofs/EventFlags.lean ====
section
/-! PROOFS. Every event flags what it changes (R195, R196): each change that the statement names sets its flag in
`changesBetween`, and each flag there is set on the links that carry it. -/

namespace Sys2Proof.Machine

variable {s t : State} {a : Ant}

/-! ### Bits of the flag word (R210) -/

theorem State.flagged_bit {w : FlagWord} (h : t.flagged w) {l : Link} {n : Nat} (carried : (Link.mask l).getLsbD n = true)
    (set_ : w.getLsbD n = true) : (t.link l).flags.getLsbD n = true := by
  have same := congrArg (BitVec.getLsbD · n) (h l)
  simp only [BitVec.getLsbD_and, carried, set_, Bool.and_true] at same
  exact same

theorem antFlag_bit (f : AntFlag) (a : Ant) : (antFlag f a).getLsbD (6 * a.num + f.place) = true := by
  cases a <;> cases f <;> decide

theorem antFlag_carried (f : AntFlag) (a : Ant) : ∀ l ∈ [Link.operations, .safety, .pendant a],
    (Link.mask l).getLsbD (6 * a.num + f.place) = true := by
  cases a <;> cases f <;> decide

theorem stationFlag_bit (f : StationFlag) : (stationFlag f).getLsbD f.bit = true := by cases f <;> decide

theorem stationFlag_carried (f : StationFlag) : ∀ l ∈ [Link.operations, .safety],
    (Link.mask l).getLsbD f.bit = true := by cases f <;> decide

theorem wordIf_bit {b : Bool} {w : FlagWord} {n : Nat} (h : b = true) (k : w.getLsbD n = true) :
    (wordIf b w).getLsbD n = true := by rwa [wordIf, if_pos h]

/-- A change of an antenna is one of the event. -/
theorem changesBetween_ant {n : Nat} (a : Ant) (h : (antChanges s t a).getLsbD n = true) :
    (changesBetween s t).getLsbD n = true := by
  simp only [changesBetween, Ant.all, List.foldl_cons, List.foldl_nil, BitVec.getLsbD_or]
  cases a <;> simp [h]

theorem changesBetween_wind (h : windFlagSet s.wind t.wind = true) : (changesBetween s t).getLsbD 36 = true := by
  have own := wordIf_bit h (stationFlag_bit .wind)
  simp only [StationFlag.bit] at own
  simp [changesBetween, Ant.all, own]

theorem changesBetween_ice (h : iceFlagSet s t = true) : (changesBetween s t).getLsbD 37 = true := by
  have own := wordIf_bit h (stationFlag_bit .ice)
  simp only [StationFlag.bit] at own
  simp [changesBetween, Ant.all, own]

/-! ### What sets each flag of an antenna -/

theorem axisFlagSet_of {ax : AxisName}
    (h : axisChanged (s.axis ⟨a, ax⟩) (t.axis ⟨a, ax⟩) (s.axisIn ⟨a, ax⟩) (t.axisIn ⟨a, ax⟩) = true) :
    axisFlagSet s t a = true := by
  cases ax <;> simp [axisFlagSet, h]

/-- A GROUP change of R90. -/
theorem groupSets_of {p q : Group} (h : (q.state ≠ p.state ∧ q.state ≠ .empty ∧ q.has a = true)
      ∨ (q.state = .empty ∧ (p.state = .planned ∨ p.state = .armed) ∧ p.has a = true)
      ∨ (p.state = .halted ∧ q.state = .halted ∧ p.held = true ∧ q.held = false ∧ q.has a = true)) :
    groupSets p q a = true := by
  unfold groupSets
  obtain ⟨changed, some_, has⟩ | ⟨none_, planned | armed, has⟩ | ⟨before, after, held, free, has⟩ := h
  · rw [if_pos changed.symm, if_neg some_, has]
  · simp [none_, planned, has]
  · simp [none_, armed, has]
  · simp [before, after, held, free, has]

/-- A LOCK change of a slot (R101). -/
theorem lockFlagSet_of {n : Nat} (length : s.locks.slots.length = t.locks.slots.length) (short : n < t.locks.slots.length)
    (h : slotSetsLock s t a (s.locks.slot n) (t.locks.slot n) = true) : lockFlagSet s t a = true := by
  have pair : (s.locks.slot n, t.locks.slot n) ∈ s.locks.slots.zip t.locks.slots := by
    have before : s.locks.slot n = s.locks.slots[n] := by rw [Locks.slot, List.getElem?_eq_getElem (length ▸ short)]; rfl
    have after : t.locks.slot n = t.locks.slots[n] := by rw [Locks.slot, List.getElem?_eq_getElem short]; rfl
    have bound : n < (s.locks.slots.zip t.locks.slots).length := by rw [List.length_zip]; omega
    rw [before, after, ← List.getElem_zip (h := bound)]
    exact List.getElem_mem _
  refine Bool.or_eq_true_iff.2 (.inr (List.any_eq_true.2 ⟨_, pair, h⟩))

theorem slotSetsLock_of {x y : Option LockEntry} {e : LockEntry} (reached : e.reaches a = true)
    (h : (x = some e ∧ y ≠ some e) ∨ (y = some e ∧ x ≠ some e)
      ∨ (x = some e ∧ y = some e ∧ t.entryEffective e ≠ s.entryEffective e)) : slotSetsLock s t a x y = true := by
  unfold slotSetsLock
  obtain ⟨rfl, gone⟩ | ⟨rfl, new⟩ | ⟨rfl, rfl, changed⟩ := h
  · simp [entryTouches, reached, Ne.symm gone]
  · simp [entryTouches, reached, new]
  · simp [entryTouches, reached, entryStateChanged, Ne.symm changed]

/-! ### Every event -/

/-- Settles O9: what an event changed is in its flags, and its end sets them and tells of them. -/
theorem eventsFlagWhatTheyChange : Obligations.EventsFlagWhatTheyChange := by
  intro c s t e none_
  split
  · trivial
  · trivial
  · trivial
  next on restart ack =>
  have quiet : unflagged c = false := by
    cases c with
    | powerOn => exact absurd rfl on
    | restart tag => exact absurd rfl (restart tag)
    | changesAck l tag v m => exact absurd rfl (ack l tag v m)
    | _ => rfl
  obtain ⟨flagged, kept, notices⟩ := (exec_runs quiet e).told none_
  have ant (f : AntFlag) (a : Ant) (h : (antChanges s t a).getLsbD (6 * a.num + f.place) = true) :
      ∀ l ∈ [Link.operations, .safety, .pendant a], (t.link l).flags.getLsbD (6 * a.num + f.place) = true :=
    fun l hl => State.flagged_bit flagged (antFlag_carried f a l hl) (changesBetween_ant a h)
  have station (f : StationFlag) (h : (changesBetween s t).getLsbD f.bit = true) :
      ∀ l ∈ [Link.operations, .safety], (t.link l).flags.getLsbD f.bit = true :=
    fun l hl => State.flagged_bit flagged (stationFlag_carried f l hl) h
  refine ⟨flagged, fun a ax h => ant .axis a ?_, fun a g h => ant .group a ?_, fun a h => ant .stow a ?_,
    fun a h => ant .lock a ?_, fun z h => ant .heat z.ant ?_, fun h => station .wind (changesBetween_wind ?_),
    fun a h => station .ice (changesBetween_ice ?_), kept, notices⟩
  · have set_ : axisFlagSet s t a = true := by
      obtain state | active | a_ | b_ | ⟨enc, health⟩ | ready | bus := h
      · exact axisFlagSet_of (ax := ax) (by simp [axisChanged, Ne.symm state])
      · exact axisFlagSet_of (ax := ax) (by simp [axisChanged, Ne.symm active])
      · exact axisFlagSet_of (ax := ax) (by simp [axisChanged, Ne.symm a_])
      · exact axisFlagSet_of (ax := ax) (by simp [axisChanged, Ne.symm b_])
      · refine axisFlagSet_of (ax := ax) ?_
        cases enc <;> simp [axisChanged, Ne.symm health]
      · simp [axisFlagSet, Ne.symm ready]
      · simp [axisFlagSet, Ne.symm bus]
    simp [antChanges, wordIf_bit set_ (antFlag_bit .axis a)]
  · have set_ : groupFlagSet s t a = true :=
      List.any_eq_true.2 ⟨g, by cases g <;> decide, groupSets_of h⟩
    simp [antChanges, wordIf_bit set_ (antFlag_bit .group a)]
  · simp only [antChanges, BitVec.getLsbD_or, wordIf_bit (decide_eq_true (Ne.symm h)) (antFlag_bit .stow a), Bool.or_true,
      Bool.true_or]
  · have set_ : lockFlagSet s t a = true := by
      obtain remote | ⟨n, x, length, reached, changed⟩ := h
      · have moved : (s.locks.authority.get a).isLocal ≠ (t.locks.authority.get a).isLocal :=
          fun same => remote (by rw [State.remote, State.remote, same])
        simp [lockFlagSet, moved]
      · have short : n < t.locks.slots.length := by
          obtain ⟨before, -⟩ | ⟨after, -⟩ | ⟨before, -⟩ := changed
          · exact length ▸ Locks.slot_length (by rw [before]; rfl)
          · exact Locks.slot_length (by rw [after]; rfl)
          · exact length ▸ Locks.slot_length (by rw [before]; rfl)
        exact lockFlagSet_of length short (slotSetsLock_of reached changed)
    simp [antChanges, wordIf_bit set_ (antFlag_bit .lock a)]
  · have set_ : heatFlagSet s t z.ant = true := by
      refine List.any_eq_true.2 ⟨z, Ant.zones_mem z, ?_⟩
      obtain health | forced := h
      · simp [Ne.symm health]
      · simp [Ne.symm forced]
    simp [antChanges, wordIf_bit set_ (antFlag_bit .heat z.ant)]
  · obtain h | h | h | h | h | h | h := h <;> simp [windFlagSet, Ne.symm h]
  · exact List.any_eq_true.2 ⟨a, by cases a <;> decide, decide_eq_true (Ne.symm h)⟩

end Sys2Proof.Machine
end

