-- ==== Sys2Proof/Proofs/RestartStops.lean ====
section
/-! PROOFS. What stop requests toward BRAKED, conversions of grants and the rounds of a RESTART do to one axis (R18, R28,
R168, R173). -/

namespace Sys2Proof.Machine

variable {s t : State}

/-! ### One item of a walk -/

/-- A walk reaches an item once: what every other item's step keeps holds from the start of the walk up to that step, and
from it to the end of the walk. -/
theorem forEach_split {κ : Type} {f : State → κ → State} {P : State → State → Prop} {k : κ} (refl : ∀ s, P s s)
    (trans : ∀ s t u, P s t → P t u → P s u) (other : ∀ s j, j ≠ k → P s (f s j)) {ks : List κ} (once : ks.Nodup)
    (mem : k ∈ ks) (s : State) : ∃ u, P s u ∧ P (f u k) (forEach ks f s) := by
  have away : ∀ (js : List κ) (s : State), k ∉ js → P s (forEach js f s) := by
    intro js
    induction js with
    | nil => exact fun s _ => refl s
    | cons j js ih =>
      intro s out
      exact trans _ _ _ (other s j (List.ne_of_not_mem_cons out).symm) (ih _ (List.not_mem_of_not_mem_cons out))
  obtain ⟨before, after, rfl⟩ := List.append_of_mem mem
  obtain ⟨_, once, apart⟩ := List.nodup_append.1 once
  refine ⟨forEach before f s, away before s fun h => apart k h k List.mem_cons_self rfl, ?_⟩
  have walked : forEach (before ++ k :: after) f s = forEach after f (f (forEach before f s) k) := List.foldl_append ..
  rw [walked]
  exact away after _ (List.nodup_cons.1 once).1

/-! ### What a stop request reaches -/

/-- One axis, its standing grant and the marks of the event are all that differ. -/
structure AxisAlone (i : AxisId) (s t : State) : Prop where
  shape : t = { s with ants := t.ants, feed := { s.feed with standing := t.feed.standing }, scratch := t.scratch }
  away : ∀ j, j ≠ i → t.axis j = s.axis j ∧ t.standing j = s.standing j

namespace AxisAlone

variable {i : AxisId}

theorem refl (s : State) : AxisAlone i s s := ⟨rfl, fun _ _ => ⟨rfl, rfl⟩⟩

theorem trans {u : State} (h : AxisAlone i s t) (k : AxisAlone i t u) : AxisAlone i s u where
  shape := k.shape.trans (by rw [h.shape])
  away j far := ⟨(k.away j far).1.trans (h.away j far).1, (k.away j far).2.trans (h.away j far).2⟩

theorem modAxis (s : State) (f : Axis → Axis) : AxisAlone i s (s.modAxis i f) :=
  ⟨rfl, fun j far => ⟨by rw [State.axis_modAxis, if_neg far], rfl⟩⟩

theorem changeStanding (s : State) (g : Standing) : AxisAlone i s (s.changeStanding i g) := by
  unfold State.changeStanding State.markFreedIf
  split
  all_goals exact ⟨rfl, fun j far => ⟨rfl, (State.standing_setStanding ..).trans (if_neg far)⟩⟩

theorem enterAxis (s : State) (st : AxisState) : AxisAlone i s (s.enterAxis i st) :=
  (modAxis s _).trans (changeStanding ..)

theorem goBraking (s : State) (p : PendingStop) : AxisAlone i s (s.goBraking i p) :=
  (enterAxis s .braking).trans (modAxis ..)

theorem startStop (s : State) (r : StopReason) (d : StopTarget) : AxisAlone i s (s.startStop i r d) := by
  unfold State.startStop State.endStop
  dsimp only
  have begun (x : StopRecord) : AxisAlone i s ((s.modAxis i fun v => { v with stop := some x }).enterAxis i .stopping) :=
    (modAxis s _).trans (enterAxis ..)
  split
  · split
    · exact (begun _).trans (enterAxis ..)
    · exact (begun _).trans (goBraking ..)
  · exact begun _

theorem takeStop (s : State) (r : StopReason) (d : StopTarget) : AxisAlone i s (s.takeStop i r d) := by
  unfold State.takeStop
  split
  case h_1 | h_2 | h_3 | h_4 => exact refl s
  case h_5 => split; exacts [refl s, modAxis ..]
  case h_6 => split; exacts [refl s, by split; exacts [modAxis .., goBraking ..]]
  case h_7 | h_8 | h_9 => exact startStop ..
  case h_10 | h_11 => exact modAxis ..

theorem stopAxis (s : State) (r : StopReason) (d : StopTarget) : AxisAlone i s (s.stopAxis i r d) := by
  unfold State.stopAxis
  split
  · exact takeStop ..
  · exact (modAxis s _).trans (takeStop ..)

end AxisAlone

/-! ### A stop request toward BRAKED on one axis (R18) -/

/-- What a stop toward BRAKED makes of an axis. -/
structure Axis.PutDown (r : StopReason) (x y : Axis) : Prop where
  claims : y.claims.any = false
  held : x.ready = true → y.state = .braking ∧ y.pendingStop = some ⟨some r, .braked⟩
  stopping : ∀ q, x.state = .stopping → x.stop = some q → y.state = .stopping
    ∧ y.stop = some { q with target := if q.target = .off then .off else .braked }
  runs : x.state.runs = true → x.velocity ≠ 0 → y.Stops r .braked
  power : x.state.amplifierOn = true → y.state.torqueOn = true ∧ y.cover = x.cover

/-- What what follows a RESTART makes of an axis and its standing grant: it may only go further down. -/
structure Axis.Sinks (x y : Axis) (g h : Standing) : Prop where
  claims : x.claims.any = false → y.claims.any = false
  moving : y.state.moving = x.state.moving
  faulted : y.state.isFaulted = x.state.isFaulted
  runs : x.state.moving = true → y = x
  brakes : x.state = .braking → ∀ p, x.pendingStop = some p → p.target = .braked → y.state = .braking ∧ y.pendingStop = some p
  power : x.state.torqueOn = true → y.state.torqueOn = true ∧ y.cover = x.cover ∧ (g.watts ≤ g.hold → h = g)

theorem Axis.Sinks.refl (x : Axis) (g : Standing) : x.Sinks x g g :=
  ⟨id, rfl, rfl, fun _ => rfl, fun h _ k _ => ⟨h, k⟩, fun h => ⟨h, rfl, fun _ => rfl⟩⟩

theorem Axis.Sinks.trans {x y z : Axis} {g h k : Standing} (m : x.Sinks y g h) (n : y.Sinks z h k) : x.Sinks z g k where
  claims := n.claims ∘ m.claims
  moving := n.moving.trans m.moving
  faulted := n.faulted.trans m.faulted
  runs on := (n.runs (m.moving.trans on)).trans (m.runs on)
  brakes st p e target := by
    obtain ⟨st', e'⟩ := m.brakes st p e target
    exact n.brakes st' p e' target
  power on := by
    obtain ⟨on', cover, figure⟩ := m.power on
    obtain ⟨on'', cover', figure'⟩ := n.power on'
    exact ⟨on'', cover'.trans cover, fun le => (figure' (figure le ▸ le)).trans (figure le)⟩

theorem State.axis_goBraking_own (s : State) (i : AxisId) (p : PendingStop) :
    (s.goBraking i p).axis i = { (s.axis i).enter s.now .braking with pendingStop := some p } := by
  unfold State.goBraking
  rw [State.axis_modAxis, if_pos rfl, State.axis_enterAxis, if_pos rfl]

theorem State.startStop_rests {i : AxisId} (r : StopReason) (still : (s.axis i).velocity = 0) :
    ((s.startStop i r .braked).axis i).state = .braking ∧ ((s.startStop i r .braked).axis i).claims = (s.axis i).claims
      ∧ ((s.startStop i r .braked).axis i).cover = (s.axis i).cover := by
  unfold State.startStop State.endStop
  dsimp only
  rw [if_pos still, State.axis_goBraking_own, State.axis_enterAxis, if_pos rfl, State.axis_modAxis, if_pos rfl]
  exact ⟨rfl, rfl, rfl⟩

theorem Axis.holding_of_ready {x : Axis} (h : x.ready = true) : x.state = .holding :=
  of_decide_eq_true (Bool.and_eq_true_iff.1 h).1

theorem AxisState.moving_of_runs {x : AxisState} (h : x.runs = true) : x.moving = true := by
  cases x
  case slewing | tracking | jogging => rfl
  all_goals cases h

theorem AxisState.torqueOn_of_amplifier {x : AxisState} (h : x.amplifierOn = true) (still : x.runs = false) :
    x.torqueOn = true := by
  cases x
  case faulted c => cases c <;> trivial
  case off | precharge | braked => cases h
  case slewing | tracking | jogging => cases still
  all_goals rfl

/-- An axis that neither moves nor holds, where only its torque is to be told of. -/
theorem Axis.PutDown.of_still {x y : Axis} {r : StopReason} {st : AxisState} (e : x.state = st)
    (still : st.moving = false) (away : st ≠ .holding) (idle : y.claims.any = false)
    (power : st.amplifierOn = true → y.state.torqueOn = true ∧ y.cover = x.cover) : x.PutDown r y where
  claims := idle
  held h := absurd (e.symm.trans (Axis.holding_of_ready h)) away
  stopping _ h := by rw [← e, h] at still; cases still
  runs on := by rw [← e, AxisState.moving_of_runs on] at still; cases still
  power on := power (e ▸ on)

/-- A stop of a claimless axis toward BRAKED, in each of its states. -/
theorem State.takeStop_putDown {i : AxisId} (r : StopReason) (idle : (s.axis i).claims.any = false) :
    (s.axis i).PutDown r ((s.takeStop i r .braked).axis i) := by
  have runs (on : (s.axis i).state.runs = true) : (s.axis i).PutDown r ((s.startStop i r .braked).axis i) := by
    have away {st : AxisState} (h : st.runs = false) : (s.axis i).state ≠ st := fun e => by rw [e, h] at on; cases on
    have rising : (s.axis i).ready ≠ true := fun h => away (st := .holding) rfl (Axis.holding_of_ready h)
    by_cases still : (s.axis i).velocity = 0
    · obtain ⟨state, claims, cover⟩ := s.startStop_rests r still
      exact ⟨claims ▸ idle, fun h => absurd h rising, fun _ h => absurd h (away rfl), fun _ moves => absurd still moves,
        fun _ => ⟨by rw [state]; rfl, cover⟩⟩
    · rw [State.startStop_axis _ _ _ _ still]
      exact ⟨idle, fun h => absurd h rising, fun _ h => absurd h (away rfl), fun _ _ => ⟨rfl, _, rfl, rfl, rfl⟩,
        fun _ => ⟨rfl, rfl⟩⟩
  unfold State.takeStop
  cases e : (s.axis i).state with
  | off | precharge | braked =>
    exact .of_still e rfl (by decide) idle fun h => by cases h
  | faulted c => exact .of_still e rfl (by simp) idle fun h => ⟨(congrArg AxisState.torqueOn e).trans (AxisState.torqueOn_of_amplifier h rfl), rfl⟩
  | torqueUp =>
    dsimp only
    rw [if_neg (by decide), State.axis_modAxis, if_pos rfl]
    exact .of_still e rfl (by decide) idle fun _ => ⟨by simp [Axis.holdStop, e]; rfl, rfl⟩
  | holding =>
    dsimp only
    rw [if_neg (by decide)]
    split
    next check =>
      rw [State.axis_modAxis, if_pos rfl]
      refine ⟨idle, fun h => ?_, fun _ h => absurd (e.symm.trans h) (by decide), fun h => absurd (e ▸ h) (by decide), fun _ => ⟨?_, rfl⟩⟩
      · simp [Axis.ready, Option.isSome_iff_ne_none.1 check] at h
      · show (s.axis i).state.torqueOn = true
        rw [e]; rfl
    next =>
      rw [State.axis_goBraking_own]
      exact ⟨idle, fun _ => ⟨rfl, rfl⟩, fun _ h => absurd (e.symm.trans h) (by decide), fun h => absurd (e ▸ h) (by decide),
        fun _ => ⟨rfl, rfl⟩⟩
  | slewing | tracking | jogging => exact runs (by rw [e]; rfl)
  | stopping =>
    dsimp only
    rw [State.axis_modAxis, if_pos rfl]
    refine ⟨idle, fun h => by simp [Axis.ready, e] at h, fun q _ stop => ⟨e, ?_⟩, fun h => absurd (e ▸ h) (by decide),
      fun _ => ⟨?_, rfl⟩⟩
    · show (s.axis i).stop.map _ = _
      rw [stop]
      cases h : q.target <;> simp [h, deeper, StopTarget.depth]
    · show (s.axis i).state.torqueOn = true
      rw [e]; rfl
  | braking =>
    dsimp only
    rw [State.axis_modAxis, if_pos rfl]
    refine .of_still e rfl (by decide) idle fun _ => ⟨?_, rfl⟩
    show (s.axis i).state.torqueOn = true
    rw [e]; rfl

/-- A stop request toward BRAKED takes the axis's claims and puts it down (R18). -/
theorem State.stopAxis_putDown (s : State) (i : AxisId) (r : StopReason) :
    (s.axis i).PutDown r ((s.stopAxis i r .braked).axis i) := by
  let x := s.axis i
  let timer := if x.state = .holding ∧ x.claims.motion = true then some s.now else x.idleTimer
  have cleared : (s.clearClaims i).axis i = { x with claims := .none, idleTimer := timer } := by
    unfold State.clearClaims
    rw [State.axis_modAxis, if_pos rfl]
  have taken := (s.clearClaims i).takeStop_putDown r (i := i) (by rw [cleared]; rfl)
  unfold State.stopAxis
  rw [if_neg (by decide)]
  rw [cleared] at taken
  exact ⟨taken.claims, taken.held, taken.stopping, taken.runs, taken.power⟩

/-! ### A stop request on an axis at rest -/

theorem State.standing_changeStanding_own (s : State) (i : AxisId) (g : Standing) :
    (s.changeStanding i g).standing i = g := by
  unfold State.changeStanding State.markFreedIf
  split
  all_goals exact (State.standing_setStanding ..).trans (if_pos rfl)

theorem State.standing_goBraking_own (s : State) (i : AxisId) (p : PendingStop) :
    (s.goBraking i p).standing i = standingIn .braking (s.standing i) :=
  State.standing_changeStanding_own ..

/-- A kept stop toward BRAKED, or a deeper one, is not deepened again. -/
theorem deeper_braked {d : StopTarget} (h : d = .braked) : deeper d .braked = d := by rw [h]; rfl

/-- A stop toward BRAKED of a claimless axis that does not move, in each of its states. -/
theorem State.takeStop_sinks {i : AxisId} (r : StopReason) (still : (s.axis i).state.moving = false) :
    (s.axis i).Sinks ((s.takeStop i r .braked).axis i) (s.standing i) ((s.takeStop i r .braked).standing i) := by
  have kept (off : (s.axis i).state ≠ .braking) :
      (s.axis i).Sinks ((s.axis i).holdStop r .braked) (s.standing i) (s.standing i) :=
    ⟨id, rfl, rfl, fun on => absurd (still.symm.trans on) Bool.false_ne_true, fun h => absurd h off, fun h => ⟨h, rfl, fun _ => rfl⟩⟩
  unfold State.takeStop
  cases e : (s.axis i).state with
  | off | precharge | braked | faulted => exact .refl ..
  | torqueUp =>
    dsimp only
    rw [if_neg (by decide), State.axis_modAxis, if_pos rfl]
    exact kept (by rw [e]; decide)
  | holding =>
    dsimp only
    rw [if_neg (by decide)]
    split
    next => rw [State.axis_modAxis, if_pos rfl]; exact kept (by rw [e]; decide)
    next =>
      rw [State.axis_goBraking_own, State.standing_goBraking_own]
      refine ⟨id, by rw [e]; rfl, by rw [e]; rfl, fun on => absurd (still.symm.trans on) Bool.false_ne_true,
        fun h => absurd (e.symm.trans h) (by decide), fun _ => ⟨rfl, rfl, fun le => ?_⟩⟩
      unfold standingIn
      dsimp only
      rw [Nat.min_eq_left le]
  | slewing | tracking | jogging | stopping => rw [e] at still; cases still
  | braking =>
    dsimp only
    rw [State.axis_modAxis, if_pos rfl]
    refine ⟨id, rfl, rfl, fun on => absurd (still.symm.trans on) Bool.false_ne_true, fun _ p kept target => ⟨e, ?_⟩,
      fun h => ⟨h, rfl, fun _ => rfl⟩⟩
    unfold Axis.holdStop
    rw [kept]
    dsimp only
    rw [deeper_braked target]

theorem State.stopAxis_sinks {i : AxisId} (r : StopReason) (still : (s.axis i).state.moving = false) :
    (s.axis i).Sinks ((s.stopAxis i r .braked).axis i) (s.standing i) ((s.stopAxis i r .braked).standing i) := by
  let x := s.axis i
  let timer := if x.state = .holding ∧ x.claims.motion = true then some s.now else x.idleTimer
  have cleared : (s.clearClaims i).axis i = { x with claims := .none, idleTimer := timer } := by
    unfold State.clearClaims
    rw [State.axis_modAxis, if_pos rfl]
  have taken := (s.clearClaims i).takeStop_sinks r (i := i) (by rw [cleared]; exact still)
  unfold State.stopAxis
  rw [if_neg (by decide)]
  rw [cleared] at taken
  exact ⟨fun _ => taken.claims rfl, taken.moving, taken.faulted,
    fun on => absurd (still.symm.trans on) Bool.false_ne_true, taken.brakes, taken.power⟩

/-! ### What follows a RESTART (R125, R173) -/

/-- What an antenna that comes to rest goes to (R125). -/
def State.restingState (s : State) (a : Ant) : StowState :=
  if s.covered a then .blocked else if s.anyFaulted a then .driveFailed else .waiting

/-- What follows a RESTART: axes only sink, and an antenna that is STOPPING is decided once it rests. -/
structure Sinks (s t : State) : Prop where
  shape : t = { s with
    ants := t.ants, feed := { s.feed with standing := t.feed.standing }
    stow := { s.stow with records := t.stow.records }, scratch := t.scratch }
  axes : ∀ i, (s.axis i).Sinks (t.axis i) (s.standing i) (t.standing i)
  stow : ∀ a, t.stowOf a = s.stowOf a ∨ (s.stowOf a).state = .stopping ∧ s.moving a = false
    ∧ t.stowOf a = { s.stowOf a with state := s.restingState a }

namespace Sinks

theorem refl (s : State) : Sinks s s := ⟨rfl, fun _ => .refl .., fun _ => .inl rfl⟩

theorem moving (h : Sinks s t) (a : Ant) : t.moving a = s.moving a := by
  unfold State.moving
  rw [(h.axes _).moving, (h.axes _).moving]

theorem restingState (h : Sinks s t) (a : Ant) : t.restingState a = s.restingState a := by
  have covered : t.covered a = s.covered a := by rw [h.shape]; rfl
  have faulted : t.anyFaulted a = s.anyFaulted a := by
    show ((t.axis ⟨a, .az⟩).state.isFaulted || (t.axis ⟨a, .el⟩).state.isFaulted)
      = ((s.axis ⟨a, .az⟩).state.isFaulted || (s.axis ⟨a, .el⟩).state.isFaulted)
    rw [(h.axes _).faulted, (h.axes _).faulted]
  unfold State.restingState
  rw [covered, faulted]

theorem resting_ne_stopping (s : State) (a : Ant) : s.restingState a ≠ .stopping := by
  unfold State.restingState
  split
  · decide
  · split <;> decide

theorem trans {u : State} (h : Sinks s t) (k : Sinks t u) : Sinks s u where
  shape := k.shape.trans (by rw [h.shape])
  axes i := (h.axes i).trans (k.axes i)
  stow a := by
    rcases h.stow a with same | ⟨stopping, still, rest⟩
    · rw [← same, ← h.moving, ← h.restingState]
      exact k.stow a
    · rcases k.stow a with same | ⟨stopping', _⟩
      · exact .inr ⟨stopping, still, same.trans rest⟩
      · rw [rest] at stopping'
        exact absurd stopping' (resting_ne_stopping s a)

theorem forEach {α : Type} {f : State → α → State} (h : ∀ s x, Sinks s (f s x)) (xs : List α) (s : State) :
    Sinks s (forEach xs f s) := by
  induction xs generalizing s with
  | nil => exact .refl s
  | cons x xs ih => exact (h s x).trans (ih _)

theorem ite {c : Prop} [Decidable c] (h : c → Sinks s t) (k : Sinks s s) : Sinks s (if c then t else s) := by
  split
  · exact h ‹_›
  · exact k

theorem of_scratch (m : Scratch) : Sinks s { s with scratch := m } := ⟨rfl, fun _ => .refl .., fun _ => .inl rfl⟩

theorem clearMarks (s : State) : Sinks s s.clearMarks := of_scratch _

theorem stopAxis {i : AxisId} (r : StopReason) (still : (s.axis i).state.moving = false) :
    Sinks s (s.stopAxis i r .braked) := by
  have alone := AxisAlone.stopAxis (i := i) s r .braked
  refine ⟨by rw [alone.shape], fun j => ?_, fun a => .inl (by rw [alone.shape]; rfl)⟩
  by_cases own : j = i
  · subst own
    exact s.stopAxis_sinks r still
  · rw [(alone.away j own).1, (alone.away j own).2]
    exact .refl ..

theorem stopBoth {a : Ant} (r : StopReason) (still : s.moving a = false) : Sinks s (s.stopBoth a r .braked) := by
  obtain ⟨az, el⟩ := Bool.or_eq_false_iff.1 still
  have first := stopAxis (i := ⟨a, .az⟩) r az
  exact first.trans (stopAxis r ((first.axes ⟨a, .el⟩).moving.trans el))

theorem setStow {a : Ant} (stopping : (s.stowOf a).state = .stopping) (still : s.moving a = false) :
    Sinks s (s.setStow a (s.restingState a)) := by
  refine ⟨rfl, fun _ => .refl .., fun b => ?_⟩
  unfold State.setStow
  rw [State.stowOf_modStow]
  split
  next own =>
    subst own
    exact .inr ⟨stopping, still, rfl⟩
  next => exact .inl rfl

/-- An antenna that rests is decided, and put down where it is BLOCKED. -/
theorem decided {a : Ant} (stopping : (s.stowOf a).state = .stopping) (still : s.moving a = false) :
    Sinks (s.setStow a (s.restingState a)) (s.stowAtRest a) := by
  have set := setStow stopping still
  unfold State.stowAtRest
  rw [if_pos ⟨stopping, still⟩]
  unfold State.restingState at set ⊢
  split
  next covered =>
    rw [if_pos covered] at set
    exact stopBoth .blocked ((set.moving a).trans still)
  next =>
    split
    · exact refl _
    · exact of_scratch _

theorem stowAtRest (s : State) (a : Ant) : Sinks s (s.stowAtRest a) := by
  by_cases h : (s.stowOf a).state = .stopping ∧ s.moving a = false
  · exact (setStow h.1 h.2).trans (decided h.1 h.2)
  · unfold State.stowAtRest
    rw [if_neg h]
    exact refl s

/-- An antenna that is STOPPING once its rest has been looked for moves. -/
theorem stowAtRest_moving {a : Ant} (stopping : ((s.stowAtRest a).stowOf a).state = .stopping) :
    (s.stowAtRest a).moving a = true := by
  by_cases h : (s.stowOf a).state = .stopping ∧ s.moving a = false
  · have set : ((s.setStow a (s.restingState a)).stowOf a).state = s.restingState a := by
      unfold State.setStow
      rw [State.stowOf_modStow, if_pos rfl]
    rcases (decided h.1 h.2).stow a with same | ⟨again, _⟩
    · exact absurd ((set.symm.trans (congrArg StowRecord.state same.symm)).trans stopping) (resting_ne_stopping s a)
    · exact absurd (set.symm.trans again) (resting_ne_stopping s a)
  · have same : s.stowAtRest a = s := if_neg h
    rw [same] at stopping ⊢
    by_contra still
    exact h ⟨stopping, Bool.not_eq_true _ ▸ still⟩

/-- What sinks leaves a moving antenna moving. -/
theorem keeps_moving {a : Ant} (h : Sinks s t) (moves : (s.stowOf a).state = .stopping → s.moving a = true)
    (stopping : (t.stowOf a).state = .stopping) : t.moving a = true := by
  rw [h.moving]
  rcases h.stow a with same | ⟨_, _, rest⟩
  · exact moves (same ▸ stopping)
  · rw [rest] at stopping
    exact absurd stopping (resting_ne_stopping s a)

theorem offIfBraked (s : State) (i : AxisId) : Sinks s (s.offIfBraked i) := by
  unfold State.offIfBraked
  refine ite (fun braked => ?_) (refl s)
  have alone := AxisAlone.enterAxis (i := i) s .off
  refine ⟨by rw [alone.shape], fun j => ?_, fun a => .inl (by rw [alone.shape]; rfl)⟩
  by_cases own : j = i
  · subst own
    rw [State.axis_enterAxis, if_pos rfl]
    exact ⟨id, by rw [braked]; rfl, by rw [braked]; rfl, fun on => absurd (braked ▸ on) (by decide),
      fun h => absurd (braked.symm.trans h) (by decide), fun on => absurd (braked ▸ on) (by decide)⟩
  · rw [(alone.away j own).1, (alone.away j own).2]
    exact .refl ..

theorem endDisable (s : State) (a : Ant) : Sinks s (s.endDisable a) := by
  rw [State.endDisable_eq]
  refine ite (fun _ => ?_) (refl s)
  have busOff : Sinks s (s.modAnt a Antenna.busOff) := by
    refine ⟨rfl, fun i => ?_, fun _ => .inl rfl⟩
    rw [State.standing_modAnt_other, State.axis_modAnt]
    split
    next own => rw [← own]; exact .refl ..
    next => exact .refl ..
  exact (busOff.trans (offIfBraked ..)).trans (offIfBraked ..)

end Sinks

/-- Nothing is left to do on the feed and for the groups: no claim, no entry, no grant, no releasing group. -/
structure State.LaidDown (s : State) : Prop where
  claims : ∀ i, (s.axis i).claims.any = false
  queue : s.feed.queue = []
  waves : ∀ a, s.feed.waves.get a = none
  groups : ∀ g, (s.groups.get g).releasing = false

theorem State.LaidDown.sinks (h : s.LaidDown) (k : Sinks s t) : t.LaidDown where
  claims i := (k.axes i).claims (h.claims i)
  queue := by rw [k.shape]; exact h.queue
  waves a := by rw [k.shape]; exact h.waves a
  groups g := by rw [k.shape]; exact h.groups g

theorem State.LaidDown.seekTorque (h : s.LaidDown) (i : AxisId) : s.seekTorque i = s := by
  unfold State.seekTorque State.wantsTorque
  rw [h.claims i, Bool.and_false, Bool.false_and, Bool.false_and]
  rfl

theorem State.LaidDown.withdrawVoid (h : s.LaidDown) : s.withdrawVoid = s := by
  have kept : (s.modFeed fun f => { f with queue := f.queue.filter fun n => !s.needVoid n }) = s := by
    unfold State.modFeed
    dsimp only
    rw [h.queue, List.filter_nil, ← h.queue]
  unfold State.withdrawVoid
  dsimp only
  rw [kept, h.queue]
  rfl

theorem State.LaidDown.releaseIfStill (h : s.LaidDown) (g : GroupId) : s.releaseIfStill g = s := by
  unfold State.releaseIfStill
  rw [h.groups g]
  rfl

theorem State.LaidDown.releaseIfOver (h : s.LaidDown) (a : Ant) : s.releaseIfOver a = s := by
  unfold State.releaseIfOver
  rw [h.waves a]
  rfl

theorem forEach_id {α : Type} {f : State → α → State} (h : ∀ x, f s x = s) (xs : List α) : forEach xs f s = s := by
  induction xs with
  | nil => rfl
  | cons x xs ih => exact (congrArg (fun t => forEach xs f t) (h x)).trans ih

/-- A round decides every antenna that rests. -/
theorem State.LaidDown.followUp (h : s.LaidDown) :
    Sinks s s.followUp ∧ ∀ a, (s.followUp.stowOf a).state = .stopping → s.followUp.moving a = true := by
  have ended : Sinks s (forEach Ant.all (fun s a => s.endDisable a) s) := .forEach Sinks.endDisable _ s
  have same : s.followUp = forEach Ant.all (fun s a => s.stowAtRest a) (forEach Ant.all (fun s a => s.endDisable a) s) := by
    unfold State.followUp
    dsimp only
    have gone := h.sinks (ended.trans (.forEach Sinks.stowAtRest Ant.all _))
    rw [h.withdrawVoid, forEach_id (f := fun s g => s.releaseIfStill g) gone.releaseIfStill,
      forEach_id (f := fun s a => s.releaseIfOver a) gone.releaseIfOver]
  rw [same]
  refine ⟨ended.trans (.forEach Sinks.stowAtRest _ _), fun a stopping => ?_⟩
  obtain ⟨u, _, rest⟩ := forEach_split (f := fun s a => s.stowAtRest a) (P := Sinks) (k := a) Sinks.refl
    (fun _ _ _ => Sinks.trans) (fun s b _ => .stowAtRest s b) Ant.all_nodup (Ant.mem_all a)
    (forEach Ant.all (fun s a => s.endDisable a) s)
  exact rest.keeps_moving Sinks.stowAtRest_moving stopping

theorem State.restartRounds_succ (s : State) (n : Nat) : s.restartRounds (n + 1) =
    (forEach AxisId.all (fun s i => s.seekTorque i) s.followUp).clearMarks.restartRounds n := by
  conv => lhs; unfold State.restartRounds

/-- The rounds that follow a RESTART, the first of which decides every antenna that rests. -/
theorem State.LaidDown.restartRounds (h : s.LaidDown) (n : Nat) : Sinks s (s.restartRounds (n + 1))
    ∧ ∀ a, ((s.restartRounds (n + 1)).stowOf a).state = .stopping → (s.restartRounds (n + 1)).moving a = true := by
  have round (s : State) (h : s.LaidDown) (m : Nat) :
      s.restartRounds (m + 1) = s.followUp.clearMarks.restartRounds m := by
    have sought := forEach_id (f := fun s i => s.seekTorque i) (h.sinks h.followUp.1).seekTorque AxisId.all
    rw [State.restartRounds_succ, sought]
  have first : Sinks s s.followUp.clearMarks := h.followUp.1.trans (.clearMarks _)
  have moves (a : Ant) : (s.followUp.clearMarks.stowOf a).state = .stopping → s.followUp.clearMarks.moving a = true :=
    (Sinks.clearMarks s.followUp).keeps_moving (h.followUp.2 a)
  have rest (m : Nat) : ∀ u : State, u.LaidDown → Sinks u (u.restartRounds m) := by
    induction m with
    | zero => exact fun u _ => .refl u
    | succ m ih =>
      intro u laid
      rw [round u laid]
      have one : Sinks u u.followUp.clearMarks := laid.followUp.1.trans (.clearMarks _)
      exact one.trans (ih _ (laid.sinks one))
  have others := rest n _ (h.sinks first)
  rw [round s h]
  exact ⟨first.trans others, fun a => others.keeps_moving (moves a)⟩

end Sys2Proof.Machine
end

