-- ==== Sys2Proof/Proofs/Conversions.lean ====
section
/-! PROOFS. What the conversion of grants at a RESTART does to one axis and its standing grant (R168, R173). -/

namespace Sys2Proof.Machine

variable {s t : State}

/-! ### One axis under a conversion -/

/-- An axis under this cover, or on a grant of its own, and a figure of the feed stay as they are. -/
def Spares {β : Type} (c : GrantCover) (i : AxisId) (figure : Feed → β) (s t : State) : Prop :=
  (s.axis i).cover = c ∨ (s.axis i).cover = .standing →
    t.axis i = s.axis i ∧ t.standing i = s.standing i ∧ figure t.feed = figure s.feed

section
variable {β : Type} {c : GrantCover} {i : AxisId} {figure : Feed → β}

theorem Spares.refl (s : State) : Spares c i figure s s := fun _ => ⟨rfl, rfl, rfl⟩

theorem Spares.trans {s t u : State} (h : Spares c i figure s t) (k : Spares c i figure t u) : Spares c i figure s u := by
  intro cover
  obtain ⟨axis, standing, same⟩ := h cover
  obtain ⟨axis', standing', same'⟩ := k (axis ▸ cover)
  exact ⟨axis'.trans axis, standing'.trans standing, same'.trans same⟩

theorem Spares.forEach {α : Type} {f : State → α → State} (h : ∀ s x, Spares c i figure s (f s x)) (xs : List α)
    (s : State) : Spares c i figure s (forEach xs f s) := by
  induction xs generalizing s with
  | nil => exact .refl s
  | cons x xs ih => exact (h s x).trans (ih _)

theorem Axis.not_convertible {x : Axis} {d : GrantCover} (h : x.cover ≠ d) : x.convertible d = false := by
  unfold Axis.convertible
  rw [decide_eq_false h]
  rfl

/-- An axis under another cover is not converted. -/
theorem Spares.convertAxis {d : GrantCover} (other : c ≠ d) (own : GrantCover.standing ≠ d)
    (kept : ∀ (f : Feed) (v : Six (PerAxis Standing)), figure { f with standing := v } = figure f) (s : State) (j : AxisId)
    (h : Nat) : Spares c i figure s (s.convertAxis d j h) := by
  intro cover
  unfold State.convertAxis
  split
  next conv =>
    have far : i ≠ j := by
      rintro rfl
      rcases cover with e | e
      · rw [Axis.not_convertible (e ▸ other)] at conv; cases conv
      · rw [Axis.not_convertible (e ▸ own)] at conv; cases conv
    rw [State.axis_modAxis, if_neg far, State.standing_modAxis_other, State.standing_setStanding, if_neg far]
    exact ⟨rfl, rfl, kept ..⟩
  next => exact ⟨rfl, rfl, rfl⟩

theorem Spares.convertGrant {d : GrantCover} (other : c ≠ d) (own : GrantCover.standing ≠ d)
    (kept : ∀ (f : Feed) (v : Six (PerAxis Standing)), figure { f with standing := v } = figure f) (s : State) (w : Nat)
    (hs : List (AxisId × Nat)) : Spares c i figure s (s.convertGrant d w hs) := by
  unfold State.convertGrant
  exact Spares.forEach (f := fun s (p : AxisId × Nat) => s.convertAxis d p.1 p.2)
    (fun s p => .convertAxis other own kept s p.1 p.2) _ s

end

/-! ### An axis that is converted -/

theorem State.convertAxis_axis {d : GrantCover} {i : AxisId} {h : Nat} (conv : (s.axis i).convertible d = true) :
    (s.convertAxis d i h).axis i = { s.axis i with cover := .standing } := by
  unfold State.convertAxis
  rw [if_pos conv, State.axis_modAxis, if_pos rfl]
  rfl

/-- The conversion of another axis leaves this one. -/
theorem State.convertAxis_away (s : State) (d : GrantCover) {i j : AxisId} (far : i ≠ j) (h : Nat) :
    (s.convertAxis d j h).axis i = s.axis i ∧ (s.convertAxis d j h).standing i = s.standing i := by
  unfold State.convertAxis
  split
  · rw [State.axis_modAxis, if_neg far, State.standing_modAxis_other, State.standing_setStanding, if_neg far]
    exact ⟨rfl, rfl⟩
  · exact ⟨rfl, rfl⟩

/-- An axis that the list names, under the grant, comes off it; with one figure to an axis, on that figure. -/
theorem forEach_convertAxis_own {d : GrantCover} (own : GrantCover.standing ≠ d) {i : AxisId} {xs : List (AxisId × Nat)}
    (named : i ∈ xs.map Prod.fst) (conv : (s.axis i).convertible d = true) :
    let t := forEach xs (fun s p => s.convertAxis d p.1 p.2) s
    t.axis i = { s.axis i with cover := .standing }
      ∧ ((xs.map Prod.fst).Nodup → ∀ h, (i, h) ∈ xs → t.standing i = ⟨h, h⟩) := by
  induction xs generalizing s with
  | nil => cases named
  | cons p xs ih =>
    obtain ⟨j, n⟩ := p
    show (forEach xs (fun s p => s.convertAxis d p.1 p.2) (s.convertAxis d j n)).axis i = _ ∧ _
    by_cases here : j = i
    · subst here
      have axis := State.convertAxis_axis (h := n) conv
      have rest := Spares.forEach (c := .standing) (i := j) (figure := fun _ => ())
        (f := fun s (p : AxisId × Nat) => s.convertAxis d p.1 p.2)
        (fun s p => .convertAxis own own (fun _ _ => rfl) s p.1 p.2) xs (s.convertAxis d j n)
      obtain ⟨same, standing, _⟩ := rest (.inl (by rw [axis]))
      refine ⟨same.trans axis, fun once h mem => ?_⟩
      rcases List.mem_cons.1 mem with e | mem
      · cases e
        exact standing.trans (State.convertAxis_own _ conv).1
      · exact absurd (List.mem_map_of_mem (f := Prod.fst) mem) (List.nodup_cons.1 once).1
    · have far : i ≠ j := fun e => here e.symm
      have same := (s.convertAxis_away d far n).1
      have named : i ∈ xs.map Prod.fst := (List.mem_cons.1 named).resolve_left far
      obtain ⟨axis, standing⟩ := ih (s := s.convertAxis d j n) named (same ▸ conv)
      refine ⟨axis.trans (by rw [same]), fun once h mem => standing (List.nodup_cons.1 once).2 h ?_⟩
      exact (List.mem_cons.1 mem).resolve_left fun e => far (congrArg Prod.fst e)

theorem shares_names {α : Type} (left : Nat) (xs : List (α × Nat)) : (shares left xs).map Prod.fst = xs.map Prod.fst := by
  induction xs generalizing left with
  | nil => rfl
  | cons p xs ih => rw [shares, List.map_cons, List.map_cons, ih]

/-- The conversion of a grant leaves an axis that the grant does not name. -/
theorem State.convertGrant_away (s : State) (d : GrantCover) (w : Nat) {hs : List (AxisId × Nat)} {i : AxisId}
    (away : i ∉ hs.map Prod.fst) :
    (s.convertGrant d w hs).axis i = s.axis i ∧ (s.convertGrant d w hs).standing i = s.standing i := by
  have named : i ∉ (shares w (hs.filter fun p => (s.axis p.1).convertible d)).map Prod.fst := by
    rw [shares_names]
    exact fun mem => away ((List.filter_sublist.map Prod.fst).subset mem)
  unfold State.convertGrant
  generalize shares w (hs.filter fun p => (s.axis p.1).convertible d) = xs at named
  induction xs generalizing s with
  | nil => exact ⟨rfl, rfl⟩
  | cons p xs ih =>
    rw [List.map_cons] at named
    obtain ⟨axis, standing⟩ := s.convertAxis_away d (List.ne_of_not_mem_cons named) p.2
    obtain ⟨axis', standing'⟩ := ih (s.convertAxis d p.1 p.2) (List.not_mem_of_not_mem_cons named)
    exact ⟨axis'.trans axis, standing'.trans standing⟩

/-- The conversion of a grant: an axis it names comes off it, on its figure where the figures fit. -/
theorem State.convertGrant_own {d : GrantCover} (own : GrantCover.standing ≠ d) {i : AxisId} {w h : Nat}
    {hs : List (AxisId × Nat)} (mem : (i, h) ∈ hs) (conv : (s.axis i).convertible d = true) :
    (s.convertGrant d w hs).axis i = { s.axis i with cover := .standing }
      ∧ ((hs.map Prod.fst).Nodup → (hs.map Prod.snd).sum ≤ w → (s.convertGrant d w hs).standing i = ⟨h, h⟩) := by
  have on : (i, h) ∈ hs.filter fun p => (s.axis p.1).convertible d := List.mem_filter.2 ⟨mem, conv⟩
  have named : i ∈ (shares w (hs.filter fun p => (s.axis p.1).convertible d)).map Prod.fst := by
    rw [shares_names]
    exact List.mem_map_of_mem (f := Prod.fst) on
  obtain ⟨axis, standing⟩ := forEach_convertAxis_own own named conv
  refine ⟨axis, fun once fits => standing ?_ h ?_⟩
  · rw [shares_names]
    exact once.sublist (List.filter_sublist.map Prod.fst)
  · rw [shares_of_le _ _ ((List.filter_sublist.map Prod.snd).sum_le_sum (fun _ _ => Nat.zero_le _) |>.trans fits)]
    exact on

/-! ### The releases of a RESTART (R173) -/

section
variable {β : Type} {c : GrantCover} {i : AxisId} {figure : Feed → β}

theorem Spares.releaseGroupGrant {g : GroupId} (other : c ≠ .group g)
    (kept : ∀ (f : Feed) (v : Six (PerAxis Standing)), figure { f with standing := v } = figure f)
    (same : ∀ f : Feed, figure { f with groups := f.groups.set g none } = figure f) (s : State) :
    Spares c i figure s (s.releaseGroupGrant g) := by
  unfold State.releaseGroupGrant
  split
  · exact .refl s
  next v _ =>
    exact (Spares.convertGrant other (by simp) kept s v.watts v.holds).trans fun _ => ⟨rfl, rfl, same _⟩

theorem Spares.releaseWaveGrant {a : Ant} (other : c ≠ .wave)
    (kept : ∀ (f : Feed) (v : Six (PerAxis Standing)), figure { f with standing := v } = figure f)
    (same : ∀ f : Feed, figure { f with waves := f.waves.set a none } = figure f) (s : State) :
    Spares c i figure s (s.releaseWaveGrant a) := by
  unfold State.releaseWaveGrant
  split
  · exact .refl s
  next v _ =>
    exact (Spares.convertGrant other (by simp) kept s _ _).trans fun _ => ⟨rfl, rfl, same _⟩

end

/-- Of an axis, a release changes the cover alone. -/
def Recovers (s t : State) : Prop := ∀ i, t.axis i = { s.axis i with cover := (t.axis i).cover }

theorem Recovers.refl (s : State) : Recovers s s := fun _ => rfl

theorem Recovers.trans {u : State} (h : Recovers s t) (k : Recovers t u) : Recovers s u := fun i => by
  rw [k i, h i]

theorem Recovers.forEach {α : Type} {f : State → α → State} (h : ∀ s x, Recovers s (f s x)) (xs : List α) (s : State) :
    Recovers s (forEach xs f s) := by
  induction xs generalizing s with
  | nil => exact .refl s
  | cons x xs ih => exact (h s x).trans (ih _)

theorem Recovers.convertAxis (s : State) (c : GrantCover) (j : AxisId) (h : Nat) : Recovers s (s.convertAxis c j h) := by
  intro i
  unfold State.convertAxis
  split
  · rw [State.axis_modAxis]
    split
    next own => subst own; rfl
    next => rfl
  · rfl

theorem Recovers.convertGrant (s : State) (c : GrantCover) (w : Nat) (hs : List (AxisId × Nat)) :
    Recovers s (s.convertGrant c w hs) := by
  unfold State.convertGrant
  exact Recovers.forEach (f := fun s (p : AxisId × Nat) => s.convertAxis c p.1 p.2) (fun s p => .convertAxis s c p.1 p.2) _ s

theorem Recovers.releaseGroupGrant (s : State) (g : GroupId) : Recovers s (s.releaseGroupGrant g) := by
  unfold State.releaseGroupGrant
  split
  · exact .refl s
  · exact fun i => convertGrant _ _ _ _ i

theorem Recovers.releaseWaveGrant (s : State) (a : Ant) : Recovers s (s.releaseWaveGrant a) := by
  unfold State.releaseWaveGrant
  split
  · exact .refl s
  · exact fun i => convertGrant _ _ _ _ i

/-- Every group and wave grant is released. -/
def State.allReleased (s : State) : State :=
  forEach Ant.all (fun s a => s.releaseWaveGrant a) (forEach GroupId.all (fun s g => s.releaseGroupGrant g) s)

theorem State.allReleased_recovers (s : State) : Recovers s s.allReleased :=
  (Recovers.forEach (fun s g => .releaseGroupGrant s g) _ s).trans (.forEach (fun s a => .releaseWaveGrant s a) _ _)

/-- Drives and books alone change in a release. -/
def Releases (s t : State) : Prop :=
  t = { s with
    ants := t.ants
    feed := { s.feed with standing := t.feed.standing, groups := t.feed.groups, waves := t.feed.waves }
    scratch := t.scratch }

theorem Releases.trans {u : State} (h : Releases s t) (k : Releases t u) : Releases s u :=
  Eq.trans k (by rw [h])

theorem Releases.forEach {α : Type} {f : State → α → State} (h : ∀ s x, Releases s (f s x)) (xs : List α) (s : State) :
    Releases s (forEach xs f s) := by
  induction xs generalizing s with
  | nil => rfl
  | cons x xs ih => exact (h s x).trans (ih _)

theorem Releases.convertGrant (s : State) (c : GrantCover) (w : Nat) (hs : List (AxisId × Nat)) :
    Releases s (s.convertGrant c w hs) := by
  unfold State.convertGrant
  refine Releases.forEach (f := fun s (p : AxisId × Nat) => s.convertAxis c p.1 p.2) (fun s p => ?_) _ s
  unfold State.convertAxis
  split <;> rfl

theorem Releases.releaseGroupGrant (s : State) (g : GroupId) : Releases s (s.releaseGroupGrant g) := by
  unfold State.releaseGroupGrant
  split
  · rfl
  · exact (convertGrant ..).trans rfl

theorem Releases.releaseWaveGrant (s : State) (a : Ant) : Releases s (s.releaseWaveGrant a) := by
  unfold State.releaseWaveGrant
  split
  · rfl
  · exact (convertGrant ..).trans rfl

theorem State.allReleased_releases (s : State) : Releases s s.allReleased :=
  (Releases.forEach Releases.releaseGroupGrant _ s).trans (.forEach Releases.releaseWaveGrant _ _)

/-- An axis with torque on under a group grant comes under a grant of its own (R168, R173). -/
theorem State.allReleased_group {g : GroupId} {v : GroupGrant} {i : AxisId} {h : Nat}
    (grant : s.feed.groups.get g = some v) (mem : (i, h) ∈ v.holds) (conv : (s.axis i).convertible (.group g) = true) :
    (s.allReleased.axis i).cover = .standing
      ∧ ((v.holds.map Prod.fst).Nodup → (v.holds.map Prod.snd).sum ≤ v.watts → s.allReleased.standing i = ⟨h, h⟩) := by
  have under : (s.axis i).cover = .group g := of_decide_eq_true (Bool.and_eq_true_iff.1 conv).1
  obtain ⟨u, before, after⟩ := forEach_split (f := fun s g => s.releaseGroupGrant g) (k := g)
    (P := Spares (.group g) i fun f => f.groups.get g) Spares.refl (fun _ _ _ => .trans)
    (fun s j far => Spares.releaseGroupGrant (fun e => far (GrantCover.group.inj e).symm) (fun _ _ => rfl)
      (fun f => by rw [Four.get_set, if_neg far.symm]) s) (by decide) (show g ∈ GroupId.all by cases g <;> decide) s
  obtain ⟨axis, _, same⟩ := before (.inl under)
  have conv' : (u.axis i).convertible (.group g) = true := axis ▸ conv
  obtain ⟨off, figure⟩ := u.convertGrant_own (w := v.watts) (by simp) mem conv'
  have released : u.releaseGroupGrant g = ((u.convertGrant (.group g) v.watts v.holds).modFeed fun f =>
      { f with groups := f.groups.set g none }).markFreed := by
    unfold State.releaseGroupGrant
    rw [show u.feed.groups.get g = some v from same.trans grant]
  rw [released] at after
  have cover : ((u.convertGrant (.group g) v.watts v.holds).axis i).cover = .standing := by rw [off]
  obtain ⟨axis', standing', _⟩ := after (.inr cover)
  have waves : Spares .standing i (fun _ => ()) _ s.allReleased :=
    .forEach (f := fun s a => s.releaseWaveGrant a) (fun s a => .releaseWaveGrant (by simp) (fun _ _ => rfl) (fun _ => rfl) s)
      Ant.all (forEach GroupId.all (fun s g => s.releaseGroupGrant g) s)
  obtain ⟨axis'', standing'', _⟩ := waves (.inl ((congrArg Axis.cover axis').trans cover))
  exact ⟨(congrArg Axis.cover (axis''.trans axis')).trans cover,
    fun once fits => standing''.trans (standing'.trans (figure once fits))⟩

/-- The release of another antenna's wave grant leaves this axis. -/
theorem State.releaseWaveGrant_away (s : State) {a : Ant} {i : AxisId} (far : a ≠ i.ant) :
    (s.releaseWaveGrant a).axis i = s.axis i ∧ (s.releaseWaveGrant a).standing i = s.standing i
      ∧ (s.releaseWaveGrant a).feed.waves.get i.ant = s.feed.waves.get i.ant := by
  unfold State.releaseWaveGrant
  split
  · exact ⟨rfl, rfl, rfl⟩
  next v _ =>
    obtain ⟨axis, standing⟩ := s.convertGrant_away .wave v.watts (i := i)
      (hs := [(⟨a, .az⟩, v.holds.az), (⟨a, .el⟩, v.holds.el)]) fun mem => by
        obtain e | e : i = ⟨a, .az⟩ ∨ i = ⟨a, .el⟩ := by simpa using mem
        all_goals exact far (congrArg AxisId.ant e).symm
    refine ⟨axis, standing, ?_⟩
    show ((s.convertGrant .wave v.watts _).feed.waves.set a none).get i.ant = _
    rw [Six.get_set, if_neg far.symm, State.convertGrant_waves]

/-- An axis with torque on under a wave grant comes under a grant of its own (R168, R173). -/
theorem State.allReleased_wave {v : WaveGrant} {i : AxisId} (grant : s.feed.waves.get i.ant = some v)
    (conv : (s.axis i).convertible .wave = true) : (s.allReleased.axis i).cover = .standing
      ∧ (v.holds.az + v.holds.el ≤ v.watts → s.allReleased.standing i = ⟨v.holds.get i.ax, v.holds.get i.ax⟩) := by
  have under : (s.axis i).cover = .wave := of_decide_eq_true (Bool.and_eq_true_iff.1 conv).1
  have groups : Spares .wave i (fun f => f.waves.get i.ant) s (forEach GroupId.all (fun s g => s.releaseGroupGrant g) s) :=
    .forEach (f := fun s g => s.releaseGroupGrant g)
      (fun s g => .releaseGroupGrant (by simp) (fun _ _ => rfl) (fun _ => rfl) s) GroupId.all s
  obtain ⟨axis, _, same⟩ := groups (.inl under)
  obtain ⟨u, ⟨axis', _, same'⟩, after⟩ := forEach_split (f := fun s a => s.releaseWaveGrant a) (k := i.ant)
    (P := fun s t => t.axis i = s.axis i ∧ t.standing i = s.standing i ∧ t.feed.waves.get i.ant = s.feed.waves.get i.ant)
    (fun _ => ⟨rfl, rfl, rfl⟩)
    (fun _ _ _ h k => ⟨k.1.trans h.1, k.2.1.trans h.2.1, k.2.2.trans h.2.2⟩)
    (fun s b far => s.releaseWaveGrant_away far) Ant.all_nodup (Ant.mem_all i.ant)
    (forEach GroupId.all (fun s g => s.releaseGroupGrant g) s)
  have conv' : (u.axis i).convertible .wave = true := (axis'.trans axis) ▸ conv
  have named : (i, v.holds.get i.ax) ∈ [((⟨i.ant, .az⟩ : AxisId), v.holds.az), (⟨i.ant, .el⟩, v.holds.el)] := by
    obtain ⟨a, x⟩ := i
    cases x
    · exact List.mem_cons_self
    · exact List.mem_cons_of_mem _ List.mem_cons_self
  obtain ⟨off, figure⟩ := u.convertGrant_own (w := v.watts) (by simp) named conv'
  have released : u.releaseWaveGrant i.ant = ((u.convertGrant .wave v.watts
      [(⟨i.ant, .az⟩, v.holds.az), (⟨i.ant, .el⟩, v.holds.el)]).modFeed fun f =>
        { f with waves := f.waves.set i.ant none }).markFreed := by
    unfold State.releaseWaveGrant
    rw [show u.feed.waves.get i.ant = some v from same'.trans (same.trans grant)]
  rw [released] at after
  obtain ⟨axis'', standing'', _⟩ := after
  have cover : (((u.convertGrant .wave v.watts [(⟨i.ant, .az⟩, v.holds.az), (⟨i.ant, .el⟩, v.holds.el)]).modFeed
      fun f => { f with waves := f.waves.set i.ant none }).markFreed.axis i).cover = .standing := congrArg Axis.cover off
  refine ⟨(congrArg Axis.cover axis'').trans cover, fun fits => standing''.trans (figure ?_ ?_)⟩
  · simp
  · simpa using fits

/-- No group and no wave grant is left. -/
theorem State.allReleased_none (s : State) : (∀ g, s.allReleased.feed.groups.get g = none)
    ∧ ∀ a, s.allReleased.feed.waves.get a = none := by
  have convert (s : State) (c : GrantCover) (w : Nat) (hs : List (AxisId × Nat)) :
      (s.convertGrant c w hs).feed.groups = s.feed.groups ∧ (s.convertGrant c w hs).feed.waves = s.feed.waves :=
    ⟨s.convertGrant_groups c w hs, s.convertGrant_waves c w hs⟩
  have group (s : State) (g h : GroupId) : (s.releaseGroupGrant g).feed.groups.get h
      = if h = g then none else s.feed.groups.get h := by
    unfold State.releaseGroupGrant
    split
    next none_ => split; exacts [by rename_i e; rw [e, none_], rfl]
    next v _ =>
      show ((s.convertGrant (.group g) v.watts v.holds).feed.groups.set g none).get h = _
      rw [Four.get_set, (convert ..).1]
  have wave (s : State) (a b : Ant) : (s.releaseWaveGrant a).feed.waves.get b
      = if b = a then none else s.feed.waves.get b := by
    unfold State.releaseWaveGrant
    split
    next none_ => split; exacts [by rename_i e; rw [e, none_], rfl]
    next v _ =>
      show ((s.convertGrant .wave v.watts _).feed.waves.set a none).get b = _
      rw [Six.get_set, (convert ..).2]
  have groups (s : State) (a : Ant) : (s.releaseWaveGrant a).feed.groups = s.feed.groups := by
    unfold State.releaseWaveGrant
    split
    · rfl
    · exact (convert ..).1
  constructor
  · intro g
    have kept := forEach_keeps (f := fun s a => s.releaseWaveGrant a) (fun s => s.feed.groups) groups Ant.all
      (forEach GroupId.all (fun s g => s.releaseGroupGrant g) s)
    refine (congrArg (Four.get · g) kept).trans ?_
    exact forEach_at (f := fun s g => s.releaseGroupGrant g) (k := g) (π := fun s => s.feed.groups.get g)
      (ρ := fun _ => ()) (g := fun _ => none) (fun _ _ _ => rfl) (fun s => by rw [group, if_pos rfl])
      (fun s j far => by rw [group, if_neg far.symm]) (by decide) (by cases g <;> decide) s
  · intro a
    exact forEach_at (f := fun s a => s.releaseWaveGrant a) (k := a) (π := fun s => s.feed.waves.get a)
      (ρ := fun _ => ()) (g := fun _ => none) (fun _ _ _ => rfl) (fun s => by rw [wave, if_pos rfl])
      (fun s j far => by rw [wave, if_neg far.symm]) Ant.all_nodup (Ant.mem_all a) _

end Sys2Proof.Machine
end

