-- ==== Sys2Proof/Proofs/Restarts.lean ====
section
/-! PROOFS. RESTART: what every block does, and what it keeps (R205). -/

namespace Sys2Proof.Machine

variable {s t : State}

/-! ### The stops (R28) -/

/-- A walk over the axes changes drives and standing grants alone. -/
theorem State.restartStops_shape (s : State) : s.restartStops = { s with
    ants := s.restartStops.ants, feed := { s.feed with standing := s.restartStops.feed.standing }
    scratch := s.restartStops.scratch } := by
  have walk (xs : List AxisId) : ∀ s : State, ∃ v f m, forEach xs (fun s i => s.stopAxis i .restart .braked) s
      = { s with ants := v, feed := { s.feed with standing := f }, scratch := m } := by
    induction xs with
    | nil => exact fun s => ⟨_, _, _, rfl⟩
    | cons i xs ih =>
      intro s
      obtain ⟨v, f, m, e⟩ := ih (s.stopAxis i .restart .braked)
      refine ⟨v, f, m, Eq.trans (show forEach (i :: xs) _ s = _ from e) ?_⟩
      rw [(AxisAlone.stopAxis (i := i) s .restart .braked).shape]
  obtain ⟨v, f, m, e⟩ := walk AxisId.all s
  have same : s.restartStops = { s with ants := v, feed := { s.feed with standing := f }, scratch := m } := e
  rw [same]

theorem State.restartStops_axis (s : State) (i : AxisId) :
    (s.axis i).PutDown .restart (s.restartStops.axis i) := by
  obtain ⟨u, before, after⟩ := forEach_split (f := fun s i => s.stopAxis i .restart .braked) (k := i)
    (P := fun s t => t.axis i = s.axis i) (fun _ => rfl) (fun _ _ _ h k => Eq.trans k h)
    (fun s j far => ((AxisAlone.stopAxis (i := j) s .restart .braked).away i far.symm).1) AxisId.all_nodup
    (AxisId.mem_all i) s
  have own := u.stopAxis_putDown i .restart
  rw [before] at own
  exact after ▸ own

/-! ### The blocks (R69, R113, R137, R155, R173) -/

theorem State.restartTracks_spec (s : State) : s.restartTracks.burst.ant = none
    ∧ (∀ a, s.burst.ant = some a → s.restartTracks.burst.termination = some (a, .restart))
    ∧ s.restartTracks = { s with
        tracks := .const .initial, burst := s.restartTracks.burst, scratch := s.restartTracks.scratch } := by
  unfold State.restartTracks
  dsimp only
  split
  next shut => exact ⟨shut, fun a open_ => absurd (shut.symm.trans open_) nofun, rfl⟩
  next a open_ =>
    have ended : s.terminateBurst a .restart =
        { s.discardBurst a with burst := { (s.discardBurst a).burst with termination := some (a, .restart) } } := by
      unfold State.terminateBurst
      rw [if_pos open_]
      rfl
    have closed : (s.discardBurst a).burst.ant = none := by rw [(s.discardBurst_spec a).1]; rfl
    rw [ended]
    refine ⟨closed, fun b e => ?_, ?_⟩
    · cases open_.symm.trans e
      rfl
    · obtain ⟨m, e⟩ : ∃ m, s.discardBurst a = { s with
          tracks := (s.discardBurst a).tracks, burst := (s.discardBurst a).burst, scratch := m } := by
        unfold State.discardBurst State.discardStaged State.slotsFreed
        split
        · exact ⟨_, rfl⟩
        · exact ⟨_, rfl⟩
      rw [e]

theorem State.restartHeat_spec (s : State) : s.restartHeat = { s with heat := { s.heat with zones := s.restartHeat.heat.zones } }
    ∧ ∀ z, (s.restartHeat.zone z).settings = ((s.zone z).record,
          if (s.zone z).retain then ((s.zone z).mode, (s.zone z).manual) else (.auto, 0))
        ∧ (s.restartHeat.zone z).shedCap = none := by
  let u : State := { s with heat := { s.heat with zones := s.heat.zones.map fun _ p => p.map fun _ z => z.restart } }
  have cleared (z : ZoneId) : u.zone z = (s.zone z).restart := by
    obtain ⟨a, c⟩ := z
    show ((s.heat.zones.map fun _ (p : Trio Zone) => p.map fun _ z => z.restart).get a).get c = _
    rw [Six.get_map]
    cases c <;> rfl
  have mod {f : Zone → Zone} (h : ∀ v, ((f v).settings, (f v).shedCap) = (v.settings, v.shedCap)) (s : State) (x z : ZoneId) :
      (((s.modZone x f).zone z).settings, ((s.modZone x f).zone z).shedCap) = ((s.zone z).settings, (s.zone z).shedCap) := by
    rw [State.zone_modZone]
    split
    next own => subst own; exact h _
    next => rfl
  constructor
  · have walk (xs : List ZoneId) : ∀ s : State, ∃ h, forEach xs (fun s z => (s.formLevel z).lowerZone false z) s
        = { s with heat := { s.heat with zones := h } } := by
      induction xs with
      | nil => exact fun s => ⟨_, rfl⟩
      | cons x xs ih =>
        intro s
        obtain ⟨h, e⟩ := ih ((s.formLevel x).lowerZone false x)
        exact ⟨h, e⟩
    obtain ⟨h, e⟩ := walk ZoneId.all u
    have same : s.restartHeat = { u with heat := { u.heat with zones := h } } := e
    rw [same]
  · intro z
    have kept := forEach_keeps (f := fun s z => (s.formLevel z).lowerZone false z)
      (fun s => ((s.zone z).settings, (s.zone z).shedCap)) (fun s x => ?_) ZoneId.all u
    · have settings := congrArg Prod.fst kept
      have cap := congrArg Prod.snd kept
      dsimp only at settings cap
      rw [cleared] at settings cap
      refine ⟨settings.trans ?_, cap⟩
      unfold Zone.restart Zone.settings
      dsimp only
      split <;> rfl
    · refine (mod (f := fun v => v.lowerTo ((s.formLevel x).ceiling x)) (fun v => ?_) (s.formLevel x) x z).trans
        (mod (f := fun v => { v with requested := v.wanted (s.iceClass x.ant) }) (fun _ => rfl) s x z)
      unfold Zone.lowerTo
      split <;> rfl

/-! ### Every block at a RESTART, before the rounds -/

/-- Every block's own restart (R205). -/
def State.laidOut (s : State) : State :=
  let t := s.restartStops.restartFeed.restartTracks
  ({ t with groups := ⟨.initial, .initial, .initial, .initial⟩ }).restartAuthority.restartStow.restartHeat

theorem State.restartBlocks_eq (s : State) : s.restartBlocks = s.laidOut.restartRounds 4 := rfl

theorem State.restartFeed_eq (s : State) : s.restartFeed = s.allReleased.modFeed fun f =>
    { f with queue := [], shed := ⟨false, none, false, none, none⟩, cursor := none, lastStep := none } := rfl

/-- What each block's restart leaves. -/
theorem State.laidOut_shape (s : State) : s.laidOut = { s with
    ants := s.laidOut.ants, tracks := .const .initial, burst := s.laidOut.burst
    groups := ⟨.initial, .initial, .initial, .initial⟩, locks := { s.locks with authority := .const .initial }
    stow := ⟨s.stow.records.map fun _ r => r.restart, none⟩, heat := { s.heat with zones := s.laidOut.heat.zones }
    feed := { s.feed with
      standing := s.laidOut.feed.standing, groups := s.laidOut.feed.groups, waves := s.laidOut.feed.waves, queue := []
      shed := ⟨false, none, false, none, none⟩, cursor := none, lastStep := none }
    scratch := s.laidOut.scratch } := by
  obtain ⟨v, f, m, stops⟩ : ∃ v f m, s.restartStops =
      { s with ants := v, feed := { s.feed with standing := f }, scratch := m } := ⟨_, _, _, s.restartStops_shape⟩
  obtain ⟨v', f', g, w, m', released⟩ : ∃ v f g w m, s.restartStops.allReleased = { s.restartStops with
      ants := v, feed := { s.restartStops.feed with standing := f, groups := g, waves := w }, scratch := m } :=
    ⟨_, _, _, _, _, s.restartStops.allReleased_releases⟩
  have feed : s.restartStops.restartFeed = { s with
      ants := v', scratch := m'
      feed := { s.feed with
        standing := f', groups := g, waves := w, queue := []
        shed := ⟨false, none, false, none, none⟩, cursor := none, lastStep := none } } := by
    rw [State.restartFeed_eq, released, stops]
    rfl
  obtain ⟨b, m'', tracks⟩ : ∃ b m, s.restartStops.restartFeed.restartTracks = { s.restartStops.restartFeed with
      tracks := .const .initial, burst := b, scratch := m } := ⟨_, _, (s.restartStops.restartFeed).restartTracks_spec.2.2⟩
  have heat : s.laidOut = _ := (State.restartHeat_spec _).1
  have whole : s.laidOut = { s with
      ants := v', tracks := .const .initial, burst := b
      groups := ⟨.initial, .initial, .initial, .initial⟩, locks := { s.locks with authority := .const .initial }
      stow := ⟨s.stow.records.map fun _ r => r.restart, none⟩, heat := { s.heat with zones := s.laidOut.heat.zones }
      feed := { s.feed with
        standing := f', groups := g, waves := w, queue := []
        shed := ⟨false, none, false, none, none⟩, cursor := none, lastStep := none }
      scratch := m'' } := by
    rw [heat, tracks, feed]
    rfl
  rw [whole]

/-- The blocks of a RESTART whose own records are told of by name. -/
theorem State.laidOut_spec (s : State) : s.laidOut.ants = s.restartStops.allReleased.ants
    ∧ s.laidOut.feed.standing = s.restartStops.allReleased.feed.standing
    ∧ s.laidOut.feed.groups = s.restartStops.allReleased.feed.groups
    ∧ s.laidOut.feed.waves = s.restartStops.allReleased.feed.waves
    ∧ s.laidOut.burst.ant = none
    ∧ (∀ a, s.burst.ant = some a → s.laidOut.burst.termination = some (a, .restart))
    ∧ ∀ z, (s.laidOut.zone z).settings = ((s.zone z).record,
          if (s.zone z).retain then ((s.zone z).mode, (s.zone z).manual) else (.auto, 0))
        ∧ (s.laidOut.zone z).shedCap = none := by
  obtain ⟨closed, reason, tracks⟩ := s.restartStops.restartFeed.restartTracks_spec
  obtain ⟨heat, zones⟩ := State.restartHeat_spec (({ s.restartStops.restartFeed.restartTracks with
    groups := ⟨.initial, .initial, .initial, .initial⟩ }).restartAuthority.restartStow)
  have feed : s.restartStops.restartFeed.heat = s.heat ∧ s.restartStops.restartFeed.burst = s.burst := by
    have released : s.restartStops.allReleased = _ := s.restartStops.allReleased_releases
    rw [State.restartFeed_eq, released, s.restartStops_shape]
    exact ⟨rfl, rfl⟩
  have same : s.laidOut = _ := heat
  have before (z : ZoneId) : (({ s.restartStops.restartFeed.restartTracks with
      groups := ⟨.initial, .initial, .initial, .initial⟩ }).restartAuthority.restartStow).zone z = s.zone z := by
    show (s.restartStops.restartFeed.restartTracks.heat.zones.get z.ant).get z.cls = _
    rw [tracks]
    show (s.restartStops.restartFeed.heat.zones.get z.ant).get z.cls = _
    rw [feed.1]
    rfl
  have drives : s.laidOut.ants = s.restartStops.restartFeed.restartTracks.ants := by rw [same]; rfl
  have books : s.laidOut.feed = s.restartStops.restartFeed.restartTracks.feed := by rw [same]; rfl
  have burst : s.laidOut.burst = s.restartStops.restartFeed.restartTracks.burst := by rw [same]; rfl
  rw [drives, books, burst]
  refine ⟨by rw [tracks]; rfl, by rw [tracks]; rfl, by rw [tracks]; rfl, by rw [tracks]; rfl, closed,
    fun a e => reason a (feed.2 ▸ e), fun z => ?_⟩
  have own := zones z
  rw [before] at own
  exact own

/-! ### The blocks and the rounds together -/

theorem State.laidOut_axis (s : State) (i : AxisId) :
    s.laidOut.axis i = { s.restartStops.axis i with cover := (s.restartStops.allReleased.axis i).cover }
      ∧ s.laidOut.standing i = s.restartStops.allReleased.standing i := by
  obtain ⟨ants, standing, _⟩ := s.laidOut_spec
  refine ⟨?_, congrArg (fun f : Six (PerAxis Standing) => (f.get i.ant).get i.ax) standing⟩
  have same : s.laidOut.axis i = s.restartStops.allReleased.axis i :=
    congrArg (fun v : Six Antenna => (v.get i.ant).axes.get i.ax) ants
  rw [same]
  exact s.restartStops.allReleased_recovers i

theorem State.laidOut_laidDown (s : State) : s.laidOut.LaidDown := by
  obtain ⟨_, _, _, waves, _⟩ := s.laidOut_spec
  refine ⟨fun i => ?_, by rw [s.laidOut_shape], fun a => ?_, fun g => ?_⟩
  · rw [(s.laidOut_axis i).1]
    exact (s.restartStops_axis i).claims
  · rw [waves]
    exact s.restartStops.allReleased_none.2 a
  · rw [s.laidOut_shape]
    cases g <;> rfl

/-- What follows the blocks' own restarts. -/
theorem State.restartBlocks_sinks (s : State) : Sinks s.laidOut s.restartBlocks
    ∧ ∀ a, (s.restartBlocks.stowOf a).state = .stopping → s.restartBlocks.moving a = true := by
  rw [State.restartBlocks_eq]
  exact s.laidOut_laidDown.restartRounds 3

/-- The stow state of each antenna after a RESTART (R137). -/
theorem State.restartBlocks_stow (s : State) (a : Ant) : (s.restartBlocks.stowOf a).member = false
    ∧ (s.restartBlocks.stowOf a).warningTimer = (s.stowOf a).warningTimer
    ∧ ((s.stowOf a).state = .driving ∨ (s.stowOf a).state = .stopping → (s.restartBlocks.stowOf a).state =
        if s.restartBlocks.moving a then .stopping else if s.restartBlocks.covered a then .blocked
        else if s.restartBlocks.anyFaulted a then .driveFailed else .waiting)
    ∧ ((s.stowOf a).state ≠ .driving → (s.stowOf a).state ≠ .stopping →
        (s.restartBlocks.stowOf a).state = (s.stowOf a).state) := by
  obtain ⟨sinks, decided⟩ := s.restartBlocks_sinks
  have laid : s.laidOut.stowOf a = (s.stowOf a).restart := by
    rw [s.laidOut_shape]
    exact Six.get_map ..
  have record : s.restartBlocks.stowOf a
      = { (s.stowOf a).restart with state := (s.restartBlocks.stowOf a).state } := by
    rcases sinks.stow a with same | ⟨_, _, rest⟩
    · rw [same, laid]
    · rw [rest, laid]
  refine ⟨by rw [record]; rfl, by rw [record]; rfl, fun h => ?_, fun driving stopping => ?_⟩
  · have stopping : (s.laidOut.stowOf a).state = .stopping := by
      rw [laid]
      rcases h with e | e
      · exact if_pos e
      · exact (if_neg (by rw [e]; decide)).trans e
    have resting := sinks.restingState a
    unfold State.restingState at resting
    rcases sinks.stow a with same | ⟨_, still, rest⟩
    · have stops : (s.restartBlocks.stowOf a).state = .stopping := by rw [same]; exact stopping
      rw [if_pos (decided a stops)]
      exact stops
    · rw [if_neg (by rw [sinks.moving, still]; decide), resting, rest]
      rfl
  · have state : (s.laidOut.stowOf a).state = (s.stowOf a).state := by rw [laid]; exact if_neg driving
    rcases sinks.stow a with same | ⟨stops, _⟩
    · rw [same, state]
    · exact absurd (state.symm.trans stops) stopping

/-- The axis of each antenna after a RESTART (R28, R173). -/
theorem State.restartBlocks_axis (s : State) (i : AxisId) : (s.restartBlocks.axis i).claims.any = false
    ∧ ((s.axis i).ready = true → (s.restartBlocks.axis i).state = .braking
      ∧ (s.restartBlocks.axis i).pendingStop = some ⟨some .restart, .braked⟩)
    ∧ (∀ r, (s.axis i).state = .stopping → (s.axis i).stop = some r → (s.restartBlocks.axis i).state = .stopping
      ∧ (s.restartBlocks.axis i).stop = some { r with target := if r.target = .off then .off else .braked })
    ∧ ((s.axis i).state = .slewing ∨ (s.axis i).state = .tracking ∨ (s.axis i).state = .jogging →
      (s.axis i).velocity ≠ 0 → (s.restartBlocks.axis i).state = .stopping ∧
        ∃ r, (s.restartBlocks.axis i).stop = some r ∧ r.reason = .restart ∧ r.target = .braked) := by
  have down := s.restartStops_axis i
  have sinks := s.restartBlocks_sinks.1.axes i
  rw [(s.laidOut_axis i).1] at sinks
  have stays (h : (s.restartStops.axis i).state = .stopping) :
      (s.restartBlocks.axis i).state = .stopping ∧ (s.restartBlocks.axis i).stop = (s.restartStops.axis i).stop := by
    rw [sinks.runs (by rw [show (s.restartStops.axis i).state = .stopping from h]; rfl)]
    exact ⟨h, rfl⟩
  refine ⟨sinks.claims down.claims, fun ready => ?_, fun r stopping stop => ?_, fun runs moves => ?_⟩
  · obtain ⟨braking, pending⟩ := down.held ready
    exact sinks.brakes braking _ pending rfl
  · obtain ⟨state, kept⟩ := down.stopping r stopping stop
    exact ⟨(stays state).1, (stays state).2.trans kept⟩
  · have on : (s.axis i).state.runs = true := by rcases runs with e | e | e <;> rw [e] <;> rfl
    obtain ⟨state, r, kept, reason, target⟩ := down.runs on moves
    exact ⟨(stays state).1, r, (stays state).2.trans kept, reason, target⟩

/-- An axis that its grant's release has converted keeps its own grant in what follows. -/
theorem State.restartBlocks_converted {i : AxisId} (on : (s.axis i).state.amplifierOn = true)
    (cover : (s.restartStops.allReleased.axis i).cover = .standing) : (s.restartBlocks.axis i).cover = .standing
      ∧ ∀ h, s.restartStops.allReleased.standing i = ⟨h, h⟩ → s.restartBlocks.standing i = ⟨h, h⟩ := by
  have sinks := s.restartBlocks_sinks.1.axes i
  rw [(s.laidOut_axis i).1, (s.laidOut_axis i).2] at sinks
  obtain ⟨_, kept, figure⟩ := sinks.power ((s.restartStops_axis i).power on).1
  exact ⟨kept.trans cover, fun h e => (figure (by rw [e])).trans e⟩

/-- What the blocks leave beside axes, antennas and what each block's own record tells. -/
theorem State.restartBlocks_shape (s : State) : s.restartBlocks = { s with
    ants := s.restartBlocks.ants, tracks := .const .initial, burst := s.laidOut.burst
    groups := ⟨.initial, .initial, .initial, .initial⟩, locks := { s.locks with authority := .const .initial }
    stow := ⟨s.restartBlocks.stow.records, none⟩, heat := { s.heat with zones := s.laidOut.heat.zones }
    feed := { s.feed with
      standing := s.restartBlocks.feed.standing, groups := s.laidOut.feed.groups, waves := s.laidOut.feed.waves, queue := []
      shed := ⟨false, none, false, none, none⟩, cursor := none, lastStep := none }
    scratch := s.restartBlocks.scratch } := by
  have rounds := s.restartBlocks_sinks.1.shape
  have laid : ∃ v b z f g w m, s.laidOut = { s with
      ants := v, tracks := .const .initial, burst := b
      groups := ⟨.initial, .initial, .initial, .initial⟩, locks := { s.locks with authority := .const .initial }
      stow := ⟨s.stow.records.map fun _ r => r.restart, none⟩, heat := { s.heat with zones := z }
      feed := { s.feed with
        standing := f, groups := g, waves := w, queue := []
        shed := ⟨false, none, false, none, none⟩, cursor := none, lastStep := none }
      scratch := m } := ⟨_, _, _, _, _, _, _, s.laidOut_shape⟩
  obtain ⟨v, b, z, f, g, w, m, laid⟩ := laid
  generalize s.restartBlocks = t at rounds
  rw [laid] at rounds ⊢
  rw [rounds]

/-- Settles O22, from what the blocks' own restarts leave and what the rounds after them do. -/
theorem restartKeepsWhatProtects : Obligations.RestartKeepsWhatProtects := by
  unfold Obligations.RestartKeepsWhatProtects
  intro s tag ⟨power, may⟩
  let u := s.takeFrame .safety
  have run : execRestart tag s = .next ((u.restartBlocks.restartLinks.clearScratch).answer .safety Kind.restart.code tag .ok
      .empty) := by
    unfold execRestart onPower
    dsimp only
    rw [if_pos power, if_pos may]
  have shape := u.restartBlocks_shape
  obtain ⟨_, _, groups, waves, closed, reason, zones⟩ := u.laidOut_spec
  have none_ := u.restartStops.allReleased_none
  rw [← groups, ← waves] at none_
  have stow := u.restartBlocks_stow
  have axis := u.restartBlocks_axis
  have books : u.restartStops.feed.groups = s.feed.groups ∧ u.restartStops.feed.waves = s.feed.waves := by
    rw [u.restartStops_shape]; exact ⟨rfl, rfl⟩
  have group (g : GroupId) (v : GroupGrant) (i : AxisId) (h : Nat) (grant : s.feed.groups.get g = some v)
      (mem : (i, h) ∈ v.holds) (under : (s.axis i).cover = .group g) (on : (s.axis i).state.amplifierOn = true) :
      (u.restartBlocks.axis i).cover = .standing ∧ ((v.holds.map Prod.fst).Nodup → (v.holds.map Prod.snd).sum ≤ v.watts →
        u.restartBlocks.standing i = ⟨h, h⟩) := by
    obtain ⟨torque, cover⟩ := (u.restartStops_axis i).power on
    have conv : (u.restartStops.axis i).convertible (.group g) = true := by
      unfold Axis.convertible
      rw [torque, cover, show (u.axis i).cover = .group g from under]
      simp
    obtain ⟨standing, figure⟩ := State.allReleased_group (books.1 ▸ grant) mem conv
    obtain ⟨kept, own⟩ := u.restartBlocks_converted on standing
    exact ⟨kept, fun once fits => own h (figure once fits)⟩
  have wave (v : WaveGrant) (i : AxisId) (grant : s.feed.waves.get i.ant = some v) (under : (s.axis i).cover = .wave)
      (on : (s.axis i).state.amplifierOn = true) : (u.restartBlocks.axis i).cover = .standing
        ∧ (v.holds.az + v.holds.el ≤ v.watts → u.restartBlocks.standing i = ⟨v.holds.get i.ax, v.holds.get i.ax⟩) := by
    obtain ⟨torque, cover⟩ := (u.restartStops_axis i).power on
    have conv : (u.restartStops.axis i).convertible .wave = true := by
      unfold Axis.convertible
      rw [torque, cover, show (u.axis i).cover = .wave from under]
      simp
    obtain ⟨standing, figure⟩ := State.allReleased_wave (books.2 ▸ grant) conv
    obtain ⟨kept, own⟩ := u.restartBlocks_converted on standing
    exact ⟨kept, fun fits => own _ (figure fits)⟩
  have enables (l : Link) : (u.link l).enable = (s.link l).enable := SameEnable.takeFrame s .safety
  refine ⟨_, run, ?_⟩
  generalize u.restartBlocks = v at *
  let t := v.restartLinks.clearScratch.answer .safety Kind.restart.code tag .ok .empty
  have kept : t.locks = v.locks ∧ t.permits = v.permits ∧ t.store = v.store ∧ t.clock = v.clock ∧ t.heat = v.heat
      ∧ t.wind = v.wind ∧ t.tracks = v.tracks ∧ t.groups = v.groups ∧ t.burst = v.burst ∧ t.feed = v.feed
      ∧ t.stow = v.stow ∧ t.ants = v.ants := ⟨rfl, rfl, rfl, rfl, rfl, rfl, rfl, rfl, rfl, rfl, rfl, rfl⟩
  have link (l : Link) : t.link l = if l = .safety then (v.link .safety).restart.answer
      ⟨replyKind Kind.restart.code, tag, .ok, .empty⟩ else (v.link l).restart := by
    have restarted (k : Link) : v.restartLinks.clearScratch.link k = (v.link k).restart := Links.get_map ..
    refine (State.link_modLink ..).trans ?_
    rw [restarted, restarted]
  have laid : v.links = u.links := by rw [shape]
  have zone (z : ZoneId) : v.zone z = u.laidOut.zone z := by
    unfold State.zone
    rw [shape]
  refine ⟨?_, ?_, ?_, ?_, ?_, ?_, ?_, ?_, ?_, ?_, ?_, ?_, ?_, ?_, ?_, ?_, ?_, ?_, ?_, ?_, ?_, ?_⟩
  · exact (congrArg LinkRecord.reply (link .safety)).trans rfl
  · show v.locks.slots = _; rw [shape]; rfl
  · show v.locks.order = _; rw [shape]; rfl
  · show v.permits = _; rw [shape]; rfl
  · show v.store = _; rw [shape]; rfl
  · show v.clock = _; rw [shape]; rfl
  · show v.heat.ice = _; rw [shape]; rfl
  · show v.heat.weather = _; rw [shape]; rfl
  · show v.wind = _; rw [shape]; rfl
  · intro a
    show (v.tracks.get a).plain = _
    rw [shape, Six.get_const]
    rfl
  · intro g
    show (v.groups.get g).plain = _
    rw [shape]
    cases g <;> rfl
  · show v.burst.ant = none; rw [shape]; exact closed
  · intro a open_
    show v.burst.termination = _
    rw [shape]
    exact reason a open_
  · intro a
    show (!(v.locks.authority.get a).isLocal) = true ∧ (v.locks.authority.get a).jog = none
    rw [shape, Six.get_const]
    exact ⟨rfl, rfl⟩
  · intro z
    exact (congrArg Zone.settings (zone z)).trans (zones z).1
  · intro l
    have enable : (v.link l).enable = (s.link l).enable := (congrArg (fun k : Links => (k.get l).enable) laid).trans (enables l)
    show (t.link l).flags = 0 ∧ _
    rw [link l]
    split
    next own => subst own; exact ⟨rfl, rfl, rfl, enable, fun h => absurd rfl h⟩
    next => exact ⟨rfl, rfl, rfl, enable, fun _ => rfl⟩
  · show v.feed.queue = [] ∧ v.feed.shed = _ ∧ v.feed.cursor = none ∧ v.feed.lastStep = none
      ∧ (∀ g, v.feed.groups.get g = none) ∧ (∀ a, v.feed.waves.get a = none) ∧ (∀ z, (v.zone z).shedCap = none)
      ∧ v.feed.limit = _ ∧ v.feed.base = _ ∧ v.feed.period = _ ∧ v.feed.allowance = _
    have caps (z : ZoneId) : (v.zone z).shedCap = none := (congrArg Zone.shedCap (zone z)).trans (zones z).2
    have books : v.feed = _ := congrArg State.feed shape
    rw [books]
    exact ⟨rfl, rfl, rfl, rfl, none_.1, none_.2, caps, rfl, rfl, rfl, rfl⟩
  · show v.stow.wave = none; rw [shape]
  · exact stow
  · exact fun g grant i h => group g grant i h
  · exact fun grant i => wave grant i
  · exact axis

end Sys2Proof.Machine
end

