-- ==== Sys2Proof/Proofs/Jogs.lean ====
section
/-! PROOFS. A JOG keeps one jog alive, and starts it at once where its axis is ready; its deadman ends it (R109 to R112). -/

namespace Sys2Proof.Machine

variable {s t u : State} {i : AxisId}

/-! ### The record of a taken frame (R109) -/

/-- The jog record that a taken frame leaves. -/
def State.heldJog (s : State) (i : AxisId) (dir : Direction) (speed : Nat) : Jog :=
  match s.jog i.ant with
  | some j => { j with lastFrame := s.now }
  | none => ⟨i.ax, dir, speed, .preparing, s.now, none, none⟩

theorem State.addClaim_away (s : State) (i : AxisId) (src : ClaimSource) (a : Ant) :
    (s.addClaim i src).jog a = s.jog a ∧ (s.addClaim i src).now = s.now := by
  rw [(Enables.addClaim s i src).away]
  exact ⟨rfl, rfl⟩

theorem State.holdJog_jog (s : State) (i : AxisId) (dir : Direction) (speed : Nat) :
    (s.holdJog i dir speed).jog i.ant = some (s.heldJog i dir speed) := by
  cases is : s.jog i.ant with
  | some j =>
    have held : s.heldJog i dir speed = { j with lastFrame := s.now } := by
      unfold State.heldJog
      rw [is]
    have kept : s.holdJog i dir speed = s.modJog i.ant fun j => { j with lastFrame := s.now } := by
      unfold State.holdJog
      rw [is]
    rw [held, kept, State.jog_modJog, if_pos rfl, is]
    rfl
  | none =>
    have held : s.heldJog i dir speed = ⟨i.ax, dir, speed, .preparing, s.now, none, none⟩ := by
      unfold State.heldJog
      rw [is]
    have begun : s.holdJog i dir speed = (s.modAuthority i.ant fun v =>
        { v with jog := some ⟨i.ax, dir, speed, .preparing, s.now, none, none⟩ }).addClaim i .jog := by
      unfold State.holdJog
      rw [is]
    rw [held, begun, (State.addClaim_away ..).1]
    unfold State.jog
    rw [State.authority_get_modAuthority, if_pos rfl]

/-- A record that names the axis and direction of the frame goes on under its own speed. -/
theorem State.heldJog_core {dir : Direction} {speed : Nat} (same : sameJog (s.jog i.ant) i.ax dir = true) :
    (s.heldJog i dir speed).core = (i.ax, dir, (s.heldJog i dir speed).speed, s.now)
      ∧ (∀ j, s.jog i.ant = some j → (s.heldJog i dir speed).speed = j.speed)
      ∧ (s.jog i.ant = none → s.heldJog i dir speed = ⟨i.ax, dir, speed, .preparing, s.now, none, none⟩) := by
  unfold State.heldJog
  cases is : s.jog i.ant with
  | none => exact ⟨rfl, nofun, fun _ => rfl⟩
  | some j =>
    obtain ⟨ax, d⟩ : j.axis = i.ax ∧ j.dir = dir := by simpa [sameJog, is] using same
    exact ⟨by rw [← ax, ← d]; rfl, fun k e => by cases e; rfl, nofun⟩

/-! ### What follows a JOG -/

/-- The jog of an antenna, whose axis could not take a raise while it is PREPARING. -/
def State.JogAt (s : State) (i : AxisId) (j : Jog) : Prop :=
  s.jog i.ant = some j ∧ j.axis = i.ax ∧ (j.phase = .preparing → ¬((s.axis i).ready = true ∧ s.ready i.ant = true))

theorem State.anyFaulted_eq_false {a : Ant} : s.anyFaulted a = false ↔ ∀ x, (s.axis ⟨a, x⟩).state.isFaulted = false := by
  refine ⟨fun clear => ?_, fun clear => Bool.or_eq_false_iff.2 ⟨clear .az, clear .el⟩⟩
  obtain ⟨az, el⟩ := Bool.or_eq_false_iff.1 clear
  intro x
  cases x
  exacts [az, el]

theorem State.ready_of_live {a : Ant} (live : s.live a = true) (clear : s.anyFaulted a = false) : s.ready a = true := by
  have split : s.ready a = (s.live a && !s.anyFaulted a) := rfl
  rw [split, live, clear]
  rfl

/-- A request for power leaves the record, whose jog starts where it has asked (R110). -/
theorem State.askNeed_jogAt {j : Jog} (is : s.jog i.ant = some j) (ax : j.axis = i.ax)
    (raising : j.phase = .raising) (w : Nat) :
    ∃ k, (s.askNeed i .jog w).JogAt i k ∧ k.core = j.core := by
  obtain ⟨k, kept, core, phase⟩ := (Wanes.askNeed s i .jog w).phases i.ant j is
  refine ⟨k, ⟨kept, (congrArg Prod.fst core).trans ax, fun preparing => ?_⟩, core⟩
  rcases phase with same | ⟨run, _⟩
  · exact absurd (raising.symm.trans (same.symm.trans preparing)) (by decide)
  · exact absurd (run.symm.trans preparing) (by decide)

/-- What a taken frame leaves of the jog. -/
theorem State.raiseJog_jogAt {j : Jog} (is : s.jog i.ant = some j) (ax : j.axis = i.ax) :
    ∃ k, (s.raiseJog i).JogAt i k ∧ k.core = j.core := by
  unfold State.raiseJog
  rw [is]
  dsimp only [Option.map_some]
  split
  next asks =>
    have jog : (s.modJog i.ant fun j => { j with phase := .raising }).jog i.ant = some { j with phase := .raising } := by
      rw [State.jog_modJog, if_pos rfl, is]
      rfl
    exact State.askNeed_jogAt jog ax rfl _
  next asks => exact ⟨j, ⟨is, ax, fun preparing may => asks ⟨congrArg some preparing, may⟩⟩, rfl⟩

/-- The record that an answer leaves is the one its reply shows, but for a jog whose raise has been granted since. -/
theorem Answer.finish_jog {r : Answer} {j : Jog} (at_ : r.state.JogAt i j) (s : State) (l : Link) (k : Kind) (tag : Byte) :
    ∃ m, (r.finish true s l k tag).jog i.ant = some m ∧ m.core = j.core
      ∧ (m.phase = j.phase ∨ j.phase = .raising ∧ m.phase = .running) := by
  obtain ⟨is, ax, still⟩ := at_
  obtain ⟨m, last, core, phase⟩ := (r.finish_wanes s l k tag).phases i.ant j is
  refine ⟨m, last, core, ?_⟩
  rcases phase with same | ⟨run, raising | ⟨⟨ready, live⟩, clear⟩⟩
  · exact .inl same
  · exact .inr ⟨raising, run⟩
  · cases e : j.phase with
    | raising => exact .inr ⟨rfl, run⟩
    | running => exact .inl run
    | preparing =>
      rw [ax] at ready
      refine absurd ⟨ready, State.ready_of_live live (State.anyFaulted_eq_false.2 fun x => ?_)⟩ (still e)
      by_contra faulted
      have stays := State.settle_faulted (s := r.state.answer l k.code tag r.status r.body) (i := ⟨i.ant, x⟩)
        (Bool.not_eq_false _ ▸ faulted)
      have same : ((r.finish true s l k tag).axis ⟨i.ant, x⟩).state = (r.state.axis ⟨i.ant, x⟩).state :=
        Axis.core_state (((Still.announce ..).core _ id).trans stays)
      exact faulted (same ▸ clear x)

/-! ### A jog on a ready axis (R110) -/

/-- A claim on an axis of a bus that is UP changes no other item of the drives but its ENABLE. -/
theorem State.addClaim_up {src : ClaimSource} (up : (s.ants.get i.ant).bus = .up)
    (sound : (s.axis i).state.isFaulted = false) (other : src ≠ .queue) : s.addClaim i src =
      (s.modAxis i fun x => x.addClaim s.now src).modAnt i.ant fun v => { v with enable := true } := by
  have bus : ((s.modAxis i fun x => x.addClaim s.now src).ants.get i.ant).bus = .up := by
    have power : ((s.modAxis i fun x => x.addClaim s.now src).ants.get i.ant).power = _ := Antenna.power_setAxis ..
    exact (Antenna.power_bus power).trans up
  unfold State.addClaim State.enableBus
  rw [if_pos (by rw [State.takesClaim, sound]; rfl)]
  dsimp only
  rw [if_neg other]
  refine if_neg fun off => ?_
  rw [State.ants_get_modAnt, if_pos rfl] at off
  exact absurd (bus.symm.trans off) (by decide)

theorem Releases.convertAxis (s : State) (c : GrantCover) (i : AxisId) (h : Nat) : Releases s (s.convertAxis c i h) := by
  unfold State.convertAxis
  split <;> rfl

theorem Releases.ownGrant (s : State) (i : AxisId) : Releases s (s.ownGrant i) := by
  unfold State.ownGrant
  split
  · split
    · rfl
    · split
      · exact (convertAxis ..).trans rfl
      · rfl
  · split
    · rfl
    · split
      · exact (convertAxis ..).trans rfl
      · rfl
  · rfl

theorem State.ready_congr {a : Ant} (power : (t.ants.get a).power = (s.ants.get a).power)
    (core : ∀ x, (t.axis ⟨a, x⟩).core = (s.axis ⟨a, x⟩).core) : t.ready a = s.ready a := by
  have az : (t.axis ⟨a, .az⟩).state = (s.axis ⟨a, .az⟩).state := Axis.core_state (core .az)
  have el : (t.axis ⟨a, .el⟩).state = (s.axis ⟨a, .el⟩).state := Axis.core_state (core .el)
  have band : (t.ants.get a).outOfBand = (s.ants.get a).outOfBand := congrArg (fun p => p.2.2.1) power
  show (decide ((t.ants.get a).bus = .up) && !(t.ants.get a).outOfBand
    && !((t.axis ⟨a, .az⟩).state.isFaulted || (t.axis ⟨a, .el⟩).state.isFaulted)) = _
  rw [az, el, band, Antenna.power_bus power]
  rfl

theorem Axis.ready_congr {x y : Axis} (core : y.core = x.core) : y.ready = x.ready := by
  have state := Axis.core_state core
  have check : y.releaseCheck = x.releaseCheck := congrArg (fun c => c.2.2.2.2.2.1) core
  unfold Axis.ready
  rw [state, check]

/-- A started jog runs, on an axis in JOGGING (R110). -/
theorem State.startJog_runs {j : Jog} (ready : (s.axis i).ready = true) (power : s.ready i.ant = true)
    (is : s.jog i.ant = some j) (ax : j.axis = i.ax) : ((s.startJog i).axis i).state = .jogging
      ∧ (s.startJog i).feed.queue = s.feed.queue ∧ (s.startJog i).feed.shed = s.feed.shed
      ∧ ∃ k, (s.startJog i).jog i.ant = some k ∧ k.phase = .running := by
  have names : (s.locks.authority.get i.ant).jogs i.ax = true := by
    unfold Authority.jogs
    rw [show (s.locks.authority.get i.ant).jog = some j from is]
    exact decide_eq_true ax
  have entered : (s.enterAxis i .jogging).feed.queue = s.feed.queue ∧ (s.enterAxis i .jogging).feed.shed = s.feed.shed
      ∧ (s.enterAxis i .jogging).jog i.ant = s.jog i.ant := by
    unfold State.enterAxis State.changeStanding State.markFreedIf
    dsimp only
    split <;> exact ⟨rfl, rfl, rfl⟩
  unfold State.startJog
  rw [if_pos (by rw [ready, power, names]; rfl)]
  refine ⟨?_, entered.1, entered.2.1, ?_⟩
  · show ((s.enterAxis i .jogging).axis i).state = .jogging
    rw [State.axis_enterAxis, if_pos rfl]
    rfl
  · rw [State.jog_modJog, if_pos rfl, entered.2.2, is]
    exact ⟨_, rfl, rfl⟩

/-- Asked on an empty queue, a raise that the room holds starts the jog at once (R110, R161). -/
theorem State.askNeed_jogs {w : Nat} {j : Jog} (empty : s.feed.queue = []) (unshed : s.feed.shed.classes = none)
    (room : (w : Int) ≤ s.freeRoom) (ready : (s.axis i).ready = true) (power : s.ready i.ant = true)
    (is : s.jog i.ant = some j) (ax : j.axis = i.ax) :
    ((s.askNeed i .jog w).axis i).state = .jogging ∧ (s.askNeed i .jog w).feed.queue = []
      ∧ ∃ k, (s.askNeed i .jog w).jog i.ant = some k ∧ k.phase = .running := by
  have fits : s.fit w 0 false = .direct := by
    unfold State.fit
    exact if_pos (by simpa using room)
  unfold State.askNeed
  dsimp only
  rw [if_pos ⟨by rw [empty]; rfl, by rw [fits]; decide⟩, fits]
  let v := (s.ownGrant i).addStanding i w
  have own := Still.ownGrant s i
  have shape : Releases s (s.ownGrant i) := .ownGrant s i
  have books : v.feed.queue = s.feed.queue ∧ v.feed.shed = s.feed.shed ∧ v.jog i.ant = s.jog i.ant := by
    show (s.ownGrant i).feed.queue = _ ∧ (s.ownGrant i).feed.shed = _ ∧ (s.ownGrant i).jog i.ant = _
    rw [shape]
    exact ⟨rfl, rfl, rfl⟩
  have core (j : AxisId) : (v.axis j).core = (s.axis j).core := own.core j id
  obtain ⟨state, queue, shed, k, jog, run⟩ := State.startJog_runs (s := v) (i := i)
    ((Axis.ready_congr (core i)).trans ready) ((State.ready_congr (own.power _) fun x => core _).trans power)
    (books.2.2.trans is) ax
  have tested : (v.startJog i).needTest = v.startJog i := by
    unfold State.needTest
    rw [shed, books.2.1, unshed]
  have granted : (s.admitNeed ⟨i, .jog, w, s.now⟩ .direct) = (v.startJog i).needTest.markFreedIf (decide (0 < 0)) := rfl
  rw [granted, tested]
  exact ⟨state, queue.trans (books.1.trans empty), k, jog, run⟩

/-! ### A taken frame (R109, R110) -/

/-- A taken frame's record and its reply. -/
theorem State.takeJog_spec {dir : Direction} {speed : Nat} (same : sameJog (s.jog i.ant) i.ax dir = true) :
    ∃ k, ((s.holdJog i dir (min speed (s.jogTop i))).raiseJog i).JogAt i k
      ∧ k.core = (s.heldJog i dir (min speed (s.jogTop i))).core
      ∧ s.takeJog i dir speed = ⟨if k.phase = .running then (if decide (s.jogTop i < speed) then .clamped else .ok)
          else .accepted, .jog k.phase k.speed
            (((s.holdJog i dir (min speed (s.jogTop i))).raiseJog i).axis i).position (decide (s.jogTop i < speed)),
          (s.holdJog i dir (min speed (s.jogTop i))).raiseJog i⟩ := by
  have core := (State.heldJog_core (speed := min speed (s.jogTop i)) same).1
  obtain ⟨k, at_, kept⟩ := State.raiseJog_jogAt (s.holdJog_jog i dir (min speed (s.jogTop i))) (congrArg Prod.fst core)
  refine ⟨k, at_, kept, ?_⟩
  unfold State.takeJog jogReply
  rw [at_.1]

/-- A new jog on an axis that is not ready takes the claim JOG and asks nothing yet. -/
theorem State.newJog_waits {dir : Direction} {speed : Nat} (absent : s.jog i.ant = none) (sound : (s.axis i).state.isFaulted = false)
    (idle : (s.axis i).ready = false) : (s.holdJog i dir speed).raiseJog i = s.holdJog i dir speed
      ∧ ((s.holdJog i dir speed).axis i).claims.jog = true ∧ Enables
        (s.modAuthority i.ant fun v => { v with jog := some ⟨i.ax, dir, speed, .preparing, s.now, none, none⟩ })
        (s.holdJog i dir speed) := by
  let v := s.modAuthority i.ant fun v => { v with jog := some ⟨i.ax, dir, speed, .preparing, s.now, none, none⟩ }
  have held : s.holdJog i dir speed = v.addClaim i .jog := by
    unfold State.holdJog
    rw [absent]
  have enables : Enables v (v.addClaim i .jog) := .addClaim ..
  have claim := State.addClaim_takes (s := v) (i := i) (src := .jog) sound
  rw [held]
  refine ⟨if_neg fun asks => ?_, claim.1, enables⟩
  have ready : ((v.addClaim i .jog).axis i).ready = false := by
    by_cases off : (s.axis i).state = .off
    · rcases enables.asleep i off with e | e
      all_goals
        unfold Axis.ready
        rw [e]
        rfl
    · exact (Axis.ready_congr (enables.core i off)).trans idle
  exact Bool.false_ne_true (ready.symm.trans asks.2.1)

/-- A new jog on a ready axis starts at once where nothing waits and the room holds its raise. -/
theorem State.newJog_runs {dir : Direction} {speed : Nat} (absent : s.jog i.ant = none) (ready : (s.axis i).ready = true)
    (power : s.ready i.ant = true) (empty : s.feed.queue = []) (unshed : s.feed.shed.classes = none)
    (room : ((s.jogFigure i - (s.axis i).record.hold : Nat) : Int) ≤ s.freeRoom) :
    let t := (s.holdJog i dir speed).raiseJog i
    (t.axis i).state = .jogging ∧ t.feed.queue = [] ∧ ∃ k, t.jog i.ant = some k ∧ k.phase = .running := by
  let j : Jog := ⟨i.ax, dir, speed, .preparing, s.now, none, none⟩
  let v := s.modAuthority i.ant fun v => { v with jog := some j }
  obtain ⟨live, clear⟩ := Bool.and_eq_true_iff.1 (show (s.live i.ant && !s.anyFaulted i.ant) = true from power)
  have up : (s.ants.get i.ant).bus = .up := of_decide_eq_true (Bool.and_eq_true_iff.1 live).1
  have holding := Axis.holding_of_ready ready
  have held : s.holdJog i dir speed = (v.modAxis i fun x => x.addClaim s.now .jog).modAnt i.ant
      fun v => { v with enable := true } := by
    unfold State.holdJog
    rw [absent]
    exact State.addClaim_up (s := v) up (by rw [show (v.axis i).state = .holding from holding]; rfl) (by decide)
  let w := s.holdJog i dir speed
  have axis : w.axis i = (s.axis i).addClaim s.now .jog := by
    show (s.holdJog i dir speed).axis i = _
    rw [held, State.axis_modAnt, if_pos rfl]
    exact (State.axis_modAxis ..).trans (if_pos rfl)
  have core (x : AxisName) : (w.axis ⟨i.ant, x⟩).core = (s.axis ⟨i.ant, x⟩).core := by
    show ((s.holdJog i dir speed).axis ⟨i.ant, x⟩).core = _
    rw [held, State.axis_modAnt, if_pos rfl]
    refine congrArg Axis.core ((State.axis_modAxis v i ⟨i.ant, x⟩ _)) |>.trans ?_
    split
    next own => rw [own]; rfl
    next => rfl
  have liveW : w.live i.ant = true := by
    have antenna : w.ants.get i.ant = { (v.modAxis i fun x => x.addClaim s.now .jog).ants.get i.ant with enable := true } := by
      show (s.holdJog i dir speed).ants.get i.ant = _
      rw [held, State.ants_get_modAnt, if_pos rfl]
    have power : ((v.modAxis i fun x => x.addClaim s.now .jog).ants.get i.ant).power = (s.ants.get i.ant).power :=
      Antenna.power_setAxis ..
    have band : ((v.modAxis i fun x => x.addClaim s.now .jog).ants.get i.ant).outOfBand = (s.ants.get i.ant).outOfBand :=
      congrArg (fun p => p.2.2.1) power
    unfold State.live
    rw [antenna]
    dsimp only
    rw [band, Antenna.power_bus power]
    exact live
  have readyW : (w.axis i).ready = true := (Axis.ready_congr (core i.ax)).trans ready
  have powerW : w.ready i.ant = true := by
    refine State.ready_of_live liveW (State.anyFaulted_eq_false.2 fun x => ?_)
    rw [Axis.core_state (core x)]
    exact State.anyFaulted_eq_false.1 (Bool.not_eq_true' _ ▸ clear) x
  have jog : w.jog i.ant = some j := by
    have kept := s.holdJog_jog i dir speed
    unfold State.heldJog at kept
    rw [absent] at kept
    exact kept
  have books : w.feed = s.feed ∧ w.heat = s.heat := by
    show (s.holdJog i dir speed).feed = _ ∧ (s.holdJog i dir speed).heat = _
    rw [held]
    exact ⟨rfl, rfl⟩
  have load : w.freeRoom = s.freeRoom := by
    have same : w.freeRoom = ({ s with feed := w.feed, heat := w.heat } : State).freeRoom := rfl
    rw [same, books.1, books.2]
  have figure : w.jogFigure i - (w.axis i).record.hold = s.jogFigure i - (s.axis i).record.hold := by
    unfold State.jogFigure
    rw [axis]
    rfl
  let raising := w.modJog i.ant fun j => { j with phase := .raising }
  have asked : w.raiseJog i = raising.askNeed i .jog (s.jogFigure i - (s.axis i).record.hold) := by
    unfold State.raiseJog
    rw [if_pos ⟨by rw [jog]; rfl, readyW, powerW⟩, figure]
  intro t
  have made : t = raising.askNeed i .jog (s.jogFigure i - (s.axis i).record.hold) := asked
  rw [made]
  refine State.askNeed_jogs (j := { j with phase := .raising }) ?_ ?_ ?_ readyW powerW ?_ rfl
  · show w.feed.queue = []
    rw [books.1]
    exact empty
  · show w.feed.shed.classes = none
    rw [books.1]
    exact unshed
  · show _ ≤ w.freeRoom
    rw [load]
    exact room
  · rw [State.jog_modJog, if_pos rfl, jog]
    rfl

/-! ### The end of a jog (R112) -/

/-- Leaving a jog changes no axis but in its claims. -/
theorem Still.leaveJog (s : State) (i : AxisId) : StillBut noAxis (fun _ => True) s (s.leaveJog i) := by
  have left : StillBut noAxis (fun _ => True) s ((s.dropClaim i .jog).modFeed fun f =>
      { f with queue := f.queue.filter fun n => !(decide (n.axis = i) && decide (n.kind = .jog)) }) :=
    (StillBut.mono (Still.dropOne s i .jog) (fun _ => id) fun _ _ => trivial).trans
      (StillBut.mono (Still.filterQueue ..) (fun _ => id) fun _ _ => trivial)
  have fallen (t : State) : StillBut noAxis (fun _ => True) t (t.fallToHold i) :=
    StillBut.mono (Still.fallToHold ..) (fun _ => id) fun _ _ => trivial
  unfold State.leaveJog
  dsimp only
  split
  · exact left.trans (fallen _)
  · exact left

/-- A jog that ends with JOG_END leaves no record, and stops its axis where it jogs. -/
theorem State.endJog_spec {a : Ant} {j : Jog} (is : s.jog a = some j) :
    let t := s.endJog a (some (.jogEnd, .holding))
    t.jog a = none ∧ ((s.axis ⟨a, j.axis⟩).state = .jogging → (s.axis ⟨a, j.axis⟩).velocity ≠ 0 →
      s.waits ⟨a, j.axis⟩ = false → t.Stopped ⟨a, j.axis⟩ .jogEnd .holding) := by
  let u := (s.modAuthority a fun v => { v with jog := none }).leaveJog ⟨a, j.axis⟩
  have gone : u.jog a = none := by
    refine (State.leaveJog_jog ..).1.trans ?_
    unfold State.jog
    rw [State.authority_get_modAuthority, if_pos rfl]
  have ended : s.endJog a (some (.jogEnd, .holding)) =
      if (u.axis ⟨a, j.axis⟩).state = .jogging then u.stopAxis ⟨a, j.axis⟩ .jogEnd .holding else u := by
    unfold State.endJog
    rw [is]
  intro t
  have made : t = _ := ended
  rw [made]
  have still := Still.leaveJog (s.modAuthority a fun v => { v with jog := none }) ⟨a, j.axis⟩
  have core : (u.axis ⟨a, j.axis⟩).core = (s.axis ⟨a, j.axis⟩).core := still.core _ id
  constructor
  · split
    · rw [(AxisAlone.stopAxis (i := ⟨a, j.axis⟩) u .jogEnd .holding).shape]
      exact gone
    · exact gone
  · intro jogging moves free
    rw [if_pos ((Axis.core_state core).trans jogging)]
    refine State.Runs.stop ⟨?_, ?_, still.waits _ id free⟩ ..
    · rw [Axis.core_state core, jogging]
      rfl
    · rw [show (u.axis ⟨a, j.axis⟩).velocity = (s.axis ⟨a, j.axis⟩).velocity from congrArg (fun c => c.2.2.1) core]
      exact moves

/-- The deadman of a jog: no record is left, and an axis that jogs stops. -/
theorem jogDeadman_spec {a : Ant} {j : Jog} (on : s.powered = true) (is : s.jog a = some j) (late : j.lastFrame + 600 ≤ s.now) :
    ∃ t, exec (.jogDeadman a) s = .next t ∧ t.jog a = none
      ∧ ((s.axis ⟨a, j.axis⟩).state = .jogging → (s.axis ⟨a, j.axis⟩).velocity ≠ 0 → s.waits ⟨a, j.axis⟩ = false →
        (t.axis ⟨a, j.axis⟩).state = .stopping
          ∧ ∃ r, (t.axis ⟨a, j.axis⟩).stop = some r ∧ r.reason = .jogEnd ∧ r.target = .holding) := by
  have due : s.deadmanOver a = true := by
    unfold State.deadmanOver
    rw [is]
    exact decide_eq_true late
  have calm := event_calm s fun s => s.endJog a (some (.jogEnd, .holding))
  obtain ⟨gone, stops⟩ := State.endJog_spec is
  refine ⟨_, occur_due on due, ?_, fun jogging moves free => ?_⟩
  · have core := calm.jogs a
    rw [gone] at core
    exact Option.map_eq_none_iff.1 core
  · exact ((stops jogging moves free).calm calm).1

/-- Settles O47, from the record and the reply of a taken frame and what follows it. -/
theorem jogsLiveWhileHeld : Obligations.JogsLiveWhileHeld := by
  unfold Obligations.JogsLiveWhileHeld
  intro s tag n x d speed
  refine ⟨fun ok => ?_, fun j on is late => jogDeadman_spec on is late⟩
  have rows := State.admits_rows ok
  obtain ⟨l, k, tag', r, of, on, run, ax, dir, hx, hd, least, made⟩ := (jog_served n (some x) (some d) speed).admitted ok
  obtain rfl := Option.some.inj hx
  obtain rfl := Option.some.inj hd
  let i : AxisId := ⟨n, x⟩
  let u := s.takeFrame l
  have sound : (u.axis i).state.isFaulted = false := by
    have row := rows (!(s.axis i).state.isFaulted, .badState) (by simp [checksOf, codeChecks, jogChecks, i])
    exact Bool.not_eq_true' _ ▸ row
  have same : sameJog (u.jog i.ant) i.ax d = true :=
    rows (sameJog (s.jog i.ant) i.ax d, .busy) (by simp [checksOf, codeChecks, jogChecks, i])
  obtain ⟨core, kept, fresh⟩ := State.heldJog_core (s := u) (i := i) (speed := min speed.toNat (u.jogTop i)) same
  obtain ⟨j, at_, jog, reply⟩ := State.takeJog_spec (s := u) (i := i) (dir := d) (speed := speed.toNat) same
  have capped : decide (u.jogTop i < speed.toNat) = decide (((min 500 (s.axis i).record.vmax : Nat) : Int) < speed) := by
    have top : u.jogTop i = min 500 (s.axis i).record.vmax := rfl
    rw [top, decide_eq_decide]
    omega
  let w := (u.holdJog i d (min speed.toNat (u.jogTop i))).raiseJog i
  obtain rfl : r = _ := made.trans reply
  rw [capped] at *
  set r : Answer := ⟨if j.phase = .running then
      (if decide (((min 500 (s.axis i).record.vmax : Nat) : Int) < speed) then .clamped else .ok) else .accepted,
    .jog j.phase j.speed (w.axis i).position (decide (((min 500 (s.axis i).record.vmax : Nat) : Int) < speed)), w⟩
  obtain ⟨m, last, again, phase⟩ := Answer.finish_jog (r := r) at_ s l k tag'
  have answers := Answer.finish_answers (r := r) (b := true) (s := s) of
  have place : (w.axis i).position = ((r.finish true s l k tag').axis i).position :=
    ((r.finish_same (p := .places) s l k tag' (by decide) i).1).symm
  have calm := r.finish_calm s l k tag'
  have speeds : j.speed = (u.heldJog i d (min speed.toNat (u.jogTop i))).speed := congrArg (fun c => c.2.2.1) jog
  refine ⟨_, j.phase, (w.axis i).position, j.speed, run, ?_, ⟨m, last, ?_, phase⟩, place, ?_, fun absent => ⟨?_, ?_, ?_⟩⟩
  · have status : r.status = if j.phase = .running then
        (if ((min 500 (s.axis i).record.vmax : Nat) : Int) < speed then .clamped else .ok) else .accepted := by
      simp only [r, decide_eq_true_eq]
    rw [status] at answers
    exact answers
  · rw [again, jog, core, speeds]
    rfl
  · exact fun j' is => speeds.trans (kept j' is)
  · have made : j.speed = min speed.toNat (min 500 (s.axis i).record.vmax) := by
      rw [speeds, fresh absent]
      rfl
    rw [made]
    show ((min speed.toNat (min 500 (s.axis i).record.vmax) : Nat) : Int) = min speed (min 500 (s.axis i).record.vmax : Nat)
    omega
  · intro on unstowed free idle
    obtain ⟨asks, claim, enables⟩ := State.newJog_waits (s := u) (i := i) (dir := d) (speed := min speed.toNat (u.jogTop i))
      absent sound idle
    rw [← asks] at claim enables
    change Enables _ w at enables
    have stow : w.stowOf n = s.stowOf n := by rw [enables.away]; rfl
    have moves : (w.stowOf n).state ≠ .stopping := by rw [stow, unstowed]; decide
    have quiet : w.quiet n := ⟨moves, by rw [stow, unstowed]; decide⟩
    have stays : (w.axis i).state ≠ .braked := by
      by_cases off : (s.axis i).state = .off
      · rcases enables.asleep i off with e | e <;> rw [e] <;> decide
      · rw [Axis.core_state (enables.core i off)]
        exact on
    refine calm.keeps i ⟨?_, ?_⟩ moves .jog (by decide) claim
    · unfold State.waits
      rw [enables.queue]
      exact free
    · cases e : (w.axis i).state with
      | off => exact quiet
      | braked => exact absurd e stays
      | torqueUp | holding | braking => exact moves
      | _ => trivial
  · intro ready power empty unshed room
    obtain ⟨jogging, nothing, k', is, runs⟩ := State.newJog_runs (s := u) (i := i) (dir := d)
      (speed := min speed.toNat (u.jogTop i)) absent ready power empty unshed room
    have steady : w.steady i := ⟨by unfold State.waits; rw [nothing]; rfl, by rw [jogging]; trivial⟩
    cases Option.some.inj (at_.1.symm.trans is)
    exact ⟨runs, (Axis.core_state (calm.axes i steady).1).trans jogging⟩

end Sys2Proof.Machine
end

