-- ==== Sys2Proof/Proofs/IdleFeed.lean ====
section
/-! PROOFS. What follows an event when nothing is due on the feed: no need waits, no antenna comes to rest and none waits
for a wave (R125, R128, R165). -/

namespace Sys2Proof.Machine

variable {s t u : State}

/-- No need waits, no antenna comes to rest, and none waits for a wave. -/
structure State.Idle (s : State) : Prop where
  queue : s.feed.queue = []
  moves : ∀ a, (s.stowOf a).state = .stopping → s.moving a = true
  waves : ∀ a, s.waitsForWave a = false

/-- What an idle feed's rounds leave: the queue, the shed, the stow and the heaters stay, the free room does not fall, no
axis begins or ends to move, and none comes to its brake, takes a claim there or has its record changed. -/
structure Idles (s t : State) : Prop where
  queue : t.feed.queue = s.feed.queue
  shed : t.feed.shed = s.feed.shed
  stow : t.stow = s.stow
  heat : t.heat = s.heat
  room : s.freeRoom ≤ t.freeRoom
  moving : ∀ i, (t.axis i).state.moving = (s.axis i).state.moving
  braked : ∀ i, (t.axis i).state = .braked → (s.axis i).state = .braked
  claims : ∀ i, (s.axis i).claims.any = false → (t.axis i).claims.any = false
  record : ∀ i, (t.axis i).record = (s.axis i).record

namespace Idles

theorem refl (s : State) : Idles s s := ⟨rfl, rfl, rfl, rfl, le_rfl, fun _ => rfl, fun _ => id, fun _ => id, fun _ => rfl⟩

theorem trans (h : Idles s t) (k : Idles t u) : Idles s u where
  queue := k.queue.trans h.queue
  shed := k.shed.trans h.shed
  stow := k.stow.trans h.stow
  heat := k.heat.trans h.heat
  room := h.room.trans k.room
  moving i := (k.moving i).trans (h.moving i)
  braked i := h.braked i ∘ k.braked i
  claims i := k.claims i ∘ h.claims i
  record i := (k.record i).trans (h.record i)

theorem forEach {α : Type} {f : State → α → State} (h : ∀ s x, Idles s (f s x)) (xs : List α) (s : State) :
    Idles s (forEach xs f s) := by
  induction xs generalizing s with
  | nil => exact .refl s
  | cons x xs ih => exact (h s x).trans (ih _)

theorem ite {c : Prop} [Decidable c] (h : c → Idles s t) : Idles s (if c then t else s) := by
  split
  · exact h ‹_›
  · exact refl s

theorem idle (h : Idles s t) (k : s.Idle) : t.Idle where
  queue := h.queue.trans k.queue
  moves a stopping := by
    have same : t.moving a = s.moving a := by
      unfold State.moving
      rw [h.moving, h.moving]
    rw [same]
    refine k.moves a ?_
    rw [← stopping]
    exact congrArg (fun w : Stow => (w.records.get a).state) h.stow.symm
  waves a := by
    have same : t.waitsForWave a = s.waitsForWave a := congrArg
      (fun w : Stow => decide ((w.records.get a).state = .waiting) && !(w.records.get a).member) h.stow
    rw [same]
    exact k.waves a

theorem of_scratch (m : Scratch) : Idles s { s with scratch := m } :=
  ⟨rfl, rfl, rfl, rfl, le_rfl, fun _ => rfl, fun _ => id, fun _ => id, fun _ => rfl⟩

/-- A release leaves what an idle round leaves. -/
theorem of_release (shape : Releases s t) (recovers : Recovers s t) (load : t.load ≤ s.load) : Idles s t where
  queue := by rw [shape]
  shed := by rw [shape]
  stow := by rw [shape]
  heat := by rw [shape]
  room := by
    have limit : t.feed.limit = s.feed.limit := by rw [shape]
    unfold State.freeRoom
    omega
  moving i := by rw [recovers i]
  braked i := by rw [recovers i]; exact id
  claims i := by rw [recovers i]; exact id
  record i := by rw [recovers i]

theorem modAxis {i : AxisId} {f : Axis → Axis} (state : (f (s.axis i)).state = (s.axis i).state)
    (claims : (s.axis i).claims.any = false → (f (s.axis i)).claims.any = false)
    (record : (f (s.axis i)).record = (s.axis i).record := by rfl) : Idles s (s.modAxis i f) where
  queue := rfl
  shed := rfl
  stow := rfl
  heat := rfl
  room := le_rfl
  moving j := by
    rw [State.axis_modAxis]
    split
    · rename_i e; subst e; rw [state]
    · rfl
  braked j := by
    rw [State.axis_modAxis]
    split
    · rename_i e; subst e; rw [state]; exact id
    · exact id
  claims j := by
    rw [State.axis_modAxis]
    split
    · rename_i e; subst e; exact claims
    · exact id
  record j := by
    rw [State.axis_modAxis]
    split
    · rename_i e; subst e; exact record
    · rfl

theorem dropClaim (s : State) (i : AxisId) (src : ClaimSource) : Idles s (s.dropClaim i src) := by
  refine modAxis rfl fun none_ => ?_
  show ((s.axis i).claims.put src false).any = false
  revert none_
  cases src <;> simp +contextual [Claims.any, Claims.put]

theorem releaseGroup (s : State) (g : GroupId) : Idles s (s.releaseGroup g) := by
  have released : Idles s (s.releaseGroupGrant g) :=
    of_release (.releaseGroupGrant s g) (.releaseGroupGrant s g) (s.load_releaseGroupGrant_le g)
  have ended (t : State) : Idles t (t.modGroup g fun r => { r with held := false }) :=
    ⟨rfl, rfl, rfl, rfl, le_rfl, fun _ => rfl, fun _ => id, fun _ => id, fun _ => rfl⟩
  exact (released.trans (ended _)).trans (.forEach (fun s i => dropClaim s i .group) _ _)

theorem releaseIfStill (s : State) (g : GroupId) : Idles s (s.releaseIfStill g) := ite fun _ => releaseGroup s g

theorem releaseIfOver (s : State) (a : Ant) : Idles s (s.releaseIfOver a) :=
  ite fun _ => of_release (.releaseWaveGrant s a) (.releaseWaveGrant s a) (s.load_releaseWaveGrant_le a)

/-- An axis at its brake goes OFF, or takes torque. -/
theorem fromBrake {i : AxisId} {st : AxisState} (braked : (s.axis i).state = .braked) (still : st.moving = false)
    (leaves : st ≠ .braked) : Idles s (s.enterAxis i st) := by
  have alone := AxisAlone.enterAxis (i := i) s st
  have at_ (j : AxisId) : (s.enterAxis i st).axis j = if j = i then (s.axis i).enter s.now st else s.axis j :=
    State.axis_enterAxis ..
  refine ⟨by rw [alone.shape], by rw [alone.shape], by rw [alone.shape], by rw [alone.shape], ?_, fun j => ?_, fun j => ?_,
    fun j => ?_, fun j => ?_⟩
  · have fall : (s.enterAxis i st).load ≤ s.load := by
      have change := (s.modAxis i fun x => x.enter s.now st).load_setStanding i (standingIn st (s.standing i))
      have same : (s.enterAxis i st).load
          = ((s.modAxis i fun x => x.enter s.now st).setStanding i (standingIn st (s.standing i))).load := by
        unfold State.enterAxis State.changeStanding State.markFreedIf
        dsimp only
        split <;> rfl
      have before : (s.modAxis i fun x => x.enter s.now st).load = s.load := rfl
      have drawn : (s.modAxis i fun x => x.enter s.now st).standing i = s.standing i := rfl
      have less := standingIn_le st (s.standing i)
      rw [drawn] at change
      rw [same]
      omega
    have limit : (s.enterAxis i st).feed.limit = s.feed.limit := by rw [alone.shape]
    unfold State.freeRoom
    omega
  all_goals
    rw [at_]
    split
  · rename_i e
    subst e
    rw [braked]
    exact still
  · rfl
  · exact fun rests => absurd rests leaves
  · exact id
  · rename_i e; subst e; exact id
  · exact id
  · rename_i e; subst e; rfl
  · rfl

theorem offIfBraked (s : State) (i : AxisId) : Idles s (s.offIfBraked i) :=
  ite fun braked => fromBrake braked rfl nofun

theorem endDisable (s : State) (a : Ant) : Idles s (s.endDisable a) := by
  rw [State.endDisable_eq]
  refine ite fun _ => ?_
  have off : Idles s (s.modAnt a Antenna.busOff) := by
    have same (i : AxisId) : (s.modAnt a Antenna.busOff).axis i = s.axis i := by
      rw [State.axis_modAnt]
      split
      next own => rw [← own]; rfl
      next => rfl
    exact ⟨rfl, rfl, rfl, rfl, le_rfl, fun i => by rw [same], fun i => by rw [same]; exact id,
      fun i => by rw [same]; exact id, fun i => by rw [same]⟩
  exact (off.trans (offIfBraked ..)).trans (offIfBraked ..)

end Idles

/-! ### The rounds of an idle feed -/

theorem State.withdrawVoid_empty (empty : s.feed.queue = []) : s.withdrawVoid = s := by
  have kept : (s.modFeed fun f => { f with queue := f.queue.filter fun n => !s.needVoid n }) = s := by
    unfold State.modFeed
    dsimp only
    rw [empty, List.filter_nil, ← empty]
  unfold State.withdrawVoid
  dsimp only
  rw [kept, empty]
  rfl

theorem State.Idle.stowAtRest (h : s.Idle) (a : Ant) : s.stowAtRest a = s :=
  if_neg fun ⟨stopping, still⟩ => Bool.false_ne_true (still.symm.trans (h.moves a stopping))

theorem State.Idle.followUp (h : s.Idle) : Idles s s.followUp := by
  have ended : Idles s (forEach Ant.all (fun s a => s.endDisable a) s) := .forEach Idles.endDisable _ s
  have same : s.followUp = forEach Ant.all (fun s a => s.releaseIfOver a) (forEach GroupId.all
      (fun s g => s.releaseIfStill g) (forEach Ant.all (fun s a => s.endDisable a) s)) := by
    unfold State.followUp
    dsimp only
    rw [State.withdrawVoid_empty h.queue, forEach_id (f := fun s a => s.stowAtRest a) (ended.idle h).stowAtRest]
  rw [same]
  exact (ended.trans (.forEach Idles.releaseIfStill _ _)).trans (.forEach Idles.releaseIfOver _ _)

/-- No formation finds an antenna. -/
theorem State.Idle.formWave (h : s.Idle) : s.formWave = s := by
  have walk (xs : List Ant) : s.walkWave xs = ([], s) := by
    induction xs with
    | nil => rfl
    | cons a xs ih =>
      unfold State.walkWave
      rw [h.waves a]
      exact ih
  unfold State.formWave
  split
  · rfl
  · rw [walk]
    rfl

/-- Nothing is offered to. -/
theorem State.Idle.offer (h : s.Idle) : Idles s s.offer := by
  have marks := Idles.of_scratch (s := s) { s.scratch with freed := false, form := false }
  have clear : s.clearMarks.Idle := marks.idle h
  unfold State.offer
  rw [clear.formWave]
  have unasked : s.clearMarks.offerQueue 16 = s.clearMarks := by
    unfold State.offerQueue
    rw [show s.clearMarks.feed.queue = [] from h.queue]
  rw [unasked]
  split
  · exact marks
  · exact Idles.ite fun _ => marks

theorem State.Idle.offerFreed (h : s.Idle) (n : Nat) : Idles s (s.offerFreed n) := by
  induction n generalizing s with
  | zero => exact .refl s
  | succ n ih =>
    unfold State.offerFreed
    exact Idles.ite fun _ => h.offer.trans (ih (h.offer.idle h))

/-- No axis at its brake holds a claim. -/
def State.Unasked (s : State) : Prop := ∀ i, (s.axis i).state = .braked → (s.axis i).claims.any = false

theorem State.Unasked.idles (h : s.Unasked) (k : Idles s t) : t.Unasked :=
  fun i braked => k.claims i (h i (k.braked i braked))

theorem State.Unasked.wantsTorque (h : s.Unasked) (i : AxisId) : s.wantsTorque i = false := by
  unfold State.wantsTorque
  by_cases braked : (s.axis i).state = .braked
  · rw [h i braked, Bool.and_false, Bool.false_and, Bool.false_and]
  · rw [decide_eq_false braked, Bool.false_and, Bool.false_and, Bool.false_and]

theorem State.Unasked.seekAll (h : s.Unasked) : s.seekAll = s :=
  forEach_id (f := fun s i => s.seekInTurn i)
    (fun i => if_neg (by rw [h.wantsTorque i]; exact Bool.false_ne_true)) AxisId.all

/-- What follows an event in which nothing is due on the feed. -/
theorem State.Idle.settle (h : s.Idle) (k : s.Unasked) : Idles s s.settle := by
  have rounds (n : Nat) : ∀ s : State, s.Idle → s.Unasked → Idles s (s.settleRounds n) := by
    induction n with
    | zero => exact fun s _ _ => .refl s
    | succ n ih =>
      intro s h k
      have follow := h.followUp
      have sought := (k.idles follow).seekAll
      have offered := (follow.idle h).offer
      have round : s.settleRounds (n + 1) = s.followUp.offer.settleRounds n := by
        conv => lhs; unfold State.settleRounds
        rw [sought]
      rw [round]
      have one := follow.trans offered
      exact one.trans (ih _ (one.idle h) (k.idles one))
  exact rounds 4 s h k

end Sys2Proof.Machine
end

