-- ==== Sys2Proof/Proofs/HeaterSteps.lean ====
section
/-! PROOFS. A heater step (R141 to R144): what its sensor, its fall, its step index and its frame start leave to the zone,
and what of it stands once the event is over. -/

namespace Sys2Proof.Machine

variable {s t u : State}

/-! ### The reading and the fall -/

/-- The level a zone asks for once it has read its sensor (R144 to R148). -/
def State.asks (s : State) (z : ZoneId) (temp : Int) : Nat := ((s.zone z).read temp).wanted (s.iceClass z.ant)

/-- The ceiling of that level (R139). -/
def State.allows (s : State) (z : ZoneId) (temp : Int) : Nat :=
  capped (capped (s.asks z temp) (s.lockCap z)) (s.zone z).shedCap

/-- The zone once it has read its sensor and fallen to its ceiling (R142, R144). -/
def State.fallen (s : State) (z : ZoneId) (temp : Int) : Zone :=
  ({ (s.zone z).read temp with requested := s.asks z temp } : Zone).lowerTo (s.allows z temp)

/-- The part with the zone's reading taken and the zone fallen. -/
def State.readAndFallen (s : State) (z : ZoneId) (temp : Int) : State :=
  (s.modAntIn z.ant fun v => { v with temps := v.temps.set z.cls temp }).modZone z fun _ => s.fallen z temp

theorem State.refreshZone_readSensor (s : State) (z : ZoneId) (temp : Int) :
    ∃ b, (s.readSensor z temp).refreshZone z = (s.readAndFallen z temp).markFreedIf b := by
  let r := s.modAntIn z.ant fun v => { v with temps := v.temps.set z.cls temp }
  have formed : (s.readSensor z temp).formLevel z
      = r.modZone z fun _ => { (s.zone z).read temp with requested := s.asks z temp } := by
    unfold State.formLevel State.readSensor
    rw [State.modZone_modZone]
    rfl
  have ceiling : ((s.readSensor z temp).formLevel z).ceiling z = s.allows z temp := by
    rw [formed, State.ceiling, State.zone_modZone, if_pos rfl]
    rfl
  have fell : ((s.readSensor z temp).formLevel z).modZone z (fun v => v.lowerTo (s.allows z temp))
      = s.readAndFallen z temp := by
    rw [formed, State.modZone_modZone]
    rfl
  unfold State.refreshZone State.lowerZone
  dsimp only
  rw [ceiling, fell]
  exact ⟨_, rfl⟩

/-! ### The step index and the frame start -/

/-- The zone's level once a frame start has raised it, whole to its ceiling or not at all (R143, R170). -/
def State.frameLevel (s : State) (z : ZoneId) : Nat :=
  if (s.zone z).effective < s.ceiling z
      ∧ (s.load : Int) - (s.zone z).committed + (s.zone z).wattsAt (s.ceiling z) + s.reserved ≤ s.feed.limit
  then s.ceiling z else (s.zone z).effective

/-- The zone's level once its step index has advanced (R141). -/
def State.risen (s : State) (z : ZoneId) : Nat :=
  if (s.zone z).frame ≤ (s.zone z).step + 1 then s.frameLevel z else (s.zone z).effective

theorem Zone.wraps_iff (v : Zone) : v.wraps = true ↔ v.frame ≤ v.step + 1 := by
  unfold Zone.wraps Zone.nextStep
  split <;> simp_all

theorem State.admitsRaise_iff {z : ZoneId} (below : (s.zone z).effective < s.ceiling z) :
    s.admitsRaise ((s.zone z).increase (s.ceiling z)) = true
    ↔ (s.load : Int) - (s.zone z).committed + (s.zone z).wattsAt (s.ceiling z) + s.reserved ≤ s.feed.limit := by
  have mono : (s.zone z).committed ≤ (s.zone z).wattsAt (s.ceiling z) := (s.zone z).wattsAt_mono below.le
  unfold State.admitsRaise Zone.increase State.freeRoom
  rw [decide_eq_true_iff]
  omega

/-- The step index moves nothing that a raise is judged by. -/
theorem State.load_step (s : State) (z : ZoneId) (n : Nat) : (s.modZone z fun v => { v with step := n }).load = s.load := by
  have change := s.load_setZone z { s.zone z with step := n }
  have watts : ({ s.zone z with step := n } : Zone).committed = (s.zone z).committed := rfl
  show (s.setZone z { s.zone z with step := n }).load = s.load
  omega

theorem State.ceiling_step (s : State) (z : ZoneId) (n : Nat) :
    (s.modZone z fun v => { v with step := n }).ceiling z = s.ceiling z := by
  rw [State.ceiling, State.zone_modZone, if_pos rfl]
  rfl

theorem State.advanceZone_zone (s : State) (z : ZoneId) :
    ((s.advanceZone z).modZone z Zone.drive).zone z
      = ({ s.zone z with step := (s.zone z).nextStep, effective := s.risen z } : Zone).drive := by
  let t := s.modZone z fun v => { v with step := v.nextStep }
  have own : t.zone z = { s.zone z with step := (s.zone z).nextStep } := by simp [t]
  have ceiling : t.ceiling z = s.ceiling z := s.ceiling_step z (s.zone z).nextStep
  have load : t.load = s.load := s.load_step z (s.zone z).nextStep
  have started : (t.frameStart z).zone z = { t.zone z with effective := s.frameLevel z } := by
    have below : (t.zone z).effective < t.ceiling z ↔ (s.zone z).effective < s.ceiling z := by rw [own, ceiling]
    have fits : (t.load : Int) - (t.zone z).committed + (t.zone z).wattsAt (t.ceiling z) + t.reserved ≤ t.feed.limit
        ↔ (s.load : Int) - (s.zone z).committed + (s.zone z).wattsAt (s.ceiling z) + s.reserved ≤ s.feed.limit := by
      rw [own, ceiling, load]
      rfl
    have due := (and_congr_right fun h => t.admitsRaise_iff h).trans (and_congr below fits)
    unfold State.frameStart State.frameLevel
    split
    next h => rw [if_pos (due.1 h), State.zone_modZone, if_pos rfl, ceiling]
    next h => rw [if_neg fun k => h (due.2 k), own]
  rw [State.zone_modZone, if_pos rfl]
  unfold State.advanceZone State.risen
  dsimp only
  by_cases wraps : (s.zone z).wraps = true
  · have first := (Zone.wraps_iff _).1 wraps
    rw [if_pos wraps, if_pos first, started, own]
  · have later := fun h => wraps ((Zone.wraps_iff _).2 h)
    rw [if_neg wraps, own, if_neg later]

/-! ### The whole step -/

/-- The zone's level once it has fallen and a frame start has raised it (R142, R143). -/
def State.stepped (s : State) (z : ZoneId) (temp : Int) : Nat :=
  let fallen := min (s.zone z).effective (s.allows z temp)
  if (s.zone z).frame ≤ (s.zone z).step + 1 ∧ fallen < s.allows z temp
      ∧ (s.load : Int) - (s.zone z).committed + (s.zone z).wattsAt (s.allows z temp) + s.reserved ≤ s.feed.limit
  then s.allows z temp else fallen

theorem State.fallen_figures (s : State) (z : ZoneId) (temp : Int) :
    (s.fallen z temp).effective = min (s.zone z).effective (s.allows z temp)
    ∧ (s.fallen z temp).frame = (s.zone z).frame ∧ (s.fallen z temp).step = (s.zone z).step
    ∧ (∀ n, (s.fallen z temp).wattsAt n = (s.zone z).wattsAt n)
    ∧ (s.fallen z temp).reading = some temp ∧ (s.fallen z temp).healthy = sensorGood temp
    ∧ (s.fallen z temp).requested = s.asks z temp ∧ (s.fallen z temp).shedCap = (s.zone z).shedCap := by
  unfold State.fallen Zone.lowerTo
  split
  next h => exact ⟨(Nat.min_eq_right h.le).symm, rfl, rfl, fun _ => rfl, rfl, rfl, rfl, rfl⟩
  next h => exact ⟨(Nat.min_eq_left (Nat.not_lt.1 h)).symm, rfl, rfl, fun _ => rfl, rfl, rfl, rfl, rfl⟩

/-- A zone that has fallen rises as the part before it judged. -/
theorem State.risen_readAndFallen (s : State) (z : ZoneId) (temp : Int) :
    (s.readAndFallen z temp).risen z = s.stepped z temp := by
  obtain ⟨level, frame, step, watts, -, -, asked, cap⟩ := s.fallen_figures z temp
  have own : (s.readAndFallen z temp).zone z = s.fallen z temp := by simp [State.readAndFallen]
  have ceiling : (s.readAndFallen z temp).ceiling z = s.allows z temp := by
    rw [State.ceiling, own, asked, cap]
    rfl
  have load : (s.readAndFallen z temp).load + (s.zone z).committed = s.load + (s.fallen z temp).committed :=
    (s.modAntIn z.ant fun v => { v with temps := v.temps.set z.cls temp }).load_setZone z (s.fallen z temp)
  have fits : ((s.readAndFallen z temp).load : Int) - (s.fallen z temp).committed
        + (s.zone z).wattsAt (s.allows z temp) + (s.readAndFallen z temp).reserved ≤ (s.readAndFallen z temp).feed.limit
      ↔ (s.load : Int) - (s.zone z).committed + (s.zone z).wattsAt (s.allows z temp) + s.reserved ≤ s.feed.limit := by
    have reserved : (s.readAndFallen z temp).reserved = s.reserved := rfl
    have limit : (s.readAndFallen z temp).feed.limit = s.feed.limit := rfl
    rw [reserved, limit]
    omega
  unfold State.risen State.frameLevel State.stepped
  rw [own, ceiling, level, frame, step, watts]
  simp only [fits]
  split_ifs <;> simp_all

theorem State.afterReading_cool {z : ZoneId} (cool : z.cls ≠ .pin ∨ (s.stowOf z.ant).state ≠ .pinWarming) :
    (s.afterReading z).heat.zones = s.heat.zones ∧ (s.afterReading z).stow = s.stow
    ∧ (s.afterReading z).feed = s.feed ∧ (s.afterReading z).ants = s.ants ∧ (s.afterReading z).field = s.field := by
  unfold State.afterReading
  split
  · exact ⟨rfl, rfl, rfl, rfl, rfl⟩
  next pin =>
    have cold : s.warmed z.ant = s :=
      if_neg fun h => cool.elim (fun other => other pin) fun other => other h.1
    rw [cold]
    exact ⟨rfl, rfl, rfl, rfl, rfl⟩
  · exact ⟨rfl, rfl, rfl, rfl, rfl⟩

theorem State.advanceZone_away (s : State) (z : ZoneId) :
    (s.advanceZone z).stow = s.stow ∧ (s.advanceZone z).feed = s.feed ∧ (s.advanceZone z).ants = s.ants
    ∧ (s.advanceZone z).field = s.field := by
  unfold State.advanceZone State.frameStart
  dsimp only
  split
  · split <;> exact ⟨rfl, rfl, rfl, rfl⟩
  · exact ⟨rfl, rfl, rfl, rfl⟩

/-- A heater step before what other blocks make of its reading: the zone as read, asked, lowered, advanced and driven, and
nothing else of the part but its field input (R141). -/
theorem State.heaterStep_reads (s : State) (z : ZoneId) (temp : Int) : ∃ v : State, s.heaterStep z temp = v.afterReading z
    ∧ v.zone z = ({ s.fallen z temp with step := (s.zone z).nextStep, effective := s.stepped z temp } : Zone).drive
    ∧ v.stow = s.stow ∧ v.feed = s.feed ∧ v.ants = s.ants
    ∧ v.field = (s.modAntIn z.ant fun v => { v with temps := v.temps.set z.cls temp }).field := by
  obtain ⟨b, shape⟩ := s.refreshZone_readSensor z temp
  let u := (s.readAndFallen z temp).markFreedIf b
  have marked : u = { s.readAndFallen z temp with scratch := u.scratch } := by cases b <;> rfl
  let v := (u.advanceZone z).modZone z Zone.drive
  have body : s.heaterStep z temp = v.afterReading z := by
    unfold State.heaterStep
    rw [shape]
  obtain ⟨stow, feed, ants, field⟩ := u.advanceZone_away z
  have fell : u.zone z = s.fallen z temp := by
    rw [marked]
    show (s.readAndFallen z temp).zone z = s.fallen z temp
    simp [State.readAndFallen]
  have risen : u.risen z = s.stepped z temp := by
    rw [marked]
    exact s.risen_readAndFallen z temp
  have next : (s.fallen z temp).nextStep = (s.zone z).nextStep := by
    obtain ⟨-, frame, step, -⟩ := s.fallen_figures z temp
    rw [Zone.nextStep, frame, step]
    rfl
  refine ⟨v, body, ?_, stow.trans (by rw [marked]; rfl), feed.trans (by rw [marked]; rfl), ants.trans (by rw [marked]; rfl),
    field.trans (by rw [marked]; rfl)⟩
  rw [State.advanceZone_zone, fell, risen, next]

/-- A heater step where it leaves the stow of its antenna alone (R141). -/
theorem State.heaterStep_spec {z : ZoneId} {temp : Int}
    (cool : z.cls ≠ .pin ∨ (s.stowOf z.ant).state ≠ .pinWarming) :
    (s.heaterStep z temp).zone z
      = ({ s.fallen z temp with step := (s.zone z).nextStep, effective := s.stepped z temp } : Zone).drive
    ∧ (s.heaterStep z temp).stow = s.stow ∧ (s.heaterStep z temp).feed = s.feed ∧ (s.heaterStep z temp).ants = s.ants
    ∧ ((s.heaterStep z temp).field.ants.get z.ant).temps.get z.cls = temp := by
  obtain ⟨v, body, zone, stow, feed, ants, field⟩ := s.heaterStep_reads z temp
  have cool' : z.cls ≠ .pin ∨ (v.stowOf z.ant).state ≠ .pinWarming := by
    unfold State.stowOf
    rw [stow]
    exact cool
  obtain ⟨zones, stow', feed', ants', field'⟩ := v.afterReading_cool cool'
  have own : (v.afterReading z).zone z = v.zone z := by
    unfold State.zone
    rw [zones]
  rw [body]
  refine ⟨own.trans zone, stow'.trans stow, feed'.trans feed, ants'.trans ants, ?_⟩
  rw [field', field]
  simp [State.modAntIn]

/-! ### The event -/

/-- A heater step where nothing else is due on the feed (R125, R128, R165). -/
theorem heaterStep_exact {z : ZoneId} {temp : Int} (cool : z.cls ≠ .pin ∨ (s.stowOf z.ant).state ≠ .pinWarming)
    (idle : s.Idle) (unasked : s.Unasked) :
    (event s fun s => s.heaterStep z temp).zone z = (s.heaterStep z temp).zone z := by
  obtain ⟨-, stow, feed, ants, -⟩ := State.heaterStep_spec (temp := temp) cool
  have idle' : (s.heaterStep z temp).Idle := by
    refine ⟨by rw [feed]; exact idle.queue, fun a => ?_, fun a => ?_⟩
    · unfold State.stowOf State.moving State.axis
      rw [stow, ants]
      exact idle.moves a
    · unfold State.waitsForWave State.stowOf
      rw [stow]
      exact idle.waves a
  have unasked' : (s.heaterStep z temp).Unasked := by
    unfold State.Unasked State.axis
    rw [ants]
    exact unasked
  have heat : (event s fun s => s.heaterStep z temp).heat.zones = (s.heaterStep z temp).heat.zones :=
    ((Moves.announce s _).touches.same .zones (by decide)).trans (congrArg Heat.zones (idle'.settle unasked').heat)
  unfold State.zone
  rw [heat]

/-- Settles O56: the zone as the step leaves it, which what follows the event lowers if anything. -/
theorem heaterStepsFormTheLevel : Obligations.HeaterStepsFormTheLevel := by
  unfold Obligations.HeaterStepsFormTheLevel
  intro s z temp c on which cool
  have good : decide (-600 ≤ temp ∧ temp ≤ 800) = sensorGood temp := Bool.decide_and ..
  dsimp only
  rw [good]
  let t := event s fun s => s.heaterStep z temp
  have ran : exec c s = .next t := by
    obtain rfl | ⟨rfl, first⟩ := which
    · exact occur_due on rfl
    · exact occur_due on ((Zone.wraps_iff _).2 first)
  obtain ⟨own, -, -, -, field⟩ := State.heaterStep_spec (temp := temp) cool
  obtain ⟨-, -, -, -, read, well, asked, -⟩ := s.fallen_figures z temp
  have requests : (t.zone z).requests = ((s.heaterStep z temp).zone z).requests :=
    event_same (p := .zoneRequests) s _ (by decide) z
  have lowered : ((s.heaterStep z temp).zone z).Lowers (t.zone z) :=
    (event_calm s fun s => s.heaterStep z temp).zones z
  rw [own] at requests lowered
  simp only [Zone.requests, Zone.drive, Prod.mk.injEq] at requests
  obtain ⟨reading, healthy, -, requested, step⟩ := requests
  refine ⟨t, ran, ?_, reading.trans read, healthy.trans well, requested.trans asked, step, lowered.driven rfl,
    lowered.level, fun queue braked stow => ?_⟩
  · rw [show t.field = (s.heaterStep z temp).field from event_same (p := .field) s _ (by decide)]
    exact field
  · have idle : s.Idle := ⟨queue, fun a => (stow a).1, fun a => by
      unfold State.waitsForWave
      by_cases waits : (s.stowOf a).state = .waiting
      · rw [(stow a).2 waits, Bool.not_true, Bool.and_false]
      · rw [decide_eq_false waits, Bool.false_and]⟩
    rw [heaterStep_exact cool idle braked, own]
    rfl

end Sys2Proof.Machine
end

