-- ==== Sys2Proof/Proofs/AxisLeaves.lean ====
section
/-! PROOFS. What follows an event leaves an axis of an UNSTOWED antenna alone where it grants another's need, forms a wave,
ends another antenna's disable or stow, or releases a grant: its state, its claims but GROUP, its standing grant and its
place in the grant queue (R12, R87, R125, R128, R165). -/

namespace Sys2Proof.Machine

variable {s t u : State} {i : AxisId}

/-- The needs of an axis that wait. -/
def State.needsOf (s : State) (i : AxisId) : List Need := s.feed.queue.filter fun n => decide (n.axis = i)

theorem State.waits_iff : s.waits i = true ↔ s.needsOf i ≠ [] := by
  unfold State.waits State.needsOf
  rw [List.any_eq_true, ← List.isEmpty_eq_false_iff, List.isEmpty_eq_false_iff_exists_mem]
  simp only [List.mem_filter]

/-- An axis is left alone: its state and motion, its claims but GROUP, a standing grant it draws on, its antenna's stow and
power, and its needs that wait. No need joins the queue, and no axis comes to its brake. -/
structure Leaves (i : AxisId) (s t : State) : Prop where
  core : (t.axis i).core = (s.axis i).core
  record : (t.axis i).record = (s.axis i).record
  claims : ∀ c, c ≠ .group → (t.axis i).claims.has c = (s.axis i).claims.has c
  draw : (s.axis i).cover = .standing → (t.axis i).cover = .standing ∧ t.standing i = s.standing i
  stow : t.stowOf i.ant = s.stowOf i.ant
  power : (t.ants.get i.ant).power = (s.ants.get i.ant).power
  needs : t.needsOf i = s.needsOf i
  queue : t.feed.queue.Sublist s.feed.queue
  braked : ∀ j, (t.axis j).state = .braked → (s.axis j).state = .braked

namespace Leaves

theorem refl (s : State) : Leaves i s s :=
  ⟨rfl, rfl, fun _ _ => rfl, fun h => ⟨h, rfl⟩, rfl, rfl, rfl, .refl _, fun _ => id⟩

theorem trans (h : Leaves i s t) (k : Leaves i t u) : Leaves i s u where
  core := k.core.trans h.core
  record := k.record.trans h.record
  claims c other := (k.claims c other).trans (h.claims c other)
  draw own := by
    obtain ⟨cover, same⟩ := h.draw own
    obtain ⟨cover', same'⟩ := k.draw cover
    exact ⟨cover', same'.trans same⟩
  stow := k.stow.trans h.stow
  power := k.power.trans h.power
  needs := k.needs.trans h.needs
  queue := k.queue.trans h.queue
  braked j := h.braked j ∘ k.braked j

theorem ite {c : Prop} [Decidable c] (h : c → Leaves i s t) (k : ¬c → Leaves i s u) : Leaves i s (if c then t else u) := by
  split
  · exact h ‹_›
  · exact k ‹_›

theorem either {c : Prop} [Decidable c] (h : Leaves i s t) (k : Leaves i s u) : Leaves i s (if c then t else u) :=
  .ite (fun _ => h) fun _ => k

theorem forEach {α : Type} {f : State → α → State} (h : ∀ s x, Leaves i s (f s x)) (xs : List α) (s : State) :
    Leaves i s (forEach xs f s) := by
  induction xs generalizing s with
  | nil => exact .refl s
  | cons x xs ih => exact (h s x).trans (ih _)

/-! ### Single updates -/

/-- An update away from the drives, the antenna's stow record, the axis's grant and the queue. -/
theorem away (ants : t.ants = s.ants) (queue : t.feed.queue = s.feed.queue) (standing : t.standing i = s.standing i)
    (stow : t.stowOf i.ant = s.stowOf i.ant) : Leaves i s t := by
  have axis (j : AxisId) : t.axis j = s.axis j := by rw [State.axis, State.axis, ants]
  refine ⟨by rw [axis], by rw [axis], fun _ _ => by rw [axis], fun own => ⟨by rw [axis]; exact own, standing⟩, stow,
    by rw [ants], ?_, by rw [queue], fun j => by rw [axis]; exact id⟩
  rw [State.needsOf, State.needsOf, queue]

theorem raise (s : State) (w : FlagWord) : Leaves i s (s.raise w) := away rfl rfl rfl rfl
theorem raiseIf (s : State) (b : Bool) (w : FlagWord) : Leaves i s (s.raiseIf b w) := either (raise s w) (refl s)
theorem markFreed (s : State) : Leaves i s s.markFreed := away rfl rfl rfl rfl
theorem markFreedIf (s : State) (b : Bool) : Leaves i s (s.markFreedIf b) := either (markFreed s) (refl s)
theorem markForm (s : State) : Leaves i s s.markForm := away rfl rfl rfl rfl
theorem clearMarks (s : State) : Leaves i s s.clearMarks := away rfl rfl rfl rfl
theorem modTrack (s : State) (a : Ant) (f : Track → Track) : Leaves i s (s.modTrack a f) := away rfl rfl rfl rfl
theorem modJog (s : State) (a : Ant) (f : Jog → Jog) : Leaves i s (s.modJog a f) := away rfl rfl rfl rfl
theorem modHorn (s : State) (a : Ant) (f : Horn → Horn) : Leaves i s (s.modHorn a f) := away rfl rfl rfl rfl
theorem modGroup (s : State) (g : GroupId) (f : Group → Group) : Leaves i s (s.modGroup g f) := away rfl rfl rfl rfl
theorem modZone (s : State) (z : ZoneId) (f : Zone → Zone) : Leaves i s (s.modZone z f) := away rfl rfl rfl rfl
theorem modFeed {f : Feed → Feed} (s : State) (queue : (f s.feed).queue = s.feed.queue)
    (standing : (f s.feed).standing = s.feed.standing) : Leaves i s (s.modFeed f) :=
  away rfl queue (congrArg (fun v : Six (PerAxis Standing) => (v.get i.ant).get i.ax) standing) rfl
theorem setWave (s : State) (w : Option Wave) : Leaves i s (s.setWave w) := away rfl rfl rfl rfl

theorem modStow {a : Ant} (far : a ≠ i.ant) (s : State) (f : StowRecord → StowRecord) : Leaves i s (s.modStow a f) :=
  away rfl rfl rfl (by rw [State.stowOf_modStow, if_neg far.symm])

theorem setStanding {j : AxisId} (far : j ≠ i) (s : State) (g : Standing) : Leaves i s (s.setStanding j g) :=
  away rfl rfl (by rw [State.standing_setStanding, if_neg far.symm]) rfl

theorem changeStanding {j : AxisId} (far : j ≠ i) (s : State) (g : Standing) : Leaves i s (s.changeStanding j g) :=
  (setStanding far s g).trans (markFreedIf ..)

/-- An update of another axis that does not bring it to its brake. -/
theorem modAxis {j : AxisId} (far : j ≠ i) {f : Axis → Axis}
    (braked : (f (s.axis j)).state = .braked → (s.axis j).state = .braked) : Leaves i s (s.modAxis j f) := by
  have at_ : (s.modAxis j f).axis i = s.axis i := by rw [State.axis_modAxis, if_neg far.symm]
  refine ⟨by rw [at_], by rw [at_], fun _ _ => by rw [at_], fun own => ⟨by rw [at_]; exact own, rfl⟩, rfl,
    Antenna.power_setAxis .., rfl, .refl _, fun k => ?_⟩
  rw [State.axis_modAxis]
  split
  · rename_i e; subst e; exact braked
  · exact id

theorem enterAxis {j : AxisId} (far : j ≠ i) (s : State) (st : AxisState) (up : st ≠ .braked := by decide) :
    Leaves i s (s.enterAxis j st) :=
  (modAxis (f := fun x => x.enter s.now st) far fun braked => absurd braked up).trans (changeStanding far ..)

theorem setCover {j : AxisId} (far : j ≠ i) (s : State) (c : GrantCover) :
    Leaves i s (s.modAxis j fun x => { x with cover := c }) := modAxis far id

/-- The claim GROUP dropped from any axis. -/
theorem dropGroup (s : State) (j : AxisId) : Leaves i s (s.dropClaim j .group) := by
  have at_ (k : AxisId) : (s.dropClaim j .group).axis k = if k = j then (s.axis j).dropClaim s.now .group else s.axis k :=
    State.axis_modAxis ..
  refine ⟨?_, ?_, fun c other => ?_, fun own => ⟨?_, rfl⟩, rfl, Antenna.power_setAxis .., rfl, .refl _, fun k => ?_⟩
  all_goals
    rw [at_]
    split
  · rename_i e; subst e; rfl
  · rfl
  · rename_i e; subst e; rfl
  · rfl
  · rename_i e
    subst e
    show ((s.axis i).claims.put .group false).has c = _
    rw [Claims.has_put, if_neg other]
  · rfl
  · rename_i e; subst e; exact own
  · exact own
  · rename_i e; subst e; exact id
  · exact id

/-! ### The shed -/

theorem lowerZone (s : State) (o : Bool) (z : ZoneId) : Leaves i s (s.lowerZone o z) :=
  (modZone ..).trans (markFreedIf ..)

theorem imposeShed (s : State) (o g d : Bool) : Leaves i s (s.imposeShed o g d) := by
  unfold State.imposeShed
  dsimp only
  refine trans (trans (modFeed _ ?_ ?_) (forEach (fun s z => (modZone ..).trans (lowerZone ..)) _ _)) (raiseIf ..)
  all_goals rfl

theorem needTest (s : State) : Leaves i s s.needTest := by
  unfold State.needTest
  split
  · exact refl s
  · exact either (imposeShed ..) (refl s)

theorem makeRoom (s : State) (f : Fit) (d : Bool) : Leaves i s (s.makeRoom f d) := by
  unfold State.makeRoom
  split
  · exact imposeShed ..
  · exact imposeShed ..
  · exact refl s

theorem afterGrant (s : State) (f : Fit) (n : Nat) : Leaves i s (s.afterGrant f n) := by
  unfold State.afterGrant
  split
  · exact (needTest s).trans (markFreedIf ..)
  · exact markFreed s

/-! ### Releases -/

/-- A conversion leaves an axis on its own standing grant, and changes no state. -/
theorem convertAxis {c : GrantCover} (own : c ≠ .standing) (s : State) (j : AxisId) (h : Nat) :
    Leaves i s (s.convertAxis c j h) := by
  by_cases far : j = i
  · subst far
    unfold State.convertAxis
    refine ite (fun conv => ?_) fun _ => refl s
    have covered : (s.axis j).cover = c := of_decide_eq_true (Bool.and_eq_true_iff.1 conv).1
    have at_ (k : AxisId) : (((s.setStanding j ⟨h, h⟩).modAxis j fun x => { x with cover := .standing }).axis k)
        = if k = j then { s.axis j with cover := .standing } else s.axis k := State.axis_modAxis ..
    refine ⟨?_, ?_, fun c other => ?_, fun drawn => absurd (covered.symm.trans drawn) own, rfl, Antenna.power_setAxis ..,
      rfl, .refl _, fun k => ?_⟩
    · rw [at_, if_pos rfl]; rfl
    · rw [at_, if_pos rfl]
    · rw [at_, if_pos rfl]
    · rw [at_]; split
      · rename_i e; subst e; exact id
      · exact id
  · unfold State.convertAxis
    exact either ((setStanding far ..).trans (setCover far ..)) (refl s)

theorem convertGrant {c : GrantCover} (own : c ≠ .standing) (s : State) (w : Nat) (hs : List (AxisId × Nat)) :
    Leaves i s (s.convertGrant c w hs) :=
  forEach (f := fun s (p : AxisId × Nat) => s.convertAxis c p.1 p.2) (fun s p => convertAxis own s p.1 p.2) _ s

theorem releaseGroupGrant (s : State) (g : GroupId) : Leaves i s (s.releaseGroupGrant g) := by
  unfold State.releaseGroupGrant
  split
  · exact refl s
  next v _ =>
    have converted : Leaves i s (s.convertGrant (.group g) v.watts v.holds) := convertGrant (by exact nofun) ..
    exact (converted.trans (modFeed _ rfl rfl)).trans (markFreed _)

theorem releaseWaveGrant (s : State) (a : Ant) : Leaves i s (s.releaseWaveGrant a) := by
  unfold State.releaseWaveGrant
  split
  · exact refl s
  next v _ =>
    have converted : Leaves i s (s.convertGrant .wave v.watts [(⟨a, .az⟩, v.holds.az), (⟨a, .el⟩, v.holds.el)]) :=
      convertGrant (by exact nofun) ..
    exact (converted.trans (modFeed _ rfl rfl)).trans (markFreed _)

theorem releaseIfStill (s : State) (g : GroupId) : Leaves i s (s.releaseIfStill g) := by
  unfold State.releaseIfStill State.releaseGroup
  exact either (((releaseGroupGrant s g).trans (modGroup ..)).trans (forEach (fun s j => dropGroup s j) _ _)) (refl s)

theorem releaseIfOver (s : State) (a : Ant) : Leaves i s (s.releaseIfOver a) :=
  either (releaseWaveGrant s a) (refl s)

/-! ### Another antenna's disable -/

/-- An update of another antenna's power. -/
theorem modAnt {a : Ant} (far : a ≠ i.ant) {f : Antenna → Antenna} (axes : ∀ v, (f v).axes = v.axes) :
    Leaves i s (s.modAnt a f) := by
  have at_ (j : AxisId) : (s.modAnt a f).axis j = s.axis j := by
    rw [State.axis_modAnt]
    split
    · rename_i e; rw [axes, ← e]; rfl
    · rfl
  refine ⟨by rw [at_], by rw [at_], fun _ _ => by rw [at_], fun own => ⟨by rw [at_]; exact own, rfl⟩, rfl, ?_, rfl,
    .refl _, fun j => by rw [at_]; exact id⟩
  rw [State.ants_get_modAnt, if_neg far.symm]

theorem offIfBraked {j : AxisId} (far : j ≠ i) (s : State) : Leaves i s (s.offIfBraked j) :=
  either (enterAxis far s .off) (refl s)

theorem endDisable {a : Ant} (far : a ≠ i.ant) (s : State) : Leaves i s (s.endDisable a) := by
  rw [State.endDisable_eq]
  have other (x : AxisName) : (⟨a, x⟩ : AxisId) ≠ i := fun e => far (congrArg AxisId.ant e)
  have down : Leaves i s (s.modAnt a Antenna.busOff) := modAnt far fun _ => rfl
  exact either ((down.trans (offIfBraked (other .az) _)).trans (offIfBraked (other .el) _)) (refl s)

/-! ### Another antenna's stow -/

theorem goBraking {j : AxisId} (far : j ≠ i) (s : State) (p : PendingStop) : Leaves i s (s.goBraking j p) :=
  (enterAxis far s .braking).trans (modAxis far id)

theorem endStop {j : AxisId} (far : j ≠ i) (s : State) (r : StopReason) (d : StopTarget) : Leaves i s (s.endStop j r d) := by
  cases d with
  | holding => exact enterAxis far s .holding
  | braked | off => exact goBraking far ..

theorem startStop {j : AxisId} (far : j ≠ i) (s : State) (r : StopReason) (d : StopTarget) :
    Leaves i s (s.startStop j r d) := by
  have begun (x : StopRecord) : Leaves i s ((s.modAxis j fun v => { v with stop := some x }).enterAxis j .stopping) :=
    (modAxis far id).trans (enterAxis far _ .stopping)
  exact either ((begun _).trans (endStop far ..)) (begun _)

theorem takeStop {j : AxisId} (far : j ≠ i) (s : State) (r : StopReason) (d : StopTarget) :
    Leaves i s (s.takeStop j r d) := by
  unfold State.takeStop
  split
  case h_1 | h_2 | h_3 | h_4 => exact refl s
  case h_5 => exact either (refl s) (modAxis far id)
  case h_6 => exact either (refl s) (either (modAxis far id) (goBraking far ..))
  case h_7 | h_8 | h_9 => exact startStop far ..
  case h_10 | h_11 => exact modAxis far id

theorem stopAxis {j : AxisId} (far : j ≠ i) (s : State) (r : StopReason) (d : StopTarget) :
    Leaves i s (s.stopAxis j r d) :=
  (either (refl s) (modAxis far id)).trans (takeStop far ..)

theorem stopBoth {a : Ant} (far : a ≠ i.ant) (s : State) (r : StopReason) (d : StopTarget) :
    Leaves i s (s.stopBoth a r d) := by
  have other (x : AxisName) : (⟨a, x⟩ : AxisId) ≠ i := fun e => far (congrArg AxisId.ant e)
  exact (stopAxis (other .az) ..).trans (stopAxis (other .el) ..)

theorem stowAtRest {a : Ant} (far : a ≠ i.ant) (s : State) : Leaves i s (s.stowAtRest a) := by
  have set (st : StowState) : Leaves i s (s.setStow a st) := modStow far ..
  exact either (either ((set _).trans (stopBoth far ..)) (either (set _) ((set _).trans (markForm _)))) (refl s)

/-! ### Another axis's torque -/

theorem torqueUnder {j : AxisId} (far : j ≠ i) (s : State) (c : GrantCover) : Leaves i s (s.torqueUnder j c) :=
  (setCover far s c).trans (enterAxis far _ .torqueUp)

theorem ownGrant (s : State) (j : AxisId) : Leaves i s (s.ownGrant j) := by
  unfold State.ownGrant
  split
  next g _ =>
    split
    · exact refl s
    next v _ =>
      have converted : Leaves i s (s.convertAxis (.group g) j (min (v.hold j) v.watts)) := convertAxis (by exact nofun) ..
      exact either (converted.trans (modFeed _ rfl rfl)) (refl s)
  · split
    · exact refl s
    next v _ =>
      have converted : Leaves i s (s.convertAxis .wave j (min (v.holds.get j.ax) v.watts)) := convertAxis (by exact nofun) ..
      exact either (converted.trans (modFeed _ rfl rfl)) (refl s)
  · exact refl s

theorem startJog {j : AxisId} (far : j ≠ i) (s : State) : Leaves i s (s.startJog j) :=
  either ((enterAxis far s .jogging).trans (modJog ..)) (changeStanding far ..)

theorem grantNeed {n : Need} (far : n.axis ≠ i) (s : State) : Leaves i s (s.grantNeed n) := by
  have added (w : Nat) : Leaves i s ((s.ownGrant n.axis).addStanding n.axis w) := (ownGrant s _).trans (setStanding far ..)
  unfold State.grantNeed
  split
  · exact ((setStanding far ..).trans (setCover far ..)).trans (enterAxis far _ .torqueUp)
  · exact (added _).trans (modTrack ..)
  · exact (added _).trans (startJog far _)

theorem admitNeed {n : Need} (far : n.axis ≠ i) (s : State) (f : Fit) : Leaves i s (s.admitNeed n f) :=
  ((makeRoom s f false).trans (grantNeed far _)).trans (afterGrant ..)

/-- The head of the queue, another axis's need, is taken off. -/
theorem takeHead {n : Need} {rest : List Need} (far : n.axis ≠ i) (queue : s.feed.queue = n :: rest) :
    Leaves i s (s.modFeed fun f => { f with queue := rest }) := by
  refine ⟨rfl, rfl, fun _ _ => rfl, fun own => ⟨own, rfl⟩, rfl, rfl, ?_, ?_, fun _ => id⟩
  · unfold State.needsOf
    rw [queue, List.filter_cons_of_neg (by simpa using far)]
    rfl
  · rw [queue]
    exact List.sublist_cons_self ..

/-! ### Waves of other antennas -/

theorem withdraw {j : AxisId} (far : j ≠ i) (s : State) : Leaves i s (s.withdraw j) := by
  refine ⟨rfl, rfl, fun _ _ => rfl, fun own => ⟨own, rfl⟩, rfl, rfl, ?_, List.filter_sublist, fun _ => id⟩
  show (s.feed.queue.filter fun n => decide (n.axis ≠ j)).filter _ = s.feed.queue.filter _
  rw [List.filter_filter]
  refine List.filter_congr fun n _ => ?_
  by_cases own : n.axis = i
  · rw [decide_eq_true own, Bool.true_and]
    exact decide_eq_true fun e => far (e.symm.trans own)
  · rw [decide_eq_false own, Bool.false_and]

theorem foldAxis {j : AxisId} (far : j ≠ i) (s : State) (c : GrantCover) : Leaves i s (s.foldAxis c j) :=
  ((setStanding far s ⟨0, 0⟩).trans (withdraw far _)).trans (either (setCover far ..) (refl _))

theorem grantWave {a : Ant} (far : a ≠ i.ant) (s : State) (d : Nat) : Leaves i s (s.grantWave a d) := by
  have other (x : AxisName) : (⟨a, x⟩ : AxisId) ≠ i := fun e => far (congrArg AxisId.ant e)
  unfold State.grantWave
  exact ((foldAxis (other .az) s .wave).trans (foldAxis (other .el) _ .wave)).trans (modFeed _ rfl rfl)

theorem enableBus {a : Ant} (far : a ≠ i.ant) (s : State) : Leaves i s (s.enableBus a) := by
  have other (x : AxisName) : (⟨a, x⟩ : AxisId) ≠ i := fun e => far (congrArg AxisId.ant e)
  have enabled : Leaves i s (s.modAnt a fun v => { v with enable := true }) := modAnt far fun _ => rfl
  have wake (x : AxisName) (s : State) :
      Leaves i s (if (s.axis ⟨a, x⟩).state = .off then s.enterAxis ⟨a, x⟩ .precharge else s) :=
    either (enterAxis (other x) s .precharge) (refl s)
  have timed (s : State) : Leaves i s (s.runFieldTimers a) := by
    have at_ (j : AxisId) : ((s.runFieldTimers a).axis j).state = (s.axis j).state :=
      Axis.core_state ((Still.runFieldTimers s a).core j id)
    have own : (s.runFieldTimers a).axis i = s.axis i := by
      unfold State.runFieldTimers
      rw [State.axis_modAnt, if_neg far.symm]
    exact ⟨by rw [own], by rw [own], fun _ _ => by rw [own], fun drawn => ⟨by rw [own]; exact drawn, rfl⟩, rfl,
      (Still.runFieldTimers s a).power _, rfl, .refl _, fun j => by rw [at_]; exact id⟩
  let charge (v : Antenna) : Antenna := { v with bus := .precharge, prechargeStart := some s.now }
  have charged : Leaves i s ((s.modAnt a fun v => { v with enable := true }).modAnt a charge) :=
    enabled.trans (modAnt far fun _ => rfl)
  exact either ((charged.trans ((wake .az _).trans (wake .el _))).trans (timed _)) enabled

theorem addStow {j : AxisId} (far : j.ant ≠ i.ant) (s : State) : Leaves i s (s.addClaim j .stow) := by
  have other : j ≠ i := fun e => far (congrArg AxisId.ant e)
  exact either ((modAxis other id).trans (either (refl _) (enableBus far _))) (refl s)

theorem admitToWave {a : Ant} (far : a ≠ i.ant) (s : State) (f : Fit) : Leaves i s (s.admitToWave a f) := by
  have granted : Leaves i s (((s.makeRoom f true).grantWave a (s.stowDemand a)).afterGrant f
      ((s.foldable ⟨a, .az⟩) + (s.foldable ⟨a, .el⟩) + s.earlierWave a)) :=
    ((makeRoom s f true).trans (grantWave far ..)).trans (afterGrant ..)
  have claimed (s : State) : Leaves i s (Machine.forEach a.axes (fun s j => s.addClaim j .stow) s) :=
    (addStow (j := ⟨a, .az⟩) far s).trans (addStow (j := ⟨a, .el⟩) far _)
  have warned (s : State) (e : Timer) : Leaves i s (s.setWarning a e) := by
    unfold State.setWarning State.refreshHorn
    exact (modStow far s _).trans (modHorn ..)
  unfold State.admitToWave
  exact ((granted.trans (modStow far ..)).trans (either (refl _) (warned _ _))).trans (claimed _)

theorem walkWave (xs : List Ant) (s : State) (unstowed : (s.stowOf i.ant).state = .unstowed) :
    Leaves i s (s.walkWave xs).2 := by
  induction xs generalizing s with
  | nil => exact refl s
  | cons a xs ih =>
    unfold State.walkWave
    split
    · exact ih s unstowed
    next waits =>
      split
      · exact refl s
      · have far : a ≠ i.ant := by
          rintro rfl
          unfold State.waitsForWave at waits
          rw [unstowed] at waits
          exact waits rfl
        have admitted := admitToWave far s (s.stowFit a)
        exact admitted.trans (ih _ (by rw [admitted.stow]; exact unstowed))

theorem formWave (s : State) (unstowed : (s.stowOf i.ant).state = .unstowed) : Leaves i s s.formWave := by
  have walked := walkWave s.wind.record.order s unstowed
  exact either (refl s) (either walked (walked.trans (setWave ..)))

end Leaves

end Sys2Proof.Machine
end

