-- ==== Sys2Proof/Proofs/TorqueAsks.lean ====
section
/-! PROOFS. An axis that works toward torque on a live bus (R13): in the event that gives it its claim it takes torque on a
standing grant of its hold figure, or its need waits in the grant queue, which has a place for it. -/

namespace Sys2Proof.Machine

variable {s t u : State} {i : AxisId} {h : Nat}

/-! ### Places in the grant queue (R164) -/

/-- The needs of an axis in a queue. -/
def needCount (q : List Need) (i : AxisId) : Nat := q.countP fun n => decide (n.axis = i)

/-- The places that the needs of other antennas take, with one for each of an antenna's axes that is at its brake or
waits. -/
def placesOf (q : List Need) (a : Ant) (braked : AxisName → Bool) : Nat :=
  q.countP (fun n => decide (n.axis.ant ≠ a)) + max (needCount q ⟨a, .az⟩) (braked .az).toNat
    + max (needCount q ⟨a, .el⟩) (braked .el).toNat

theorem placesOf_mono {q q' : List Need} {a : Ant} {b b' : AxisName → Bool} (fewer : q'.Sublist q)
    (up : ∀ x, b' x = true → b x = true) : placesOf q' a b' ≤ placesOf q a b := by
  have count (x : AxisName) : needCount q' ⟨a, x⟩ ≤ needCount q ⟨a, x⟩ := fewer.countP_le
  have others : q'.countP (fun n => decide (n.axis.ant ≠ a)) ≤ q.countP fun n => decide (n.axis.ant ≠ a) := fewer.countP_le
  have flag (x : AxisName) : (b' x).toNat ≤ (b x).toNat := Bool.toNat_le_toNat (up x)
  unfold placesOf
  have az := max_le_max (count .az) (flag .az)
  have el := max_le_max (count .el) (flag .el)
  omega

theorem length_eq_counts (q : List Need) (a : Ant) :
    q.length = q.countP (fun n => decide (n.axis.ant ≠ a)) + needCount q ⟨a, .az⟩ + needCount q ⟨a, .el⟩ := by
  induction q with
  | nil => rfl
  | cons n q ih =>
    obtain ⟨⟨b, x⟩, k, w, e⟩ := n
    unfold needCount at ih ⊢
    rw [List.length_cons, ih]
    by_cases own : b = a
    · subst own
      cases x <;> simp <;> omega
    · simp [own]
      omega

theorem placesOf_le (q : List Need) (a : Ant) (b : AxisName → Bool) : placesOf q a b ≤ q.length + 2 := by
  have split := length_eq_counts q a
  have flag (x : AxisName) : (b x).toNat ≤ 1 := Bool.toNat_le _
  unfold placesOf
  have az := flag .az
  have el := flag .el
  omega

/-- An axis at its brake that does not wait has a place. -/
theorem length_lt_placesOf {q : List Need} {a : Ant} {b : AxisName → Bool} {x : AxisName} (braked : b x = true)
    (absent : needCount q ⟨a, x⟩ = 0) : q.length + 1 ≤ placesOf q a b := by
  have split := length_eq_counts q a
  have one : (b x).toNat = 1 := by rw [braked]; rfl
  unfold placesOf
  cases x <;> omega

/-- It takes that place. -/
theorem placesOf_join {q : List Need} {a : Ant} {b : AxisName → Bool} {n : Need} (own : n.axis.ant = a)
    (braked : b n.axis.ax = true) (absent : needCount q n.axis = 0) : placesOf (q ++ [n]) a b ≤ placesOf q a b := by
  obtain ⟨⟨c, x⟩, k, w, e⟩ := n
  dsimp only at own braked absent
  subst own
  have one : (b x).toNat = 1 := by rw [braked]; rfl
  unfold placesOf needCount
  unfold needCount at absent
  cases x <;> simp [List.countP_append, absent, one]

/-- The places of the part's queue for an antenna. -/
def State.places (s : State) (a : Ant) : Nat := placesOf s.feed.queue a fun x => decide ((s.axis ⟨a, x⟩).state = .braked)

theorem State.places_mono {a : Ant} (fewer : t.feed.queue.Sublist s.feed.queue)
    (up : ∀ j, (t.axis j).state = .braked → (s.axis j).state = .braked) : t.places a ≤ s.places a :=
  placesOf_mono fewer fun _ braked => decide_eq_true (up _ (of_decide_eq_true braked))

theorem needCount_eq_zero (waits : s.waits i = false) : needCount s.feed.queue i = 0 := by
  unfold needCount
  rw [List.countP_eq_zero]
  exact List.any_eq_false.1 waits

/-! ### An axis that works toward torque -/

/-- The axis works toward torque, or has it, on a standing grant of its hold figure h; the other antennas' axes at their
brakes ask nothing, and the queue has places for its antenna's. -/
structure State.Seeks (s : State) (i : AxisId) (h : Nat) : Prop where
  unstowed : (s.stowOf i.ant).state = .unstowed
  enabled : (s.ants.get i.ant).disabling = false
  ready : s.ready i.ant = true
  claimed : (s.axis i).claims.operations = true
  free : (s.axis i).claims.group = false ∧ (s.axis i).claims.stow = false
  hold : (s.axis i).record.hold = h
  needs : ∀ n ∈ s.needsOf i, n.kind = .hold ∧ n.watts = h
  state : (s.axis i).state = .braked
    ∨ (s.axis i).state = .torqueUp ∧ (s.axis i).cover = .standing ∧ s.standing i = ⟨h, h⟩
  others : ∀ j, j.ant ≠ i.ant → (s.axis j).state = .braked → ∀ c, c ≠ .stow → (s.axis j).claims.has c = false
  places : s.places i.ant ≤ 16

/-- The axis has its torque, or its need waits. -/
def State.asked (s : State) (i : AxisId) : Prop := (s.axis i).state = .torqueUp ∨ s.waits i = true

/-- The work toward torque goes on, and what has been asked stays so. -/
def Carries (i : AxisId) (h : Nat) (s t : State) : Prop := s.Seeks i h → t.Seeks i h ∧ (s.asked i → t.asked i)

theorem State.Seeks.waits_hold (k : s.Seeks i h) (waits : s.waits i = true) :
    ∃ n ∈ s.feed.queue, n.axis = i ∧ n.kind = .hold := by
  obtain ⟨n, mem, own⟩ := List.any_eq_true.1 waits
  exact ⟨n, mem, of_decide_eq_true own, (k.needs n (List.mem_filter.2 ⟨mem, own⟩)).1⟩

theorem State.Seeks.sound (k : s.Seeks i h) : (s.axis i).state.isFaulted = false := by
  rcases k.state with braked | ⟨up, -⟩
  · rw [braked]; rfl
  · rw [up]; rfl

/-- A bus stays ready whose power stays and none of whose axes is faulted. -/
theorem State.ready_kept {a : Ant} (ready : s.ready a = true) (power : (t.ants.get a).power = (s.ants.get a).power)
    (w : Wanes s t) : t.ready a = true := by
  obtain ⟨live, clear⟩ := Bool.and_eq_true_iff.1 (show (s.live a && !s.anyFaulted a) = true from ready)
  refine State.ready_of_live ?_ (State.anyFaulted_eq_false.2 fun x => ?_)
  · have band : (t.ants.get a).outOfBand = (s.ants.get a).outOfBand := Antenna.power_outOfBand power
    unfold State.live at live ⊢
    rw [Antenna.power_bus power, band]
    exact live
  · by_contra faulted
    rw [Bool.not_eq_false] at faulted
    have before := w.faults _ faulted
    rw [State.anyFaulted_eq_false.1 (Bool.not_eq_true' _ ▸ clear) x] at before
    cases before

/-- What leaves the axis alone, faults none and gives no claim but STOW carries its work on. -/
theorem Carries.of_leaves (l : Leaves i s t) (w : Wanes s t) : Carries i h s t := by
  intro k
  have state : (t.axis i).state = (s.axis i).state := Axis.core_state l.core
  have waits : t.waits i = s.waits i := by
    rw [Bool.eq_iff_iff, State.waits_iff, State.waits_iff, l.needs]
  refine ⟨{
    unstowed := by rw [l.stow]; exact k.unstowed
    enabled := by rw [Antenna.disabling_eq l.power]; exact k.enabled
    ready := State.ready_kept k.ready l.power w
    claimed := (l.claims .operations nofun).trans k.claimed
    free := ⟨?_, (l.claims .stow nofun).trans k.free.2⟩
    hold := by rw [l.record]; exact k.hold
    needs := by rw [l.needs]; exact k.needs
    state := ?_
    others := fun j far braked c other => ?_
    places := (State.places_mono l.queue l.braked).trans k.places }, ?_⟩
  · by_contra group
    rw [Bool.not_eq_false] at group
    exact Bool.false_ne_true (k.free.1.symm.trans (w.claims i .group nofun group))
  · rw [state]
    refine k.state.imp id fun ⟨up, own, grant⟩ => ?_
    obtain ⟨cover, same⟩ := l.draw own
    exact ⟨up, cover, same.trans grant⟩
  · by_contra has
    rw [Bool.not_eq_false] at has
    exact Bool.false_ne_true ((k.others j far (l.braked j braked) c other).symm.trans (w.claims j c other has))
  · unfold State.asked
    rw [state, waits]
    exact id

namespace Carries

theorem refl (s : State) : Carries i h s s := fun k => ⟨k, id⟩

theorem trans (m : Carries i h s t) (n : Carries i h t u) : Carries i h s u := fun k =>
  let ⟨mid, asked⟩ := m k
  let ⟨last, asked'⟩ := n mid
  ⟨last, asked' ∘ asked⟩

theorem ite {c : Prop} [Decidable c] (m : c → Carries i h s t) (n : ¬c → Carries i h s u) :
    Carries i h s (if c then t else u) := by
  split
  · exact m ‹_›
  · exact n ‹_›

theorem forEach {α : Type} {f : State → α → State} (m : ∀ s x, Carries i h s (f s x)) (xs : List α) (s : State) :
    Carries i h s (forEach xs f s) := by
  induction xs generalizing s with
  | nil => exact refl s
  | cons x xs ih => exact (m s x).trans (ih _)

/-! ### What follows, away from the queue -/

theorem endDisable (s : State) (a : Ant) : Carries i h s (s.endDisable a) := by
  intro k
  by_cases own : a = i.ant
  · subst own
    have on : (s.ants.get i.ant).disabled ≠ true := fun d =>
      Bool.false_ne_true (k.enabled.symm.trans (State.disabled_disabling d))
    unfold State.endDisable
    rw [if_neg on]
    exact ⟨k, id⟩
  · exact of_leaves (.endDisable own s) (.endDisable s a) k

theorem stowAtRest (s : State) (a : Ant) : Carries i h s (s.stowAtRest a) := by
  intro k
  by_cases own : a = i.ant
  · subst own
    unfold State.stowAtRest
    rw [if_neg fun e => by rw [k.unstowed] at e; exact absurd e.1 (by decide)]
    exact ⟨k, id⟩
  · exact of_leaves (.stowAtRest own s) (.stowAtRest s a) k

theorem releaseIfStill (s : State) (g : GroupId) : Carries i h s (s.releaseIfStill g) :=
  of_leaves (.releaseIfStill s g) (.either (.releaseGroup s g) (.refl s))

theorem releaseIfOver (s : State) (a : Ant) : Carries i h s (s.releaseIfOver a) :=
  of_leaves (.releaseIfOver s a) (.either (.releaseWaveGrant s a) (.refl s))

theorem formWave (s : State) : Carries i h s s.formWave := fun k =>
  of_leaves (.formWave s k.unstowed) (.formWave s) k

theorem clearMarks (s : State) : Carries i h s s.clearMarks := of_leaves (.clearMarks s) (.clearMarks s)

end Carries

/-! ### The queue -/

/-- Entries are taken off the queue. -/
theorem State.Seeks.fewer {q : List Need} (k : s.Seeks i h) (fewer : q.Sublist s.feed.queue) :
    (s.modFeed fun f => { f with queue := q }).Seeks i h where
  unstowed := k.unstowed
  enabled := k.enabled
  ready := k.ready
  claimed := k.claimed
  free := k.free
  hold := k.hold
  needs n mem := k.needs n ((fewer.filter _).subset mem)
  state := k.state
  others := k.others
  places := le_trans (placesOf_mono fewer fun _ => id) k.places

/-- A hold need of an axis that works toward torque is not void (R166). -/
theorem State.Seeks.kept (k : s.Seeks i h) {n : Need} (own : n.axis = i) (hold : n.kind = .hold) : s.needVoid n = false := by
  subst own
  have any : (s.axis n.axis).claims.any = true := by
    unfold Claims.any
    rw [k.claimed]
    rfl
  unfold State.needVoid
  rw [hold]
  dsimp only
  rw [any, k.sound, k.ready]
  rfl

theorem Carries.withdrawVoid (s : State) : Carries i h s s.withdrawVoid := by
  have filtered : Carries i h s (s.modFeed fun f => { f with queue := f.queue.filter fun n => !s.needVoid n }) := by
    refine fun k => ⟨k.fewer List.filter_sublist, fun asked => asked.imp id fun waits => ?_⟩
    obtain ⟨n, mem, own, hold⟩ := k.waits_hold waits
    exact List.any_eq_true.2 ⟨n, List.mem_filter.2 ⟨mem, by rw [k.kept own hold]; rfl⟩, decide_eq_true own⟩
  unfold State.withdrawVoid
  refine filtered.trans (.forEach (fun s n => ?_) _ _)
  unfold State.forgetRaise
  exact .ite (fun _ => of_leaves (.modTrack ..) (.modTrack ..)) fun _ => .refl s

/-- A granted hold need brings its axis, and no other, to torque on a standing grant of its figure (R13, R160). -/
theorem State.grantHold_spec {n : Need} (s : State) (hold : n.kind = .hold) :
    s.grantNeed n = { s with
      ants := (s.grantNeed n).ants, feed := { s.feed with standing := (s.grantNeed n).feed.standing }
      scratch := (s.grantNeed n).scratch }
    ∧ (∀ j, (s.grantNeed n).axis j
      = if j = n.axis then ({ s.axis n.axis with cover := .standing } : Axis).enter s.now .torqueUp else s.axis j)
    ∧ (s.grantNeed n).standing n.axis = ⟨n.watts, n.watts⟩
    ∧ (s.grantNeed n).load ≤ s.load + n.watts := by
  let v := s.setStanding n.axis ⟨n.watts, n.watts⟩
  let u := v.modAxis n.axis fun x => { x with cover := .standing }
  have granted : s.grantNeed n = u.enterAxis n.axis .torqueUp := by
    unfold State.grantNeed
    rw [hold]
  have alone : AxisAlone n.axis u (s.grantNeed n) := granted ▸ AxisAlone.enterAxis u .torqueUp
  have drawn : u.standing n.axis = ⟨n.watts, n.watts⟩ := (State.standing_setStanding ..).trans (if_pos rfl)
  have standing : (s.grantNeed n).standing n.axis = ⟨n.watts, n.watts⟩ := by
    have entered : (u.enterAxis n.axis .torqueUp).standing n.axis = standingIn .torqueUp (u.standing n.axis) :=
      State.standing_changeStanding_own ..
    rw [granted, entered, drawn, standingIn, Nat.min_self]
  refine ⟨alone.shape, fun j => ?_, standing, ?_⟩
  · rw [granted, State.axis_enterAxis]
    have own : u.axis n.axis = { s.axis n.axis with cover := .standing } := (State.axis_modAxis ..).trans (if_pos rfl)
    split
    · rw [own]; rfl
    · rename_i far; exact (State.axis_modAxis ..).trans (if_neg far)
  · have change := (u.modAxis n.axis fun x => x.enter u.now .torqueUp).load_setStanding n.axis ⟨n.watts, n.watts⟩
    have first := s.load_setStanding n.axis ⟨n.watts, n.watts⟩
    have same : (s.grantNeed n).load
        = ((u.modAxis n.axis fun x => x.enter u.now .torqueUp).setStanding n.axis ⟨n.watts, n.watts⟩).load := by
      have figure : standingIn .torqueUp (u.standing n.axis) = ⟨n.watts, n.watts⟩ := by rw [drawn, standingIn, Nat.min_self]
      rw [granted]
      unfold State.enterAxis State.changeStanding State.markFreedIf
      dsimp only
      rw [show (u.modAxis n.axis fun x => x.enter u.now .torqueUp).standing n.axis = u.standing n.axis from rfl, figure]
      split <;> rfl
    have before : (u.modAxis n.axis fun x => x.enter u.now .torqueUp).load = v.load := rfl
    have there : (u.modAxis n.axis fun x => x.enter u.now .torqueUp).standing n.axis = ⟨n.watts, n.watts⟩ := drawn
    rw [there] at change
    rw [same]
    dsimp only at change first
    have second : v.load + (s.standing n.axis).watts = s.load + n.watts := first
    omega

/-- An axis that works toward torque has it once its need is granted. -/
theorem State.Seeks.takeTorque {n : Need} (k : s.Seeks n.axis h) (hold : n.kind = .hold) (watts : n.watts = h) :
    (s.grantNeed n).Seeks n.axis h ∧ ((s.grantNeed n).axis n.axis).state = .torqueUp := by
  obtain ⟨shape, axis, standing, -⟩ := s.grantHold_spec hold
  have self : (s.grantNeed n).axis n.axis = ({ s.axis n.axis with cover := .standing } : Axis).enter s.now .torqueUp :=
    (axis _).trans (if_pos rfl)
  have power : ((s.grantNeed n).ants.get n.axis.ant).power = (s.ants.get n.axis.ant).power := (Still.grantNeed s n).power _
  have queue : (s.grantNeed n).feed.queue = s.feed.queue := by rw [shape]
  have braked (j : AxisId) (rests : ((s.grantNeed n).axis j).state = .braked) : (s.axis j).state = .braked := by
    rw [axis] at rests
    split at rests
    · exact absurd (show AxisState.torqueUp = .braked from rests) nofun
    · exact rests
  refine ⟨{
    unstowed := by rw [shape]; exact k.unstowed
    enabled := by rw [Antenna.disabling_eq power]; exact k.enabled
    ready := State.ready_kept k.ready power (.grantNeed s n)
    claimed := by rw [self]; exact k.claimed
    free := by rw [self]; exact k.free
    hold := by rw [self]; exact k.hold
    needs := by unfold State.needsOf; rw [queue]; exact k.needs
    state := .inr ⟨by rw [self]; rfl, by rw [self]; rfl, watts ▸ standing⟩
    others := fun j far rests c other => ?_
    places := (State.places_mono (queue ▸ .refl _) braked).trans k.places }, by rw [self]; rfl⟩
  by_contra has
  rw [Bool.not_eq_false] at has
  exact Bool.false_ne_true ((k.others j far (braked j rests) c other).symm.trans ((Wanes.grantNeed s n).claims j c other has))

/-- Its need admitted, the axis has torque. -/
theorem State.Seeks.admitted {n : Need} (k : s.Seeks n.axis h) (hold : n.kind = .hold) (watts : n.watts = h) (f : Fit) :
    (s.admitNeed n f).Seeks n.axis h ∧ ((s.admitNeed n f).axis n.axis).state = .torqueUp := by
  obtain ⟨roomy, -⟩ := Carries.of_leaves (.makeRoom s f false) (.makeRoom s f false) k
  obtain ⟨granted, up⟩ := roomy.takeTorque hold watts
  have after : Leaves n.axis ((s.makeRoom f false).grantNeed n) (s.admitNeed n f) := .afterGrant ..
  exact ⟨(Carries.of_leaves after (.afterGrant ..) granted).1, (Axis.core_state after.core).trans up⟩

/-- Another axis's need admitted. -/
theorem Carries.admitOther {n : Need} (far : n.axis ≠ i) (s : State) (f : Fit) : Carries i h s (s.admitNeed n f) :=
  of_leaves (.admitNeed far s f) (.admitNeed s n f)

theorem Carries.offerQueue (m : Nat) (s : State) : Carries i h s (s.offerQueue m) := by
  induction m generalizing s with
  | zero => exact .refl s
  | succ m ih =>
    unfold State.offerQueue
    split
    · exact .refl s
    next n rest queue =>
      refine .ite (fun _ => .refl s) fun _ => Carries.trans ?_ (ih _)
      by_cases own : n.axis = i
      · subst own
        intro k
        obtain ⟨hold, watts⟩ := k.needs n (by unfold State.needsOf; rw [queue]; simp)
        have popped : (s.modFeed fun f => { f with queue := rest }).Seeks n.axis h :=
          k.fewer (queue ▸ List.sublist_cons_self ..)
        obtain ⟨granted, up⟩ := popped.admitted hold watts (s.fit n.watts 0 false)
        exact ⟨granted, fun _ => .inl up⟩
      · have popped : Carries i h s (s.modFeed fun f => { f with queue := rest }) :=
          of_leaves (.takeHead own queue) (.modFeed ..)
        exact popped.trans (.admitOther own _ _)

theorem Carries.offer (s : State) : Carries i h s s.offer :=
  .ite (fun _ => ((Carries.clearMarks s).trans (.formWave _)).trans (.offerQueue 16 _))
    fun _ => .ite (fun _ => (Carries.clearMarks s).trans (.formWave _)) fun _ => .refl s

theorem Carries.offerFreed (m : Nat) (s : State) : Carries i h s (s.offerFreed m) := by
  induction m generalizing s with
  | zero => exact .refl s
  | succ m ih =>
    unfold State.offerFreed
    exact .ite (fun _ => (Carries.offer s).trans (ih _)) fun _ => .refl s

theorem Carries.followUp (s : State) : Carries i h s s.followUp := by
  unfold State.followUp
  refine Carries.trans ?_ (.forEach releaseIfOver _ _)
  refine Carries.trans ?_ (.forEach releaseIfStill _ _)
  refine Carries.trans ?_ (.forEach stowAtRest _ _)
  exact (Carries.withdrawVoid s).trans (.forEach endDisable _ _)

/-! ### The work itself (R13) -/

/-- A need of one of the antenna's axes joins the queue, which has its place. -/
theorem State.Seeks.join {n : Need} (k : s.Seeks i h) (own : n.axis.ant = i.ant) (braked : (s.axis n.axis).state = .braked)
    (absent : s.waits n.axis = false) (self : n.axis = i → n.kind = .hold ∧ n.watts = h) :
    (s.joinQueue n).Seeks i h ∧ (s.asked i ∨ n.axis = i → (s.joinQueue n).asked i) := by
  have at_ : (⟨i.ant, n.axis.ax⟩ : AxisId) = n.axis := by rw [← own]
  have count := needCount_eq_zero absent
  have place : s.feed.queue.length + 1 ≤ s.places i.ant :=
    length_lt_placesOf (x := n.axis.ax) (decide_eq_true (by rw [at_]; exact braked)) (by rw [at_]; exact count)
  have short : s.feed.queue.length < 16 := by have := k.places; omega
  have joined : s.joinQueue n = s.modFeed fun f => { f with queue := f.queue ++ [n] } := if_pos short
  have queue : (s.joinQueue n).feed.queue = s.feed.queue ++ [n] := by rw [joined]; rfl
  refine ⟨?_, fun asked => ?_⟩
  · exact {
      unstowed := by rw [joined]; exact k.unstowed
      enabled := by rw [joined]; exact k.enabled
      ready := by rw [joined]; exact k.ready
      claimed := by rw [joined]; exact k.claimed
      free := by rw [joined]; exact k.free
      hold := by rw [joined]; exact k.hold
      needs := fun m mem => by
        unfold State.needsOf at mem
        rw [queue, List.filter_append, List.mem_append] at mem
        rcases mem with old | new
        · exact k.needs m old
        · obtain ⟨rfl, here⟩ : m = n ∧ m.axis = i := by simpa using new
          exact self here
      state := by rw [joined]; exact k.state
      others := by rw [joined]; exact k.others
      places := by
        refine le_trans ?_ k.places
        unfold State.places
        rw [joined]
        exact placesOf_join own (decide_eq_true (by rw [at_]; exact braked)) count }
  · rcases asked with (up | waits) | here
    · exact .inl (by rw [joined]; exact up)
    · refine .inr ?_
      unfold State.waits at waits ⊢
      rw [queue, List.any_append, waits]
      rfl
    · refine .inr ?_
      unfold State.waits
      rw [queue, List.any_append]
      simp [here]

/-- The axis asks its hold need, or another axis of its antenna does. -/
theorem State.Seeks.ask {j : AxisId} {w : Nat} (k : s.Seeks i h) (own : j.ant = i.ant) (braked : (s.axis j).state = .braked)
    (absent : s.waits j = false) (self : j = i → w = h) :
    (s.askNeed j .hold w).Seeks i h ∧ (s.asked i ∨ j = i → (s.askNeed j .hold w).asked i) := by
  unfold State.askNeed
  dsimp only
  split
  · by_cases here : j = i
    · subst here
      obtain ⟨granted, up⟩ := State.Seeks.admitted (n := ⟨j, .hold, w, s.now⟩) k rfl (self rfl) (s.fit w 0 false)
      exact ⟨granted, fun _ => .inl up⟩
    · obtain ⟨granted, kept⟩ := Carries.admitOther (n := ⟨j, .hold, w, s.now⟩) here s (s.fit w 0 false) k
      exact ⟨granted, fun asked => kept (asked.resolve_right here)⟩
  · exact k.join (n := ⟨j, .hold, w, s.now⟩) own braked absent fun here => ⟨rfl, self here⟩

/-- An axis that works toward torque in its turn: the one watched has asked. -/
theorem State.Seeks.seekTorque (k : s.Seeks i h) (j : AxisId) :
    (s.seekTorque j).Seeks i h ∧ (s.asked i ∨ j = i → (s.seekTorque j).asked i) := by
  have rests (idle : s.wantsTorque j = false) : s.asked i ∨ j = i → s.asked i := by
    rintro (asked | rfl)
    · exact asked
    · refine .inl (k.state.resolve_left fun braked => ?_).1
      have any : (s.axis j).claims.any = true := by
        unfold Claims.any
        rw [k.claimed]
        rfl
      unfold State.wantsTorque at idle
      rw [decide_eq_true braked, any, k.ready, k.enabled] at idle
      cases idle
  unfold State.seekTorque
  split
  swap
  next idle => exact ⟨k, rests (Bool.not_eq_true _ ▸ idle)⟩
  next wants =>
    simp only [State.wantsTorque, Bool.and_eq_true, decide_eq_true_eq] at wants
    obtain ⟨⟨⟨braked, any⟩, -⟩, -⟩ := wants
    have under (c : GrantCover) (far : j ≠ i) :
        (s.torqueUnder j c).Seeks i h ∧ (s.asked i ∨ j = i → (s.torqueUnder j c).asked i) := by
      obtain ⟨on, kept⟩ := Carries.of_leaves (.torqueUnder far s c) ((Wanes.setCover ..).trans (.enterAxis ..)) k
      exact ⟨on, fun asked => kept (asked.resolve_right far)⟩
    have stays (far : j ≠ i) : s.Seeks i h ∧ (s.asked i ∨ j = i → s.asked i) := ⟨k, fun asked => asked.resolve_right far⟩
    split
    next group =>
      have far : j ≠ i := by rintro rfl; exact Bool.false_ne_true (k.free.1.symm.trans group)
      split
      · exact under _ far
      · exact stays far
    next group =>
      split
      next stow =>
        have far : j ≠ i := by rintro rfl; exact Bool.false_ne_true (k.free.2.symm.trans stow)
        split
        · exact under _ far
        · exact stays far
      next stow =>
        split
        next waits => exact ⟨k, fun asked => asked.elim id fun here => .inr (here ▸ waits)⟩
        next absent =>
          have own : j.ant = i.ant := by
            by_contra far
            have none_ (c : ClaimSource) (other : c ≠ .stow) := k.others j far braked c other
            have any' : (s.axis j).claims.any = false := by
              unfold Claims.any
              rw [show (s.axis j).claims.operations = false from none_ .operations nofun,
                show (s.axis j).claims.queue = false from none_ .queue nofun,
                show (s.axis j).claims.group = false from none_ .group nofun,
                show (s.axis j).claims.jog = false from none_ .jog nofun, Bool.eq_false_iff.2 stow]
              rfl
            exact Bool.false_ne_true (any'.symm.trans any)
          exact k.ask own braked (by simpa using absent) fun here => by
            rw [here]; exact k.hold

/-! ### The rounds -/

theorem State.Seeks.offerFirst (k : s.Seeks i h) : s.offerFirst.Seeks i h ∧ (s.asked i → s.offerFirst.asked i) :=
  Carries.offerFreed 4 s k

theorem State.Seeks.seekInTurn (k : s.Seeks i h) (j : AxisId) :
    (s.seekInTurn j).Seeks i h ∧ (s.asked i ∨ j = i → (s.seekInTurn j).asked i) := by
  unfold State.seekInTurn
  split
  · obtain ⟨offered, kept⟩ := k.offerFirst
    obtain ⟨on, asks⟩ := offered.seekTorque j
    exact ⟨on, fun asked => asks (asked.imp_left kept)⟩
  next idle =>
    have same : s.seekTorque j = s := if_neg idle
    have sought := k.seekTorque j
    rw [same] at sought
    exact sought

/-- Once the axes have had their turns, this one has asked. -/
theorem State.Seeks.seekAll (k : s.Seeks i h) : s.seekAll.Seeks i h ∧ s.seekAll.asked i := by
  have walk (xs : List AxisId) : ∀ s : State, s.Seeks i h →
      (forEach xs (fun s j => s.seekInTurn j) s).Seeks i h
        ∧ (s.asked i ∨ i ∈ xs → (forEach xs (fun s j => s.seekInTurn j) s).asked i) := by
    induction xs with
    | nil => exact fun s k => ⟨k, fun asked => asked.resolve_right (List.not_mem_nil)⟩
    | cons j xs ih =>
      intro s k
      obtain ⟨on, asks⟩ := k.seekInTurn j
      obtain ⟨last, kept⟩ := ih _ on
      refine ⟨last, fun asked => kept ?_⟩
      rcases asked with asked | mem
      · exact .inl (asks (.inl asked))
      · exact (List.mem_cons.1 mem).elim (fun here => .inl (asks (.inr here.symm))) .inr
  obtain ⟨on, asked⟩ := walk AxisId.all s k
  exact ⟨on, asked (.inr (AxisId.mem_all i))⟩

theorem State.settleRounds_succ (s : State) (n : Nat) :
    s.settleRounds (n + 1) = s.followUp.seekAll.offer.settleRounds n := by
  conv => lhs; unfold State.settleRounds

theorem State.Seeks.settle (k : s.Seeks i h) : s.settle.Seeks i h ∧ s.settle.asked i := by
  have round (s : State) (k : s.Seeks i h) : s.followUp.seekAll.offer.Seeks i h ∧ s.followUp.seekAll.offer.asked i := by
    obtain ⟨sought, asked⟩ := (Carries.followUp s k).1.seekAll
    obtain ⟨offered, kept⟩ := Carries.offer _ sought
    exact ⟨offered, kept asked⟩
  have rounds (n : Nat) : ∀ s : State, s.Seeks i h → s.asked i → (s.settleRounds n).Seeks i h ∧ (s.settleRounds n).asked i := by
    induction n with
    | zero => exact fun _ k asked => ⟨k, asked⟩
    | succ n ih =>
      intro s k _
      obtain ⟨on, asked⟩ := round s k
      rw [State.settleRounds_succ]
      exact ih _ on asked
  obtain ⟨on, asked⟩ := round s k
  rw [State.settle, State.settleRounds_succ]
  exact rounds 3 _ on asked

end Sys2Proof.Machine
end

