-- ==== Sys2Proof/Proofs/RoomyAsks.lean ====
section
/-! PROOFS. Where nothing else is due on the feed and the room holds both hold figures of an antenna, its axes take their
torque at once and no need waits (R13, R161). -/

namespace Sys2Proof.Machine

variable {s t u : State} {a : Ant}

/-- The hold figure that an axis at its brake may ask. -/
def State.wish (s : State) (i : AxisId) : Nat := if (s.axis i).state = .braked then (s.axis i).record.hold else 0

/-- Nothing else is due on the feed, and the room holds what the antenna's axes may ask. -/
structure State.Roomy (s : State) (a : Ant) : Prop where
  idle : s.Idle
  unshed : s.feed.shed.classes = none
  others : ∀ j, j.ant ≠ a → (s.axis j).state = .braked → (s.axis j).claims.any = false
  room : ((s.wish ⟨a, .az⟩ + s.wish ⟨a, .el⟩ : Nat) : Int) ≤ s.freeRoom

theorem Idles.wish_le (k : Idles s t) (i : AxisId) : t.wish i ≤ s.wish i := by
  unfold State.wish
  split
  next braked => rw [if_pos (k.braked i braked), k.record]
  next => exact Nat.zero_le _

theorem State.Roomy.idles (h : s.Roomy a) (k : Idles s t) : t.Roomy a where
  idle := k.idle h.idle
  unshed := by rw [k.shed]; exact h.unshed
  others j far braked := k.claims j (h.others j far (k.braked j braked))
  room := by
    have az := k.wish_le ⟨a, .az⟩
    have el := k.wish_le ⟨a, .el⟩
    have room := h.room
    have more := k.room
    omega

/-- An axis of the antenna asks, and is granted directly. -/
theorem State.Roomy.ask {i : AxisId} (h : s.Roomy a) (own : i.ant = a) (braked : (s.axis i).state = .braked) :
    (s.askNeed i .hold (s.axis i).record.hold).Roomy a := by
  obtain ⟨b, x⟩ := i
  dsimp only at own
  subst own
  let w := (s.axis ⟨b, x⟩).record.hold
  let n : Need := ⟨⟨b, x⟩, .hold, w, s.now⟩
  have wish : s.wish ⟨b, x⟩ = w := if_pos braked
  have room := h.room
  have small : (w : Int) ≤ s.freeRoom := by
    cases x
    all_goals
      rw [wish] at room
      omega
  have fits : s.fit w 0 false = .direct := by
    unfold State.fit
    exact if_pos (by simpa using small)
  obtain ⟨shape, axis, standing, load⟩ := s.grantHold_spec (n := n) rfl
  have tested : (s.grantNeed n).needTest = s.grantNeed n := by
    unfold State.needTest
    rw [shape, h.unshed]
  have asked : s.askNeed ⟨b, x⟩ .hold w = s.grantNeed n := by
    unfold State.askNeed
    dsimp only
    rw [if_pos ⟨by rw [h.idle.queue]; rfl, by rw [fits]; decide⟩, fits]
    have admitted : s.admitNeed n .direct = (s.grantNeed n).needTest.markFreedIf (decide (0 < 0)) := rfl
    rw [show s.admitNeed ⟨⟨b, x⟩, .hold, w, s.now⟩ .direct = s.admitNeed n .direct from rfl, admitted, tested]
    rfl
  rw [show (s.axis ⟨b, x⟩).record.hold = w from rfl, asked]
  have moving (j : AxisId) : ((s.grantNeed n).axis j).state.moving = (s.axis j).state.moving := by
    rw [axis]
    split
    · rename_i e
      rw [e, show (s.axis n.axis).state = .braked from braked]
      rfl
    · rfl
  have rests (j : AxisId) (down : ((s.grantNeed n).axis j).state = .braked) : j ≠ n.axis ∧ (s.grantNeed n).axis j = s.axis j := by
    rw [axis] at down ⊢
    split at down
    · exact absurd (show AxisState.torqueUp = .braked from down) nofun
    · rename_i far; exact ⟨far, if_neg far⟩
  have wishes (j : AxisId) : (s.grantNeed n).wish j ≤ if j = n.axis then 0 else s.wish j := by
    unfold State.wish
    by_cases down : ((s.grantNeed n).axis j).state = .braked
    · obtain ⟨far, same⟩ := rests j down
      rw [if_pos down, if_neg far, same, if_pos (same ▸ down)]
    · rw [if_neg down]
      exact Nat.zero_le _
  refine ⟨⟨by rw [shape]; exact h.idle.queue, fun c => ?_, fun c => ?_⟩, by rw [shape]; exact h.unshed, fun j far down => ?_, ?_⟩
  · have stow : (s.grantNeed n).stowOf c = s.stowOf c := by rw [shape]; rfl
    unfold State.moving
    rw [stow, moving, moving]
    exact h.idle.moves c
  · have waits : (s.grantNeed n).waitsForWave c = s.waitsForWave c := by rw [shape]; rfl
    rw [waits]
    exact h.idle.waves c
  · obtain ⟨-, same⟩ := rests j down
    rw [same]
    exact h.others j far (same ▸ down)
  · have limit : (s.grantNeed n).feed.limit = s.feed.limit := by rw [shape]
    have az := wishes ⟨b, .az⟩
    have el := wishes ⟨b, .el⟩
    have figure : n.watts = w := rfl
    unfold State.freeRoom at room ⊢
    cases x
    · rw [if_pos rfl] at az
      rw [if_neg (show (⟨b, .el⟩ : AxisId) ≠ n.axis from nofun)] at el
      omega
    · rw [if_pos rfl] at el
      rw [if_neg (show (⟨b, .az⟩ : AxisId) ≠ n.axis from nofun)] at az
      omega

theorem State.Roomy.seekTorque (h : s.Roomy a) (j : AxisId) : (s.seekTorque j).Roomy a := by
  unfold State.seekTorque
  split
  swap
  · exact h
  next wants =>
    simp only [State.wantsTorque, Bool.and_eq_true, decide_eq_true_eq] at wants
    obtain ⟨⟨⟨braked, any⟩, -⟩, -⟩ := wants
    have under (c : GrantCover) : (s.torqueUnder j c).Roomy a := by
      have covered : Idles s (s.modAxis j fun x => { x with cover := c }) := .modAxis rfl id
      refine h.idles (covered.trans (.fromBrake ?_ rfl nofun))
      rw [State.axis_modAxis, if_pos rfl]
      exact braked
    have own : j.ant = a := by
      by_contra far
      exact Bool.false_ne_true ((h.others j far braked).symm.trans any)
    split
    · split
      · exact under _
      · exact h
    · split
      · split
        · exact under _
        · exact h
      · split
        · exact h
        · exact h.ask own braked

theorem State.Roomy.seekAll (h : s.Roomy a) : s.seekAll.Roomy a := by
  have turn (s : State) (h : s.Roomy a) (j : AxisId) : (s.seekInTurn j).Roomy a := by
    unfold State.seekInTurn
    split
    · exact (h.idles (h.idle.offerFreed 4)).seekTorque j
    · exact h
  have walk (xs : List AxisId) : ∀ s : State, s.Roomy a → (forEach xs (fun s j => s.seekInTurn j) s).Roomy a := by
    induction xs with
    | nil => exact fun _ h => h
    | cons j xs ih => exact fun s h => ih _ (turn s h j)
  exact walk AxisId.all s h

/-- No need waits once the event is over. -/
theorem State.Roomy.settle (h : s.Roomy a) : s.settle.Roomy a := by
  have rounds (n : Nat) : ∀ s : State, s.Roomy a → (s.settleRounds n).Roomy a := by
    induction n with
    | zero => exact fun _ h => h
    | succ n ih =>
      intro s h
      have sought := (h.idles h.idle.followUp).seekAll
      rw [State.settleRounds_succ]
      exact ih _ (sought.idles sought.idle.offer)
  exact rounds 4 s h

end Sys2Proof.Machine
end

