-- ==== Sys2Proof/Proofs/DeadBuses.lean ====
section
/-! PROOFS. An axis at its brake stays there under a claim while its bus is not live, and asks for nothing (R13). -/

namespace Sys2Proof.Machine

variable {s t u : State} {i : AxisId}

/-- The axis is at its brake under the claim OPERATIONS, on a bus that is not live. -/
structure State.Abides (s : State) (i : AxisId) : Prop where
  unstowed : (s.stowOf i.ant).state = .unstowed
  enabled : (s.ants.get i.ant).disabling = false
  dead : s.live i.ant = false
  braked : (s.axis i).state = .braked
  claimed : (s.axis i).claims.operations = true
  absent : s.waits i = false

/-- What leaves the axis alone, and makes no bus live. -/
theorem State.Abides.still {p q : AxisId → Prop} (h : s.Abides i) (k : StillBut p q s t) (far : ¬p i) (far' : ¬q i)
    (w : Wanes s t) : t.Abides i where
  unstowed := by rw [k.stow]; exact h.unstowed
  enabled := by rw [Antenna.disabling_eq (k.power _)]; exact h.enabled
  dead := by
    by_contra live
    exact Bool.false_ne_true (h.dead.symm.trans (w.live _ (Bool.not_eq_false _ ▸ live)))
  braked := by rw [Axis.core_state (k.core i far)]; exact h.braked
  claimed := k.keeps i far' .operations nofun h.claimed
  absent := k.waits i far h.absent

theorem State.Abides.leaves (h : s.Abides i) (k : Leaves i s t) (w : Wanes s t) : t.Abides i where
  unstowed := by rw [k.stow]; exact h.unstowed
  enabled := by rw [Antenna.disabling_eq k.power]; exact h.enabled
  dead := by
    by_contra live
    exact Bool.false_ne_true (h.dead.symm.trans (w.live _ (Bool.not_eq_false _ ▸ live)))
  braked := by rw [Axis.core_state k.core]; exact h.braked
  claimed := (k.claims .operations nofun).trans h.claimed
  absent := by
    by_contra waits
    rw [Bool.not_eq_false, State.waits_iff, k.needs, ← State.waits_iff, h.absent] at waits
    cases waits

theorem forEach_abides {α : Type} {f : State → α → State} (step : ∀ s x, s.Abides i → (f s x).Abides i) (xs : List α) :
    ∀ s, s.Abides i → (forEach xs f s).Abides i := by
  induction xs with
  | nil => exact fun _ h => h
  | cons x xs ih => exact fun s h => ih _ (step s x h)

theorem State.Abides.endDisable (h : s.Abides i) (a : Ant) : (s.endDisable a).Abides i := by
  by_cases own : a = i.ant
  · subst own
    have on : (s.ants.get i.ant).disabled ≠ true := fun d =>
      Bool.false_ne_true (h.enabled.symm.trans (State.disabled_disabling d))
    unfold State.endDisable
    rw [if_neg on]
    exact h
  · exact h.leaves (.endDisable own s) (.endDisable s a)

theorem State.Abides.stowAtRest (h : s.Abides i) (a : Ant) : (s.stowAtRest a).Abides i := by
  by_cases own : a = i.ant
  · subst own
    unfold State.stowAtRest
    rw [if_neg fun e => by rw [h.unstowed] at e; exact absurd e.1 (by decide)]
    exact h
  · exact h.leaves (.stowAtRest own s) (.stowAtRest s a)

theorem State.Abides.followUp (h : s.Abides i) : s.followUp.Abides i := by
  have withdrawn := h.still (Still.withdrawVoid s) id id (.withdrawVoid s)
  have ended := forEach_abides (fun _ a h => h.endDisable a) Ant.all _ withdrawn
  have rested := forEach_abides (fun _ a h => h.stowAtRest a) Ant.all _ ended
  have released := forEach_abides (fun s g h => h.leaves (.releaseIfStill s g) (.either (.releaseGroup s g) (.refl s)))
    GroupId.all _ rested
  exact forEach_abides (fun s a h => h.leaves (.releaseIfOver s a) (.either (.releaseWaveGrant s a) (.refl s)))
    Ant.all _ released

theorem Still.seekTorque (s : State) (j : AxisId) : Still (· = j) s (s.seekTorque j) := by
  unfold State.seekTorque
  refine .ite (.ite ?_ (.ite (.ite (.torqueUnder ..) (.refl ..)) (.ite (.refl ..) (.askNeed ..)))) (.refl ..)
  split
  · exact .torqueUnder ..
  · exact .refl ..

theorem State.Abides.seekTorque (h : s.Abides i) (j : AxisId) : (s.seekTorque j).Abides i := by
  by_cases own : j = i
  · subst own
    have off : s.ready j.ant = false := by
      show (s.live j.ant && !s.anyFaulted j.ant) = false
      rw [h.dead, Bool.false_and]
    have idle : s.wantsTorque j = false := by
      unfold State.wantsTorque
      rw [off, Bool.and_false, Bool.false_and]
    unfold State.seekTorque
    rw [if_neg (by rw [idle]; exact Bool.false_ne_true)]
    exact h
  · exact h.still (Still.seekTorque s j) (fun e => own e.symm) (fun e => own e.symm) (.seekTorque s j)

theorem State.Abides.offerQueue (n : Nat) : ∀ s : State, s.Abides i → (s.offerQueue n).Abides i := by
  induction n with
  | zero => exact fun _ h => h
  | succ n ih =>
    intro s h
    unfold State.offerQueue
    split
    · exact h
    next m rest queue =>
      split
      · exact h
      · have far : i ≠ m.axis := by
          rintro rfl
          have waits := h.absent
          simp [State.waits, queue] at waits
        have popped : Still noAxis s (s.modFeed fun f => { f with queue := rest }) :=
          .modFeed fun k mem => by rw [queue]; exact List.mem_cons_of_mem _ mem
        exact ih _ ((h.still popped id id (.modFeed ..)).still (Still.admitNeed _ m _) far far (.admitNeed ..))

theorem State.Abides.offer (h : s.Abides i) : s.offer.Abides i := by
  have clear := h.leaves (.clearMarks s) (.clearMarks s)
  have formed := clear.leaves (.formWave _ clear.unstowed) (.formWave _)
  unfold State.offer
  split
  · exact State.Abides.offerQueue 16 _ formed
  · split
    · exact formed
    · exact h

theorem State.Abides.offerFreed (n : Nat) : ∀ s : State, s.Abides i → (s.offerFreed n).Abides i := by
  induction n with
  | zero => exact fun _ h => h
  | succ n ih =>
    intro s h
    unfold State.offerFreed
    split
    · exact ih _ h.offer
    · exact h

theorem State.Abides.seekAll (h : s.Abides i) : s.seekAll.Abides i := by
  refine forEach_abides (fun s j h => ?_) AxisId.all s h
  unfold State.seekInTurn
  split
  · exact (State.Abides.offerFreed 4 s h).seekTorque j
  · exact h

theorem State.Abides.settle (h : s.Abides i) : s.settle.Abides i := by
  have rounds (n : Nat) : ∀ s : State, s.Abides i → (s.settleRounds n).Abides i := by
    induction n with
    | zero => exact fun _ h => h
    | succ n ih =>
      intro s h
      rw [State.settleRounds_succ]
      exact ih _ h.followUp.seekAll.offer
  exact rounds 4 s h

end Sys2Proof.Machine
end

