-- ==== Sys2Proof/Proofs/AxisEnables.lean ====
section
/-! PROOFS. AXIS_ENABLE (R9, R11 to R13): what ON and HOLD make of a bus and of its axes. -/

namespace Sys2Proof.Machine

variable {s t u : State} {a : Ant} {i : AxisId}

/-! ### ON (R9, R11) -/

/-- The antenna is enabled on a bus that is not OFF; one that was OFF precharges from now, with its OFF axes. -/
structure Energizes (a : Ant) (s t : State) : Prop where
  enables : Enables s t
  enable : (t.ants.get a).enable = true
  bus : (t.ants.get a).bus ≠ .off
  charge : (s.ants.get a).bus = .off → (t.ants.get a).bus = .precharge ∧ (t.ants.get a).prechargeStart = some s.now
    ∧ ∀ x, (s.axis ⟨a, x⟩).state = .off → (t.axis ⟨a, x⟩).state = .precharge

theorem State.enableBus_on (on : (s.ants.get a).bus ≠ .off) :
    s.enableBus a = s.modAnt a fun v => { v with enable := true } := by
  unfold State.enableBus
  dsimp only
  refine if_neg fun off => on ?_
  rw [State.ants_get_modAnt, if_pos rfl] at off
  exact off

theorem State.enableBus_energizes (s : State) (a : Ant) : Energizes a s (s.enableBus a) := by
  obtain ⟨enable, bus⟩ := s.enableBus_enabled a
  refine ⟨.enableBus s a, enable, bus, fun off => ?_⟩
  let v := s.modAnt a fun v => { v with enable := true }
  let w := v.modAnt a fun v => { v with bus := .precharge, prechargeStart := some s.now }
  let wake (s : State) (i : AxisId) : State := if (s.axis i).state = .off then s.enterAxis i .precharge else s
  have down : (v.ants.get a).bus = .off := by
    rw [State.ants_get_modAnt, if_pos rfl]
    exact off
  have enabled : s.enableBus a = ((wake (wake w ⟨a, .az⟩) ⟨a, .el⟩)).runFieldTimers a := by
    unfold State.enableBus
    exact if_pos down
  have woken (s : State) (i : AxisId) : Still (· = i) s (wake s i) := .ite (.enterAxis ..) (.refl ..)
  have power : ((s.enableBus a).ants.get a).power = (w.ants.get a).power := by
    rw [enabled]
    exact (((Still.runFieldTimers _ a).power a).trans ((woken _ _).power a)).trans ((woken _ _).power a)
  have charged : (w.ants.get a).bus = .precharge ∧ (w.ants.get a).prechargeStart = some s.now := by
    rw [State.ants_get_modAnt, if_pos rfl]
    exact ⟨rfl, rfl⟩
  have axis (j : AxisId) : w.axis j = s.axis j := by
    show ((s.modAnt a _).modAnt a _).axis j = _
    rw [State.axis_modAnt]
    split
    next own =>
      rw [State.ants_get_modAnt, if_pos rfl, ← own]
      rfl
    next other => exact (State.axis_modAnt ..).trans (if_neg other)
  have risen (s : State) (i : AxisId) (off : (s.axis i).state = .off) : ((wake s i).axis i).state = .precharge := by
    show (State.axis (if (s.axis i).state = .off then s.enterAxis i .precharge else s) i).state = _
    rw [if_pos off, State.axis_enterAxis, if_pos rfl]
    rfl
  have state (j : AxisId) : ((s.enableBus a).axis j).state = ((wake (wake w ⟨a, .az⟩) ⟨a, .el⟩).axis j).state := by
    rw [enabled]
    exact Axis.core_state ((Still.runFieldTimers _ a).core j id)
  refine ⟨(Antenna.power_bus power).trans charged.1, (Antenna.power_prechargeStart power).trans charged.2, fun x rests => ?_⟩
  rw [state]
  have first (y : AxisName) (far : y ≠ x) (s : State) :
      ((wake s ⟨a, y⟩).axis ⟨a, x⟩).state = (s.axis ⟨a, x⟩).state :=
    Axis.core_state ((woken s ⟨a, y⟩).core _ fun e => far (congrArg AxisId.ax e).symm)
  cases x
  · rw [first .el nofun]
    exact risen w _ (by rw [axis]; exact rests)
  · refine risen _ _ ?_
    rw [first .az nofun, axis]
    exact rests

/-! ### HOLD (R11, R13) -/

/-- The claim OPERATIONS on both axes of an antenna. -/
def State.holdBoth (s : State) (a : Ant) : State := (s.addClaim ⟨a, .az⟩ .operations).addClaim ⟨a, .el⟩ .operations

/-- A claim on an axis whose bus is not OFF changes no other item of the drives but its ENABLE. -/
theorem State.addClaim_on {src : ClaimSource} (on : (s.ants.get i.ant).bus ≠ .off)
    (sound : (s.axis i).state.isFaulted = false) (other : src ≠ .queue) : s.addClaim i src =
      (s.modAxis i fun x => x.addClaim s.now src).modAnt i.ant fun v => { v with enable := true } := by
  have bus : ((s.modAxis i fun x => x.addClaim s.now src).ants.get i.ant).bus ≠ .off := by
    have power : ((s.modAxis i fun x => x.addClaim s.now src).ants.get i.ant).power = _ := Antenna.power_setAxis ..
    rw [Antenna.power_bus power]
    exact on
  unfold State.addClaim
  rw [if_pos (by rw [State.takesClaim, sound]; rfl)]
  dsimp only
  rw [if_neg other, State.enableBus_on bus]

theorem State.addClaim_power {src : ClaimSource} (on : (s.ants.get i.ant).bus ≠ .off)
    (sound : (s.axis i).state.isFaulted = false) (other : src ≠ .queue) :
    ((s.addClaim i src).ants.get i.ant).power = ((s.ants.get i.ant).bus, true, (s.ants.get i.ant).outOfBand,
      (s.ants.get i.ant).prechargeStart) := by
  have power : ((s.modAxis i fun x => x.addClaim s.now src).ants.get i.ant).power = (s.ants.get i.ant).power :=
    Antenna.power_setAxis ..
  rw [State.addClaim_on on sound other, State.ants_get_modAnt, if_pos rfl]
  show (_, true, _, _) = _
  rw [Antenna.power_bus power, Antenna.power_outOfBand power, Antenna.power_prechargeStart power]

theorem State.addClaim_energizes {src : ClaimSource} (sound : (s.axis i).state.isFaulted = false) (other : src ≠ .queue) :
    Energizes i.ant s (s.addClaim i src) := by
  have taken : s.addClaim i src = (s.modAxis i fun x => x.addClaim s.now src).enableBus i.ant := by
    unfold State.addClaim
    rw [if_pos (by rw [State.takesClaim, sound]; rfl)]
    exact if_neg other
  have energized := (s.modAxis i fun x => x.addClaim s.now src).enableBus_energizes i.ant
  have power : ((s.modAxis i fun x => x.addClaim s.now src).ants.get i.ant).power = (s.ants.get i.ant).power :=
    Antenna.power_setAxis ..
  have state (j : AxisId) : ((s.modAxis i fun x => x.addClaim s.now src).axis j).state = (s.axis j).state := by
    rw [State.axis_modAxis]
    split
    · rename_i e; subst e; rfl
    · rfl
  refine ⟨.addClaim .., taken ▸ energized.enable, taken ▸ energized.bus, fun off => ?_⟩
  obtain ⟨charge, start, woken⟩ := energized.charge ((Antenna.power_bus power).trans off)
  rw [taken]
  exact ⟨charge, start, fun x rests => woken x ((state _).trans rests)⟩

theorem Enables.sound {j : AxisId} (h : Enables s t) (sound : (s.axis j).state.isFaulted = false) :
    (t.axis j).state.isFaulted = false := by
  by_cases off : (s.axis j).state = .off
  · rcases h.asleep j off with e | e <;> rw [e] <;> rfl
  · rw [Axis.core_state (h.core j off)]
    exact sound

theorem State.holdBoth_energizes (sound : ∀ x, (s.axis ⟨a, x⟩).state.isFaulted = false) : Energizes a s (s.holdBoth a) := by
  have first : Energizes a s (s.addClaim ⟨a, .az⟩ .operations) := State.addClaim_energizes (i := ⟨a, .az⟩) (sound .az) nofun
  have second : Energizes a (s.addClaim ⟨a, .az⟩ .operations) (s.holdBoth a) :=
    State.addClaim_energizes (i := ⟨a, .el⟩) (first.enables.sound (sound .el)) nofun
  refine ⟨first.enables.trans second.enables, second.enable, second.bus, fun off => ?_⟩
  obtain ⟨charge, start, woken⟩ := first.charge off
  have power : ((s.holdBoth a).ants.get a).power = _ :=
    State.addClaim_power (i := ⟨a, .el⟩) (src := .operations) first.bus (first.enables.sound (sound .el)) nofun
  refine ⟨(congrArg Prod.fst power).trans charge, (congrArg (fun p => p.2.2.2) power).trans start, fun x rests => ?_⟩
  have up := woken x rests
  rw [Axis.core_state (second.enables.core _ (by rw [up]; nofun)), up]

theorem State.holdBoth_claims (sound : ∀ x, (s.axis ⟨a, x⟩).state.isFaulted = false) (x : AxisName) :
    ((s.holdBoth a).axis ⟨a, x⟩).claims.operations = true := by
  have first : Energizes a s (s.addClaim ⟨a, .az⟩ .operations) := State.addClaim_energizes (i := ⟨a, .az⟩) (sound .az) nofun
  cases x
  · exact (Enables.addClaim ..).claims ⟨a, .az⟩ .operations (State.addClaim_takes (sound .az)).1
  · exact (State.addClaim_takes (src := .operations) (first.enables.sound (sound .el))).1

/-- On a bus that is not OFF, HOLD gives both axes their claim and the antenna its ENABLE, and nothing else. -/
theorem State.holdBoth_on (on : (s.ants.get a).bus ≠ .off) (sound : ∀ x, (s.axis ⟨a, x⟩).state.isFaulted = false) :
    s.holdBoth a = { s with ants := (s.holdBoth a).ants }
    ∧ (∀ j, (s.holdBoth a).axis j = if j.ant = a then (s.axis j).addClaim s.now .operations else s.axis j)
    ∧ ((s.holdBoth a).ants.get a).power = ((s.ants.get a).bus, true, (s.ants.get a).outOfBand,
      (s.ants.get a).prechargeStart) := by
  have first : Energizes a s (s.addClaim ⟨a, .az⟩ .operations) := State.addClaim_energizes (i := ⟨a, .az⟩) (sound .az) nofun
  have sound' := first.enables.sound (sound .el)
  have az := State.addClaim_on (i := ⟨a, .az⟩) (src := .operations) on (sound .az) nofun
  have el : s.holdBoth a = _ := State.addClaim_on (i := ⟨a, .el⟩) (src := .operations) first.bus sound' nofun
  have axis (s : State) (i j : AxisId) :
      ((s.modAxis i fun x => x.addClaim s.now .operations).modAnt i.ant fun v => { v with enable := true }).axis j
        = if j = i then (s.axis i).addClaim s.now .operations else s.axis j := by
    rw [← s.axis_modAxis i j fun x => x.addClaim s.now .operations, State.axis_modAnt]
    split
    next own => rw [← own]; rfl
    next => rfl
  have now : (s.addClaim ⟨a, .az⟩ .operations).now = s.now := by rw [az]; rfl
  refine ⟨?_, fun j => ?_, ?_⟩
  · rw [el, az]
    rfl
  · obtain ⟨b, x⟩ := j
    rw [el, axis, now, az, axis, axis]
    by_cases own : b = a
    · subst own
      cases x <;> simp
    · simp [own]
  · have power : ((s.holdBoth a).ants.get a).power = _ :=
      State.addClaim_power (i := ⟨a, .el⟩) (src := .operations) first.bus sound' nofun
    have before : ((s.addClaim ⟨a, .az⟩ .operations).ants.get a).power = _ :=
      State.addClaim_power (i := ⟨a, .az⟩) (src := .operations) on (sound .az) nofun
    rw [power]
    show ((Antenna.power _).1, true, (Antenna.power _).2.2.1, (Antenna.power _).2.2.2) = _
    rw [before]

/-! ### What stands once the event is over -/

/-- What follows the answer leaves an axis that is steady once its void needs have been withdrawn. -/
theorem Answer.finish_core (r : Answer) (s : State) (l : Link) (k : Kind) (tag : Byte)
    (void : ∀ n ∈ r.state.feed.queue, n.axis = i → r.state.needVoid n = true)
    (rest : ∀ t : State, t.axis i = r.state.axis i → t.waits i = false → t.stow = r.state.stow → t.ants = r.state.ants →
      t.steady i) : ((r.finish true s l k tag).axis i).core = (r.state.axis i).core :=
  ((Still.announce ..).core i id).trans
    (State.settle_core (s := r.state.answer l k.code tag r.status r.body) void rest)

theorem Energizes.finish {r : Answer} (e : Energizes a u r.state) (s : State) (l : Link) (k : Kind) (tag : Byte) :
    let t := r.finish true s l k tag
    (t.ants.get a).enable = true
    ∧ ((u.ants.get a).bus = .off → (t.ants.get a).bus = .precharge ∧ (t.ants.get a).prechargeStart = some u.now
      ∧ ∀ x, (u.axis ⟨a, x⟩).state = .off → (t.axis ⟨a, x⟩).state = .precharge)
    ∧ ((u.ants.get a).bus ≠ .off → (t.ants.get a).bus = (u.ants.get a).bus) := by
  have on : (r.state.ants.get a).disabling = false := by
    unfold Antenna.disabling
    rw [e.enable, Bool.not_true, Bool.and_false]
  obtain ⟨bus, -, start, enable⟩ := (r.finish_calm s l k tag).power a on (.inr e.bus)
  refine ⟨enable e.enable, fun off => ?_, fun up => bus.trans (e.enables.bus a up)⟩
  obtain ⟨charge, begun, woken⟩ := e.charge off
  refine ⟨bus.trans charge, start.trans begun, fun x rests => ?_⟩
  have up := woken x rests
  have dead : r.state.ready a = false := by
    show (r.state.live a && _) = false
    unfold State.live
    rw [charge]
    rfl
  refine (Axis.core_state (r.finish_core s l k tag (fun n _ own => ?_) fun t axis free _ _ => ⟨free, ?_⟩)).trans up
  · unfold State.needVoid
    dsimp only
    rw [own, up, dead]
    cases n.kind <;> simp
  · rw [axis, up]
    trivial

/-- The antenna whose axis a HOLD finds at its brake on a bus that is not ready keeps it there (R13). -/
theorem holdBoth_abides (u : State) {x : AxisName} (unstowed : (u.stowOf a).state = .unstowed)
    (sound : ∀ x, (u.axis ⟨a, x⟩).state.isFaulted = false) (absent : u.waits ⟨a, x⟩ = false)
    (braked : (u.axis ⟨a, x⟩).state = .braked) (dead : u.live a = false) : (u.holdBoth a).Abides ⟨a, x⟩ := by
  have energizes := u.holdBoth_energizes sound
  refine ⟨?_, ?_, ?_, ?_, u.holdBoth_claims sound x, ?_⟩
  · rw [energizes.enables.away]
    exact unstowed
  · unfold Antenna.disabling
    rw [energizes.enable, Bool.not_true, Bool.and_false]
  · by_cases off : (u.ants.get a).bus = .off
    · unfold State.live
      rw [(energizes.charge off).1]
      rfl
    · obtain ⟨-, -, power⟩ := u.holdBoth_on off sound
      have bus : ((u.holdBoth a).ants.get a).bus = (u.ants.get a).bus := congrArg Prod.fst power
      have band : ((u.holdBoth a).ants.get a).outOfBand = (u.ants.get a).outOfBand := congrArg (fun p => p.2.2.1) power
      unfold State.live at dead ⊢
      rw [bus, band]
      exact dead
  · rw [Axis.core_state (energizes.enables.core _ (by rw [braked]; nofun))]
    exact braked
  · unfold State.waits
    rw [energizes.enables.queue]
    exact absent

theorem Claims.has_of_any_false {c : Claims} (none_ : c.any = false) (src : ClaimSource) : c.has src = false := by
  simp only [Claims.any, Bool.or_eq_false_iff] at none_
  obtain ⟨⟨⟨⟨operations, queue⟩, group⟩, stow⟩, jog⟩ := none_
  cases src
  exacts [operations, queue, group, stow, jog]

/-- On a ready bus HOLD sets its axes to work toward torque (R13). -/
theorem holdBoth_seeks (u : State) {x : AxisName} (unstowed : (u.stowOf a).state = .unstowed) (ready : u.ready a = true)
    (absent : u.waits ⟨a, x⟩ = false) (braked : (u.axis ⟨a, x⟩).state = .braked)
    (group : (u.axis ⟨a, x⟩).claims.group = false) (stow : (u.axis ⟨a, x⟩).claims.stow = false)
    (others : ∀ j, j.ant ≠ a → (u.axis j).state = .braked → (u.axis j).claims.any = false)
    (places : u.feed.queue.length ≤ 14) : (u.holdBoth a).Seeks ⟨a, x⟩ (u.axis ⟨a, x⟩).record.hold := by
  obtain ⟨live, clear⟩ := Bool.and_eq_true_iff.1 (show (u.live a && !u.anyFaulted a) = true from ready)
  have sound := State.anyFaulted_eq_false.1 (Bool.not_eq_true' _ ▸ clear)
  have on : (u.ants.get a).bus ≠ .off := by
    rw [of_decide_eq_true (Bool.and_eq_true_iff.1 live).1]
    nofun
  obtain ⟨shape, axis, power⟩ := u.holdBoth_on on sound
  have own : (u.holdBoth a).axis ⟨a, x⟩ = (u.axis ⟨a, x⟩).addClaim u.now .operations := (axis _).trans (if_pos rfl)
  have state (j : AxisId) : ((u.holdBoth a).axis j).state = (u.axis j).state := by
    rw [axis]
    split <;> rfl
  have bus : ((u.holdBoth a).ants.get a).bus = (u.ants.get a).bus := congrArg Prod.fst power
  have band : ((u.holdBoth a).ants.get a).outOfBand = (u.ants.get a).outOfBand := congrArg (fun p => p.2.2.1) power
  have enable : ((u.holdBoth a).ants.get a).enable = true := congrArg (fun p => p.2.1) power
  have waits : (u.holdBoth a).waits ⟨a, x⟩ = false := by rw [shape]; exact absent
  exact {
    unstowed := by rw [shape]; exact unstowed
    enabled := by
      unfold Antenna.disabling
      rw [enable, Bool.not_true, Bool.and_false]
    ready := by
      refine State.ready_of_live ?_ (State.anyFaulted_eq_false.2 fun y => by rw [state]; exact sound y)
      unfold State.live at live ⊢
      rw [bus, band]
      exact live
    claimed := u.holdBoth_claims sound x
    free := by rw [own]; exact ⟨group, stow⟩
    hold := by rw [own]; rfl
    needs := fun n mem => by
      obtain ⟨queued, here⟩ := List.mem_filter.1 mem
      exact absurd (List.any_eq_true.2 ⟨n, queued, here⟩) (by rw [← State.waits, waits]; exact Bool.false_ne_true)
    state := .inl (by rw [state]; exact braked)
    others := fun j far down c _ => by
      have same : (u.holdBoth a).axis j = u.axis j := (axis j).trans (if_neg far)
      rw [same] at down ⊢
      exact Claims.has_of_any_false (others j far down) c
    places := by
      refine (placesOf_le ..).trans ?_
      rw [show (u.holdBoth a).feed = u.feed by rw [shape]]
      omega }

end Sys2Proof.Machine
end

