-- ==== Sys2Proof/Proofs/AxisEnableOff.lean ====
section
/-! PROOFS. AXIS_ENABLE (R9, R11, R12): what OFF makes of a bus and of its axes, and the request in its three forms. -/

namespace Sys2Proof.Machine

variable {s t u : State} {a : Ant} {i : AxisId} {h : Nat}

/-! ### Axes without claims -/

/-- What follows an event leaves a claimless axis of a quiet antenna without claims, and where it is, unless it rests on a
bus that is being taken down (R12). -/
theorem State.settle_claimless {v : State} (quiet : v.quiet i.ant) (idle : (v.axis i).claims.any = false)
    (power : (v.axis i).state = .braked → (v.ants.get i.ant).disabling = false) :
    (v.settle.axis i).core = (v.axis i).core ∧ (v.settle.axis i).claims.any = false := by
  have void : ∀ n ∈ v.feed.queue, n.axis = i → v.needVoid n = true := fun n _ own => by
    unfold State.needVoid
    dsimp only
    rw [own, idle]
    rfl
  have rest (t : State) (axis : t.axis i = v.axis i) (free : t.waits i = false) (stow : t.stow = v.stow)
      (ants : t.ants = v.ants) : t.steady i := by
    have quiet' : t.quiet i.ant := by
      unfold State.quiet State.stowOf
      rw [stow]
      exact quiet
    refine ⟨free, ?_⟩
    rw [axis, ants]
    cases e : (v.axis i).state
    case off => exact quiet'
    case braked => exact ⟨quiet', idle, power e⟩
    case torqueUp | holding | braking => exact quiet'.1
    all_goals trivial
  have withdrawn := Still.withdrawVoid v
  have steady := State.steady_withdrawVoid void rest
  have calm := Calm.settleRest v
  refine ⟨(calm.axes i steady).1.trans (withdrawn.core i id), calm.claims i steady (.inl ?_) (withdrawn.claims i id idle)⟩
  exact (State.quiet_congr (withdrawn.stow _)).2 quiet

theorem Answer.finish_claimless (r : Answer) (s : State) (l : Link) (k : Kind) (tag : Byte) (quiet : r.state.quiet i.ant)
    (idle : (r.state.axis i).claims.any = false)
    (power : (r.state.axis i).state = .braked → (r.state.ants.get i.ant).disabling = false) :
    ((r.finish true s l k tag).axis i).core = (r.state.axis i).core
    ∧ ((r.finish true s l k tag).axis i).claims.any = false := by
  have settled := State.settle_claimless (v := r.state.answer l k.code tag r.status r.body) quiet idle power
  have same : (r.finish true s l k tag).axis i = (r.state.answer l k.code tag r.status r.body).settle.axis i :=
    announce_axis ..
  rw [same]
  exact settled

/-! ### A precharge let go (R9) -/

/-- The axis loses its claims and goes OFF where it precharges. -/
def State.offIfCharging (s : State) (i : AxisId) : State :=
  if (s.axis i).state = .precharge then (s.clearClaims i).enterAxis i .off else s

theorem State.offIfCharging_spec (s : State) (i : AxisId) :
    AxisAlone i s (s.offIfCharging i) ∧ ((s.offIfCharging i).ants.get i.ant).power = (s.ants.get i.ant).power
    ∧ ((s.axis i).state = .precharge →
      ((s.offIfCharging i).axis i).state = .off ∧ ((s.offIfCharging i).axis i).claims.any = false) := by
  unfold State.offIfCharging
  split
  next charging =>
    refine ⟨(AxisAlone.modAxis s _).trans (.enterAxis ..), ((Still.enterAxis ..).power _).trans ((Still.clearClaims s i).power _),
      fun _ => ?_⟩
    rw [State.axis_enterAxis, if_pos rfl]
    refine ⟨rfl, ?_⟩
    show ((s.clearClaims i).axis i).claims.any = false
    unfold State.clearClaims
    rw [State.axis_modAxis, if_pos rfl]
    rfl
  next still => exact ⟨.refl s, rfl, fun charging => absurd charging still⟩

theorem State.disable_precharge (charging : (s.ants.get a).bus = .precharge) :
    ((s.disable a).ants.get a).bus = .off ∧ (s.disable a).stow = s.stow
    ∧ ∀ x, (s.axis ⟨a, x⟩).state = .precharge →
      ((s.disable a).axis ⟨a, x⟩).state = .off ∧ ((s.disable a).axis ⟨a, x⟩).claims.any = false := by
  let v := s.modAnt a Antenna.busOff
  have let_go : s.disable a = (v.offIfCharging ⟨a, .az⟩).offIfCharging ⟨a, .el⟩ := by
    unfold State.disable
    rw [charging]
    rfl
  have axis (x : AxisName) : v.axis ⟨a, x⟩ = s.axis ⟨a, x⟩ := (State.axis_modAnt ..).trans (if_pos rfl)
  obtain ⟨alone, power, off⟩ := v.offIfCharging_spec ⟨a, .az⟩
  obtain ⟨alone', power', off'⟩ := (v.offIfCharging ⟨a, .az⟩).offIfCharging_spec ⟨a, .el⟩
  have down : (v.ants.get a).bus = .off := by rw [State.ants_get_modAnt, if_pos rfl]; rfl
  rw [let_go]
  refine ⟨(Antenna.power_bus (power'.trans power)).trans down, ?_, fun x charged => ?_⟩
  · rw [alone'.shape, alone.shape]
    rfl
  · cases x
    · rw [(alone'.away ⟨a, .az⟩ nofun).1]
      exact off (by rw [axis]; exact charged)
    · refine off' ?_
      rw [(alone.away ⟨a, .el⟩ nofun).1, axis]
      exact charged

/-! ### A bus taken down (R12) -/

theorem State.clearClaims_own (s : State) (i : AxisId) : ((s.clearClaims i).axis i).claims.any = false := by
  unfold State.clearClaims
  rw [State.axis_modAxis, if_pos rfl]
  rfl

/-- A deep stop on a ready axis brakes it toward its target, without claims (R15, R18). -/
theorem State.stopAxis_ready {d : StopTarget} (ready : (s.axis i).ready = true) (r : StopReason) (deep : d ≠ .holding) :
    ((s.stopAxis i r d).axis i).state = .braking ∧ ((s.stopAxis i r d).axis i).pendingStop = some ⟨some r, d⟩
    ∧ ((s.stopAxis i r d).axis i).claims.any = false := by
  have core := s.clearClaims_axis i i
  have ready' := (Axis.ready_congr core).trans ready
  have holding := Axis.holding_of_ready ready'
  have confirmed : ((s.clearClaims i).axis i).releaseCheck.isSome = false := by
    unfold Axis.ready at ready'
    rw [Bool.and_eq_true] at ready'
    cases e : ((s.clearClaims i).axis i).releaseCheck
    · rfl
    · rw [e] at ready'; cases ready'.2
  have taken : s.stopAxis i r d = (s.clearClaims i).goBraking i ⟨some r, d⟩ := by
    unfold State.stopAxis
    rw [if_neg deep]
    unfold State.takeStop
    rw [holding]
    dsimp only
    rw [if_neg deep, confirmed, if_neg Bool.false_ne_true]
  rw [taken, State.axis_goBraking_own]
  exact ⟨rfl, rfl, s.clearClaims_own i⟩

/-- An axis at its brake only loses its claims. -/
theorem State.stopAxis_braked {d : StopTarget} (braked : (s.axis i).state = .braked) (r : StopReason) (deep : d ≠ .holding) :
    s.stopAxis i r d = s.clearClaims i := by
  have state := (Axis.core_state (s.clearClaims_axis i i)).trans braked
  unfold State.stopAxis
  rw [if_neg deep]
  unfold State.takeStop
  rw [state]

/-- What an OFF does on an UP bus before its stops. -/
def State.unable (s : State) (a : Ant) : State := s.modAnt a fun v => { v with enable := false }

theorem State.disable_up (up : (s.ants.get a).bus = .up) :
    s.disable a = ((s.unable a).stopAxis ⟨a, .az⟩ .disable .off).stopAxis ⟨a, .el⟩ .disable .off := by
  unfold State.disable
  rw [up]
  rfl

theorem State.unable_axis (s : State) (x : AxisName) : (s.unable a).axis ⟨a, x⟩ = s.axis ⟨a, x⟩ :=
  (State.axis_modAnt ..).trans (if_pos rfl)

theorem State.disable_ready {x : AxisName} (up : (s.ants.get a).bus = .up) (ready : (s.axis ⟨a, x⟩).ready = true) :
    ((s.disable a).axis ⟨a, x⟩).state = .braking ∧ ((s.disable a).axis ⟨a, x⟩).pendingStop = some ⟨some .disable, .off⟩
    ∧ ((s.disable a).axis ⟨a, x⟩).claims.any = false ∧ (s.disable a).stow = s.stow := by
  let v := s.unable a
  have first := AxisAlone.stopAxis (i := ⟨a, .az⟩) v .disable .off
  have second := AxisAlone.stopAxis (i := ⟨a, .el⟩) (v.stopAxis ⟨a, .az⟩ .disable .off) .disable .off
  have stow : (s.disable a).stow = s.stow := by
    rw [State.disable_up up, second.shape, first.shape]
    rfl
  rw [← and_assoc, ← and_assoc, and_assoc (a := _ = AxisState.braking)]
  refine ⟨?_, stow⟩
  rw [State.disable_up up]
  cases x
  · rw [(second.away ⟨a, .az⟩ nofun).1]
    exact State.stopAxis_ready (by rw [State.unable_axis]; exact ready) .disable nofun
  · refine State.stopAxis_ready ?_ .disable nofun
    rw [(first.away ⟨a, .el⟩ nofun).1, State.unable_axis]
    exact ready

/-- With both axes at their brakes, the disable sequence has run its course (R12). -/
theorem State.disable_braked (up : (s.ants.get a).bus = .up) (braked : ∀ x, (s.axis ⟨a, x⟩).state = .braked) :
    ((s.disable a).ants.get a).disabled = true ∧ (s.disable a).stow = s.stow
    ∧ ∀ x, ((s.disable a).axis ⟨a, x⟩).state = .braked ∧ ((s.disable a).axis ⟨a, x⟩).claims.any = false := by
  let v := s.unable a
  let w := v.clearClaims ⟨a, .az⟩
  have az : v.stopAxis ⟨a, .az⟩ .disable .off = w :=
    State.stopAxis_braked (by rw [State.unable_axis]; exact braked .az) .disable nofun
  have rests (x : AxisName) : (w.axis ⟨a, x⟩).state = .braked := by
    rw [Axis.core_state (v.clearClaims_axis ..), State.unable_axis]
    exact braked x
  have el : s.disable a = w.clearClaims ⟨a, .el⟩ := by
    rw [State.disable_up up, az]
    exact State.stopAxis_braked (rests .el) .disable nofun
  have state (x : AxisName) : ((s.disable a).axis ⟨a, x⟩).state = .braked := by
    rw [el, Axis.core_state (w.clearClaims_axis ..)]
    exact rests x
  have power : ((s.disable a).ants.get a).power = (v.ants.get a).power := by
    rw [el]
    exact ((Still.clearClaims w _).power a).trans ((Still.clearClaims v _).power a)
  have set : (v.ants.get a).bus = .up ∧ (v.ants.get a).enable = false := by
    rw [show v.ants.get a = { s.ants.get a with enable := false } from (State.ants_get_modAnt ..).trans (if_pos rfl)]
    exact ⟨up, rfl⟩
  refine ⟨?_, by rw [el]; rfl, fun x => ⟨state x, ?_⟩⟩
  · have disabling : ((s.disable a).ants.get a).disabling = true := by
      rw [Antenna.disabling_eq power, Antenna.disabling, set.1, set.2]
      rfl
    have down (x : AxisName) : ((s.disable a).axis ⟨a, x⟩).state.down = true := by rw [state]; rfl
    unfold Antenna.disabled
    rw [disabling, show ((s.disable a).ants.get a).axes.az.state.down = true from down .az,
      show ((s.disable a).ants.get a).axes.el.state.down = true from down .el]
    rfl
  · rw [el]
    cases x
    · have same : (w.clearClaims ⟨a, .el⟩).axis ⟨a, .az⟩ = w.axis ⟨a, .az⟩ := (State.axis_modAxis ..).trans (if_neg nofun)
      rw [same]
      exact v.clearClaims_own _
    · exact w.clearClaims_own _

/-- Other antennas' ends of disable sequences leave this one's. -/
structure LeavesAnt (a : Ant) (s t : State) : Prop where
  ant : t.ants.get a = s.ants.get a
  stow : t.stowOf a = s.stowOf a
  waits : ∀ j, s.waits j = false → t.waits j = false

theorem LeavesAnt.endDisable {b : Ant} (far : b ≠ a) (s : State) : LeavesAnt a s (s.endDisable b) := by
  obtain ⟨waits, stow, -⟩ := State.endDisable_away s b
  refine ⟨?_, stow a, waits⟩
  have off (s : State) (x : AxisName) : (s.offIfBraked ⟨b, x⟩).ants.get a = s.ants.get a := by
    unfold State.offIfBraked State.enterAxis State.changeStanding State.markFreedIf
    dsimp only
    split
    · split
      all_goals exact (Six.get_set ..).trans (if_neg far.symm)
    · rfl
  rw [State.endDisable_eq]
  split
  · rw [off, off, State.ants_get_modAnt, if_neg far.symm]
  · rfl

/-- A disable sequence that has run its course ends in its event: the bus and both axes are OFF (R12). -/
theorem State.disabled_settles (disabled : (s.ants.get a).disabled = true) (quiet : s.quiet a)
    (braked : ∀ x, (s.axis ⟨a, x⟩).state = .braked) (idle : ∀ x, (s.axis ⟨a, x⟩).claims.any = false) :
    (s.settle.ants.get a).bus = .off ∧ ∀ x, (s.settle.axis ⟨a, x⟩).state = .off := by
  obtain ⟨u, before, after⟩ := forEach_split (f := fun s a => s.endDisable a) (P := LeavesAnt a) (k := a)
    (fun s => ⟨rfl, rfl, fun _ => id⟩)
    (fun s t u h k => ⟨k.ant.trans h.ant, k.stow.trans h.stow, fun j => k.waits j ∘ h.waits j⟩)
    (fun s b far => .endDisable far s) Ant.all_nodup (Ant.mem_all a) s.withdrawVoid
  set v := forEach Ant.all (fun s a => s.endDisable a) s.withdrawVoid
  have ants : s.withdrawVoid.ants = s.ants := by
    unfold State.withdrawVoid
    refine forEach_keeps State.ants (fun s n => ?_) _ _
    unfold State.forgetRaise
    split <;> rfl
  have ant : u.ants.get a = s.ants.get a := before.ant.trans (by rw [ants])
  have axis (x : AxisName) : u.axis ⟨a, x⟩ = s.axis ⟨a, x⟩ := congrArg (fun w : Antenna => w.axes.get x) ant
  have free (x : AxisName) : s.withdrawVoid.waits ⟨a, x⟩ = false := State.waits_withdrawVoid fun n _ own => by
    unfold State.needVoid
    dsimp only
    rw [own, idle]
    rfl
  obtain ⟨waits, stow, -⟩ := State.endDisable_away u a
  have off (x : AxisName) : (v.axis ⟨a, x⟩).state = .off := by
    have same : v.axis ⟨a, x⟩ = (u.endDisable a).axis ⟨a, x⟩ := congrArg (fun w : Antenna => w.axes.get x) after.ant
    rw [same, State.axis_endDisable, if_pos ⟨by rw [ant]; exact disabled, rfl, by rw [axis]; exact braked x⟩]
    rfl
  have bus : (v.ants.get a).bus = .off := by
    rw [after.ant, State.endDisable_eq, if_pos (by rw [ant]; exact disabled)]
    have power := ((Still.offIfBraked ((u.modAnt a Antenna.busOff).offIfBraked ⟨a, .az⟩) ⟨a, .el⟩).power a).trans
      ((Still.offIfBraked (u.modAnt a Antenna.busOff) ⟨a, .az⟩).power a)
    rw [Antenna.power_bus power, State.ants_get_modAnt, if_pos rfl]
    rfl
  have quiet' : v.quiet a := by
    refine quiet.of_stow ?_
    exact (after.stow.trans (stow a)).trans (before.stow.trans ((Still.withdrawVoid s).stow a))
  have calm : Calm v s.settle := by
    have rest : Calm v s.followUp := by
      unfold State.followUp
      exact ((Calm.forEach (fun s a => Calm.stowAtRest s a) _ _).trans
        (Calm.forEach (fun s g => Calm.releaseIfStill s g) _ _)).trans (Calm.forEach (fun s a => Calm.releaseIfOver s a) _ _)
    rw [State.settle, State.settleRounds_succ]
    exact ((rest.trans (.seekAll _)).trans (.offer _)).trans (.settleRounds 3 _)
  refine ⟨(calm.power a ?_ (.inl quiet')).1.trans bus, fun x => ?_⟩
  · unfold Antenna.disabling
    rw [bus]
    rfl
  · have steady : v.steady ⟨a, x⟩ := by
      refine ⟨after.waits _ (waits _ (before.waits _ (free x))), ?_⟩
      rw [off]
      exact quiet'
    rw [Axis.core_state (calm.axes _ steady).1]
    exact off x

/-! ### The request -/

/-- Room for both hold figures, and nothing else due: after HOLD too. -/
theorem holdBoth_roomy (u : State) (ready : u.ready a = true) (idle : u.Idle) (unshed : u.feed.shed.classes = none)
    (others : ∀ j, j.ant ≠ a → (u.axis j).state = .braked → (u.axis j).claims.any = false)
    (room : (((u.axis ⟨a, .az⟩).record.hold + (u.axis ⟨a, .el⟩).record.hold : Nat) : Int) ≤ u.freeRoom) :
    (u.holdBoth a).Roomy a := by
  obtain ⟨live, clear⟩ := Bool.and_eq_true_iff.1 (show (u.live a && !u.anyFaulted a) = true from ready)
  have sound := State.anyFaulted_eq_false.1 (Bool.not_eq_true' _ ▸ clear)
  have on : (u.ants.get a).bus ≠ .off := by
    rw [of_decide_eq_true (Bool.and_eq_true_iff.1 live).1]
    nofun
  obtain ⟨shape, axis, -⟩ := u.holdBoth_on on sound
  have state (j : AxisId) : ((u.holdBoth a).axis j).state = (u.axis j).state := by
    rw [axis]
    split <;> rfl
  have wish (j : AxisId) : (u.holdBoth a).wish j ≤ (u.axis j).record.hold := by
    have record : ((u.holdBoth a).axis j).record = (u.axis j).record := by
      rw [axis]
      split <;> rfl
    unfold State.wish
    split
    · rw [record]
    · exact Nat.zero_le _
  refine ⟨⟨by rw [shape]; exact idle.queue, fun b => ?_, fun b => ?_⟩, by rw [shape]; exact unshed, fun j far down => ?_, ?_⟩
  · have stow : (u.holdBoth a).stowOf b = u.stowOf b := by rw [shape]; rfl
    unfold State.moving
    rw [stow, state, state]
    exact idle.moves b
  · have waits : (u.holdBoth a).waitsForWave b = u.waitsForWave b := by rw [shape]; rfl
    rw [waits]
    exact idle.waves b
  · have same : (u.holdBoth a).axis j = u.axis j := (axis j).trans (if_neg far)
    rw [same] at down ⊢
    exact others j far down
  · have free : (u.holdBoth a).freeRoom = u.freeRoom := by rw [shape]; rfl
    have az := wish ⟨a, .az⟩
    have el := wish ⟨a, .el⟩
    rw [free]
    omega

/-- The state that an answer settles differs from its owner's in the links alone. -/
theorem Leaves.answer (s : State) (l : Link) (k tag : Byte) (st : Status) (b : ReplyBody) : Leaves i s (s.answer l k tag st b) :=
  .away rfl rfl rfl rfl

theorem Idles.answer (s : State) (l : Link) (k tag : Byte) (st : Status) (b : ReplyBody) : Idles s (s.answer l k tag st b) :=
  ⟨rfl, rfl, rfl, rfl, le_rfl, fun _ => rfl, fun _ => id, fun _ => id, fun _ => rfl⟩

/-- The end of an event leaves the drives and the feed as they have settled. -/
theorem announce_feed (s t : State) : (announce s t).feed = t.feed := rfl

theorem announce_ants (s t : State) : (announce s t).ants = t.ants := rfl

theorem Answer.finish_settled (r : Answer) (s : State) (l : Link) (k : Kind) (tag : Byte) (i : AxisId) :
    (r.finish true s l k tag).axis i = (r.state.answer l k.code tag r.status r.body).settle.axis i
    ∧ (r.finish true s l k tag).feed = (r.state.answer l k.code tag r.status r.body).settle.feed :=
  ⟨announce_axis .., announce_feed ..⟩

theorem State.waits_congr (feed : t.feed = s.feed) : t.waits i = s.waits i := by
  unfold State.waits
  rw [feed]

theorem State.standing_congr (feed : t.feed = s.feed) : t.standing i = s.standing i := by
  unfold State.standing
  rw [feed]

/-- An axis that works toward torque has it once the event is over, or its need waits (R13). -/
theorem Answer.finish_seeks {r : Answer} (k : r.state.Seeks i h) (s : State) (l : Link) (kind : Kind) (tag : Byte) :
    let t := r.finish true s l kind tag
    (t.axis i).claims.operations = true
    ∧ ((t.axis i).state = .torqueUp ∧ (t.axis i).cover = .standing ∧ t.standing i = ⟨h, h⟩
      ∨ (t.axis i).state = .braked ∧ t.waits i = true) := by
  have answered := (Carries.of_leaves (.answer r.state l kind.code tag r.status r.body) {} k).1
  obtain ⟨settled, asked⟩ := answered.settle
  obtain ⟨axis, feed⟩ := r.finish_settled s l kind tag i
  dsimp only
  rw [axis, State.waits_congr feed, State.standing_congr feed]
  refine ⟨settled.claimed, settled.state.symm.imp id fun braked => ⟨braked, asked.resolve_left fun up => ?_⟩⟩
  rw [braked] at up
  cases up

/-- Nothing waits once the event is over where nothing else was due and there was room. -/
theorem Answer.finish_roomy {r : Answer} (h : r.state.Roomy a) (s : State) (l : Link) (kind : Kind) (tag : Byte) (i : AxisId) :
    (r.finish true s l kind tag).waits i = false := by
  have empty := (h.idles (.answer r.state l kind.code tag r.status r.body)).settle.idle.queue
  rw [State.waits_congr (r.finish_settled s l kind tag i).2]
  unfold State.waits
  rw [empty]
  rfl

/-- A HOLD where the bus is not ready, and where it is (R13). -/
theorem hold_event {u : State} {b : ReplyBody} {x : AxisName} (unstowed : (u.stowOf a).state = .unstowed)
    (sound : ∀ x, (u.axis ⟨a, x⟩).state.isFaulted = false) (absent : u.waits ⟨a, x⟩ = false)
    (s : State) (l : Link) (kind : Kind) (tag : Byte) :
    let t := (okWith b (u.holdBoth a)).finish true s l kind tag
    let i : AxisId := ⟨a, x⟩
    ((u.axis i).state ≠ .braked → (t.axis i).claims.operations = true)
    ∧ ((u.axis i).state = .braked → (u.axis i).claims.group = false → (u.axis i).claims.stow = false →
      (u.ready a = false → (t.axis i).state = .braked ∧ (t.axis i).claims.operations = true ∧ t.waits i = false)
      ∧ (u.ready a = true → (∀ b, (u.stowOf b).state ≠ .stopping ∨ u.moving b = true) →
        (∀ j, j.ant ≠ a → (u.axis j).state = .braked → (u.axis j).claims.any = false) →
        (u.feed.queue = [] → u.feed.shed.classes = none → (∀ b, u.waitsForWave b = false) →
          (((u.axis ⟨a, .az⟩).record.hold + (u.axis ⟨a, .el⟩).record.hold : Nat) : Int) ≤ u.freeRoom →
          (t.axis i).state = .torqueUp ∧ (t.axis i).claims.operations = true ∧ (t.axis i).cover = .standing
          ∧ t.standing i = ⟨(u.axis i).record.hold, (u.axis i).record.hold⟩)
        ∧ (u.feed.queue.length ≤ 14 → (t.axis i).claims.operations = true
          ∧ ((t.axis i).state = .torqueUp ∨ (t.axis i).state = .braked ∧ t.waits i = true)))) := by
  dsimp only
  let r := okWith b (u.holdBoth a)
  have energizes := u.holdBoth_energizes sound
  refine ⟨fun up => ?_, fun braked group stow => ⟨fun dead => ?_, fun ready rests others => ?_⟩⟩
  · have stowed : (r.state.stowOf a).state = .unstowed := by
      show ((u.holdBoth a).stowOf a).state = _
      rw [energizes.enables.away]
      exact unstowed
    have free : r.state.waits ⟨a, x⟩ = false := by
      show (u.holdBoth a).waits ⟨a, x⟩ = false
      unfold State.waits
      rw [energizes.enables.queue]
      exact absent
    have awake : (r.state.axis ⟨a, x⟩).state ≠ .braked := by
      show ((u.holdBoth a).axis ⟨a, x⟩).state ≠ .braked
      by_cases off : (u.axis ⟨a, x⟩).state = .off
      · rcases energizes.enables.asleep _ off with e | e <;> rw [e] <;> nofun
      · rw [Axis.core_state (energizes.enables.core _ off)]
        exact up
    have steady : r.state.steady ⟨a, x⟩ := by
      refine ⟨free, ?_⟩
      unfold State.quiet
      rw [stowed]
      cases e : (r.state.axis ⟨a, x⟩).state
      case off => exact ⟨nofun, nofun⟩
      case braked => exact absurd e awake
      case torqueUp | holding | braking => exact nofun
      all_goals trivial
    exact (r.finish_calm s l kind tag).keeps _ steady (by rw [stowed]; nofun) .operations nofun (u.holdBoth_claims sound x)
  · have off : u.live a = false := by
      have clear : u.anyFaulted a = false := State.anyFaulted_eq_false.2 sound
      have both : (u.live a && !u.anyFaulted a) = false := dead
      rw [clear] at both
      simpa using both
    have abides := (holdBoth_abides u unstowed sound absent braked off).leaves
      (.answer _ l kind.code tag r.status r.body) {}
    obtain ⟨axis, feed⟩ := r.finish_settled s l kind tag ⟨a, x⟩
    show ((r.finish true s l kind tag).axis _).state = _ ∧ ((r.finish true s l kind tag).axis _).claims.operations = _
      ∧ (r.finish true s l kind tag).waits _ = _
    rw [axis, State.waits_congr feed]
    exact ⟨abides.settle.braked, abides.settle.claimed, abides.settle.absent⟩
  · refine ⟨fun empty unshed waves room => ?_, fun places => ?_⟩
    · have seeks := holdBoth_seeks u unstowed ready absent braked group stow others (by rw [empty]; decide)
      have idle : u.Idle := ⟨empty, fun b stopping => (rests b).resolve_left fun other => other stopping, waves⟩
      have free := Answer.finish_roomy (r := r) (holdBoth_roomy u ready idle unshed others room) s l kind tag ⟨a, x⟩
      obtain ⟨claimed, ⟨up, cover, grant⟩ | ⟨-, waits⟩⟩ := Answer.finish_seeks (r := r) seeks s l kind tag
      · exact ⟨up, claimed, cover, grant⟩
      · exact absurd (free.symm.trans waits) Bool.false_ne_true
    · have seeks := holdBoth_seeks u unstowed ready absent braked group stow others places
      obtain ⟨claimed, ⟨up, -⟩ | waits⟩ := Answer.finish_seeks (r := r) seeks s l kind tag
      · exact ⟨claimed, .inl up⟩
      · exact ⟨claimed, .inr waits⟩

/-- Settles O25: ON and HOLD by what an ENABLE and a claim make of bus and axes, OFF by its bus. -/
theorem axisEnableDrivesTheBus : Obligations.AxisEnableDrivesTheBus := by
  unfold Obligations.AxisEnableDrivesTheBus
  intro s tag a
  refine ⟨fun c which ok => ?_, fun ok => ?_⟩
  · simp only [List.mem_cons, List.not_mem_nil, or_false] at which
    rcases which with rfl | rfl
    · obtain ⟨l, k, tag', r, of, on, run, a', known, made⟩ := axisEnableOn_served.admitted ok
      obtain rfl : a' = a := by simpa using known.symm
      subst made
      have e : Energizes a' (s.takeFrame l) (okWith .empty ((s.takeFrame l).enableBus a')).state :=
        State.enableBus_energizes ..
      obtain ⟨enable, charge, stays⟩ := e.finish s l k tag'
      exact ⟨_, run, Answer.finish_answers of, enable, charge, stays, nofun⟩
    · obtain ⟨l, k, tag', r, of, on, run, a', known, made⟩ := axisEnableHold_served.admitted ok
      obtain rfl : a' = a := by simpa using known.symm
      subst made
      have rows := State.admits_rows ok
      have clear : s.anyFaulted a' = false := by
        have row := rows (!s.anyFaulted a', .badState) (by
          show _ ∈ antChecks a'.num _
          rw [antChecks_of known]
          simp)
        simpa using row
      have sound : ∀ x, ((s.takeFrame l).axis ⟨a', x⟩).state.isFaulted = false := State.anyFaulted_eq_false.1 clear
      have e : Energizes a' (s.takeFrame l) (okWith .empty ((s.takeFrame l).holdBoth a')).state :=
        State.holdBoth_energizes sound
      obtain ⟨enable, charge, stays⟩ := e.finish s l k tag'
      exact ⟨_, run, Answer.finish_answers of, enable, charge, stays, fun _ unstowed x absent =>
        hold_event (u := s.takeFrame l) unstowed sound absent s l k tag'⟩
  · obtain ⟨l, k, tag', r, of, on, run, a', known, made⟩ := axisEnableOff_served.admitted ok
    obtain rfl : a' = a := by simpa using known.symm
    subst made
    have rows := State.admits_rows ok
    have unstowed : (s.stowOf a').state = .unstowed := by
      have row := rows (decide ((s.stowOf a').state = .unstowed), .stowing) (by
        show _ ∈ antChecks a'.num _
        rw [antChecks_of known]
        simp)
      simpa using row
    let u := s.takeFrame l
    have quiet (stow : (u.disable a').stow = u.stow) : (u.disable a').quiet a' := by
      unfold State.quiet State.stowOf
      rw [stow]
      show (s.stowOf a').state ≠ _ ∧ (s.stowOf a').state ≠ _
      rw [unstowed]
      exact ⟨nofun, nofun⟩
    let r := okWith .empty (u.disable a')
    refine ⟨_, run, Answer.finish_answers of, fun charging => ?_, fun up => ⟨fun x ready => ?_, fun braked => ?_⟩⟩
    · obtain ⟨bus, stow, axes⟩ := u.disable_precharge charging
      have unbound : (r.state.ants.get a').disabling = false := by
        show ((u.disable a').ants.get a').disabling = false
        unfold Antenna.disabling
        rw [bus]
        rfl
      refine ⟨((r.finish_calm s l k tag').power a' unbound (.inl (quiet stow))).1.trans bus, fun x charged => ?_⟩
      obtain ⟨off, idle⟩ := axes x charged
      obtain ⟨core, claimless⟩ := r.finish_claimless (i := ⟨a', x⟩) s l k tag' (quiet stow) idle fun _ => unbound
      exact ⟨(Axis.core_state core).trans off, claimless⟩
    · obtain ⟨braking, pending, idle, stow⟩ := u.disable_ready up ready
      obtain ⟨core, claimless⟩ := r.finish_claimless (i := ⟨a', x⟩) s l k tag' (quiet stow) idle
        fun rests => by rw [show (r.state.axis ⟨a', x⟩).state = .braking from braking] at rests; cases rests
      exact ⟨(Axis.core_state core).trans braking, (Axis.core_pendingStop core).trans pending, claimless⟩
    · obtain ⟨disabled, stow, axes⟩ := u.disable_braked up braked
      let v := r.state.answer l k.code tag' r.status r.body
      have settled : (v.settle.ants.get a').bus = .off ∧ ∀ x, (v.settle.axis ⟨a', x⟩).state = .off :=
        State.disabled_settles (s := v) disabled (quiet stow) (fun x => (axes x).1) fun x => (axes x).2
      have ants : (r.finish true s l k tag').ants = v.settle.ants := announce_ants ..
      refine ⟨by rw [ants]; exact settled.1, fun x => (congrArg Axis.state (r.finish_settled s l k tag' ⟨a', x⟩).1).trans (settled.2 x)⟩

end Sys2Proof.Machine
end

