-- ==== Sys2Proof/Proofs/WaveForms.lean ====
section
/-! PROOFS. The formation of a wave (R128): whom it admits, and what an admission gives. -/

namespace Sys2Proof.Machine

variable {s t u : State} {a : Ant}

/-! ### The figures of a stow (R41) -/

theorem Follows.clock (h : Follows s t) : t.clock = s.clock := h.touches.same .clock (by decide)

theorem Follows.now (h : Follows s t) : t.now = s.now := by unfold State.now; rw [h.clock]

theorem Follows.field (h : Follows s t) : t.field = s.field := h.touches.same .field (by decide)

theorem Follows.wind (h : Follows s t) : t.wind = s.wind := h.touches.same .wind (by decide)

theorem Follows.record (h : Follows s t) (i : AxisId) : (t.axis i).record = (s.axis i).record :=
  congrArg Prod.fst ((h.touches.same .axisSettings (by decide)).1 i)

theorem Follows.position (h : Follows s t) (i : AxisId) : (t.axis i).position = (s.axis i).position :=
  (h.touches.same .places (by decide) i).1

theorem Follows.limitA (h : Follows s t) (i : AxisId) : t.limitA i = s.limitA i := by
  have ice : t.heat.ice = s.heat.ice := h.touches.same .ice (by decide)
  unfold State.limitA State.iceClass State.ice
  rw [h.record, ice]

theorem Follows.stowTarget (h : Follows s t) (a : Ant) : t.stowTarget a = s.stowTarget a := by
  unfold State.stowTarget
  rw [h.record, h.wind]

theorem Follows.stowDistance (h : Follows s t) (a : Ant) : t.stowDistance a = s.stowDistance a := by
  unfold State.stowDistance
  rw [h.stowTarget, h.position]

theorem Follows.stowDemand (h : Follows s t) (a : Ant) : t.stowDemand a = s.stowDemand a := by
  unfold State.stowDemand
  simp only [h.record, h.stowDistance, h.limitA]

theorem Follows.waveTime (h : Follows s t) (ants : List Ant) : t.waveTime ants = s.waveTime ants := by
  unfold State.waveTime
  simp only [h.record, h.stowDistance, h.limitA]

theorem Follows.waveLine (h : Follows s t) (tg0 : Nat) (a : Ant) : t.waveLine tg0 a = s.waveLine tg0 a := by
  unfold State.waveLine
  simp only [h.record, h.position, h.stowDistance, h.stowTarget, h.limitA]

/-! ### What the grant of an admission leaves -/

/-- An admission asks nothing of the stow records and the wave, and of the wave grants of the others. -/
structure Grants (s t : State) : Prop where
  stow : t.stow = s.stow
  waves : t.feed.waves = s.feed.waves

theorem Grants.trans (h : Grants s t) (k : Grants t u) : Grants s u := ⟨k.stow.trans h.stow, k.waves.trans h.waves⟩

theorem Grants.markFreedIf (s : State) (b : Bool) : Grants s (s.markFreedIf b) :=
  ⟨State.markFreedIf_keeps State.stow .., State.markFreedIf_keeps (fun t => t.feed.waves) ..⟩

theorem Grants.imposeShed (s : State) (o g d : Bool) : Grants s (s.imposeShed o g d) := by
  refine ⟨?_, by rw [State.imposeShed_feed]⟩
  have capped (s : State) (d : Bool) (z : ZoneId) : (s.capZone o d z).stow = s.stow :=
    State.markFreedIf_keeps State.stow _ _ rfl
  unfold State.imposeShed State.raiseIf
  dsimp only
  split
  · exact forEach_keeps State.stow (fun s z => capped s _ z) _ _
  · exact forEach_keeps State.stow (fun s z => capped s _ z) _ _

theorem Grants.makeRoom (s : State) (f : Fit) (d : Bool) : Grants s (s.makeRoom f d) := by
  unfold State.makeRoom
  split
  · exact .imposeShed ..
  · exact .imposeShed ..
  · exact ⟨rfl, rfl⟩

theorem Grants.afterGrant (s : State) (f : Fit) (n : Nat) : Grants s (s.afterGrant f n) := by
  have tested : Grants s s.needTest := by
    unfold State.needTest
    split
    · exact ⟨rfl, rfl⟩
    · split
      · exact .imposeShed ..
      · exact ⟨rfl, rfl⟩
  unfold State.afterGrant
  split
  · exact tested.trans (.markFreedIf ..)
  · exact ⟨rfl, rfl⟩

theorem Grants.foldAxis (s : State) (c : GrantCover) (i : AxisId) : Grants s (s.foldAxis c i) := by
  unfold State.foldAxis
  dsimp only
  split
  · exact ⟨rfl, rfl⟩
  · exact ⟨rfl, rfl⟩

theorem Grants.addClaim (s : State) (i : AxisId) (src : ClaimSource) : Grants s (s.addClaim i src) := by
  have wake (s : State) (i : AxisId) :
      (if (s.axis i).state = .off then s.enterAxis i .precharge else s).feed.waves = s.feed.waves := by
    split
    · exact State.markFreedIf_keeps (fun t => t.feed.waves) ..
    · rfl
  have enabled (s : State) (a : Ant) : (s.enableBus a).feed.waves = s.feed.waves := by
    unfold State.enableBus
    dsimp only
    split
    · exact (wake _ _).trans (wake _ _)
    · rfl
  refine ⟨by rw [(Enables.addClaim s i src).away], ?_⟩
  unfold State.addClaim
  dsimp only
  split
  · split
    · rfl
    · exact enabled ..
  · rfl

theorem State.grantWave_spec (s : State) (a : Ant) (demand : Nat) :
    (s.grantWave a demand).stow = s.stow
    ∧ (s.grantWave a demand).feed.waves = s.feed.waves.set a (some ⟨false, demand,
        ⟨(s.axis ⟨a, .az⟩).record.hold, (s.axis ⟨a, .el⟩).record.hold⟩⟩) := by
  have folded : Grants s ((s.foldAxis .wave ⟨a, .az⟩).foldAxis .wave ⟨a, .el⟩) :=
    (Grants.foldAxis ..).trans (.foldAxis ..)
  exact ⟨folded.stow, congrArg (fun w : Six (Option WaveGrant) => w.set a (some ⟨false, demand,
    ⟨(s.axis ⟨a, .az⟩).record.hold, (s.axis ⟨a, .el⟩).record.hold⟩⟩)) folded.waves⟩

/-! ### One admission -/

/-- The stow grant of an admission (R167). -/
def State.stowGrant (s : State) (a : Ant) : WaveGrant :=
  ⟨false, s.stowDemand a, ⟨(s.axis ⟨a, .az⟩).record.hold, (s.axis ⟨a, .el⟩).record.hold⟩⟩

theorem Follows.stowGrant (h : Follows s t) (a : Ant) : t.stowGrant a = s.stowGrant a := by
  unfold State.stowGrant
  rw [h.record, h.record, h.stowDemand]

/-- The grant of an admission, with the room made for it and what it leaves. -/
def State.waveGranted (s : State) (a : Ant) (f : Fit) : State :=
  ((s.makeRoom f true).grantWave a (s.stowDemand a)).afterGrant f
    ((s.foldable ⟨a, .az⟩) + (s.foldable ⟨a, .el⟩) + s.earlierWave a)

theorem State.waveGranted_spec (s : State) (a : Ant) (f : Fit) : (s.waveGranted a f).stow = s.stow
    ∧ (s.waveGranted a f).feed.waves = s.feed.waves.set a (some (s.stowGrant a)) := by
  have room := Grants.makeRoom s f true
  have record := (Follows.makeRoom s f true).record
  obtain ⟨stow, waves⟩ := (s.makeRoom f true).grantWave_spec a (s.stowDemand a)
  have after : Grants ((s.makeRoom f true).grantWave a (s.stowDemand a)) (s.waveGranted a f) := .afterGrant ..
  rw [after.stow, stow, room.stow, after.waves, waves, room.waves, record, record]
  exact ⟨rfl, rfl⟩

theorem State.waveGranted_still (s : State) (a : Ant) (f : Fit) : Still noAxis s (s.waveGranted a f) :=
  ((Still.makeRoom ..).trans (.grantWave ..)).trans (.afterGrant ..)

/-- A member of the wave, its warning running. -/
def StowRecord.joined (r : StowRecord) (now : Epoch) : StowRecord :=
  { r with member := true, warningTimer := some (r.warningTimer.getD now) }

/-- An admitted antenna before its claims. -/
def State.waveJoined (s : State) (a : Ant) (f : Fit) : State :=
  let t := (s.waveGranted a f).modStow a fun r => { r with member := true }
  if (t.stowOf a).warningTimer.isSome then t else t.setWarning a (some s.now)

theorem State.admitToWave_eq (s : State) (a : Ant) (f : Fit) :
    s.admitToWave a f = ((s.waveJoined a f).addClaim ⟨a, .az⟩ .stow).addClaim ⟨a, .el⟩ .stow := rfl

theorem State.waveJoined_stow (s : State) (a : Ant) (f : Fit) (b : Ant) :
    (s.waveJoined a f).stowOf b = if b = a then (s.stowOf a).joined s.now else s.stowOf b := by
  have granted (b : Ant) : (s.waveGranted a f).stowOf b = s.stowOf b := (s.waveGranted_still a f).stow b
  have marked : ((s.waveGranted a f).modStow a fun r => { r with member := true }).stowOf a
      = { s.stowOf a with member := true } := by
    rw [State.stowOf_modStow, if_pos rfl, granted]
  unfold State.waveJoined
  dsimp only
  rw [marked]
  dsimp only
  split
  next warns =>
    rw [State.stowOf_modStow, granted, granted]
    obtain ⟨e, is⟩ := Option.isSome_iff_exists.1 warns
    unfold StowRecord.joined
    rw [is, Option.getD_some, ← is]
  next quiet =>
    have is : (s.stowOf a).warningTimer = none := Option.not_isSome_iff_eq_none.1 quiet
    unfold State.setWarning State.refreshHorn
    rw [State.stowOf_modHorn_other, State.stowOf_modStow]
    split
    · rw [marked]
      unfold StowRecord.joined
      rw [is, Option.getD_none]
    next other => rw [State.stowOf_modStow, if_neg other, granted]

theorem State.waveJoined_rest (s : State) (a : Ant) (f : Fit) : (s.waveJoined a f).stow.wave = s.stow.wave
    ∧ (s.waveJoined a f).feed = (s.waveGranted a f).feed ∧ (s.waveJoined a f).ants = (s.waveGranted a f).ants := by
  have wave : (s.waveGranted a f).stow.wave = s.stow.wave := congrArg _ (s.waveGranted_spec a f).1
  unfold State.waveJoined
  dsimp only
  split
  · exact ⟨wave, rfl, rfl⟩
  · exact ⟨wave, rfl, rfl⟩

/-! ### The walk (R128) -/

/-- A walk that admits these antennas: each is a member with its warning, its grant and its claims; the others stay. -/
structure Forms (ants : List Ant) (s t : State) : Prop where
  follows : Follows s t
  wave : t.stow.wave = s.stow.wave
  others : ∀ b ∉ ants, t.stowOf b = s.stowOf b ∧ t.feed.waves.get b = s.feed.waves.get b
  joined : ∀ b ∈ ants, t.stowOf b = (s.stowOf b).joined s.now ∧ t.feed.waves.get b = some (s.stowGrant b)
  claimed : ∀ b ∈ ants, ∀ x, (s.axis ⟨b, x⟩).state.isFaulted = false →
    (t.axis ⟨b, x⟩).claims.has .stow = true ∧ (t.ants.get b).bus ≠ .off
  claims : ∀ i, (s.axis i).claims.has .stow = true → (t.axis i).claims.has .stow = true
  bus : ∀ b, (s.ants.get b).bus ≠ .off → (t.ants.get b).bus ≠ .off
  sound : ∀ i, (s.axis i).state.isFaulted = false → (t.axis i).state.isFaulted = false

theorem Forms.refl (s : State) : Forms [] s s :=
  ⟨.refl s, rfl, fun _ _ => ⟨rfl, rfl⟩, by simp, by simp, fun _ => id, fun _ => id, fun _ => id⟩

theorem Forms.cons {ants : List Ant} (fresh : a ∉ ants) (h : Forms [a] s t) (k : Forms ants t u) :
    Forms (a :: ants) s u where
  follows := h.follows.trans k.follows
  wave := k.wave.trans h.wave
  others b far := by
    obtain ⟨first, rest⟩ := not_or.1 (List.mem_cons.not.1 far)
    obtain ⟨stow, waves⟩ := h.others b (by simpa using first)
    obtain ⟨stow', waves'⟩ := k.others b rest
    exact ⟨stow'.trans stow, waves'.trans waves⟩
  joined b mem := by
    rcases List.mem_cons.1 mem with rfl | later
    · obtain ⟨stow, waves⟩ := h.joined b (by simp)
      obtain ⟨stow', waves'⟩ := k.others b fresh
      exact ⟨stow'.trans stow, waves'.trans waves⟩
    · have far : b ∉ [a] := by
        rintro own
        exact fresh (List.mem_singleton.1 own ▸ later)
      obtain ⟨stow, -⟩ := h.others b far
      obtain ⟨stow', waves'⟩ := k.joined b later
      rw [stow', waves', stow, h.follows.now, h.follows.stowGrant]
      exact ⟨rfl, rfl⟩
  claimed b mem x sound := by
    rcases List.mem_cons.1 mem with rfl | later
    · obtain ⟨claim, bus⟩ := h.claimed b (by simp) x sound
      exact ⟨k.claims _ claim, k.bus _ bus⟩
    · exact k.claimed b later x (h.sound _ sound)
  claims i := k.claims i ∘ h.claims i
  bus b := k.bus b ∘ h.bus b
  sound i := k.sound i ∘ h.sound i

theorem Enables.bus_on (h : Enables s t) (b : Ant) (on : (s.ants.get b).bus ≠ .off) : (t.ants.get b).bus ≠ .off := by
  rw [h.bus b on]
  exact on

theorem Forms.admitToWave (s : State) (a : Ant) (f : Fit) : Forms [a] s (s.admitToWave a f) := by
  let g := s.waveGranted a f
  let j := s.waveJoined a f
  let v := j.addClaim ⟨a, .az⟩ .stow
  have still : Still noAxis s g := s.waveGranted_still a f
  obtain ⟨wave, feed, ants⟩ := s.waveJoined_rest a f
  have axis (i : AxisId) : j.axis i = g.axis i := by
    unfold State.axis
    rw [show j.ants = g.ants from ants]
  have state (i : AxisId) : (j.axis i).state = (s.axis i).state := by
    rw [axis]
    exact Axis.core_state (still.core i id)
  have az : Enables j v := .addClaim ..
  have el : Enables v (s.admitToWave a f) := .addClaim ..
  have both := az.trans el
  have grants : Grants j (s.admitToWave a f) := (Grants.addClaim j ⟨a, .az⟩ .stow).trans (.addClaim v ⟨a, .el⟩ .stow)
  have waves : (s.admitToWave a f).feed.waves = s.feed.waves.set a (some (s.stowGrant a)) := by
    rw [grants.waves, show j.feed = g.feed from feed]
    exact (s.waveGranted_spec a f).2
  have stowOf (b : Ant) : (s.admitToWave a f).stowOf b = if b = a then (s.stowOf a).joined s.now else s.stowOf b := by
    unfold State.stowOf
    rw [grants.stow]
    exact s.waveJoined_stow a f b
  refine ⟨.admitToWave .., (congrArg Stow.wave grants.stow).trans wave, fun b far => ?_, fun b own => ?_, fun b own x sound => ?_,
    fun i has => both.claims i .stow ?_, fun b on => both.bus_on b ?_, fun i sound => both.sound ((congrArg _ (state i)).trans sound)⟩
  · have other : b ≠ a := fun e => far (List.mem_singleton.2 e)
    rw [stowOf, waves, Six.get_set, if_neg other, if_neg other]
    exact ⟨rfl, rfl⟩
  · obtain rfl : b = a := List.mem_singleton.1 own
    rw [stowOf, waves, Six.get_set, if_pos rfl, if_pos rfl]
    exact ⟨rfl, rfl⟩
  · obtain rfl : b = a := List.mem_singleton.1 own
    have sound : (j.axis ⟨b, x⟩).state.isFaulted = false := (congrArg _ (state _)).trans sound
    cases x
    · obtain ⟨claim, on⟩ := State.addClaim_takes (s := j) (src := .stow) sound
      exact ⟨el.claims _ _ claim, el.bus_on _ (on nofun).2⟩
    · obtain ⟨claim, on⟩ := State.addClaim_takes (s := v) (src := .stow) (az.sound sound)
      exact ⟨claim, (on nofun).2⟩
  · rw [axis]
    exact still.keeps i id .stow nofun has
  · rw [show j.ants = g.ants from ants, Antenna.power_bus (still.power b)]
    exact on

/-- The walk admits from the front of those that wait, up to the first whose stow demand does not fit (R128). -/
theorem State.walkWave_forms {xs : List Ant} (once : xs.Nodup) (s : State) :
    Forms (s.walkWave xs).1 s (s.walkWave xs).2
    ∧ ∃ k, (s.walkWave xs).1 = (xs.filter s.waitsForWave).take k
      ∧ ∀ a, (xs.filter s.waitsForWave)[k]? = some a → (s.walkWave xs).2.stowFit a = .short := by
  induction xs generalizing s with
  | nil => exact ⟨.refl s, 0, rfl, by simp⟩
  | cons a rest ih =>
    obtain ⟨fresh, once⟩ := List.nodup_cons.1 once
    unfold State.walkWave
    split
    next idle => rw [List.filter_cons_of_neg (by simpa using idle)]; exact ih once s
    next waits =>
      rw [List.filter_cons_of_pos (by simpa using waits)]
      split
      next short =>
        refine ⟨.refl s, 0, rfl, fun b first => ?_⟩
        obtain rfl : a = b := by simpa using first
        exact short
      next fits =>
        let t := s.admitToWave a (s.stowFit a)
        have admitted : Forms [a] s t := .admitToWave ..
        have same : rest.filter t.waitsForWave = rest.filter s.waitsForWave := by
          refine List.filter_congr fun b mem => ?_
          have far : b ∉ [a] := by
            rintro own
            exact fresh (List.mem_singleton.1 own ▸ mem)
          unfold State.waitsForWave
          rw [(admitted.others b far).1]
        obtain ⟨formed, k, taken, refused⟩ := ih once t
        rw [same] at taken refused
        refine ⟨admitted.cons (fun mem => fresh ?_) formed, k + 1, ?_, refused⟩
        · rw [taken] at mem
          exact List.mem_of_mem_filter (List.mem_of_mem_take mem)
        · exact congrArg (a :: ·) taken

theorem Follows.waveOf (h : Follows s t) (ants : List Ant) : t.waveOf ants = s.waveOf ants := by
  unfold State.waveOf
  rw [h.waveTime, funext (h.waveLine _)]

/-- A formation is a walk, and the wave record of the antennas it admits (R128). -/
theorem State.formWave_forms (none_ : s.stow.wave = none) (once : s.wind.record.order.Nodup) :
    ∃ k r, Forms ((s.wind.record.order.filter s.waitsForWave).take k) s r
      ∧ (∀ a, (s.wind.record.order.filter s.waitsForWave)[k]? = some a → r.stowFit a = .short)
      ∧ s.formWave = if ((s.wind.record.order.filter s.waitsForWave).take k).isEmpty then r
          else r.setWave (some (s.waveOf ((s.wind.record.order.filter s.waitsForWave).take k))) := by
  obtain ⟨formed, k, taken, refused⟩ := State.walkWave_forms once s
  rw [taken] at formed
  refine ⟨k, _, formed, refused, ?_⟩
  unfold State.formWave
  rw [if_neg (by rw [none_]; exact nofun)]
  dsimp only
  rw [taken, formed.follows.waveOf]

end Sys2Proof.Machine
end

