-- ==== Sys2Proof/Proofs/PinMoves.lean ====
section
/-! PROOFS. The pin and its switches (R131, R132, R135), and the wave's start (R129). -/

namespace Sys2Proof.Machine

variable {s t u : State} {a : Ant}

/-! ### What follows an event -/

/-- What follows an event leaves a stow record that is decided by no formation and no coming to rest. -/
theorem event_quiet {body : State → State} {r : StowRecord} (is : (body s).stowOf a = r) (stop : r.state ≠ .stopping)
    (wait : r.state ≠ .waiting) : (event s body).stowOf a = r := by
  subst is
  exact (event_calm s body).stow a ⟨stop, wait⟩

/-- An event whose row reaches one block alone. -/
theorem occurAlone_on (on : s.powered = true) (due : Bool) (body : State → State) :
    occurAlone s due body = .next (if due then announce s (body s) else s) := by
  rw [occurAlone, onPower, if_pos on]

/-! ### Put down at the pin (R123) -/

theorem State.putDown_stow (s : State) (a : Ant) (b : Ant) : (s.putDown a).stowOf b = s.stowOf b :=
  (Still.stopBoth s a .stow .braked).stow b

/-- A ready axis that is put down brakes, without claims (R123). -/
theorem State.putDown_ready {x : AxisName} (ready : (s.axis ⟨a, x⟩).ready = true) :
    ((s.putDown a).axis ⟨a, x⟩).state = .braking ∧ ((s.putDown a).axis ⟨a, x⟩).pendingStop = some ⟨some .stow, .braked⟩
    ∧ ((s.putDown a).axis ⟨a, x⟩).claims.any = false := by
  have first := AxisAlone.stopAxis (i := ⟨a, .az⟩) s .stow .braked
  have second := AxisAlone.stopAxis (i := ⟨a, .el⟩) (s.stopAxis ⟨a, .az⟩ .stow .braked) .stow .braked
  have down : s.putDown a = (s.stopAxis ⟨a, .az⟩ .stow .braked).stopAxis ⟨a, .el⟩ .stow .braked := rfl
  rw [down]
  cases x
  · rw [(second.away ⟨a, .az⟩ nofun).1]
    exact State.stopAxis_ready ready .stow nofun
  · refine State.stopAxis_ready ?_ .stow nofun
    rw [(first.away ⟨a, .el⟩ nofun).1]
    exact ready

/-- Put down with a record that is decided, a ready axis brakes once the event is over. -/
theorem event_putDown {body : State → State} {u : State} {x : AxisName} (is : body s = u.putDown a) (quiet : u.quiet a)
    (ready : (u.axis ⟨a, x⟩).ready = true) : ((event s body).axis ⟨a, x⟩).state = .braking
      ∧ ((event s body).axis ⟨a, x⟩).pendingStop = some ⟨some .stow, .braked⟩ := by
  obtain ⟨braking, pending, idle⟩ := State.putDown_ready ready
  rw [← is] at braking pending idle
  have quiet' : (body s).quiet a := by
    rw [is]
    exact quiet.of_stow (u.putDown_stow a a)
  obtain ⟨core, -⟩ := State.settle_claimless (i := ⟨a, x⟩) quiet' idle
    fun rests => by rw [braking] at rests; cases rests
  rw [event_axis]
  exact ⟨(Axis.core_state core).trans braking, (Axis.core_pendingStop core).trans pending⟩

/-! ### The records of the pin's moves -/

theorem State.goStowed_record (s : State) (a : Ant) :
    (s.goStowed a).stowOf a = { s.stowOf a with state := .stowed, pinTimer := none } := by
  unfold State.goStowed
  rw [State.putDown_stow, State.stowOf_modStow, if_pos rfl]

theorem State.goPinFailed_record (s : State) (a : Ant) :
    (s.goPinFailed a).stowOf a = { s.stowOf a with state := .pinFailed, pinTimer := none, warmingTimer := none } := by
  unfold State.goPinFailed
  rw [State.putDown_stow, State.stowOf_modStow, if_pos rfl]

theorem State.goInserting_record (s : State) (a : Ant) : ((s.goInserting a).stowOf a).pinIn = true
    ∧ ((s.goInserting a).stowOf a).warmingTimer = none
    ∧ ((s.goInserting a).stowOf a).member = (s.stowOf a).member := by
  unfold State.goInserting
  dsimp only
  split
  · rw [State.goStowed_record, State.stowOf_modStow, if_pos rfl]
    exact ⟨rfl, rfl, rfl⟩
  · rw [State.stowOf_modStow, if_pos rfl]
    exact ⟨rfl, rfl, rfl⟩

theorem State.refreshZone_away (s : State) (z : ZoneId) :
    s.refreshZone z = { s with heat := (s.refreshZone z).heat, scratch := (s.refreshZone z).scratch } := by
  unfold State.refreshZone State.lowerZone State.markFreedIf
  dsimp only
  split <;> rfl

theorem State.endForce_away (s : State) (a : Ant) : (s.endForce a).stow = s.stow ∧ (s.endForce a).ants = s.ants
    ∧ (s.endForce a).field = s.field := by
  unfold State.endForce
  rw [State.refreshZone_away]
  exact ⟨rfl, rfl, rfl⟩

theorem State.endForce_forced (s : State) (a : Ant) : ((s.endForce a).zone ⟨a, .pin⟩).forced = false := by
  let t := s.modZone ⟨a, .pin⟩ fun z => { z with forced := false }
  have kept := ((t.formLevel ⟨a, .pin⟩).lowerZone_keeps true ⟨a, .pin⟩ ⟨a, .pin⟩).2.1
  have own : ((t.formLevel ⟨a, .pin⟩).zone ⟨a, .pin⟩).forced = false := by
    rw [State.formLevel, State.zone_modZone, if_pos rfl, State.zone_modZone, if_pos rfl]
  exact (congrArg (fun r => r.2.2.1) kept).trans own

/-- What moves axes and records alone, and what follows it, leaves the PIN force. -/
theorem event_forced {body : State → State} {u : State} (h : Follows u (body s)) (z : ZoneId) :
    ((event s body).zone z).forced = (u.zone z).forced := by
  have event := event_same (p := .zoneRequests) s body (by decide) z
  have moved := h.touches.same .zoneRequests (by decide) z
  exact congrArg (fun r => r.2.2.1) (event.trans moved)

/-! ### The pin zone's reading (R131) -/

theorem Zone.readsAtLeast_iff {z : Zone} {temp least : Int} (reading : z.reading = some temp) :
    z.readsAtLeast least = true ↔ z.healthy = true ∧ least ≤ temp := by
  unfold Zone.readsAtLeast
  rw [reading]
  cases z.healthy <;> simp

/-- A PIN reading takes the zone's reading and health, and leaves its force. -/
theorem State.heaterStep_pin (s : State) (a : Ant) (temp : Int) : ∃ v : State, s.heaterStep ⟨a, .pin⟩ temp = v.warmed a
    ∧ v.stow = s.stow ∧ (v.field.ants.get a).pinIn = (s.field.ants.get a).pinIn
    ∧ (v.zone ⟨a, .pin⟩).forced = (s.zone ⟨a, .pin⟩).forced
    ∧ ((v.zone ⟨a, .pin⟩).readsAtLeast 20 = true ↔ 20 ≤ temp ∧ temp ≤ 800) := by
  obtain ⟨v, body, zone, stow, -, -, field⟩ := s.heaterStep_reads ⟨a, .pin⟩ temp
  refine ⟨v, body, stow, ?_, ?_, ?_⟩
  · rw [field]
    simp [State.modAntIn]
  · rw [zone]
    unfold State.fallen Zone.lowerTo
    split <;> rfl
  · obtain ⟨-, -, -, -, reading, healthy, -⟩ := s.fallen_figures ⟨a, .pin⟩ temp
    have read : (v.zone ⟨a, .pin⟩).reading = some temp := by rw [zone]; exact reading
    have well : (v.zone ⟨a, .pin⟩).healthy = sensorGood temp := by rw [zone]; exact healthy
    rw [Zone.readsAtLeast_iff read, well]
    unfold sensorGood
    rw [Bool.and_eq_true, decide_eq_true_iff, decide_eq_true_iff]
    omega

theorem heaterStep_pinRow (on : s.powered = true) (warming : (s.stowOf a).state = .pinWarming) (temp : Int) :
    ∃ t, exec (.heaterStep ⟨a, .pin⟩ temp) s = .next t
      ∧ (20 ≤ temp → temp ≤ 800 → (t.zone ⟨a, .pin⟩).forced = false ∧ (t.stowOf a).pinIn = true
        ∧ (t.stowOf a).warmingTimer = none ∧ (t.stowOf a).state =
          if (s.field.ants.get a).pinIn then .stowed else .pinInserting)
      ∧ (temp < 20 ∨ 800 < temp → (t.zone ⟨a, .pin⟩).forced = (s.zone ⟨a, .pin⟩).forced
        ∧ t.stowOf a = s.stowOf a) := by
  obtain ⟨v, body, stow, pin, forced, warm⟩ := s.heaterStep_pin a temp
  let f := fun s : State => s.heaterStep ⟨a, .pin⟩ temp
  have own : v.stowOf a = s.stowOf a := by unfold State.stowOf; rw [stow]
  refine ⟨event s f, occur_due on rfl, fun low high => ?_, fun out => ?_⟩
  · have ended : f s = (v.endForce a).goInserting a :=
      body.trans (if_pos ⟨by rw [own]; exact warming, warm.2 ⟨low, high⟩⟩)
    obtain ⟨-, -, field⟩ := v.endForce_away a
    obtain ⟨pinIn, timer, -⟩ := (v.endForce a).goInserting_record a
    have state := (v.endForce a).goInserting_state a
    rw [← ended] at pinIn timer state
    rw [field, pin] at state
    have kept : (event s f).stowOf a = (f s).stowOf a := by
      refine event_quiet rfl ?_ ?_
      all_goals rw [state]; split <;> nofun
    refine ⟨?_, ?_, ?_, ?_⟩
    · have moved : Follows (v.endForce a) (f s) := ended.symm ▸ Follows.goInserting ..
      exact (event_forced moved _).trans (v.endForce_forced a)
    · exact (congrArg StowRecord.pinIn kept).trans pinIn
    · exact (congrArg StowRecord.warmingTimer kept).trans timer
    · exact (congrArg StowRecord.state kept).trans state
  · have cool : f s = v := body.trans (if_neg fun h => by
      have := warm.1 h.2
      omega)
    refine ⟨?_, ?_⟩
    · have moved : Follows v (f s) := cool.symm ▸ Follows.refl v
      exact (event_forced moved _).trans forced
    · have same : (f s).stowOf a = s.stowOf a := by rw [cool, own]
      exact event_quiet same (by rw [warming]; nofun) (by rw [warming]; nofun)

/-! ### The pin's limits and switches (R131, R132, R135) -/

theorem pinWarmingTimeout_row {e : Epoch} (on : s.powered = true) (warming : (s.stowOf a).state = .pinWarming)
    (runs : (s.stowOf a).warmingTimer = some e) (late : e + 600000 ≤ s.now) :
    ∃ t, exec (.pinWarmingTimeout a) s = .next t ∧ (t.zone ⟨a, .pin⟩).forced = false
      ∧ t.stowOf a = { s.stowOf a with state := .pinFailed, pinTimer := none, warmingTimer := none }
      ∧ ∀ ax, (s.axis ⟨a, ax⟩).ready = true → (t.axis ⟨a, ax⟩).state = .braking
        ∧ (t.axis ⟨a, ax⟩).pendingStop = some ⟨some .stow, .braked⟩ := by
  obtain ⟨stow, ants, -⟩ := s.endForce_away a
  have own : (s.endForce a).stowOf a = s.stowOf a := by unfold State.stowOf; rw [stow]
  have due : s.warmingOver a = true := by
    unfold State.warmingOver
    rw [warming, passed_of ⟨e, runs, late⟩]
    rfl
  have record := (s.endForce a).goPinFailed_record a
  rw [own] at record
  refine ⟨_, occur_due on due, ?_, event_quiet record nofun nofun, fun x ready => ?_⟩
  · have moved : Follows (s.endForce a) ((s.endForce a).goPinFailed a) := .goPinFailed ..
    exact (event_forced (body := fun s => (s.endForce a).goPinFailed a) moved _).trans (s.endForce_forced a)
  · refine event_putDown (a := a) rfl ⟨?_, ?_⟩ ?_
    · rw [State.stowOf_modStow, if_pos rfl]; nofun
    · rw [State.stowOf_modStow, if_pos rfl]; nofun
    · show ((s.endForce a).axis ⟨a, x⟩).ready = true
      unfold State.axis
      rw [ants]
      exact ready

theorem pinInSwitchMade_row (on : s.powered = true) (inserting : (s.stowOf a).state = .pinInserting) :
    ∃ t, exec (.pinInSwitchMade a) s = .next t ∧ (t.field.ants.get a).pinIn = true
      ∧ t.stowOf a = { s.stowOf a with state := .stowed, pinTimer := none }
      ∧ ∀ ax, (s.axis ⟨a, ax⟩).ready = true → (t.axis ⟨a, ax⟩).state = .braking
        ∧ (t.axis ⟨a, ax⟩).pendingStop = some ⟨some .stow, .braked⟩ := by
  let u := s.modAntIn a fun v => { v with pinIn := true }
  let f := fun s : State =>
    let t := s.modAntIn a fun v => { v with pinIn := true }
    if (t.stowOf a).state = .pinInserting then t.goStowed a else t
  have body : f s = u.goStowed a := if_pos inserting
  refine ⟨event s f, occur_due on rfl, ?_, event_quiet (body := f) ?_ nofun nofun, fun x ready => ?_⟩
  · have field : (event s f).field = u.field :=
      (event_same (p := .field) s f (by decide)).trans (body ▸ (Follows.goStowed u a).field)
    rw [field]
    simp [u, State.modAntIn]
  · rw [body]
    exact u.goStowed_record a
  · refine event_putDown (a := a) (body := f) body ⟨?_, ?_⟩ ready
    · rw [State.stowOf_modStow, if_pos rfl]; nofun
    · rw [State.stowOf_modStow, if_pos rfl]; nofun

theorem pinInsertTimeout_row {e : Epoch} (on : s.powered = true) (inserting : (s.stowOf a).state = .pinInserting)
    (runs : (s.stowOf a).pinTimer = some e) (late : e + 20000 ≤ s.now) (out : (s.field.ants.get a).pinIn = false) :
    ∃ t, exec (.pinInsertTimeout a) s = .next t
      ∧ t.stowOf a = { s.stowOf a with state := .pinFailed, pinTimer := none, warmingTimer := none } := by
  have due : s.insertOver a = true := by
    unfold State.insertOver
    rw [inserting, out, passed_of ⟨e, runs, late⟩]
    rfl
  exact ⟨_, occur_due on due, event_quiet (s.goPinFailed_record a) nofun nofun⟩

theorem pinInSwitchOpened_row (on : s.powered = true) :
    ∃ t, exec (.pinInSwitchOpened a) s = .next t ∧ (t.field.ants.get a).pinIn = false
      ∧ t.stowOf a = if (s.stowOf a).state = .stowed then { s.stowOf a with state := .pinFailed } else s.stowOf a := by
  let u := s.modAntIn a fun v => { v with pinIn := false }
  refine ⟨_, occurAlone_on on true _, ?_⟩
  show ((if (s.stowOf a).state = .stowed then u.setStow a .pinFailed else u).field.ants.get a).pinIn = false
    ∧ (if (s.stowOf a).state = .stowed then u.setStow a .pinFailed else u).stowOf a = _
  have field : (u.field.ants.get a).pinIn = false := by simp [u, State.modAntIn]
  split
  · exact ⟨field, (State.stowOf_modStow ..).trans (if_pos rfl)⟩
  · exact ⟨field, rfl⟩

theorem pinOutSwitchMade_row (on : s.powered = true) :
    ∃ t, exec (.pinOutSwitchMade a) s = .next t ∧ (t.field.ants.get a).pinOut = true
      ∧ t.stowOf a = if (s.stowOf a).state = .pinWithdrawing then
          { s.stowOf a with state := .unstowed, pinTimer := none } else s.stowOf a := by
  let u := s.modAntIn a fun v => { v with pinOut := true }
  refine ⟨_, occurAlone_on on true _, ?_⟩
  show ((if (s.stowOf a).state = .pinWithdrawing then u.endWithdrawal a else u).field.ants.get a).pinOut = true
    ∧ (if (s.stowOf a).state = .pinWithdrawing then u.endWithdrawal a else u).stowOf a = _
  have field : (u.field.ants.get a).pinOut = true := by simp [u, State.modAntIn]
  split
  · exact ⟨field, (State.stowOf_modStow ..).trans (if_pos rfl)⟩
  · exact ⟨field, rfl⟩

theorem pinWithdrawTimeout_row {e : Epoch} (on : s.powered = true) (leaving : (s.stowOf a).state = .pinWithdrawing)
    (runs : (s.stowOf a).pinTimer = some e) (late : e + 20000 ≤ s.now) (in_ : (s.field.ants.get a).pinOut = false) :
    ∃ t, exec (.pinWithdrawTimeout a) s = .next t
      ∧ t.stowOf a = { s.stowOf a with state := .pinFailed, pinTimer := none } := by
  have due : s.withdrawOver a = true := by
    unfold State.withdrawOver
    rw [leaving, in_, passed_of ⟨e, runs, late⟩]
    rfl
  refine ⟨_, occurAlone_on on _ _, ?_⟩
  rw [due]
  let failed (r : StowRecord) : StowRecord := { r with state := .pinFailed, pinTimer := none }
  show (s.modStow a failed).stowOf a = _
  rw [State.stowOf_modStow, if_pos rfl]

end Sys2Proof.Machine
end

