-- ==== Sys2Proof/Proofs/WaveStarts.lean ====
section
/-! PROOFS. The start of a wave: each member drives on its EL profile or goes on to its pin (R129). -/

namespace Sys2Proof.Machine

variable {s t u : State} {a b : Ant}

/-! ### The other members' starts -/

/-- Of an antenna: its stow record, its PIN reading, its EL's motion and the inputs it is judged by stay. -/
structure Apart (a : Ant) (s t : State) : Prop where
  stow : t.stowOf a = s.stowOf a
  reading : (t.zone ⟨a, .pin⟩).reading = (s.zone ⟨a, .pin⟩).reading
  healthy : (t.zone ⟨a, .pin⟩).healthy = (s.zone ⟨a, .pin⟩).healthy
  field : t.field = s.field
  clock : t.clock = s.clock
  core : (t.axis ⟨a, .el⟩).core = (s.axis ⟨a, .el⟩).core
  waits : s.waits ⟨a, .el⟩ = false → t.waits ⟨a, .el⟩ = false

namespace Apart

theorem refl (s : State) : Apart a s s := ⟨rfl, rfl, rfl, rfl, rfl, rfl, id⟩

theorem trans (h : Apart a s t) (k : Apart a t u) : Apart a s u where
  stow := k.stow.trans h.stow
  reading := k.reading.trans h.reading
  healthy := k.healthy.trans h.healthy
  field := k.field.trans h.field
  clock := k.clock.trans h.clock
  core := k.core.trans h.core
  waits := k.waits ∘ h.waits

theorem ite {c : Prop} [Decidable c] (h : Apart a s t) (k : Apart a s u) : Apart a s (if c then t else u) := by
  split
  · exact h
  · exact k

/-- What follows an event may do, but for the EL of the antenna. -/
theorem of_still {p q : AxisId → Prop} (still : StillBut p q s t) (far : ¬p ⟨a, .el⟩) (follows : Follows s t) : Apart a s t := by
  have requests := follows.touches.same .zoneRequests (by decide) ⟨a, .pin⟩
  exact ⟨still.stow a, congrArg (fun r => r.1) requests, congrArg (fun r => r.2.1) requests, follows.field, follows.clock,
    still.core _ far, still.waits _ far⟩

theorem modStow (far : b ≠ a) (s : State) (f : StowRecord → StowRecord) : Apart a s (s.modStow b f) :=
  ⟨(State.stowOf_modStow ..).trans (if_neg far.symm), rfl, rfl, rfl, rfl, rfl, id⟩

theorem putDown (far : b ≠ a) (s : State) : Apart a s (s.putDown b) :=
  of_still (Still.stopBoth s b .stow .braked) (fun own => far own.1.symm) (.putDown s b)

theorem goInserting (far : b ≠ a) (s : State) : Apart a s (s.goInserting b) := by
  have entered := modStow far s fun r =>
    { r with state := .pinInserting, pinIn := true, pinTimer := some s.now, warmingTimer := none }
  exact ite (entered.trans ((modStow far ..).trans (putDown far _))) entered

theorem goWarming (far : b ≠ a) (s : State) : Apart a s (s.goWarming b) := by
  have forced (s : State) : Apart a s (s.startForce b) := by
    let t := s.modZone ⟨b, .pin⟩ fun z => { z with forced := true }
    have other : (⟨a, .pin⟩ : ZoneId) ≠ ⟨b, .pin⟩ := fun e => far (congrArg ZoneId.ant e).symm
    have requests := (t.refreshZone_others other).2.1
    have own : t.zone ⟨a, .pin⟩ = s.zone ⟨a, .pin⟩ := (State.zone_modZone ..).trans (if_neg other)
    rw [own] at requests
    have away : s.startForce b = { t with heat := (s.startForce b).heat, scratch := (s.startForce b).scratch } :=
      State.refreshZone_away ..
    have reading : ((s.startForce b).zone ⟨a, .pin⟩).reading = _ := congrArg (fun r => r.1) requests
    have healthy : ((s.startForce b).zone ⟨a, .pin⟩).healthy = _ := congrArg (fun r => r.2.1) requests
    refine ⟨?_, reading, healthy, ?_, ?_, ?_, ?_⟩
    all_goals rw [away]
    exacts [rfl, rfl, rfl, rfl, id]
  exact (modStow far ..).trans (forced _)

theorem arrive (far : b ≠ a) (s : State) : Apart a s (s.arrive b) := by
  have lowered : Apart a s (s.lowerWaveGrant b) := by
    unfold State.lowerWaveGrant
    split
    · exact refl s
    · exact ⟨rfl, rfl, rfl, rfl, rfl, rfl, id⟩
  exact ite (lowered.trans (goInserting far _)) (lowered.trans (goWarming far _))

theorem startMember {m : WaveMember} (far : m.ant ≠ a) (s : State) : Apart a s (s.startMember m) := by
  have driven := modStow far s fun r => { r with state := .driving, member := false }
  refine ite (driven.trans (arrive far _)) (driven.trans ?_)
  exact of_still (Still.beginProfile ..) (fun own => far (congrArg AxisId.ant own).symm) (.beginProfile ..)

end Apart

theorem Zone.readsAtLeast_congr {y z : Zone} (reading : y.reading = z.reading) (healthy : y.healthy = z.healthy) (least : Int) :
    y.readsAtLeast least = z.readsAtLeast least := by
  unfold Zone.readsAtLeast
  rw [reading, healthy]

/-! ### A member's own start -/

/-- Where a member goes on its start (R129). -/
def State.startState (s : State) (m : WaveMember) : StowState :=
  if m.distance = 0 then
    if (s.zone ⟨m.ant, .pin⟩).readsAtLeast 0 then (if (s.field.ants.get m.ant).pinIn then .stowed else .pinInserting)
    else .pinWarming
  else .driving

theorem Apart.startState {m : WaveMember} (h : Apart m.ant s t) : t.startState m = s.startState m := by
  unfold State.startState
  rw [Zone.readsAtLeast_congr h.reading h.healthy, h.field]

theorem State.arrive_member (s : State) (a : Ant) : ((s.arrive a).stowOf a).member = (s.stowOf a).member := by
  have lowered : (s.lowerWaveGrant a).stowOf a = s.stowOf a := congrArg (fun w : Stow => w.records.get a) (s.lowerWaveGrant_kept a).1
  unfold State.arrive
  dsimp only
  split
  · rw [((s.lowerWaveGrant a).goInserting_record a).2.2, lowered]
  · rw [State.goWarming, State.startForce, State.stowOf, State.refreshZone_stow]
    show (((s.lowerWaveGrant a).modStow a fun r =>
      { r with state := .pinWarming, warmingTimer := some (s.lowerWaveGrant a).now }).stowOf a).member = _
    rw [State.stowOf_modStow, if_pos rfl, lowered]

theorem State.startMember_own (s : State) (m : WaveMember) :
    ((s.startMember m).stowOf m.ant).member = false ∧ ((s.startMember m).stowOf m.ant).state = s.startState m
    ∧ (m.distance ≠ 0 → s.waits ⟨m.ant, .el⟩ = false → (s.startMember m).Slews ⟨m.ant, .el⟩ (m.profile s.now)) := by
  let t := s.modStow m.ant fun r => { r with state := .driving, member := false }
  have own : t.stowOf m.ant = { s.stowOf m.ant with state := .driving, member := false } := by
    rw [State.stowOf_modStow, if_pos rfl]
  unfold State.startMember State.startState
  dsimp only
  split
  next arrives =>
    refine ⟨?_, State.arrive_state t m.ant, fun far => absurd arrives far⟩
    rw [State.arrive_member, own]
  next far =>
    have still := Still.beginProfile t ⟨m.ant, .el⟩ (m.profile s.now)
    refine ⟨?_, ?_, fun _ free => State.beginProfile_slews (s := t) _ free⟩
    · rw [still.stow, own]
    · rw [still.stow, own]

/-! ### The start of all -/

theorem startEach_split {m : WaveMember} {ms : List WaveMember} (once : (ms.map WaveMember.ant).Nodup) (mem : m ∈ ms) (s : State) :
    ∃ u, Apart m.ant s u ∧ Apart m.ant (u.startMember m) (forEach ms (fun s m => s.startMember m) s) := by
  have rest (ns : List WaveMember) (s : State) (away : m.ant ∉ ns.map WaveMember.ant) :
      Apart m.ant s (forEach ns (fun s m => s.startMember m) s) := by
    induction ns generalizing s with
    | nil => exact .refl s
    | cons n ns ih =>
      obtain ⟨first, later⟩ := not_or.1 (List.mem_cons.not.1 away)
      exact (Apart.startMember (fun e => first e.symm) s).trans (ih _ later)
  induction ms generalizing s with
  | nil => cases mem
  | cons n ns ih =>
    obtain ⟨fresh, once⟩ := List.nodup_cons.1 once
    rcases List.mem_cons.1 mem with rfl | later
    · exact ⟨s, .refl s, rest ns _ fresh⟩
    · have far : n.ant ≠ m.ant := fun e => fresh (e ▸ List.mem_map_of_mem later)
      obtain ⟨u, before, after⟩ := ih once later (s.startMember n)
      exact ⟨u, (Apart.startMember far s).trans before, after⟩

theorem waveStart_row {w : Wave} (on : s.powered = true) (servo : s.atServo = true) (ready : s.waveReady = some w)
    (passes : ∀ m ∈ w.members, s.linePasses m = true) (once : (w.members.map WaveMember.ant).Nodup) :
    ∃ t, exec .waveStart s = .next t ∧ ∀ m ∈ w.members, (t.stowOf m.ant).member = false
      ∧ (t.stowOf m.ant).state = s.startState m
      ∧ (m.distance ≠ 0 → s.waits ⟨m.ant, .el⟩ = false → t.Slews ⟨m.ant, .el⟩ (m.profile s.now)) := by
  let f := fun s : State => match s.waveReady with
    | none => s
    | some w => s.startWave w
  let v := forEach w.members (fun s m => s.startMember m) (s.setWave none)
  have body : f s = v.markForm := by
    have none_ : (w.members.filter fun m => !s.linePasses m).isEmpty = true := by
      rw [List.isEmpty_iff, List.filter_eq_nil_iff]
      intro m mem
      rw [passes m mem]
      exact nofun
    show (match s.waveReady with | none => s | some w => s.startWave w) = _
    rw [ready]
    exact if_pos none_
  refine ⟨event s f, occur_due on (by rw [servo, ready]; rfl), fun m mem => ?_⟩
  obtain ⟨u, before, after⟩ := startEach_split once mem (s.setWave none)
  obtain ⟨member, state, slews⟩ := u.startMember_own m
  have cleared : Apart m.ant s (s.setWave none) := ⟨rfl, rfl, rfl, rfl, rfl, rfl, id⟩
  have begun := cleared.trans before
  have own : (f s).stowOf m.ant = (u.startMember m).stowOf m.ant := by
    rw [body]
    exact after.stow
  rw [begun.startState] at state
  have kept : (event s f).stowOf m.ant = (u.startMember m).stowOf m.ant := by
    refine event_quiet own ?_ ?_
    all_goals
      rw [state]
      unfold State.startState
      split_ifs <;> nofun
  refine ⟨(congrArg StowRecord.member kept).trans member, (congrArg StowRecord.state kept).trans state, fun far free => ?_⟩
  obtain ⟨slewing, profile, free'⟩ := slews far (begun.waits free)
  have now : u.now = s.now := congrArg Clock.epoch begun.clock
  rw [now] at profile
  have ended : v.Slews ⟨m.ant, .el⟩ (m.profile s.now) :=
    ⟨(Axis.core_state after.core).trans slewing, (congrArg (fun c => c.2.2.2.2.2.2.2.2) after.core).trans profile,
      after.waits free'⟩
  have marked : (f s).Slews ⟨m.ant, .el⟩ (m.profile s.now) := body ▸ ended
  exact marked.calm (event_calm s f)

/-- Settles O53: the formation by the walk of the stow order, the start member by member, and the pin row by row. -/
theorem wavesStartAndPinsMove : Obligations.WavesStartAndPinsMove := by
  unfold Obligations.WavesStartAndPinsMove
  refine ⟨fun s none_ once => ?_, ?_⟩
  · obtain ⟨k, r, formed, refused, is⟩ := State.formWave_forms none_ once
    dsimp only
    change ∃ k, let ants := (s.wind.record.order.filter s.waitsForWave).take k; _
    refine ⟨k, ?_⟩
    set ants := (s.wind.record.order.filter s.waitsForWave).take k
    have stow (b : Ant) : s.formWave.stowOf b = r.stowOf b := by rw [is]; split <;> rfl
    have feed : s.formWave.feed = r.feed := by rw [is]; split <;> rfl
    have drives : s.formWave.ants = r.ants := by rw [is]; split <;> rfl
    have axis (i : AxisId) : s.formWave.axis i = r.axis i := by unfold State.axis; rw [drives]
    refine ⟨fun a first => ?_, fun none_ => ?_, fun some_ => ⟨s.waveOf ants, ?_, ?_, rfl, fun m mem => ?_⟩,
      fun a mem => ⟨?_, ?_, ?_, ?_, fun x sound => ?_⟩, fun a far => ?_⟩
    · rw [is]
      split
      · exact refused a first
      · exact refused a first
    · rw [is, if_pos (List.isEmpty_iff.2 (show ants = [] from none_))]
      exact formed.wave.trans ‹_›
    · rw [is, if_neg fun e => some_ (show ants = [] from List.isEmpty_iff.1 e)]
      rfl
    · unfold State.waveOf
      rw [List.map_map]
      exact List.map_id _
    · obtain ⟨a, -, rfl⟩ := List.mem_map.1 mem
      exact ⟨rfl, rfl, rfl, rfl⟩
    · have waits : s.waitsForWave a = true := (List.mem_filter.1 (List.mem_of_mem_take mem)).2
      rw [stow, (formed.joined a mem).1]
      exact of_decide_eq_true (Bool.and_eq_true_iff.1 waits).1
    · rw [stow, (formed.joined a mem).1]
      rfl
    · rw [stow, (formed.joined a mem).1]
      rfl
    · rw [feed]
      exact (formed.joined a mem).2
    · rw [axis, drives]
      exact formed.claimed a mem x sound
    · rw [stow]
      exact (formed.others a far).1
  · intro s a on
    refine ⟨fun off => occur_idle on (by rw [off]; rfl), fun w servo ready passes once => ?_, fun temp warming =>
      heaterStep_pinRow on warming temp, fun e warming runs late => pinWarmingTimeout_row on warming runs late, fun inserting =>
      ⟨pinInSwitchMade_row on inserting, fun e runs late out => pinInsertTimeout_row on inserting runs late out⟩,
      pinInSwitchOpened_row on, pinOutSwitchMade_row on, fun e leaving runs late out =>
      pinWithdrawTimeout_row on leaving runs late out⟩
    obtain ⟨t, run, members⟩ := waveStart_row on servo ready passes once
    refine ⟨t, run, fun m mem => ?_⟩
    obtain ⟨member, state, slews⟩ := members m mem
    refine ⟨member, ?_⟩
    unfold State.startState at state
    split
    next arrives => rw [state, if_pos arrives]
    next far =>
      refine ⟨state.trans (if_neg far), fun free => ?_⟩
      obtain ⟨slewing, profile, -⟩ := slews far free
      exact ⟨slewing, profile⟩

end Sys2Proof.Machine
end
